-- ==== Sys2Proof/Word.lean ====
section
/-! DEFINITION. The plain word types of the engine and bit-field access on 128-bit instruction words. -/
namespace Sys2Proof

/-- A Control register: 64 bits, accessed whole (R359). -/
abbrev Reg := BitVec 64

/-- An instruction word of the furnish store or of Headbox (R278). -/
abbrev IWord := BitVec 128

/-- The eight sticky flags of a context or a channel (Table 2-6). -/
abbrev Flags := BitVec 8

/-- Bits [hi:lo] of an instruction word as a number (R12). -/
def IWord.fld (w : IWord) (hi lo : Nat) : Nat := (w.toNat >>> lo) % 2 ^ (hi + 1 - lo)

/-- Bit i of an instruction word. -/
def IWord.bit (w : IWord) (i : Nat) : Bool := w.toNat.testBit i

end Sys2Proof
end

