-- ==== Sys2Proof/Syntax.lean ====
section
/-! DEFINITION. The commands of the block: one constructor for each row of spec/opcode_table.json, with the operands that
the spec's text gives each step (log 7). -/
namespace Sys2Proof

abbrev ChanId := Fin 8
abbrev CtxId := Fin 1024
abbrev TenId := Fin 16
abbrev SliceId := Fin 8

/-- The fields of a RUN word (Table 10-3). -/
structure RunFields where
  psel : Bool
  evt : Bool
  rrst : Bool
  pseq : BitVec 16
  cbase : BitVec 14
  rbias : BitVec 32
  sbias : BitVec 30
  pass2 : Bool
  deriving DecidableEq, Repr

/-- The fields of an RCLOSE word (Table 10-14). -/
structure RcloseFields where
  rn : BitVec 8
  rcnt : BitVec 8
  ofmt : BitVec 4
  route : Bool
  ddof : Bool
  stats : Bool
  dest : Bool
  dslot : BitVec 4
  sel : BitVec 2
  deriving DecidableEq, Repr

/-- A Couch beat (Table 12-3). Slots and scale positions that the lists leave out hold zero. -/
structure CouchBeat where
  ctx : CtxId
  ten : TenId
  sot : Bool
  eot : Bool
  pseq : BitVec 16
  nrec : BitVec 6
  data : List (Nat × BitVec 32)
  sca : List (Nat × BitVec 8)
  scb : List (Nat × BitVec 8)
  deriving DecidableEq, Repr

/-- A Felt response beat (Table 12-7). -/
structure FeltResp where
  tag : Fin 64
  wack : Bool
  err : Bool
  last : Bool
  data : BitVec 256
  deriving DecidableEq, Repr

/-- The registers of a context entry that CONTEXT_FIELD_WRITE reaches (Table 9-1). -/
inductive EntryReg where | ctxst | ctxres | ctxloft | ctxstash
  deriving DecidableEq, Repr

/-- The counters of Table 11-4; cause c of CHPCAUSE is 1 to 11. -/
inductive PacingCounter where
  | chpstall
  | chpcause (c : Fin 11)
  | chstarve
  | chcrederr
  deriving DecidableEq, Repr

/-- The unit in which a SECDED word fails (Table 13-1, CHERR SRC of Table 13-4). The context is the one that holds the
word, where one does. -/
inductive ErrUnit where
  | vat (ch : ChanId) (holder : Option CtxId)
  | loft (ch : ChanId) (holder : Option CtxId) (line : Nat)
  | ream (ch : ChanId) (holder : Option CtxId) (ream : Nat)
  | couch (ch : ChanId)
  | egress (ch : ChanId)
  | furnish (ch : ChanId) (slot : Nat)
  | mailbox (entry : Nat)
  | millMemory (activeBank : Bool)
  | feltSlice (slice : SliceId) (tag : Fin 64)
  | headbox (rx : ChanId) (entry : Nat)
  deriving DecidableEq, Repr

/-- The island in which a corrected error is counted (R363, R380). -/
inductive Island where | chan (ch : ChanId) | uncore
  deriving DecidableEq, Repr

/-- A duplicated word of the uncore (Table 13-1). -/
inductive DupWord where
  | entry (c : CtxId) (reg : Fin 8)
  | status (c : CtxId) (reg : Fin 16)
  | master (slot : Nat) (high : Bool)
  | tenant (t : TenId) (reg : Fin 16)
  deriving DecidableEq, Repr

/-- The result of a self-test (Table 13-4, TRES). -/
inductive TestResult where | pass | mbistFail | lbistFail
  deriving DecidableEq, Repr

/-- A clock input (R382). -/
inductive ClockIn where | chan (ch : ChanId) | uncore
  deriving DecidableEq, Repr

/-- One constructor for each row of the table, in the table's order. -/
inductive Instr where
  | nop (ctx : CtxId) (ten : TenId)
  | run (ctx : CtxId) (ten : TenId) (w : RunFields)
  | discard (ctx : CtxId) (ten : TenId) (pseq : BitVec 16)
  | rclr (ctx : CtxId) (ten : TenId) (rn rcnt : BitVec 8) (kind : BitVec 3)
  | rexp (ctx : CtxId) (ten : TenId) (rn rcnt : BitVec 8)
  | rclose (ctx : CtxId) (ten : TenId) (w : RcloseFields)
  | lrel (ctx : CtxId) (ten : TenId) (lidx lcnt : BitVec 32)
  | lflush (ctx : CtxId) (ten : TenId) (lidx lcnt : BitVec 32)
  | headboxWord (rx : ChanId) (ctx : CtxId) (ten : TenId) (word : BitVec 128)
  | headboxDeliver (rx : ChanId)
  | runStart (ctx : CtxId)
  | creditGrant (ch : ChanId)
  | couchBeat (ch : ChanId) (beat : CouchBeat)
  | couchPresent (ch : ChanId)
  | abandonComplete (ctx : CtxId)
  | tileCommit (ctx : CtxId)
  | sampleRecordWrite (ctx : CtxId)
  | loftRecordWrite (ctx : CtxId)
  | stashWrite (ctx : CtxId)
  | reelPresent (ch : ChanId)
  | reelAccept (ch : ChanId)
  | runComplete (ctx : CtxId)
  | feltAccessIssue (sl : SliceId)
  | feltResponse (sl : SliceId) (r : FeltResp)
  | bind (ctx : CtxId)
  | unbind (ctx : CtxId)
  | teardown (ctx : CtxId)
  | restore (ctx : CtxId)
  | migrate (ctx : CtxId) (target : ChanId)
  | drainComplete (ctx : CtxId)
  | mbplWrite (t : TenId) (data : BitVec 64)
  | mbphWrite (t : TenId) (data : BitVec 64)
  | mbrptRead (t : TenId)
  | mbBind
  | mbUnbind
  | mbTeardown
  | mbRestore
  | mbMigrate
  | loadprog
  | quiesce (ch : ChanId)
  | test (ch : ChanId)
  | rejoin (ch : ChanId)
  | fence (ch : ChanId)
  | release (ch : ChanId)
  | drainTimeout (ch : ChanId)
  | uncorrectableError (unit : ErrUnit) (index : BitVec 24)
  | fenceWritebackDone (ch : ChanId)
  | selfTestDone (ch : ChanId) (res : TestResult)
  | furnishCopyDone (ch : ChanId)
  | correctedError (where_ : Island)
  | residueError (ctx : CtxId)
  | parityError (ch : ChanId) (owner : Option CtxId) (index : BitVec 24)
  | duplicateCopyError (word : DupWord) (both : Bool)
  | scrub (where_ : Island)
  | watchdogExpiry
  | millCoreFault
  | millRestartDone (activeBad : Bool)
  | millFirmwareLoad
  | microcodeLoad (ch : ChanId)
  | functionTableLoad (ch : ChanId)
  | maintenanceLoadDone (readBackOk : Bool)
  | power (ch : ChanId)
  | off (ch : ChanId)
  | switchesOpen (ch : ChanId)
  | powerUpDone (ch : ChanId)
  | throttleDecision (ch : ChanId) (temp : BitVec 8)
  | throttleStepEffect (ch : ChanId)
  | powerEstimate (milliwatts : Nat)
  | budgetRefill (ch : ChanId)
  | channelClockStop (ch : ChanId)
  | channelClockResume (ch : ChanId)
  | clockFrequencyChange (clk : ClockIn) (kHz : Nat)
  | resetAssert
  | resetRelease
  | uncoreInitDone
  | channelReport (ch : ChanId)
  | furnishLowWrite (slot : Fin 4096) (data : BitVec 64)
  | furnishHighWrite (slot : Fin 4096) (data : BitVec 64)
  | programChange (ctx : CtxId) (data : BitVec 64)
  | contextFieldWrite (ctx : CtxId) (reg : EntryReg) (data : BitVec 64)
  | ctxkeyWrite (ctx : CtxId) (data : BitVec 64)
  | ctxbudWrite (ctx : CtxId) (data : BitVec 64)
  | chwinWrite (ch : ChanId) (data : BitVec 64)
  | ctxflagClear (ctx : CtxId) (data : BitVec 64)
  | chflagClear (ch : ChanId) (data : BitVec 64)
  | ctxcapClear (ctx : CtxId) (data : BitVec 64)
  | ctxifltClear (ctx : CtxId) (data : BitVec 64)
  | ctxlostClear (ctx : CtxId) (data : BitVec 64)
  | ifstatClear (data : BitVec 64)
  | tevpendClear (t : TenId) (data : BitVec 64)
  | loftmarkClear (ctx : CtxId) (k : Fin 4) (data : BitVec 64)
  | dbgrselWrite (data : BitVec 64)
  | dbgrdescRead
  | pacingCounterRead (ch : ChanId) (which : PacingCounter)
  | ctxstallRead (ctx : CtxId)
  | chceRead (ch : ChanId)
  | ucceRead
  | trefcntRead (t : TenId)
  | fsstatRead
  | registerWrite (offset : BitVec 24) (data : BitVec 64)
  | wsBypass (seg : BitVec 4)
  | wsExtest (seg : BitVec 4)
  | wsPreload (seg : BitVec 4)
  | wsClamp (seg : BitVec 4)
  | wsSafe (seg : BitVec 4)
  | jwIdcode (seg : BitVec 4)
  | jwMbist (seg : BitVec 4)
  | jwLbist (seg : BitVec 4)
  | jwVendor (seg : BitVec 4)
  | vendorUnlock (value : BitVec 32)
  | wrapperReset
  | wrapperBistDone (ch : ChanId) (res : TestResult) (first : BitVec 16)
  | creditGrantAccept (ch : ChanId)
  | feltRequestAccept (sl : SliceId)
  | feltWriteDataAccept (sl : SliceId)
  | wrapperCapture (pins : List (Nat × Bool))
  | boundaryRegisterUpdate (cells : List (Nat × Bool))
  deriving DecidableEq, Repr

end Sys2Proof
end

