-- ==== Sys2Proof/Decode.lean ====
section
/-! DEFINITION. The words that opcode_table.json gives bits: none of its 117 rows has a bit pattern, so no word spells a
command (log 1). -/
namespace Sys2Proof

/-- The command that a word spells by the table's bits: none, because the table gives no row any. -/
def decodeTableWord (_nbits _w : Nat) : Option Instr := none

end Sys2Proof
end

