-- ==== Sys2Proof/Machine/Exact.lean ====
section
/-! DEFINITION. Exact values: the numbers of the manual's pseudocode (R18) that the engine forms without rounding,
as n / d × 2^e, together with the two infinities and NaN, and the exact binary operations of R128 to R129. -/
namespace Sys2Proof.Machine

/-- The exact rational n / d × 2^e. d is positive in every value the model builds. -/
structure XQ where
  n : Int
  d : Nat
  e : Int
  deriving DecidableEq, Repr, Inhabited

def XQ.zero : XQ := ⟨0, 1, 0⟩
def XQ.one : XQ := ⟨1, 1, 0⟩
def XQ.ofInt (i : Int) : XQ := ⟨i, 1, 0⟩
/-- pow2(e) of the manual's pseudocode. -/
def XQ.pow2 (e : Int) : XQ := ⟨1, 1, e⟩
def XQ.isZero (x : XQ) : Bool := x.n == 0
def XQ.neg (x : XQ) : XQ := { x with n := -x.n }
def XQ.abs (x : XQ) : XQ := { x with n := x.n.natAbs }
/-- x × 2^k. -/
def XQ.scale (x : XQ) (k : Int) : XQ := { x with e := x.e + k }

/-- A numerator and a denominator that stand for a / d × 2^s. -/
def shiftFrac (a d : Nat) (s : Int) : Nat × Nat :=
  match s with
  | .ofNat k => (a <<< k, d)
  | .negSucc k => (a, d <<< (k + 1))

/-- floor_log2(|x|) for x ≠ 0. -/
def XQ.floorLog2 (x : XQ) : Int :=
  let a := x.n.natAbs
  let l : Int := (Nat.log2 a : Int) - (Nat.log2 x.d : Int)
  let (p, q) := shiftFrac a x.d (-l)
  (if p < q then l - 1 else l) + x.e

/-- nearest_even(a / d) for d > 0. -/
def nearestEvenNat (a d : Nat) : Nat :=
  let q := a / d
  let r := a % d
  if 2 * r < d then q else if d < 2 * r then q + 1 else if q % 2 = 0 then q else q + 1

/-- nearest_even(|x| × 2^s), and whether it is exact. A value below a quarter is not shifted out in full. -/
def XQ.near (x : XQ) (s : Int) : Nat × Bool :=
  if x.n = 0 then (0, true)
  else if x.floorLog2 + s < -2 then (0, false)
  else
    let (p, q) := shiftFrac x.n.natAbs x.d (x.e + s)
    let y := nearestEvenNat p q
    (y, y * q = p)

/-- floor(|x| × 2^s), and whether it is exact. -/
def XQ.trunc (x : XQ) (s : Int) : Nat × Bool :=
  if x.n = 0 then (0, true)
  else if x.floorLog2 + s < 0 then (0, false)
  else
    let (p, q) := shiftFrac x.n.natAbs x.d (x.e + s)
    (p / q, p % q = 0)

/-- The distance in powers of two beyond which a smaller summand only shows its sign (DEDUCED, log 8). -/
def stickyGap : Int := 16384

/-- a + b with aligned exponents. -/
def XQ.addAligned (a b : XQ) : XQ :=
  let e := min a.e b.e
  let m : Int := a.n * (2 ^ (a.e - e).toNat : Nat) * b.d
  let k : Int := b.n * (2 ^ (b.e - e).toNat : Nat) * a.d
  ⟨m + k, a.d * b.d, e⟩

/-- a + b. Where b lies more than stickyGap powers of two (and more than four times the length of a) below a,
it is replaced by a value of its sign at that distance, which rounds and compares alike (DEDUCED, log 8). -/
def XQ.addFar (a b : XQ) : XQ :=
  let g := stickyGap + 4 * ((Nat.log2 a.n.natAbs : Int) + (Nat.log2 a.d : Int))
  let top := a.floorLog2
  if top - b.floorLog2 ≤ g then a.addAligned b
  else a.addAligned ⟨if b.n < 0 then -1 else 1, 1, top - g⟩

/-- The exact sum. -/
def XQ.add (a b : XQ) : XQ :=
  if a.n = 0 then b
  else if b.n = 0 then a
  else if b.floorLog2 ≤ a.floorLog2 then a.addFar b else b.addFar a

def XQ.sub (a b : XQ) : XQ := a.add b.neg
def XQ.mul (a b : XQ) : XQ := if a.n = 0 ∨ b.n = 0 then XQ.zero else ⟨a.n * b.n, a.d * b.d, a.e + b.e⟩
/-- a / b for b ≠ 0. -/
def XQ.div (a b : XQ) : XQ :=
  if a.n = 0 then XQ.zero
  else ⟨(if b.n < 0 then -a.n else a.n) * b.d, a.d * b.n.natAbs, a.e - b.e⟩

/-- The sign of a − b. -/
def XQ.cmp (a b : XQ) : Int := ((a.sub b).n).sign
def XQ.lt (a b : XQ) : Bool := a.cmp b < 0
def XQ.le (a b : XQ) : Bool := a.cmp b ≤ 0
def XQ.eqv (a b : XQ) : Bool := a.cmp b = 0
/-- Whether x is an integer, and its value. -/
def XQ.toInt? (x : XQ) : Option Int :=
  if x.n = 0 then some 0
  else if x.e > 4096 then none
  else
    let (p, q) := shiftFrac x.n.natAbs x.d x.e
    if p % q = 0 then some (if x.n < 0 then -((p / q : Nat) : Int) else ((p / q : Nat) : Int)) else none

/-- A numeric value of the pseudocode: exact real, ±∞ or NaN (R18). −0 decodes to zero (R54). -/
inductive Val where
  | nan
  | inf (neg : Bool)
  | fin (q : XQ)
  deriving DecidableEq, Repr, Inhabited

def Val.zero : Val := .fin XQ.zero
def Val.one : Val := .fin XQ.one
def Val.ofInt (i : Int) : Val := .fin (XQ.ofInt i)
def Val.isNan : Val → Bool | .nan => true | _ => false
def Val.isInf : Val → Bool | .inf _ => true | _ => false
def Val.isZero : Val → Bool | .fin q => q.isZero | _ => false
/-- x < 0, with −∞ included. -/
def Val.isNeg : Val → Bool | .inf b => b | .fin q => q.n < 0 | .nan => false
def Val.neg : Val → Val | .nan => .nan | .inf b => .inf (!b) | .fin q => .fin q.neg
def Val.abs : Val → Val | .nan => .nan | .inf _ => .inf false | .fin q => .fin q.abs
def Val.scale (v : Val) (k : Int) : Val := match v with | .fin q => .fin (q.scale k) | w => w

/-- Numbers only: a < b on the extended reals (false when one is NaN). -/
def Val.lt : Val → Val → Bool
  | .nan, _ => false
  | _, .nan => false
  | .inf true, .inf true => false
  | .inf true, _ => true
  | _, .inf true => false
  | .inf false, _ => false
  | .fin _, .inf false => true
  | .fin a, .fin b => a.lt b

/-- Numbers only: a = b, with −0 equal to +0. -/
def Val.eqv : Val → Val → Bool
  | .inf a, .inf b => a == b
  | .fin a, .fin b => a.eqv b
  | _, _ => false

/-- The arithmetic operations of binop (R128). -/
inductive Arith where | add | sub | mul | div
  deriving DecidableEq, Repr

/-- binop of R128 for add, sub, mul and div: the exact value, and whether invalid is raised. -/
def binop (op : Arith) (a b : Val) : Val × Bool :=
  match a, b with
  | .nan, _ => (.nan, false)
  | _, .nan => (.nan, false)
  | .inf s, .inf t =>
    match op with
    | .add => if s = t then (.inf s, false) else (.nan, true)
    | .sub => if s = t then (.nan, true) else (.inf s, false)
    | .mul => (.inf (s != t), false)
    | .div => (.nan, true)
  | .inf s, .fin q =>
    match op with
    | .add => (.inf s, false)
    | .sub => (.inf s, false)
    | .mul => if q.isZero then (.nan, true) else (.inf (s != decide (q.n < 0)), false)
    | .div => if q.isZero then (.inf s, false) else (.inf (s != decide (q.n < 0)), false)
  | .fin q, .inf t =>
    match op with
    | .add => (.inf t, false)
    | .sub => (.inf (!t), false)
    | .mul => if q.isZero then (.nan, true) else (.inf (t != decide (q.n < 0)), false)
    | .div => (Val.zero, false)
  | .fin q, .fin r =>
    match op with
    | .add => (.fin (q.add r), false)
    | .sub => (.fin (q.sub r), false)
    | .mul => (.fin (q.mul r), false)
    | .div =>
      if r.isZero then (if q.isZero then (.nan, true) else (.inf (decide (q.n < 0)), false))
      else (.fin (q.div r), false)

/-- pick of R129: every NaN loses to every number; exact, no flag. -/
def pick (larger : Bool) (a b : Val) : Val :=
  match a, b with
  | .nan, w => w
  | w, .nan => w
  | v, w => if larger then (if v.lt w then w else v) else (if w.lt v then w else v)

/-- The sign of a sum of signed terms m × 2^e, exactly, without forming the sum where its terms lie far apart.
The list is in descending order of exponent. acc stands at exponent at; bits bounds the length of every term. -/
def signSumGo (bits : Nat) (acc : Int) (e0 : Int) : List (Int × Int) → Int
  | [] => acc.sign
  | (m, e) :: rest =>
    if acc = 0 then signSumGo bits m e rest
    else
      let gap := e0 - e
      if gap > (bits : Int) then acc.sign
      else signSumGo bits (acc * (2 ^ gap.toNat : Nat) + m) e rest

/-- Descending insertion by exponent. -/
def insertDesc (t : Int × Int) : List (Int × Int) → List (Int × Int)
  | [] => [t]
  | u :: us => if t.2 < u.2 then u :: insertDesc t us else t :: u :: us

/-- The sign of Σ m × 2^e. -/
def signSum (ts : List (Int × Int)) : Int :=
  let bits := ts.foldl (fun b t => max b (Nat.log2 t.1.natAbs)) 0 + Nat.log2 ts.length + 4
  signSumGo bits 0 0 (ts.foldr insertDesc [])

end Sys2Proof.Machine
end

