-- ==== Sys2Proof/Config.lean ====
section
/-! DEFINITION. What an implementation fixes, and the free values: constants without a body, so that no proof can see
a value and every claim holds for each. -/
namespace Sys2Proof.Config
open Sys2Proof.Machine

/-- Which of the FP32 values admitted by R120 a block returns for a function code and its operands; the index is taken
modulo the number of admitted values (log 10). -/
opaque faithful : Nat → Val → Val → Nat

/-- The same choice for log_faithful (R145) of k ln 2 + ln(W × 2^(−300)), by W and k (log 10). -/
opaque faithfulLog : Nat → Int → Nat

/-- The same choice for rsqrt_faithful (R150) (log 10). -/
opaque faithfulRsqrt : Val → Nat

/-- r of norm_close for a sum v + eps below zero, by the codes of v and of eps: R150 defines rsqrt_faithful for v > 0 only (log 68). -/
opaque rsqrtNegative : Nat → Nat → BitVec 32

/-- JWMK[31:0], fixed for each delivered build and not published in the manual (R406) (log 11). -/
opaque jwmk : BitVec 32

/-- CRC of the ROM baseline microcode of a channel (R410) (log 11). -/
opaque romMicrocodeCrc : BitVec 32

/-- CRC of the ROM baseline function tables of a channel (R410) (log 11). -/
opaque romTableCrc : BitVec 32

/-- The unlock value of JW_VENDOR (R428), not published (log 11). -/
opaque unlockValue : BitVec 32

/-- n_g under Vat hold of a program that declares no hold slot: R434 takes it from the hold slot's ROWS (log 23). -/
opaque holdRows : Nat

/-- A value the manual leaves open, by a serial number: every use takes a new one (log 5). -/
opaque freeValue : Nat → BitVec 64

end Sys2Proof.Config
end

