-- ==== Sys2Proof/Machine/Flags.lean ====
section
/-! DEFINITION. The sticky flags (Table 2-6): their bits, the union of raised flags, and an element's offence. -/
namespace Sys2Proof.Machine

/-- [0] invalid. -/
def flInvalid : Flags := 0x01#8
/-- [1] overflow. -/
def flOverflow : Flags := 0x02#8
/-- [2] underflow. -/
def flUnderflow : Flags := 0x04#8
/-- [3] inexact. -/
def flInexact : Flags := 0x08#8
/-- [4] ingress NaN. -/
def flIngressNan : Flags := 0x10#8
/-- [5] saturation. -/
def flSaturation : Flags := 0x20#8
/-- [6] sequence error. -/
def flSequence : Flags := 0x40#8
/-- [7] stash overflow. -/
def flStashOvf : Flags := 0x80#8

def flNone : Flags := 0#8

/-- A flag raised or not. -/
def flIf (b : Bool) (f : Flags) : Flags := if b then f else flNone

/-- invalid raised or not (R128). -/
def invIf (b : Bool) : Flags := flIf b flInvalid

/-- A sticky flag once set stays set (R72): raising is a union. -/
def Flags.raise (old new : Flags) : Flags := old ||| new

/-- Writing 1 clears, writing 0 leaves (Table 0-2, W1C). -/
def Flags.w1c (old written : Flags) : Flags := old &&& ~~~written

/-- Whether a set of flags holds invalid. -/
def Flags.hasInvalid (f : Flags) : Bool := f &&& flInvalid != 0#8

end Sys2Proof.Machine
end

