-- ==== Sys2Proof/Machine/Formats.lean ====
section
/-! DEFINITION. The element formats of Table 2-1: decode (R56), round_rne (R57), conversion to integers (R58), convert
(R59), the block-scaled formats (R61 to R68) and the split of FP32 (R69). -/
namespace Sys2Proof.Machine

/-- An element format with one code per element. The MX codes of Table 2-1 name E4M3 or E5M2 and a block size. -/
inductive Fmt where | fp32 | fp16 | bf16 | e4m3 | e5m2 | int8 | int32
  deriving DecidableEq, Repr

/-- Element width in bits (Table 2-1). -/
def Fmt.width : Fmt → Nat
  | .fp32 => 32 | .fp16 => 16 | .bf16 => 16 | .e4m3 => 8 | .e5m2 => 8 | .int8 => 8 | .int32 => 32

def Fmt.isInt : Fmt → Bool | .int8 => true | .int32 => true | _ => false

/-- Fraction bits m (Table 2-2). -/
def Fmt.mant : Fmt → Nat
  | .fp32 => 23 | .fp16 => 10 | .bf16 => 7 | .e4m3 => 3 | .e5m2 => 2 | .int8 => 0 | .int32 => 0
/-- Exponent field width (Table 2-2). -/
def Fmt.ew : Fmt → Nat
  | .fp32 => 8 | .fp16 => 5 | .bf16 => 8 | .e4m3 => 4 | .e5m2 => 5 | .int8 => 0 | .int32 => 0
/-- Bias (Table 2-2). -/
def Fmt.bias : Fmt → Int
  | .fp32 => 127 | .fp16 => 15 | .bf16 => 127 | .e4m3 => 7 | .e5m2 => 15 | .int8 => 0 | .int32 => 0
/-- Exponent of the smallest normal (R57). -/
def Fmt.emin : Fmt → Int
  | .fp32 => -126 | .fp16 => -14 | .bf16 => -126 | .e4m3 => -6 | .e5m2 => -14 | .int8 => 0 | .int32 => 0
/-- Largest finite code without its sign (Table 2-3). -/
def Fmt.maxCode : Fmt → Nat
  | .fp32 => 0x7F7FFFFF | .fp16 => 0x7BFF | .bf16 => 0x7F7F | .e4m3 => 0x7E | .e5m2 => 0x7B | .int8 => 127
  | .int32 => 0x7FFFFFFF
/-- Canonical NaN (Table 2-4). -/
def Fmt.nanCode : Fmt → Nat
  | .fp32 => 0x7FC00000 | .fp16 => 0x7E00 | .bf16 => 0x7FC0 | .e4m3 => 0x7F | .e5m2 => 0x7E | .int8 => 0 | .int32 => 0
/-- +∞ (Table 2-4); E4M3 and the integers have none. -/
def Fmt.infCode : Fmt → Nat
  | .fp32 => 0x7F800000 | .fp16 => 0x7C00 | .bf16 => 0x7F80 | .e4m3 => 0x7F | .e5m2 => 0x7C | .int8 => 0 | .int32 => 0
/-- Largest finite value: (2 − 2^(−m)) × 2^emax, but 448 in E4M3 (Table 2-3). -/
def Fmt.maxFin : Fmt → XQ
  | .fp32 => ⟨0xFFFFFF, 1, 104⟩ | .fp16 => ⟨0x7FF, 1, 5⟩ | .bf16 => ⟨0xFF, 1, 120⟩ | .e4m3 => ⟨7, 1, 6⟩
  | .e5m2 => ⟨7, 1, 13⟩ | .int8 => ⟨127, 1, 0⟩ | .int32 => ⟨0x7FFFFFFF, 1, 0⟩

/-- The NaN codes of Table 2-4, on a code without its sign bit. -/
def Fmt.isNanMag (f : Fmt) (mag : Nat) : Bool :=
  match f with
  | .int8 | .int32 => false
  | .e4m3 => mag = 0x7F
  | _ => mag > f.infCode

/-- decode of R56: the exact value of a code. -/
def decode (b : Nat) (f : Fmt) : Val :=
  let w := f.width
  let b := b % 2 ^ w
  let s := b.testBit (w - 1)
  if f.isInt then Val.ofInt (if s then (b : Int) - (2 ^ w : Nat) else b)
  else
    let mag := b % 2 ^ (w - 1)
    if f.isNanMag mag then .nan
    else if f != .e4m3 && mag == f.infCode then .inf s
    else
      let ef := mag >>> f.mant
      let mf := mag % 2 ^ f.mant
      let q : XQ :=
        if ef = 0 then ⟨mf, 1, 1 - f.bias - f.mant⟩
        else ⟨(2 ^ f.mant + mf : Nat), 1, (ef : Int) - f.bias - f.mant⟩
      .fin (if s then q.neg else q)

/-- The code of a value that the format holds; +0 for zero (R54), the canonical NaN for NaN (R52). -/
def encode (v : Val) (f : Fmt) : Nat :=
  let sgn (b : Bool) : Nat := if b then 2 ^ (f.width - 1) else 0
  match v with
  | .nan => f.nanCode
  | .inf b => if f = .e4m3 then f.nanCode else sgn b + f.infCode
  | .fin q =>
    if q.n = 0 then 0
    else if f.isInt then
      let m := (q.near 0).1
      if q.n < 0 then (2 ^ f.width - m) % 2 ^ f.width else m
    else
      let e := q.floorLog2
      if e < f.emin then sgn (q.n < 0) + (q.near ((f.mant : Int) - f.emin)).1
      else sgn (q.n < 0) + (e + f.bias).toNat * 2 ^ f.mant + ((q.near ((f.mant : Int) - e)).1 - 2 ^ f.mant)

/-- to_int of R58. -/
def toIntRound (x : Val) (w : Nat) : Val × Flags :=
  let lo : Int := -(2 ^ (w - 1) : Nat)
  let hi : Int := (2 ^ (w - 1) : Nat) - 1
  match x with
  | .nan => (Val.zero, flInvalid)
  | .inf b => (Val.ofInt (if b then lo else hi), flInvalid)
  | .fin q =>
    if (XQ.ofInt (hi + 1)).lt q.abs then (Val.ofInt (if q.n < 0 then lo else hi), flInvalid)
    else
      let (m, ex) := q.near 0
      let n : Int := if q.n < 0 then -(m : Int) else m
      if n > hi then (Val.ofInt hi, flInvalid)
      else if n < lo then (Val.ofInt lo, flInvalid)
      else (Val.ofInt n, flIf (!ex) flInexact)

/-- round_rne of R57 on a finite non-zero value and a floating-point format. -/
def roundFin (q : XQ) (f : Fmt) : Val × Flags :=
  let neg := decide (q.n < 0)
  let e := q.floorLog2
  if e > f.emin + 2 ^ f.ew then   -- far above the largest finite value
    (if f = .e4m3 then .nan else .inf neg, flOverflow ||| flInexact)
  else
    let g := max e f.emin - f.mant              -- exponent of the spacing of f near x
    let (k, ex) := q.near (-g)
    let y : XQ := ⟨if neg then -(k : Int) else k, 1, g⟩
    let (kt, _) := q.near ((f.mant : Int) - e)    -- t: exponent range unbounded below
    let t : XQ := ⟨kt, 1, e - f.mant⟩
    let tiny := t.lt (XQ.pow2 f.emin)
    let fl := flIf (!ex) flInexact ||| flIf (tiny && !ex) flUnderflow
    if f.maxFin.lt y.abs then
      (if f = .e4m3 then .nan else .inf neg, fl ||| flOverflow ||| flInexact)
    else if k = 0 then (Val.zero, fl)
    else (.fin y, fl)

/-- round_rne of R57, with its flags. -/
def roundRne (x : Val) (f : Fmt) : Val × Flags :=
  match f with
  | .int8 => toIntRound x 8
  | .int32 => toIntRound x 32
  | _ =>
    match x with
    | .nan => (.nan, flNone)
    | .inf b => if f = .e4m3 then (.nan, flInvalid) else (.inf b, flNone)
    | .fin q => if q.n = 0 then (Val.zero, flNone) else roundFin q f

/-- convert of R59: sat acts on E4M3 and E5M2 only (R60). -/
def convert (v : Val) (f : Fmt) (sat : Bool) : Val × Flags :=
  let top (neg : Bool) : Val := .fin (if neg then f.maxFin.neg else f.maxFin)
  if sat && (f == .e4m3 || f == .e5m2) then
    match v with
    | .inf b => (top b, flOverflow)
    | _ =>
      let (y, fl) := roundRne v f
      if y.isInf || (y.isNan && !v.isNan) then (top v.isNeg, fl) else (y, fl)
  else roundRne v f

/-- convert, answered as a code of the destination. -/
def convertCode (v : Val) (f : Fmt) (sat : Bool) : Nat × Flags :=
  let (y, fl) := convert v f sat
  (encode y f, fl)

/-- A format code of Table 2-1 that an element may have: plain, or MX with its element format and block size. -/
inductive OFmt where
  | plain (f : Fmt)
  | mx (elem : Fmt) (block : Nat)
  deriving DecidableEq, Repr

/-- Table 2-1, codes 0x0 to 0xA (0xB is the ream limb stream, 0xC to 0xF are reserved). -/
def OFmt.ofCode : Nat → Option OFmt
  | 0x0 => some (.plain .fp32)
  | 0x1 => some (.plain .fp16)
  | 0x2 => some (.plain .bf16)
  | 0x3 => some (.plain .e4m3)
  | 0x4 => some (.plain .e5m2)
  | 0x5 => some (.mx .e4m3 32)
  | 0x6 => some (.mx .e4m3 16)
  | 0x7 => some (.mx .e5m2 32)
  | 0x8 => some (.mx .e5m2 16)
  | 0x9 => some (.plain .int8)
  | 0xA => some (.plain .int32)
  | _ => none

/-- The element format of a code, MX or not; FP32 where the code has none (never read there). -/
def elemFmt (code : Nat) : Fmt :=
  match OFmt.ofCode code with
  | some (.plain f) => f
  | some (.mx f _) => f
  | none => .fp32

/-- Whether a code is one of the MX codes 0x5 to 0x8. -/
def isMx (code : Nat) : Bool := 5 ≤ code && code ≤ 8
/-- The block size of an MX code. -/
def mxBlock (code : Nat) : Nat := if code = 6 || code = 8 then 16 else 32
/-- Element width in bits of a format code. -/
def codeWidth (code : Nat) : Nat := (elemFmt code).width

/-- The value of an MX element under a block scale code (R61); c = 0xFF makes it NaN. -/
def mxValue (b c : Nat) (elem : Fmt) : Val :=
  if c = 0xFF then .nan else (decode b elem).scale ((c : Int) - 127)

/-- scale_sum of R67: none is NaN. -/
def scaleSum (ca cb : Nat) : Option Int :=
  if ca = 0xFF || cb = 0xFF then none else some (((ca : Int) - 127) + ((cb : Int) - 127))

/-- The exponent of an MX element format's largest finite value (R64). -/
def emaxOf : Fmt → Int | .e4m3 => 8 | _ => 15

/-- The scale code for a block whose largest finite magnitude has the given floor_log2 (none: no non-zero finite
element), from mx_scale of R64. -/
def mxScaleOf (anyNan : Bool) (top : Option Int) (elem : Fmt) : Nat :=
  if anyNan then 0xFF
  else match top with
    | none => 0x7F
    | some l => (min (max (l - emaxOf elem) (-127)) 127 + 127).toNat

/-- mx_scale of R64 over exact values. -/
def mxScale (vals : List Val) (elem : Fmt) : Nat :=
  let top := vals.foldl (fun (m : Option Int) v =>
    match v with
    | .fin q => if q.n = 0 then m else
        (match m with | none => some q.floorLog2 | some l => some (max l q.floorLog2))
    | _ => m) none
  mxScaleOf (vals.any Val.isNan) top elem

/-- mx_quantise of R64: the scale, the element codes, and the flags raised. -/
def mxQuantise (vals : List Val) (elem : Fmt) : Nat × List Nat × Flags :=
  let c := mxScale vals elem
  if c = 0xFF then (c, vals.map fun _ => elem.nanCode, flNone)
  else
    let rs := vals.map fun v => convertCode (v.scale (127 - (c : Int))) elem true
    (c, rs.map Prod.fst, rs.foldl (fun f r => f ||| r.2) flNone)

/-- One block of a product in scale-carry mode (R68): the scale code, the element codes and the flags. prods are the products of the
element values before scaling. Above 127 an infinite E5M2 product stays infinite, the exemption of R64, and a NaN product counts as a
non-zero element for inexact (log 69). -/
def scaleCarry (ca cb : Nat) (prods : List Val) (elem : Fmt) : Nat × List Nat × Flags :=
  match scaleSum ca cb with
  | none => (0xFF, prods.map fun _ => elem.nanCode, flNone)
  | some s =>
    if s > 127 then
      let one (v : Val) : Nat :=
        match v with
        | .fin q => if q.n = 0 then 0 else
            if elem = .e4m3 then encode (.fin (if q.n < 0 then elem.maxFin.neg else elem.maxFin)) elem
            else encode (.inf (decide (q.n < 0))) elem
        | .inf b => if elem = .e4m3 then (convertCode (.inf b) elem true).1 else encode (.inf b) elem
        | .nan => elem.nanCode
      (0xFE, prods.map one, flOverflow ||| flIf (prods.any fun v => !v.isZero) flInexact)
    else if s < -127 then
      let rs := prods.map fun v => convertCode (v.scale (s + 127)) elem true
      (0x00, rs.map Prod.fst, flUnderflow ||| rs.foldl (fun f r => f ||| r.2) flNone)
    else
      let rs := prods.map fun v => convertCode v elem true
      ((s + 127).toNat, rs.map Prod.fst, rs.foldl (fun f r => f ||| r.2) flNone)

/-- A finite value rounded to BF16 with saturation: never an infinity (R69). -/
def bf16Piece (q : XQ) : XQ :=
  match (roundRne (.fin q) .bf16).1 with
  | .fin p => p
  | _ => if q.n < 0 then (Fmt.maxFin .bf16).neg else Fmt.maxFin .bf16

/-- split of R69 into n BF16 pieces: the piece codes and what is left of r. Every piece of a finite x is finite: R69 saturates the
first, and of an FP32 value no later one overflows (log 9). -/
def splitBf16Go : Val → Nat → List Nat × Val
  | r, 0 => ([], r)
  | .nan, k + 1 => let (ps, z) := splitBf16Go .nan k; (Fmt.nanCode .bf16 :: ps, z)
  | .inf b, k + 1 => let (ps, z) := splitBf16Go Val.zero k; (encode (.inf b) .bf16 :: ps, z)
  | .fin q, k + 1 =>
    let p := bf16Piece q
    let (ps, z) := splitBf16Go (.fin (q.sub p)) k
    (encode (.fin p) .bf16 :: ps, z)

/-- split of R69 for BF16 pieces. Inexact is the only flag, raised when the pieces do not sum to x. -/
def splitBf16 (x : Val) (n : Nat) : List Nat × Flags :=
  let (ps, r) := splitBf16Go x n
  (ps, match r with | .fin q => flIf (q.n != 0) flInexact | _ => flNone)

/-- The pieces of one MX block under split (R69): per piece its scale and element codes; then the residuals. A finite element of a
block whose scale is NaN leaves its whole value (log 70). -/
def splitMxGo (elem : Fmt) (vals : List Val) : Nat → List (Nat × List Nat) × List Val
  | 0 => ([], vals)
  | k + 1 =>
    let (c, codes, _) := mxQuantise vals elem
    let back := codes.map fun b => mxValue b c elem
    let res := (vals.zip back).map fun vb =>
      match vb.1, vb.2 with
      | .fin a, .fin b => Val.fin (a.sub b)
      | v, _ => v
    let (ps, z) := splitMxGo elem res k
    ((c, codes) :: ps, z)

/-- split of R69 for MX pieces of one block. -/
def splitMx (vals : List Val) (n : Nat) (elem : Fmt) : List (Nat × List Nat) × Flags :=
  let (ps, res) := splitMxGo elem vals n
  (ps, flIf (res.any fun v => match v with | .fin q => q.n != 0 | .inf _ => true | .nan => false) flInexact)

end Sys2Proof.Machine
end

