-- ==== Sys2Proof/Machine/RealFn.lean ====
section
/-! DEFINITION. Bounds on the real functions of the catalogue. R118 and R122 define results by the exact real value of
eˣ, ln x, sin x, erf x and so on. A working precision p gives two dyadic numbers between which the real value lies;
raising p narrows them until every rounding question about the value is decided (log 9). -/
namespace Sys2Proof.Machine

/-- A closed interval of dyadic numbers (d = 1 in both ends). -/
structure Iv where
  lo : XQ
  hi : XQ
  deriving DecidableEq, Repr, Inhabited

/-- x rounded down (up := false) or up to about p bits; also turns a quotient into a dyadic number. -/
def XQ.cut (p : Nat) (up : Bool) (x : XQ) : XQ :=
  if x.n = 0 then XQ.zero
  else
    let s : Int := (p : Int) - x.floorLog2
    let (k, ex) := x.trunc s
    let neg := decide (x.n < 0)
    let k := if !ex && (up != neg) then k + 1 else k
    ⟨if neg then -(k : Int) else k, 1, -s⟩

/-- a + b rounded outward; a summand far below the other only widens the bound. -/
def XQ.addDir (p : Nat) (up : Bool) (a b : XQ) : XQ :=
  let far (x : XQ) (y : XQ) : XQ :=
    if x.floorLog2 - y.floorLog2 > 2 * (p : Int) + 64 then
      let tiny : XQ := XQ.pow2 (x.floorLog2 - 2 * (p : Int) - 60)
      if decide (y.n < 0) == up then x.cut (2 * p + 64) up
      else (x.addAligned (if up then tiny else tiny.neg)).cut (2 * p + 64) up
    else (x.addAligned y).cut p up
  if a.n = 0 then b.cut p up
  else if b.n = 0 then a.cut p up
  else if b.floorLog2 ≤ a.floorLog2 then far a b else far b a

def Iv.exact (x : XQ) : Iv := ⟨x, x⟩
/-- The dyadic interval about a rational. -/
def Iv.ofXQ (p : Nat) (x : XQ) : Iv := ⟨x.cut p false, x.cut p true⟩
def Iv.ofInt (i : Int) : Iv := Iv.exact (XQ.ofInt i)
def Iv.neg (a : Iv) : Iv := ⟨a.hi.neg, a.lo.neg⟩
def Iv.add (p : Nat) (a b : Iv) : Iv := ⟨a.lo.addDir p false b.lo, a.hi.addDir p true b.hi⟩
def Iv.sub (p : Nat) (a b : Iv) : Iv := a.add p b.neg
def XQ.minq (a b : XQ) : XQ := if a.le b then a else b
def XQ.maxq (a b : XQ) : XQ := if a.le b then b else a
def Iv.mul (p : Nat) (a b : Iv) : Iv :=
  let w := a.lo.mul b.lo
  let x := a.lo.mul b.hi
  let y := a.hi.mul b.lo
  let z := a.hi.mul b.hi
  ⟨(XQ.minq (XQ.minq w x) (XQ.minq y z)).cut p false, (XQ.maxq (XQ.maxq w x) (XQ.maxq y z)).cut p true⟩
/-- 1 / a for an interval of positive numbers. -/
def Iv.recip (p : Nat) (a : Iv) : Iv := ⟨(XQ.one.div a.hi).cut p false, (XQ.one.div a.lo).cut p true⟩
def Iv.div (p : Nat) (a b : Iv) : Iv := a.mul p (b.recip p)
def Iv.half (a : Iv) : Iv := ⟨a.lo.scale (-1), a.hi.scale (-1)⟩
def Iv.dbl (a : Iv) : Iv := ⟨a.lo.scale 1, a.hi.scale 1⟩

/-! Fixed-point constants and series. A number with w fraction bits is an integer; each is in error by a few units. -/

/-- Σ over odd powers: 1/k + 1/(3 k³) + … (alt: with alternating signs) in units of 2^(−w). -/
def invSeries (k2 : Nat) (alt : Bool) : Nat → Nat → Nat → Int → Int
  | 0, _, _, acc => acc
  | fuel + 1, i, pw, acc =>
    if pw = 0 then acc
    else
      let t : Int := ((pw / (2 * i + 1) : Nat) : Int)
      invSeries k2 alt fuel (i + 1) (pw / k2) (if alt && i % 2 == 1 then acc - t else acc + t)

/-- ln 2 in units of 2^(−w), low by less than w + 4 units: 2 atanh(1/3). -/
def ln2Fix (w : Nat) : Int := 2 * invSeries 9 false (w + 4) 0 ((2 ^ w) / 3) 0
/-- π in units of 2^(−w), within 40 (w + 4) units: 16 atan(1/5) − 4 atan(1/239). -/
def piFix (w : Nat) : Int :=
  16 * invSeries 25 true (w + 4) 0 ((2 ^ w) / 5) 0 - 4 * invSeries (239 * 239) true (w + 4) 0 ((2 ^ w) / 239) 0

/-- x in units of 2^(−w), rounded towards −∞. -/
def XQ.fix (x : XQ) (w : Nat) : Int :=
  let (k, ex) := x.trunc w
  if x.n < 0 then (if ex then -(k : Int) else -(k : Int) - 1) else k

/-- Taylor sum 1 + r + r²/2 + … in units of 2^(−w). -/
def expSeries (w : Nat) (r : Int) : Nat → Nat → Int → Int → Int
  | 0, _, _, acc => acc
  | fuel + 1, i, t, acc =>
    if t = 0 then acc
    else
      let t' := (t * r / (2 ^ w : Nat)) / (i : Nat)
      expSeries w r fuel (i + 1) (if t' = -1 then 0 else t') (acc + t)

/-- How many bits the integer part of x takes. -/
def XQ.intBits (x : XQ) : Nat := if x.n = 0 then 0 else (x.floorLog2 + 1).toNat

/-- An interval about m × 2^(−w) with a margin of err units. -/
def Iv.around (m : Int) (err : Nat) (w : Nat) (k : Int) : Iv :=
  ⟨⟨m - err, 1, k - (w : Int)⟩, ⟨m + err, 1, k - (w : Int)⟩⟩

/-- Bounds on eˣ for a dyadic x. -/
def expPt (p : Nat) (x : XQ) : Iv :=
  let w := p + 64
  let lx := x.intBits
  let l2 := ln2Fix (w + lx + 16)
  let xi := x.fix (w + lx + 16)
  let k := xi / l2
  let r := (xi - k * l2) / (2 ^ (lx + 16) : Nat)
  let s := expSeries w r (w + 8) 1 (2 ^ w : Nat) 0
  Iv.around s (4 * w + 256) w k

def Iv.exp (p : Nat) (a : Iv) : Iv := ⟨(expPt p a.lo).lo, (expPt p a.hi).hi⟩

/-- atanh series z + z³/3 + … in units of 2^(−w). -/
def atanhSeries (w : Nat) (z2 : Int) : Nat → Nat → Int → Int → Int
  | 0, _, _, acc => acc
  | fuel + 1, i, t, acc =>
    if t = 0 then acc
    else
      let t' := t * z2 / (2 ^ w : Nat)
      atanhSeries w z2 fuel (i + 1) (if t' = -1 then 0 else t') (acc + t / ((2 * i + 1 : Nat) : Int))

/-- Bounds on ln x for a dyadic x > 0. -/
def lnPt (p : Nat) (x : XQ) : Iv :=
  let w := p + 64
  let e0 := x.floorLog2
  let m0 := x.scale (-e0)
  let big := (⟨3, 1, -1⟩ : XQ).lt m0
  let m := if big then m0.scale (-1) else m0
  let e := if big then e0 + 1 else e0
  if e = 0 ∧ m.eqv XQ.one then Iv.exact XQ.zero
  else
    let le := Nat.log2 (e.natAbs + 1) + 1
    let z := ((m.sub XQ.one).div (m.add XQ.one)).fix w
    let s := 2 * atanhSeries w (z * z / (2 ^ w : Nat)) (w + 8) 0 z 0
    let l := (e * ln2Fix (w + le)) / (2 ^ le : Nat)
    Iv.around (s + l) (8 * w + 256) w 0

def Iv.ln (p : Nat) (a : Iv) : Iv := ⟨(lnPt p a.lo).lo, (lnPt p a.hi).hi⟩

/-- Bounds on √x for x ≥ 0 dyadic. -/
def sqrtPt (p : Nat) (x : XQ) : Iv :=
  if x.n = 0 then Iv.exact XQ.zero
  else
    let e := x.floorLog2
    let h : Int := e / 2
    let (k, _) := x.trunc (2 * ((p : Int) - h))
    let r := Nat.sqrt k
    ⟨⟨r, 1, h - (p : Int)⟩, ⟨(r + 1 : Nat), 1, h - (p : Int)⟩⟩

def Iv.sqrt (p : Nat) (a : Iv) : Iv := ⟨(sqrtPt p a.lo).lo, (sqrtPt p a.hi).hi⟩

/-- Alternating Taylor series of sine (first term r, i = 1) or cosine (first term 1, i = 0). -/
def trigSeries (w : Nat) (r2 : Int) : Nat → Nat → Int → Int → Int
  | 0, _, _, acc => acc
  | fuel + 1, i, t, acc =>
    if t = 0 then acc
    else
      let t' := -((t * r2 / (2 ^ w : Nat)) / (((i + 1) * (i + 2) : Nat) : Int))
      trigSeries w r2 fuel (i + 2) (if t' = 1 ∨ t' = -1 then 0 else t') (acc + t)

/-- Bounds on sin x (cosine := false) or cos x: reduction modulo π/2 with π long enough for the argument (R126). -/
def trigPt (p : Nat) (cosine : Bool) (x : XQ) : Iv :=
  let w := p + 64
  let lx := x.intBits
  let g := w + lx + 40
  let hp := piFix g / 2
  let xi := x.fix g
  let q := (2 * xi + hp) / (2 * hp)
  let r := (xi - q * hp) / (2 ^ (lx + 40) : Nat)
  let r2 := r * r / (2 ^ w : Nat)
  let q := if cosine then q + 1 else q
  let useCos := q % 2 = 1
  let s := if useCos then trigSeries w r2 (w + 8) 0 (2 ^ w : Nat) 0 else trigSeries w r2 (w + 8) 1 r 0
  Iv.around (if q % 4 = 2 ∨ q % 4 = 3 then -s else s) (64 * w + 1024) w 0

/-- Series Σ 2ⁿ x^(2n+1) / (1·3·…·(2n+1)) in units of 2^(−w), x2 = 2x². -/
def erfSeries (w : Nat) (x2 : Int) : Nat → Nat → Int → Int → Int
  | 0, _, _, acc => acc
  | fuel + 1, i, t, acc =>
    if t ≤ 0 then acc
    else erfSeries w x2 fuel (i + 1) (t * x2 / (2 ^ w : Nat) / ((2 * i + 3 : Nat) : Int)) (acc + t)

/-- Bounds on erf x for 0 ≤ x < 32: (2/√π) e^(−x²) Σ. -/
def erfPos (p : Nat) (x : XQ) : Iv :=
  let w := p + 128
  let xi := x.fix w
  let s := erfSeries w (2 * xi * xi / (2 ^ w : Nat)) (8 * w + 8192) 0 xi 0
  let lg := Nat.log2 (s.natAbs + 1)
  let err := 2 ^ ((lg - w) + 16) * (w + 64)
  let sum := Iv.around s err w 0
  let ex := Iv.exp p (Iv.exact (x.mul x).neg)
  let pi := Iv.around (piFix w) (50 * (w + 8)) w 0
  let c := (Iv.ofInt 2).div p (pi.sqrt p)
  (sum.mul p ex).mul p c

def erfPt (p : Nat) (x : XQ) : Iv := if x.n < 0 then (erfPos p x.neg).neg else erfPos p x
def Iv.erf (p : Nat) (a : Iv) : Iv := ⟨(erfPt p a.lo).lo, (erfPt p a.hi).hi⟩

/-- σ(x) = 1 / (1 + e⁻ˣ). -/
def Iv.sigmoid (p : Nat) (a : Iv) : Iv := ((Iv.ofInt 1).add p (a.neg.exp p)).recip p

/-- Φ(x) = (1 + erf(x/√2)) / 2. -/
def Iv.phiCdf (p : Nat) (x : Iv) : Iv :=
  let r := (Iv.ofInt 2).sqrt p
  let z := x.div p r
  ((Iv.ofInt 1).add p (z.erf p)).half

/-- φ(x) = e^(−x²/2) / √(2π). -/
def Iv.phiPdf (p : Nat) (x : XQ) : Iv :=
  let w := p + 64
  let pi := Iv.around (piFix w) (50 * (w + 8)) w 0
  ((Iv.exact ((x.mul x).scale (-1)).neg).exp p).div p ((pi.dbl).sqrt p)

/-- 2u(x) of GELUT, where u = √(2/π)(x + 0.044715 x³), and u′. -/
def geluInner (p : Nat) (x : XQ) : Iv × Iv :=
  let w := p + 64
  let pi := Iv.around (piFix w) (50 * (w + 8)) w 0
  let c := ((Iv.ofInt 2).div p pi).sqrt p
  let k : XQ := ⟨44715, 1000000, 0⟩
  let x2 := x.mul x
  let poly := Iv.ofXQ p (x.add (k.mul (x.mul x2)))
  let dpoly := Iv.ofXQ p (XQ.one.add ((XQ.ofInt 3).mul (k.mul x2)))
  ((c.mul p poly).dbl, c.mul p dpoly)

/-- A number just above zero, just below one and so on: it stands for every value between it and the limit, because
no format of Table 2-1 has a rounding boundary between them (log 9). -/
def tinyQ : XQ := XQ.pow2 (-1000)

end Sys2Proof.Machine
end

