-- ==== Sys2Proof/Machine/Functions.lean ====
section
/-! DEFINITION. The function catalogue (Tables 4-2, 4-3, 4-5): the exact real value of every function stage, its rounding
into a format (R118 to R121) and exp_sig (R122). -/
namespace Sys2Proof.Machine

/-- The exact result of a stage: a rational or special value, or the irrational value of a catalogue function. -/
inductive Ex where
  | val (v : Val)
  | fn (code : Nat) (a b : Val)
  deriving DecidableEq, Repr, Inhabited

/-! ### Exact cases -/

/-- |x| as an odd mantissa and an exponent (x dyadic). -/
def oddParts : Nat → Nat → Int → Nat × Int
  | 0, m, e => (m, e)
  | k + 1, m, e => if m % 2 = 0 then oddParts k (m / 2) (e + 1) else (m, e)

def XQ.odd (x : XQ) : Nat × Int := oddParts (Nat.log2 x.n.natAbs + 1) x.n.natAbs x.e

def isSquare (m : Nat) : Bool := Nat.sqrt m * Nat.sqrt m = m

/-- aᵇ for dyadic a > 0 and finite b where the value is dyadic and short (R130). -/
def powExact (a b : XQ) : Option XQ :=
  let (m, e) := a.odd
  let (n, k) := b.odd
  let nb : Int := if b.n < 0 then -(n : Int) else n
  if m = 1 then
    match (XQ.mul (XQ.ofInt e) b).toInt? with
    | some j => some (XQ.pow2 j)
    | none => none
  else if nb < 0 then none
  else if k < -5 then none
  else
    let root : Nat → Nat × Int × Bool := Nat.rec (m, e, true) fun _ r =>
      if r.2.2 && isSquare r.1 && r.2.1 % 2 = 0 then (Nat.sqrt r.1, r.2.1 / 2, true) else (r.1, r.2.1, false)
    let (m', e', ok) := root (-k).toNat
    if !ok then none
    else if k > 6 then none
    else
      let p := n * 2 ^ k.toNat
      if p > 64 then none else some ⟨(m' ^ p : Nat), 1, e' * (p : Int)⟩

/-! ### Bounds of the irrational values -/

/-- 1 − 2⁻¹⁰⁰⁰ and 1 + 2⁻¹⁰⁰⁰ stand for values nearer to 1 than any rounding boundary (log 9). -/
def belowOne : XQ := XQ.one.sub tinyQ
def aboveOne : XQ := XQ.one.add tinyQ

/-- Bounds on the function of a code at a finite argument outside its exact cases (Table 4-2). -/
def fnBounds (code : Nat) (x b : XQ) (p : Nat) : Iv :=
  let X := Iv.exact x
  let one := Iv.ofInt 1
  let big (k : Int) : Bool := (XQ.ofInt k).le x
  let small (k : Int) : Bool := x.le (XQ.ofInt k)
  let ln2 := Iv.ln p (Iv.ofInt 2)
  match code with
  | 0x01 => X.exp p
  | 0x02 =>
    let fl := x.fix 0
    let fr := x.sub (XQ.ofInt fl)
    let v := ((Iv.exact fr).mul p ln2).exp p
    ⟨v.lo.scale fl, v.hi.scale fl⟩
  | 0x03 => X.ln p
  | 0x04 => (X.ln p).div p ln2
  | 0x05 => Iv.ofXQ p (XQ.one.div x)
  | 0x06 => X.sqrt p
  | 0x07 => (X.sqrt p).recip p
  | 0x08 => if big 1000 then Iv.exact belowOne else if small (-1000) then Iv.exact tinyQ else X.sigmoid p
  | 0x09 =>
    if big 1000 then Iv.exact belowOne else if small (-1000) then Iv.exact belowOne.neg
    else
      let e := (X.dbl).exp p
      (e.sub p one).div p (e.add p one)
  | 0x0A => if big 28 then Iv.exact belowOne else if small (-28) then Iv.exact belowOne.neg else X.erf p
  | 0x0B =>
    if big 40 then Iv.exact (x.mul belowOne) else if small (-64) then Iv.exact tinyQ.neg
    else if small (-40) then Iv.exact tinyQ.neg
    else X.mul p (X.phiCdf p)
  | 0x0C =>
    if big 64 then Iv.exact (x.mul belowOne) else if small (-64) then Iv.exact tinyQ.neg
    else X.mul p ((geluInner p x).1.sigmoid p)
  | 0x0D =>
    if big 2000 then Iv.exact (x.mul belowOne) else if small (-2000) then Iv.exact tinyQ.neg
    else X.mul p (X.sigmoid p)
  | 0x0E =>
    if big 2000 then Iv.exact (x.add tinyQ) else if small (-1000) then Iv.exact tinyQ
    else (one.add p (X.exp p)).ln p
  | 0x0F => trigPt p false x
  | 0x10 => trigPt p true x
  | 0x11 =>
    if big 1000 || small (-1000) then Iv.exact tinyQ else (X.sigmoid p).mul p (X.neg.sigmoid p)
  | 0x12 =>
    if big 1000 || small (-1000) then Iv.exact tinyQ
    else (((X.dbl).sigmoid p).mul p ((X.dbl).neg.sigmoid p)).dbl.dbl
  | 0x13 =>
    if big 40 then Iv.exact aboveOne else if small (-40) then Iv.exact tinyQ.neg
    else (X.phiCdf p).add p (X.mul p (Iv.phiPdf p x))
  | 0x14 =>
    if big 64 then Iv.exact aboveOne else if small (-64) then Iv.exact tinyQ.neg
    else
      let (u2, du) := geluInner p x
      (u2.sigmoid p).add p ((X.mul p du.dbl).mul p ((u2.sigmoid p).mul p (u2.neg.sigmoid p)))
  | 0x15 =>
    if big 2000 then Iv.exact aboveOne else if small (-2000) then Iv.exact tinyQ.neg
    else (X.sigmoid p).add p (X.mul p ((X.sigmoid p).mul p (X.neg.sigmoid p)))
  | 0x26 =>
    match powExact x.abs b with
    | some q => Iv.exact q
    | none => ((Iv.exact b).mul p ((Iv.exact x.abs).ln p)).exp p
  | _ => X

/-- Bounds on an exact result: (−1)ᵇ is put back for a power of a negative number (Table 4-5, order 11). -/
def Ex.bounds (x : Ex) (p : Nat) : Iv :=
  match x with
  | .val (.fin q) => Iv.exact q
  | .val _ => Iv.exact XQ.zero
  | .fn code (.fin a) (.fin b) =>
    let v := fnBounds code a b p
    if code = 0x26 && decide (a.n < 0) then
      (match b.toInt? with | some i => if i % 2 = 0 then v else v.neg | none => v)
    else v
  | .fn code (.fin a) _ => fnBounds code a XQ.zero p
  | .fn _ _ _ => Iv.exact XQ.zero

/-! ### Values of the stages -/

/-- A value f(x), and whether the stage raises invalid for it (Table 4-3). -/
structure FnRes where
  ex : Ex
  inv : Bool
  deriving DecidableEq, Repr, Inhabited

def FnRes.of (v : Val) : FnRes := ⟨.val v, false⟩
def FnRes.invalid : FnRes := ⟨.val .nan, true⟩

/-- Table 4-3, arguments ±∞. -/
def unaryInf (code : Nat) (neg : Bool) : FnRes :=
  let v (p n : Val) : FnRes := FnRes.of (if neg then n else p)
  let pinf := Val.inf false
  match code with
  | 0x00 => FnRes.of (.inf neg)
  | 0x01 | 0x02 | 0x0B | 0x0C | 0x0D | 0x0E | 0x16 => v pinf Val.zero
  | 0x03 | 0x04 | 0x06 => if neg then FnRes.invalid else FnRes.of pinf
  | 0x05 => FnRes.of Val.zero
  | 0x07 => if neg then FnRes.invalid else FnRes.of Val.zero
  | 0x08 => v Val.one Val.zero
  | 0x09 | 0x0A => v Val.one (Val.ofInt (-1))
  | 0x0F | 0x10 => FnRes.invalid
  | 0x11 | 0x12 => FnRes.of Val.zero
  | 0x13 | 0x14 | 0x15 => v Val.one Val.zero
  | 0x17 => FnRes.of pinf
  | 0x18 => FnRes.of (.inf (!neg))
  | _ => FnRes.of (.inf neg)

/-- Table 4-3, argument 0. -/
def unaryZero (code : Nat) : FnRes :=
  match code with
  | 0x01 | 0x02 | 0x10 | 0x12 => FnRes.of Val.one
  | 0x03 | 0x04 => FnRes.of (.inf true)
  | 0x05 | 0x07 => FnRes.of (.inf false)
  | 0x08 | 0x13 | 0x14 | 0x15 => FnRes.of (.fin (XQ.pow2 (-1)))
  | 0x0E => ⟨.fn 0x0E Val.zero Val.zero, false⟩
  | 0x11 => FnRes.of (.fin (XQ.pow2 (-2)))
  | _ => FnRes.of Val.zero

/-- f at a finite non-zero argument. -/
def unaryFin (code : Nat) (q : XQ) : FnRes :=
  let v : Val := .fin q
  let neg := decide (q.n < 0)
  let irr : FnRes := ⟨.fn code v Val.zero, false⟩
  let (m, e) := q.odd
  match code with
  | 0x00 => FnRes.of v
  | 0x02 => match q.toInt? with | some i => FnRes.of (.fin (XQ.pow2 i)) | none => irr
  | 0x03 => if neg then FnRes.invalid else if m = 1 ∧ e = 0 then FnRes.of Val.zero else irr
  | 0x04 => if neg then FnRes.invalid else if m = 1 then FnRes.of (Val.ofInt e) else irr
  | 0x05 => if m = 1 then FnRes.of (.fin ⟨if neg then -1 else 1, 1, -e⟩) else irr
  | 0x06 =>
    if neg then FnRes.invalid
    else if e % 2 = 0 && isSquare m then FnRes.of (.fin ⟨(Nat.sqrt m : Nat), 1, e / 2⟩) else irr
  | 0x07 =>
    if neg then FnRes.invalid else if m = 1 && e % 2 = 0 then FnRes.of (.fin (XQ.pow2 (-(e / 2)))) else irr
  | 0x16 => FnRes.of (if neg then Val.zero else v)
  | 0x17 => FnRes.of v.abs
  | 0x18 => FnRes.of v.neg
  | _ => irr

/-- The value of a unary function stage (R124). -/
def unary (code : Nat) (x : Val) : FnRes :=
  match x with
  | .nan => FnRes.of .nan
  | .inf b => unaryInf code b
  | .fin q => if q.n = 0 then unaryZero code else unaryFin code q

/-- POW (R130, Table 4-5). -/
def powStage (a b : Val) : FnRes :=
  let isOne : Val → Bool := fun v => v.eqv Val.one
  if b.isZero then FnRes.of Val.one
  else if isOne a then FnRes.of Val.one
  else match a, b with
  | .nan, _ => FnRes.of .nan
  | _, .nan => FnRes.of .nan
  | a, .inf nb =>
    if a.eqv (Val.ofInt (-1)) then FnRes.of Val.one
    else if (Val.one.lt a.abs) != nb then FnRes.of (.inf false) else FnRes.of Val.zero
  | .inf na, .fin q =>
    if q.n < 0 then FnRes.of Val.zero
    else if na then
      (match q.toInt? with
       | some i => FnRes.of (.inf (i % 2 = 1))
       | none => FnRes.of (.inf false))
    else FnRes.of (.inf false)
  | .fin x, .fin q =>
    if x.n = 0 then FnRes.of (if q.n < 0 then .inf false else Val.zero)
    else if x.n < 0 && q.toInt?.isNone then FnRes.invalid
    else
      match powExact x.abs q with
      | some r =>
        let odd := decide (x.n < 0) && (match q.toInt? with | some i => i % 2 != 0 | none => false)
        let r := if odd then r.neg else r
        let (y, fl) := roundRne (.fin r) .fp32
        if fl = flNone && (y.isZero = false || r.n = 0) then FnRes.of (.fin r) else ⟨.fn 0x26 a b, false⟩
      | none => ⟨.fn 0x26 a b, false⟩

/-- The value of a function stage: unary codes take a alone, 0x20 to 0x26 take a and b (R124, R128 to R130). -/
def fnStage (code : Nat) (a b : Val) : FnRes :=
  let ar (op : Arith) : FnRes := let (v, i) := binop op a b; ⟨.val v, i⟩
  match code with
  | 0x20 => ar .add
  | 0x21 => ar .sub
  | 0x22 => ar .mul
  | 0x23 => ar .div
  | 0x24 => FnRes.of (pick true a b)
  | 0x25 => FnRes.of (pick false a b)
  | 0x26 => powStage a b
  | c => unary c a

/-! ### Table 4-2: permitted formats, slots and latency -/

/-- The function codes that Table 4-2 defines. -/
def fnDefined (c : Nat) : Bool := c ≤ 0x18 || (0x20 ≤ c && c ≤ 0x26)
def fnBinary (c : Nat) : Bool := 0x20 ≤ c && c ≤ 0x26
/-- Codes whose FP32 result takes a second pass of the lane: 0x01 to 0x15, DIV and POW. -/
def fnTwoPass (c : Nat) : Bool := (1 ≤ c && c ≤ 0x15) || c = 0x23 || c = 0x26
/-- Output format codes of Table 4-2. -/
def fnPermits (c fmt : Nat) : Bool :=
  if c = 0x26 then fmt = 0 else if fnTwoPass c then fmt ≤ 9 else fmt ≤ 0xA
/-- Lane slots of a stage whose result has the format code (R113). -/
def fnSlots (c fmt : Nat) : Nat := if fnTwoPass c && fmt = 0 then 2 else 1
/-- Lane latency in cc (Table 4-2). -/
def fnLatency (c fmt : Nat) : Nat := if fnTwoPass c && fmt = 0 then 24 else 12

/-! ### Rounding exact results -/

/-- The working precisions that are tried in order (log 9). -/
def precisions : List Nat := [96, 192, 384, 768, 1536, 3072, 6144, 12288]

/-- The first answer that both ends of the bounds agree on. -/
def settle {β : Type} [DecidableEq β] (bnd : Nat → Iv) (f : XQ → β) : List Nat → β
  | [] => f (bnd 96).lo
  | [p] => f (bnd p).lo
  | p :: ps =>
    let v := bnd p
    let a := f v.lo
    if a = f v.hi then a else settle bnd f ps

/-- FP32 codes in the order of their values, as integers. -/
def fp32Index (code : Nat) : Int := if code < 0x80000000 then (code : Int) else -((code - 0x80000000 : Nat) : Int)
def fp32OfIndex (i : Int) : Nat := if i < 0 then 0x80000000 + i.natAbs else i.natAbs

/-- The finite FP32 values r ≠ −0 with |r − f| < k × ulp32(f), around the nearest code y (R120). Bounds of 384 bits or more decide
each of them, so a value that lies at its limit to within far less than an ulp (SIN of the least subnormal numbers) is in. -/
def faithfulSet (bnd : Nat → Iv) (k : Nat) (y : Nat) : List Nat :=
  let lg := settle bnd (fun q => if q.n = 0 then -2000 else max q.floorLog2 (-2000)) precisions
  let lim : XQ := ⟨k, 1, max lg (-126) - 23⟩
  let cands : List Int := (List.range 11).map fun (j : Nat) => fp32Index y + (j : Int) - 5
  (cands.filter fun i =>
    let c := fp32OfIndex i
    match decode c .fp32 with
    | .fin r => settle bnd (fun q => (r.sub q).abs.lt lim) (precisions.drop 2)
    | _ => false).map fp32OfIndex

/-- A faithful FP32 result: the choice-th admitted code; its flags are those of round_rne (R121). -/
def faithful32 (bnd : Nat → Iv) (k choice : Nat) : Nat × Flags :=
  let (y, fl) := settle bnd (fun q => let (v, f) := roundRne (.fin q) .fp32; (encode v .fp32, f)) precisions
  if (decode y .fp32).isInf then (y, fl)
  else
    let cs := faithfulSet bnd k y
    (cs.getD (choice % max cs.length 1) y, fl)

/-- convert of an exact result into a plain format: correctly rounded, but for an FP32 result of a catalogue function
it is one of the values R120 admits. -/
def Ex.toFmt (x : Ex) (f : Fmt) (sat : Bool) : Nat × Flags :=
  match x with
  | .val v => convertCode v f sat
  | .fn code a b =>
    if f = .fp32 then faithful32 x.bounds (if code = 0x26 then 2 else 1) (Config.faithful code a b)
    else settle x.bounds (fun q => convertCode (.fin q) f sat) precisions

/-- floor_log2 of the magnitude, none for zero, ±∞ and NaN. Values below 2^(−400) answer −400 (every MX scale is then
at its lower end, R64). -/
def Ex.topBit (x : Ex) : Option Int :=
  match x with
  | .val (.fin q) => if q.n = 0 then none else some q.floorLog2
  | .val _ => none
  | .fn _ _ _ => some (settle x.bounds (fun q => if q.n = 0 then -400 else max q.floorLog2 (-400)) precisions)

def Ex.isNan : Ex → Bool | .val .nan => true | _ => false

/-- mx_quantise of R64 over the exact results of a block (R119). -/
def mxQuantiseEx (vals : List Ex) (elem : Fmt) : Nat × List Nat × Flags :=
  let top := vals.foldl (fun (m : Option Int) v =>
    match v.topBit, m with
    | none, m => m
    | some l, none => some l
    | some l, some k => some (max l k)) none
  let c := mxScaleOf (vals.any Ex.isNan) top elem
  if c = 0xFF then (c, vals.map fun _ => elem.nanCode, flNone)
  else
    let s : Int := 127 - (c : Int)
    let rs := vals.map fun v =>
      match v with
      | .val w => convertCode (w.scale s) elem true
      | .fn _ _ _ => settle v.bounds (fun q => convertCode (.fin (q.scale s)) elem true) precisions
    (c, rs.map Prod.fst, rs.foldl (fun f r => f ||| r.2) flNone)

/-! ### exp_sig -/

/-- The 24-bit significand and exponent nearest to a positive value (R122). -/
def sig24 (q : XQ) : Nat × Int :=
  let j := q.floorLog2
  let (k, _) := q.near (23 - j)
  if k = 2 ^ 24 then (2 ^ 23, j + 1) else (k, j)

/-- exp_sig of R122 for a finite argument. -/
def expSig (x : XQ) : Nat × Int :=
  if x.n = 0 then (2 ^ 23, 0) else settle (fun p => expPt p x) sig24 precisions

/-- ev of R207. -/
def ev (x : Val) : Val :=
  match x with
  | .nan => .nan
  | .inf true => Val.zero
  | .inf false => .inf false
  | .fin q => let (s, j) := expSig q; .fin ⟨s, 1, j - 23⟩

/-! ### Faithful logarithm and reciprocal root of the close unit -/

/-- log_faithful(k ln 2 + ln s) of R145 for s = W × 2^(−300) > 0, as an FP32 code. It raises no flag. -/
def logFaithful (w : Nat) (k : Int) : Nat :=
  let s : XQ := ⟨w, 1, -300⟩
  let (m, e) := s.odd
  if m = 1 ∧ e + k = 0 then 0
  else
    (faithful32 (fun p => ((Iv.ofInt k).mul p (Iv.ln p (Iv.ofInt 2))).add p (lnPt p s)) 1 (Config.faithfulLog w k)).1

/-- rsqrt_faithful of R150 for a finite v > 0, as an FP32 code. It raises no flag. -/
def rsqrtFaithful (v : XQ) : Nat :=
  match unaryFin 0x07 v with
  | ⟨.val w, _⟩ => encode w .fp32
  | ⟨ex, _⟩ => (faithful32 ex.bounds 1 (Config.faithfulRsqrt (.fin v))).1

end Sys2Proof.Machine
end

