-- ==== Sys2Proof/Machine/Isa.lean ====
section
/-! DEFINITION. Instruction words (10_instruction_set): opcodes, field layouts, the program that a store holds, and the
checks of R282 on every word of it, each with the field that R435 names. -/
namespace Sys2Proof.Machine

/-- Table 10-1. -/
inductive Op where
  | nop | run | discard | flow | land | importR | size | elem | row | rowb | scan | svc | emit | stash
  | rclr | rexp | rclose | lrel | lflush | decl | hdr
  deriving DecidableEq, Repr

/-- The opcode values of Table 10-1; every other value is reserved (R278). -/
def Op.ofCode : Nat → Option Op
  | 0x00 => some .nop | 0x01 => some .run | 0x02 => some .discard
  | 0x10 => some .flow | 0x11 => some .land | 0x12 => some .importR
  | 0x20 => some .size | 0x30 => some .elem | 0x40 => some .row | 0x50 => some .rowb
  | 0x60 => some .scan | 0x70 => some .svc | 0x80 => some .emit | 0x81 => some .stash
  | 0x90 => some .rclr | 0x91 => some .rexp | 0x92 => some .rclose
  | 0xA0 => some .lrel | 0xA1 => some .lflush | 0xE0 => some .decl | 0xF0 => some .hdr
  | _ => none

def opc (w : IWord) : Nat := IWord.fld w 127 120
def opOf (w : IWord) : Option Op := Op.ofCode (opc w)

/-- A word from its opcode and its named fields (value, lowest bit). -/
def mkWord (opcode : Nat) (fs : List (Nat × Nat)) : IWord :=
  BitVec.ofNat 128 (fs.foldl (fun a f => a + f.1 * 2 ^ f.2) (opcode * 2 ^ 120))

/-! ### Field layouts -/

/-- Table 10-3, RUN. -/
structure RunW where
  psel : Bool
  evt : Bool
  rrst : Bool
  pseq : Nat
  cbase : Nat
  rbias : Nat
  sbias : Nat
  pass2 : Bool
  deriving DecidableEq, Repr
def RunW.ofWord (w : IWord) : RunW :=
  ⟨IWord.bit w 119, IWord.bit w 118, IWord.bit w 117, IWord.fld w 116 101, IWord.fld w 100 87, IWord.fld w 86 55,
   IWord.fld w 54 25, IWord.bit w 24⟩

/-- Table 10-4, HDR. -/
structure Hdr where
  len : Nat
  ndecl : Nat
  owner : Nat
  wide : Bool
  strat : Nat
  mask : Bool
  w : Nat
  pcode : Nat
  c : Nat
  vatb : Nat
  reams : Nat
  gmask : Nat
  deriving DecidableEq, Repr
def Hdr.ofWord (w : IWord) : Hdr :=
  ⟨IWord.fld w 119 113, IWord.fld w 112 108, IWord.fld w 107 104, IWord.bit w 103, IWord.fld w 102 101,
   IWord.bit w 100, IWord.fld w 99 85, IWord.fld w 84 82, IWord.fld w 81 67, IWord.fld w 66 44, IWord.fld w 43 35,
   IWord.fld w 34 19⟩
/-- The pitch P (Table 10-4). -/
def Hdr.pitch (h : Hdr) : Nat := 64 * 2 ^ h.pcode
/-- The tile count of a row, T = W / C (R168). -/
def Hdr.tiles (h : Hdr) : Nat := h.w / h.c

/-- Table 10-5, DECL. copies is 1 or 2. Roles: 0 hold, 1 landing, 2 persistent, 3 statistics. -/
structure Decl where
  slot : Nat
  role : Nat
  fmt : Nat
  rows : Nat
  cols : Nat
  copies : Nat
  deriving DecidableEq, Repr
def Decl.ofWord (w : IWord) : Decl :=
  ⟨IWord.fld w 119 116, IWord.fld w 115 114, IWord.fld w 113 110, IWord.fld w 109 93, IWord.fld w 92 78,
   IWord.fld w 77 77 + 1⟩

/-- Table 10-6. -/
structure IngW where
  fmt : Nat
  scm : Nat
  bs : Nat
  sdim : Nat
  slot : Nat
  rbase : Nat
  rcnt : Nat
  deriving DecidableEq, Repr
def IngW.ofWord (w : IWord) : IngW :=
  ⟨IWord.fld w 119 116, IWord.fld w 115 114, IWord.fld w 113 113, IWord.fld w 112 112, IWord.fld w 111 108,
   IWord.fld w 107 100, IWord.fld w 99 92⟩

/-- Table 10-7. -/
structure SizeW where
  simm : Nat
  bimm : Nat
  ssrc : Nat
  sslot : Nat
  bsrc : Nat
  bslot : Nat
  res : Bool
  rslot : Nat
  fold : Nat
  stslot : Nat
  cvslot : Nat
  ifmt : Nat
  sat : Bool
  muslot : Nat
  deriving DecidableEq, Repr
def SizeW.ofWord (w : IWord) : SizeW :=
  ⟨IWord.fld w 119 88, IWord.fld w 87 56, IWord.fld w 55 54, IWord.fld w 53 50, IWord.fld w 49 48,
   IWord.fld w 47 44, IWord.bit w 43, IWord.fld w 42 39, IWord.fld w 38 37, IWord.fld w 36 33, IWord.fld w 32 29,
   IWord.fld w 28 25, IWord.bit w 24, IWord.fld w 23 20⟩
/-- The sizing of a body without a SIZE word (R294). -/
def SizeW.absent : SizeW := SizeW.ofWord 0

/-- Table 10-8. -/
structure ElemW where
  func : Nat
  rfmt : Nat
  sat : Bool
  bsrc : Nat
  bslot : Nat
  scarry : Bool
  bimm : Nat
  deriving DecidableEq, Repr
def ElemW.ofWord (w : IWord) : ElemW :=
  ⟨IWord.fld w 119 114, IWord.fld w 113 110, IWord.bit w 109, IWord.fld w 108 107, IWord.fld w 106 103,
   IWord.bit w 102, IWord.fld w 101 70⟩

/-- Table 10-9. -/
structure RowW where
  op : Nat
  hfmt : Nat
  rfmt : Nat
  sat : Bool
  rn : Nat
  eps : Nat
  gp : Bool
  gslot : Nat
  bp : Bool
  bslot : Nat
  lp : Bool
  lbase : Nat
  gdiv : Nat
  nsm1 : Nat
  npm1 : Nat
  deriving DecidableEq, Repr
def RowW.ofWord (w : IWord) : RowW :=
  ⟨IWord.fld w 119 116, IWord.fld w 115 112, IWord.fld w 111 108, IWord.bit w 107, IWord.fld w 106 99,
   IWord.fld w 98 67, IWord.bit w 66, IWord.fld w 65 62, IWord.bit w 61, IWord.fld w 60 57, IWord.bit w 56,
   IWord.fld w 55 24, IWord.fld w 23 17, IWord.fld w 16 7, IWord.fld w 6 0⟩

/-- Table 10-10. -/
structure RowbW where
  op : Nat
  mode : Bool
  stored : Bool
  hfmt : Nat
  rfmt : Nat
  sat : Bool
  rn : Nat
  uslot : Nat
  gp : Bool
  gslot : Nat
  c1slot : Nat
  c2slot : Nat
  lbase : Nat
  rel : Bool
  gdiv : Nat
  nsm1 : Nat
  mabs : Bool
  npm1 : Nat
  deriving DecidableEq, Repr
def RowbW.ofWord (w : IWord) : RowbW :=
  ⟨IWord.fld w 119 116, IWord.bit w 115, IWord.bit w 114, IWord.fld w 113 110, IWord.fld w 109 106,
   IWord.bit w 105, IWord.fld w 104 97, IWord.fld w 96 93, IWord.bit w 92, IWord.fld w 91 88, IWord.fld w 87 84,
   IWord.fld w 83 80, IWord.fld w 79 48, IWord.bit w 47, IWord.fld w 46 40, IWord.fld w 39 30, IWord.bit w 29,
   IWord.fld w 28 22⟩

/-- Table 10-11. -/
structure ScanW where
  rev : Bool
  csel : Bool
  oslot : Nat
  init : Bool
  islot : Nat
  rfmt : Nat
  sat : Bool
  deriving DecidableEq, Repr
def ScanW.ofWord (w : IWord) : ScanW :=
  ⟨IWord.bit w 119, IWord.bit w 118, IWord.fld w 117 114, IWord.bit w 113, IWord.fld w 112 109,
   IWord.fld w 108 105, IWord.bit w 104⟩

/-- Table 10-12, SVC = 0x0. s is the segment count S. -/
structure XentW where
  hfmt : Nat
  s : Nat
  rfmt : Nat
  sat : Bool
  rn : Nat
  bp : Bool
  bream : Nat
  tslot : Nat
  wsc : Nat
  lp : Bool
  lbase : Nat
  npm1 : Nat
  deriving DecidableEq, Repr
def XentW.ofWord (w : IWord) : XentW :=
  ⟨IWord.fld w 115 112, IWord.fld w 111 106 + 1, IWord.fld w 105 102, IWord.bit w 101, IWord.fld w 100 93,
   IWord.bit w 92, IWord.fld w 91 84, IWord.fld w 83 80, IWord.fld w 79 48, IWord.bit w 47, IWord.fld w 46 15,
   IWord.fld w 14 9⟩

/-- Table 10-12, SVC = 0x1. -/
structure SampleW where
  hfmt : Nat
  s : Nat
  k : Nat
  p : Nat
  win : Nat
  roff : Nat
  rlog : Nat
  evt : Bool
  deriving DecidableEq, Repr
def SampleW.ofWord (w : IWord) : SampleW :=
  ⟨IWord.fld w 115 112, IWord.fld w 111 106 + 1, IWord.fld w 105 97, IWord.fld w 96 65, IWord.fld w 64 63,
   IWord.fld w 62 31, IWord.fld w 30 27, IWord.bit w 26⟩

/-- Table 10-13. -/
structure EgrW where
  ofmt : Nat
  sat : Bool
  route : Bool
  split : Nat
  rdim : Nat
  sel : Bool
  mkind : Nat
  mslot : Nat
  tag : Nat
  sline : Nat
  deriving DecidableEq, Repr
def EgrW.ofWord (w : IWord) : EgrW :=
  ⟨IWord.fld w 119 116, IWord.bit w 115, IWord.bit w 114, IWord.fld w 113 112, IWord.fld w 111 111,
   IWord.bit w 110, IWord.fld w 109 108, IWord.fld w 107 104, IWord.fld w 103 96, IWord.fld w 95 66⟩
/-- The number of pieces an egress emits (R69, Table 10-13). -/
def EgrW.pieces (e : EgrW) : Nat := if e.split = 0 then 1 else e.split

/-- Table 10-14. -/
structure ReamW where
  rn : Nat
  rcnt : Nat
  kind : Nat
  ofmt : Nat
  route : Bool
  ddof : Nat
  stats : Bool
  dest : Bool
  dslot : Nat
  sel : Nat
  deriving DecidableEq, Repr
def ReamW.ofWord (w : IWord) : ReamW :=
  ⟨IWord.fld w 119 112, IWord.fld w 111 104, IWord.fld w 103 101, IWord.fld w 100 97, IWord.bit w 96,
   IWord.fld w 95 95, IWord.bit w 94, IWord.bit w 93, IWord.fld w 92 89, IWord.fld w 88 87⟩

/-- Table 10-15. lcnt is the count less 1. -/
structure LoftW where
  lidx : Nat
  lcnt : Nat
  deriving DecidableEq, Repr
def LoftW.ofWord (w : IWord) : LoftW := ⟨IWord.fld w 119 88, IWord.fld w 87 56⟩

/-! ### Programs -/

/-- The words a run reads (R289): LEN words from the start slot. -/
structure Prog where
  words : List IWord
  deriving DecidableEq, Repr

def Prog.hdr (p : Prog) : Hdr := Hdr.ofWord (p.words.headD 0)
/-- Words with their indices. -/
def Prog.indexed (p : Prog) : List (Nat × IWord) := (List.range p.words.length).zip p.words
def Prog.declWords (p : Prog) : List (Nat × IWord) := (p.indexed.drop 1).take p.hdr.ndecl
def Prog.body (p : Prog) : List (Nat × IWord) := p.indexed.drop (1 + p.hdr.ndecl)
def Prog.decls (p : Prog) : List Decl :=
  (p.declWords.filter fun w => opc w.2 = 0xE0).map fun w => Decl.ofWord w.2
def Prog.decl (p : Prog) (slot : Nat) : Option Decl := p.decls.find? fun d => d.slot == slot
def isIngest (w : IWord) : Bool := opc w = 0x10 || opc w = 0x11 || opc w = 0x12
def isLane (w : IWord) : Bool := opc w = 0x30 || opc w = 0x40 || opc w = 0x50 || opc w = 0x60 || opc w = 0x70
def isEgress (w : IWord) : Bool := opc w = 0x80 || opc w = 0x81
/-- Ream and Loft words: they may stand anywhere in a body (R169). -/
def isReamLoft (w : IWord) : Bool :=
  opc w = 0x90 || opc w = 0x91 || opc w = 0x92 || opc w = 0xA0 || opc w = 0xA1
/-- ROW, ROWB or SVC: at most one in a body (R279). -/
def isRowLike (w : IWord) : Bool := opc w = 0x40 || opc w = 0x50 || opc w = 0x70
def Prog.ingest (p : Prog) : Option (Nat × IWord) := p.body.find? fun w => isIngest w.2
def Prog.size (p : Prog) : Option (Nat × IWord) := p.body.find? fun w => opc w.2 = 0x20
def Prog.sizeW (p : Prog) : SizeW := match p.size with | some w => SizeW.ofWord w.2 | none => SizeW.absent
def Prog.lanes (p : Prog) : List (Nat × IWord) := p.body.filter fun w => isLane w.2
def Prog.egress (p : Prog) : List (Nat × IWord) := p.body.filter fun w => isEgress w.2
def Prog.rowLike (p : Prog) : Option (Nat × IWord) := p.body.find? fun w => isRowLike w.2
def Prog.scan (p : Prog) : Option (Nat × IWord) := p.body.find? fun w => opc w.2 = 0x60
/-- Ream and Loft words before and after the ingest (R303). -/
def Prog.before (p : Prog) : List (Nat × IWord) :=
  (p.body.takeWhile fun w => !isIngest w.2).filter fun w => isReamLoft w.2
def Prog.after (p : Prog) : List (Nat × IWord) :=
  (p.body.dropWhile fun w => !isIngest w.2).filter fun w => isReamLoft w.2

/-- What a row word does with an element: the operation, strategy and mode of a body. -/
def Prog.isVatHold (p : Prog) : Bool :=
  p.hdr.strat = 0 && (match p.rowLike with
    | some (_, w) =>
      opc w = 0x40 || (opc w = 0x50 && (RowbW.ofWord w).mode && (RowbW.ofWord w).op ≠ 5)
        || (opc w = 0x70 && IWord.fld w 119 116 = 0)
    | none => false)
/-- n_g of R434 under Vat hold: ROWS of the hold slot, of the first declared where a program declares several (log 76). A program that
declares none gives no n_g: free value (log 23). -/
def Prog.holdRows (p : Prog) : Nat :=
  match p.decls.find? fun d => d.role == 0 with | some d => d.rows | none => Config.holdRows

/-! ### Checks of one word (R280, R282): the lowest bit of each failing field -/

/-- A check: the lowest bit of the field it is attributed to, and whether it fails. -/
abbrev Chk := Nat × Bool

/-- The formats an intermediate rounding point may have (R190). -/
def interFmt (c : Nat) : Bool := c ≤ 4 || c = 9 || c = 10

/-- Whether a slot number is declared with one of the roles, and with one row where that is asked (R290, Table 6-4) (log 15). -/
def Prog.slotOk (p : Prog) (slot : Nat) (roles : List Nat) (vec : Bool) : Bool :=
  match p.decl slot with
  | some d => roles.contains d.role && (!vec || d.rows == 1)
  | none => false

/-- The checks of a header; that W is a multiple of C is none of them (log 14). -/
def hdrChecks (w : IWord) : List Chk :=
  let h := Hdr.ofWord w
  [ (120, opc w != 0xF0),
    (113, h.len < 2 || h.len > 64),
    (108, h.ndecl > 16 || h.ndecl + 2 > h.len),
    (101, h.strat == 3),
    (85, h.w == 0 || h.w > 16384),
    (82, if h.mask then h.pcode != 0 else
          h.pcode > 4 || (if h.w ≤ 1024 then decide (h.w > h.pitch) else h.pitch != 1024)),
    (67, h.c == 0 || h.c > 16384 || (h.mask && h.c != h.w)),
    (44, h.vatb > 6291456),
    (35, h.reams > 256),
    (19, !h.mask && h.gmask != 0),
    (0, IWord.fld w 18 0 != 0) ]

def declChecks (w : IWord) : List Chk :=
  let d := Decl.ofWord w
  [ (120, opc w != 0xE0),
    (110, d.fmt > 10 || (d.role == 0 && d.fmt > 2) || (d.role == 3 && d.fmt != 0)),
    (93, d.rows == 0 || d.rows > 65536 || (isMx d.fmt && d.rows ≤ 1)),
    (78, d.cols == 0 || d.cols > 16384),
    (77, ((d.role == 0 || d.role == 3) && d.copies != 2) || (d.role == 2 && d.copies != 1)),
    (0, IWord.fld w 76 0 != 0) ]

def ingestChecks (p : Prog) (w : IWord) : List Chk :=
  let i := IngW.ofWord w
  let h := p.hdr
  if opc w = 0x12 then
    [ (116, i.fmt != 0xB), (114, i.scm != 0), (113, i.bs != 0), (112, i.sdim != 0), (108, i.slot != 0),
      (0, IWord.fld w 91 0 != 0) ]
  else
    let blocks := isMx i.fmt || i.scm != 0
    [ (116, i.fmt > 10),
      (114, i.scm == 3 || (i.scm != 0 && !(i.fmt ≤ 2 || i.fmt == 10))),
      (113, i.scm == 0 && i.bs != 0),
      (112, !blocks && i.sdim != 0), (116, blocks && i.sdim != h.mask.toNat),
      (108, if opc w = 0x10 then i.slot != 0 else !p.slotOk i.slot [1, 2] false),
      (100, i.rbase != 0), (92, i.rcnt != 0), (0, IWord.fld w 91 0 != 0) ]

/-- SIZE; noLane: no lane stage follows; land: the ingest is LAND. -/
def sizeChecks (p : Prog) (w : IWord) (noLane land : Bool) : List Chk :=
  let s := SizeW.ofWord w
  let stOk (sl : Nat) : Bool := p.slotOk sl [3] false || p.slotOk sl [2] true
  [ (54, s.ssrc != 1 && s.simm != 0), (48, s.bsrc != 1 && s.bimm != 0),
    (50, if s.ssrc ≥ 2 then !p.slotOk s.sslot [2] true else s.sslot != 0),
    (44, if s.bsrc ≥ 2 then !p.slotOk s.bslot [2] true else s.bslot != 0),
    (39, if s.res then !p.slotOk s.rslot [1, 2] false else s.rslot != 0),
    (33, if s.fold != 0 then !stOk s.stslot else s.stslot != 0),
    (29, if s.fold = 1 then !p.slotOk s.cvslot [2] true else s.cvslot != 0),
    (25, if noLane then s.ifmt != 0 else !interFmt s.ifmt),
    (24, noLane && !land && s.sat),
    (20, if s.fold = 1 then !stOk s.muslot else s.muslot != 0),
    (0, IWord.fld w 19 0 != 0) ]

/-- The egress words that emit the result (R295). -/
def Prog.resultEgress (p : Prog) : List (Nat × IWord) := p.egress.filter fun e => !(EgrW.ofWord e.2).sel

/-- RFMT and SAT of a stage: last is the stage that no lane stage follows. Its RFMT is unused where no egress emits the result
(R280, R295). -/
def rfmtChecks (p : Prog) (lsbR lsbS rfmt : Nat) (sat last : Bool) : List Chk :=
  [ (lsbR, rfmt > 10 || (!last && !interFmt rfmt) || (last && p.resultEgress.isEmpty && rfmt != 0)), (lsbS, last && sat) ]

/-- ELEM; first: no SIZE word and no other lane stage stands before it; ing: the ingest word. The rules that relate SCARRY to
other words are charged to the highest field of the last of them (R435) (log 13). -/
def elemChecks (p : Prog) (w : IWord) (last first : Bool) (ing : IWord) : List Chk :=
  let e := ElemW.ofWord w
  let i := IngW.ofWord ing
  let mxFlow := opc ing = 0x10 && isMx i.fmt && i.scm == 0
  [ (114, !fnDefined e.func),
    (110, !fnPermits e.func e.rfmt),
    (107, !fnBinary e.func && e.bsrc != 0),
    (103, if fnBinary e.func && e.bsrc != 0 then
            !p.slotOk e.bslot [1, 2] (decide (e.bsrc ≥ 2))
              || (e.scarry && e.bsrc == 1 && mxFlow && (match p.decl e.bslot with | some d => d.fmt != i.fmt | none => false))
          else e.bslot != 0),
    (102, e.scarry && !(e.func == 0x22 && e.bsrc == 1)),
    (114, e.scarry && !(mxFlow && first)),
    (70, !(fnBinary e.func && e.bsrc == 0) && e.bimm != 0),
    (0, IWord.fld w 69 0 != 0) ] ++ rfmtChecks p 110 109 e.rfmt e.sat last

/-- The format of the word before a row word names its hold rounding (R142): none where nothing names one. -/
def prevFmt (p : Prog) (idx : Nat) : Option Nat :=
  match (p.lanes.filter fun l => l.1 < idx).getLast? with
  | some (_, w) =>
    if opc w = 0x30 then some (ElemW.ofWord w).rfmt
    else if opc w = 0x60 then some (ScanW.ofWord w).rfmt else none
  | none => p.size.map fun s => (SizeW.ofWord s.2).ifmt

def hfmtBad (p : Prog) (idx hfmt : Nat) : Bool :=
  hfmt > 2 || (match prevFmt p idx with | some f => f != hfmt | none => false)

/-- Whether a width-form deckle has a pitch below 256 (R135). -/
def smallPitch (h : Hdr) : Bool := !h.mask && h.pitch < 256

def rowChecks (p : Prog) (idx : Nat) (w : IWord) (last : Bool) : List Chk :=
  let r := RowW.ofWord w
  let h := p.hdr
  let sm := r.op ≤ 1
  let fold := h.strat == 1
  let epsBad := match decode r.eps .fp32 with | .fin q => decide (q.n < 0) | _ => true
  let vec (sl : Nat) : Bool := if fold then !p.slotOk sl [3] false else !p.slotOk sl [2] true
  [ (116, r.op > 4 || (fold && (r.op == 1 || r.op == 4)) || (h.mask && !((r.op == 2 || r.op == 3) && h.strat == 0))
          || smallPitch h || (r.op == 4 && r.gdiv != 0 && h.w % (256 * r.gdiv) != 0)),
    (112, hfmtBad p idx r.hfmt),
    (99, r.rn % 2 != 0),
    (67, if sm then r.eps != 0 else epsBad),
    (66, if fold then r.gp != (r.op == 2) else sm && r.gp),
    (62, if r.gp then vec r.gslot else r.gslot != 0),
    (61, if fold then !r.bp else sm && r.bp),
    (57, if r.bp then vec r.bslot else r.bslot != 0),
    (24, !r.lp && r.lbase != 0),
    (17, if r.op == 4 then r.gdiv == 0 || r.gdiv > 64 else r.gdiv != 0),
    (7, r.op != 4 && r.nsm1 != 0),
    (0, h.strat != 2 && r.npm1 != 0) ] ++ rfmtChecks p 108 107 r.rfmt r.sat last

def rowbChecks (p : Prog) (idx : Nat) (w : IWord) (last : Bool) : List Chk :=
  let r := RowbW.ofWord w
  let h := p.hdr
  let pg := r.op == 5
  let c1 := !r.mode && (r.op == 0 || r.op == 1 || r.op == 2 || r.op == 4)
  let c2 := !r.mode && (r.op == 2 || r.op == 3 || r.op == 4)
  [ (116, r.op > 5 || h.mask || (r.mode && !pg && h.strat == 1) || (r.mode && smallPitch h)
          || (r.op == 4 && r.gdiv != 0 && h.w % (256 * r.gdiv) != 0)),
    (115, pg && !r.mode),
    (114, r.stored && r.op != 0),
    (110, hfmtBad p idx r.hfmt),
    (97, r.rn % 2 != 0 || (!r.mode && r.rn != 0)),
    (93, !p.slotOk r.uslot [1, 2] false),
    (92, r.gp && (r.op ≤ 1 || pg)),
    (88, if r.gp then !p.slotOk r.gslot [2] true else r.gslot != 0),
    (84, if c1 then !p.slotOk r.c1slot [1, 2] true else r.c1slot != 0),
    (80, if c2 then !p.slotOk r.c2slot [1, 2] true else r.c2slot != 0),
    (48, r.stored && r.lbase != 0),
    (47, r.stored && r.rel),
    (40, if r.op == 4 then r.gdiv == 0 || r.gdiv > 64 else r.gdiv != 0),
    (30, r.op != 4 && r.nsm1 != 0),
    (29, r.mabs && !pg),
    (22, !(pg || (r.mode && h.strat == 2)) && r.npm1 != 0),
    (0, IWord.fld w 21 0 != 0) ]
  ++ (if pg then [(106, r.rfmt != 0), (105, r.sat)] else rfmtChecks p 106 105 r.rfmt r.sat last)

def scanChecks (p : Prog) (w : IWord) (last : Bool) : List Chk :=
  let s := ScanW.ofWord w
  [ (119, p.hdr.mask),
    (114, !p.slotOk s.oslot [1, 2] false),
    (109, if s.init then !p.slotOk s.islot [1, 2] true else s.islot != 0),
    (0, IWord.fld w 103 0 != 0) ] ++ rfmtChecks p 105 104 s.rfmt s.sat last

def svcChecks (p : Prog) (idx : Nat) (w : IWord) (last : Bool) : List Chk :=
  let h := p.hdr
  let code := IWord.fld w 119 116
  if code = 0 then
    let x := XentW.ofWord w
    [ (116, h.strat == 1 || h.mask || smallPitch h),
      (112, hfmtBad p idx x.hfmt),
      (93, x.rn % 4 != 0),
      (84, !x.bp && x.bream != 0),
      (80, !p.slotOk x.tslot [1, 2] true || (match p.decl x.tslot with | some d => d.fmt != 10 | none => true)),
      (15, !x.lp && x.lbase != 0),
      (9, h.strat != 2 && x.npm1 != 0),
      (0, IWord.fld w 8 0 != 0) ] ++ rfmtChecks p 102 101 x.rfmt x.sat last
  else if code = 1 then
    let s := SampleW.ofWord w
    let pBad := match decode s.p .fp32 with | .fin q => decide (q.n ≤ 0) || XQ.one.lt q | _ => true
    [ (116, h.mask || smallPitch h),
      (112, hfmtBad p idx s.hfmt),
      (97, s.k == 0 || s.k > 256),
      (65, pBad),
      (27, s.rlog < 4 || s.rlog > 16),
      (0, IWord.fld w 25 0 != 0) ]
  else [(116, true)]

/-- EMIT and STASH; widthBad: the body's last result egress and the last stage's RFMT disagree in width (R295). A scan carry has no
mask (R231). What relates the word to the header, the scan or a scale-carry product is charged to OFMT, its highest field (R435). -/
def egressChecks (p : Prog) (w : IWord) (widthBad : Bool) : List Chk :=
  let e := EgrW.ofWord w
  let h := p.hdr
  let st := opc w = 0x81
  let ing := IngW.ofWord (match p.ingest with | some i => i.2 | none => 0)
  let fnBad := !e.sel && (match p.lanes.getLast? with
    | some (_, l) => opc l = 0x30 && !fnPermits (ElemW.ofWord l).func e.ofmt
    | none => false)
  let carry := match p.lanes with | [(_, l)] => opc l = 0x30 && (ElemW.ofWord l).scarry | _ => false
  let sample := match p.rowLike with | some (_, l) => opc l = 0x70 && IWord.fld l 119 116 == 1 | none => false
  [ (116, e.ofmt > 10 || fnBad || widthBad || sample || (e.sel && p.scan.isNone) || (isMx e.ofmt && e.rdim != h.mask.toNat)
          || (carry && (e.ofmt != ing.fmt || e.split != 0 || e.rdim != ing.sdim))),
    (114, e.route && (st || e.ofmt == 10)),
    (112, (st && e.split != 0) || e.split == 1 || (e.split != 0 && !(e.ofmt == 2 || isMx e.ofmt))),
    (111, !isMx e.ofmt && e.rdim != 0),
    (110, e.sel && (st || e.split != 0 || e.ofmt != 0)),
    (108, e.sel && e.mkind != 0),
    (104, if e.mkind ≥ 2 then !p.slotOk e.mslot [1, 2] true else e.mslot != 0),
    (96, !st && e.tag != 0), (66, !st && e.sline != 0), (0, IWord.fld w 65 0 != 0) ]

/-- RCLR, REXP and RCLOSE on their own (R304, Table 10-14). -/
def reamChecks (w : IWord) : List Chk :=
  let r := ReamW.ofWord w
  let low : Chk := (0, IWord.fld w 86 0 != 0)
  if opc w = 0x92 then
    [ (101, r.kind != 0),
      (97, !(r.ofmt ≤ 4 || r.ofmt == 10)),
      (93, r.dest && r.route),
      (94, !r.stats && r.ddof != 0),
      (94, r.stats && (r.rn % 2 != 0 || r.rcnt % 2 == 0)),
      (89, !r.dest && r.dslot != 0),
      (87, if r.stats then r.sel != 0 || r.ofmt == 10 else
            (r.sel == 0 && r.ofmt > 4) || ((r.sel == 1 || r.sel == 2) && r.ofmt != 0)
              || (r.sel == 3 && (r.ofmt != 10 || r.route))),
      low ]
  else
    [ (101, if opc w = 0x90 then r.kind > 4 else r.kind != 0),
      (97, if opc w = 0x91 then r.ofmt != 0xB else r.ofmt != 0),
      (96, r.route), (95, r.ddof != 0), (94, r.stats), (93, r.dest), (89, r.dslot != 0), (87, r.sel != 0), low ]

/-- LREL and LFLUSH. -/
def loftChecks (w : IWord) : List Chk := [(0, IWord.fld w 55 0 != 0)]

/-- RUN, DISCARD and NOP as direct words (Table 10-3). -/
def controlChecks (w : IWord) : List Chk :=
  match opOf w with
  | some .run => [(0, IWord.fld w 23 0 != 0)]
  | some .discard => zeros [(119, 119), (118, 118), (117, 117), (100, 87), (86, 55), (54, 25), (24, 24), (23, 0)]
  | _ => zeros [(119, 119), (118, 118), (117, 117), (116, 101), (100, 87), (86, 55), (54, 25), (24, 24), (23, 0)]
where
  /-- Reserved rows of the table. -/
  zeros (fs : List (Nat × Nat)) : List Chk := fs.map fun f => (f.2, IWord.fld w f.1 f.2 != 0)

/-- The highest failing field of a list of checks (Table 10-17, last row). -/
def topFail (cs : List Chk) : Option Nat :=
  cs.foldl (fun m c => if c.2 then (match m with | some b => some (max b c.1) | none => some c.1) else m) none

/-- The checks of a word delivered on Headbox (R282, R284): a word Table 10-1 does not allow there, then its fields. -/
def directCheck (w : IWord) : Option Nat :=
  match opOf w with
  | some .nop | some .run | some .discard => topFail (controlChecks w)
  | some .rclr | some .rexp | some .rclose => topFail (reamChecks w)
  | some .lrel | some .lflush => topFail (loftChecks w)
  | _ => some 120

/-! ### Checks of a program at run start -/

/-- A fault of a program: word index, FLSB, and whether it is an operand fault (Table 10-2). -/
structure PFault where
  word : Nat
  flsb : Nat
  operand : Bool
  deriving DecidableEq, Repr

/-- Where the words of a body stand (R169, R170, R279): the state of the walk in word order. -/
structure Walk where
  ing : Option IWord := none
  rank : Nat := 0
  sizes : Nat := 0
  lanes : Nat := 0
  rows : Nat := 0
  scans : Nat := 0
  egrs : Nat := 0
  deriving DecidableEq, Repr

/-- The class rank of Table 6-2, none for a word that a body may not hold. -/
def bodyRank (w : IWord) : Option Nat :=
  if isIngest w then some 1 else if opc w = 0x20 then some 2 else if isLane w then some 3
  else if isEgress w then some 4 else none

/-- Whether a word may stand next in the body. -/
def Walk.permits (k : Walk) (w : IWord) : Bool :=
  isReamLoft w ||
  (match bodyRank w with
   | none => false
   | some r =>
     if r = 1 then k.ing.isNone
     else match k.ing with
       | none => false
       | some i =>
         k.rank ≤ r && !(opc i = 0x12) && !(opc i = 0x11 && r > 2)
           && (r != 2 || k.sizes = 0) && (r != 3 || k.lanes < 8) && (r != 4 || k.egrs < 2)
           && !(isRowLike w && k.rows ≥ 1) && !(opc w = 0x60 && k.scans ≥ 1))

def Walk.take (k : Walk) (w : IWord) : Walk :=
  match bodyRank w with
  | none => k
  | some r =>
    { ing := if r = 1 then some w else k.ing
      rank := max k.rank r
      sizes := k.sizes + (if r = 2 then 1 else 0)
      lanes := k.lanes + (if r = 3 then 1 else 0)
      rows := k.rows + (if isRowLike w then 1 else 0)
      scans := k.scans + (if opc w = 0x60 then 1 else 0)
      egrs := k.egrs + (if r = 4 then 1 else 0) }

/-- The highest field below the opcode of a word of a body (Tables 10-6 to 10-13). -/
def highField (w : IWord) : Nat :=
  match opOf w with
  | some .size => 88
  | some .elem => 114
  | some .scan => 119
  | _ => 116

/-- The first word of a body that may not stand where it stands, with the field it is charged to: the opcode for a word that no
body may hold, and otherwise the word's highest field, since the rule relates it to other words (R435) (log 13). -/
def misplaced (k : Walk) : List (Nat × IWord) → Option (Nat × Nat)
  | [] => none
  | (i, w) :: ws =>
    if k.permits w then misplaced (k.take w) ws
    else some (i, if (bodyRank w).isSome then highField w else 120)

/-- Whether the body produces something (R170). -/
def Prog.produces (p : Prog) : Bool :=
  !p.egress.isEmpty
  || (match p.ingest with | some (_, i) => opc i != 0x10 | none => false)
  || (match p.rowLike with | some (_, w) => !(opc w = 0x50 && !(RowbW.ofWord w).mode) | none => false)

/-- Whether the body holds a word that takes a strategy (R168, Table 10-4). -/
def Prog.takesStrategy (p : Prog) : Bool :=
  match p.rowLike with
  | some (_, w) =>
    opc w = 0x40 || (opc w = 0x50 && (RowbW.ofWord w).mode && (RowbW.ofWord w).op != 5)
      || (opc w = 0x70 && IWord.fld w 119 116 == 0)
  | none => false

/-- The RFMT of the last lane stage, where it has one (R295). -/
def Prog.lastRfmt (p : Prog) : Option Nat :=
  match p.lanes.getLast? with
  | some (_, w) =>
    if opc w = 0x30 then some (ElemW.ofWord w).rfmt
    else if opc w = 0x40 then some (RowW.ofWord w).rfmt
    else if opc w = 0x50 then (if (RowbW.ofWord w).op = 5 then none else some (RowbW.ofWord w).rfmt)
    else if opc w = 0x60 then some (ScanW.ofWord w).rfmt
    else if IWord.fld w 119 116 = 0 then some (XentW.ofWord w).rfmt else none
  | none => none

/-- The egress word at which the width rule of R295 fails. -/
def Prog.widthFail (p : Prog) : Option Nat :=
  match p.lastRfmt, p.resultEgress.getLast? with
  | some f, some (i, _) =>
    let m := p.resultEgress.foldl (fun m e => max m (codeWidth (EgrW.ofWord e.2).ofmt)) 0
    if codeWidth f = m then none else some i
  | _, _ => none

/-- The checks of a body word by its opcode. -/
def bodyChecks (p : Prog) (i : Nat) (w : IWord) : List Chk :=
  let last := (p.lanes.getLast?.map Prod.fst) == some i
  let ing := match p.ingest with | some x => x.2 | none => 0
  match opOf w with
  | some .flow | some .land | some .importR => ingestChecks p w
  | some .size => sizeChecks p w p.lanes.isEmpty (opc ing = 0x11)
  | some .elem => elemChecks p w last (p.size.isNone && (p.lanes.headD (0, 0)).1 == i) ing
  | some .row => rowChecks p i w last
  | some .rowb => rowbChecks p i w last
  | some .scan => scanChecks p w last
  | some .svc => svcChecks p i w last
  | some .emit | some .stash => egressChecks p w (p.widthFail == some i)
  | some .rclr | some .rexp => reamChecks w
  | some .rclose =>
    reamChecks w ++ (let r := ReamW.ofWord w; [(89, r.dest && (p.decl r.dslot).isNone)])
  | some .lrel | some .lflush => loftChecks w
  | _ => [(120, true)]

/-- The tile slots whose columns must equal C (R187, R200): word, field and slot. -/
def Prog.shapeSlots (p : Prog) : List (Nat × Nat × Nat) :=
  p.body.flatMap fun iw =>
    let (i, w) := iw
    match opOf w with
    | some .land => [(i, 108, (IngW.ofWord w).slot)]
    | some .size => let s := SizeW.ofWord w; if s.res then [(i, 39, s.rslot)] else []
    | some .elem => let e := ElemW.ofWord w; if fnBinary e.func && e.bsrc == 1 then [(i, 103, e.bslot)] else []
    | some .rowb => [(i, 93, (RowbW.ofWord w).uslot)]
    | some .scan => [(i, 114, (ScanW.ofWord w).oslot)]
    | _ => []

/-- A fault of checks on word i: its highest failing field. -/
def wordFault (i : Nat) (cs : List Chk) : List PFault :=
  match topFail cs with | some f => [⟨i, f, false⟩] | none => []

/-- Duplicate slot numbers among the declarations (R290). -/
def dupDecl (p : Prog) (i : Nat) (w : IWord) : Bool :=
  (p.declWords.any fun d => d.1 < i && (Decl.ofWord d.2).slot == (Decl.ofWord w).slot)

/-- Every failing check of a program whose header reads as valid (R282, R435) (log 13). -/
def Prog.faults (p : Prog) : List PFault :=
  let lastWord := p.words.length - 1
  (if !p.takesStrategy && p.hdr.strat != 0 then [⟨0, 101, false⟩] else [])
  ++ (p.declWords.flatMap fun d => wordFault d.1 ((116, dupDecl p d.1 d.2) :: declChecks d.2))
  ++ (match misplaced {} p.body with | some (i, f) => [⟨i, f, false⟩] | none => [])
  ++ (match p.lanes with
      | (_, w) :: (j, v) :: _ => if opc w = 0x30 && (ElemW.ofWord w).scarry then [⟨j, highField v, false⟩] else []
      | _ => [])
  ++ (p.body.flatMap fun b => wordFault b.1 (bodyChecks p b.1 b.2))
  ++ (p.shapeSlots.flatMap fun s =>
        match p.decl s.2.2 with
        | some d => if d.cols = p.hdr.c then [] else [⟨s.1, s.2.1, true⟩]
        | none => [])
  ++ (if p.ingest.isNone || !p.produces then [⟨lastWord, 120, false⟩] else [])

/-- Which of two faults is recorded: the earlier word, then the higher field, then the encoding fault. -/
def PFault.before (a b : PFault) : Bool :=
  a.word < b.word || (a.word = b.word && (a.flsb > b.flsb || (a.flsb = b.flsb && !a.operand)))
def firstFault (fs : List PFault) : Option PFault :=
  fs.foldl (fun m f => match m with | none => some f | some g => if g.before f then some g else some f) none

/-- The header at the start slot: a fault of word 0 when it does not read as a valid header (R435). -/
def headerFault (w : IWord) : Option PFault := (topFail (hdrChecks w)).map fun f => ⟨0, f, false⟩

/-! ### Checks at bind (Table 6-3) and Vat bytes (R182, R183) -/

def elemBytes (fmt : Nat) : Nat := codeWidth fmt / 8

/-- Whether a program holds both dy and u in its hold slot: a second reduction of a backward operation under Vat hold (R215). -/
def Prog.holdsTwo (p : Prog) : Bool :=
  p.hdr.strat == 0 && (match p.rowLike with
    | some (_, w) => opc w = 0x50 && (RowbW.ofWord w).mode && (RowbW.ofWord w).op != 5
    | none => false)

/-- Bytes of a slot whose elements are one value wide, or two (R182, R215). -/
def Decl.bytes (d : Decl) (two : Bool) : Nat :=
  let w := elemBytes d.fmt * (if two then 2 else 1)
  if d.rows = 1 then d.copies * d.cols * w
  else
    let line := (d.cols * w + 63) / 64 * 64
    let b := mxBlock d.fmt
    let sc := if isMx d.fmt then ((d.cols + b - 1) / b + 63) / 64 * 64 else 0
    d.copies * d.rows * (line + sc)

/-- Declarations of both programs, each identical one once (R183). -/
def uniteDecls (a b : List Decl) : List Decl := a ++ b.filter fun d => !a.contains d

/-- Vat bytes of a context with the programs that it names (R183, R156, R215). -/
def vatBytes (ps : List Prog) : Nat :=
  let ds := ps.foldl (fun ds p => uniteDecls ds p.decls) []
  let two (d : Decl) : Bool := d.role == 0 && ps.any fun p => p.holdsTwo && p.decls.contains d
  let tiles := (ds.filter fun d => d.rows ≠ 1).foldl (fun n d => n + d.bytes (two d)) 0
  let vecs := (ds.filter fun d => d.rows = 1).foldl (fun n d => n + d.bytes (two d)) 0
  tiles + (vecs + 63) / 64 * 64

/-- Whether a mask of sixteen lane groups holds every group of a pitch slot. -/
def slotHeld (held : Nat) (per k : Nat) : Bool := (List.range per).all fun j => held.testBit (k * per + j)

/-- Code 0x5 of Table 6-3: the deckle places a row on the groups held. A header whose pitch code is reserved has no
deckle to place; it faults at run start (R282). -/
def deckleFits (h : Hdr) (held : Nat) : Bool :=
  if h.mask then (List.range 16).any fun g => held.testBit g && h.gmask.testBit g
  else if h.w > 1024 then held % 65536 = 65535
  else if h.pcode > 4 then true
  else
    let per := h.pitch / 64
    (List.range (16 / per)).any (slotHeld held per)

/-- The program at slot s of an image, for code 0x1: a header whose length fits. -/
def bindProgram (image : Nat → IWord) (s : Nat) : Option Prog :=
  let w := image s
  let h := Hdr.ofWord w
  if opc w = 0xF0 && 2 ≤ h.len && h.len ≤ 64 && s + h.len ≤ 4096 && h.ndecl ≤ 16 then
    some ⟨(List.range h.len).map fun i => image (s + i)⟩
  else none

/-- The first failing code of Table 6-3, over the named programs in order, each check over both before the next. -/
def bindCheck (image : Nat → IWord) (starts : List Nat) (tenant vatAlloc reamAlloc held : Nat) : Option Nat :=
  let ps := starts.map (bindProgram image)
  if ps.any Option.isNone then some 1
  else
    let ps := ps.filterMap id
    if ps.any fun p => p.hdr.owner != tenant then some 2
    else if vatBytes ps > vatAlloc then some 3
    else if ps.any fun p => p.hdr.reams > reamAlloc then some 4
    else if ps.any fun p => !deckleFits p.hdr held then some 5
    else match ps with
      | [a, b] =>
        if a.decls.any fun d => b.decls.any fun e => d.slot == e.slot && d != e then some 6 else none
      | _ => none

end Sys2Proof.Machine
end

