-- ==== Sys2Proof/Machine/Place.lean ====
section
/-! DEFINITION. The deckle (R133 to R136): which lanes of a lane-beat hold an element, and its tile row, tile column and position;
the ream units of row operations (R434). -/
namespace Sys2Proof.Machine

/-- The place of an element: its lane, tile row, tile column and position in its row (R96). -/
structure Cell where
  lane : Nat
  row : Nat
  col : Nat
  pos : Nat
  deriving DecidableEq, Repr

/-- The pitch slots that carry a row, in ascending lane order (R134). -/
def carrySlots (held per : Nat) : List Nat := (List.range (16 / per)).filter (slotHeld held per)

/-- The active lanes of a mask-form deckle, in ascending order (R133). -/
def Hdr.maskLanes (h : Hdr) (held : Nat) : List Nat :=
  (List.range 1024).filter fun l => held.testBit (l / 64) && h.gmask.testBit (l / 64)

/-- Lane-beats of one row of more than 1,024 columns' width (R134). -/
def Hdr.rowBeats (h : Hdr) : Nat := (h.c + 1023) / 1024

/-- The elements of the b-th lane-beat of a tile (R133, R134, R232). rev: the body scans in reverse (log 39). -/
def Hdr.cells (h : Hdr) (held b cbase : Nat) (rev : Bool) : List Cell :=
  if h.mask then
    if b < h.c then
      let ls := h.maskLanes held
      ((List.range ls.length).zip ls).map fun rl => ⟨rl.2, rl.1, b, cbase + b⟩
    else []
  else if h.w > 1024 then
    let q := h.rowBeats
    let j := b % q
    let k := if rev then q - 1 - j else j
    (List.range (min 1024 (h.c - 1024 * k))).map fun l => ⟨l, b / q, 1024 * k + l, cbase + 1024 * k + l⟩
  else
    let ks := carrySlots held (h.pitch / 64)
    ((List.range ks.length).zip ks).flatMap fun rk =>
      (List.range (min h.c h.pitch)).map fun c => ⟨rk.2 * h.pitch + c, b * ks.length + rk.1, c, cbase + c⟩

/-- Tile rows of a tile of n lane-beats. -/
def Hdr.tileRows (h : Hdr) (held n : Nat) : Nat :=
  if h.mask then (h.maskLanes held).length
  else if h.w > 1024 then (n + h.rowBeats - 1) / h.rowBeats
  else n * (carrySlots held (h.pitch / 64)).length

/-- The tile rows of some elements, each once, in order. -/
def cellRows (cs : List Cell) : List Nat := (cs.map fun c => c.row).eraseDups

/-- Whether the body scans in reverse (R232). -/
def Prog.reverse (p : Prog) : Bool := match p.scan with | some w => (ScanW.ofWord w.2).rev | none => false

/-- Whether a run's tile holds the end of its rows (R168, R287). -/
def Prog.closes (p : Prog) (cbase : Nat) : Bool := cbase == (p.hdr.tiles - 1) * p.hdr.c

/-! ### Ream units (R434) -/

/-- First ream, reams per unit, rows per unit, unit places and group width (0 without groups). -/
structure Units where
  rn : Nat
  u : Nat
  div : Nat
  m : Nat
  g : Nat
  deriving DecidableEq, Repr

/-- n_g of R434. -/
def Prog.groupRows (p : Prog) : Nat :=
  if p.hdr.strat = 1 then
    (match p.rowLike with
     | some (_, w) => (match p.decl (RowW.ofWord w).bslot with | some d => d.cols | none => p.holdRows)
     | none => p.holdRows)
  else p.holdRows

def Prog.units (p : Prog) : Option Units :=
  let places (group : Bool) (np : Nat) : Nat :=
    if p.hdr.strat = 2 then np + 1 else if group then 2 else 2 * p.groupRows
  match p.rowLike with
  | none => none
  | some (_, w) =>
    if opc w = 0x40 then
      let r := RowW.ofWord w
      if r.op = 4 then some ⟨r.rn, 2 * (p.hdr.w / (256 * r.gdiv)), r.nsm1 + 1, places true r.npm1, 256 * r.gdiv⟩
      else some ⟨r.rn, 2, 1, places false r.npm1, 0⟩
    else if opc w = 0x50 then
      let r := RowbW.ofWord w
      if !r.mode then none
      else if r.op = 5 then some ⟨r.rn, 2, 1, r.npm1 + 1, 0⟩
      else if r.op = 4 then some ⟨r.rn, 2 * (p.hdr.w / (256 * r.gdiv)), r.nsm1 + 1, places true r.npm1, 256 * r.gdiv⟩
      else some ⟨r.rn, 2, 1, places false r.npm1, 0⟩
    else if IWord.fld w 119 116 = 0 then
      let x := XentW.ofWord w
      some ⟨x.rn, 4, x.s, places false x.npm1, 0⟩
    else none

/-- The unit of the row with row count k. -/
def Units.unit (n : Units) (k : Nat) : Nat := k / max n.div 1
/-- The first unit from that of the row with row count k on that takes unit place j. -/
def Units.nextUnit (n : Units) (k j : Nat) : Nat := n.unit k + (j + max n.m 1 - n.unit k % max n.m 1) % max n.m 1
/-- The group of a position within its row set. -/
def Units.group (n : Units) (pos : Nat) : Nat := if n.g = 0 then 0 else pos / n.g
/-- The first ream, as an operand, of the pair of a row with count k at a position. -/
def Units.ream (n : Units) (k pos : Nat) : Nat := n.rn + n.u * (n.unit k % max n.m 1) + 2 * n.group pos

/-- The row group of a held row (R156): groups of n_g rows, or of n_g service rows under XENT. -/
def Prog.rowGroup (p : Prog) (k : Nat) : Nat :=
  let ng := max p.groupRows 1
  match p.rowLike with
  | some (_, w) => if opc w = 0x70 then k / (XentW.ofWord w).s / ng else k / ng
  | none => k / ng

end Sys2Proof.Machine
end

