-- ==== Sys2Proof/Machine/Ream.lean ====
section
/-! DEFINITION. Reams: the 640-bit word, its descriptor, admission of terms, combination, records of maximum and minimum,
and the rounding of a committed ream (03_ream_reduction). -/
namespace Sys2Proof.Machine

/-- KIND of Table 3-2. -/
inductive RKind where | unset | sum | exp | max | min
  deriving DecidableEq, Repr

/-- Table 3-2, bits [63:61]; codes 5 to 7 are reserved. -/
def RKind.ofCode : Nat → Option RKind
  | 0 => some .unset | 1 => some .sum | 2 => some .exp | 3 => some .max | 4 => some .min | _ => none
def RKind.code : RKind → Nat | .unset => 0 | .sum => 1 | .exp => 2 | .max => 3 | .min => 4

/-- One part of a ream, committed or shadow: its word and descriptor (R79). -/
structure RPart where
  w : BitVec 640
  tally : Nat
  offset : Int
  nan : Bool
  pinf : Bool
  ninf : Bool
  csat : Bool
  trim : Bool
  kind : RKind
  deriving DecidableEq, Repr

/-- The part of a ream at reset and at a bind: KIND UNSET, all zero (R80). -/
def RPart.unset : RPart := ⟨0, 0, 0, false, false, false, false, false, .unset⟩

/-- The lowest offset, −8,388,607 (R80, R92). -/
def offMin : Int := -8388607
def offMax : Int := 8388607

/-! ### Records of MAX and MIN reams -/

/-- L0[31:0] value and L0[63:32] position of a MAX or MIN ream. -/
def RPart.recVal (r : RPart) : Nat := r.w.toNat % 2 ^ 32
def RPart.recPos (r : RPart) : Nat := (r.w.toNat >>> 32) % 2 ^ 32
def recWord (v pos : Nat) : BitVec 640 := BitVec.ofNat 640 (pos * 2 ^ 32 + v)

/-- Clearing a ream to a kind (R80): the empty record for MAX and MIN (R97). -/
def RPart.clear (k : RKind) : RPart :=
  { RPart.unset with
    kind := k
    offset := if k = .exp then offMin else 0
    w := match k with
      | .max => recWord 0xFF800000 0xFFFFFFFF
      | .min => recWord 0x7F800000 0xFFFFFFFF
      | _ => 0 }

/-- The shadow that a tile opens on a committed part (R89). -/
def RPart.openShadow (c : RPart) : RPart := { RPart.clear c.kind with offset := c.offset }

/-- The value of the empty record of MAX (larger := true) or MIN (R97). -/
def emptyVal (larger : Bool) : Nat := if larger then 0xFF800000 else 0x7F800000

/-- Record a beats record b under MAX (larger := true) or MIN (R98). The empty record loses to every operand (R97). -/
def recBeats (larger : Bool) (va pa vb pb : Nat) : Bool :=
  let empty (v p : Nat) : Bool := p == 0xFFFFFFFF && v == emptyVal larger
  if empty va pa then false
  else if empty vb pb then true
  else
    match decode va .fp32, decode vb .fp32 with
    | .nan, .nan => pa < pb
    | .nan, _ => false
    | _, .nan => true
    | x, y => (if larger then y.lt x else x.lt y) || (x.eqv y && pa < pb)

/-- The value bits a winner keeps: +0 for a zero, the canonical NaN for a NaN (R98). -/
def recCanon (v : Nat) : Nat :=
  match decode v .fp32 with
  | .nan => 0x7FC00000
  | w => if w.isZero then 0 else v

/-- Offering one record (value bits, position) to a MAX or MIN shadow (R96 to R98, R84). -/
def RPart.offer (d : RPart) (v : Nat) (pos : Nat) : RPart × Flags :=
  let past := pos > 0x7FFFFFFF
  let pos := if past then 0x7FFFFFFF else pos
  let d := { d with tally := min (d.tally + 1) (2 ^ 32 - 1), csat := d.csat || past }
  let d := if recBeats (d.kind = .max) v pos d.recVal d.recPos then
    { d with w := recWord (recCanon v) pos, nan := (decode v .fp32).isNan } else d
  (d, flIf past flSaturation)

/-! ### Terms -/

/-- admit_sum of R82, R83. -/
def RPart.admitSum (d : RPart) (t : Val) : RPart × Flags :=
  let d := { d with tally := min (d.tally + 1) (2 ^ 32 - 1) }
  match t with
  | .nan => ({ d with nan := true }, flNone)
  | .inf false => ({ d with pinf := true }, flNone)
  | .inf true => ({ d with ninf := true }, flNone)
  | .fin q =>
    if q.n ≠ 0 ∧ q.floorLog2 ≥ 308 then
      (if q.n < 0 then { d with ninf := true } else { d with pinf := true }, flOverflow ||| flInexact)
    else
      let (k, ex) := q.near 300
      let u : Int := if q.n < 0 then -(k : Int) else k
      ({ d with w := d.w + BitVec.ofInt 640 u }, flIf (!ex) flInexact)

/-- ceil_div_ln2 of R92: the smallest integer j with j × ln 2 ≥ m, exactly; clamped outside ±2²⁴ (the caller clamps
further in). -/
def ceilDivLn2 (m : XQ) : Int :=
  if m.n = 0 then 0
  else if m.floorLog2 > 24 then (if m.n < 0 then -16777216 else 16777216)
  else
    settle (fun p => ((Iv.exact m).div p (lnPt p (XQ.ofInt 2)))) (fun q => -(q.neg.fix 0)) precisions

/-- rescale of R92 for s > 0. -/
def RPart.rescale (d : RPart) (s : Nat) : RPart :=
  let lost := if s ≥ 640 then d.w.toNat != 0 else d.w.toNat % 2 ^ s != 0
  { d with trim := d.trim || lost, w := if s ≥ 640 then 0 else BitVec.ofNat 640 (d.w.toNat >>> s) }

/-- raise_offset of R92. -/
def RPart.raiseOffset (d : RPart) (m : Val) : RPart :=
  match m with
  | .nan => d
  | .inf true => d
  | _ =>
    let kn : Int := match m with
      | .fin q => min (max (ceilDivLn2 q) offMin) offMax
      | _ => offMax
    if kn > d.offset then { d.rescale (kn - d.offset).toNat with offset := kn } else d

/-- admit_exp of R93. -/
def RPart.admitExp (d : RPart) (x : Val) : RPart × Flags :=
  let d := { d with tally := min (d.tally + 1) (2 ^ 32 - 1) }
  match x with
  | .nan => ({ d with nan := true }, flNone)
  | .inf false => ({ d with pinf := true }, flNone)
  | .inf true => (d, flNone)
  | .fin q =>
    let (s, j) := expSig q
    let t : XQ := ⟨s, 1, j - 23 - d.offset⟩
    if t.floorLog2 ≥ 308 then ({ d with pinf := true }, flOverflow ||| flInexact)
    else
      let (u, ex) := t.trunc 300
      ({ d with w := d.w + BitVec.ofNat 640 u, trim := d.trim || !ex }, flNone)

/-! ### Combination (R99) -/

/-- ream_combine of R99: b into a, of the same kind, and the flags raised. The record that wins is its value, as R98 stores it, and its
position; other limbs, which an imported record alone can have, do not belong to it (log 71). -/
def RPart.combine (a b : RPart) : RPart × Flags :=
  let tally := min (a.tally + b.tally) (2 ^ 32 - 1)
  let sat := tally > 2 ^ 31 ∧ a.csat = false
  let c := { a with
    tally := tally
    csat := a.csat || b.csat || decide (tally > 2 ^ 31)
    pinf := a.pinf || b.pinf
    ninf := a.ninf || b.ninf
    trim := a.trim || b.trim }
  let r : RPart :=
    match a.kind with
    | .unset => c
    | .sum => { c with nan := a.nan || b.nan, w := a.w + b.w }
    | .exp =>
      let k := max a.offset b.offset
      let a' := if k > a.offset then a.rescale (k - a.offset).toNat else a
      let b' := if k > b.offset then b.rescale (k - b.offset).toNat else b
      { c with
        nan := a.nan || b.nan
        trim := c.trim || a'.trim || b'.trim
        offset := k
        w := a'.w + b'.w }
    | .max | .min =>
      let win := recBeats (a.kind = .max) b.recVal b.recPos a.recVal a.recPos
      let w := if win then recWord (recCanon b.recVal) b.recPos else a.w
      { c with w := w, nan := (decode (w.toNat % 2 ^ 32) .fp32).isNan }
  (r, flIf sat flSaturation)

/-! ### Descriptors and records -/

/-- The descriptor of Table 3-2. -/
def RPart.desc (r : RPart) : Reg :=
  BitVec.ofNat 64
    (r.tally % 2 ^ 32 + (BitVec.ofInt 24 r.offset).toNat * 2 ^ 32
      + r.nan.toNat * 2 ^ 56 + r.pinf.toNat * 2 ^ 57 + r.ninf.toNat * 2 ^ 58 + r.csat.toNat * 2 ^ 59
      + r.trim.toNat * 2 ^ 60 + r.kind.code * 2 ^ 61)

/-- Limb Lk of a ream word (R78). -/
def RPart.limb (r : RPart) (k : Nat) : Reg := BitVec.ofNat 64 (r.w.toNat >>> (64 * k))

/-- The record of eleven words: descriptor, then L9 down to L0 (R101). -/
def RPart.record (r : RPart) : List Reg := r.desc :: (List.range 10).map fun i => r.limb (9 - i)

/-- The part that eleven words spell; none for a reserved KIND (R102). -/
def RPart.ofRecord (ws : List Reg) : Option RPart :=
  match ws with
  | d :: ls =>
    match RKind.ofCode (d.toNat >>> 61) with
    | none => none
    | some k =>
      some
        { w := ls.foldl (fun (acc : BitVec 640) (l : Reg) => (acc <<< 64) ||| l.zeroExtend 640) 0
          tally := d.toNat % 2 ^ 32
          offset := (BitVec.ofNat 24 (d.toNat >>> 32)).toInt
          nan := d.toNat.testBit 56, pinf := d.toNat.testBit 57, ninf := d.toNat.testBit 58
          csat := d.toNat.testBit 59, trim := d.toNat.testBit 60
          kind := k }
  | [] => none

/-! ### Closing (R103, R104) -/

/-- signed(w, 640) × 2^(−300). -/
def RPart.value (a : RPart) : XQ := ⟨a.w.toInt, 1, -300⟩

/-- The exact sum of a SUM ream (R209): NaN for conflicting infinities, with invalid. -/
def RPart.sumExact (a : RPart) : Val × Flags :=
  if a.nan || (a.pinf && a.ninf) then (.nan, invIf (!a.nan))
  else if a.pinf then (.inf false, flNone)
  else if a.ninf then (.inf true, flNone)
  else (.fin a.value, flNone)

/-- close_sum of R103, as a code of the format. -/
def RPart.closeSum (a : RPart) (f : Fmt) : Nat × Flags :=
  let (v, fl) := a.sumExact
  let (y, fl') := roundRne v f
  (encode y f, fl ||| fl')

/-- close_exp_total of R304. -/
def RPart.closeExpTotal (a : RPart) (f : Fmt) : Nat × Flags :=
  if a.nan || a.pinf then a.closeSum f
  else
    let (y, fl) := roundRne (.fin (a.value.scale a.offset)) f
    (encode y f, fl)

/-- close_stats of R104: FP32 codes of the mean and the variance. -/
def closeStats (a1 a2 : RPart) (ddof : Nat) : Nat × Nat × Flags :=
  let n := a1.tally
  let nan := Fmt.nanCode .fp32
  if n = 0 ∨ n ≤ ddof then (nan, nan, flInvalid)
  else if a1.nan || a2.nan then (nan, nan, flNone)
  else if a1.pinf || a1.ninf || a2.pinf || a2.ninf then
    let (m, fl) := a1.closeSum .fp32
    (m, nan, fl ||| flInvalid)
  else
    let s1 := a1.value
    let s2 := a2.value
    let (m, f1) := roundRne (.fin (s1.div (XQ.ofInt n))) .fp32
    let num := ((XQ.ofInt n).mul s2).addAligned (s1.mul s1).neg
    let (v, f2) := roundRne (.fin (num.div (XQ.ofInt ((n : Int) * ((n : Int) - (ddof : Int)))))) .fp32
    (encode m .fp32, encode v .fp32, f1 ||| f2)

/-- The row state of smax_close (R145): the exact word and offset of a finite row (none: NaN row), m, d and l as FP32
codes, and the flags. -/
structure SmaxRow where
  row : Option (XQ × Int)
  m : Nat
  d : Nat
  l : Nat
  deriving DecidableEq, Repr, Inhabited

/-- smax_close of R145. A word below zero, which an imported record alone can bring, closes as zero does (log 92). -/
def smaxClose (a mx : RPart) : SmaxRow × Flags :=
  let m := mx.recVal
  let nan := Fmt.nanCode .fp32
  if a.nan then (⟨none, m, nan, nan⟩, flNone)
  else if a.pinf then (⟨none, m, 0x7F800000, 0x7F800000⟩, flInvalid)
  else if a.w.toInt ≤ 0 then (⟨none, m, 0, 0xFF800000⟩, flInvalid)
  else
    let s := a.value
    let (d, _) := roundRne (.fin (s.scale a.offset)) .fp32
    (⟨some (s, a.offset), m, encode d .fp32, logFaithful a.w.toNat a.offset⟩, flNone)

end Sys2Proof.Machine
end

