-- ==== Sys2Proof/Machine/Table.lean ====
section
/-! DEFINITION. Sparse tables by key: the one form in which the block's addressed stores and register files are held. Keys
rise strictly, and no entry equals what an unlisted key reads as. -/
namespace Sys2Proof.Machine

abbrev Tbl (α : Type) := List (Nat × α)

/-- The entry of a key, d where none is listed. -/
def Tbl.look {α : Type} (d : α) : Tbl α → Nat → α
  | [], _ => d
  | (a, x) :: r, k => if a = k then x else Tbl.look d r k

/-- Insertion before the first greater key. -/
def Tbl.ins {α : Type} (k : Nat) (v : α) : Tbl α → Tbl α
  | [] => [(k, v)]
  | (a, x) :: r => if k < a then (k, v) :: (a, x) :: r else (a, x) :: Tbl.ins k v r

/-- The table without a key. -/
def Tbl.drop {α : Type} (k : Nat) : Tbl α → Tbl α
  | [] => []
  | (a, x) :: r => if a = k then Tbl.drop k r else (a, x) :: Tbl.drop k r

/-- A write: the value d removes the entry. -/
def Tbl.put {α : Type} [DecidableEq α] (d : α) (t : Tbl α) (k : Nat) (v : α) : Tbl α :=
  if v = d then Tbl.drop k t else Tbl.ins k v (Tbl.drop k t)

/-- Keys strictly above a bound, rising, with no entry equal to d. -/
def Tbl.wfFrom {α : Type} [DecidableEq α] (d : α) : Option Nat → Tbl α → Bool
  | _, [] => true
  | lo, (a, x) :: r => (match lo with | none => true | some b => decide (b < a)) && decide (x ≠ d) && Tbl.wfFrom d (some a) r

/-- The canonical form. -/
def Tbl.wf {α : Type} [DecidableEq α] (d : α) (t : Tbl α) : Bool := Tbl.wfFrom d none t

/-- Writing a list of entries. -/
def Tbl.puts {α : Type} [DecidableEq α] (d : α) (t : Tbl α) (es : List (Nat × α)) : Tbl α :=
  es.foldl (fun t e => Tbl.put d t e.1 e.2) t

end Sys2Proof.Machine
end

