-- ==== Sys2Proof/Machine/State.lean ====
section
/-! DEFINITION. The state of an instance as plain data: every register, buffer, queue, mode and pin that the spec gives the
block, and the queue of commands that wait (INVENTORY.md, State). -/
namespace Sys2Proof.Machine

/-! ### Contexts -/

/-- STATE of CTXST (Table 9-1). -/
inductive CtxSt where | free | bound | running | faulted | draining
  deriving DecidableEq, Repr

/-- State of a slot copy (R185). -/
inductive CopySt where | empty | filling | full
  deriving DecidableEq, Repr

/-- A copy of a Vat slot (R185): its state, the row group of a statistics copy, the order of its commit, its elements by
row × 16,384 + column as (code, block scale code), and the run that fills it or last filled it. -/
structure Copy where
  st : CopySt
  group : Nat
  order : Nat
  data : Tbl (Nat × Nat)
  writer : Nat
  deriving DecidableEq, Repr

def Copy.fresh : Copy := ⟨.empty, 0, 0, [], 0⟩

/-- A declared Vat slot with its copies (R181, R185). -/
structure SlotSt where
  decl : Decl
  copies : List Copy
  deriving DecidableEq, Repr

/-- A held element (R156, R215): its lane, tile row, position in the row, hold code, the backward operand's hold code, and the
statistics record that it read at its arrival (R206). -/
structure HElem where
  lane : Nat
  row : Nat
  pos : Nat
  x : Nat
  u : Nat
  rec4 : Nat
  deriving DecidableEq, Repr

/-- A lane-beat held in the Vat (R156): the run and its program, the row count of its tile row 0, its tile's PSEQ, and hold codes (x, and u
for a backward operation). -/
structure HeldBeat where
  run : Nat
  psel : Bool
  base : Nat
  pseq : Nat
  els : List HElem
  lines : Nat                  -- stash lines that its results will take (R318)
  deriving DecidableEq, Repr

/-- A Loft record that a run has read (R220): its index and the run. -/
structure RowRec where
  k : Nat
  grp : Nat
  rec4 : Nat
  deriving DecidableEq, Repr

/-- A run's progress: delivered and waiting, started, its tile-end beat presented, past its tile-end check, or committed (R286,
R324). -/
inductive RunPhase where | waiting | started | checking | ended | committed
  deriving DecidableEq, Repr

/-- What a close leaves for the emission of a row; vectors: nothing, its sums stand in vector slots (fused-kernel mode, R210). -/
inductive RowStat where
  | vectors
  | smax (r : SmaxRow)
  | norm (mu r : Nat)
  | bwd (c1 c2 : Val)
  | xent (r : SmaxRow) (t : Nat)
  deriving DecidableEq, Repr

/-- A unit, or a group of it, that a tile closes: its last row in the tile, that row's count, its group and the cycle w. -/
structure Closing where
  row : Nat
  k : Nat
  grp : Nat
  w : Nat
  deriving DecidableEq, Repr

/-- A closed unit or group with its state, Loft record and loss. -/
structure Closed where
  c : Closing
  st : RowStat
  record : Nat
  loss : Option Nat
  ignored : Bool
  deriving DecidableEq, Repr

/-- A furnish run delivered to a channel and not yet completed. -/
structure Run where
  ser : Nat                    -- delivery serial
  w : RunW                     -- its RUN word (Table 10-3)
  slot : Option Nat            -- start slot of the program it names, none when the valid bit was clear
  key : BitVec 64              -- generator key and stream in force at delivery (R252)
  strm : BitVec 32
  arrived : Nat                -- cc in which it reached the channel
  phase : RunPhase
  start : Nat                  -- s of R315
  prog : Prog                  -- the words read at run start
  base : Option Nat            -- row count once it is fixed (R287)
  beats : Nat                  -- lane-beats presented
  rows : Nat                   -- tile rows seen
  lastT : Nat                  -- cc of the last beat presented
  tEnd : Nat                   -- t_e
  uLast : Option Nat           -- last tree cycle
  rowU : Tbl Nat               -- last tree cycle of each tile row; of a sampling tile the cc after which its candidates stand (R255)
  commitAt : Nat               -- cycle w in which its commit begins (R87), once its tile has ended
  outs : List (HeldBeat × List HElem)  -- held lane-beats that it emits, with the elements that leave (R154)
  emitAt : Tbl (List Nat)      -- Reel cycles reserved for each of them (R320)
  closed : List Closed         -- units of its tile that have closed
  parts : List (Nat × RPart)   -- committed parts that its second pass closes again, by ream (R159)
  sot : Bool                   -- it has presented a beat on Reel (R350)
  stashed : List Nat           -- stash lines used by the first and the second egress word
  holds : Bool                 -- it holds its context's lane groups (R269)
  takes : List (Nat × Nat)     -- slot copies it reads: (slot, copy)
  fills : List (Nat × Nat)     -- slot copies it fills: (slot, copy)
  landing : Tbl (Nat × Nat)    -- elements landed so far
  records : Nat                -- ream records imported so far (R346)
  carryIn : Tbl Nat            -- scan carry of each tile row, as its code plus 1 (R234)
  readIdx : List Nat           -- Loft record indices read (R221)
  after : List Nat             -- words after the ingest that have not acted (R303)
  deriving DecidableEq, Repr

/-- A direct word that waits to act (R285): its serial and the word. -/
structure Direct where
  ser : Nat
  word : IWord
  deriving DecidableEq, Repr

/-- A statistics record, stash line or sampling record that is not yet written (R219, R222, R253), with the cc from which it may be. -/
structure RecWrite where
  cc : Nat
  run : Nat
  idx : Nat                    -- record index
  rec4 : Nat                   -- 128 bits
  deriving DecidableEq, Repr

structure StashWr where
  cc : Nat
  run : Nat
  line : Nat
  tag : Nat
  data : Nat                   -- 512 bits
  be : Nat                     -- 64 byte enables
  deriving DecidableEq, Repr

structure SmpWr where
  cc : Nat
  w : Nat                      -- the cycle in which its commit began
  run : Nat
  win : Nat
  off : Nat                    -- byte offset within the window
  data : Nat                   -- 128 bits
  evt : Bool
  deriving DecidableEq, Repr

/-- A sticky-capture record (R76) with the cc that orders it (R77). -/
structure CapRec where
  kind : Bool                  -- true: ingress NaN
  pseq : Nat
  row : Nat
  col : Nat
  cc : Nat
  deriving DecidableEq, Repr

/-- Flags raised by an element, a close or an entry in one cc, with the row and column that a capture records. -/
structure Off where
  fl : Flags
  cc : Nat
  row : Nat
  col : Nat
  deriving DecidableEq, Repr

/-- A change of program fields that has not taken place in the slots (R180): the serials of the runs delivered before it, and the
declarations of the new fields. -/
structure SlotChange where
  before : List Nat
  decls : List Decl
  deriving DecidableEq, Repr

/-- How a context came to DRAINING (Table 9-2). -/
inductive DrainKind where | none | unbind | teardown
  deriving DecidableEq, Repr

structure Ctx where
  st : CtxSt
  ten : Nat
  chan : Nat
  binderr : Nat
  lgmask : BitVec 16
  rbmask : BitVec 8
  faultcode : Nat
  vatreq : Nat
  reamreq : Nat
  reambase : Nat
  proga : Nat
  progav : Bool
  progb : Nat
  progbv : Bool
  alreq : Nat
  algrant : Nat
  stashwin : Nat
  policy : Nat
  stashbase : Nat
  extent : Nat
  key : BitVec 64
  smpctr : BitVec 64
  strm : BitVec 32
  budget : Nat
  budForce : Nat               -- the BUDGET that the last refill or bind took (R272)
  balance : Int
  flags : Flags
  cap : Option CapRec
  capNow : Option CapRec       -- the first offence of the last cc in which one was detected (R77)
  iflt : BitVec 64
  ifltNow : Option (Nat × BitVec 64)   -- the encoding or operand fault of the last cc in which one was found, with the cc (R412)
  lost : BitVec 64
  lostNow : Option (Nat × BitVec 64)   -- what was recorded in CTXLOST in the last uc in which something was, with the uc (R412)
  stallPace : Nat
  stallBudget : Nat
  mark : BitVec 256
  -- what the channel holds for it
  runs : List Run
  directs : List Direct
  cnts : List Nat              -- row counts: program 0 and 1, first and second pass (R287)
  restarts : List (Nat × Nat)  -- counts that started runs restart, with the serial of the run, until they do (R286, R287)
  slots : List SlotSt
  newSlots : List SlotChange   -- changes of program fields that wait for earlier runs, the oldest first (R180)
  held : List HeldBeat
  carries : Tbl Nat            -- scan carries of emitted elements, by 2^32 × the run that held them + tile row (R235)
  rows : List RowRec
  groupEnds : List (Nat × Nat) -- row groups that are emitting: (2 × group + PSEL, an emission slot's cc) (R156)
  recQ : List RecWrite
  stashQ : List StashWr
  smpQ : List SmpWr
  abandonAt : Option Nat       -- cc f of a fault whose abandonment is not complete (R273)
  restoreWait : Bool
  rebound : Option Nat         -- uc in which a fence last moved it to another channel (R277)
  dropSot : Bool
  drain : DrainKind
  cpseq : Option (Nat × Nat)   -- serial and PSEQ of the latest-delivered run that completed (R369)
  lastEnd : Nat                -- tile-end beat or DISCARD of the context's previous run (R315)
  deriving DecidableEq, Repr

def Ctx.reset : Ctx :=
  { st := .free, ten := 0, chan := 0, binderr := 0, lgmask := 0, rbmask := 0, faultcode := 0, vatreq := 0, reamreq := 0
    reambase := 0, proga := 0, progav := false, progb := 0, progbv := false, alreq := 0, algrant := 0, stashwin := 0
    policy := 0, stashbase := 0, extent := 0, key := 0, smpctr := 0, strm := 0, budget := 0, budForce := 0, balance := 0, flags := 0
    cap := none, capNow := none, iflt := 0, ifltNow := none, lost := 0, lostNow := none, stallPace := 0, stallBudget := 0, mark := 0
    runs := [], directs := []
    cnts := [0, 0, 0, 0], restarts := [], slots := [], newSlots := [], held := [], carries := [], rows := [], groupEnds := []
    recQ := [], stashQ := [], smpQ := [], abandonAt := none, restoreWait := false, rebound := none, dropSot := false, drain := .none
    cpseq := none, lastEnd := 0 }

/-! ### Channels -/

/-- STATE of CHSTAT (Table 14-1). -/
inductive ChSt where | off | powering | ready | quiescing | fenced | testing
  deriving DecidableEq, Repr

/-- A shadow: the run that holds it, its contents with every term that has entered the tree, and the contents that stand in it from
some cc on, the newest first (R79, R87, R90). -/
structure Shadow where
  run : Nat
  part : RPart
  hist : List (Nat × RPart)
  deriving DecidableEq, Repr

/-- A ream: its committed part and its shadow (R79). -/
structure ReamCell where
  com : RPart
  sh : Option Shadow
  deriving DecidableEq, Repr
def ReamCell.reset : ReamCell := ⟨RPart.unset, none⟩

/-- A resident Loft line (R216). -/
structure LoftLine where
  idx : Nat                    -- Loft line index
  owner : Nat
  line : Nat                   -- line of the context's Loft space
  stash : Bool
  tag : Nat                    -- layer tag of a stash line
  data : Nat                   -- 512 bits
  be : Nat                     -- byte enables of a stash line
  valid : Nat                  -- four bits
  dirty : Bool
  released : Nat               -- four bits
  lastUse : Nat
  lastWrite : Nat
  fetching : Bool              -- a fetch of its home waits or is outstanding
  writing : Bool               -- a home write of it waits or is outstanding
  run : Nat                    -- the run a stash line belongs to
  deriving DecidableEq, Repr

/-- A beat in the Couch buffer (R316). -/
structure BufBeat where
  ser : Nat                    -- order of arrival
  arrived : Nat
  beat : CouchBeat
  deriving DecidableEq, Repr

/-- A Reel beat (Table 12-5) with the cycle fixed for it, the cc in which its elements entered the lanes (0: none did) and the run it
belongs to (none: a direct word). Slots that are not listed hold +0. -/
structure ReelBeat where
  due : Nat
  entry : Nat
  ctx : Nat
  run : Option Nat
  ten : Nat
  route : Bool
  fmt : Nat
  kind : Nat
  egr : Nat
  piece : Nat
  half : Nat
  sot : Bool
  eot : Bool
  pseq : Nat
  nrec : Nat
  scv : Bool
  data : List (Nat × Nat)
  we : List Nat
  scale : List (Nat × Nat)
  deriving DecidableEq, Repr

/-- A lane group (R269, R270): the context that holds it, the context that held it last and when it was released. -/
structure Holder where
  now : Option Nat
  last : Option Nat
  freeAt : Nat
  deriving DecidableEq, Repr
def Holder.reset : Holder := ⟨none, none, 0⟩

/-- A service row in the sorter (R248): context, service row, committed candidates (value code, position), and the candidates pending
of each run. -/
structure SortRow where
  ctx : Nat
  row : Nat
  com : List (Nat × Nat)
  pend : List (Nat × List (Nat × Nat))
  deriving DecidableEq, Repr

/-- A channel's allocation record for a context (R262, R362): Vat units, first ream, reams and Loft lines. -/
structure Alloc where
  ctx : Nat
  vat : Nat
  ream : Nat
  reams : Nat
  loft : Nat
  deriving DecidableEq, Repr

/-- CHERR (Table 13-4). -/
structure ErrRec where
  src : Nat
  index : Nat
  cyc : Nat
  deriving DecidableEq, Repr

/-- A test begun through the wrapper (R427): from OFF or not, and LBIST or MBIST. -/
structure WTest where
  fromOff : Bool
  lbist : Bool
  deriving DecidableEq, Repr

/-- A lane slot reserved for a run in a cc, on every lane group of its context (R318), until it is charged; beat: the cc in which the beat
was presented that it serves; emit: for the emission of held elements (R141). -/
structure LaneSlot where
  ctx : Nat
  run : Nat
  cc : Nat
  beat : Nat
  emit : Bool
  deriving DecidableEq, Repr

/-- A Reel cycle reserved for an emission beat at a row's close (R320), with the cc in which its elements enter the lanes. -/
structure ReelSlot where
  ctx : Nat
  run : Nat
  cc : Nat
  entry : Nat
  deriving DecidableEq, Repr

/-- The carry chain taken by a beat of a run (R237): n cc from cc lo on, per steps in each. -/
structure ScanSlot where
  ctx : Nat
  run : Nat
  lo : Nat
  n : Nat
  per : Nat
  deriving DecidableEq, Repr

/-- Causes of Table 11-3. -/
inductive Cause where | group | budget | slot | felt | vat | lane | tree | scan | sort | reel | host
  deriving DecidableEq, Repr

/-- What Couch came to in the present cc: whether it presented a beat, and the stalls of beats (R321). -/
structure Polled where
  presented : Bool
  stalls : List (Nat × Cause)
  deriving DecidableEq, Repr

/-- What work in progress brings about in a later cc. -/
inductive Effect where
  | offs (pseq : Nat) (os : List Off)             -- flags are raised, and captured under a PSEQ (R77, R115)
  | fault (code : Nat) (iflt : BitVec 64)         -- an operand is found illegal in use (R282)
  | check (pseq : Nat)                            -- the tile-end check (R324)
  | feed (els : List HElem) (reams : List Nat)    -- terms enter the tree, for these reams (R87)
  | imports (b : CouchBeat) (first : Nat) (reams : List Nat)  -- records enter the tree, for these reams, the first of them this one of
                                                  -- its tile (R291)
  | commit                                        -- the commit of a tile completes (R87)
  | close (c : Closing)                           -- the commit of a held row completes, and the row closes (R153)
  | reserve (j lane row : Nat)                    -- Reel cycles are reserved for held beat j (R154, R320)
  | emit (j : Nat)                                -- held beat j is emitted
  | turn (q : Nat)                                -- the terms of row group q of a mask-form tile are in its reams (R164)
  | turnClose (q : Nat)                           -- the close unit has taken its words, and they are cleared
  | stat (slot k v : Nat)                         -- a statistics entry is written (R157)
  | loss (p v row pseq : Nat) (iflt : BitVec 64)  -- a loss is combined into a batch ream (R245)
  | fill (slot ser : Nat) (vals : List Nat)       -- an RCLOSE has written its slot (R304)
  | release (idx n : Nat)                         -- an LREL releases records (R306)
  | flush (idx n : Nat)                           -- the home writes of an LFLUSH are asked for (R306)
  | drop (ser : Nat)                              -- the shadows of a discarded run are released (R306)
  | after                                         -- the words after the ingest act (R303)
  deriving DecidableEq, Repr

/-- An effect that falls due in a cc, with its context and run (none: a direct word). -/
structure Later where
  cc : Nat
  ctx : Nat
  run : Option Nat
  what : Effect
  deriving DecidableEq, Repr

/-- Tree cycles reserved for a run, with the target that each segment takes in them (R86): of a lane-beat, or of a row group in the turn of
a mask-form tile (R164). -/
structure TreeSlot where
  ctx : Nat
  run : Nat
  lo : Nat
  hi : Nat
  segs : List (Nat × Nat)
  deriving DecidableEq, Repr

/-- STEP, THRPEND, NEXT and THRSRC of CHSTAT as they last crossed to the uncore (R405). -/
structure ThrCopy where
  step : Nat
  pend : Bool
  next : Nat
  src : Nat
  deriving DecidableEq, Repr
def ThrCopy.reset : ThrCopy := ⟨0, false, 0, 0⟩

structure Channel where
  st : ChSt
  sdown : Bool
  onlatch : Bool
  offlatch : Bool
  step : Nat
  thrpend : Bool
  next : Nat
  thrsrc : Nat
  th : Nat
  thrAt : Nat
  thrCopy : ThrCopy
  pw : Nat                     -- the power-limit term that has crossed to the channel (R397)
  pchctl : BitVec 31           -- CHPCTL
  pchOld : Option (Nat × BitVec 31)  -- what CHPCTL held before the first write from the latest decision cc on, with its cc (R415)
  temp : BitVec 8
  tempCopy : BitVec 8
  clkStop : Bool
  fenceLatch : Option (Nat × Nat)  -- SRC and INDEX of a fence that waits for the clock (R383)
  storeWait : List (Nat × IWord)   -- master words that its store takes when the clock resumes (R404)
  ctlHeld : Bool               -- a Control write of one of them waits for that (R359, R404)
  cyc : Nat
  cycCopy : Nat
  wexpStored : Nat
  wexp : Nat
  refilled : Nat               -- the cc after the last window start whose refill is made, the model's own
  decided : Nat                -- the cc after the last throttle decision, the model's own
  wexpAt : Nat                 -- first cc at which the stored exponent may come into force (R409)
  flag : Flags
  pstall : Nat
  pcause : List Nat            -- causes 1 to 11
  starve : Nat
  crederr : Nat
  dPstall : Nat                -- increments that have not crossed to the uncore (R405)
  dPcause : List Nat
  dStarve : Nat
  dCrederr : Nat
  ce : Nat
  dCe : Nat
  fcfg : BitVec 15             -- CHFCFG
  fcount : Nat
  perm : Bool
  qabort : Bool
  fencing : Bool               -- its fence sequence is not complete (R367)
  tres : Nat
  imgbadMc : Bool
  imgbadTb : Bool
  rjlatch : Bool
  err : Option ErrRec
  testLatch : Bool
  testAt : Option Nat          -- uc in which TEST was last written (R433)
  quietAt : Nat
  wtest : Option WTest
  copying : Bool
  mcCrc : BitVec 32
  tbCrc : BitVec 32
  resWin : Nat
  resCnt : Nat
  alloc : List Alloc
  reams : Tbl ReamCell
  freed : Tbl Nat              -- the cc in which a commit last released the shadow of each ream (R87)
  store : Tbl IWord
  loft : List LoftLine
  wb : List LoftLine           -- lines being written home after a fence or MIGRATE (R226, R264)
  couch : List BufBeat
  credits : Tbl Nat
  lapsed : Tbl Nat             -- credits that lapsed when their context faulted (R317)
  grants : List (Nat × Nat)    -- grants decided; the first is on the CCR port (R341)
  ccrHold : Bool               -- it is not: the clock had stopped when the last one was accepted (R383)
  egress : List ReelBeat
  reelPort : Option ReelBeat
  holders : List Holder
  laneRes : List LaneSlot
  reelRes : List ReelSlot
  treeRes : List TreeSlot
  treeTgt : List (Option Nat)  -- last target of each segment before the reservations
  scanRes : List ScanSlot
  sortFree : Nat
  sorter : List SortRow
  due : List Later             -- what work in progress is still to bring about, by cc
  polled : Option Polled       -- what Couch came to in the present cc, none while it has not been commanded
  wordAt : Nat                 -- first cc in which it may take a word from the uncore (R313)
  deriving DecidableEq, Repr

def Channel.reset : Channel :=
  { st := .off, sdown := false, onlatch := false, offlatch := false, step := 0, thrpend := false, next := 0, thrsrc := 0
    th := 0, thrAt := 0, thrCopy := ThrCopy.reset, pw := 0, pchctl := 0x39AFB4F0, pchOld := none, temp := 0, tempCopy := 0, clkStop := false
    fenceLatch := none, storeWait := [], ctlHeld := false, cyc := 0, cycCopy := 0
    wexpStored := 16, wexp := 16, refilled := 0, decided := 0, wexpAt := 0, flag := 0, pstall := 0, pcause := List.replicate 11 0, starve := 0
    crederr := 0, dPstall := 0, dPcause := List.replicate 11 0, dStarve := 0, dCrederr := 0, ce := 0, dCe := 0
    fcfg := 0x250F, fcount := 0, perm := false, qabort := false, fencing := false, tres := 0, imgbadMc := false, imgbadTb := false
    rjlatch := false, err := none, testLatch := false, testAt := none, quietAt := 0, wtest := none, copying := false, mcCrc := 0, tbCrc := 0
    resWin := 0, resCnt := 0, alloc := [], reams := [], freed := [], store := [], loft := [], wb := [], couch := [], credits := [], lapsed := []
    grants := [], ccrHold := false, egress := [], reelPort := none, holders := List.replicate 16 Holder.reset, laneRes := [], reelRes := []
    treeRes := [], treeTgt := List.replicate 4 none, scanRes := [], sortFree := 0, sorter := [], due := [], polled := none, wordAt := 0 }

/-! ### Tenants, Felt slices, mill core, wrapper -/

/-- TWBASE and TWSIZE of one window (Table 9-4). base is bits [51:12]. -/
structure Window where
  en : Bool
  base : BitVec 40
  sizeexp : BitVec 6
  deriving DecidableEq, Repr
def Window.reset : Window := ⟨false, 0, 0⟩

/-- A report of MBRPT (Table 13-8). -/
structure Report where
  result : Nat
  detail : Nat
  tag : BitVec 16
  deriving DecidableEq, Repr

structure Tenant where
  wins : List Window
  tevpend : BitVec 5
  tevmask : BitVec 5
  trefcnt : Nat
  mbl : BitVec 64
  mbBusy : Bool
  mbTag : BitVec 16
  reports : List Report
  deriving DecidableEq, Repr
def Tenant.reset : Tenant := ⟨List.replicate 4 Window.reset, 0, 0, 0, 0, false, 0, []⟩

/-- What a Felt access is for (Table 12-8), with where its response goes. -/
inductive AccKind where
  | home (ch : Nat)                    -- home write of a resident Loft line
  | homeWb (ch : Nat)                  -- home write of a line of the write-back after a fence or MIGRATE
  | straight (run : Nat)               -- a record written home for want of a line (R227)
  | fetch (ch : Nat)
  | stash (ch tag : Nat)
  | stashStraight (run tag : Nat)
  | sample (run : Nat)
  | load
  | maint
  deriving DecidableEq, Repr

/-- A Felt access (R355): off is the byte offset in the window, or the host address of a maintenance read. -/
structure FeltAcc where
  kind : AccKind
  ctx : Nat
  line : Nat                   -- Loft line, or line of a load
  ten : Nat
  win : Nat
  off : Nat
  len : Nat
  wr : Bool
  data : Nat                   -- write data; of a load or image read, the serial of its load
  be : Nat
  deriving DecidableEq, Repr

/-- An outstanding access (R357). -/
structure FeltOut where
  tag : Nat
  acc : FeltAcc
  addr : Nat
  beats : Nat
  failed : Bool
  rdata : Nat
  deriving DecidableEq, Repr

/-- A write data beat on FWD (Table 12-7). -/
structure FwdBeat where
  tag : Nat
  data : Nat
  be : Nat
  last : Bool
  deriving DecidableEq, Repr

structure Slice where
  wait : List FeltAcc
  out : List FeltOut
  freq : Option Nat            -- tag of the FREQ transfer on the port
  fwd : List FwdBeat
  reqAt : Nat                  -- first uc in which it may issue an access (R357)
  wrAt : Nat                   -- first uc in which it may issue a write, whose data follows that of earlier writes (R357)
  tagAt : Tbl Nat              -- first uc in which each tag is free again (R357)
  fwdAt : Nat                  -- first uc in which its next write data beat may be transferred (R357)
  respAt : Nat                 -- first uc in which its next response beat may be transferred (R357)
  deriving DecidableEq, Repr
def Slice.reset : Slice := ⟨[], [], none, [], 0, 0, [], 0, 0⟩

/-- A word that a Headbox receiver holds (R313). -/
structure HbWord where
  word : IWord
  ctx : Nat
  ten : Nat
  ser : Nat
  deriving DecidableEq, Repr

/-- A mailbox entry (R378): its tenant, its 128-bit command, and whether the word is lost to an error (Table 13-1). -/
structure MbEntry where
  ten : Nat
  cmd : IWord
  lost : Bool
  deriving DecidableEq, Repr

/-- A program load in progress (R176). -/
structure LoadSt where
  ser : Nat
  ten : Nat
  tag : BitVec 16
  slot : Nat
  count : Nat
  win : Nat
  woff : Nat
  lines : Nat                  -- lines whose data has returned
  words : List IWord           -- words read so far
  deriving DecidableEq, Repr

/-- A mill bank: the CRC of its image, none when it holds none that passed its check. -/
structure Mill where
  run : Bool
  restarting : Bool
  active : Option (BitVec 32)
  inactive : Option (BitVec 32)
  cur : Option LoadSt
  lastBeat : Nat
  deriving DecidableEq, Repr
def Mill.reset : Mill := ⟨false, false, none, none, none, 0⟩

/-- A maintenance load in progress (R376): kind, channel, header address, header once read, lines read and running CRC. -/
structure MntLoad where
  ser : Nat
  kind : Nat
  ch : Nat
  addr : Nat
  header : Option Nat
  lines : Nat
  crc : BitVec 32
  err : Option Nat
  deriving DecidableEq, Repr

/-- BIST status of a channel (Table 16-6). -/
structure Bist where
  done : Bool
  busy : Bool
  refused : Bool
  tres : Nat
  first : BitVec 16
  deriving DecidableEq, Repr
def Bist.reset : Bist := ⟨false, false, false, 0, 0⟩

/-- The IEEE 1500 wrapper (R422 to R428): WIR, the boundary register's shift and update stages, the captured
identification, status and unlock registers, and the lock. -/
structure Wrapper where
  wir : BitVec 8
  wirShift : BitVec 8          -- WIR's shift stage
  wso : Tbl Bool               -- the bits that left WSO in the last scan, by their order
  bypass : Bool
  shift : Tbl Bool
  update : Tbl Bool
  idreg : BitVec 64
  bistReg : BitVec 32
  unlockReg : BitVec 32
  bist : Tbl Bist
  tries : Nat
  opened : Bool
  deriving DecidableEq, Repr
def Wrapper.reset : Wrapper := ⟨0, 0, [], false, [], [], 0, 0, 0, [], 0, false⟩

/-! ### The instance -/

structure State where
  pending : List Instr         -- commands that wait, first in, first out (log 1)
  jrst : Bool                  -- JRST_N is low
  ucrdy : Bool
  undef : Bool                 -- the state is undefined until the next reset (R433)
  uc : Nat
  freeCtr : Nat                -- the model's own: index of the next free value (log 5)
  seq : Nat                    -- the model's own: next serial of a delivery or arrival
  ctlRdata : Reg
  chans : Tbl Channel
  ctxs : Tbl Ctx
  tenants : Tbl Tenant
  slices : Tbl Slice
  rx : Tbl (List HbWord)
  rxAt : Tbl Nat               -- first uc in which each receiver may accept a word (R313)
  master : Tbl IWord
  staging : BitVec 64
  fsRej : Nat
  fsLslot : Nat
  ifstat : BitVec 21
  ifmask : BitVec 21
  ucce : Nat
  mailbox : List MbEntry
  mill : Mill
  mntAddr : BitVec 46          -- MNTADDR[51:6]
  mntDone : Bool
  mntErr : Bool
  mntCode : Nat
  mnt : Option MntLoad
  pstep : BitVec 12
  plimit : BitVec 8
  pw : Nat
  estAt : Nat                  -- the uc after the last power estimate, the model's own
  dbgen : Bool
  dbgCh : Nat
  dbgReam : Nat
  dbgView : Bool
  dbgWait : Bool               -- a read of DBGRDESC waits for a channel whose clock has stopped (R404)
  snapDesc : Reg
  snapWord : BitVec 640
  wrap : Wrapper
  ucKHz : Nat
  chKHz : Tbl Nat
  deriving DecidableEq, Repr

/-- The machine right after the reset pulse: every register at its reset value, every channel OFF, every context FREE, the
furnish master zero, the mill core halted, initialisation not yet complete (R392, R393, R394; log 3, log 6). -/
def State.reset : State :=
  { pending := [], jrst := false, ucrdy := false, undef := false, uc := 0, freeCtr := 0, seq := 1, ctlRdata := 0
    chans := [], ctxs := [], tenants := [], slices := [], rx := [], rxAt := [], master := [], staging := 0, fsRej := 0, fsLslot := 0
    ifstat := 0, ifmask := 0x1FFFFF, ucce := 0, mailbox := [], mill := Mill.reset, mntAddr := 0, mntDone := false
    mntErr := false, mntCode := 0, mnt := none, pstep := 250, plimit := 0, pw := 0, estAt := 0, dbgen := false, dbgCh := 0
    dbgReam := 0, dbgView := false, dbgWait := false, snapDesc := 0, snapWord := 0, wrap := Wrapper.reset, ucKHz := 1250000, chKHz := [] }

/-- No rule of the spec stops the machine with a fault: every fault of the spec is an effect on the state. The type has one
name, for a state that no run reaches: safe. -/
inductive Fault where
  /-- Raised by nothing: kept so that the outcome type is inhabited. Safe. -/
  | none
  deriving DecidableEq, Repr

inductive Refusal where
  /-- Raised by an arm of exec that has no meaning yet. Safe: nothing is claimed of the command. -/
  | notModelled (mnemonic : String)
  /-- Raised by every command but RESET_ASSERT and those of the test wrapper's own registers after WS_EXTEST was loaded while JRST_N was 1: the state
  is undefined until the next reset (R433, Table 16-8). Safe: the machine stops where the spec says nothing. -/
  | undefinedUntilReset
  deriving DecidableEq, Repr

end Sys2Proof.Machine
end

