-- ==== Sys2Proof/Machine/Ops.lean ====
section
/-! DEFINITION. The named operations that every meaning uses: reading and writing the parts of the state, the guards of a
command, flags and capture, tenant events, and saturating counters. -/
namespace Sys2Proof.Machine

/-! ### Parts of the state -/

def State.ch (s : State) (n : Nat) : Channel := Tbl.look Channel.reset s.chans n
def State.setCh (s : State) (n : Nat) (c : Channel) : State := { s with chans := Tbl.put Channel.reset s.chans n c }
def State.ctx (s : State) (n : Nat) : Ctx := Tbl.look Ctx.reset s.ctxs n
def State.setCtx (s : State) (n : Nat) (c : Ctx) : State := { s with ctxs := Tbl.put Ctx.reset s.ctxs n c }
def State.tenant (s : State) (n : Nat) : Tenant := Tbl.look Tenant.reset s.tenants n
def State.setTenant (s : State) (n : Nat) (t : Tenant) : State :=
  { s with tenants := Tbl.put Tenant.reset s.tenants n t }
def State.slice (s : State) (n : Nat) : Slice := Tbl.look Slice.reset s.slices n
def State.setSlice (s : State) (n : Nat) (x : Slice) : State := { s with slices := Tbl.put Slice.reset s.slices n x }
def State.rxq (s : State) (n : Nat) : List HbWord := Tbl.look [] s.rx n
def State.setRxq (s : State) (n : Nat) (q : List HbWord) : State := { s with rx := Tbl.put [] s.rx n q }

def State.modCh (s : State) (n : Nat) (f : Channel → Channel) : State := s.setCh n (f (s.ch n))
def State.modCtx (s : State) (n : Nat) (f : Ctx → Ctx) : State := s.setCtx n (f (s.ctx n))
def State.modTenant (s : State) (n : Nat) (f : Tenant → Tenant) : State := s.setTenant n (f (s.tenant n))
def State.modSlice (s : State) (n : Nat) (f : Slice → Slice) : State := s.setSlice n (f (s.slice n))

/-- A word of the furnish master image (R173). -/
def State.masterWord (s : State) (slot : Nat) : IWord := Tbl.look 0 s.master slot
/-- A word of a channel's furnish store (R172). -/
def Channel.word (c : Channel) (slot : Nat) : IWord := Tbl.look 0 c.store slot
/-- A ream of a channel, by physical index (R78). -/
def Channel.ream (c : Channel) (i : Nat) : ReamCell := Tbl.look ReamCell.reset c.reams i
def Channel.setReam (c : Channel) (i : Nat) (r : ReamCell) : Channel :=
  { c with reams := Tbl.put ReamCell.reset c.reams i r }
/-- Credits a context holds on the channel (R316). -/
def Channel.credit (c : Channel) (ctx : Nat) : Nat := Tbl.look 0 c.credits ctx
def Channel.setCredit (c : Channel) (ctx n : Nat) : Channel := { c with credits := Tbl.put 0 c.credits ctx n }

/-- Element i of a list, d beyond its end. -/
def nth {α : Type} (d : α) (l : List α) (i : Nat) : α := l.getD i d

/-- Replacing element i of a list. -/
def setNth {α : Type} (l : List α) (i : Nat) (v : α) : List α := l.set i v

/-! ### Guards -/

/-- While one of WS_EXTEST, WS_CLAMP and WS_SAFE is in WIR for a segment they permit, the logic sees every input at its
level during reset (R422, R424). -/
def wirIsolates (w : BitVec 8) : Bool :=
  let i := w.toNat % 16
  let g := w.toNat / 16
  (i == 1 || i == 3 || i == 4) && (g ≤ 8 || g == 15)

def State.isolated (s : State) : Bool := wirIsolates s.wrap.wir

/-- A command that acts inside the block: none while JRST_N is low (R392), and none after Table 16-8 (log 22). -/
def hw (s : State) (f : State → State) : Host.Outcome State Fault Refusal :=
  if s.undef then .refused .undefinedUntilReset else if s.jrst then .next s else .next (f s)

/-- A command that reaches the block through an input port: none reaches an isolated block either (R424). -/
def port (s : State) (f : State → State) : Host.Outcome State Fault Refusal :=
  if s.undef then .refused .undefinedUntilReset else if s.jrst || s.isolated then .next s else .next (f s)

/-- Uncore initialisation completes (R393). -/
def State.initDone (s : State) : State := { s with ucrdy := true }

/-- Whether a Control access is outstanding: it waits for a channel whose clock has stopped (R404). -/
def State.ctlBusy (s : State) : Bool := s.dbgWait || (List.range 8).any fun n => (s.ch n).ctlHeld

/-- A Control access: abandoned while JRST_N is low (Table 15-7), held until initialisation completes (R393), and not accepted while another
one is outstanding (R359) (log 104). -/
def ctl (s : State) (f : State → State) : Host.Outcome State Fault Refusal :=
  port s fun s => if s.ctlBusy then s else f s.initDone

/-! ### Counters, flags, capture -/

def sat32 (n : Nat) : Nat := min n 0xFFFFFFFF
def sat64 (n : Nat) : Nat := min n 0xFFFFFFFFFFFFFFFF

/-- BALANCE saturates as a 32-bit two's complement number (Table 9-1). -/
def satBal (i : Int) : Int := max (-2147483648) (min 2147483647 i)

/-- A tenant's TEVPEND bit is set (R266, R268). -/
def State.tev (s : State) (t bit : Nat) : State :=
  s.modTenant t fun x => { x with tevpend := x.tevpend ||| BitVec.ofNat 5 (2 ^ bit) }

def tevRunev : Nat := 0
def tevFault : Nat := 1
def tevRebind : Nat := 2
def tevRefuse : Nat := 3
def tevDrained : Nat := 4

/-- A refused command (R265): TREFCNT and REFUSE of the tenant whose tag it carries. -/
def State.refuse (s : State) (t : Nat) : State :=
  (s.modTenant t fun x => { x with trefcnt := sat32 (x.trefcnt + 1) }).tev t tevRefuse

/-- IFSTAT bits are set (Table 13-10). -/
def State.raiseIf (s : State) (bit : Nat) : State := { s with ifstat := s.ifstat ||| BitVec.ofNat 21 (2 ^ bit) }

/-- Event line T (R268) and the fault line (R360). -/
def State.evTen (s : State) (t : Nat) : Bool := (s.tenant t).tevpend &&& (s.tenant t).tevmask != 0
def State.evFlt (s : State) : Bool := s.ifstat &&& s.ifmask != 0

/-- Flags raised by a context while it is bound to a channel (R72, R75). -/
def State.raise (s : State) (c : Nat) (f : Flags) : State :=
  (s.modCtx c fun x => { x with flags := Flags.raise x.flags f }).modCh (s.ctx c).chan fun h =>
    { h with flag := Flags.raise h.flag f }

/-- Which of two offences comes first (R77). -/
def CapRec.before (a b : CapRec) : Bool :=
  a.cc < b.cc || (a.cc = b.cc && ((a.kind && !b.kind) || (a.kind == b.kind &&
    (a.row < b.row || (a.row = b.row && a.col < b.col)))))

/-- The first of a capture record, if there is one, and another. -/
def CapRec.first (o : Option CapRec) (r : CapRec) : CapRec := match o with | none => r | some a => if r.before a then r else a

/-- First-offence capture (R76, R77); the first offence of the latest cc stands apart, for a re-arming write that falls in it. -/
def Ctx.capture (x : Ctx) (r : CapRec) : Ctx :=
  { x with
    cap := some (CapRec.first x.cap r)
    capNow := match x.capNow with
      | some o => if o.cc < r.cc then some r else some (CapRec.first x.capNow r)
      | none => some r }

/-- CTXCAP after a re-arming write in a cc: the offence detected in that cc, or nothing (R15, R77, R412). -/
def Ctx.rearm (x : Ctx) (cc : Nat) : Ctx :=
  { x with cap := match x.capNow with
      | some r => if r.cc = cc then some r else none
      | none => none }

/-- A record already made stands before every offence on the context's next channel. -/
def Ctx.sealCap (x : Ctx) : Ctx := { x with cap := x.cap.map fun r => { r with cc := 0 } }

/-- The capture record of an offence: an ingress NaN before an invalid (R76, R77). -/
def Off.record (o : Off) (pseq : Nat) : Option CapRec :=
  if o.fl &&& flIngressNan != 0 then some ⟨true, pseq, o.row, o.col, o.cc⟩
  else if o.fl &&& flInvalid != 0 then some ⟨false, pseq, o.row, o.col, o.cc⟩
  else none

/-- Flags raised and captured for a context under a PSEQ. -/
def State.offend (s : State) (c pseq : Nat) (os : List Off) : State :=
  let s := s.raise c (os.foldl (fun f o => f ||| o.fl) flNone)
  match (os.filterMap fun o => o.record pseq).foldl (fun b r => some (CapRec.first b r)) none with
  | some r => s.modCtx c fun x => x.capture r
  | none => s

/-- The column field of an offence at a close or of an RCLOSE (R412). -/
def colOnes : Nat := 0x7FFF

/-- CTXIFLT (Table 10-2). src: 0 Headbox word, 1 program 0, 2 program 1. -/
def ifltWord (operand : Bool) (src word opcode flsb : Nat) : BitVec 64 :=
  BitVec.ofNat 64 (1 + operand.toNat * 2 + src * 4 + word * 16 + opcode * 2 ^ 10 + flsb * 2 ^ 18)

/-- The free value with the next index (log 5). -/
def State.free (s : State) : BitVec 64 × State := (Config.freeValue s.freeCtr, { s with freeCtr := s.freeCtr + 1 })

/-! ### What falls due later -/

/-- The order of effects that fall due in one cc: flags before the fault of that cc (R139), a commit before terms that enter the tree, a
row's emission beats in the order of Table 5-2 and R154 (log 81). -/
def Effect.rank : Effect → Nat
  | .offs _ _ => 0
  | .close _ => 1
  | .check _ | .stat _ _ _ | .loss _ _ _ _ _ | .fill _ _ _ | .release _ _ | .flush _ _ | .drop _ => 2
  | .emit _ => 3
  | .commit => 4
  | .after => 5
  | .feed _ _ | .imports _ _ _ | .turn _ | .turnClose _ => 6
  | .fault _ _ => 7
  | .reserve _ lane row => 8 + lane * 2 ^ 20 + row

/-- Whether an effect falls due before a rank in a cc. -/
def Later.before (e : Later) (cc rank : Nat) : Bool := e.cc < cc || (e.cc == cc && decide (e.what.rank < rank))

/-- Insertion after the effects that fall due no later. -/
def insertLater (e : Later) : List Later → List Later
  | [] => [e]
  | a :: r => if e.before a.cc a.what.rank then e :: a :: r else a :: insertLater e r

def Channel.defer (h : Channel) (es : List Later) : Channel := { h with due := es.foldl (fun l e => insertLater e l) h.due }

/-- Flags to be raised, by the cc of each. -/
def laterOffs (c : Nat) (run : Option Nat) (pseq : Nat) (os : List Off) : List Later :=
  (os.map fun o => o.cc).eraseDups.map fun cc => ⟨cc, c, run, .offs pseq (os.filter fun o => o.cc == cc)⟩

/-- Whether a ream has a shadow, or terms or records that are on their way to one. -/
def Channel.shadowed (h : Channel) (p : Nat) : Bool :=
  (h.ream p).sh.isSome || h.due.any fun e => match e.what with
    | .feed _ ps => ps.contains p
    | .imports _ _ ps => ps.contains p
    | _ => false

/-- Lane groups in a mask. -/
def popGroups (m : Nat) : Nat := ((List.range 16).filter fun g => m.testBit g).length

/-- The slots that a channel's contexts issued before the present cc are charged: one group-cycle for each group in each cc
in which it issues any slot (R272). -/
def State.charge (s : State) (n : Nat) : State :=
  let h := s.ch n
  let due := h.laneRes.filter fun r => r.cc < h.cyc
  (due.map fun r => r.ctx).eraseDups.foldl (fun s c => s.modCtx c fun x =>
      let ccs := ((due.filter fun r => r.ctx == c).map fun r => r.cc).eraseDups
      { x with balance := satBal (x.balance - (ccs.length * popGroups x.lgmask.toNat : Nat)) })
    (s.setCh n { h with laneRes := h.laneRes.filter fun r => h.cyc ≤ r.cc })

/-- Whether JCLK_CH of a channel runs a channel that is powered (R383, R271). -/
def Channel.ticking (h : Channel) : Bool := h.st != .off && !h.clkStop

/-- A powered island whose clock has stopped is frozen (R383). -/
def Channel.frozen (h : Channel) : Bool := h.st != .off && h.clkStop

/-- Whether a channel works: its Couch, Reel and units serve contexts (R340, R352), and its clock runs (R383). -/
def Channel.serves (c : Channel) : Bool := (c.st == .ready || c.st == .quiescing) && !c.clkStop

/-- Whether any context is bound to channel n: its allocation records (R262, R362). -/
def Channel.empty (c : Channel) : Bool := c.alloc.isEmpty

end Sys2Proof.Machine
end

