-- ==== Sys2Proof/Machine/Alloc.lean ====
section
/-! DEFINITION. What a channel allocates to contexts (R262, R263, R410), the declared slots of a context, and the entry of a
context into FREE (R258). -/
namespace Sys2Proof.Machine

/-- Free Vat in 64 KiB units (Table 15-4, VATFREE). -/
def Channel.freeVat (h : Channel) : Nat := 96 - h.alloc.foldl (fun n a => n + a.vat) 0
/-- Free Loft lines (LOFTFREE). -/
def Channel.freeLoft (h : Channel) : Nat := 16384 - h.alloc.foldl (fun n a => n + a.loft) 0
/-- Whether the unit of four reams from 4 × u belongs to no context. -/
def Channel.unitFree (h : Channel) (u : Nat) : Bool :=
  u < 64 && h.alloc.all fun a => decide (4 * u + 4 ≤ a.ream ∨ a.ream + a.reams ≤ 4 * u)
/-- Whether n units from u are free. -/
def Channel.unitsFree (h : Channel) (u n : Nat) : Bool := (List.range n).all fun i => h.unitFree (u + i)
/-- The lowest physical index of a free block of n units (R263); a block of no reams stands at 0. -/
def Channel.placeReams (h : Channel) (n : Nat) : Option Nat :=
  if n = 0 then some 0
  else ((List.range 64).find? fun u => h.unitsFree u n).map fun u => 4 * u
/-- The largest free block in units of four reams (REAMBLK). -/
def Channel.largestBlock (h : Channel) : Nat :=
  (List.range 65).foldl (fun m n => if (h.placeReams n).isSome && n > m then n else m) 0

/-- The channel's allocation record of a context (R362). -/
def Channel.record (h : Channel) (c : Nat) : Option Alloc := h.alloc.find? fun a => a.ctx == c

/-- Every copy of the declared slots EMPTY (R185). -/
def freshSlot (d : Decl) : SlotSt := ⟨d, List.replicate d.copies Copy.fresh⟩
def freshSlots (ds : List Decl) : List SlotSt := ds.map freshSlot

/-- The start slots that a context names, program 0 first (R178). -/
def Ctx.starts (x : Ctx) : List Nat := (if x.progav then [x.proga] else []) ++ (if x.progbv then [x.progb] else [])
/-- The start slot of one program, none when its valid bit is clear. -/
def Ctx.start (x : Ctx) (psel : Bool) : Option Nat :=
  if psel then (if x.progbv then some x.progb else none) else (if x.progav then some x.proga else none)

/-- The declarations of the programs that start slots name in the master image, each slot number once (R179, code 0x6). -/
def progDecls (s : State) (starts : List Nat) : List Decl :=
  let ds := starts.flatMap fun a => match bindProgram s.masterWord a with | some p => p.decls | none => []
  ds.foldl (fun acc d => if acc.any fun e => e.slot == d.slot then acc else acc ++ [d]) []

/-- A header of length 0 (R176). -/
def emptyHeader : IWord := mkWord 0xF0 []

/-- Whether a program at a start slot has a word in the range of a program load under way (R176). -/
def State.loadOver (s : State) (a : Nat) : Bool :=
  match s.mill.cur with
  | none => false
  | some l =>
    let w := s.masterWord a
    decide (a < l.slot + l.count ∧ l.slot < a + max (if opc w = 0xF0 then (Hdr.ofWord w).len else 0) 1)

/-- The master image as a bind reads it: a program over which a load is under way has length 0 (Table 6-9) (log 74). -/
def State.bindWord (s : State) (x : Ctx) (k : Nat) : IWord :=
  if x.starts.contains k && s.loadOver k then emptyHeader else s.masterWord k

/-- Table 6-3 on a context's programs (R179): the failing code (log 50). -/
def progCheck (s : State) (x : Ctx) : Option Nat :=
  bindCheck (s.bindWord x) x.starts x.ten (x.vatreq * 65536) (4 * x.reamreq) x.lgmask.toNat

/-- Whether a slot of the master lies in a program that a context not FREE names (R175): LEN words from each start (log 20). -/
def Ctx.locks (s : State) (x : Ctx) (slot : Nat) : Bool :=
  x.st != .free && (x.starts.any fun a =>
    let w := s.masterWord a
    let len := if opc w = 0xF0 then (Hdr.ofWord w).len else 0
    decide (a ≤ slot ∧ slot < a + max len 1))
  || (x.runs.any fun r => match r.slot with
      | some a =>
        let w := s.masterWord a
        let len := if opc w = 0xF0 then (Hdr.ofWord w).len else 0
        decide (a ≤ slot ∧ slot < a + max len 1)
      | none => false)

def State.locked (s : State) (slot : Nat) : Bool := s.ctxs.any fun e => e.2.locks s slot

/-- The reams of a block are UNSET (R80). -/
def Channel.unsetBlock (h : Channel) (base n : Nat) : Channel :=
  (List.range n).foldl (fun h i => h.setReam (base + i) ReamCell.reset) h

/-- Resources of a context on a channel: the allocation record, and the block UNSET (R262, R80). -/
def Channel.take (h : Channel) (c vat base reams loft : Nat) : Channel :=
  ({ h with alloc := h.alloc ++ [Alloc.mk c vat base reams loft], lapsed := Tbl.drop c h.lapsed }).unsetBlock base reams

/-- What stays of a reservation of tree cycles when its work ends in a cc: the cycles up to it, which have set the last target of
their segments (R86). -/
def TreeSlot.cut (r : TreeSlot) (cc : Nat) (ends : Bool) : Option TreeSlot :=
  if !ends then some r else if cc < r.lo then none else some { r with hi := min r.hi cc }

/-- The last target that a segment took before a cycle, however long ago (R86). -/
def Channel.lastTarget (h : Channel) (seg u : Nat) : Option Nat :=
  let rs := h.treeRes.filter fun r => r.hi < u && r.segs.any fun g => g.1 == seg
  match rs.foldl (fun (m : Option TreeSlot) r => match m with
      | none => some r
      | some b => if b.hi ≤ r.hi then some r else some b) none with
  | some r => (r.segs.find? fun g => g.1 == seg).map fun g => g.2
  | none => h.treeTgt.getD seg none

/-- The channel gives back what a context held: resources, Loft lines, credits and buffered beats (R258, R316). Credits that lapsed stay
known until its next bind (R361), and beats of direct words in the egress buffer leave in their cycles (R330). -/
def Channel.give (h : Channel) (c : Nat) : Channel :=
  let h := match h.record c with
    | some a => h.unsetBlock a.ream a.reams
    | none => h
  { h with
    alloc := h.alloc.filter fun a => a.ctx != c
    loft := h.loft.filter fun l => l.owner != c
    credits := Tbl.drop c h.credits
    couch := h.couch.filter fun b => b.beat.ctx.val != c
    sorter := h.sorter.filter fun r => r.ctx != c
    scanRes := h.scanRes.filter fun r => r.ctx != c
    due := h.due.filter fun e => e.ctx != c
    laneRes := h.laneRes.filter fun r => r.ctx != c
    treeRes := h.treeRes.filterMap fun r => r.cut h.cyc (r.ctx == c)
    holders := h.holders.map fun g => if g.now == some c then { g with now := none, last := some c, freeAt := h.cyc } else g }

/-- Which count a run uses (R287). -/
def Run.count (r : Run) : Nat := 2 * r.w.psel.toNat + r.w.pass2.toNat

/-- Whether a run delivered before a serial is still to pass its tile-end check under a count (R287). -/
def Ctx.unchecked (x : Ctx) (count ser : Nat) : Bool :=
  x.runs.any fun q => q.ser < ser && q.count == count && (q.phase == .waiting || q.phase == .started || q.phase == .checking)

/-- A count is restarted by a started run once every run delivered before it has advanced the count or is gone (R286, R287). -/
def Ctx.settleRestarts (x : Ctx) : Ctx :=
  x.restarts.foldl (fun y e =>
    if y.unchecked e.1 e.2 then y else { y with cnts := y.cnts.set e.1 0, restarts := y.restarts.filter fun q => q != e }) x

/-- What a channel kept for a context is gone: runs, words, slots, held beats and queues. -/
def Ctx.clearWork (x : Ctx) : Ctx :=
  { x with cnts := x.restarts.foldl (fun l e => l.set e.1 0) x.cnts, restarts := []
           capNow := none, ifltNow := none, runs := [], directs := [], slots := [], newSlots := [], held := [], carries := [], rows := []
           groupEnds := [], recQ := [], stashQ := [], smpQ := [], abandonAt := none, restoreWait := false, dropSot := false, lastEnd := 0 }

/-- The channel that holds an allocation record for a context (R362). -/
def State.homeOf (s : State) (c : Nat) : Option Nat := (List.range 8).find? fun n => ((s.ch n).record c).isSome

/-- The channel that serves a context: the one whose record names it, or the one that its entry names (R362). -/
def State.chanOf (s : State) (c : Nat) : Nat := (s.homeOf c).getD (s.ctx c).chan

/-- Whether the channel a context names holds its resources: not so for a context that found no room (R276; log 26). -/
def State.hosted (s : State) (c : Nat) : Bool := ((s.ch (s.ctx c).chan).record c).isSome

/-- What a channel loses when it is off or self-tested (R384 text, R371): every SRAM, buffer and queue. Lines of a
write-back (R226) are held by the slice until they are home, and the transfers in flight on Reel and the credit port complete (R352,
R361). -/
def Channel.wipe (h : Channel) : Channel :=
  { h with
    reams := [], freed := [], store := [], storeWait := [], loft := [], couch := [], credits := [], lapsed := []
    grants := if h.ccrHold then [] else h.grants.take 1, ccrHold := false, egress := [], holders := List.replicate 16 Holder.reset
    laneRes := [], reelRes := [], treeRes := [], treeTgt := List.replicate 4 none, scanRes := [], sortFree := 0, sorter := []
    due := [], polled := none, wordAt := 0 }

/-- A channel is fenced: it loses what a wipe takes, and the targets that its tree took stay those that it took last until it leaves OFF,
POWERING or TESTING (R86). -/
def Channel.fenceWipe (h : Channel) : Channel :=
  let h' := { h with treeRes := h.treeRes.filterMap fun (r : TreeSlot) => r.cut h.cyc true }
  { h.wipe with treeTgt := (List.range 4).map fun g => h'.lastTarget g (h.cyc + 1) }

/-- The channel's report of every value that Control reads reaches the uncore (R405) (log 16). -/
def Channel.report (h : Channel) : Channel :=
  { h with
    cycCopy := h.cyc, tempCopy := h.temp, thrCopy := ⟨h.step, h.thrpend, h.next, h.thrsrc⟩
    pstall := sat64 (h.pstall + h.dPstall), dPstall := 0
    pcause := (h.pcause.zip h.dPcause).map fun p => sat64 (p.1 + p.2), dPcause := List.replicate 11 0
    starve := sat64 (h.starve + h.dStarve), dStarve := 0
    crederr := sat32 (h.crederr + h.dCrederr), dCrederr := 0
    ce := sat32 (h.ce + h.dCe), dCe := 0 }

/-- The final report of a channel on its way to OFF: none when its clock has stopped (R405). -/
def Channel.lastReport (h : Channel) : Channel := if h.clkStop then h else h.report

/-- A channel goes OFF (Table 14-3, R405, R373): a final report, SDOWN, and its contents lost (log 62). -/
def Channel.goOff (h : Channel) : Channel :=
  { h.lastReport.wipe with
    st := .off, sdown := true, offlatch := false, onlatch := false, copying := false, testLatch := false, rjlatch := false
    fenceLatch := none, temp := 0, tempCopy := 0, mcCrc := 0, tbCrc := 0 }

/-- Whether a channel may be turned off (Table 14-3): it stands at READY, QUIESCING or FENCED with no context bound and its
fence sequence complete. -/
def Channel.mayOff (h : Channel) : Bool :=
  h.alloc.isEmpty && (h.st == .ready || h.st == .quiescing || (h.st == .fenced && !h.fencing))

/-- OFFLATCH is honoured when the channel stands at READY or FENCED with no context bound (Table 14-3). -/
def State.honourOff (s : State) (n : Nat) : State :=
  let h := s.ch n
  if h.offlatch && h.mayOff && h.st != .quiescing then s.setCh n h.goOff else s

/-- A context enters FREE (R258): the generator fields, BALANCE, ALGRANT and REAMBASE are cleared, DRAINED is set. -/
def State.enterFree (s : State) (c : Nat) : State :=
  let x := s.ctx c
  let n := s.chanOf c
  let s := s.modCh n fun h => h.give c
  let s := s.setCtx c { x.clearWork with st := .free, key := 0, smpctr := 0, strm := 0, balance := 0, algrant := 0
                                         reambase := 0, drain := .none, cap := x.sealCap.cap }
  (s.tev x.ten tevDrained).honourOff n

end Sys2Proof.Machine
end

