-- ==== Sys2Proof/Machine/Loft.lean ====
section
/-! DEFINITION. The Loft (R216 to R227): lines, records, finding a line for a write or a fetch, and the Felt accesses of
home writes, fetches and stash lines. -/
namespace Sys2Proof.Machine

/-- The statistics line of a context's Loft space that is resident (R216). -/
def Channel.findLine (h : Channel) (c line : Nat) : Option LoftLine :=
  h.loft.find? fun l => l.owner == c && !l.stash && l.line == line

/-- Changing the resident line with a Loft index. -/
def Channel.modLine (h : Channel) (idx : Nat) (f : LoftLine → LoftLine) : Channel :=
  { h with loft := h.loft.map fun l => if l.idx == idx then f l else l }

def Channel.dropLine (h : Channel) (idx : Nat) : Channel := { h with loft := h.loft.filter fun l => l.idx != idx }

/-- Resident lines of a context. -/
def Channel.lineCount (h : Channel) (c : Nat) : Nat := (h.loft.filter fun l => l.owner == c).length

/-- The lowest Loft line index that holds no line, also none that is still to be written home (R226, R264). -/
def Channel.freeIdx (h : Channel) : Nat :=
  let taken := h.loft ++ h.wb
  ((List.range (taken.length + 1)).find? fun i => taken.all fun l => l.idx != i).getD taken.length

/-- The 128 bits of record i mod 4 of a line. -/
def LoftLine.rec4 (l : LoftLine) (i : Nat) : Nat := (l.data >>> (128 * (i % 4))) % 2 ^ 128
def setRec (data i v : Nat) : Nat :=
  let sh := 128 * (i % 4)
  (data >>> (sh + 128)) * 2 ^ (sh + 128) + (v % 2 ^ 128) * 2 ^ sh + data % 2 ^ sh
/-- Byte enables of the valid records of a line (Table 12-8). -/
def recEnables (valid : Nat) : Nat :=
  (List.range 4).foldl (fun n i => if valid.testBit i then n + 0xFFFF * 2 ^ (16 * i) else n) 0

/-- The resident line that is least by a measure, ties to the lowest Loft index. -/
def leastLine (m : LoftLine → Nat) (ls : List LoftLine) : Option LoftLine :=
  ls.foldl (fun b l => match b with
    | none => some l
    | some a => if m l < m a || (m l == m a && l.idx < a.idx) then some l else some a) none

/-- Whether no fetch and no home write of a line is under way. -/
def LoftLine.still (l : LoftLine) : Bool := !l.fetching && !l.writing

/-- What a write or a fetch that needs a line finds (R223). -/
inductive LineFound where
  | free (h : Channel) (idx : Nat)      -- a line index to use
  | evict (l : LoftLine)                -- the dirty line to write home first
  | wait                                -- an eviction or a fetch is under way
  | full
  deriving DecidableEq, Repr

def Channel.needLine (h : Channel) (c granted : Nat) : LineFound :=
  let mine := h.loft.filter fun l => l.owner == c
  if mine.length < granted then .free h h.freeIdx
  else
    let stat := mine.filter fun l => !l.stash
    match leastLine (fun l => l.lastUse) (stat.filter fun l => !l.dirty && l.still) with
    | some l => .free (h.dropLine l.idx) l.idx
    | none =>
      if stat.any fun l => !l.still then .wait
      else match leastLine (fun l => l.lastWrite) (stat.filter fun l => l.dirty) with
        | some l => .evict l
        | none => .full

/-- A Felt access waits in a slice (R357). -/
def State.queueFelt (s : State) (sl : Nat) (a : FeltAcc) : State :=
  s.modSlice sl fun x => { x with wait := x.wait ++ [a] }

/-- Byte offset of a line's home within the stash window (R218). -/
def Ctx.home (x : Ctx) (line : Nat) : Nat := x.stashbase * 64 + 64 * line

/-- The home write of a resident line: the line waits for it (R219, R222). -/
def State.queueHome (s : State) (c : Nat) (l : LoftLine) : State :=
  let x := s.ctx c
  let s := s.modCh x.chan fun h => h.modLine l.idx fun l => { l with writing := true }
  s.queueFelt x.chan ⟨if l.stash then .stash x.chan l.tag else .home x.chan, c, l.line, x.ten, x.stashwin, x.home l.line, 64, true, 0, 0⟩

/-- The fetch of a line's home (R220). -/
def State.queueFetch (s : State) (c line : Nat) : State :=
  let x := s.ctx c
  s.queueFelt x.chan ⟨.fetch x.chan, c, line, x.ten, x.stashwin, x.home line, 64, false, 0, 0⟩

/-- A line taken for a context. -/
def newLine (idx c line : Nat) (now : Nat) : LoftLine :=
  { idx := idx, owner := c, line := line, stash := false, tag := 0, data := 0, be := 0, valid := 0, dirty := false
    released := 0, lastUse := now, lastWrite := now, fetching := false, writing := false, run := 0 }

/-- Lines in the order of their Loft index. -/
def insertLine (l : LoftLine) : List LoftLine → List LoftLine
  | [] => [l]
  | a :: r => if l.idx < a.idx then l :: a :: r else a :: insertLine l r
def Channel.addLine (h : Channel) (l : LoftLine) : Channel := { h with loft := insertLine l h.loft }

/-- What a read of a statistics record finds (R220). -/
inductive RecRead where
  | value (rec4 : Nat)
  | pending            -- the record is still to be written (R163): cause SLOT
  | fetching           -- a fetch is outstanding or no line is free: cause FELT
  deriving DecidableEq, Repr

/-- Whether a line of a context is still being written back from a channel that it left (R226). -/
def State.writingBack (s : State) (c line : Nat) : Bool :=
  (List.range 8).any fun n => (s.ch n).wb.any fun l => l.owner == c && l.line == line

/-- A read of record idx by a run with serial ser. A record that is not resident is fetched (R220). A context that was
granted no line reads through one line of its own (log 24). -/
def State.readRecord (s : State) (c ser idx : Nat) : RecRead × State :=
  let x := s.ctx c
  let h := s.ch x.chan
  let line := idx / 4
  if x.recQ.any fun w => w.idx == idx && w.run < ser then (.pending, s)
  else if s.writingBack c line then (.fetching, s)
  else match h.findLine c line with
    | some l =>
      if l.valid.testBit (idx % 4) then
        (.value (l.rec4 idx), s.modCh x.chan fun h => h.modLine l.idx fun l => { l with lastUse := h.cyc })
      else if l.fetching then (.fetching, s)
      else (.fetching, (s.modCh x.chan fun h => h.modLine l.idx fun l => { l with fetching := true }).queueFetch c line)
    | none =>
      match h.needLine c (max x.algrant 1) with
      | .free h' idx' =>
        let l := { newLine idx' c line h.cyc with fetching := true }
        (.fetching, (s.setCh x.chan (h'.addLine l)).queueFetch c line)
      | .evict l => (.fetching, s.queueHome c l)
      | .wait => (.fetching, s)
      | .full => (.fetching, s)

/-- A record is stored in a resident line (R216, R219). -/
def LoftLine.store (l : LoftLine) (idx v now : Nat) : LoftLine :=
  let b := 2 ^ (idx % 4)
  { l with data := setRec l.data idx v, valid := l.valid ||| b, dirty := true, lastUse := now, lastWrite := now
           released := l.released &&& (15 - b) }

/-- A record written straight home stands in the context's resident line of it too, which is no dirtier for that (R216). -/
def Channel.freshen (h : Channel) (c idx v : Nat) : Channel :=
  match h.findLine c (idx / 4) with
  | some l => h.modLine l.idx fun l => { l.store idx v h.cyc with dirty := l.dirty }
  | none => h

/-- Whether a range of records leaves the extent (R218). -/
def Ctx.outside (x : Ctx) (idx n : Nat) : Bool := decide (idx + n > 4 * x.extent)

/-- The records of a line within a range idx to idx + n − 1, as four bits. -/
def LoftLine.within (l : LoftLine) (idx n : Nat) : Nat :=
  (List.range 4).foldl (fun m i => if idx ≤ 4 * l.line + i && 4 * l.line + i < idx + n then m ||| 2 ^ i else m) 0

/-- A line without some of its records: what the line holds of them is not written home and is fetched for a later read (R221, Table 7-5)
(log 96). -/
def LoftLine.release (l : LoftLine) (gone : Nat) : LoftLine :=
  let v := l.valid &&& (15 - gone)
  { l with released := l.released ||| gone, valid := v, dirty := l.dirty && v != 0, writing := l.writing && v != 0 }

/-- Whether a line is freed: its four records are released (R221) and no fetch of it is under way. -/
def LoftLine.gone (l : LoftLine) : Bool := !l.stash && l.released == 15 && !l.fetching

/-- Release of records idx to idx + n − 1 (R221): a line whose four records are released is freed. -/
def Channel.release (h : Channel) (c idx n : Nat) : Channel :=
  { h with loft := (h.loft.map fun l => if l.owner == c && !l.stash then l.release (l.within idx n) else l).filter fun l =>
      !(l.owner == c && l.gone) }

/-- Whether an access is the home write of a line of channel n. -/
def FeltAcc.writes (a : FeltAcc) (n : Nat) (l : LoftLine) : Bool :=
  a.ctx == l.owner && a.line == l.line && (match a.kind with
    | .home k => k == n && !l.stash
    | .stash k _ => k == n && l.stash
    | _ => false)

/-- Whether an access that meets a test is outstanding. -/
def State.issued (s : State) (p : FeltAcc → Bool) : Bool := (List.range 8).any fun m => (s.slice m).out.any fun o => p o.acc

/-- Whether a home write of a line of channel n waits in a slice. -/
def State.asked (s : State) (n : Nat) (l : LoftLine) : Bool := (List.range 8).any fun m => (s.slice m).wait.any fun a => a.writes n l

/-- Home writes of the dirty resident lines of a context that hold a record of a range (R305). -/
def State.flush (s : State) (c idx n : Nat) : State :=
  let x := s.ctx c
  ((s.ch x.chan).loft.filter fun l => l.owner == c && !l.stash && l.dirty && !s.asked x.chan l
    && decide (4 * l.line < idx + n ∧ idx < 4 * l.line + 4)).foldl (fun s l => s.queueHome c l) s

/-- What was recorded in a register in one cc, or uc: a write that clears the register then leaves it (R412). -/
def madeIn (r : Option (Nat × BitVec 64)) (cc : Nat) : BitVec 64 :=
  match r with | some (u, v) => if u = cc then v else 0 | none => 0

/-- A line of a context is lost (R226): LOFTLOST is set when the loss is found (R369). -/
def State.noteLoss (s : State) (c : Nat) : State :=
  s.modCtx c fun x => { x with
    lost := x.lost ||| 8
    lostNow := some (s.uc, madeIn x.lostNow s.uc ||| 8) }

/-- A recompute mark is set (R224). -/
def State.setMark (s : State) (c tag : Nat) : State :=
  s.modCtx c fun x => { x with mark := x.mark ||| BitVec.ofNat 256 (2 ^ (tag % 256)) }

end Sys2Proof.Machine
end

