-- ==== Sys2Proof/Machine/Contain.lean ====
section
/-! DEFINITION. How work leaves a channel before it completes: a discarded run (R288), the abandonment of a context's work
(R273), a context fault (R274, R364), and the release of lane groups (R269). -/
namespace Sys2Proof.Machine

/-- The shadows that a set of runs holds are released without a commit (R91). -/
def Channel.dropShadows (h : Channel) (p : Nat → Bool) : Channel :=
  h.reams.foldl (fun h e => match e.2.sh with
    | some d => if p d.run then h.setReam e.1 { e.2 with sh := none } else h
    | none => h) h

/-- Candidates of a set of runs that are pending leave the sorter; a service row that holds none is no longer open (R248). -/
def dropPending (p : Nat → Bool) (rs : List SortRow) : List SortRow :=
  (rs.map fun r => { r with pend := r.pend.filter fun q => !p q.1 }).filter fun r => !(r.com.isEmpty && r.pend.isEmpty)

/-- The units of a channel without a set of runs: result beats, cycles reserved after the present one, candidates, and what their work
was still to bring about. -/
def Channel.dropRuns (h : Channel) (p : Nat → Bool) : Channel :=
  let of (run : Option Nat) : Bool := match run with | some r => p r | none => false
  { h with
    egress := h.egress.filter fun b => !of b.run
    laneRes := h.laneRes.filter fun r => !(p r.run && decide (r.cc > h.cyc))
    treeRes := h.treeRes.filterMap fun r => r.cut h.cyc (p r.run)
    scanRes := h.scanRes.filter fun r => !p r.run
    reelRes := h.reelRes.filter fun r => !p r.run
    due := h.due.filter fun e => !of e.run
    sorter := dropPending p h.sorter }

/-- The copies that a run was filling, by its tile or by an RCLOSE, are EMPTY again; a statistics copy is unchanged (Table 6-5). -/
def Ctx.unfill (x : Ctx) (ser : Nat) : Ctx :=
  { x with slots := x.slots.map fun sl =>
      { sl with copies := sl.copies.map fun k => if k.st == .filling && k.writer == ser then { k with st := .empty } else k } }

/-- Copies that were being filled are EMPTY again (Table 6-5). -/
def Ctx.emptyFilling (x : Ctx) : Ctx :=
  { x with slots := x.slots.map fun sl =>
      { sl with copies := sl.copies.map fun k => if k.st == .filling then { k with st := .empty } else k } }

/-- A context without one of its runs. A count that the run restarted is restarted all the same (R286). -/
def Ctx.dropRun (x : Ctx) (r : Run) : Ctx :=
  { ({ x with runs := x.runs.filter fun q => q.ser != r.ser }.unfill r.ser).settleRestarts with
    held := x.held.filter fun b => b.run != r.ser
    recQ := x.recQ.filter fun w => w.run != r.ser
    stashQ := x.stashQ.filter fun w => w.run != r.ser
    smpQ := x.smpQ.filter fun w => w.run != r.ser }

/-- The lane groups of a context that holds them for no run are released in a cc (R269). -/
def State.releaseGroups (s : State) (c cc : Nat) : State :=
  let x := s.ctx c
  if x.runs.any fun r => r.holds then s
  else s.modCh (s.chanOf c) fun h =>
    { h with holders := h.holders.map fun g => if g.now == some c then ⟨none, some c, cc⟩ else g }

/-- The beats of a context at the head of the buffer, up to its next tile-start beat, are dropped (R328): the buffer, and
whether a tile-start beat stopped the drop. -/
def dropToSot (c : Nat) : List BufBeat → List BufBeat × Bool
  | [] => ([], false)
  | b :: bs =>
    if b.beat.ctx.val == c then
      if b.beat.sot then (b :: bs, true) else dropToSot c bs
    else let (r, f) := dropToSot c bs; (b :: r, f)

/-- A waiting Felt access of a context leaves its slice before it is issued: its Loft line stays (R273) (log 19). -/
def State.cancelFelt (s : State) (a : FeltAcc) : State :=
  match a.kind with
  | .home ch => s.modCh ch fun h => { h with loft := h.loft.map fun l =>
      if l.owner == a.ctx && !l.stash && l.line == a.line then { l with writing := false } else l }
  | .fetch ch => s.modCh ch fun h => { h with loft := (h.loft.map fun l =>
      if l.owner == a.ctx && !l.stash && l.line == a.line then { l with fetching := false } else l).filter fun l =>
        !(l.owner == a.ctx && !l.stash && l.line == a.line && l.valid == 0) }
  | .stash ch _ => s.modCh ch fun h => { h with loft := h.loft.map fun l =>
      if l.owner == a.ctx && l.stash && l.line == a.line && l.dirty then { l with writing := false } else l }
  | .stashStraight _ tag => s.setMark a.ctx tag
  | _ => s

/-- Whether an access is a context's own work in its slice's queue: not a write-back of R226, a load or an image read. -/
def FeltAcc.ownedBy (a : FeltAcc) (c : Nat) : Bool :=
  a.ctx == c && (match a.kind with | .homeWb _ => false | .load => false | .maint => false | _ => true)

/-- Every access of a context that is not issued is removed. -/
def State.cancelAll (s : State) (c : Nat) : State :=
  (List.range 8).foldl (fun s n =>
    let q := (s.slice n).wait
    let s := s.modSlice n fun x => { x with wait := q.filter fun a => !a.ownedBy c }
    (q.filter fun a => a.ownedBy c).foldl (fun s a => s.cancelFelt a) s) s

/-- The runs of a context whose shadows are still to be released: those that it has, and those discarded in the present cc (R306). -/
def Channel.shadowRuns (h : Channel) (c : Nat) (x : Ctx) : List Nat :=
  (x.runs.map fun r => r.ser) ++ h.due.filterMap fun e => if e.ctx == c then (match e.what with | .drop n => some n | _ => none) else none

/-- The work of a context on its channel is abandoned (R273): runs and direct words, shadows, held beats, open rows,
candidates, result beats, buffered beats and credits, what its work was still to bring about, and its accesses that are not issued.
Committed reams, FULL copies and Loft lines stay. The lane groups stay held. Its credits lapse, with those that lapsed before (R361). -/
def State.abandon (s : State) (c : Nat) : State :=
  let x := s.ctx c
  let sers := (s.ch (s.chanOf c)).shadowRuns c x
  let s := s.modCh (s.chanOf c) fun h =>
    let h := (h.dropShadows fun r => sers.contains r).dropRuns fun r => sers.contains r
    { h with
      due := h.due.filter fun e => e.ctx != c
      egress := h.egress.filter fun b => b.ctx != c
      couch := h.couch.filter fun b => b.beat.ctx.val != c
      lapsed := Tbl.put 0 h.lapsed c (Tbl.look 0 h.lapsed c + h.credit c)
      credits := Tbl.drop c h.credits
      sorter := h.sorter.filter fun r => r.ctx != c
      laneRes := h.laneRes.filter fun r => !(r.ctx == c && decide (r.cc > h.cyc))
      treeRes := h.treeRes.filterMap fun r => r.cut h.cyc (r.ctx == c)
      scanRes := h.scanRes.filter fun r => r.ctx != c }
  let s := s.modCtx c fun x =>
    { { x.emptyFilling with runs := [] }.settleRestarts with
      directs := [], held := [], carries := [], rows := [], groupEnds := [], recQ := [], stashQ := [], smpQ := [], dropSot := false }
  s.cancelAll c

/-- The declared slots follow the new program fields (R180): a slot declared identically keeps its copies, any other starts
EMPTY, one that is no longer declared is released. -/
def Ctx.reslot (x : Ctx) (ds : List Decl) : Ctx :=
  { x with
    slots := ds.map fun d => match x.slots.find? fun sl => sl.decl == d with
      | some sl => sl
      | none => freshSlot d }

/-- Changes of program fields take place in the slots in their order, each when the last run issued before it is gone (R180)
(log 20). -/
def Ctx.settleChanges (x : Ctx) : List SlotChange → Ctx
  | [] => { x with newSlots := [] }
  | q :: qs =>
    if x.runs.any fun r => q.before.contains r.ser then { x with newSlots := q :: qs } else (x.reslot q.decls).settleChanges qs

def State.settleSlots (s : State) (c : Nat) : State :=
  if (s.ctx c).newSlots.isEmpty then s else s.modCtx c fun x => x.settleChanges x.newSlots

/-- A context fault takes effect (R273, R274): the first since the bind or RESTORE sets FAULTCODE, and the first encoding or
operand fault sets CTXIFLT (R283). A BOUND or RUNNING context enters FAULTED; a DRAINING one stays DRAINING with its runs
abandoned (log 25). -/
def State.fault (s : State) (c code : Nat) (iflt : BitVec 64) : State :=
  let x := s.ctx c
  if x.st == .free then s
  else
    let enters := x.st == .bound || x.st == .running
    let cc := (s.ch (s.chanOf c)).cyc
    let s := if x.st == .faulted then s else (s.abandon c).settleSlots c
    let s := s.modCtx c fun x =>
      { x with
        st := if enters then .faulted else x.st
        faultcode := if x.faultcode = 0 then code else x.faultcode
        iflt := if x.iflt.getLsbD 0 then x.iflt else iflt
        ifltNow := if iflt.getLsbD 0 && x.ifltNow.all fun e => e.1 != cc then some (cc, iflt) else x.ifltNow
        abandonAt := if x.st == .faulted then x.abandonAt else match x.abandonAt with | some f => some f | none => some cc }
    if enters then s.tev x.ten tevFault else s

/-- Fault codes of Table 13-2. -/
def fcEncoding : Nat := 0x01
def fcOperand : Nat := 0x02
def fcSequence : Nat := 0x03
def fcResidue : Nat := 0x04
def fcParity : Nat := 0x05
def fcWindow : Nat := 0x06
def fcResponse : Nat := 0x07
def fcStash : Nat := 0x08
def fcNoRoom : Nat := 0x09
def fcEntryLost : Nat := 0x0A

/-- A fault that CTXIFLT attributes to a word (R281, R435). -/
def State.ifault (s : State) (c : Nat) (operand : Bool) (src word opcode flsb : Nat) : State :=
  s.fault c (if operand then fcOperand else fcEncoding) (ifltWord operand src word opcode flsb)

/-- SRC of CTXIFLT for a program. -/
def srcOf (psel : Bool) : Nat := if psel then 2 else 1

/-- An illegal operand of a word of a run's program. -/
def State.operand (s : State) (c : Nat) (r : Run) (word flsb : Nat) : State :=
  s.ifault c true (srcOf r.w.psel) word (opc (r.prog.words.getD word 0)) flsb

/-- The work of a context's open runs is gone: when none is left a RUNNING context is BOUND (Table 9-2). -/
def State.settleState (s : State) (c : Nat) : State :=
  let x := s.ctx c
  if x.st == .running && (x.runs.all fun r => r.phase == .waiting) then s.modCtx c fun x => { x with st := .bound } else s

end Sys2Proof.Machine
end

