-- ==== Sys2Proof/Machine/Reel.lean ====
section
/-! DEFINITION. Result beats (R320, R330, R347 to R351): their layout, the cycles reserved for them, and their place in the
egress buffer. -/
namespace Sys2Proof.Machine

/-- Whether a Reel cycle is reserved. -/
def Channel.reelTaken (h : Channel) (cc : Nat) : Bool :=
  (h.egress.any fun b => b.due == cc) || (h.reelRes.any fun r => r.cc == cc)

/-- The first Reel cycle from a cc on that is not reserved (R320). -/
def Channel.nextReel (h : Channel) (cc : Nat) : Nat :=
  cc + ((List.range (h.egress.length + h.reelRes.length + 1)).find? fun i => !h.reelTaken (cc + i)).getD 0

/-- The Reel cycles that n beats in order take from a cc on, each the next one that is not reserved (R320). -/
def Channel.freeReel (h : Channel) : Nat → Nat → List Nat
  | _, 0 => []
  | cc, n + 1 => h.nextReel cc :: h.freeReel (h.nextReel cc + 1) n

/-- Beats in the cycles fixed for them. -/
def dated (bs : List ReelBeat) (ccs : List Nat) : List ReelBeat := (bs.zip ccs).map fun bc => { bc.1 with due := bc.2 }

/-- A beat in the order of its cycle. -/
def insertReel (b : ReelBeat) : List ReelBeat → List ReelBeat
  | [] => [b]
  | a :: r => if b.due < a.due then b :: a :: r else a :: insertReel b r

def Channel.addReel (h : Channel) (bs : List ReelBeat) : Channel :=
  { h with egress := bs.foldl (fun e b => insertReel b e) h.egress }

/-- A beat with no contents of a context's stream. -/
def blankBeat (c ten due : Nat) (run : Option Nat) : ReelBeat :=
  { due := due, entry := 0, ctx := c, run := run, ten := ten, route := false, fmt := 0, kind := 0, egr := 0, piece := 0, half := 0
    sot := false, eot := false, pseq := 0, nrec := 0, scv := false, data := [], we := [], scale := [] }

/-- Whether a format takes two beats (R347). -/
def wideFmt (fmt : Nat) : Bool := codeWidth fmt == 32

/-- Beats that an emission of a format takes. -/
def fmtBeats (fmt : Nat) : Nat := if wideFmt fmt then 2 else 1

/-- The slots that hold a value other than zero. -/
def nonZero (vs : List (Nat × Nat)) : List (Nat × Nat) := vs.filter fun v => v.2 != 0

/-- One emission: its values by slot, as one beat, or as the two halves of a 32-bit format in consecutive cc (R347). -/
def emission (b : ReelBeat) (vals : List (Nat × Nat)) : List ReelBeat :=
  let b := { b with we := vals.map fun (v : Nat × Nat) => v.1 }
  if wideFmt b.fmt then
    [{ b with data := nonZero (vals.map fun (v : Nat × Nat) => (v.1, v.2 % 65536)) },
     { b with due := b.due + 1, half := 1, data := nonZero (vals.map fun (v : Nat × Nat) => (v.1, v.2 / 65536)) }]
  else [{ b with data := nonZero vals }]

/-- A beat of ream records (R351). -/
def recordBeat (b : ReelBeat) (rs : List RPart) : ReelBeat :=
  let ws : List Reg := rs.flatMap fun r => r.record
  { b with
    kind := 2, fmt := 0xB, nrec := rs.length, we := List.range (44 * rs.length)
    data := nonZero ((List.range (4 * ws.length)).map fun k => (k, ((ws.getD (k / 4) 0).toNat >>> (16 * (k % 4))) % 65536)) }

/-- Lists of at most n elements, in order. -/
def chunks {α : Type} (n : Nat) : Nat → List α → List (List α)
  | 0, _ => []
  | fuel + 1, l => if l.isEmpty then [] else l.take n :: chunks n fuel (l.drop n)

/-- The last element changed. -/
def mapLast {α : Type} (f : α → α) : List α → List α
  | [] => []
  | [a] => [f a]
  | a :: r => a :: mapLast f r
def mapFirst {α : Type} (f : α → α) : List α → List α
  | [] => []
  | a :: r => f a :: r

/-- Changing a run of a context. -/
def Ctx.modRun (x : Ctx) (ser : Nat) (f : Run → Run) : Ctx :=
  { x with runs := x.runs.map fun r => if r.ser == ser then f r else r }
def State.modRun (s : State) (c ser : Nat) (f : Run → Run) : State := s.modCtx c fun x => x.modRun ser f
def Ctx.run (x : Ctx) (ser : Nat) : Option Run := x.runs.find? fun r => r.ser == ser

/-- Beats enter the egress buffer of a context's channel (R350): the first of a direct word's output carries REEL_SOT, and the last
REEL_EOT with PSEQ 0. -/
def State.present (s : State) (c : Nat) (run : Option Nat) (bs : List ReelBeat) : State :=
  if bs.isEmpty then s
  else s.modCh (s.ctx c).chan fun h => h.addReel (match run with
    | none => mapFirst (fun b => { b with sot := true }) (mapLast (fun b => { b with eot := true }) bs)
    | some _ => bs)

/-- A beat goes to the Reel port: the first that a run presents carries REEL_SOT (R350). -/
def State.toPort (s : State) (n : Nat) (b : ReelBeat) : State :=
  match b.run with
  | none => s.modCh n fun h => { h with reelPort := some b }
  | some ser =>
    let first := match (s.ctx b.ctx).run ser with | some r => !r.sot | none => false
    (s.modCh n fun h => { h with reelPort := some { b with sot := first } }).modRun b.ctx ser fun r => { r with sot := true }

end Sys2Proof.Machine
end

