-- ==== Sys2Proof/Machine/RowMath.lean ====
section
/-! DEFINITION. The arithmetic of row operations, backward forms, scans and services on exact values: emission and
closing formulas of 05 to 08. Nothing here rounds except where the pseudocode names convert or round_rne. -/
namespace Sys2Proof.Machine

/-- A result formed exactly, with the invalid of binop. -/
abbrev Exact := Val × Flags

def exBin (op : Arith) (a b : Exact) : Exact :=
  let (v, i) := binop op a.1 b.1
  (v, a.2 ||| b.2 ||| invIf i)

def exV (v : Val) : Exact := (v, flNone)

/-- The exact value of an FP32 code. -/
def f32v (c : Nat) : Val := decode c .fp32

/-- smax_emit of R146 before convert: x against the row (s, k). -/
def smaxEmit (x : Val) (row : Option (XQ × Int)) : Exact :=
  match row, x with
  | none, _ => exV .nan
  | some _, .nan => exV .nan
  | some _, .inf true => exV Val.zero
  | some _, .inf false => (.nan, flInvalid)
  | some (s, k), .fin q =>
    let (m, j) := expSig q
    exV (.fin ((⟨m, 1, j - 23 - k⟩ : XQ).div s))

/-- Fold emission of SMAX (R157): the absolute exponential. -/
def smaxFoldEmit (x : Val) : Exact := exV (ev x)

/-- LSMAX emission (R148): x − l, and the canonical NaN for a NaN row. -/
def lsmaxEmit (x : Val) (s : SmaxRow) : Exact :=
  match s.row with
  | none => exV .nan
  | some _ => exBin .sub (exV x) (exV (f32v s.l))

/-- close_ms of R150. -/
def closeMs (a2 : RPart) (n : Nat) : Nat × Flags :=
  if n = 0 then (Fmt.nanCode .fp32, flInvalid)
  else if a2.nan then (Fmt.nanCode .fp32, flNone)
  else if a2.pinf then (0x7F800000, flNone)
  else
    let (v, fl) := roundRne (.fin (a2.value.div (XQ.ofInt n))) .fp32
    (encode v .fp32, fl)

/-- norm_close of R150: FP32 codes of the mean and of r, and the flags. A sum v + eps below zero, which only an inconsistent pair
has, gives a free r (log 68). -/
def normClose (a1 a2 : RPart) (rms : Bool) (eps : Nat) : Nat × Nat × Flags :=
  let (mu, v, fl) := if rms then let (v, f) := closeMs a2 a1.tally; (0, v, f) else closeStats a1 a2 0
  let nan := Fmt.nanCode .fp32
  match f32v v, f32v mu with
  | .nan, _ => (mu, nan, fl)
  | _, .nan => (mu, nan, fl)
  | .inf false, _ => (mu, 0, fl)
  | .inf true, _ => (mu, (Config.rsqrtNegative v eps).toNat, fl)
  | .fin q, _ =>
    match f32v eps with
    | .fin e =>
      let s := q.add e
      if s.n = 0 then (mu, 0x7F800000, fl)
      else if s.n < 0 then (mu, (Config.rsqrtNegative v eps).toNat, fl) else (mu, rsqrtFaithful s, fl)
    | _ => (mu, nan, fl)

/-- norm_emit of R151 before convert. g and b are the exact scale and shift. -/
def normEmit (x : Val) (mu r : Nat) (g b : Val) : Exact :=
  if (f32v r).isNan then exV .nan
  else
    let y := exBin .mul (exBin .sub (exV x) (exV (f32v mu))) (exV (f32v r))
    exBin .add (exBin .mul y (exV g)) (exV b)

/-- The fold prologue of R158. op: 1 LNORM, 2 RMSNORM, 3 SMAX (Table 10-7). -/
def foldPrologue (op : Nat) (p : Val) (mu r d cv : Val) : Exact :=
  match op with
  | 1 => exBin .mul (exBin .sub (exV p) (exBin .mul (exV mu) (exV cv))) (exV r)
  | 2 => exBin .mul (exV p) (exV r)
  | 3 => exBin .div (exV p) (exV d)
  | _ => exV p

/-- sizing of R132 after the block scale and the fold prologue: p × σ + β + ρ. -/
def sizing (p sigma beta rho : Val) : Exact :=
  match p, sigma with
  | .nan, _ => exV .nan
  | _, .nan => exV .nan
  | _, _ =>
    let (q, i) := binop .mul p sigma
    if i then (.nan, flInvalid)
    else if beta.isNan || rho.isNan then exV .nan
    else
      let has (b : Bool) : Bool := q == .inf b || beta == .inf b || rho == .inf b
      if has false && has true then (.nan, flInvalid)
      else exBin .add (exBin .add (exV q) (exV beta)) (exV rho)

/-! ### Backward row operations (07) -/

/-- Backward operation codes of Table 7-1. -/
inductive BOp where | smaxb | lsmaxb | lnormb | rmsnormb | gnormb | normpg
  deriving DecidableEq, Repr

def BOp.ofCode : Nat → Option BOp
  | 0 => some .smaxb | 1 => some .lsmaxb | 2 => some .lnormb | 3 => some .rmsnormb | 4 => some .gnormb
  | 5 => some .normpg | _ => none

/-- x̂ of Table 7-1. -/
def xHat (op : BOp) (x : Val) (mu r : Val) : Exact :=
  match op with
  | .rmsnormb => exBin .mul (exV x) (exV r)
  | _ => exBin .mul (exBin .sub (exV x) (exV mu)) (exV r)

/-- The two terms of an element (Table 7-1): to ream n and to ream n + 1. -/
def bwdTerms (op : BOp) (stored : Bool) (dy u mu r g : Val) : Exact × Exact :=
  match op with
  | .smaxb => (exBin .mul (exV (if stored then u else ev u)) (exV dy), exV dy)
  | .lsmaxb => (exBin .mul (exV (ev u)) (exV dy), exV dy)
  | .normpg => (exBin .mul (exV dy) (xHat op u mu r), exV dy)
  | _ =>
    let h := exBin .mul (exV g) (exV dy)
    (h, exBin .mul h (xHat op u mu r))

/-- The quotient of a row sum by a positive count on the extended reals (R209). -/
def divCount (v : Val) (n : Nat) : Val :=
  match v with | .fin q => .fin (q.div (XQ.ofInt n)) | w => w

/-- bwd_close of R209: c1, c2 exactly, and the flags. -/
def bwdClose (op : BOp) (a b : RPart) (d : Val) (stored : Bool) : Val × Val × Flags :=
  let n := a.tally
  if n = 0 then (.nan, .nan, flInvalid)
  else
    let (sa, fa) := a.sumExact
    let (sb, fb) := b.sumExact
    let fl := fa ||| fb
    match op with
    | .smaxb => if stored then (sa, Val.zero, fl) else
        let (q, i) := binop .div sa d
        (q, Val.zero, fl ||| invIf i)
    | .lsmaxb => (sb, Val.zero, fl)
    | .lnormb | .gnormb => (divCount sa n, divCount sb n, fl)
    | .rmsnormb => (Val.zero, divCount sb n, fl)
    | .normpg => (Val.zero, Val.zero, fl)

/-- bwd_emit of R210 before convert. -/
def bwdEmit (op : BOp) (stored : Bool) (dy u mu r d g c1 c2 : Val) : Exact :=
  match op with
  | .smaxb =>
    let y := if stored then exV u else exBin .div (exV (ev u)) (exV d)
    exBin .mul y (exBin .sub (exV dy) (exV c1))
  | .lsmaxb =>
    let y := exBin .div (exV (ev u)) (exV d)
    exBin .sub (exV dy) (exBin .mul y (exV c1))
  | _ =>
    let xh := xHat op u mu r
    let h := exBin .mul (exV g) (exV dy)
    exBin .mul (exV r) (exBin .sub (exBin .sub h (exV c1)) (exBin .mul xh (exV c2)))

/-! ### Scans (R233) -/

/-- mul32 of R233: an FP32 code. -/
def mul32 (x y : Val) : Val × Flags :=
  let (v, i) := binop .mul x y
  let (r, f) := roundRne v .fp32
  (r, f ||| invIf i)

/-- fma32 of R233. -/
def fma32 (x y z : Val) : Val × Flags :=
  let (p, i) := binop .mul x y
  let (v, j) := binop .add p z
  let (r, f) := roundRne v .fp32
  (r, f ||| invIf i ||| invIf j)

/-- One position of a block in scan order: the composed a and b, whether it is active, and the flags its steps raised. -/
structure ScanCell where
  a : Val
  b : Val
  act : Bool
  fl : Flags
  deriving DecidableEq, Repr, Inhabited

/-- One level of the composition tree of scan_block, at distance d. -/
def scanLevel (d : Nat) (cs : List ScanCell) : List ScanCell :=
  (cs.zip ((List.replicate d (⟨.nan, .nan, false, flNone⟩ : ScanCell)) ++ cs)).map fun cp =>
    let c := cp.1
    let p := cp.2
    if c.act && p.act then
      let (m, f) := mul32 c.a p.a
      let (s, g) := fma32 c.a p.b c.b
      { c with a := m, b := s, fl := c.fl ||| f ||| g }
    else c

/-- scan_block of R233: h at each position (where active) and its flags; the carry is h at the last active position. -/
def scanBlock (cs : List ScanCell) (hIn : Val) : List (Val × Flags) × Val :=
  let cs := [1, 2, 4, 8, 16, 32].foldl (fun cs d => scanLevel d cs) cs
  let hs := cs.map fun c =>
    if c.act then let (h, f) := fma32 c.a hIn c.b; (h, c.fl ||| f) else (Val.zero, flNone)
  let carry := (cs.zip hs).foldl (fun k ch => if ch.1.act then ch.2.1 else k) hIn
  (hs, carry)

/-! ### Cross-entropy (R243, R244) -/

/-- The loss of xent_close: none is an ignored row; otherwise an FP32 code (NaN for nan_loss) and the flags. -/
def xentClose (row : SmaxRow) (at_ : RPart) (t v : Nat) : Option (Nat × Flags) :=
  let nan := Fmt.nanCode .fp32
  if t = 0xFFFFFFFF then none
  else if t ≥ v ∨ at_.tally ≠ 1 then some (nan, flInvalid)
  else
    let (zt, fl) := at_.sumExact
    if row.row.isNone || zt.isNan || (f32v row.l).isNan then some (nan, fl)
    else
      let (d, i) := binop .sub (f32v row.l) zt
      let (y, f) := roundRne d .fp32
      some (encode y .fp32, fl ||| invIf i ||| f)

/-- xent_emit of R244 before convert; none is the +0 of an ignored row, which raises no flag. -/
def xentEmit (x : Val) (pos : Nat) (row : Option (XQ × Int)) (t v : Nat) (wsc : Val) : Option Exact :=
  if t = 0xFFFFFFFF then none
  else
    match row, x with
    | none, _ => some (exV .nan)
    | some _, .nan => some (exV .nan)
    | some (s, k), x =>
      if t ≥ v then some (exV .nan)
      else match x with
        | .inf false => some (.nan, flInvalid)
        | .inf true =>
          let p := if pos = t then Val.ofInt (-1) else Val.zero
          some (exBin .mul (exV p) (exV wsc))
        | .fin q =>
          let (m, j) := expSig q
          let p : XQ := (⟨m, 1, j - 23 - k⟩ : XQ).div s
          let p := if pos = t then p.sub XQ.one else p
          some (exBin .mul (exV (.fin p)) (exV wsc))
        | .nan => some (exV .nan)

/-! ### Sampling (R249, R251) -/

def rotl64 (a : BitVec 64) (n : Nat) : BitVec 64 := (a <<< n) ||| (a >>> (64 - n))

def jmixRound (key : BitVec 64) (i : Nat) (ab : BitVec 64 × BitVec 64) : BitVec 64 × BitVec 64 :=
  let a := ab.1 + rotl64 ab.2 13
  let b := ab.2 ^^^ rotl64 a 37
  let b := b * 0x9e37f1a5c4b2d385#64
  let a := a ^^^ (key + BitVec.ofNat 64 i * 0x6a09e667f3bcc909#64)
  (a, b)

/-- jmix of R251. -/
def jmix (key : BitVec 64) (stream : BitVec 32) (ctr : BitVec 64) : BitVec 64 :=
  let b : BitVec 64 := (stream.zeroExtend 64 <<< 32) ^^^ key
  let r := (List.range 10).foldl (fun ab i => jmixRound key i ab) (ctr, b)
  r.1 ^^^ r.2

/-- The weight of a candidate as m × 2^e (R249): zero for a NaN and for −∞. -/
def candWeight (v : Nat) (f : Fmt) : Int × Int :=
  match decode v f with
  | .fin q => let (s, j) := expSig q; (s, j - 23)
  | _ => (0, 0)

/-- The terms k × m × 2^(e+sh) of some weights. -/
def weightTerms (ws : List (Int × Int)) (k : Int) (sh : Int) : List (Int × Int) :=
  (ws.filter fun w => w.1 != 0).map fun w => (k * w.1, w.2 + sh)

/-- The lowest index from i on that meets a test on the prefix that ends there. -/
def firstIdx (test : Nat → Bool) : Nat → Nat → Option Nat
  | _, 0 => none
  | i, fuel + 1 => if test i then some i else firstIdx test (i + 1) fuel

/-- A sum of descending terms as one number, whose far tail is kept as a sticky bit below every rounding boundary
(DEDUCED, log 8). -/
def sumSticky (ts : List (Int × Int)) : XQ :=
  ((ts.foldr insertDesc []).foldl (fun (a : XQ) t => a.add ⟨t.1, 1, t.2⟩) XQ.zero)

/-- sample_select of R249 over candidates (value code, position) in rank order: position, probability code, status and
whether invalid is raised. p is an FP32 code. -/
def sampleSelect (c : List (Nat × Nat)) (f : Fmt) (p : Nat) (r : BitVec 64) : Nat × Nat × Nat × Bool :=
  let nan := Fmt.nanCode .fp32
  match c.find? fun x => decode x.1 f == .inf false with
  | some x => (x.2, nan, 1, true)
  | none =>
    let e := c.map fun x => candWeight x.1 f
    if e.all fun w => w.1 == 0 then (0xFFFFFFFF, nan, 2, true)
    else
      let pq : XQ := match f32v p with | .fin q => q | _ => XQ.one
      let m0 := e.length
      let cut := firstIdx (fun i =>
        signSum (weightTerms (e.take i) 1 0 ++ weightTerms e (-pq.n) pq.e) ≥ 0) 1 m0
      let m := cut.getD m0
      let sel := firstIdx (fun i =>
        signSum (weightTerms (e.take i) 1 64 ++ weightTerms (e.take m) (-(r.toNat : Int)) 0) > 0) 1 m
      let i := sel.getD m
      let w := e.getD (i - 1) (0, 0)
      let pr := (⟨w.1, 1, w.2⟩ : XQ).div (sumSticky (weightTerms (e.take m) 1 0))
      let (y, _) := roundRne (.fin pr) .fp32
      ((c.getD (i - 1) (0, 0xFFFFFFFF)).2, encode y .fp32, 0, false)

/-- Rank order of the sorter: record a ranks above record b under MAX (R98, R248), values in the hold format. -/
def candAbove (f : Fmt) (a b : Nat × Nat) : Bool :=
  match decode a.1 f, decode b.1 f with
  | .nan, .nan => a.2 < b.2
  | .nan, _ => false
  | _, .nan => true
  | x, y => y.lt x || (x.eqv y && a.2 < b.2)

/-- Offering a record to a sorter list of at most k records. -/
def candInsert (f : Fmt) (k : Nat) (x : Nat × Nat) : List (Nat × Nat) → List (Nat × Nat)
  | [] => if k = 0 then [] else [x]
  | y :: ys =>
    if k = 0 then []
    else if candAbove f x y then x :: (y :: ys).take (k - 1)
    else y :: candInsert f (k - 1) x ys

end Sys2Proof.Machine
end

