-- ==== Sys2Proof/Machine/Operands.lean ====
section
/-! DEFINITION. Operand forms: which slots the words of a body read and fill (R184, R185), and the values of tile, row-indexed,
column-indexed, statistics and immediate operands (R127, R131, R158, R187, R206, R229). -/
namespace Sys2Proof.Machine

/-- A slot that a word reads: the word, the field that names the slot, the slot. -/
structure SlotRead where
  word : Nat
  flsb : Nat
  slot : Nat
  deriving DecidableEq, Repr

/-- The slots that a word reads (R293, R295, R297 to R301). -/
def wordReads (strat i : Nat) (w : IWord) : List SlotRead :=
  let one (b : Bool) (f s : Nat) : List SlotRead := if b then [⟨i, f, s⟩] else []
  match opOf w with
  | some .size =>
    let z := SizeW.ofWord w
    one (z.ssrc ≥ 2) 50 z.sslot ++ one (z.bsrc ≥ 2) 44 z.bslot ++ one z.res 39 z.rslot ++ one (z.fold != 0) 33 z.stslot
      ++ one (z.fold == 1) 29 z.cvslot ++ one (z.fold == 1) 20 z.muslot
  | some .elem => let e := ElemW.ofWord w; one (fnBinary e.func && e.bsrc != 0) 103 e.bslot
  | some .row => let r := RowW.ofWord w; one (r.gp && strat != 1) 62 r.gslot ++ one (r.bp && strat != 1) 57 r.bslot
  | some .rowb =>
    let r := RowbW.ofWord w
    let fused := !r.mode
    one true 93 r.uslot ++ one r.gp 88 r.gslot ++ one (fused && (decide (r.op ≤ 2) || r.op == 4)) 84 r.c1slot
      ++ one (fused && (r.op == 2 || r.op == 3 || r.op == 4)) 80 r.c2slot
  | some .scan => let c := ScanW.ofWord w; one true 114 c.oslot ++ one c.init 109 c.islot
  | some .svc => one (IWord.fld w 119 116 == 0) 80 (XentW.ofWord w).tslot
  | some .emit | some .stash => let e := EgrW.ofWord w; one (e.mkind ≥ 2) 104 e.mslot
  | _ => []

def Prog.slotReads (p : Prog) : List SlotRead := p.body.flatMap fun b => wordReads p.hdr.strat b.1 b.2

/-- The role of a declared slot (Table 6-4). -/
def Prog.role (p : Prog) (slot : Nat) : Nat := match p.decl slot with | some d => d.role | none => 4

/-- Slots that the body reads other than statistics slots, each once with the first word that reads it. -/
def Prog.copyReads (p : Prog) : List SlotRead :=
  (p.slotReads.filter fun r => p.role r.slot != 3).foldl (fun l r => if l.any fun q => q.slot == r.slot then l else l ++ [r]) []

def Prog.statReads (p : Prog) : List SlotRead := p.slotReads.filter fun r => p.role r.slot == 3

def Prog.reads (p : Prog) (slot : Nat) : Bool := p.slotReads.any fun r => r.slot == slot

/-- The slot that a landing run fills. -/
def Prog.lands (p : Prog) : Option (Nat × Nat) :=
  match p.ingest with
  | some (i, w) => if opc w = 0x11 then some (i, (IngW.ofWord w).slot) else none
  | none => none

/-- The statistics slots that a fold closes into: the slots of the mean, and of r or d (R157, R297). -/
def Prog.statFills (p : Prog) : Option (Option Nat × Nat) :=
  match p.rowLike with
  | some (_, w) =>
    if opc w = 0x40 && p.hdr.strat == 1 then
      let r := RowW.ofWord w
      some (if r.gp then some r.gslot else none, r.bslot)
    else none
  | none => none

def Prog.fillsStat (p : Prog) (slot : Nat) : Bool :=
  match p.statFills with | some (m, s) => m == some slot || s == slot | none => false

/-- Whether a word is an RCLOSE that fills a slot. -/
def closesInto (w : IWord) (slot : Nat) : Bool :=
  opOf w == some .rclose && (ReamW.ofWord w).dest && (ReamW.ofWord w).dslot == slot

/-- Whether a run is still to fill a slot other than by fold: a landing before its commit, or an RCLOSE after the ingest. -/
def Run.mayFill (r : Run) (slot : Nat) : Bool :=
  (r.phase != .committed && ((match r.prog.lands with | some l => l.2 == slot | none => false)
    || r.prog.after.any fun w => closesInto w.2 slot))
  || (r.phase == .committed && r.after.any fun i => closesInto (r.prog.words.getD i 0) slot)

/-- Lane-beats of a Couch beat (R342). -/
def Prog.halves (p : Prog) : Nat :=
  match p.ingest with
  | some (_, w) => if opc w != 0x12 && codeWidth (IngW.ofWord w).fmt == 16 then 2 else 1
  | none => 1

/-! ### Slots and copies -/

def Ctx.slot (x : Ctx) (n : Nat) : Option SlotSt := x.slots.find? fun s => s.decl.slot == n

/-- Changing one copy of a slot. -/
def Ctx.modCopy (x : Ctx) (n i : Nat) (f : Copy → Copy) : Ctx :=
  { x with slots := x.slots.map fun s => if s.decl.slot == n then { s with copies := s.copies.set i (f (s.copies.getD i Copy.fresh)) } else s }

/-- The copy of a slot that a run took. -/
def taken (takes : List (Nat × Nat)) (slot : Nat) : Option Nat := (takes.find? fun t => t.1 == slot).map fun t => t.2

/-- A run that reads slots of its context. -/
structure Env where
  x : Ctx
  run : Run
  deriving DecidableEq, Repr

/-- The copy that the run reads of a slot. -/
def Env.copy (e : Env) (slot : Nat) : Option (Decl × Copy) :=
  match e.x.slot slot, taken e.run.takes slot with
  | some s, some i => some (s.decl, s.copies.getD i Copy.fresh)
  | _, _ => none

/-- Key of an element of a copy. -/
def elKey (row col : Nat) : Nat := row * 16384 + col

/-- The exact value of an element of a copy (R127, R187, R61). -/
def Copy.value (c : Copy) (d : Decl) (row col : Nat) : Val :=
  let e := Tbl.look (0, 0) c.data (elKey row col)
  if isMx d.fmt then mxValue e.1 e.2 (elemFmt d.fmt) else decode e.1 (elemFmt d.fmt)

/-- An entry of a vector slot: none beyond its length (R127). -/
def Env.entry (e : Env) (slot i : Nat) : Option Val :=
  match e.copy slot with
  | some (d, c) => if i < d.cols then some (c.value d 0 i) else none
  | none => none

/-- An entry as its code. -/
def Env.entryCode (e : Env) (slot i : Nat) : Option Nat :=
  match e.copy slot with
  | some (d, c) => if i < d.cols then some (Tbl.look (0, 0) c.data (elKey 0 i)).1 else none
  | none => none

/-- An element of a tile slot: none beyond its rows or columns (R187). -/
def Env.tile (e : Env) (slot row col : Nat) : Option Val :=
  match e.copy slot with
  | some (d, c) => if row < d.rows ∧ col < d.cols then some (c.value d row col) else none
  | none => none

/-- Where the entry of a row count stands in a statistics slot: copy, row group and entry (R157) (log 15). -/
def statPlace (d : Decl) (k : Nat) : Nat × Nat × Nat := ((k / max d.cols 1) % 2, k / max d.cols 1, k % max d.cols 1)

/-- The entry of a row count in a statistics slot, where it is written. -/
def Ctx.statEntry (x : Ctx) (slot k : Nat) : Option Nat :=
  match x.slot slot with
  | none => none
  | some s =>
    let (i, g, e) := statPlace s.decl k
    let c := s.copies.getD i Copy.fresh
    let v := Tbl.look (0, 0) c.data e
    if c.st == .full && c.group == g && v.2 == 1 then some v.1 else none

/-- A statistics operand of a fold prologue: from a statistics slot by the row count, or from a persistent vector by the tile
row (R293). -/
def Env.stat (e : Env) (slot row : Nat) : Option Val :=
  if e.run.prog.role slot = 3 then (e.x.statEntry slot (e.run.base.getD 0 + row)).map f32v else e.entry slot row

/-- A vector source of SIZE or ELEM: immediate, row-indexed or column-indexed (Tables 10-7 and 10-8). none: no operand there. -/
def Env.source (e : Env) (src imm slot : Nat) (absent : Val) (c : Cell) : Option Val :=
  match src with
  | 0 => some absent
  | 1 => some (f32v imm)
  | 2 => e.entry slot c.row
  | _ => e.entry slot c.pos

/-- Whether an element is kept under an egress word's mask (R229): none where its entry lies beyond the vector. -/
def Env.kept (e : Env) (w : EgrW) (c : Cell) : Option Bool :=
  match w.mkind with
  | 0 => some true
  | 1 => some false
  | k => (e.entry w.mslot (if k = 2 then c.row else c.pos)).map fun v => !v.isZero

/-- The statistics record of a backward row (Table 5-5): mean, r, d. -/
def recMean (v : Nat) : Val := f32v (v % 2 ^ 32)
def recR (v : Nat) : Val := f32v ((v >>> 32) % 2 ^ 32)
def recD (v : Nat) : Val := f32v (v % 2 ^ 32)

end Sys2Proof.Machine
end

