-- ==== Sys2Proof/Machine/Chain.lean ====
section
/-! DEFINITION. The chain that elements pass (R171, R186 to R191): sizing, lane stages with their rounding points, slots and latencies
(R113, R116), scans, and the calender (R118, R119, R188, R229, R230). -/
namespace Sys2Proof.Machine

/-- Elements on their way, each with an exact value and whether its stage raises invalid. -/
abbrev Flow := List (Cell × FnRes)

/-- An operand fault found at use (R282): the cc, and the word and field that name the operand (R435). -/
structure Use where
  cc : Nat
  word : Nat
  flsb : Nat
  deriving DecidableEq, Repr

/-- Of two faults the one recorded: earlier cc, then earlier word, then higher field. -/
def Use.before (a b : Use) : Bool :=
  a.cc < b.cc || (a.cc == b.cc && (a.word < b.word || (a.word == b.word && b.flsb < a.flsb)))
def firstUse (us : List Use) : Option Use :=
  us.foldl (fun m u => match m with | none => some u | some v => if u.before v then some u else some v) none

/-- What a part of the chain answers: the elements, the offences, the operand faults, and the scan carries by tile row as
code + 1. -/
structure Out where
  flow : Flow
  offs : List Off
  uses : List Use
  carry : Tbl Nat
  deriving DecidableEq, Repr

/-- The exact value of a result that a rounding point has passed. -/
def FnRes.point (r : FnRes) : Val := match r.ex with | .val v => v | .fn _ _ _ => .nan

def Cell.off (c : Cell) (cc : Nat) (f : Flags) : List Off := if f = flNone then [] else [⟨f, cc, c.row, c.pos⟩]

/-- A rounding point (R189): every element rounded into a format, its flags raised in a cc. -/
def roundFlow (fmt : Nat) (sat : Bool) (cc : Nat) (fl : Flow) : Flow × List Off :=
  let f := elemFmt fmt
  let rs := fl.map fun e => (e.1, e.2, e.2.ex.toFmt f sat)
  (rs.map fun r => (r.1, FnRes.of (decode r.2.2.1 f)), rs.flatMap fun r => r.1.off cc (r.2.2.2 ||| invIf r.2.1.inv))

/-! ### Stages -/

/-- A lane stage: its word, the rounding point that follows it (none: the calender), its slots and its lane latency. -/
structure Stage where
  idx : Nat
  w : IWord
  rnd : Option (Nat × Bool)
  slots : Nat
  lat : Nat
  deriving DecidableEq, Repr

/-- The format of the rounding point before a word, or of the hold where the word is a row operation or service (R142, R189 to
R191). -/
def pointFmt (wide : Bool) (named : Nat) (next : IWord) : Nat :=
  if opc next = 0x40 then (RowW.ofWord next).hfmt
  else if opc next = 0x50 then (RowbW.ofWord next).hfmt
  else if opc next = 0x70 then IWord.fld next 115 112
  else if wide then 0 else named

/-- RFMT and SAT of a lane stage. -/
def stageFmt (w : IWord) : Nat × Bool :=
  if opc w = 0x30 then ((ElemW.ofWord w).rfmt, (ElemW.ofWord w).sat)
  else if opc w = 0x40 then ((RowW.ofWord w).rfmt, (RowW.ofWord w).sat)
  else if opc w = 0x50 then ((RowbW.ofWord w).rfmt, (RowbW.ofWord w).sat)
  else if opc w = 0x60 then ((ScanW.ofWord w).rfmt, (ScanW.ofWord w).sat)
  else ((XentW.ofWord w).rfmt, (XentW.ofWord w).sat)

/-- The format that sets the cost of the last stage (R188, R295). -/
def Prog.lastFmt (p : Prog) (named : Nat) : Nat :=
  if p.resultEgress.any fun e => (EgrW.ofWord e.2).ofmt == 0 then 0 else named

/-- Slots and lane latency of a stage whose result has a format (Table 4-2, R146, R151, R213, R237). -/
def stageCost (w : IWord) (fmt : Nat) : Nat × Nat :=
  if opc w = 0x30 then (fnSlots (ElemW.ofWord w).func fmt, fnLatency (ElemW.ofWord w).func fmt)
  else if opc w = 0x60 then (1, 28) else (1, 12)

def mkStages (p : Prog) : List (Nat × IWord) → List Stage
  | [] => []
  | [(i, w)] => let (s, l) := stageCost w (p.lastFmt (stageFmt w).1); [⟨i, w, none, s, l⟩]
  | (i, w) :: (j, v) :: r =>
    let f := pointFmt p.hdr.wide (stageFmt w).1 v
    let (s, l) := stageCost w f
    ⟨i, w, some (f, (stageFmt w).2), s, l⟩ :: mkStages p ((j, v) :: r)

def Prog.stages (p : Prog) : List Stage := mkStages p p.lanes
/-- Stages before and after the row operation or service. -/
def Prog.pre (p : Prog) : List Stage := p.stages.takeWhile fun s => !isRowLike s.w
def Prog.mid (p : Prog) : Option Stage := p.stages.find? fun s => isRowLike s.w
def Prog.post (p : Prog) : List Stage := (p.stages.dropWhile fun s => !isRowLike s.w).drop 1
def sumLat (ss : List Stage) : Nat := ss.foldl (fun n s => n + s.lat) 0
def sumSlots (ss : List Stage) : Nat := ss.foldl (fun n s => n + s.slots) 0

/-- The rounding point after sizing (R188, R189, R200): none where the calender follows. -/
def Prog.sizePoint (p : Prog) : Option (Nat × Bool) :=
  match p.lanes with
  | (_, w) :: _ => some (pointFmt p.hdr.wide p.sizeW.ifmt w, p.sizeW.sat)
  | [] => none

/-! ### Sizing (R132, R158, R186, R293) -/

/-- One element through sizing, with the operand faults of the word at index i. -/
def sizeElem (e : Env) (i : Nat) (z : SizeW) (cc : Nat) (c : Cell) (p : Val) : FnRes × List Use :=
  let use (o : Option Val) (f : Nat) : List Use := if o.isNone then [⟨cc, i, f⟩] else []
  let sg := e.source z.ssrc z.simm z.sslot Val.one c
  let be := e.source z.bsrc z.bimm z.bslot Val.zero c
  let rho := if z.res then e.tile z.rslot c.row c.col else some Val.zero
  let st := if z.fold ≠ 0 then e.stat z.stslot c.row else some Val.zero
  let mu := if z.fold = 1 then e.stat z.muslot c.row else some Val.zero
  let cv := if z.fold = 1 then e.entry z.cvslot c.pos else some Val.zero
  let pr : Exact := if p.isNan then exV .nan
    else foldPrologue z.fold p (mu.getD .nan) (st.getD .nan) (st.getD .nan) (cv.getD .nan)
  let (v, fl) := sizing pr.1 (sg.getD .nan) (be.getD .nan) (rho.getD .nan)
  (⟨.val v, Flags.hasInvalid (pr.2 ||| fl)⟩,
    use sg 50 ++ use be 44 ++ use rho 39 ++ use st 33 ++ use cv 29 ++ use mu 20)

/-- Sizing of a lane-beat presented in cc t (Table 4-1). -/
def sizeFlow (e : Env) (t : Nat) (xs : List (Cell × Val)) : Flow × List Use :=
  let i := match e.run.prog.size with | some w => w.1 | none => 0
  let z := e.run.prog.sizeW
  let rs := xs.map fun x => (x.1, sizeElem e i z (t + 2) x.1 x.2)
  (rs.map fun r => (r.1, r.2.1), rs.flatMap fun r => r.2.2)

/-! ### ELEM and SCAN -/

/-- ELEM on one element (R124, R127 to R130, R295). -/
def elemCell (e : Env) (i : Nat) (w : ElemW) (cc : Nat) (c : Cell) (a : Val) : FnRes × List Use :=
  if fnBinary w.func then
    let b := if w.bsrc = 0 then some (f32v w.bimm) else if w.bsrc = 1 then e.tile w.bslot c.row c.col
      else e.source w.bsrc w.bimm w.bslot .nan c
    (fnStage w.func a (b.getD .nan), if b.isNone then [⟨cc, i, 103⟩] else [])
  else (fnStage w.func a Val.zero, [])

/-- The cells of one block of 64 positions in scan order (R233): none where no element is active. -/
def scanBlockCells (rev : Bool) (fl : Flow) (m : Nat) : List (Option (Cell × FnRes)) :=
  (List.range 64).map fun i => fl.find? fun x => x.1.pos == 64 * m + (if rev then 63 - i else i)

/-- SCAN on the elements of one tile row in a lane-beat (R233, R234): the elements with flags, and the carry. -/
def scanRow (e : Env) (i : Nat) (w : ScanW) (cc : Nat) (fl : Flow) (hIn : Val) : List (Cell × Val × Flags) × Val × List Use :=
  let ms := ((fl.map fun x => x.1.pos / 64).eraseDups).mergeSort (fun a b => if w.rev then b ≤ a else a ≤ b)
  ms.foldl (fun (acc : List (Cell × Val × Flags) × Val × List Use) m =>
    let cs := scanBlockCells w.rev fl m
    let ops := cs.map fun o => o.map fun x => (x, e.tile w.oslot x.1.row x.1.col)
    let cells : List ScanCell := ops.map fun o => match o with
      | none => ⟨.nan, .nan, false, flNone⟩
      | some (x, s) =>
        let v := x.2.point
        let s := s.getD .nan
        if w.csel then ⟨s, v, true, flNone⟩ else ⟨v, s, true, flNone⟩
    let (hs, k) := scanBlock cells acc.2.1
    (acc.1 ++ (ops.zip hs).filterMap (fun oh => oh.1.map fun x => (x.1.1, oh.2.1, oh.2.2)), k,
     acc.2.2 ++ ops.filterMap fun o => match o with | some (_, none) => some ⟨cc, i, 114⟩ | _ => none)) ([], hIn, [])

/-- SCAN on a lane-beat: flags in cc fcc, operands used in cc. -/
def scanFlow (e : Env) (i : Nat) (w : ScanW) (cc fcc : Nat) (fl : Flow) (carry : Tbl Nat) : Out :=
  (cellRows (fl.map fun x => x.1)).foldl (fun o r =>
    let h0 : Option Val := match Tbl.look 0 o.carry r with
      | 0 => if w.init then e.entry w.islot r else some Val.zero
      | k + 1 => some (f32v k)
    let (xs, k, us) := scanRow e i w cc (fl.filter fun x => x.1.row == r) (h0.getD .nan)
    { flow := o.flow ++ xs.map fun x => (x.1, FnRes.of x.2.1)
      offs := o.offs ++ xs.flatMap fun x => x.1.off fcc x.2.2
      uses := o.uses ++ us ++ (if h0.isNone then [⟨cc, i, 109⟩] else [])
      carry := Tbl.put 0 o.carry r (encode k .fp32 + 1) }) ⟨[], [], [], carry⟩

/-- One stage, entered in cc from: its operands are used there, and its flags are raised in the last cc of its share (R116). -/
def Stage.step (s : Stage) (e : Env) (frm : Nat) (o : Out) : Out :=
  let last := frm + s.lat - 1
  let o := if opc s.w = 0x60 then
      let r := scanFlow e s.idx (ScanW.ofWord s.w) frm last o.flow o.carry
      { r with offs := o.offs ++ r.offs, uses := o.uses ++ r.uses }
    else
      let rs := o.flow.map fun x => (x.1, elemCell e s.idx (ElemW.ofWord s.w) frm x.1 x.2.point)
      { o with flow := rs.map fun r => (r.1, r.2.1), uses := o.uses ++ rs.flatMap fun r => r.2.2 }
  match s.rnd with
  | some (f, sat) => let (fl, os) := roundFlow f sat last o.flow; { o with flow := fl, offs := o.offs ++ os }
  | none => o

/-- Stages in order, the first entered in cc frm. -/
def runStages (e : Env) : List Stage → Nat → Out → Out
  | [], _, o => o
  | s :: ss, frm, o => runStages e ss (frm + s.lat) (s.step e frm o)

/-! ### The calender -/

/-- A rational that stands for an exact result where pieces are split from it (R69; log 9). -/
def Ex.stand (x : Ex) : Val := match x with | .val v => v | .fn _ _ _ => .fin (x.bounds 384).lo

/-- What the calender emits of a lane-beat for one piece: codes by lane, and scales by block (none for a plain format). -/
structure Piece where
  vals : List (Nat × Nat)
  scale : Option (List (Nat × Nat))
  deriving DecidableEq, Repr

/-- The elements in the lanes of block q. -/
def blockOf (b q : Nat) (fl : Flow) : Flow := fl.filter fun x => x.1.lane / b == q

/-- Kept elements rounded into one format (R118, R119): the piece and the offences in cc. -/
def emitPlain (fmt : Nat) (sat : Bool) (cc : Nat) (fl : Flow) : Piece × List Off :=
  let f := elemFmt fmt
  if isMx fmt then
    let b := mxBlock fmt
    let qs := (List.range (1024 / b)).map fun q =>
      let xs := blockOf b q fl
      (q, xs, mxQuantiseEx (xs.map fun x => x.2.ex) f)
    (⟨qs.flatMap fun q => (q.2.1.zip q.2.2.2.1).map fun xc => (xc.1.1.lane, xc.2),
      some (qs.map fun q => (q.1, q.2.2.1))⟩,
     qs.flatMap fun q => match q.2.1 with | x :: _ => x.1.off cc q.2.2.2.2 | [] => [])
  else
    let rs := fl.map fun x => (x.1, x.2.ex.toFmt f sat)
    (⟨rs.map fun r => (r.1.lane, r.2.1), none⟩, rs.flatMap fun r => r.1.off cc r.2.2)

/-- Kept elements split into n pieces (R69). -/
def emitSplit (fmt n cc : Nat) (fl : Flow) : List Piece × List Off :=
  if isMx fmt then
    let b := mxBlock fmt
    let qs := (List.range (1024 / b)).map fun q =>
      let xs := blockOf b q fl
      (q, xs, splitMx (xs.map fun x => x.2.ex.stand) n (elemFmt fmt))
    ((List.range n).map fun k =>
      ⟨qs.flatMap fun q => (q.2.1.zip (q.2.2.1.getD k (0x7F, [])).2).map fun xc => (xc.1.1.lane, xc.2),
       some (qs.map fun q => (q.1, (q.2.2.1.getD k (0x7F, [])).1))⟩,
     qs.flatMap fun q => match q.2.1 with | x :: _ => x.1.off cc q.2.2.2 | [] => [])
  else
    let rs := fl.map fun x => (x.1, splitBf16 x.2.ex.stand n)
    ((List.range n).map fun k => ⟨rs.map fun r => (r.1.lane, r.2.1.getD k 0), none⟩, rs.flatMap fun r => r.1.off cc r.2.2)

/-- The scale codes and element values of the two operands of a scale-carry product (R68, R296). -/
structure CarryEl where
  ca : Nat
  cb : Nat
  a : Val
  b : Val
  deriving DecidableEq, Repr

/-- A block of a scale-carry product: its elements, scale code, element codes and flags. -/
structure CarryBlock where
  q : Nat
  els : List (Cell × CarryEl)
  scale : Nat
  codes : List Nat
  fl : Flags
  deriving DecidableEq, Repr

def carryBlock (fmt : Nat) (xs : List (Cell × CarryEl)) (q : Nat) : CarryBlock :=
  let ys := xs.filter fun x => x.1.lane / mxBlock fmt == q
  let ps := ys.map fun y => (binop .mul y.2.a y.2.b).1
  match ys with
  | [] => ⟨q, [], 0x7F, [], flNone⟩
  | y :: _ => let (c, cs, fl) := scaleCarry y.2.ca y.2.cb ps (elemFmt fmt); ⟨q, ys, c, cs, fl⟩

/-- The invalid of a scale-carry product (R68): its lane stage raises it before the calender, so a masked element raises it too
(R230). -/
def carryOffs (dcc : Nat) (xs : List (Cell × CarryEl)) : List Off :=
  xs.flatMap fun x =>
    if (scaleSum x.2.ca x.2.cb).isNone then [] else x.1.off dcc (invIf (binop .mul x.2.a x.2.b).2)

/-- The product of scale-carry mode, block by block (R68), with the calender's flags in cc. -/
def emitCarry (fmt cc : Nat) (xs : List (Cell × CarryEl)) : Piece × List Off :=
  let qs := (List.range (1024 / mxBlock fmt)).map (carryBlock fmt xs)
  (⟨qs.flatMap fun b => (b.els.zip b.codes).map fun yc => (yc.1.1.lane, yc.2), some (qs.map fun b => (b.q, b.scale))⟩,
   qs.flatMap fun b => match b.els with | y :: _ => y.1.off cc b.fl | [] => [])

/-- One egress word on the elements of a lane-beat (R188, R229, R230, R301): its pieces, offences and operand faults. -/
def calender (e : Env) (i : Nat) (w : EgrW) (cc : Nat) (fl : Flow) (carryEls : List (Cell × CarryEl)) : List Piece × List Off × List Use :=
  let ks := fl.map fun x => (x, e.kept w x.1)
  let us : List Use := ks.filterMap fun k => if k.2.isNone then some ⟨cc - 2, i, 104⟩ else none
  let kept := (ks.filter fun k => k.2 == some true).map fun k => k.1
  if !carryEls.isEmpty then
    let (p, os) := emitCarry w.ofmt cc (carryEls.filter fun x => kept.any fun k => k.1 == x.1)
    ([p], carryOffs (cc - 3) carryEls ++ os, us)
  else if w.split ≥ 2 then let (ps, os) := emitSplit w.ofmt w.split cc kept; (ps, os, us)
  else let (p, os) := emitPlain w.ofmt w.sat cc kept; ([p], os, us)

/-- Beats that one lane-beat takes on Reel for an egress word. -/
def EgrW.beats (w : EgrW) : Nat := w.pieces * fmtBeats w.ofmt

/-- The Reel beats of a piece from a cycle (R347 to R349). -/
def pieceBeats (base : ReelBeat) (w : EgrW) (k : Nat) (p : Piece) : List ReelBeat :=
  let b := { base with fmt := w.ofmt, route := w.route, piece := if w.split = 0 then 0 else k }
  match p.scale with
  | none => emission b p.vals
  | some sc => (emission b p.vals).map fun r => { r with scv := true, scale := nonZero sc }

end Sys2Proof.Machine
end

