-- ==== Sys2Proof/Machine/Outlet.lean ====
section
/-! DEFINITION. How a body's elements leave (Table 5-3, R309): what a run does with its tile, the words that put its results and its scan
carry on Reel (R235), the order of the broke route (R196), and the end of a run's output (R325, R350). -/
namespace Sys2Proof.Machine

/-! ### What a run does with its tile -/

/-- How a body treats its elements: the strategies of Table 5-3, the two passes, fused-kernel mode, and the arrival-only forms. -/
inductive Mode where | plain | land | imports | vatHold | fold | first | second | fused | normpg | sample
  deriving DecidableEq, Repr

def Run.mode (r : Run) : Mode :=
  let p := r.prog
  let strat : Mode := if p.hdr.strat = 0 then .vatHold else if p.hdr.strat = 1 then .fold
    else if r.w.pass2 then .second else .first
  match p.ingest with
  | some (_, i) =>
    if opc i = 0x11 then .land
    else if opc i = 0x12 then .imports
    else match p.rowLike with
      | none => .plain
      | some (_, w) =>
        if opc w = 0x40 then strat
        else if opc w = 0x50 then
          (if !(RowbW.ofWord w).mode then .fused else if (RowbW.ofWord w).op = 5 then .normpg else strat)
        else if IWord.fld w 119 116 = 0 then strat else .sample
  | none => .plain

/-- Whether elements leave by the calender when they arrive. -/
def Mode.emits : Mode → Bool
  | .plain | .fold | .second | .fused => true
  | _ => false

/-- Whether a run closes rows that it holds in the Vat. -/
def Run.emitsHeld (r : Run) : Bool := r.mode == .vatHold && r.prog.closes r.w.cbase

/-! ### Results and the scan carry on Reel -/

/-- The egress words that emit the result on Reel, each with its place in the body (0 first, 1 second). -/
def Prog.reelWords (p : Prog) : List (Nat × Nat × EgrW) :=
  (((List.range p.egress.length).zip p.egress).filter fun e => opc e.2.2 = 0x80 && !(EgrW.ofWord e.2.2).sel).map fun e =>
    (e.1, e.2.1, EgrW.ofWord e.2.2)

/-- Reel beats of one lane-beat of results. -/
def Prog.reelBeats (p : Prog) : Nat := (p.reelWords.map fun w => w.2.2.beats).foldl (· + ·) 0

/-- The egress word that emits the scan carry (R235). -/
def Prog.carryWord (p : Prog) : Option (Nat × EgrW) :=
  (((List.range p.egress.length).zip p.egress).find? fun e => opc e.2.2 = 0x80 && (EgrW.ofWord e.2.2).sel).map fun e =>
    (e.1, EgrW.ofWord e.2.2)

/-- Whether the scan carry of a run's tile leaves behind the tile-end beat's results: at once where elements leave when they arrive, or
where the scan stands before a row that this tile does not close (R235) (log 86). -/
def Run.carriesNow (r : Run) : Bool :=
  r.prog.carryWord.isSome &&
    (r.mode.emits || (r.mode == .vatHold && !r.prog.closes r.w.cbase && r.prog.pre.any fun s => opc s.w = 0x60))

/-- Whether scan carries leave behind the held beats that a run emits. -/
def Run.carriesLater (r : Run) : Bool := r.prog.carryWord.isSome && r.emitsHeld && !r.carriesNow

/-- Whether the scan of a body stands before its row operation. -/
def Prog.scansFirst (p : Prog) : Bool := p.pre.any fun g => opc g.w = 0x60

/-- Whether the scan carry of a run whose tile has ended leaves when the tile commits: no held beat is there to leave before it (log 86). -/
def Run.carryAtCommit (r : Run) : Bool := r.phase == .ended && r.carriesLater && r.outs.isEmpty && r.prog.scansFirst

/-! ### The broke route (R196) -/

/-- Whether a body puts results, or the scan carry, on the broke route. -/
def Prog.brokes (p : Prog) : Bool := p.egress.any fun e => opc e.2 = 0x80 && (EgrW.ofWord e.2).route

/-- Of the Reel cycles of a beat, its results first, those of its broke-route beats and what follows them. -/
def Run.brokeOf (r : Run) (results : Nat) (ccs : List Nat) : List Nat :=
  if r.prog.reelWords.any fun w => w.2.2.route then ccs else if r.prog.brokes then ccs.drop results else []

/-- Whether a ream word's result goes to the broke route. -/
def brokeWord (w : IWord) : Bool := opc w = 0x92 && !(ReamW.ofWord w).dest && (ReamW.ofWord w).route

/-- Whether a run has broke-route beats that have no Reel cycle yet, apart from those of beats that Couch is still to present: of rows that
it holds, of its scan carry, or of words after its ingest. -/
def Channel.brokeLeft (h : Channel) (q : Run) : Bool :=
  (q.prog.brokes && (q.carryAtCommit || (q.emitsHeld && (q.phase == .started || q.phase == .checking))
      || h.due.any fun e => e.run == some q.ser && (match e.what with
        | .reserve _ _ _ => true
        | _ => false)))
    || q.after.any fun i => brokeWord (q.prog.words.getD i 0)

/-- The Reel cycles that a context's broke-route beats have before a delivery serial: those of its runs, and of direct words, which act only
once no earlier run is left (R285). -/
def Channel.brokeTaken (h : Channel) (x : Ctx) (c ser : Nat) : List Nat :=
  ((h.egress.filter fun b => b.ctx == c && b.route && (match b.run with | some q => decide (q < ser) | none => true)).map fun b => b.due)
    ++ (h.reelRes.filter fun b => b.ctx == c && x.runs.any fun q => q.ser == b.run && decide (q.ser < ser) && q.prog.brokes).map fun b => b.cc

/-- The first cc from one on that is behind the broke-route beats of the work delivered before a serial (R196). -/
def Channel.brokeFrom (h : Channel) (x : Ctx) (c ser cc : Nat) : Nat := (h.brokeTaken x c ser).foldl (fun m u => max m (u + 1)) cc

/-- Whether broke-route beats of a run from cc first on come behind those of the context's earlier runs (R196). -/
def Channel.brokeInOrder (h : Channel) (x : Ctx) (c ser first : Nat) : Bool :=
  (x.runs.all fun q => q.ser ≥ ser || !h.brokeLeft q) && (h.brokeTaken x c ser).all fun u => decide (u < first)

/-! ### The end of a run's output -/

/-- Whether a ream word puts beats on Reel (R304). -/
def wordReels (w : IWord) : Bool := opc w = 0x91 || (opc w = 0x92 && !(ReamW.ofWord w).dest)

/-- Whether a run still has beats to bring to Reel: held beats to emit, a scan carry, or words after its ingest. -/
def Channel.reelLeft (h : Channel) (r : Run) : Bool :=
  (h.due.any fun e => e.run == some r.ser && (match e.what with | .reserve _ _ _ => true | .emit _ => true | _ => false))
    || r.carryAtCommit || r.after.any fun i => wordReels (r.prog.words.getD i 0)

/-- The tile-end mark on the last beat that a run presents (R325). -/
def Channel.markEot (h : Channel) (ser pseq : Nat) : Channel :=
  let last := h.egress.foldl (fun m b => if b.run == some ser then max m (b.due + 1) else m) 0
  { h with egress := h.egress.map fun b =>
      if b.run == some ser && b.due + 1 == last then { b with eot := true, pseq := pseq } else b }

/-- The last beat of a run's output carries the tile-end mark once its tile has passed the check and nothing of it is left to bring to
Reel (R325, R350): a run whose beats have all been presented before that, by words before its ingest, has none to mark (log 95). -/
def State.markDone (s : State) (c ser : Nat) : State :=
  let n := (s.ctx c).chan
  match (s.ctx c).run ser with
  | some r =>
    if (r.phase == .ended || r.phase == .committed) && !(s.ch n).reelLeft r then s.modCh n fun h => h.markEot ser r.w.pseq else s
  | none => s

/-- The groups of a committed run are released with its last Reel beat (R269). -/
def State.reelEnds (s : State) (c ser cc : Nat) : State :=
  let h := s.ch (s.ctx c).chan
  match (s.ctx c).run ser with
  | some r =>
    if r.phase == .committed && r.holds && !h.reelLeft r && h.egress.all fun b => b.run != some ser then
      (s.modRun c ser fun r => { r with holds := false }).releaseGroups c cc
    else s
  | none => s

end Sys2Proof.Machine
end

