-- ==== Sys2Proof/Machine/Words.lean ====
section
/-! DEFINITION. The ream and Loft words RCLR, REXP, RCLOSE, LREL and LFLUSH, and when they act (R285, R303 to R305). -/
namespace Sys2Proof.Machine

/-- Where a word stands: a direct word, or a word of a run's program (R435), with the PSEQ of its captures and its RBIAS. -/
structure Site where
  run : Option Nat
  src : Nat
  index : Nat
  pseq : Nat
  rbias : Nat
  deriving DecidableEq, Repr

def Site.direct : Site := ⟨none, 0, 0, 0, 0⟩
def Site.ofRun (r : Run) (i : Nat) : Site := ⟨some r.ser, srcOf r.w.psel, i, r.w.pseq, r.w.rbias⟩

/-- An illegal operand of a word at a site. -/
def State.siteFault (s : State) (c : Nat) (t : Site) (w : IWord) (flsb : Nat) : State :=
  s.ifault c true t.src t.index (opc w) flsb

/-- The physical reams of operands rn to rn + n − 1, none when one lies outside the block (R81). -/
def Ctx.block (x : Ctx) (rn n : Nat) : Option (List Nat) :=
  if rn + n ≤ 4 * x.reamreq then some ((List.range n).map fun i => x.reambase + rn + i) else none

/-- Whether a shadow of a ream is held by an open tile of a context: not that of a run that was discarded in the present cc (Table 3-5,
R306). -/
def Channel.heldOpen (h : Channel) (x : Ctx) (p : Nat) : Bool :=
  match (h.ream p).sh with
  | some q => x.runs.any fun r => r.ser == q.run
  | none => false

/-- RCLR (R304, R80): a shadow that an open tile holds makes it an illegal operand. A shadow is held from the tree cycle of the first term
or record of its tile on (log 47). -/
def State.actRclr (s : State) (c : Nat) (t : Site) (w : IWord) : State :=
  let r := ReamW.ofWord w
  let x := s.ctx c
  let h := s.ch x.chan
  match x.block r.rn (r.rcnt + 1), RKind.ofCode r.kind with
  | some ps, some k =>
    if ps.any (h.heldOpen x) then s.siteFault c t w 112
    else s.setCh x.chan (ps.foldl (fun h p => h.setReam p ⟨RPart.clear k, none⟩) h)
  | _, _ => s.siteFault c t w 112

/-- REXP (R304, R101): records of the committed parts, 23 to a beat, from cc a + 4. -/
def State.actRexp (s : State) (c : Nat) (t : Site) (w : IWord) : State :=
  let r := ReamW.ofWord w
  let x := s.ctx c
  let h := s.ch x.chan
  match x.block r.rn (r.rcnt + 1) with
  | none => s.siteFault c t w 112
  | some ps =>
    let parts := ps.map fun p => (h.ream p).com
    if parts.any fun p => p.kind == .unset then s.siteFault c t w 112
    else
      let gs := chunks 23 parts.length parts
      s.present c t.run (dated (gs.map fun g => recordBeat (blankBeat c x.ten 0 t.run) g) (h.freeReel (h.cyc + 4) gs.length))

/-- Kinds that RCLOSE accepts (Table 10-14a). -/
def closeAccepts (stats : Bool) (sel : Nat) (k : RKind) : Bool :=
  if stats then k == .sum
  else match sel with
    | 0 => k != .unset
    | 1 => k == .exp
    | 2 => k == .exp
    | _ => k == .max || k == .min

/-- Entries of one ream with STATS 0, each with its flags (R304). -/
def closeOne (sel : Nat) (f : Fmt) (a : RPart) : List (Nat × Flags) :=
  match sel with
  | 0 =>
    match a.kind with
    | .sum => [a.closeSum f]
    | .exp => [a.closeExpTotal f]
    | _ => [convertCode (decode a.recVal .fp32) f false]
  | 1 => [a.closeSum .fp32, (encode (Val.ofInt a.offset) .fp32, flNone)]
  | 2 => let r := smaxClose a RPart.unset; [(r.1.l, r.2)]
  | _ => [(a.recPos, flNone)]

/-- Entries of a pair with STATS 1: mean and variance. An invalid of either belongs to the mean's entry (R304). -/
def closePair (ddof : Nat) (f : Fmt) (a b : RPart) : List (Nat × Flags) :=
  let (m, v, fl) := closeStats a b ddof
  let (mc, f1) := convertCode (decode m .fp32) f false
  let (vc, f2) := convertCode (decode v .fp32) f false
  [(mc, fl ||| f1 ||| f2), (vc, flNone)]

/-- rclose of R304. -/
def rcloseEntries (r : ReamW) (as : List RPart) : List (Nat × Flags) :=
  let f := elemFmt r.ofmt
  if r.stats then
    (chunks 2 as.length as).flatMap fun p => closePair r.ddof f (p.getD 0 RPart.unset) (p.getD 1 RPart.unset)
  else as.flatMap fun a => closeOne r.sel f a

/-- The persistent slot that RCLOSE may write (R304). -/
def Ctx.closeSlot (x : Ctx) (slot fmt n : Nat) : Bool :=
  x.slots.any fun sl => sl.decl.slot == slot && sl.decl.role == 2 && sl.decl.rows == 1 && sl.decl.fmt == fmt && decide (n ≤ sl.decl.cols)

/-- The one copy of a slot takes a row and is FULL. -/
def Ctx.fillRow (x : Ctx) (slot ser : Nat) (vals : List Nat) : Ctx :=
  let data := Tbl.puts (0, 0) [] (((List.range vals.length).zip vals).map fun iv => (iv.1, (iv.2, 0)))
  { x with slots := x.slots.map fun sl =>
      if sl.decl.slot == slot then { sl with copies := sl.copies.map fun _ => ⟨.full, 0, ser, data, ser⟩ } else sl }

/-- The one copy of a slot is being written by a run. -/
def Ctx.writeRow (x : Ctx) (slot ser : Nat) : Ctx :=
  { x with slots := x.slots.map fun sl =>
      if sl.decl.slot == slot then { sl with copies := sl.copies.map fun k => { k with st := .filling, writer := ser } } else sl }

/-- The cc from which the latency of an RCLOSE counts (03, Closing a row): the one in which it acts, or for one that waited for the commit
of a shadow the cycle w of that commit, which completes now (log 47). -/
def State.closeBase (s : State) (c : Nat) (t : Site) (ps : List Nat) : Nat :=
  let x := s.ctx c
  let h := s.ch x.chan
  let waited : Bool := match t.run with
    | none => false
    | some ser => match x.run ser with
      | some r => if r.phase == .committed then decide (r.commitAt + 3 < h.cyc) else decide (r.arrived + 1 < h.cyc)
      | none => false
  if waited && ps.any fun p => Tbl.look 0 h.freed p == h.cyc then h.cyc - 2 else h.cyc

/-- RCLOSE (R304): flags at a + 14, the slot at a + 15, the first Reel beat at a + 16, on the broke route behind those of earlier work
(R196). -/
def State.actRclose (s : State) (c : Nat) (t : Site) (w : IWord) : State :=
  let r := ReamW.ofWord w
  let x := s.ctx c
  let h := s.ch x.chan
  match x.block r.rn (r.rcnt + 1) with
  | none => s.siteFault c t w 112
  | some ps =>
    let parts := ps.map fun p => (h.ream p).com
    if parts.any fun p => !closeAccepts r.stats r.sel p.kind then s.siteFault c t w 112
    else
      let es := rcloseEntries r parts
      if r.dest && !x.closeSlot r.dslot r.ofmt es.length then s.siteFault c t w 89
      else
        let vals := es.map fun e => e.1
        let a := s.closeBase c t ps
        let os := (((List.range es.length).zip es).map fun ie => Off.mk ie.2.2 (a + 14) ie.1 colOnes).filter fun o => o.fl != flNone
        let s := s.modCh x.chan fun h => h.defer (laterOffs c t.run t.pseq os)
        if r.dest then
          (s.modCtx c fun x => x.writeRow r.dslot (t.run.getD 0)).modCh x.chan fun h =>
            h.defer [⟨a + 15, c, t.run, .fill r.dslot (t.run.getD 0) vals⟩]
        else
          let b := { blankBeat c x.ten 0 t.run with fmt := r.ofmt, kind := 3, route := r.route }
          let first := if r.route then h.brokeFrom x c (t.run.getD s.seq) (a + 16) else a + 16
          s.present c t.run (dated (emission b ((List.range vals.length).zip vals)) (h.freeReel first (fmtBeats r.ofmt)))

/-- The record range of a Loft word (R287). -/
def loftRange (t : Site) (w : IWord) : Nat × Nat :=
  let l := LoftW.ofWord w
  ((l.lidx + t.rbias) % 2 ^ 32, l.lcnt + 1)

/-- LREL (R305, R221): released at a + 1. -/
def State.actLrel (s : State) (c : Nat) (t : Site) (w : IWord) : State :=
  let (i, n) := loftRange t w
  let x := s.ctx c
  if x.outside i n then s.siteFault c t w 88
  else s.modCh x.chan fun h => h.defer [⟨h.cyc + 1, c, t.run, .release i n⟩]

/-- LFLUSH (R305): its home writes are asked for at a + 1; the slice issues them behind earlier traffic (R306) (log 82). -/
def State.actLflush (s : State) (c : Nat) (t : Site) (w : IWord) : State :=
  let (i, n) := loftRange t w
  let x := s.ctx c
  if x.outside i n then s.siteFault c t w 88
  else s.modCh x.chan fun h => h.defer [⟨h.cyc + 1, c, t.run, .flush i n⟩]

/-- A ream or Loft word acts. -/
def State.act (s : State) (c : Nat) (t : Site) (w : IWord) : State :=
  match opOf w with
  | some .rclr => s.actRclr c t w
  | some .rexp => s.actRexp c t w
  | some .rclose => s.actRclose c t w
  | some .lrel => s.actLrel c t w
  | some .lflush => s.actLflush c t w
  | _ => s

/-- Whether a slot has effects of earlier-delivered runs to wait for before a word of a run writes it: runs that read it or are still to
fill it, or the write of another run under way (R184, Table 6-5). -/
def Ctx.slotBusy (x : Ctx) (ser slot : Nat) : Bool :=
  (x.runs.any fun q => q.ser < ser && (q.prog.reads slot || q.mayFill slot))
    || (match x.slot slot with
        | some sl => (let k := sl.copies.getD 0 Copy.fresh; k.st == .filling && k.writer != ser && k.writer != 0)
        | none => false)

/-- An RCLOSE waits for a shadow of a ream it names, also for one whose terms or records are still on their way, for the earlier-delivered
readers and writers of the slot it writes (03, Closing a row; Table 6-5) (log 47), and on the broke route for earlier runs that have beats
of it without a Reel cycle (R196) (log 93). -/
def State.closeWaits (s : State) (c ser : Nat) (w : IWord) : Bool :=
  opOf w == some .rclose &&
    (let r := ReamW.ofWord w
     let x := s.ctx c
     let h := s.ch x.chan
     ((x.block r.rn (r.rcnt + 1)).getD []).any h.shadowed
      || (r.dest && x.slotBusy ser r.dslot)
      || (brokeWord w && x.runs.any fun q => q.ser < ser && (h.brokeLeft q || (q.prog.brokes && q.phase == .started))))

/-- Words of a run act in body order until one waits or the context faults: the words left. -/
def State.actWords (s : State) (c : Nat) (r : Run) : List Nat → State × List Nat
  | [] => (s, [])
  | i :: is =>
    let w := r.prog.words.getD i 0
    if (s.ctx c).runs.all fun q => q.ser != r.ser then (s, [])
    else if s.closeWaits c r.ser w then (s, i :: is)
    else (s.act c (Site.ofRun r i) w).actWords c r is

/-- The words after the ingest of committed runs act as far as they can, from the cc after the commit on (R303); with the last of them
that puts beats on Reel the run's tile-end mark is fixed (R325). -/
def State.settleAfter (s : State) (c : Nat) : State :=
  ((s.ctx c).runs.filter fun r => r.phase == .committed && !r.after.isEmpty
      && decide (r.commitAt + 3 ≤ (s.ch (s.ctx c).chan).cyc)).foldl (fun s r =>
    let (s, left) := s.actWords c r r.after
    (s.modRun c r.ser fun q => { q with after := left }).markDone c r.ser) s

/-! ### Row counts and the statistics that depend on them (R282, R287) -/

/-- Whether a run is still to write the statistics entry of a row count (R157, R184). -/
def Run.mayWriteStat (q : Run) (slot k : Nat) : Bool :=
  q.phase != .committed && q.prog.fillsStat slot && q.prog.closes q.w.cbase &&
    (match q.base with
     | some b => decide (b ≤ k) && (q.phase == .waiting || q.phase == .started || decide (k < b + q.rows))
     | none => true)

/-- Whether a statistics entry that a run reads is still to be written by an earlier one (R158, R184). -/
def State.statComing (s : State) (c ser slot k : Nat) : Bool :=
  let x := s.ctx c
  (x.runs.any fun q => q.ser < ser && q.mayWriteStat slot k)
    || (s.ch x.chan).due.any fun e => e.ctx == c && (match e.what with | .stat sl kk _ => sl == slot && kk == k | _ => false)

/-- The first statistics read of a run, over some row counts, that no earlier-issued run provides (R282). -/
def State.statMissing (s : State) (c : Nat) (r : Run) (ks : List Nat) : Option SlotRead :=
  r.prog.statReads.find? fun q => ks.any fun k => ((s.ctx c).statEntry q.slot k).isNone && !s.statComing c r.ser q.slot k

/-- The rows that a run's tile has for certain: those of its first beat, which in the mask form are all, and those of a slot of the tile's
shape that it reads (R187). -/
def Run.knownRows (r : Run) (x : Ctx) : Nat :=
  let first := max 1 (r.prog.hdr.tileRows x.lgmask.toNat r.prog.halves)
  match r.prog.shapeSlots.filterMap fun q => r.prog.decl q.2.2 with | d :: _ => max d.rows first | [] => first

/-! ### The reams that a second pass closes again (R159) -/

/-- Whether an earlier run has beats to come that may add to a ream, named by its operand, before the rows with which a second pass closes it
again. -/
def Run.stillFeeds (q r : Run) (n : Units) (i : Nat) : Bool :=
  q.phase == .started && q.mode != .second &&
    (match q.prog.ingest with
     | some (_, w) =>
       if q.mode == .imports then (let g := IngW.ofWord w; decide (g.rbase ≤ i ∧ i ≤ g.rbase + g.rcnt))
       else match q.prog.units with
         | some m =>
           if q.w.psel == r.w.psel && m == n then
             (match q.base, r.base with
              | some a, some b => let j := (i - n.rn) / max n.u 1; decide (n.nextUnit a j ≤ n.nextUnit b j)
              | _, _ => true)
           else decide (m.rn ≤ i ∧ i < m.rn + max (m.u * m.m) (if q.prog.hdr.mask then 16 else 0))
         | none => false
     | none => false)

/-- The committed parts that a second pass closes again: each ream of its units as it stands at the start of the pass, or once the terms of
earlier runs that are on their way then, or still to come, are committed (log 102). -/
def Run.recall (r : Run) (x : Ctx) (h : Channel) : Run :=
  match r.mode, r.prog.units with
  | .second, some n =>
    let ps := (List.range (n.u * n.m)).flatMap fun i => ((x.block (n.rn + i) 1).getD []).map fun p => (n.rn + i, p)
    { r with parts := r.parts ++ (ps.filter fun p => !h.shadowed p.2 && (r.parts.all fun q => q.1 != p.2)
        && x.runs.all fun q => q.ser ≥ r.ser || !q.stillFeeds r n p.1).map fun p => (p.2, (h.ream p.2).com) }
  | _, _ => r

/-- The second passes of a context that have started keep the reams that they close again. -/
def State.recallRuns (s : State) (c : Nat) : State :=
  s.modCtx c fun x => { x with runs := x.runs.map fun r => if r.phase == .started then r.recall x (s.ch x.chan) else r }

/-- The row counts of started runs whose predecessors of the same count have passed their check or are gone are fixed (R287), and the
statistics that their rows read are checked (R282) (log 83). Second passes keep the reams that they close again (R159). -/
def State.fixCounts (s : State) (c : Nat) : State :=
  let s := s.modCtx c Ctx.settleRestarts
  ((s.ctx c).runs.foldl (fun s q =>
    let x := s.ctx c
    match x.run q.ser with
    | none => s
    | some r =>
      if r.phase == .started && r.base.isNone && !x.unchecked r.count r.ser then
        let b := x.cnts.getD r.count 0
        let s := s.modRun c r.ser fun r => { r with base := some b }
        match s.statMissing c r ((List.range (r.knownRows x)).map fun i => b + i) with
        | some q => s.operand c r q.word q.flsb
        | none => s
      else s) s).recallRuns c

/-- Direct words act in delivery order while no earlier-delivered run is left, in a BOUND or RUNNING context (R285). -/
def State.settleDirects (s : State) (c : Nat) : Nat → State
  | 0 => s
  | fuel + 1 =>
    let x := s.ctx c
    match x.directs with
    | [] => s
    | d :: ds =>
      if (x.st == .bound || x.st == .running) && (x.runs.all fun r => r.ser > d.ser) && !s.closeWaits c d.ser d.word then
        ((s.modCtx c fun x => { x with directs := ds }).act c Site.direct d.word).settleDirects c fuel
      else s

/-- What follows when a run of a context is gone or has committed: words that waited, slots of changed program fields, direct
words, and the context's state. -/
def State.settle (s : State) (c : Nat) : State :=
  let s := (((s.recallRuns c).settleAfter c).settleSlots c).fixCounts c
  let s := s.settleDirects c (s.ctx c).directs.length
  s.settleState c

/-- DISCARD (R288, R328), of a run whose tile-end beat has not passed its check: shadows are released at d + 1, lane groups at d + 40
(R306) (log 32). A direct word that waited for the run acts in d (log 94). -/
def State.discard (s : State) (c pseq : Nat) : State :=
  let x := s.ctx c
  match x.runs.find? fun r => r.w.pseq == pseq && (r.phase == .waiting || r.phase == .started || r.phase == .checking) with
  | none => s
  | some r =>
    let d := (s.ch x.chan).cyc
    let opened := r.phase != .waiting
    let owner := opened && x.runs.all fun q => q.ser ≥ r.ser || q.phase != .started
    let s := s.modCh x.chan fun h => (h.dropRuns fun n => n == r.ser).defer (if opened then [⟨d + 1, c, none, .drop r.ser⟩] else [])
    let s := s.modCtx c fun x => x.dropRun r
    let s := if opened then s.releaseGroups c (d + 40) else s
    let s := if owner then
        let (buf, hit) := dropToSot c (s.ch x.chan).couch
        (s.modCh x.chan fun h => { h with couch := buf }).modCtx c fun x => { x with lastEnd := max x.lastEnd d, dropSot := !hit }
      else s
    s.settle c

end Sys2Proof.Machine
end

