-- ==== Sys2Proof/Machine/Arrive.lean ====
section
/-! DEFINITION. What the elements of a lane-beat become (R142 to R151, R206 to R212, R239 to R248): the values that Couch takes in
(R73, R342, R343), hold values, terms into shadows, candidates into the sorter, and the emission of a row operation. -/
namespace Sys2Proof.Machine

/-! ### What elements take part in -/

/-- Whether elements contribute terms when they arrive; a mask-form row contributes in its turn (R164). -/
def Run.feeds (r : Run) : Bool :=
  match r.mode with
  | .vatHold => !r.prog.hdr.mask
  | .fold | .first | .normpg => true
  | _ => false

/-- Whether terms wait for exp_sig or the products of a backward operation (Table 5-2, R214, R246). -/
def Prog.slowTerms (p : Prog) : Bool :=
  match p.rowLike with
  | some (_, w) => (opc w = 0x40 && (RowW.ofWord w).op ≤ 1) || opc w = 0x50 || opc w = 0x70
  | none => false

def Prog.lpre (p : Prog) : Nat := sumLat p.pre
def Prog.lpost (p : Prog) : Nat := sumLat p.post

/-- Cycles from presentation to the tree (Table 5-2). -/
def Prog.treeAt (p : Prog) : Nat := (if p.slowTerms then 19 else 9) + p.lpre

/-- The lane latency of a chain whose elements leave when they arrive (R116, R157, R159, R213). -/
def Run.lat (r : Run) : Nat :=
  match r.mode with
  | .fold => r.prog.lpre + 13 + r.prog.lpost
  | .second | .fused => r.prog.lpre + 12 + r.prog.lpost
  | _ => max 12 r.prog.lpre

/-- Lane slots of an element at its arrival (R113, R141, R213). -/
def Run.arrivalSlots (r : Run) : Nat :=
  match r.mode with
  | .plain | .land => max 1 (sumSlots r.prog.pre)
  | .imports => 0
  | .fold => sumSlots r.prog.pre + 2 + sumSlots r.prog.post
  | .second | .fused => sumSlots r.prog.pre + 1 + sumSlots r.prog.post
  | _ => sumSlots r.prog.pre + 1

/-! ### Ingest -/

/-- The code in the Couch slot of a lane (Table 12-4). -/
def slotCode (b : CouchBeat) (fmt half lane : Nat) : Nat :=
  let w := (Tbl.look (0 : BitVec 32) b.data lane).toNat
  (w >>> (if codeWidth fmt = 16 then 16 * half else 0)) % 2 ^ codeWidth fmt

/-- The block size of a tile's scales, none without scales (R292). -/
def IngW.block (i : IngW) : Option Nat :=
  if isMx i.fmt then some (mxBlock i.fmt) else if i.scm = 0 then none else some (if i.bs = 1 then 16 else 32)

/-- The scale of a lane (R132, R343): none is NaN. -/
def laneScale (i : IngW) (b : CouchBeat) (half lane : Nat) : Option Int :=
  match i.block with
  | none => some 0
  | some n =>
    let q := 64 * half + lane / n
    let ca := (Tbl.look (0 : BitVec 8) b.sca q).toNat
    if i.scm = 2 then scaleSum ca (Tbl.look (0 : BitVec 8) b.scb q).toNat
    else if ca = 0xFF then none else some ((ca : Int) - 127)

/-- The elements of a lane-beat presented in cc t, with the ingress NaNs raised in t + 1 (R61, R73, R343). -/
def ingest (i : IngW) (b : CouchBeat) (half t : Nat) (cs : List Cell) : List (Cell × Val) × List Off :=
  let xs := cs.map fun c => (c, decode (slotCode b i.fmt half c.lane) (elemFmt i.fmt), laneScale i b half c.lane)
  let blocks : List (Nat × Cell × Option Int) := match i.block with
    | none => []
    | some n => xs.foldl (fun acc x =>
        if acc.any fun a => a.1 == x.1.lane / n then acc else acc ++ [(x.1.lane / n, x.1, x.2.2)]) []
  (xs.map fun x => (x.1, match x.2.2 with | none => Val.nan | some s => x.2.1.scale s),
   (xs.filter fun x => x.2.1.isNan).map (fun x => ⟨flIngressNan, t + 1, x.1.row, x.1.pos⟩)
     ++ (blocks.filter fun b => b.2.2.isNone).map fun b => ⟨flIngressNan, t + 1, b.2.1.row, b.2.1.pos⟩)

/-- The operands of scale-carry mode: none when an operand lies outside its slot (R296). -/
def carryEls (e : Env) (i : IngW) (b : CouchBeat) (half : Nat) (cs : List Cell) (slot : Nat) : List (Cell × CarryEl) :=
  let f := elemFmt i.fmt
  cs.filterMap fun c =>
    match e.copy slot with
    | some (d, k) =>
      let v := Tbl.look (0, 0) k.data (elKey c.row c.col)
      if c.row < d.rows then
        some (c, ⟨(Tbl.look (0 : BitVec 8) b.sca (64 * half + c.lane / mxBlock i.fmt)).toNat, v.2,
          decode (slotCode b i.fmt half c.lane) f, decode v.1 f⟩)
      else none
    | none => none

/-! ### Hold values -/

/-- An element at its row operation: its place, hold value, the backward operand, and the Loft record it uses. -/
structure Arr where
  c : Cell
  x : Val
  u : Val
  rec4 : Nat
  deriving DecidableEq, Repr

/-- The record index that an element of a backward row operation reads (R220, R298). -/
def Prog.recIndex (p : Prog) (r : RowbW) (rbias k pos : Nat) : Nat :=
  let i := if r.op = 5 then pos
    else if r.op = 4 then k / (r.nsm1 + 1) * (p.hdr.w / (256 * r.gdiv)) + pos / (256 * r.gdiv) else k
  (r.lbase + rbias + i) % 2 ^ 32

/-- Whether the body reads Loft records. -/
def Prog.readsLoft (p : Prog) : Option RowbW :=
  match p.rowLike with
  | some (_, w) => if opc w = 0x50 && !(RowbW.ofWord w).stored then some (RowbW.ofWord w) else none
  | none => none

/-- Whether a run with program p whose tile has not ended may still read a record of idx to idx + n − 1 (R228). -/
def Run.mayRead (r : Run) (p : Prog) (idx n : Nat) : Bool :=
  match p.readsLoft with
  | none => false
  | some w =>
    let lo := p.recIndex w r.w.rbias (match r.base with | some b => b + r.rows | none => 0) (if w.op = 5 then r.w.cbase else 0)
    (r.phase == .waiting || r.phase == .started) && decide (lo < idx + n) && (w.op != 5 || decide (idx < lo + p.hdr.c))

/-- Whether a run is still to release a record by an LREL after its ingest (R228). -/
def Run.willRelease (r : Run) (idx : Nat) : Bool :=
  (if r.phase == .committed then r.after else r.prog.after.map fun w => w.1).any fun i =>
    let w := r.prog.words.getD i 0
    opOf w == some .lrel && (let (a, n) := loftRange (Site.ofRun r i) w; decide (a ≤ idx ∧ idx < a + n))

/-- The record that a run has read at an index. -/
def Env.record (e : Env) (idx : Nat) : Nat :=
  match e.x.rows.find? fun r => r.grp == e.run.ser && r.k == idx with | some r => r.rec4 | none => 0

/-- Elements at a row operation, with the hold rounding of a backward operand (R206) raised in cc. -/
def arrivals (e : Env) (cc : Nat) (fl : Flow) : List Arr × List Off × List Use :=
  match e.run.prog.rowLike with
  | none => ([], [], [])
  | some (i, w) =>
    if opc w = 0x50 then
      let r := RowbW.ofWord w
      let f := elemFmt r.hfmt
      let rs := fl.map fun x =>
        let o := e.tile r.uslot x.1.row x.1.col
        let (code, fo) := convertCode (o.getD .nan) f false
        (x, o, code, fo)
      (rs.map fun q => ⟨q.1.1, q.1.2.point, decode q.2.2.1 f,
          e.record (e.run.prog.recIndex r e.run.w.rbias (e.run.base.getD 0 + q.1.1.row) q.1.1.pos)⟩,
       rs.flatMap fun q => q.1.1.off cc q.2.2.2,
       rs.filterMap fun q => if q.2.1.isNone then some ⟨cc, i, 93⟩ else none)
    else (fl.map fun x => ⟨x.1, x.2.point, .nan, 0⟩, [], [])

/-! ### Terms -/

/-- Elements of one row, service row or group in a lane-beat, admitted into a pair of shadows; the offences. pos gives the record
positions. The beat whose maximum raises the offset is the lane-beat (log 72). -/
def feedExp (de dm : RPart) (xs : List Arr) (u : Nat) (pos : Arr → Nat) : RPart × RPart × List Off :=
  let de := de.raiseOffset ((xs.map fun a => a.x).foldl (pick true) .nan)
  xs.foldl (fun acc a =>
    let (d, f) := acc.1.admitExp a.x
    let (m, g) := acc.2.1.offer (encode a.x .fp32) (pos a)
    (d, m, acc.2.2 ++ a.c.off u (f ||| g))) (de, dm, [])

/-- Pairs of terms admitted into two SUM shadows. -/
def feedSum (d1 d2 : RPart) (ts : List (Cell × Val × Val)) (u : Nat) : RPart × RPart × List Off :=
  ts.foldl (fun acc t =>
    let (a, f) := acc.1.admitSum t.2.1
    let (b, g) := acc.2.1.admitSum t.2.2
    (a, b, acc.2.2 ++ t.1.off u (f ||| g))) (d1, d2, [])

/-- The two terms of an element of a normalisation (R149) or of a backward operation (R208), with its invalid. -/
def pairTerms (e : Env) (w : IWord) (a : Arr) : (Val × Val) × Flags × Bool :=
  if opc w = 0x50 then
    let r := RowbW.ofWord w
    let g := if r.gp then e.entry r.gslot a.c.pos else some Val.one
    let (t1, t2) := bwdTerms ((BOp.ofCode r.op).getD .smaxb) r.stored a.x a.u (if r.mabs then Val.zero else recMean a.rec4)
      (recR a.rec4) (g.getD .nan)
    ((t1.1, t2.1), t1.2 ||| t2.2, g.isNone)
  else ((a.x, (binop .mul a.x a.x).1), flNone, false)

/-- The shadow of a ream for a run (R89, R90): none when another run holds it or its committed part is of another kind (R80). -/
def Channel.shadowFor (h : Channel) (p run : Nat) (k : RKind) : Option RPart :=
  let r := h.ream p
  if r.com.kind != k then none
  else match r.sh with
    | none => some r.com.openShadow
    | some d => if d.run == run then some d.part else none

/-- A shadow with the terms of tree cycle u, which stand in it from u + 8 on (R87). -/
def Channel.setShadow (h : Channel) (p run u : Nat) (d : RPart) : Channel :=
  let old := match (h.ream p).sh with | some q => if q.run == run then q.hist else [] | none => []
  let keep := (old.takeWhile fun e => u < e.1) ++ (old.dropWhile fun e => u < e.1).take 1
  h.setReam p { h.ream p with sh := some ⟨run, d, (u + 8, d) :: keep⟩ }

/-- What stands in a shadow in a cc (R87): nothing but what opens it while no term has reached it (R89). -/
def Shadow.view (q : Shadow) (com : RPart) (cc : Nat) : RPart :=
  match q.hist.find? fun e => e.1 ≤ cc with | some e => e.2 | none => com.openShadow

/-- The kinds of the reams of a unit (Table 5-1, Table 7-1, R241). -/
def Prog.kinds (p : Prog) : List RKind :=
  match p.rowLike with
  | some (_, w) =>
    if opc w = 0x70 then [.exp, .max, .sum]
    else if opc w = 0x40 && (RowW.ofWord w).op ≤ 1 then [.exp, .max] else [.sum, .sum]
  | none => []

/-- The field that names RN in a row, backward or service word. -/
def rnField (w : IWord) : Nat := if opc w = 0x40 then 99 else if opc w = 0x50 then 97 else 93

/-- A service row's width V and the position of an element in it (R240). -/
def Prog.servicePos (p : Prog) (s k pos : Nat) : Nat := (k % s) * p.hdr.w + pos

/-- The target entry of a row in a run (R241). -/
def Env.target (e : Env) (x : XentW) (row : Nat) : Option Nat :=
  let b := e.run.base.getD 0
  e.entryCode x.tslot ((b + row) / x.s - b / x.s)

/-- The reams of the unit, or of the group of it, to which some elements of one lane-beat belong. -/
def Env.unitReams (e : Env) (n : Units) (xs : List Arr) : Option (List Nat) :=
  match xs with
  | a :: _ => e.x.block (n.ream (e.run.base.getD 0 + a.c.row) a.c.pos) e.run.prog.kinds.length
  | [] => none

/-- What the arrival of the elements of one unit or group settles before their terms enter the tree in cycle u: the elements that
contribute, their reams, the invalid of their products, and the operands that are illegal. -/
def feedPlan (e : Env) (i : Nat) (w : IWord) (n : Units) (u : Nat) (xs : List Arr) :
    List Arr × List Nat × List Off × List Use :=
  match e.unitReams n xs with
  | none => ([], [], [], [⟨u, i, rnField w⟩])
  | some ps =>
    if opc w = 0x70 then
      match e.target (XentW.ofWord w) (match xs with | a :: _ => a.c.row | [] => 0) with
      | none => ([], [], [], [⟨u - 1, i, 80⟩])
      | some t => if t = 0xFFFFFFFF then ([], [], [], []) else (xs, ps, [], [])
    else if e.run.prog.kinds.headD .sum == .exp then (xs, ps, [], [])
    else
      let ts := xs.map fun a => (a.c, pairTerms e w a)
      (xs, ps, ts.flatMap fun t => t.1.off (u - 1) t.2.2.1, if ts.any fun t => t.2.2.2 then [⟨u - 2, i, 88⟩] else [])

/-- The terms of some elements of one unit or group enter the tree in cycle u: the channel and the offences. none: a ream's shadow is
held by another run, or its kind is another, and nothing is contributed (R80, R90). -/
def feedRow (e : Env) (h : Channel) (w : IWord) (n : Units) (u : Nat) (xs : List Arr) : Option (Channel × List Off) :=
  let p := e.run.prog
  let base := e.run.base.getD 0
  match e.unitReams n xs with
  | none => none
  | some ps =>
    let ds := (ps.zip p.kinds).map fun pk => h.shadowFor pk.1 e.run.ser pk.2
    let put (d1 d2 : RPart) : Channel := (h.setShadow (ps.getD 0 0) e.run.ser u d1).setShadow (ps.getD 1 0) e.run.ser u d2
    match ds with
    | some d1 :: some d2 :: rest =>
      if opc w = 0x70 then
        let x := XentW.ofWord w
        match rest with
        | [some d3] =>
          let t := (e.target x (match xs with | a :: _ => a.c.row | [] => 0)).getD 0xFFFFFFFF
          let (a, b, os) := feedExp d1 d2 xs u fun a => p.servicePos x.s (base + a.c.row) a.c.pos
          let hits := xs.filter fun a => p.servicePos x.s (base + a.c.row) a.c.pos == t
          let (c, os3) := hits.foldl (fun (acc : RPart × List Off) a =>
            let (d, f) := acc.1.admitSum a.x; (d, acc.2 ++ a.c.off u f)) (d3, [])
          some ((put a b).setShadow (ps.getD 2 0) e.run.ser u c, os ++ os3)
        | _ => none
      else if p.kinds.headD .sum == .exp then
        let (a, b, os) := feedExp d1 d2 xs u fun a => a.c.pos
        some (put a b, os)
      else
        let ts := xs.map fun a => (a.c, (pairTerms e w a).1)
        let (a, b, os) := feedSum d1 d2 (ts.map fun t => (t.1, t.2.1, t.2.2)) u
        some (put a b, os)
    | _ => none

/-- The rows, and groups of rows, of some elements, in order: (tile row, group). -/
def rowGroups (n : Units) (xs : List Arr) : List (Nat × Nat) := (xs.map fun a => (a.c.row, n.group a.c.pos)).eraseDups

/-- The units, and groups of units, of some elements, in order: (unit, group). -/
def unitGroups (b : Nat) (n : Units) (xs : List Arr) : List (Nat × Nat) :=
  (xs.map fun a => (n.unit (b + a.c.row), n.group a.c.pos)).eraseDups

/-- The elements that some elements of a lane-beat have in one unit or group. -/
def Env.ofUnit (e : Env) (n : Units) (xs : List Arr) (rg : Nat × Nat) : List Arr :=
  xs.filter fun a => n.unit (e.run.base.getD 0 + a.c.row) == rg.1 && n.group a.c.pos == rg.2

/-- What the arrival of a lane-beat settles for the reams that it feeds in tree cycle u (R143, R242, R434). -/
def feedPlans (e : Env) (u : Nat) (xs : List Arr) : List Arr × List Nat × List Off × List Use :=
  match e.run.prog.rowLike, e.run.prog.units with
  | some (i, w), some n =>
    let ps := (unitGroups (e.run.base.getD 0) n xs).map fun rg => feedPlan e i w n u (e.ofUnit n xs rg)
    (ps.flatMap fun p => p.1, ps.flatMap fun p => p.2.1, ps.flatMap fun p => p.2.2.1, ps.flatMap fun p => p.2.2.2)
  | _, _ => ([], [], [], [])

/-- The terms of a lane-beat enter the tree. -/
def feedAll (e : Env) (h : Channel) (u : Nat) (xs : List Arr) : Option (Channel × List Off) :=
  match e.run.prog.rowLike, e.run.prog.units with
  | some (_, w), some n =>
    (unitGroups (e.run.base.getD 0) n xs).foldl (fun acc rg => match acc with
      | none => none
      | some (h, os) => (feedRow e h w n u (e.ofUnit n xs rg)).map fun r => (r.1, os ++ r.2)) (some (h, []))
  | _, _ => some (h, [])

/-! ### Row state and emission -/

/-- The close of a unit's committed reams (R145, R150, R209, R243): the row state, the Loft record, the loss, and the flags. -/
def closeUnit (w : IWord) (v t rec4 : Nat) (as : List RPart) : RowStat × Nat × Option Nat × Flags :=
  let a := as.getD 0 RPart.unset
  let b := as.getD 1 RPart.unset
  if opc w = 0x40 then
    let r := RowW.ofWord w
    if r.op ≤ 1 then
      let (s, fl) := smaxClose a b
      (.smax s, s.d + s.m * 2 ^ 64 + s.l * 2 ^ 96, none, fl)
    else
      let (mu, q, fl) := normClose a b (r.op == 3) r.eps
      (.norm mu q, mu + q * 2 ^ 32, none, fl)
  else if opc w = 0x50 then
    let r := RowbW.ofWord w
    let (c1, c2, fl) := bwdClose ((BOp.ofCode r.op).getD .smaxb) a b (recD rec4) r.stored
    (.bwd c1 c2, 0, none, fl)
  else
    let (s, f1) := smaxClose a b
    match xentClose s (as.getD 2 RPart.unset) t v with
    | none => (.xent s t, 0, none, flNone)
    | some (loss, f2) => (.xent s t, s.d + loss * 2 ^ 32 + s.m * 2 ^ 64 + s.l * 2 ^ 96, some loss, f1 ||| f2)

/-- The emission of one element of a row operation before its rounding (R146, R148, R151, R210, R244): operands used in cc. -/
def emitCell (e : Env) (i : Nat) (w : IWord) (cc : Nat) (st : RowStat) (k : Nat) (a : Arr) : FnRes × List Use :=
  let ex (v : Exact) : FnRes := ⟨.val v.1, Flags.hasInvalid v.2⟩
  if opc w = 0x40 then
    let r := RowW.ofWord w
    match st with
    | .smax s => (ex (if r.op = 0 then smaxEmit a.x s.row else lsmaxEmit a.x s), [])
    | .norm mu q =>
      let g := if r.gp then e.entry r.gslot a.c.pos else some Val.one
      let b := if r.bp then e.entry r.bslot a.c.pos else some Val.zero
      (ex (normEmit a.x mu q (g.getD .nan) (b.getD .nan)),
        (if g.isNone then [⟨cc, i, 62⟩] else []) ++ (if b.isNone then [⟨cc, i, 57⟩] else []))
    | _ => (FnRes.of .nan, [])
  else if opc w = 0x50 then
    let r := RowbW.ofWord w
    let g := if r.gp then e.entry r.gslot a.c.pos else some Val.one
    let vec (used : Bool) (sl : Nat) : Option Val := if used then e.entry sl a.c.row else some Val.zero
    let c1 := match st with | .bwd c _ => some c | _ => vec (decide (r.op ≤ 2) || r.op == 4) r.c1slot
    let c2 := match st with | .bwd _ c => some c | _ => vec (r.op == 2 || r.op == 3 || r.op == 4) r.c2slot
    (ex (bwdEmit ((BOp.ofCode r.op).getD .smaxb) r.stored a.x a.u (recMean a.rec4) (recR a.rec4) (recD a.rec4) (g.getD .nan)
        (c1.getD .nan) (c2.getD .nan)),
      (if g.isNone then [⟨cc, i, 88⟩] else []) ++ (if c1.isNone then [⟨cc, i, 84⟩] else [])
        ++ (if c2.isNone then [⟨cc, i, 80⟩] else []))
  else
    let x := XentW.ofWord w
    match st with
    | .xent s t =>
      let p := e.run.prog
      (match xentEmit a.x (p.servicePos x.s k a.c.pos) s.row t (x.s * p.hdr.w) (f32v x.wsc) with
       | some v => (ex v, [])
       | none => (FnRes.of Val.zero, []))
    | _ => (FnRes.of .nan, [])

/-- The fold emission of one element (R157). -/
def foldCell (w : IWord) (a : Arr) : FnRes :=
  if (RowW.ofWord w).op = 0 then ⟨.val (smaxFoldEmit a.x).1, Flags.hasInvalid (smaxFoldEmit a.x).2⟩ else FnRes.of a.x

/-- The committed part of a ream that a run's second pass closes again. -/
def Run.part (r : Run) (p : Nat) : RPart := match r.parts.find? fun q => q.1 == p with | some q => q.2 | none => RPart.unset

/-- The committed reams of a unit that a second pass closes again, as they stood at its start (R159): none where the pair was cleared or is
not of its kind (Table 5-6). -/
def Env.unitParts (e : Env) (n : Units) (k pos : Nat) : Option (List RPart) :=
  let kinds := e.run.prog.kinds
  match e.x.block (n.ream k pos) kinds.length with
  | none => none
  | some ps =>
    let cs := ps.map e.run.part
    if (cs.zip kinds).all fun c => c.1.kind == c.2 then some cs else none

/-! ### The sorter -/

/-- The key of a service row in the sorter: two programs of a context count their rows apart (R287). -/
def sortKey (r : Run) (s k : Nat) : Nat := 2 * (k / s) + r.w.psel.toNat

/-- One service row of a lane-beat offers its candidates, which are pending apart for each run (R248, R250). An open row of the same number
is the same row, also when a RUN with RRST has restarted the count (log 100). -/
def Channel.offer (h : Channel) (c key run k : Nat) (f : Fmt) (xs : List (Nat × Nat)) : Channel :=
  let rows := if h.sorter.any fun r => r.ctx == c && r.row == key then h.sorter else h.sorter ++ [⟨c, key, [], []⟩]
  { h with sorter := rows.map fun r =>
      if r.ctx == c && r.row == key then
        let old := match r.pend.find? fun p => p.1 == run with | some p => p.2 | none => []
        { r with pend := (r.pend.filter fun p => p.1 != run) ++ [(run, xs.foldl (fun l x => candInsert f k x l) old)] }
      else r }

/-- The pending candidates of a run are committed (R248). -/
def SortRow.commit (q : SortRow) (ser k : Nat) (f : Fmt) : SortRow :=
  match q.pend.find? fun p => p.1 == ser with
  | some p => { q with com := p.2.foldl (fun l x => candInsert f k x l) q.com, pend := q.pend.filter fun p => p.1 != ser }
  | none => q

end Sys2Proof.Machine
end

