-- ==== Sys2Proof/Machine/Runs.lean ====
section
/-! DEFINITION. The start of a run (R269, R270, R282, R286, R303, R314) and the counting of pacing stalls (R321, R322). -/
namespace Sys2Proof.Machine

def Cause.code : Cause → Nat
  | .group => 1 | .budget => 2 | .slot => 3 | .felt => 4 | .vat => 5 | .lane => 6 | .tree => 7 | .scan => 8 | .sort => 9
  | .reel => 10 | .host => 11

/-- j stalled cc of a context (R321, Table 11-4). -/
def Ctx.stall (x : Ctx) (k : Cause) (j : Nat) : Ctx :=
  { x with stallPace := sat32 (x.stallPace + j)
           stallBudget := if k == .budget then sat32 (x.stallBudget + j) else x.stallBudget }

/-- The stalls of j like cc on a channel: (context, cause) pairs, whether a beat was presented, and whether a started run waited for the
host (R322). -/
def State.stalls (s : State) (n : Nat) (presented starve : Bool) (ks : List (Nat × Cause)) (j : Nat) : State :=
  let s := ks.foldl (fun s e => s.modCtx e.1 fun x => x.stall e.2 j) s
  s.modCh n fun h => { h with
    dPstall := if presented || ks.isEmpty then h.dPstall else h.dPstall + j
    dPcause := (List.range 11).map fun i => h.dPcause.getD i 0 + (if ks.any fun e => e.2.code == i + 1 then j else 0)
    dStarve := if starve then h.dStarve + j else h.dStarve }

/-- Whether no other context's run holds a lane group of a mask in a cc (R270). -/
def Channel.groupsFree (h : Channel) (c mask cc : Nat) : Bool :=
  (List.range 16).all fun g => !mask.testBit g ||
    (let o := h.holders.getD g Holder.reset
     o.now == some c || (o.now == none && (o.last == some c || decide (o.freeAt ≤ cc))))

/-- The first cc in which a run may start on the groups of a mask: 2 cc after another context released one of them (R270) (log 84). -/
def Channel.handover (h : Channel) (c mask : Nat) : Nat :=
  (List.range 16).foldl (fun m g =>
    let o := h.holders.getD g Holder.reset
    if mask.testBit g && o.now == none && (match o.last with | some l => l != c | none => false) then max m (o.freeAt + 2) else m) 0

/-- The balance permits a start (R272) (log 51). -/
def Ctx.permits (x : Ctx) : Bool := x.budForce = 0 || decide (0 < x.balance)

/-- The first run that waits to start. -/
def Ctx.waiting (x : Ctx) : Option Run := x.runs.find? fun r => r.phase == .waiting

/-- The program words that a run would read: the header, and LEN words when it reads as valid (R282, R435). -/
def Channel.program (h : Channel) (slot : Nat) : Prog :=
  ⟨(List.range (Hdr.ofWord (h.word slot)).len).map fun i => h.word (slot + i)⟩

/-- A run waits while a change of program fields issued before it is still to take place and its program names a slot that the change
drops or that does not stand yet (R180). -/
def Ctx.waitsSlots (x : Ctx) (h : Channel) (r : Run) : Bool :=
  match r.slot with
  | none => false
  | some a =>
    let qs := x.newSlots.filter fun q => !q.before.contains r.ser
    !qs.isEmpty && (h.program a).decls.any fun d => (x.slots.all fun s => s.decl != d) || qs.any fun q => !q.decls.contains d

/-- Whether an LREL of a run before its ingest waits for an earlier run that is still to read a record of its range (R228, R307). -/
def State.releaseWaits (s : State) (c : Nat) (r : Run) (iw : Nat × IWord) : Bool :=
  let x := s.ctx c
  opOf iw.2 == some .lrel &&
    (let (a, n) := loftRange (Site.ofRun r iw.1) iw.2
     x.runs.any fun q => q.ser < r.ser && q.mayRead (match q.phase, q.slot with
       | .waiting, some p => (s.ch x.chan).program p
       | _, _ => q.prog) a n)

/-- What keeps a run from starting that is no pacing stall: a direct word before it (R285), or a word before the ingest that waits: an
RCLOSE for a shadow (R303), an LREL for an earlier reader (R228). Such a word holds back the start of the whole run (log 99). -/
def State.heldBack (s : State) (c : Nat) (r : Run) : Bool :=
  let x := s.ctx c
  (x.directs.any fun d => d.ser < r.ser)
    || (match r.slot with
        | some a => ((s.ch x.chan).program a).before.any fun w => s.closeWaits c r.ser w.2 || s.releaseWaits c r w
        | none => false)

/-- The next run of a context, where only R270 and R272 can keep it from starting in the present cc. -/
def State.nextRun (s : State) (c : Nat) : Option Run :=
  let x := s.ctx c
  match x.waiting with
  | some r =>
    if (x.st == .bound || x.st == .running || x.st == .draining) && decide (r.arrived + 1 ≤ (s.ch x.chan).cyc) && !s.heldBack c r
    then some r else none
  | none => none

/-- Whether the next run of a context could start in the present cc but for runs of other contexts that could. Between its choice and its
start 2 cc may pass (R270). -/
def State.couldStart (s : State) (c : Nat) : Option Run :=
  let x := s.ctx c
  let h := s.ch x.chan
  match s.nextRun c with
  | some r => if x.permits && h.groupsFree c x.lgmask.toNat h.cyc && !x.waitsSlots h r then some r else none
  | none => none

/-- Whether another context's run, delivered earlier, could take one of the lane groups in the same cc (R270). -/
def State.outrun (s : State) (c ser : Nat) : Bool :=
  let x := s.ctx c
  (s.ch x.chan).alloc.any fun a => a.ctx != c && ((s.ctx a.ctx).lgmask &&& x.lgmask) != 0 &&
    (match s.couldStart a.ctx with
     | some r => r.ser < ser || (r.ser == ser && decide (a.ctx < c))
     | none => false)

/-- The stall of a context's next run in the present cc (R321): the first cause in the order of Table 11-3. -/
def State.startWait (s : State) (c : Nat) : Option Cause :=
  let x := s.ctx c
  let h := s.ch x.chan
  match s.nextRun c with
  | none => none
  | some r =>
    if !h.groupsFree c x.lgmask.toNat h.cyc || s.outrun c r.ser || decide (h.cyc < h.handover c x.lgmask.toNat) then some .group
    else if !x.permits then some .budget
    else if x.waitsSlots h r then some .slot
    else none

/-! ### Checks at run start -/

/-- Operand faults of the RUN word itself against its program: CBASE and PASS2 (R287, R232) (log 49). -/
def Run.wordFault (r : Run) (p : Prog) : Option Nat :=
  let h := p.hdr
  if r.w.cbase % max h.c 1 ≠ 0 || r.w.cbase ≥ h.w || (p.scan.isSome && r.w.cbase % 64 != 0) then some 87
  else if r.w.pass2 && h.strat != 2 then some 24 else none

/-- Whether earlier-issued runs provide the contents that a run reads from a slot (R184, R282). -/
def Ctx.provides (x : Ctx) (p : Prog) (ser slot : Nat) : Bool :=
  match x.slot slot, p.decl slot with
  | some s, some d =>
    let early := x.runs.filter fun q => q.ser < ser
    s.decl == d &&
      (if d.role = 1 then
        let full := (s.copies.filter fun c => c.st == .full).length
        let land := (early.filter fun q => q.phase != .committed && (match q.prog.lands with | some l => l.2 == slot | none => false)).length
        let read := (early.filter fun q => q.prog.reads slot && (q.phase != .committed || q.takes.any fun t => t.1 == slot)).length
        decide (read < full + land)
      else (s.copies.any fun c => c.st != .empty) || early.any fun q => q.mayFill slot)
  | _, _ => false

/-- Every failing check of a program at run start: its words, and the slots it reads that nothing provides. -/
def Ctx.startFaults (x : Ctx) (p : Prog) (ser : Nat) : List PFault :=
  p.faults ++ (p.copyReads.filter fun r => !x.provides p ser r.slot).map fun r => ⟨r.word, r.flsb, true⟩

/-! ### RUN_START -/

/-- A context takes the lane groups of a mask (R269). -/
def Channel.hold (h : Channel) (c : Nat) (mask : BitVec 16) : Channel :=
  let gs := (List.range 16).zip h.holders
  { h with holders := gs.map fun g => if mask.getLsbD g.1 then ⟨some c, g.2.last, g.2.freeAt⟩ else g.2 }

/-- A run starts in the present cc (R270, R286): its lane groups are held, its words are read and checked, and the words before
the ingest act. -/
def State.start (s : State) (c : Nat) (r : Run) : State :=
  let x := s.ctx c
  let h := s.ch x.chan
  let s := s.setCh x.chan (h.hold c x.lgmask)
  let s := s.modCtx c fun x => { x.modRun r.ser fun r => { r with phase := .started, start := h.cyc, holds := true } with
    st := if x.st == .bound then .running else x.st }
  match r.slot with
  | none => s.ifault c true 0 0 0x01 119
  | some a =>
    match headerFault (h.word a) with
    | some f => s.ifault c false (srcOf r.w.psel) 0 (opc (h.word a)) f.flsb
    | none =>
      let p := h.program a
      match r.wordFault p with
      | some f => s.ifault c true 0 0 0x01 f
      | none =>
        match firstFault (x.startFaults p r.ser) with
        | some f => s.ifault c f.operand (srcOf r.w.psel) f.word (opc (p.words.getD f.word 0)) f.flsb
        | none =>
          let s := s.modRun c r.ser fun r => { r with prog := p, after := p.after.map fun w => w.1 }
          let s := if r.w.rrst then s.modCtx c fun x => { x with restarts := x.restarts ++ [(r.count, r.ser)] } else s
          (s.actWords c { r with prog := p } (p.before.map fun w => w.1)).1.fixCounts c

end Sys2Proof.Machine
end

