-- ==== Sys2Proof/Machine/Pace.lean ====
section
/-! DEFINITION. The conditions under which Couch presents a beat (R318): slots, Loft records, row groups, lanes, the ream tree, the
scan chain, the sorter, Reel cycles and the egress buffer. -/
namespace Sys2Proof.Machine

/-- What the conditions of R318 answer for a beat: a stall, a fault found before it is presented, or the run with the copies it
takes and fills. -/
inductive Verdict where
  | stall (k : Cause)
  | operand (word flsb : Nat)
  | go (r : Run)
  deriving DecidableEq, Repr

/-- The cells of each lane-beat of the next Couch beat of a run. -/
def Run.nextCells (r : Run) (x : Ctx) : List (List Cell) :=
  if r.mode == .imports then []
  else (List.range r.prog.halves).map fun h =>
    r.prog.hdr.cells x.lgmask.toNat (r.beats + h) r.w.cbase r.prog.reverse

/-! ### Condition 2: slots, statistics, second-pass reams, Loft records -/

/-- The FULL copy of a landing slot that was committed earliest and that no open run holds. -/
def Ctx.oldestFull (x : Ctx) (s : SlotSt) : Option Nat :=
  let free := ((List.range s.copies.length).zip s.copies).filter fun ic => ic.2.st == .full &&
    !(x.runs.any fun q => q.takes.contains (s.decl.slot, ic.1))
  (free.foldl (fun (m : Option (Nat × Copy)) ic => match m with
    | none => some ic
    | some b => if ic.2.order < b.2.order then some ic else some b) none).map fun b => b.1

/-- Taking the copy of one slot that the run reads (R184, R185). -/
def Ctx.takeCopy (x : Ctx) (r : Run) (q : SlotRead) : Verdict :=
  if r.takes.any fun t => t.1 == q.slot then .go r
  else match x.slot q.slot with
    | none => .operand q.word q.flsb
    | some s =>
      let early := x.runs.filter fun p => p.ser < r.ser
      if s.decl.role = 1 then
        match x.oldestFull s with
        | some i => .go { r with takes := r.takes ++ [(q.slot, i)] }
        | none => if early.any fun p => p.mayFill q.slot then .stall .slot else .operand q.word q.flsb
      else if (early.any fun p => p.mayFill q.slot) || (s.copies.getD 0 Copy.fresh).st == .filling then .stall .slot
      else if (s.copies.getD 0 Copy.fresh).st == .full then .go { r with takes := r.takes ++ [(q.slot, 0)] }
      else .operand q.word q.flsb

/-- The copy that a landing run fills (Table 6-5). -/
def Ctx.fillCopy (x : Ctx) (r : Run) : Verdict :=
  match r.prog.lands with
  | none => .go r
  | some (i, slot) =>
    if r.fills.any fun t => t.1 == slot then .go r
    else match x.slot slot with
      | none => .operand i 108
      | some s =>
        let early := x.runs.filter fun p => p.ser < r.ser
        if s.decl.role = 1 then
          match (List.range s.copies.length).find? fun j => (s.copies.getD j Copy.fresh).st == .empty with
          | some j => .go { r with fills := r.fills ++ [(slot, j)] }
          | none =>
            if early.any fun p => p.takes.any fun t => t.1 == slot then .stall .slot
            else .operand i 108
        else if (early.any fun p => p.prog.reads slot || p.mayFill slot) || (s.copies.getD 0 Copy.fresh).st == .filling then .stall .slot
        else .go { r with fills := r.fills ++ [(slot, 0)] }

/-- Statistics entries that the rows of a beat read (R158, R184, R282): they wait until the cc in which they are written. -/
def State.statVerdict (s : State) (c : Nat) (r : Run) (ks : List Nat) : Verdict :=
  let x := s.ctx c
  let one (q : SlotRead) (k : Nat) : Option Verdict :=
    if s.statComing c r.ser q.slot k then some (.stall .slot)
    else if (x.statEntry q.slot k).isSome then none
    else some (.operand q.word q.flsb)
  match (r.prog.statReads.flatMap fun q => ks.map fun k => one q k).find? Option.isSome with
  | some (some v) => v
  | _ =>
    let ts : List (Nat × Nat) := r.prog.statReads.flatMap fun q => ks.filterMap fun k =>
      (x.slot q.slot).map fun s => (q.slot, (statPlace s.decl k).1)
    let all : List (Nat × Nat) := ts.foldl (fun ts t => if ts.contains t then ts else ts ++ [t]) r.takes
    .go { r with takes := all }

/-- A fold that closes waits for the earlier readers of the statistics copies that it writes (Table 6-5). -/
def Ctx.statWrites (x : Ctx) (r : Run) (ks : List Nat) : Verdict :=
  match r.prog.statFills with
  | some (m, sl) =>
    let slots := sl :: m.toList
    let busy := r.prog.closes r.w.cbase && slots.any fun n => match x.slot n with
      | some s => ks.any fun k => x.runs.any fun q => q.ser < r.ser && q.takes.contains (n, (statPlace s.decl k).1)
      | none => false
    if busy then .stall .slot else .go r
  | none => .go r

/-- A second pass waits for the commit of a shadow of the reams it closes again, and of terms or records on their way to one (03, Closing
a row) (log 47). -/
def Channel.unitsHeld (h : Channel) (x : Ctx) (r : Run) (cs : List Cell) : Bool :=
  r.mode == .second &&
    (match r.prog.units with
     | some n => cs.any fun c => match x.block (n.ream (r.base.getD 0 + c.row) c.pos) r.prog.kinds.length with
       | some ps => ps.any fun p => h.shadowed p && r.parts.all fun q => q.1 != p
       | none => false
     | none => false)

/-- The Loft base of a row word that writes records (R162, R245). -/
def Prog.recBase (p : Prog) : Option Nat :=
  match p.rowLike with
  | some (_, w) =>
    if opc w = 0x40 && (RowW.ofWord w).lp then some (RowW.ofWord w).lbase
    else if opc w = 0x70 && IWord.fld w 119 116 == 0 && (XentW.ofWord w).lp then some (XentW.ofWord w).lbase else none
  | none => none

/-- The index of the record that a unit or row with row count k and group writes (R220, R297). -/
def Prog.recKey (p : Prog) (n : Units) (k g : Nat) : Nat :=
  if n.g ≠ 0 then n.unit k * (p.hdr.w / n.g) + g else n.unit k

/-- Whether a run is still to write a record (R163). -/
def Run.willRecord (q : Run) (idx rows : Nat) : Bool :=
  q.phase != .committed && q.mode != .second && q.prog.closes q.w.cbase &&
    (match q.prog.recBase, q.prog.units, q.base with
     | some b, some n, some k0 =>
       let i := (idx + 2 ^ 32 - (b + q.w.rbias) % 2 ^ 32) % 2 ^ 32
       let per := if n.g ≠ 0 then q.prog.hdr.w / n.g else 1
       decide (k0 / max n.div 1 ≤ i / max per 1) &&
         (q.phase == .waiting || q.phase == .started || decide (i / max per 1 ≤ (k0 + rows) / max n.div 1))
     | some _, some _, none => true
     | _, _, _ => false)

/-- The records that the cells of a beat need, each once. -/
def Run.recNeeds (r : Run) (cs : List Cell) : List Nat :=
  match r.prog.readsLoft with
  | some w => (cs.map fun c => r.prog.recIndex w r.w.rbias (r.base.getD 0 + c.row) c.pos).eraseDups
  | none => []

/-- Reads of the records that a run needs and has not read: those at hand are read, the others are fetched. A record that an earlier run
is to write or to release is read after that (R163, R228). The answer is the cause of a wait (R220) (log 38). -/
def State.readRecords (s : State) (c ser : Nat) (idxs : List Nat) : State × Option Cause :=
  idxs.foldl (fun acc i =>
    let x := acc.1.ctx c
    if x.rows.any fun r => r.grp == ser && r.k == i then acc
    else if (acc.1.ch x.chan).due.any fun e => e.ctx == c && (match e.what with
        | .release a n => decide (a ≤ i ∧ i < a + n)
        | _ => false) then (acc.1, some .slot)
    else if x.runs.any fun q => q.ser < ser && q.willRecord i q.rows then (acc.1, some .slot)
    else if x.runs.any fun q => q.ser < ser && q.willRelease i then (acc.1, some .slot)
    else match acc.1.readRecord c ser i with
      | (.value v, s) => (s.modCtx c fun x => { x with rows := x.rows ++ [⟨i, ser, v⟩] }, acc.2)
      | (.pending, s) => (s, some .slot)
      | (.fetching, s) => (s, some (acc.2.getD .felt))) (s, none)

/-! ### Condition 3: Loft lines -/

/-- Whether the body spills its output (R222). -/
def Prog.stashes (p : Prog) : Bool := p.egress.any fun e => opc e.2 = 0x81

/-- Stash lines that a Couch beat's results will take (R222). -/
def Prog.stashNeed (p : Prog) : Nat :=
  p.halves * (p.egress.filter fun e => opc e.2 = 0x81).foldl (fun n e =>
    let w := EgrW.ofWord e.2
    n + w.pieces * fmtBeats w.ofmt * (if isMx w.ofmt then 33 else 32)) 0

/-- The records that the rows of a beat will write at their close: those of the units that end with one of them (R162, R245). -/
def Run.recWrites (r : Run) (ks : List Nat) : List Nat :=
  match r.prog.recBase, r.prog.units with
  | some b, some n =>
    if r.mode == .second || !r.prog.closes r.w.cbase then []
    else (ks.filter fun k => (k + 1) % max n.div 1 == 0).flatMap fun k =>
      (List.range (if n.g = 0 then 1 else r.prog.hdr.w / n.g)).map fun g => (b + r.w.rbias + r.prog.recKey n k g) % 2 ^ 32
  | _, _ => []

/-- Lines of a context's grant that hold nothing, or nothing that is still to go home (R223). -/
def Channel.spareLines (h : Channel) (c granted : Nat) : Nat :=
  (granted - h.lineCount c) + (h.loft.filter fun l => l.owner == c && !l.stash && !l.dirty && l.still).length

/-- The records that the rows of the beats that a run has presented are still to write. -/
def Run.recsLeft (r : Run) : List Nat :=
  let ks := (List.range r.rows).map fun i => r.base.getD 0 + i
  r.recWrites (ks.filter fun k => r.closed.all fun q => q.c.k != k)

/-- The records that earlier beats of a context are still to write, those of open rows among them (R318 condition 3). -/
def Ctx.recsLeft (x : Ctx) : List Nat := (x.recQ.map fun w => w.idx) ++ x.runs.flatMap fun r => r.recsLeft

/-- The stash lines that earlier beats of a context are still to write, those of held beats among them (R318 condition 3). -/
def Ctx.stashLeft (x : Ctx) (h : Channel) : Nat :=
  let held := (x.held.map fun b => b.lines).foldl (· + ·) 0
  let leaving := x.runs.foldl (fun m r => h.due.foldl (fun m e => match e.what with
    | .emit j => if e.run == some r.ser then m + (r.outs[j]?.map fun o => o.1.lines).getD 0 else m
    | _ => m) m) 0
  x.stashQ.length + held + leaving

/-- Whether something that earlier beats of a context are to write comes about without a further beat of it: results on their way to the
stash, held beats that leave, records of closed rows. -/
def State.linesComing (s : State) (c : Nat) : Bool :=
  let x := s.ctx c
  !x.stashQ.isEmpty || !x.recQ.isEmpty || (x.runs.any fun r => r.phase != .started && !r.recsLeft.isEmpty)
    || (s.ch x.chan).due.any fun e => e.ctx == c && (match e.what with
      | .emit j => ((e.run.bind x.run).any fun r => r.outs[j]?.any fun o => o.1.lines != 0)
      | _ => false)

/-- Whether a beat waits for Loft lines: every line that it will write, with those that earlier beats are still to write, is to be free
(R318 condition 3, R223, Table 7-4). Where these are more than the grant and none of them comes about without a further beat, the whole
grant is to be free (log 37). -/
def State.lineWait (s : State) (c : Nat) (r : Run) (ks : List Nat) : State × Bool :=
  let x := s.ctx c
  let h := s.ch x.chan
  let stash := if (x.policy = 0 || x.policy = 3) && r.prog.stashes then r.prog.stashNeed else 0
  let fresh (is : List Nat) : List Nat := ((is.map fun i => i / 4).eraseDups).filter fun l => (h.findLine c l).isNone
  let own := fresh (if x.policy = 2 then [] else r.recWrites ks)
  let total := (if x.policy = 0 || x.policy = 3 then stash + x.stashLeft h else 0) + (fresh (own.map (4 * ·) ++ x.recsLeft)).length
  let spare := h.spareLines c x.algrant
  if x.algrant = 0 || decide (stash + own.length = 0 ∨ total ≤ spare ∨ (x.algrant ≤ spare ∧ s.linesComing c = false)) then (s, false)
  else
    let mine := h.loft.filter fun l => l.owner == c && !l.stash
    if mine.any fun l => !l.still then (s, true)
    else match leastLine (fun l => l.lastWrite) (mine.filter fun l => l.dirty) with
      | some l => (s.queueHome c l, true)
      | none => (s, true)

/-! ### Condition 4: row groups -/

/-- The row group of a row, apart for each of a context's two programs (R156, R287). -/
def Run.groupKey (r : Run) (k : Nat) : Nat := 2 * r.prog.rowGroup k + r.w.psel.toNat

/-- Whether the rows of a beat lie in the two row groups that the Vat provides (R156). -/
def Ctx.groupsFit (x : Ctx) (r : Run) (t : Nat) (ks : List Nat) : Bool :=
  if r.mode == .vatHold then
    let held : List Nat := (x.held.filter fun b => b.psel == r.w.psel).flatMap fun b => b.els.map fun e => r.groupKey (b.base + e.row)
    let leaving : List Nat := (x.runs.filter fun q => q.w.psel == r.w.psel).flatMap fun q =>
      ((List.range q.outs.length).zip q.outs).flatMap fun jo =>
        if (Tbl.look [] q.emitAt jo.1).isEmpty then jo.2.2.map fun e => r.groupKey (jo.2.1.base + e.row) else []
    let out : List Nat := (x.groupEnds.filter fun g => t < g.2 && g.1 % 2 == r.w.psel.toNat).map fun g => g.1
    let all : List Nat := (ks.map r.groupKey ++ held ++ leaving ++ out).eraseDups
    decide (all.length ≤ 2)
  else true

/-! ### Conditions 5 to 8 -/

/-- The lane cycles of a beat presented in cc t (R113, R114): from lane entry on, in consecutive cc, the arrival slot of R141 after the
slots of earlier stages; the slots of its second half follow those of its first (log 36, log 85). -/
def Run.laneCycles (r : Run) (t : Nat) : List Nat := (List.range (r.arrivalSlots * r.prog.halves)).map fun i => t + 7 + i

/-- Whether no other work has reserved a lane group of a context in some cycles. -/
def State.lanesFree (s : State) (n c : Nat) (ccs : List Nat) : Bool :=
  let m := (s.ctx c).lgmask
  (s.ch n).laneRes.all fun r => !(ccs.contains r.cc) || ((s.ctx r.ctx).lgmask &&& m) == 0

/-- The tree segments that elements feed, with their targets. -/
def segTargets (n : Units) (rbase base : Nat) (cs : List Cell) : List (Nat × Nat) :=
  (cs.map fun c => (c.lane / 256, rbase + n.ream (base + c.row) c.pos)).eraseDups

/-- The segments and targets of each lane-beat of a Couch beat: an import takes every segment (R291) (log 34). -/
def Run.treeSegs (r : Run) (x : Ctx) (cells : List (List Cell)) : List (List (Nat × Nat)) :=
  if r.mode == .imports then
    (match r.prog.ingest with | some (_, w) => [(List.range 4).map fun g => (g, x.reambase + (IngW.ofWord w).rbase)] | none => [])
  else match r.prog.units with
    | some u => if r.feeds then cells.map fun cs => segTargets u x.reambase (r.base.getD 0) cs else []
    | none => []

/-- Whether a segment takes another target in cycle u than its last (R86). -/
def Channel.treeChange (h : Channel) (u : Nat) (segs : List (Nat × Nat)) : Bool :=
  segs.any fun g => h.lastTarget g.1 u != some g.2

/-- Whether a reservation takes a new target (R86). -/
def Channel.slotChanges (h : Channel) (r : TreeSlot) : Bool := h.treeChange r.lo r.segs

def Channel.addTree (h : Channel) (qs : List TreeSlot) : Channel := { h with treeRes := h.treeRes ++ qs }

/-- Whether the tree can take some reservations: no segment of them is taken in their cycles, and before every reservation that then takes a
new target no term enters the tree for 4 cc (R86). -/
def Channel.treeFits (h : Channel) (qs : List TreeSlot) : Bool :=
  let k := h.addTree qs
  (h.treeRes.all fun r => qs.all fun q =>
      decide (r.hi < q.lo ∨ q.hi < r.lo) || r.segs.all fun g => q.segs.all fun f => f.1 != g.1)
    && k.treeRes.all fun r => !k.slotChanges r || k.treeRes.all fun f => decide (f.hi + 4 < r.lo ∨ r.lo ≤ f.lo)

/-- Tree cycles that have passed leave only the last target of each segment; the last four stay, for the change of R86. -/
def Channel.pruneTree (h : Channel) : Channel :=
  let old := h.treeRes.filter fun r => r.hi + 4 < h.cyc
  { h with
    treeRes := h.treeRes.filter fun r => h.cyc ≤ r.hi + 4
    treeTgt := (List.range 4).map fun g =>
      if old.any fun r => r.segs.any fun q => q.1 == g then { h with treeRes := old }.lastTarget g h.cyc else h.treeTgt.getD g none }

/-- The tree cycles of the lane-beats of a beat from cycle u: a second half in which a segment changes target follows 5 cycles after
the first (R86). none: the tree is busy or changing target. -/
def Channel.treePlan (h : Channel) (c run u : Nat) : List (List (Nat × Nat)) → Option (Channel × List Nat)
  | [] => some (h, [])
  | segs :: rest =>
    let q : TreeSlot := ⟨c, run, u, u, segs⟩
    if !h.treeFits [q] then none
    else
      let h := h.addTree [q]
      let next := match rest with | g :: _ => if h.treeChange (u + 1) g then u + 5 else u + 1 | [] => u
      match h.treePlan c run next rest with
      | some (h, us) => some (h, u :: us)
      | none => none

/-- cc in which the turn of a mask-form tile presents four rows of N elements (R164). -/
def turnStep (n : Nat) : Nat := (n + 255) / 256

/-- T_turn of R164 for A rows of N elements. -/
def turnCycles (a n : Nat) : Nat := ((a + 3) / 4) * (turnStep n + 4) - 4

/-- The tree cycles of the turn of a mask-form tile whose tile-end beat is presented in cc t (R164): from t + 2 on, row group by row group,
with the pair that each segment takes. -/
def Run.turnSlots (r : Run) (x : Ctx) (c t : Nat) : List TreeSlot :=
  let rows := r.prog.hdr.tileRows x.lgmask.toNat (r.beats + r.prog.halves)
  if r.mode == .vatHold && r.prog.closes r.w.cbase && r.prog.hdr.mask then
    let rn := x.reambase + (match r.prog.units with | some n => n.rn | none => 0)
    let step := turnStep r.prog.hdr.c
    (List.range ((rows + 3) / 4)).map fun q =>
      let lo := t + 2 + q * (step + 4)
      ⟨c, r.ser, lo, lo + step - 1, ((List.range 4).filter fun i => 4 * q + i < rows).map fun i => (i, rn + 8 * (q % 2) + 2 * i)⟩
  else []

/-- The tree cycles that a beat presented in cc t takes: of its lane-beats, and of the turn behind a tile-end beat (R86, R164). -/
def Channel.treeTakes (h : Channel) (x : Ctx) (c : Nat) (r : Run) (eot : Bool) (t : Nat) : Option (Channel × List Nat) :=
  match h.treePlan c r.ser (t + r.prog.treeAt) (r.treeSegs x (r.nextCells x)) with
  | none => none
  | some (k, us) =>
    let qs := if eot then r.turnSlots x c t else []
    if qs.isEmpty then some (k, us) else if k.treeFits qs then some (k.addTree qs, us) else none

/-- Cycles from presentation to the scan stage of a body whose elements pass it on arrival. -/
def Run.scanAt (r : Run) : Option Nat :=
  let upTo (ss : List Stage) : Option Nat :=
    if ss.any fun s => opc s.w = 0x60 then some (sumLat (ss.takeWhile fun s => opc s.w != 0x60)) else none
  match upTo r.prog.pre with
  | some l => some (7 + l)
  | none =>
    if r.mode.emits && r.mode != .plain then
      (upTo r.prog.post).map fun l => 7 + r.lat - r.prog.lpost + l
    else none

/-- cc for which a lane-beat takes the carry chain: one step for each row in each (Table 7-6) (log 35). -/
def Prog.scanGap (p : Prog) : Nat := if p.hdr.w > 1024 then 16 else p.hdr.pitch / 64

/-- Whether the carry chain can take a beat of a context that enters it in cc lo, for n cc and per steps in each (R237): the context's last
beat has issued its last step, and no cc has more than 16 steps. -/
def Channel.scanFits (h : Channel) (c lo n per : Nat) : Bool :=
  (h.scanRes.all fun e => e.ctx != c || decide (e.lo + e.n ≤ lo ∨ lo + n ≤ e.lo))
    && (List.range n).all fun i =>
      decide ((h.scanRes.filter fun e => decide (e.lo ≤ lo + i ∧ lo + i < e.lo + e.n)).foldl (fun m e => m + e.per) per ≤ 16)

/-- Rows that stand in one lane-beat. -/
def Run.rowsAbreast (r : Run) (x : Ctx) : Nat := (cellRows ((r.nextCells x).headD [])).length

/-- Whether the carry chain can take a run's beat that is presented in cc t. -/
def Channel.scanTakes (h : Channel) (x : Ctx) (c : Nat) (r : Run) (t : Nat) : Bool :=
  match r.scanAt with
  | some a => h.scanFits c (t + a) (r.prog.scanGap * r.prog.halves) (r.rowsAbreast x)
  | none => true

/-- k of a sampling body (R247). -/
def Prog.sampleW (p : Prog) : SampleW := match p.rowLike with | some (_, w) => SampleW.ofWord w | none => SampleW.ofWord 0

/-- cc in which the sorter takes a lane-beat of a sampling body (R255). -/
def Prog.sortStep (p : Prog) : Nat := (p.sampleW.k + 31) / 32

/-- Whether the sorter can take a beat in the cc t + 7 (R248, R255). -/
def Channel.sortFits (h : Channel) (c : Nat) (r : Run) (t : Nat) (ks : List Nat) : Bool :=
  if r.mode == .sample then
    let keys := (ks.map fun k => sortKey r r.prog.sampleW.s k).eraseDups
    let fresh := keys.filter fun q => h.sorter.all fun e => !(e.ctx == c && e.row == q)
    decide (h.sortFree ≤ t + 7 + r.prog.lpre ∧ h.sorter.length + fresh.length ≤ 64)
  else true

/-! ### Conditions 9 and 10: Reel -/

/-- Reel beats of the scan carry of a tile that ends with a beat. -/
def Run.carryBeats (r : Run) (x : Ctx) (eot : Bool) : Nat :=
  if eot && r.carriesNow then
    2 * ((r.prog.hdr.tileRows x.lgmask.toNat (r.beats + r.prog.halves) + 1023) / 1024)
  else 0

/-- The Reel beats of the results of a beat that leave when its elements arrive. -/
def Run.results (r : Run) : Nat := if r.mode.emits then r.prog.reelBeats * r.prog.halves else 0

/-- The Reel cycles of a beat presented in cc t (R309, R116): its results, and after the last of them the scan carry. -/
def Run.reelCycles (r : Run) (x : Ctx) (eot : Bool) (t : Nat) : List Nat :=
  let lead := if r.results = 0 then 1 else 0
  (List.range (r.results + r.carryBeats x eot)).map fun i => t + 12 + r.lat + lead + i

/-- Condition 10: the egress buffer has room (R330). -/
def Channel.egressFits (h : Channel) (ccs : List Nat) : Bool :=
  let last := ccs.foldl max 0
  ccs.isEmpty || decide ((h.egress.filter fun b => b.due ≤ last).length + (h.reelRes.filter fun r => r.cc ≤ last).length + ccs.length ≤ 64)

/-- Whether result beats in cc first to last, of elements of a context that enter the lanes in cc entry, keep the order in which the
context's elements enter them (R116). -/
def Channel.inOrder (h : Channel) (c entry first last : Nat) : Bool :=
  let fits (e cc : Nat) : Bool := e = entry || (if e < entry then decide (cc < first) else decide (last < cc))
  (h.egress.all fun b => b.ctx != c || b.entry = 0 || fits b.entry b.due) && h.reelRes.all fun r => r.ctx != c || fits r.entry r.cc

/-! ### The verdict -/

/-- Verdicts in order: the first that is no go decides. -/
def Verdict.bind (v : Verdict) (f : Run → Verdict) : Verdict := match v with | .go r => f r | w => w

/-- The conditions of R318 for the next beat of a run, in cc t. A beat whose results would leave out of order (R116, R196) waits as for a
Reel cycle (log 93). The state moves on only by what a wait brings about: fetches and home
writes of Loft lines, and the records that have been read. -/
def State.verdict (s : State) (n c : Nat) (r : Run) (b : CouchBeat) (t : Nat) : State × Verdict :=
  let x := s.ctx c
  if r.base.isNone then (s, .stall .slot)
  else
    let cells := r.nextCells x
    let cs := cells.flatten
    let ks := (cellRows cs).map fun i => r.base.getD 0 + i
    let v := (((r.prog.copyReads.foldl (fun (v : Verdict) q => v.bind fun r => x.takeCopy r q) (.go r)).bind
      x.fillCopy).bind fun r => s.statVerdict c r ks).bind fun r => x.statWrites r ks
    match v with
    | .go r =>
      if (s.ch n).unitsHeld x r cs then (s, .stall .slot)
      else
        let needs := r.recNeeds cs
        match needs.find? fun i => x.outside i 1, r.prog.rowLike with
        | some _, some (i, _) => (s, .operand i 48)
        | _, _ =>
          match s.readRecords c r.ser needs with
          | (s, some k) => (s, .stall k)
          | (s, none) =>
            let (s, wait) := s.lineWait c r ks
            let h := s.ch n
            if wait then (s, .stall .felt)
            else if !x.groupsFit r t ks then (s, .stall .vat)
            else if !s.lanesFree n c (r.laneCycles t) then (s, .stall .lane)
            else
              if (h.treeTakes x c r b.eot t).isNone then (s, .stall .tree)
              else if !h.scanTakes x c r t then (s, .stall .scan)
              else if !h.sortFits c r t ks then (s, .stall .sort)
              else
                let ccs := r.reelCycles x b.eot t
                let ordered : Bool := (match ccs with | p :: _ => h.inOrder c (t + 7) p (ccs.foldl max 0) | [] => true)
                  && (match r.brokeOf r.results ccs with | p :: _ => h.brokeInOrder x c r.ser p | [] => true)
                if ccs.any h.reelTaken || !ordered then (s, .stall .reel)
                else if !h.egressFits ccs then (s, .stall .host)
                else (s, .go r)
    | w => (s, w)

end Sys2Proof.Machine
end

