-- ==== Sys2Proof/Machine/Lane.lean ====
section
/-! DEFINITION. What one lane-beat brings about between its presentation at Couch and the calender (Table 4-1, Table 5-2): its
elements through the chain, their terms, held values, landed elements, candidates and results. -/
namespace Sys2Proof.Machine

/-- Pieces that leave by one egress word: its place among the egress words, its index in the program, whether it is a STASH. -/
structure Leave where
  place : Nat
  idx : Nat
  stash : Bool
  w : EgrW
  pieces : List Piece
  deriving DecidableEq, Repr

/-- Terms of a lane-beat that enter the tree in cycle u: their elements and reams. -/
structure Feed where
  u : Nat
  els : List HElem
  reams : List Nat
  deriving DecidableEq, Repr

/-- What a lane-beat brings about: the channel with its sorter, flags, operand faults, what leaves, terms on their way to the tree,
elements held and landed, and the scan carries. -/
structure Work where
  h : Channel
  offs : List Off
  uses : List Use
  out : List Leave
  feeds : List Feed
  els : List HElem
  landing : List (Nat × (Nat × Nat))
  carry : Tbl Nat
  deriving DecidableEq, Repr

/-- The invalid that a stage raised for each element. -/
def invOffs (cc : Nat) (fl : Flow) : List Off := fl.flatMap fun x => x.1.off cc (invIf x.2.inv)

/-- The elements of a lane-beat up to the row operation or the calender: sizing, its rounding point, and the stages that follow
(R186, R189). -/
def front (e : Env) (t : Nat) (xs : List (Cell × Val)) : Out :=
  let (fl, us) := sizeFlow e t xs
  let (fl, os) := match e.run.prog.sizePoint with
    | some (f, sat) => roundFlow f sat (t + 6) fl
    | none => (fl, invOffs (t + 6) fl)
  runStages e e.run.prog.pre (t + 7) ⟨fl, os, us, e.run.carryIn⟩

/-- Emission results from the emission slot in cc slot on: the rounding point after the row operation, where stages follow, and
those stages (R189). -/
def afterRow (e : Env) (slot : Nat) (o : Out) : Out :=
  let o := match e.run.prog.mid with
    | some m => match m.rnd with
      | some (f, sat) => let (fl, os) := roundFlow f sat (slot + 11) o.flow; { o with flow := fl, offs := o.offs ++ os }
      | none => o
    | none => o
  runStages e e.run.prog.post (slot + 12) o

/-- Elements at the calender in cc cal: what leaves by each egress word that emits results (R188) (log 67). -/
def leave (e : Env) (cal : Nat) (fl : Flow) (ce : List (Cell × CarryEl)) : List Leave × List Off × List Use :=
  let ws := ((List.range e.run.prog.egress.length).zip e.run.prog.egress).filter fun q => !(EgrW.ofWord q.2.2).sel
  let rs := ws.map fun q => (q, calender e q.2.1 (EgrW.ofWord q.2.2) cal fl ce)
  (rs.map fun q => ⟨q.1.1, q.1.2.1, opc q.1.2.2 == 0x81, EgrW.ofWord q.1.2.2, q.2.1⟩, rs.flatMap fun q => q.2.2.1,
    rs.flatMap fun q => q.2.2.2)

/-- The row word of a body with its index. -/
def Prog.rowWord (p : Prog) : Nat × IWord := match p.rowLike with | some w => w | none => (0, 0)

/-- The hold format of a row word (R142). -/
def holdFmt (w : IWord) : Fmt := elemFmt (pointFmt true 0 w)

/-- A held element (R156). -/
def Arr.held (a : Arr) (f : Fmt) : HElem := ⟨a.c.lane, a.c.row, a.c.pos, encode a.x f, encode a.u f, a.rec4⟩

/-- The state of a row, or group, that a second pass recomputes from the committed reams (R159). An ignored service row needs none
(R244); a pair that was cleared is an illegal operand (Table 5-6) (log 47). -/
def secondStat (e : Env) (i : Nat) (w : IWord) (n : Units) (cc : Nat) (a : Arr) : RowStat × List Use :=
  let k := e.run.base.getD 0 + a.c.row
  let x := XentW.ofWord w
  match (if opc w = 0x70 then e.target x a.c.row else some 0) with
  | none => (.vectors, [⟨cc, i, 80⟩])
  | some t =>
    if opc w = 0x70 && t == 0xFFFFFFFF then (.xent ⟨none, 0, 0, 0⟩ t, [])
    else match e.unitParts n k a.c.pos with
      | none => (.vectors, [⟨cc, i, rnField w⟩])
      | some ps =>
        if (ps.headD RPart.unset).tally = 0 then (.vectors, [⟨cc, i, rnField w⟩])
        else ((closeUnit w (x.s * e.run.prog.hdr.w) t a.rec4 ps).1, [])

/-- The second-pass emission of a lane-beat. -/
def secondEmit (e : Env) (cc : Nat) (xs : List Arr) : List (Cell × FnRes × List Use) :=
  match e.run.prog.rowLike, e.run.prog.units with
  | some (i, w), some n =>
    (rowGroups n xs).flatMap fun rg =>
      match xs.filter fun a => a.c.row == rg.1 && n.group a.c.pos == rg.2 with
      | [] => []
      | a :: as =>
        let (st, us) := secondStat e i w n cc a
        (a :: as).map fun b =>
          let (r, vs) := emitCell e i w cc st (e.run.base.getD 0 + b.c.row) b
          (b.c, r, us ++ vs)
  | _, _ => []

/-- Candidates of a lane-beat offered to the sorter (R248). -/
def offerAll (e : Env) (c : Nat) (h : Channel) (fl : Flow) : Channel :=
  let w := e.run.prog.sampleW
  let f := elemFmt w.hfmt
  (cellRows (fl.map fun x => x.1)).foldl (fun h row =>
    let k := e.run.base.getD 0 + row
    let xs := (fl.filter fun x => x.1.row == row).map fun x => (encode x.2.point f, e.run.prog.servicePos w.s k x.1.pos)
    h.offer c (sortKey e.run w.s k) e.run.ser w.k f xs) h

/-- Elements landed: their places in the slot with code and scale code (R200), and an operand fault for a row beyond the slot
(R187) (log 40). -/
def landCells (e : Env) (t : Nat) (fl : Flow) : List (Nat × (Nat × Nat)) × List Off × List Use :=
  match e.run.prog.lands with
  | none => ([], [], [])
  | some (i, slot) =>
    match e.run.prog.decl slot with
    | none => ([], [], [⟨t, i, 108⟩])
    | some d =>
      let (p, os) := emitPlain d.fmt e.run.prog.sizeW.sat (t + 21) fl
      let code (l : Nat) : Nat := match p.vals.find? fun v => v.1 == l with | some v => v.2 | none => 0
      let scale (l : Nat) : Nat := match p.scale with
        | some sc => (match sc.find? fun q => q.1 == l / mxBlock d.fmt with | some q => q.2 | none => 0)
        | none => 0
      (fl.map fun x => (elKey x.1.row x.1.col, (code x.1.lane, scale x.1.lane)), os,
        if fl.any fun x => d.rows ≤ x.1.row then [⟨t + 2, i, 108⟩] else [])

/-- A lane-beat presented in cc t, with its tree cycle u. -/
def laneWork (e : Env) (c : Nat) (h : Channel) (b : CouchBeat) (half t u : Nat) (cs : List Cell) : Work :=
  let r := e.run
  let p := r.prog
  let (i, w) := p.rowWord
  let iw := match p.ingest with | some q => IngW.ofWord q.2 | none => IngW.ofWord 0
  let (xs, o0) := ingest iw b half t cs
  let o := front e t xs
  let pass : Work := ⟨h, o0 ++ o.offs, o.uses, [], [], [], [], o.carry⟩
  let row := t + 7 + p.lpre
  let emits (k : Work) (o : Out) (ce : List (Cell × CarryEl)) (own : List Off) : Work :=
    let (ls, os, us) := leave e (t + 9 + r.lat) o.flow ce
    { k with offs := k.offs ++ o.offs ++ own ++ os, uses := k.uses ++ o.uses ++ us, out := ls, carry := o.carry }
  let emitRow (k : Work) (slot : Nat) (fs : List (Cell × FnRes × List Use)) : Work :=
    let o := afterRow e slot ⟨fs.map fun f => (f.1, f.2.1), [], fs.flatMap fun f => f.2.2, k.carry⟩
    emits k o [] (invOffs (t + (if p.post.isEmpty then 9 else 6) + r.lat) o.flow)
  match r.mode with
  | .plain =>
    let ce := match p.lanes with
      | [(_, l)] => if opc l = 0x30 && (ElemW.ofWord l).scarry then carryEls e iw b half cs (ElemW.ofWord l).bslot else []
      | _ => []
    emits pass ⟨o.flow, [], [], o.carry⟩ ce
      (if p.pre.isEmpty || !ce.isEmpty then [] else invOffs (t + 6 + r.lat) o.flow)
  | .land =>
    let (ls, os, us) := landCells e t o.flow
    { pass with landing := ls, offs := pass.offs ++ os, uses := pass.uses ++ us }
  | .imports => pass
  | .sample => { pass with h := offerAll e c h o.flow }
  | m =>
    let (as, os, us) := arrivals e (t + 6 + p.lpre) o.flow
    let k : Work := { pass with offs := pass.offs ++ os, uses := pass.uses ++ us }
    let (fs, ps, os, us) := if r.feeds then feedPlans e u as else ([], [], [], [])
    let k : Work := { k with
      offs := k.offs ++ os, uses := k.uses ++ us
      feeds := if fs.isEmpty then [] else [⟨u, fs.map fun a => a.held (holdFmt w), ps⟩] }
    match m with
    | .vatHold => { k with els := as.map fun a => a.held (holdFmt w) }
    | .fold => emitRow k (row + 1) (as.map fun a => (a.c, foldCell w a, []))
    | .second => emitRow k row (secondEmit e row as)
    | .fused => emitRow k row (as.map fun a => (a.c, emitCell e i w row .vectors (r.base.getD 0 + a.c.row) a))
    | _ => k

/-! ### Terms that enter the tree -/

/-- A held element as it stood at its arrival (log 41). -/
def HElem.arr (a : HElem) (f : Fmt) (c : Nat) : Arr :=
  ⟨⟨a.lane, a.row, a.pos % max c 1, a.pos⟩, decode a.x f, decode a.u f, a.rec4⟩

/-- The terms of a run's lane-beat enter the tree in the present cc (R87, R90): their flags are raised, or a ream of theirs is an illegal
operand. -/
def State.feed (s : State) (n c : Nat) (r : Run) (els : List HElem) : State :=
  let (i, w) := r.prog.rowWord
  match feedAll ⟨s.ctx c, r⟩ (s.ch n) (s.ch n).cyc (els.map fun a => a.arr (holdFmt w) r.prog.hdr.c) with
  | some (h, os) => (s.setCh n h).offend c r.w.pseq os
  | none => s.operand c r i (rnField w)

/-! ### Imports (R102, R346) -/

/-- Record i of a Couch beat. -/
def couchRecord (b : CouchBeat) (i : Nat) : Option RPart :=
  RPart.ofRecord ((List.range 11).map fun j =>
    BitVec.ofNat 64 ((Tbl.look (0 : BitVec 32) b.data (22 * i + 2 * j)).toNat
      + (Tbl.look (0 : BitVec 32) b.data (22 * i + 2 * j + 1)).toNat * 2 ^ 32))

/-- Record j of a beat combined into its shadow in tree cycle u, as record first + j of its tile; after an operand found illegal, nothing
more. A TALLY that passes 2^31 in the shadow raises nothing before the commit (R100). -/
def importRecord (e : Env) (g : IngW) (b : CouchBeat) (first u : Nat) (acc : Channel × Option Nat) (j : Nat) : Channel × Option Nat :=
  match acc with
  | (h, none) =>
    if first + j > g.rcnt then (h, some 92)
    else match e.x.block (g.rbase + (first + j)) 1, couchRecord b j with
      | some [p], some a =>
        if a.kind == .unset then (h, some 100)
        else (match h.shadowFor p e.run.ser a.kind with
          | some s => (h.setShadow p e.run.ser u (s.combine a).1, none)
          | none => (h, some 100))
      | _, _ => (h, some 100)
  | _ => acc

/-- The reams that the records of a beat name, the first of them record first of its tile. -/
def importReams (x : Ctx) (g : IngW) (b : CouchBeat) (first : Nat) : List Nat :=
  (List.range b.nrec.toNat).flatMap fun j => (x.block (g.rbase + (first + j)) 1).getD []

/-- What the presentation of an import beat settles: a count of records that no beat has (log 46). -/
def importWork (e : Env) (h : Channel) (b : CouchBeat) (t : Nat) : Work :=
  let k : Work := ⟨h, [], [], [], [], [], [], []⟩
  match e.run.prog.ingest with
  | some (i, _) => if b.nrec.toNat = 0 || b.nrec.toNat > 46 then { k with uses := [⟨t, i, 116⟩] } else k
  | none => k

/-- The records of a beat enter the tree in the present cc (R90, R99, R102, R291), the first of them this one of its tile (log 46). -/
def State.imports (s : State) (n c : Nat) (r : Run) (b : CouchBeat) (first : Nat) : State :=
  match r.prog.ingest with
  | none => s
  | some (i, w) =>
    match (List.range b.nrec.toNat).foldl (importRecord ⟨s.ctx c, r⟩ (IngW.ofWord w) b first (s.ch n).cyc) (s.ch n, none) with
    | (h, none) => s.setCh n h
    | (_, some f) => s.operand c r i f

end Sys2Proof.Machine
end

