-- ==== Sys2Proof/Machine/Present.lean ====
section
/-! DEFINITION. The presentation of a Couch beat (R318, R319, R321, R324): the choice of a beat, what it reserves and what it brings about,
the pass sequence check, and the end of a tile. -/
namespace Sys2Proof.Machine

/-! ### Results as beats and stash lines -/

/-- The Reel beats, or the beats that a STASH lays out, of what leaves by one egress word (R222, R347), of elements that entered the lanes
in cc entry. -/
def Leave.beats (l : Leave) (c ten ser entry : Nat) : List ReelBeat :=
  (((List.range l.pieces.length).zip l.pieces).flatMap fun kp =>
    pieceBeats { blankBeat c ten 0 (some ser) with egr := l.place, entry := entry } l.w kp.1 kp.2)

/-- The stash lines of a beat in the Reel layout: 32 lines of slots, and for an MX format one of scales (R222) (log 18). -/
def stashLines (b : ReelBeat) : List (Nat × Nat) :=
  (List.range 32).map (fun j =>
    ((b.data.filter fun v => v.1 / 32 == j).foldl (fun n v => n + v.2 * 2 ^ (16 * (v.1 % 32))) 0,
     (b.we.filter fun l => l / 32 == j).foldl (fun n l => n + 3 * 2 ^ (2 * (l % 32))) 0))
  ++ (if b.scv then [(b.scale.foldl (fun n v => n + v.2 * 2 ^ (8 * v.1)) 0, 2 ^ 64 - 1)] else [])

/-- The stash lines of what leaves in cc cc, from the run's next line of each egress word on: the writes, the lines used, and an operand
fault for a line outside the extent (R218). -/
def stashOut (x : Ctx) (r : Run) (ten c cc : Nat) (ls : List Leave) : List StashWr × List Nat × List Use :=
  (ls.filter fun l => l.stash).foldl (fun (acc : List StashWr × List Nat × List Use) l =>
    let lines := (l.beats c ten r.ser 0).flatMap stashLines
    let first := l.w.sline + r.w.sbias + acc.2.1.getD l.place 0
    let used := (List.range 2).map fun p => acc.2.1.getD p 0 + (if p = l.place then lines.length else 0)
    let ws : List StashWr := ((List.range lines.length).zip lines).map fun jl => ⟨cc, r.ser, first + jl.1, l.w.tag, jl.2.1, jl.2.2⟩
    (acc.1 ++ ws, used, acc.2.2 ++ (if first + lines.length > x.extent then [⟨cc, l.idx, 66⟩] else []))) ([], r.stashed, [])

/-- The scan carry of a tile's rows, by tile row as code + 1, as Reel beats (R235, R351). -/
def carryOut (r : Run) (c ten rows : Nat) (carry : Tbl Nat) : List ReelBeat :=
  match r.prog.carryWord with
  | none => []
  | some (place, w) =>
    (List.range ((rows + 1023) / 1024)).flatMap fun b =>
      let vals := (List.range (min 1024 (rows - 1024 * b))).filterMap fun i =>
        match Tbl.look 0 carry (1024 * b + i) with | 0 => none | k + 1 => some (i, k)
      emission { blankBeat c ten 0 (some r.ser) with egr := place, kind := 1, fmt := 0, route := w.route } vals

/-! ### The end of a tile -/

/-- Whether the unit of a row has all its rows before a row count. -/
def Units.closed (n : Units) (k fin : Nat) : Bool := decide ((n.unit k + 1) * max n.div 1 ≤ fin)

/-- Cycle w of a row of a tile that has ended (R153, R154): of its last term, and of the tile-end beat. -/
def Run.rowCommit (r : Run) (row : Nat) : Nat := max (Tbl.look 0 r.rowU row + 9) (r.tEnd + 2)

/-- Cycle w of the unit of a row: of its last row in this tile. -/
def Run.unitCommit (r : Run) (n : Units) (k : Nat) : Nat :=
  let b := r.base.getD 0
  (List.range r.rows).foldl (fun m row => if n.unit (b + row) == n.unit k then max m (r.rowCommit row) else m) (r.tEnd + 2)

/-- Cycle w in which the commit of a tile begins (Table 3-3, Table 8-4). -/
def Run.commitCycle (r : Run) : Nat :=
  if r.mode == .sample then
    max (r.tEnd + 8 + r.prog.lpre + r.prog.halves * r.prog.sortStep) (r.tEnd + 2)
  else max (match r.uLast with | some u => u + 9 | none => 0) (r.tEnd + 2)

/-- Cycle w of a service row of a sampling tile that has ended (Table 8-4): of its last lane-beat in the tile, and of the tile-end beat. -/
def Run.serviceCommit (r : Run) (q : Nat) : Nat :=
  (List.range r.rows).foldl (fun m row =>
    if (r.base.getD 0 + row) / r.prog.sampleW.s = q then max m (Tbl.look 0 r.rowU row + 1) else m) (r.tEnd + 2)

/-- The service rows that stand in a sampling tile, each with its last row there and its cycle w. -/
def Run.serviceParts (r : Run) : List Closing :=
  let of (row : Nat) : Nat := (r.base.getD 0 + row) / r.prog.sampleW.s
  ((List.range r.rows).filter fun row => row + 1 = r.rows || of (row + 1) != of row).map fun row =>
    ⟨row, r.base.getD 0 + row, 0, r.serviceCommit (of row)⟩

/-- The cc in which the commit of a tile takes effect: w + 2 (R87), and w for the sorter and the counter of a sampling tile (R255). -/
def Run.commitDone (r : Run) : Nat := r.commitAt + (if r.mode == .sample then 0 else 2)

/-- The last cc in which the turn presents row group q. -/
def Run.turnLast (r : Run) (q : Nat) : Nat := r.tEnd + 2 + q * (turnStep r.prog.hdr.c + 4) + (turnStep r.prog.hdr.c - 1)

/-- The units that end with a row of the tile (R152, R153, R240). -/
def Run.closings (r : Run) : List Closing :=
  match r.prog.units with
  | none => []
  | some n =>
    let b := r.base.getD 0
    ((List.range r.rows).filter fun row => (b + row + 1) % max n.div 1 == 0).flatMap fun row =>
      (List.range (if n.g = 0 then 1 else r.prog.hdr.w / n.g)).map fun g =>
        ⟨row, b + row, g, if r.mode == .vatHold then r.unitCommit n (b + row) else r.commitCycle⟩

/-- The held elements of a beat that the end of a run's tile emits: those of closed units (R434) (log 42). -/
def HeldBeat.ripe (b : HeldBeat) (r : Run) : List HElem :=
  if r.prog.hdr.mask then (if b.run == r.ser then b.els else [])
  else match r.prog.units with
    | some n => b.els.filter fun e => n.closed (b.base + e.row) (r.base.getD 0 + r.rows)
    | none => []

/-- The lowest row count of some elements of a held beat. -/
def leastRow (b : HeldBeat) (es : List HElem) : Nat := (es.map fun e => b.base + e.row).foldl min (b.base + 65536)

/-- Insertion after the beats of rows that are not higher. -/
def insertHeld (e : HeldBeat × List HElem) : List (HeldBeat × List HElem) → List (HeldBeat × List HElem)
  | [] => [e]
  | a :: r => if leastRow e.1 e.2 < leastRow a.1 a.2 then e :: a :: r else a :: insertHeld e r

/-- The held beats that a run's tile end emits, in the order of their emission (R154) (log 42). -/
def Ctx.emissions (x : Ctx) (r : Run) : List (HeldBeat × List HElem) :=
  let es := ((x.held.filter fun b => b.psel == r.w.psel && b.run ≤ r.ser).map fun b => (b, b.ripe r)).filter fun e => !e.2.isEmpty
  if r.prog.hdr.mask then es else es.foldl (fun l e => insertHeld e l) []

/-- Held beats without the elements that a run's tile end emits. -/
def Ctx.dropEmitted (x : Ctx) (r : Run) : List HeldBeat :=
  (x.held.map fun b =>
    if b.psel == r.w.psel && b.run ≤ r.ser then { b with els := b.els.filter fun e => !(b.ripe r).contains e } else b).filter fun b => !b.els.isEmpty

/-- Cycle w of the rows of a held beat that is emitted: of the last of them, or of the last row of a mask-form tile. -/
def Run.outCommit (r : Run) (e : HeldBeat × List HElem) : Nat :=
  if r.prog.hdr.mask then r.tEnd + turnCycles r.rows r.prog.hdr.c + 10
  else match r.prog.units with
    | some n => (e.2.map fun a => r.unitCommit n (e.1.base + a.row)).foldl max 0
    | none => 0

/-- The cc from which a held beat may be presented on Reel (Table 5-2, R154, R164). -/
def Run.emitFrom (r : Run) (e : HeldBeat × List HElem) : Nat :=
  r.outCommit e + (if r.prog.hdr.mask then 34 else if r.prog.slowTerms then 22 else 32) + r.prog.lpost

/-- The emission slot of a held beat whose first Reel cycle is p (Table 5-2). -/
def Run.emitSlot (r : Run) (p : Nat) : Nat := p - 17 - r.prog.lpost

/-- An operand found illegal at use, as the fault that falls due in its cc (R282). -/
def Run.useFault (r : Run) (c : Nat) (u : Use) : Later :=
  ⟨u.cc, c, some r.ser, .fault fcOperand (ifltWord true (srcOf r.w.psel) u.word (opc (r.prog.words.getD u.word 0)) u.flsb)⟩

/-- The first operand found illegal of several. -/
def Run.useFaults (r : Run) (c : Nat) (us : List Use) : List Later :=
  match firstUse us with | some u => [r.useFault c u] | none => []

/-- Whether the sixteen reams of a mask-form tile do not all lie in the block with KIND SUM (R164). -/
def Ctx.turnBad (x : Ctx) (h : Channel) (r : Run) : Bool :=
  match x.block (match r.prog.units with | some n => n.rn | none => 0) 16 with
  | some ps => ps.any fun p => (h.ream p).com.kind != .sum
  | none => true

/-- A mask-form tile whose sixteen reams are not so is an illegal operand (R164) (log 48). -/
def Ctx.turnUses (x : Ctx) (h : Channel) (r : Run) : List Use :=
  if x.turnBad h r then [⟨r.tEnd + 2, (match r.prog.rowLike with | some w => w.1 | none => 0), 99⟩] else []

/-- Operand faults found when a tile has ended: an import of another number of records (R291), a slot of another number of rows
(R187) (log 40). -/
def Run.endFaults (r : Run) : List Use :=
  if r.mode == .imports then
    (match r.prog.ingest with
     | some (i, w) => if r.records = (IngW.ofWord w).rcnt + 1 then [] else [⟨r.tEnd + 9, i, 92⟩]
     | none => [])
  else r.prog.shapeSlots.filterMap fun q => match r.prog.decl q.2.2 with
    | some d => if d.rows = r.rows then none else some ⟨r.tEnd + 2, q.1, q.2.1⟩
    | none => none

/-- What the end of a run's tile brings about: its commit, that of its service rows, the closes of held rows or the turn, the emission of
held beats, and the words after the ingest (Table 3-3, Table 5-2, R164, R303). -/
def Run.endEvents (r : Run) (c : Nat) : List Later :=
  let on (cc : Nat) (e : Effect) : Later := ⟨cc, c, some r.ser, e⟩
  [on r.commitDone .commit]
    ++ (if r.mode == .sample then r.serviceParts.map fun k => on k.w (.close k) else [])
    ++ (if !r.emitsHeld then []
        else if r.prog.hdr.mask then (List.range ((r.rows + 3) / 4)).flatMap fun q =>
          [on (r.turnLast q) (.turn q), on (r.turnLast q + 10) (.turnClose q)]
        else r.closings.map fun k => on (k.w + 2) (.close k))
    ++ (((List.range r.outs.length).zip r.outs).flatMap fun jo =>
          let (lane, row) := match jo.2.2 with | a :: _ => (a.lane, a.row) | [] => (0, 0)
          [on (r.outCommit jo.2) (.reserve jo.1 lane row), on (r.outCommit jo.2 + 2) (.emit jo.1)])
    ++ (if r.after.isEmpty then [] else [on (r.commitAt + 3) .after])

/-- The tile of a run has ended and passed its check (R324): the row count advances (R287), records are released (R221), and what follows
is due. -/
def State.endTile (s : State) (n c ser : Nat) : State :=
  let x := s.ctx c
  match x.run ser with
  | none => s
  | some r =>
    let r := { r with phase := .ended, commitAt := r.commitCycle, outs := if r.emitsHeld then x.emissions r else [] }
    let h := s.ch n
    let rel := match r.prog.readsLoft with | some w => w.rel | none => false
    let h := if rel then r.readIdx.foldl (fun h i => h.release c i 1) h else h
    let turn := if r.emitsHeld && r.prog.hdr.mask then x.turnUses h r else []
    let s := s.setCh n (h.defer (r.endEvents c ++ r.useFaults c turn))
    let s := s.modCtx c fun x =>
      { x.modRun ser fun _ => r with
        held := if r.emitsHeld then x.dropEmitted r else x.held
        cnts := if r.prog.closes r.w.cbase then x.cnts.set r.count (r.base.getD 0 + r.rows) else x.cnts }
    (s.fixCounts c).markDone c ser

/-- A sequence error (R324): the beat is discarded and the context faults. -/
def State.seqError (s : State) (c : Nat) : State := (s.raise c flSequence).fault c fcSequence 0

/-- The tile-end check, in the cc after the tile-end beat (R34, R324). -/
def State.tileCheck (s : State) (n c ser pseq : Nat) : State :=
  match (s.ctx c).run ser with
  | some r => if pseq == r.w.pseq then s.endTile n c ser else s.seqError c
  | none => s

/-! ### Presentation -/

/-- The work of the lane-beats of a beat in order. -/
def laneWorks (e : Env) (c : Nat) (b : CouchBeat) : List (Nat × Nat × Nat × List Cell) → Work → Work × List Leave
  | [], k => (k, [])
  | (half, t, u, cs) :: rest, k =>
    let w := laneWork { e with run := { e.run with carryIn := k.carry } } c k.h b half t u cs
    let (k', ls) := laneWorks e c b rest
      { w with offs := k.offs ++ w.offs, uses := k.uses ++ w.uses, feeds := k.feeds ++ w.feeds, els := k.els ++ w.els
               landing := k.landing ++ w.landing, out := [] }
    (k', w.out ++ ls)

/-- The run after a beat. -/
def Run.advance (r : Run) (x : Ctx) (b : CouchBeat) (t : Nat) (us : List Nat) (cells : List (List Cell)) (k : Work)
    (stashed : List Nat) : Run :=
  let beats := r.beats + r.prog.halves
  let lastU : Option Nat := us.getLast?
  let ends := if r.mode == .sample then (List.range cells.length).map fun i => t + 7 + r.prog.lpre + (i + 1) * r.prog.sortStep else us
  { r with
    beats := beats
    rows := if r.mode == .imports then 0 else r.prog.hdr.tileRows x.lgmask.toNat beats
    lastT := t + (r.prog.halves - 1)
    tEnd := t
    uLast := match lastU with | some u => some u | none => r.uLast
    rowU := (ends.zip cells).foldl (fun m uc => (cellRows uc.2).foldl (fun m row => Tbl.put 0 m row uc.1) m) r.rowU
    records := r.records + (if r.mode == .imports then b.nrec.toNat else 0)
    landing := Tbl.puts (0, 0) r.landing k.landing
    carryIn := k.carry
    readIdx := (r.readIdx ++ r.recNeeds cells.flatten).eraseDups
    stashed := stashed }

/-- The copies that a run fills are FILLING from its first beat on (R185, Table 6-5). -/
def Ctx.beginFill (x : Ctx) (r : Run) : Ctx :=
  r.fills.foldl (fun x t => x.modCopy t.1 t.2 fun k => { k with st := .filling, writer := r.ser }) x

/-- The oldest beat of a context leaves the buffer; its credit is freed (R316). -/
def Channel.takeBeat (h : Channel) (ser : Nat) : Channel := { h with couch := h.couch.filter fun b => b.ser != ser }

/-- What the lane-beats of a presented beat come to: their work on the channel, what leaves, stash lines with the lines used, the
run after the beat, the operands that turn out illegal, the reams of its records. -/
structure BeatDone where
  k : Work
  leaves : List Leave
  stash : List StashWr
  run : Run
  uses : List Use
  reams : List Nat
  deriving DecidableEq, Repr

/-- The work of a beat of run r that is presented in cc t. -/
def State.beatWork (s : State) (n c : Nat) (r : Run) (b : CouchBeat) (t : Nat) : BeatDone :=
  let x := s.ctx c
  let r := r.recall x (s.ch n)
  let cells := r.nextCells x
  let (h, us) := ((s.ch n).treeTakes x c r b.eot t).getD (s.ch n, [])
  let e : Env := ⟨x, r⟩
  let lanes := ((List.range cells.length).zip cells).map fun ic => (ic.1, t + ic.1, us.getD ic.1 (t + ic.1 + r.prog.treeAt), ic.2)
  let start : Work := ⟨h, [], [], [], [], [], [], r.carryIn⟩
  let (k, ls) := if r.mode == .imports then (importWork e h b t, []) else laneWorks e c b lanes start
  let (sw, stashed, su) := stashOut x r x.ten c (t + 9 + r.lat) ls
  let r' := r.advance x b t us cells k stashed
  let g := match r.prog.ingest with | some (_, w) => IngW.ofWord w | none => IngW.ofWord 0
  ⟨k, ls, sw, r', k.uses ++ su ++ (if b.eot then r'.endFaults else []), if r.mode == .imports then importReams x g b r.records else []⟩

/-- What a presented beat is still to bring about (R87, R115, R282, R309, R324): its flags, terms, records, operands that turn out illegal,
and the tile-end check. -/
def Run.beatEvents (r : Run) (c : Nat) (b : CouchBeat) (t : Nat) (d : BeatDone) : List Later :=
  let on (cc : Nat) (e : Effect) : Later := ⟨cc, c, some r.ser, e⟩
  laterOffs c (some r.ser) r.w.pseq d.k.offs
    ++ (d.k.feeds.map fun f => on f.u (.feed f.els f.reams))
    ++ (if r.mode == .imports then [on (d.run.uLast.getD (t + 9)) (.imports b r.records d.reams)] else [])
    ++ r.useFaults c d.uses
    ++ (if b.eot then [on (t + 1) (.check b.pseq.toNat)] else [])

/-- Presentation of a beat of a run that every condition of R318 permits, in cc t (log 44). -/
def State.presentBeat (s : State) (n c : Nat) (r : Run) (b : CouchBeat) (t : Nat) : State :=
  let x := s.ctx c
  let d := s.beatWork n c r b t
  let res := (d.leaves.filter fun l => !l.stash).flatMap fun l => l.beats c x.ten r.ser (t + 7)
  let beats := dated (res ++ (if b.eot && r.carriesNow then carryOut r c x.ten d.run.rows d.run.carryIn else [])) (r.reelCycles x b.eot t)
  let gap := r.prog.sortStep * r.prog.halves
  let h := { d.k.h with
    laneRes := d.k.h.laneRes ++ (r.laneCycles t).map fun cc => LaneSlot.mk c r.ser cc t false
    scanRes := match r.scanAt with
      | some a => d.k.h.scanRes ++ [ScanSlot.mk c r.ser (t + a) (r.prog.scanGap * r.prog.halves) (r.rowsAbreast x)]
      | none => d.k.h.scanRes
    sortFree := if r.mode == Mode.sample then t + 7 + r.prog.lpre + gap else d.k.h.sortFree }
  let s := (s.setCh n (h.defer (r.beatEvents c b t d))).modCtx c fun x =>
    { (if r.beats = 0 then x.beginFill d.run else x).modRun r.ser fun _ =>
        { d.run with phase := if b.eot then .checking else .started } with
      held := if d.k.els.isEmpty then x.held else x.held ++ [⟨r.ser, r.w.psel, r.base.getD 0, r.w.pseq, d.k.els, r.prog.stashNeed⟩]
      stashQ := x.stashQ ++ d.stash
      lastEnd := if b.eot then t else x.lastEnd }
  s.present c (some r.ser) beats

/-! ### The choice of a beat -/

/-- A context with a buffered beat of a started run, and the first cc in which the beat may be presented (R315, R318). -/
structure Cand where
  ctx : Nat
  beat : BufBeat
  run : Run
  ready : Nat
  deriving DecidableEq, Repr

def State.cand (s : State) (n c : Nat) : Option Cand :=
  let x := s.ctx c
  match (s.ch n).couch.find? fun b => b.beat.ctx.val == c, x.runs.find? fun r => r.phase == .started with
  | some b, some r => some ⟨c, b, r, max (b.arrived + 1) (max (r.start + 15) (x.lastEnd + 1))⟩
  | _, _ => none

/-- Insertion by (arrival, context) (R319). -/
def insertCand (e : Cand) : List Cand → List Cand
  | [] => [e]
  | a :: r => if e.beat.arrived < a.beat.arrived || (e.beat.arrived == a.beat.arrived && decide (e.ctx < a.ctx)) then e :: a :: r
      else a :: insertCand e r

/-- Contexts with a beat to present, the oldest first. -/
def State.cands (s : State) (n : Nat) : List Cand :=
  ((s.ch n).alloc.filterMap fun a => s.cand n a.ctx).foldr insertCand []

/-- What the beats that are ready in a cc come to: stalls, and the first that every condition permits. A beat that would be presented but
is out of sequence is discarded and faults its context (R324), and one whose operand is illegal faults its context (log 44). -/
structure Poll where
  s : State
  win : Option (Cand × Run)
  stalls : List (Nat × Cause)
  deriving DecidableEq, Repr

def Poll.step (n t : Nat) (p : Poll) (q : Cand) : Poll :=
  match p.s.verdict n q.ctx q.run q.beat.beat t with
  | (s, .stall k) => { p with s := s, stalls := p.stalls ++ [(q.ctx, k)] }
  | (s, .operand w f) => { p with s := s.operand q.ctx q.run w f }
  | (s, .go r) => match p.win with
    | some _ => { p with s := s, stalls := p.stalls ++ [(q.ctx, .lane)] }
    | none =>
      if q.beat.beat.sot != (r.beats = 0 && r.records = 0) then
        { p with s := (s.modCh n fun h => h.takeBeat q.beat.ser).seqError q.ctx }
      else { p with s := s, win := some (q, r) }

/-- The stalls of beats in a cc in which Couch is not commanded (R321): of those that a condition of R318 keeps back (log 4). -/
def State.beatStalls (s : State) (n t : Nat) : List (Nat × Cause) :=
  ((s.cands n).filter fun q => q.ready ≤ t).filterMap fun q => match (s.verdict n q.ctx q.run q.beat.beat t).2 with
    | .stall k => some (q.ctx, k)
    | _ => none

/-- Whether a started run of a context waits on the host for beats in a cc (R322). A beat is buffered up to the cc before that in which it is
presented (log 101). -/
def State.starved (s : State) (n c t : Nat) : Bool :=
  let x := s.ctx c
  (match x.runs.find? fun r => r.phase == .started with
   | some r => r.holds && decide (r.start + 15 ≤ t)
   | none => false) && (s.ch n).couch.all fun b => b.beat.ctx.val != c

end Sys2Proof.Machine
end

