-- ==== Sys2Proof/Machine/Commit.lean ====
section
/-! DEFINITION. What follows the end of a tile (R87, R91): the commit of its shadows and slot copies, row closes with their statistics,
records and losses (R145, R150, R157, R162, R209, R243, R245), the turn of a mask-form tile (R164), the emission of held rows (R141,
R154, R320), and sampling (R248 to R253). -/
namespace Sys2Proof.Machine

/-! ### Shadows and copies -/

/-- The shadows of a run, of those reams that a test names, combined into the committed parts and released (R91), with the saturation
that this raises (R100). The cc of the release is kept for an RCLOSE that waits for it (R87). -/
def Channel.commitShadows (h : Channel) (ser : Nat) (p : Nat → Bool) : Channel × Flags :=
  h.reams.foldl (fun acc e => match e.2.sh with
    | some d => if d.run == ser && p e.1 then
        let (c, f) := e.2.com.combine d.part
        ({ acc.1.setReam e.1 ⟨c, none⟩ with freed := Tbl.put 0 acc.1.freed e.1 h.cyc }, acc.2 ||| f) else acc
    | none => acc) (h, flNone)

def State.commitShadows (s : State) (n c ser : Nat) (p : Nat → Bool) : State :=
  let (h, sat) := (s.ch n).commitShadows ser p
  (s.setCh n h).raise c sat

/-- A copy that a landing run fills is FULL with what it landed (R185, R200). -/
def Ctx.commitLanding (x : Ctx) (r : Run) : Ctx :=
  match r.prog.lands with
  | none => x
  | some (_, slot) => match taken r.fills slot with
    | some i => x.modCopy slot i fun k => { k with st := .full, order := r.ser, data := r.landing, writer := r.ser }
    | none => x

/-- Landing copies that the run read are EMPTY again (Table 6-5). -/
def Ctx.commitReads (x : Ctx) (r : Run) : Ctx :=
  (r.takes.foldl (fun x t => if r.prog.role t.1 == 1 then x.modCopy t.1 t.2 fun k => { k with st := .empty, data := [] } else x) x).modRun
    r.ser fun q => { q with takes := q.takes.filter fun t => r.prog.role t.1 != 1 }

/-- Whether held beats of a run are still to be emitted. -/
def Channel.emitting (h : Channel) (ser : Nat) : Bool :=
  h.due.any fun e => e.run == some ser && (match e.what with | .reserve _ _ _ => true | .emit _ => true | _ => false)

/-- Landing copies that a committed run read are EMPTY again once the last of its held beats has been emitted (log 87). -/
def State.readsEnd (s : State) (n c ser : Nat) : State :=
  match (s.ctx c).run ser with
  | some r => if r.phase == .committed && !(s.ch n).emitting ser then s.modCtx c fun x => x.commitReads r else s
  | none => s

/-! ### Row close -/

/-- cc after w in which a close raises its flags (R154). -/
def closeLag (w : IWord) : Nat := if opc w = 0x40 && 2 ≤ (RowW.ofWord w).op then 14 else 4

/-- The statistics record of the last element of a row that a backward close uses (R209): the run has read it. -/
def Env.closeRecord (e : Env) (w : IWord) (n : Units) (c : Closing) : Nat :=
  if opc w = 0x50 then e.record (e.run.prog.recIndex (RowbW.ofWord w) e.run.w.rbias c.k (c.grp * n.g)) else 0

/-- The reams of a unit, or of a group of it, that closes. -/
def Env.closingReams (e : Env) (n : Units) (c : Closing) : Option (List Nat) :=
  e.x.block (n.ream c.k (c.grp * n.g)) e.run.prog.kinds.length

/-- What some closes come to: the closed units, their flags, operands that turn out illegal. -/
structure Closes where
  cs : List Closed
  offs : List Off
  uses : List Use
  deriving DecidableEq, Repr

/-- One close over committed reams (R145, R150, R209, R243). -/
def closeOneUnit (e : Env) (h : Channel) (i : Nat) (w : IWord) (n : Units) (c : Closing) : Closes :=
  let x := XentW.ofWord w
  match (if opc w = 0x70 then e.target x c.row else some 0), e.closingReams n c with
  | some t, some ps =>
    let (st, rec4, loss, fl) := closeUnit w (x.s * e.run.prog.hdr.w) t (e.closeRecord w n c) (ps.map fun p => (h.ream p).com)
    ⟨[⟨c, st, rec4, loss, opc w == 0x70 && t == 0xFFFFFFFF⟩],
      if fl = flNone then [] else [⟨fl, c.w + closeLag w, c.row, colOnes⟩], []⟩
  | none, _ => ⟨[], [], [⟨c.w + closeLag w, i, 80⟩]⟩
  | _, none => ⟨[], [], [⟨c.w + closeLag w, i, rnField w⟩]⟩

/-- Closes of several units over committed reams. -/
def closeUnits (e : Env) (h : Channel) (cl : List Closing) : Closes :=
  match e.run.prog.rowLike, e.run.prog.units with
  | some (i, w), some n => cl.foldl (fun m c =>
      let k := closeOneUnit e h i w n c
      ⟨m.cs ++ k.cs, m.offs ++ k.offs, m.uses ++ k.uses⟩) ⟨[], [], []⟩
  | _, _ => ⟨[], [], []⟩

/-- The statistics entries of a closed row under fold: (slot, row count, FP32 code), in the slots that the word names (R157). -/
def Run.statEntries (r : Run) (cs : List Closed) : List (Nat × Nat × Nat) :=
  match r.prog.statFills with
  | none => []
  | some (m, slot) => cs.flatMap fun c => match c.st with
      | .norm mu q => (slot, c.c.k, q) :: (match m with | some sl => [(sl, c.c.k, mu)] | none => [])
      | .smax q => [(slot, c.c.k, q.d)]
      | _ => []

/-- The copy of a statistics slot for the row group of a row count is FULL for that group (Table 6-5). -/
def Ctx.openStat (x : Ctx) (ser sl k : Nat) : Ctx :=
  match x.slot sl with
  | none => x
  | some s =>
    let (i, g, _) := statPlace s.decl k
    x.modCopy sl i fun c =>
      { (if c.st == .full && c.group == g then c else { c with data := [] }) with st := .full, group := g, order := ser, writer := ser }

/-- A statistics entry is written (R157). -/
def Ctx.putStat (x : Ctx) (sl k v : Nat) : Ctx :=
  match x.slot sl with
  | none => x
  | some s =>
    let (i, g, e) := statPlace s.decl k
    x.modCopy sl i fun c => if c.group == g then { c with data := Tbl.put (0, 0) c.data e (v, 1) } else c

/-- The Loft records of closed units (R162, R245), in w + 20 (R163), and operand faults for an index outside the extent (R218)
(log 48). -/
def Ctx.records (x : Ctx) (r : Run) (cs : List Closed) : List RecWrite × List Use :=
  match r.prog.recBase, r.prog.units with
  | some b, some n =>
    let ws := (cs.filter fun c => !c.ignored).map fun c => (c, (b + r.w.rbias + r.prog.recKey n c.c.k c.c.grp) % 2 ^ 32)
    let (i, w) := r.prog.rowWord
    (ws.map fun q => ⟨q.1.c.w + 20, r.ser, q.2, q.1.record⟩,
      (ws.filter fun q => x.outside q.2 1).map fun q => ⟨q.1.c.w + 20, i, if opc w = 0x40 then 24 else 15⟩)
  | _, _ => ([], [])

/-- CTXIFLT of an operand of a run's word that is found illegal. -/
def Run.iflt (r : Run) (word flsb : Nat) : BitVec 64 :=
  ifltWord true (srcOf r.w.psel) word (opc (r.prog.words.getD word 0)) flsb

/-- The losses of closed service rows for the batch ream, in w + 20 (R245), and operand faults for a ream outside the block (log 48). -/
def Ctx.losses (x : Ctx) (c : Nat) (r : Run) (cs : List Closed) : List Later × List Use :=
  let (i, w) := r.prog.rowWord
  let b := XentW.ofWord w
  let ls := if opc w != 0x70 || !b.bp then [] else cs.filter fun k => k.loss.isSome
  match x.block b.bream 1 with
  | some [p] => (ls.map fun k => ⟨k.c.w + 20, c, some r.ser, .loss p (k.loss.getD 0) k.c.row r.w.pseq (r.iflt i 84)⟩, [])
  | _ => ([], ls.map fun k => ⟨k.c.w + 20, i, 84⟩)

/-- What closes bring about: the row states for the emission, the records that wait to be written, and in later cc flags, statistics
entries, losses and operands that turn out illegal. -/
def State.closed (s : State) (n c : Nat) (r : Run) (k : Closes) : State :=
  let x := s.ctx c
  let (recs, ru) := x.records r k.cs
  let (ls, lu) := x.losses c r k.cs
  let st := r.statEntries k.cs
  let s := s.modCtx c fun x =>
    { (st.foldl (fun x e => x.openStat r.ser e.1 e.2.1) x).modRun r.ser fun q => { q with closed := q.closed ++ k.cs } with
      recQ := x.recQ ++ recs }
  s.modCh n fun h => h.defer (laterOffs c (some r.ser) r.w.pseq k.offs
    ++ st.map (fun e => ⟨r.commitAt + 20, c, some r.ser, .stat e.1 e.2.1 e.2.2⟩)
    ++ ls ++ r.useFaults c (k.uses ++ ru ++ lu))

/-- A loss is added to the batch ream's committed part, past the shadow (R245) (log 48). -/
def State.addLoss (s : State) (n c p v row pseq : Nat) (iflt : BitVec 64) : State :=
  let q := (s.ch n).ream p
  if q.com.kind != .sum then s.fault c fcOperand iflt
  else
    let (d, f) := (RPart.clear .sum).admitSum (f32v v)
    let (a, g) := q.com.combine d
    (s.modCh n fun h => h.setReam p { q with com := a }).offend c pseq
      (if f ||| g = flNone then [] else [⟨f ||| g, (s.ch n).cyc, row, colOnes⟩])

/-! ### Sampling -/

/-- The record of a sampled row (Table 8-3). -/
def sampleRecord (pos prob : Nat) (ctr : BitVec 64) (status : Nat) : Nat :=
  pos + prob * 2 ^ 32 + ctr.toNat % 2 ^ 32 * 2 ^ 64 + status * 2 ^ 96

/-- The cc in which the selection of a service row whose commit began in cc w completes (Table 8-4); its invalid is raised in that cc
(log 89). -/
def Prog.selected (p : Prog) (w : Nat) : Nat := w + 14 + (p.sampleW.k + 15) / 16

/-- Whether a run closes the service row that ends with a row count (R240). -/
def Run.endsService (r : Run) (k : Nat) : Bool := r.prog.closes r.w.cbase && (k + 1) % r.prog.sampleW.s == 0

/-- A service row is selected (R249 to R253): its record under the present counter, the counter advanced, the row no longer open. -/
def State.sampleClose (s : State) (n c : Nat) (r : Run) (k : Closing) : State :=
  let w := r.prog.sampleW
  let x := s.ctx c
  let key := sortKey r w.s k.k
  let cand := match (s.ch n).sorter.find? fun e => e.ctx == c && e.row == key with | some e => e.com | none => []
  let (pos, prob, st, inv) := sampleSelect cand (elemFmt w.hfmt) w.p (jmix r.key r.strm x.smpctr)
  let cc := r.prog.selected k.w
  let wr : SmpWr := ⟨cc, k.w, r.ser, w.win, 16 * w.roff + 16 * (x.smpctr.toNat % 2 ^ w.rlog), sampleRecord pos prob x.smpctr st, w.evt⟩
  let os : List Off := if inv then [⟨flInvalid, cc, k.row, colOnes⟩] else []
  (s.modCh n fun h => { h.defer (laterOffs c (some r.ser) r.w.pseq os) with
    sorter := h.sorter.filter fun e => !(e.ctx == c && e.row == key) }).modCtx c fun x =>
      { x with smpctr := x.smpctr + 1, smpQ := x.smpQ ++ [wr] }

/-- The candidates that a sampling tile has for a service row are committed, and a row that ends with the tile is selected (Table 8-4)
(log 103). -/
def State.commitSample (s : State) (n c : Nat) (r : Run) (k : Closing) : State :=
  let w := r.prog.sampleW
  let s := s.modCh n fun h => { h with
    sorter := h.sorter.map fun q => if q.ctx == c && q.row == sortKey r w.s k.k then q.commit r.ser w.k (elemFmt w.hfmt) else q }
  if r.endsService k.k then s.sampleClose n c r k else s

/-! ### The close of a held row -/

/-- The commit of a held row, or of a group of it, completes, and it closes over its committed reams (R145, R153); an RCLOSE that waited for
them acts (R87). A service row of a sampling tile is committed and, where it ends, selected (R255). -/
def State.closeUnit (s : State) (n c ser : Nat) (k : Closing) : State :=
  match (s.ctx c).run ser with
  | none => s
  | some r =>
    if r.mode == .sample then s.commitSample n c r k
    else
      let ps := match r.prog.units with | some u => ((Env.mk (s.ctx c) r).closingReams u k).getD [] | none => []
      let s := s.commitShadows n c ser fun p => ps.contains p
      (s.closed n c r (closeUnits ⟨s.ctx c, r⟩ (s.ch n) [k])).settle c

/-! ### The turn of a mask-form tile (R164) -/

/-- The held elements of a tile row of a mask-form tile, as FP32-exact values with their positions. -/
def Run.turnRow (r : Run) (f : Fmt) (row : Nat) : List (Nat × Val) :=
  r.outs.flatMap fun b => (b.2.filter fun e => e.row == row).map fun e => (e.pos, decode e.x f)

/-- The tile rows of row group q. -/
def Run.turnRows (r : Run) (q : Nat) : List Nat := ((List.range 4).map fun i => 4 * q + i).filter fun row => row < r.rows

/-- The first ream of the pair that a tile row takes in the turn. -/
def Run.turnPair (r : Run) (x : Ctx) (row : Nat) : Nat :=
  x.reambase + (match r.prog.units with | some n => n.rn | none => 0) + 8 * (row / 4 % 2) + 2 * (row % 4)

/-- The terms of row group q stand in the committed words of its pairs, past the shadows, all from the group's last presentation cc on
(log 105: R87 and Table 3-3 give a tree cycle to terms that enter a shadow and none to these). No term is added while one of the sixteen reams
lies outside the block or has another kind (R80, R81). -/
def State.turn (s : State) (n c ser q : Nat) : State :=
  match (s.ctx c).run ser with
  | none => s
  | some r =>
    let (i, w) := r.prog.rowWord
    if (s.ctx c).turnBad (s.ch n) r then s.operand c r i 99
    else (r.turnRows q).foldl (fun s row =>
      let h := s.ch n
      let p := r.turnPair (s.ctx c) row
      let (a, b, os) := feedSum (h.ream p).com (h.ream (p + 1)).com
        ((r.turnRow (holdFmt w) row).map fun x => (⟨0, row, x.1, x.1⟩, x.2, (binop .mul x.2 x.2).1)) h.cyc
      (s.setCh n ((h.setReam p ⟨a, (h.ream p).sh⟩).setReam (p + 1) ⟨b, (h.ream (p + 1)).sh⟩)).offend c r.w.pseq os) s

/-- The close unit has taken the words of row group q, 9 cc after its last presentation, and the pairs are cleared to SUM. -/
def State.turnClose (s : State) (n c ser q : Nat) : State :=
  match (s.ctx c).run ser with
  | none => s
  | some r =>
    let (_, w) := r.prog.rowWord
    let x := s.ctx c
    let h := s.ch n
    let at9 := r.turnLast q + 9
    let ks : List (Closed × Flags) := (r.turnRows q).map fun row =>
      let p := r.turnPair x row
      let (st, rec4, _, fl) := Sys2Proof.Machine.closeUnit w 0 0 0 [(h.ream p).com, (h.ream (p + 1)).com]
      (⟨⟨row, r.base.getD 0 + row, 0, at9⟩, st, rec4, none, false⟩, fl)
    let h := (r.turnRows q).foldl (fun h row =>
      let p := r.turnPair x row
      (h.setReam p ⟨RPart.clear .sum, (h.ream p).sh⟩).setReam (p + 1) ⟨RPart.clear .sum, (h.ream (p + 1)).sh⟩) h
    (s.setCh n h).closed n c r ⟨ks.map fun k => k.1,
      (ks.filter fun k => k.2 != flNone).map fun k => ⟨k.2, at9 + 14, k.1.c.row, colOnes⟩, []⟩

/-! ### Emission of held rows (R141, R146, R148, R151, R154, R210, R244, R320) -/

/-- The cc after which a channel has nothing reserved. -/
def Channel.horizon (h : Channel) : Nat :=
  let m (a : Nat) (l : List Nat) : Nat := l.foldl max a
  m (m (m (m (m h.sortFree (h.egress.map fun b => b.due)) (h.reelRes.map fun r => r.cc)) (h.laneRes.map fun r => r.cc))
    (h.scanRes.map fun r => r.lo + r.n)) (h.treeRes.map fun r => r.hi + 5)

/-- Lane slots of a held beat at its emission (R141): one for the operation and those of the stages after it. -/
def Run.emitSlots (r : Run) : Nat := 1 + sumSlots r.prog.post

/-- cc from the emission slot to the scan stage of the stages after a row operation. -/
def Run.postScan (r : Run) : Option Nat :=
  if r.prog.post.any fun s => opc s.w = 0x60 then some (12 + sumLat (r.prog.post.takeWhile fun s => opc s.w != 0x60)) else none

/-- Rows that stand in some held elements. -/
def rowsOf (es : List HElem) : Nat := ((es.map fun e => e.row).eraseDups).length

/-- The Reel cycles of an emission whose first is p: the next ones that are not reserved (R320). -/
def Channel.emitCycles (h : Channel) (r : Run) (p : Nat) : List Nat :=
  p :: (if r.prog.reelBeats = 0 then [] else h.freeReel (p + 1) (r.prog.reelBeats - 1))

/-- Whether the emission of a held beat may begin on Reel in cc p (R154, R320): Reel and the lanes are free of other emissions, the carry
chain can take it (R237), and result beats of the context keep the order in which their elements entered the lanes (R116) and, on the broke
route, that of the runs (R196). -/
def State.emitFits (s : State) (n c : Nat) (r : Run) (es : List HElem) (p : Nat) : Bool :=
  let h := s.ch n
  let slot := r.emitSlot p
  let m := (s.ctx c).lgmask
  let ccs := h.emitCycles r p
  (decide (r.prog.reelBeats = 0) || !h.reelTaken p)
    && (h.laneRes.all fun q => !q.emit || !(decide (slot ≤ q.cc ∧ q.cc < slot + r.emitSlots)) || ((s.ctx q.ctx).lgmask &&& m) == 0)
    && (match r.postScan with | some a => h.scanFits c (slot + a) r.prog.scanGap (rowsOf es) | none => true)
    && (decide (r.prog.reelBeats = 0) || (h.inOrder c slot p (ccs.foldl max 0)
      && (r.brokeOf ccs.length ccs).all fun cc => (h.brokeTaken (s.ctx c) c r.ser).all fun u => decide (u < cc)))

/-- The last cycle that the emissions of a run before held beat j have taken. Cycles of a scan carry behind held beat i stand under the
number of held beats + i. -/
def Run.emittedTo (r : Run) (j : Nat) : Nat :=
  (r.emitAt.filter fun e => e.1 % r.outs.length < j).foldl (fun m e => e.2.foldl max m) 0

/-- The first Reel cycle of held beat j (R154, R320), later by as much as its reservation was put off. -/
def State.emitCycle (s : State) (n c : Nat) (r : Run) (j : Nat) (e : HeldBeat × List HElem) : Nat :=
  let lo := max (r.emitFrom e + ((s.ch n).cyc - r.outCommit e)) (r.emittedTo j + 1)
  lo + ((List.range ((s.ch n).horizon + 18 + r.prog.lpost - lo + 1)).find? fun i => s.emitFits n c r e.2 (lo + i)).getD 0

/-- Emission slots of a run in some cc: a beat with an arrival slot there waits, and its slots that have not issued move together, so that
they stay in consecutive cc (R114), to the next cc in which their lanes are free (R141) (log 88). -/
def State.yieldLanes (s : State) (n c ser : Nat) (ccs : List Nat) : State :=
  let meets (a b : Nat) : Bool := ((s.ctx a).lgmask &&& (s.ctx b).lgmask) != 0
  let h := s.ch n
  let beats := ((h.laneRes.filter fun q => !q.emit && ccs.contains q.cc && meets q.ctx c).map fun q => (q.ctx, q.beat)).eraseDups
  let (moved, kept) := h.laneRes.partition fun q => !q.emit && decide (h.cyc < q.cc) && beats.contains (q.ctx, q.beat)
  let kept := kept ++ ccs.map fun cc => LaneSlot.mk c ser cc 0 true
  let placed := beats.foldl (fun l b =>
    let qs := moved.filter fun q => (q.ctx, q.beat) == b
    let far := (l.map fun o => o.cc).foldl max 0
    let i := ((List.range (far - h.cyc + 2)).find? fun i => qs.all fun q => l.all fun o => !(o.cc == q.cc + i && meets o.ctx q.ctx)).getD 0
    l ++ qs.map fun q => { q with cc := q.cc + i }) kept
  s.setCh n { h with laneRes := placed }

/-- The number of Reel beats that carry the scan carry of a tile of some rows (R235). -/
def carryLen (rows : Nat) : Nat := 2 * ((rows + 1023) / 1024)

/-- The first cc from one on in which the scan carry of a run may leave (R196). -/
def State.carryFrom (s : State) (n c : Nat) (r : Run) (cc : Nat) : Nat :=
  if r.prog.carryWord.any fun w => w.2.route then (s.ch n).brokeFrom (s.ctx c) c r.ser cc else cc

/-- The scan carries of one held run, by tile row. -/
def carriesOf (run : Nat) (t : Tbl Nat) : Tbl Nat := (t.filter fun e => e.1 / 2 ^ 32 == run).map fun e => (e.1 % 2 ^ 32, e.2)

/-- The rows of the tile, the last of whose results held beat j of a run is: its scan carry then leaves (R235). none: it is not the last, or
its carry leaves otherwise. A scan before the row operation leaves that of the run's own tile only (log 86). -/
def Ctx.carryRows (x : Ctx) (r : Run) (j : Nat) : Option Nat :=
  match r.outs[j]? with
  | none => none
  | some (b, _) =>
    let own := b.run == r.ser
    if !r.carriesLater || (r.outs.drop (j + 1)).any (fun q => q.1.run == b.run) then none
    else if r.prog.scansFirst then (if own then some r.rows else none)
    else if x.held.any fun q => q.run == b.run then none
    else
      let rows := ((r.outs.filter fun q => q.1.run == b.run).flatMap fun q => q.2.map fun e => e.row)
        ++ (carriesOf b.run x.carries).map fun e => e.1
      some ((rows.foldl max 0) + 1)

/-- Whether earlier work of a context is still to fix Reel cycles of the broke route (R196): what a run puts there then waits. -/
def State.brokeWaits (s : State) (n c : Nat) (r : Run) : Bool :=
  r.prog.brokes && (s.ctx c).runs.any fun q => q.ser < r.ser && (s.ch n).brokeLeft q

/-- The reservation for held beat j, and its emission, are put off by a cc. -/
def State.putOff (s : State) (n c ser j : Nat) (e : HeldBeat × List HElem) : State :=
  let (lane, row) := match e.2 with | a :: _ => (a.lane, a.row) | [] => (0, 0)
  s.modCh n fun h =>
    ({ h with due := h.due.filter fun q => !(q.ctx == c && q.run == some ser && q.what == Effect.emit j) }).defer
      [⟨h.cyc + 1, c, some ser, .reserve j lane row⟩, ⟨h.cyc + 3, c, some ser, .emit j⟩]

/-- Reel cycles, lane slots and the carry chain are reserved for held beat j at the close of its rows (R320), and behind the last of a
tile's the cycles of its scan carry (R235); on the broke route behind those of earlier runs (R196) (log 93). -/
def State.reserve (s : State) (n c ser j : Nat) : State :=
  match (s.ctx c).run ser with
  | none => s
  | some r => match r.outs[j]? with
    | none => s
    | some e =>
      if s.brokeWaits n c r then s.putOff n c ser j e else
      let p := s.emitCycle n c r j e
      let slot := r.emitSlot p
      let ccs := (s.ch n).emitCycles r p
      let s := s.yieldLanes n c ser ((List.range r.emitSlots).map fun i => slot + i)
      let s := s.modCh n fun h => { h with
        reelRes := if r.prog.reelBeats = 0 then h.reelRes else h.reelRes ++ ccs.map fun cc => ⟨c, ser, cc, slot⟩
        scanRes := match r.postScan with
          | some a => h.scanRes ++ [ScanSlot.mk c ser (slot + a) r.prog.scanGap (rowsOf e.2)]
          | none => h.scanRes }
      let more := match (s.ctx c).carryRows r j with
        | some rows => (s.ch n).freeReel (s.carryFrom n c r (ccs.foldl max 0 + 1)) (carryLen rows)
        | none => []
      let emitAt := Tbl.put [] (Tbl.put [] r.emitAt j ccs) (r.outs.length + j) more
      let s := s.modCh n fun h => { h with reelRes := h.reelRes ++ more.map fun cc => ⟨c, ser, cc, slot⟩ }
      let ends := ((e.2.map fun a => r.groupKey (e.1.base + a.row)).eraseDups).map fun g => (g, slot)
      s.modCtx c fun x =>
        { x.modRun ser fun q => { q with emitAt := emitAt } with
          groupEnds := (x.groupEnds.filter fun g => (s.ch n).cyc < g.2) ++ ends }

/-- The close of the unit and group of a held element. -/
def closeOf (n : Units) (mask : Bool) (cs : List Closed) (k pos : Nat) : Option Closed :=
  cs.find? fun c => if mask then c.c.k == k else n.unit c.c.k == n.unit k && c.c.grp == n.group pos

/-- One held beat emitted, its first Reel beat in cc p: what leaves, its flags, operand faults, and the scan carries of its run (R234). -/
def emitBeat (e : Env) (b : HeldBeat) (els : List HElem) (p : Nat) : List Leave × List Off × List Use × Tbl Nat :=
  let r := e.run
  let (i, w) := r.prog.rowWord
  let slot := r.emitSlot p
  let f := holdFmt w
  let fs : List (Cell × FnRes × List Use) := els.filterMap fun el =>
    let a := el.arr f r.prog.hdr.c
    match r.prog.units with
    | none => none
    | some n => (closeOf n r.prog.hdr.mask r.closed (b.base + el.row) el.pos).map fun c =>
        let (v, us) := emitCell e i w slot c.st (b.base + el.row) a
        (a.c, v, us)
  let o := afterRow e slot ⟨fs.map fun q => (q.1, q.2.1), [], fs.flatMap fun q => q.2.2, carriesOf b.run e.x.carries⟩
  let (ls, os, us) := leave e (p - 3) o.flow []
  (ls, o.offs ++ invOffs (if r.prog.post.isEmpty then p - 3 else p - 6) o.flow ++ os, o.uses ++ us,
    Tbl.puts 0 e.x.carries (o.carry.map fun q => (2 ^ 32 * b.run + q.1, q.2)))

/-- The scan carry of a tile of some rows, which a run held, leaves in some Reel cycles (R235) (log 86). -/
def State.carryLeaves (s : State) (n c : Nat) (r : Run) (held rows : Nat) (ccs : List Nat) : State :=
  let x := s.ctx c
  let carry := if r.prog.scansFirst then r.carryIn else carriesOf held x.carries
  (((s.modCh n fun h => { h with reelRes := h.reelRes.filter fun q => !(q.run == r.ser && ccs.contains q.cc) }).present c (some r.ser)
    (dated (carryOut r c x.ten rows carry) ccs)).modCtx c fun x => { x with carries := x.carries.filter fun e => e.1 / 2 ^ 32 != held })

/-- Held beat j of a run is emitted in the cycles reserved for it: its results, and in later cc its flags under the PSEQ of the tile that
held it (log 43) and operands that turn out illegal. The scan carry follows the last one. -/
def State.emitHeld (s : State) (n c ser j : Nat) : State :=
  match (s.ctx c).run ser with
  | none => s
  | some r => match r.outs[j]? with
    | none => s
    | some (b, els) =>
      let x := s.ctx c
      let ccs := Tbl.look [] r.emitAt j
      let p := ccs.headD 0
      let (ls, os, us, carry) := emitBeat ⟨x, r⟩ b els p
      let beats := dated ((ls.filter fun l => !l.stash).flatMap fun l => l.beats c x.ten ser (r.emitSlot p)) ccs
      let (sw, used, su) := stashOut x r x.ten c (p - 2) ls
      let s := s.modCh n fun h => { h with
        reelRes := h.reelRes.filter fun q => !(q.run == ser && ccs.contains q.cc)
        due := (h.defer (laterOffs c (some ser) b.pseq os ++ r.useFaults c (us ++ su))).due }
      let s := s.modCtx c fun x =>
        { x.modRun ser fun q => { q with stashed := used } with stashQ := x.stashQ ++ sw, carries := carry }
      let s := s.present c (some ser) beats
      let s := match Tbl.look [] r.emitAt (r.outs.length + j), x.carryRows r j with
        | cc :: more, some rows => s.carryLeaves n c r b.run rows (cc :: more)
        | _, _ => s
      ((s.readsEnd n c ser).markDone c ser).reelEnds c ser (s.ch n).cyc

/-! ### The commit of a tile -/

/-- Whether the rows of a tile close when it commits: under fold, and in the first pass of two. -/
def Run.closesAtCommit (r : Run) : Bool := (match r.mode with | .fold | .first => true | _ => false) && r.prog.closes r.w.cbase

/-- The commit of a tile completes (R87, R91): shadows, row closes, slot copies; the work that waited for it goes on. -/
def State.commit (s : State) (n c ser : Nat) : State :=
  match (s.ctx c).run ser with
  | none => s
  | some r =>
    if r.phase != .ended then s
    else
      let s := s.commitShadows n c ser fun _ => true
      let s := if r.closesAtCommit then s.closed n c r (closeUnits ⟨s.ctx c, r⟩ (s.ch n) r.closings) else s
      let s := s.modCtx c fun x =>
        { (x.commitLanding r).modRun ser fun q => { q with phase := .committed } with
          rows := x.rows.filter fun q => q.grp != ser }
      let s := if r.carryAtCommit then
          s.carryLeaves n c r r.ser r.rows ((s.ch n).freeReel (s.carryFrom n c r ((s.ch n).cyc + 1)) (carryLen r.rows))
        else s
      (((s.readsEnd n c ser).markDone c ser).settle c).reelEnds c ser (s.ch n).cyc

/-- The words after the ingest of a committed tile act (R303). -/
def State.afterTile (s : State) (n c ser : Nat) : State := (s.settle c).reelEnds c ser (s.ch n).cyc

end Sys2Proof.Machine
end

