-- ==== Sys2Proof/Machine/Clock.lean ====
section
/-! DEFINITION. The passing of time on a channel (log 4): what falls due in a cc takes place, the stalls of each cc are counted (R321,
R322), the slots issued in it are charged (R272), and CHCYC counts (R271). -/
namespace Sys2Proof.Machine

/-! ### What falls due -/

/-- An effect of a channel's work takes place. -/
def State.later (s : State) (n : Nat) (e : Later) : State :=
  let c := e.ctx
  let ser := e.run.getD 0
  match e.what with
  | .offs pseq os => s.offend c pseq os
  | .fault code iflt => s.fault c code iflt
  | .check pseq => s.tileCheck n c ser pseq
  | .feed els _ => match (s.ctx c).run ser with | some r => s.feed n c r els | none => s
  | .imports b first _ => match (s.ctx c).run ser with | some r => s.imports n c r b first | none => s
  | .commit => s.commit n c ser
  | .close k => s.closeUnit n c ser k
  | .reserve j _ _ => s.reserve n c ser j
  | .emit j => s.emitHeld n c ser j
  | .turn q => s.turn n c ser q
  | .turnClose q => s.turnClose n c ser q
  | .stat slot k v => s.modCtx c fun x => x.putStat slot k v
  | .loss p v row pseq iflt => s.addLoss n c p v row pseq iflt
  | .fill slot ser vals => (s.modCtx c fun x => x.fillRow slot ser vals).settle c
  | .release i k => s.modCh n fun h => h.release c i k
  | .flush i k => s.flush c i k
  | .drop ser => (s.modCh n fun h => h.dropShadows fun r => r == ser).settle c
  | .after => s.afterTile n c ser

/-- What falls due on a channel before a rank in a cc takes place, in its order. -/
def State.settleTo (s : State) (n cc rank : Nat) : Nat → State
  | 0 => s
  | fuel + 1 => match (s.ch n).due with
    | [] => s
    | e :: rest =>
      if e.before cc rank then ((s.modCh n fun h => { h with due := rest }).later n e).settleTo n cc rank fuel else s

/-- Effects that one settling may bring about: more than any work leaves due in one cc, the model's own. -/
def settleFuel : Nat := 65536

/-- What has fallen due by the present cc takes place. -/
def State.settleDue (s : State) (n : Nat) : State := s.settleTo n ((s.ch n).cyc + 1) 0 settleFuel

/-! ### The stalls of a cc -/

/-- One cause for each context, the first in the order of Table 11-3 (R321). -/
def mergeStalls (ks : List (Nat × Cause)) : List (Nat × Cause) :=
  ks.foldl (fun l e => match l.find? fun q => q.1 == e.1 with
    | none => l ++ [e]
    | some q => if e.2.code < q.2.code then l.map fun p => if p.1 == e.1 then e else p else l) []

/-- The stalls of the present cc: of beats, and of runs that wait to start. -/
def State.ccStalls (s : State) (n : Nat) : List (Nat × Cause) :=
  let h := s.ch n
  mergeStalls ((h.alloc.filterMap fun a => (s.startWait a.ctx).map fun k => (a.ctx, k))
    ++ (match h.polled with | some p => p.stalls | none => s.beatStalls n h.cyc))

/-- Whether a started run waits for the host in the present cc (R322). -/
def State.ccStarved (s : State) (n : Nat) : Bool := (s.ch n).alloc.any fun a => s.starved n a.ctx (s.ch n).cyc

/-- j like cc end: their stalls are counted where the channel serves contexts, CHCYC counts, and the slots issued are charged. -/
def State.endCc (s : State) (n j : Nat) : State :=
  let h := s.ch n
  let shown := match h.polled with | some p => p.presented | none => false
  let s := if h.serves then s.stalls n shown (s.ccStarved n) (s.ccStalls n) j else s
  let s := s.modCh n fun h => { h with cyc := sat64 (h.cyc + j), polled := none }
  (s.charge n).modCh n fun h =>
    let h := h.pruneTree
    { h with scanRes := h.scanRes.filter fun e => h.cyc < e.lo + e.n }

/-! ### Passing time -/

/-- The cc after which the conditions that keep a beat or a run back stay as they are, but for what falls due. -/
def State.steadyAt (s : State) (n : Nat) : Nat :=
  let h := s.ch n
  let m (a : Nat) (l : List Nat) : Nat := l.foldl max a
  let xs := h.alloc.map fun a => s.ctx a.ctx
  m (m (m (m h.horizon (h.couch.map fun b => b.arrived + 1)) (h.holders.map fun g => g.freeAt + 2))
      (xs.map fun x => m (x.lastEnd + 1) (x.groupEnds.map fun g => g.2)))
    (xs.flatMap fun x => x.runs.map fun r => max (r.arrived + 1) (r.start + 15))

/-- Whether a channel has neither a beat nor a run that waits: then only a lead that ends changes what is counted. -/
def State.unhurried (s : State) (n : Nat) : Bool :=
  (s.ch n).couch.isEmpty && (s.ch n).alloc.all fun a => (s.ctx a.ctx).waiting.isNone

/-- The first cc after the present one in which something may fall due or be counted otherwise, within one that bounds it. -/
def State.nextCc (s : State) (n cc : Nat) : Nat :=
  let h := s.ch n
  if h.polled.isSome || (!s.unhurried n && decide (h.cyc ≤ s.steadyAt n)) then h.cyc + 1
  else
    let leads := (h.alloc.flatMap fun a => (s.ctx a.ctx).runs.map fun r => r.start + 15).filter fun t => h.cyc < t
    max (h.cyc + 1) ((leads ++ (h.due.head?.map fun e => e.cc).toList).foldl min cc)

/-- Time passes on a channel to a cc, and what falls due before a rank in it takes place. -/
def State.passFor (s : State) (n cc rank : Nat) : Nat → State
  | 0 => s
  | fuel + 1 =>
    if cc ≤ (s.ch n).cyc then s
    else
      let t := min cc (s.nextCc n cc)
      let s := s.endCc n (t - (s.ch n).cyc)
      (if t = cc then s.settleTo n cc rank settleFuel else s.settleDue n).passFor n cc rank fuel

/-- Time passes to the beginning of a cc, and in it to a rank. A channel whose clock does not run stays as it is (R383). -/
def State.passTo (s : State) (n cc rank : Nat) : State :=
  if (s.ch n).ticking then (s.passFor n cc rank (cc - (s.ch n).cyc)).settleTo n cc rank settleFuel else s

/-- Time passes to a cc, and what falls due by it takes place. -/
def State.pass (s : State) (n cc : Nat) : State :=
  if (s.ch n).ticking then (s.passFor n cc 0 (cc - (s.ch n).cyc)).settleDue n else s

/-! ### A tick of the clocks -/

/-- One cc of a channel's clock. -/
def State.tickCh (s : State) (n : Nat) : State := if (s.ch n).ticking then (s.endCc n 1).settleDue n else s

/-- One uc, and one cc of every channel whose clock runs. Nothing counts while JRST_N is low (R392) (log 65). -/
def State.tick (s : State) : State :=
  if s.jrst || s.undef then s else (List.range 8).foldl (fun s n => s.tickCh n) { s with uc := s.uc + 1 }

end Sys2Proof.Machine
end

