-- ==== Sys2Proof/Machine/Contexts.lean ====
section
/-! DEFINITION. The context commands BIND, UNBIND, TEARDOWN, RESTORE and MIGRATE (R259 to R264), the end of a drain and of an
abandonment (Table 9-2), and the placement of a context on a channel (R262, R276). -/
namespace Sys2Proof.Machine

/-- SIZEEXP outside 12 to 36 acts as EN = 0 (Table 9-4). -/
def Window.enabled (w : Window) : Bool := w.en && decide (12 ≤ w.sizeexp.toNat ∧ w.sizeexp.toNat ≤ 36)
def Tenant.win (t : Tenant) (i : Nat) : Window := nth Window.reset t.wins i

/-- Checks 0xB to 0xD of Table 9-3 on a channel, and the first ream of the block when they pass. -/
def roomCheck (h : Channel) (x : Ctx) : Option Nat × Nat :=
  if x.vatreq > 96 || x.vatreq > h.freeVat then (some 0xB, 0)
  else match h.placeReams x.reamreq with
    | none => (some 0xC, 0)
    | some b => if x.alreq > h.freeLoft then (some 0xD, 0) else (none, b)

/-- A command is refused with a code (R261). -/
def State.bindRefused (s : State) (c code : Nat) : State := s.modCtx c fun x => { x with binderr := code }

/-- BIND (R262): the state and the code of the refusal, none when it is accepted. -/
def State.bind (s : State) (c : Nat) : State × Option Nat :=
  let x := s.ctx c
  let h := s.ch x.chan
  let no (code : Nat) : State × Option Nat := (s.bindRefused c code, some code)
  if x.st != .free then no 0x8
  else if h.st != .ready then no 0x9
  else if x.lgmask = 0 then no 0xA
  else match roomCheck h x with
    | (some code, _) => no code
    | (none, base) =>
      if x.alreq ≠ 0 && (!((s.tenant x.ten).win x.stashwin).enabled || x.policy == 3) then no 0xE
      else match progCheck s x with
        | some code => no code
        | none =>
          let s := s.modCh x.chan fun h => h.take c x.vatreq base (4 * x.reamreq) x.alreq
          (s.setCtx c { x.clearWork with
            st := .bound, binderr := 0, faultcode := 0, reambase := base, algrant := x.alreq, budForce := x.budget, balance := satBal x.budget
            flags := 0, cap := none, mark := 0, iflt := 0, lost := 0, lostNow := none, stallPace := 0, stallBudget := 0
            cnts := [0, 0, 0, 0], slots := freshSlots (progDecls s x.starts), drain := .none, cpseq := none }, none)

/-- UNBIND (Table 9-2). Direct words that wait never act: the context is no longer BOUND or RUNNING (R285) (log 21). -/
def State.unbind (s : State) (c : Nat) : State × Option Nat :=
  let x := s.ctx c
  if x.st == .bound || x.st == .running then
    (s.setCtx c { x with st := .draining, drain := .unbind, directs := [], binderr := 0 }, none)
  else (s.bindRefused c 0x8, some 0x8)

/-- TEARDOWN (Table 9-2, R228): the runs are abandoned and no new Felt transfer is issued for the context. -/
def State.teardown (s : State) (c : Nat) : State × Option Nat :=
  let x := s.ctx c
  if x.st == .bound || x.st == .running || x.st == .faulted then
    let cc := (s.ch (s.chanOf c)).cyc
    let s := s.abandon c
    let s := (List.range 8).foldl (fun s n => s.modSlice n fun q =>
      { q with wait := q.wait.filter fun a => !(a.ctx == c && (match a.kind with | .homeWb _ => true | _ => false)) }) s
    (s.modCtx c fun y => { y with
      st := .draining, drain := .teardown, binderr := 0, restoreWait := false, newSlots := []
      abandonAt := if x.st == .faulted then y.abandonAt else some cc }, none)
  else (s.bindRefused c 0x8, some 0x8)

/-- RESTORE takes effect (R274, R283). -/
def Ctx.restore (x : Ctx) : Ctx := { x with st := .bound, faultcode := 0, iflt := 0, ifltNow := none, restoreWait := false, binderr := 0 }

/-- The home writes of stash lines whose accesses a fault removed are queued again (R222, R273) (log 19). -/
def State.requeueStash (s : State) (c : Nat) : State :=
  ((s.ch (s.ctx c).chan).loft.filter fun l => l.owner == c && l.stash && l.dirty && l.still).foldl
    (fun s l => s.queueHome c l) s

/-- RESTORE (R261, R362): it waits for the abandonment. A context whose entry was lost is refused, and so is one that no channel had room for,
which stays FAULTED until it is torn down and bound again (R43) (log 26). -/
def State.restore (s : State) (c : Nat) : State × Option Nat :=
  let x := s.ctx c
  if x.st != .faulted || x.faultcode = fcEntryLost || !s.hosted c then (s.bindRefused c 0x8, some 0x8)
  else if x.abandonAt.isSome then (s.setCtx c { x with restoreWait := true, binderr := 0 }, none)
  else (((s.modCh x.chan fun h => { h with lapsed := Tbl.drop c h.lapsed }).setCtx c x.restore).requeueStash c, none)

/-- The home write in flight of a line that a channel gives up is one of its write-back (R226, R367). -/
def State.adoptHome (s : State) (n : Nat) (l : LoftLine) : State :=
  let adopt (o : FeltOut) : FeltOut := if o.acc.writes n l then { o with acc := { o.acc with kind := .homeWb n } } else o
  (List.range 8).foldl (fun s m => s.modSlice m fun q => { q with out := q.out.map adopt }) s

/-- The lines of a context that a channel is to write home when it gives the context up: those that are dirty, and those whose home write
is in flight, as such a line is dirty until that write is done (R226, R358). A line waits for its own fetch if that has been issued. Under
TEARDOWN no line is written home (R219, R261) (log 97). -/
def State.linesHome (s : State) (n c : Nat) : List LoftLine :=
  let x := s.ctx c
  if x.st == .draining && x.drain == .teardown then []
  else ((s.ch n).loft.filter fun l => l.owner == c && (l.dirty || s.issued fun a => a.writes n l)).map fun l =>
    { l with fetching := l.fetching && s.issued fun a => a.ctx == c && a.line == l.line && a.kind == .fetch n }

/-- Accesses of a context that are not issued leave the slices without effect; the lines that its channel is to write home pass to the
write-back with their home writes in flight (R226, R367), and the home write of each dirty one that has no fetch outstanding is queued. -/
def State.writeBack (s : State) (n c : Nat) : State :=
  let x := s.ctx c
  let s := (List.range 8).foldl (fun s m => s.modSlice m fun q => { q with wait := q.wait.filter fun a => !a.ownedBy c }) s
  let mine := s.linesHome n c
  let s := s.modCh n fun h => { h with loft := h.loft.filter fun l => l.owner != c, wb := h.wb ++ mine }
  let s := mine.foldl (fun s l => s.adoptHome n l) s
  (mine.filter fun l => l.dirty && !l.fetching).foldl (fun s l =>
    s.queueFelt n ⟨.homeWb n, c, l.line, x.ten, x.stashwin, x.home l.line, 64, true, 0, 0⟩) s

/-- The cc of the last thing that the work of a context is still to bring about on a channel. -/
def Channel.lastDue (h : Channel) (c : Nat) : Nat := ((h.due.filter fun e => e.ctx == c).map fun e => e.cc).foldl max 0

/-- What the direct words of a context are still to bring about on a channel takes place: time passes to the last of it. On a frozen
channel no time passes, and it takes place all the same, so that flags are those of an uninterrupted run (R383) (log 33). -/
def State.directsEnd (s : State) (n c : Nat) : State :=
  if (s.ch n).ticking then s.pass n ((s.ch n).lastDue c)
  else
    let es := (s.ch n).due.filter fun e => e.ctx == c
    es.foldl (fun s e => s.later n e) (s.modCh n fun h => { h with due := h.due.filter fun e => e.ctx != c })

/-- MIGRATE (R264) (log 33): what its direct words are still to bring about comes first. A context whose channel is fenced in the same uc
has been rebound: refused with 0x9 (R277) (log 80). -/
def State.migrate (s : State) (c target : Nat) : State × Option Nat :=
  let x := s.ctx c
  let h := s.ch target
  let no (code : Nat) : State × Option Nat := (s.bindRefused c code, some code)
  if x.st != .bound || !x.runs.isEmpty || !x.directs.isEmpty then no 0x8
  else if x.rebound == some s.uc then no 0x9
  else if h.st != .ready || target == x.chan then no 0x9
  else match roomCheck h x with
    | (some code, _) => no code
    | (none, base) =>
      match progCheck s x with
      | some code => no code
      | none =>
        let s := s.directsEnd x.chan c
        let x := s.ctx c
        let s := s.writeBack x.chan c
        let s := s.modCh x.chan fun h => h.give c
        let s := s.modCh target fun h => h.take c x.vatreq base (4 * x.reamreq) x.alreq
        (s.setCtx c { x.sealCap.clearWork with
          chan := target, binderr := 0, reambase := base, algrant := x.alreq, budForce := x.budget, balance := satBal x.budget
          slots := freshSlots (progDecls s x.starts) }, none)

/-- Whether a transfer issued for a context is outstanding (R357). -/
def State.outstanding (s : State) (c : Nat) : Bool :=
  (List.range 8).any fun n => (s.slice n).out.any fun o => o.acc.ctx == c && (match o.acc.kind with | .load => false | .maint => false | _ => true)

/-- Abandonment completes (R261, R273): the lane groups are free at cc f + 40, and a RESTORE that waited takes effect. Without a clock
those cc do not pass (R383). -/
def State.abandoned (s : State) (c : Nat) : State :=
  let x := s.ctx c
  match x.abandonAt with
  | none => s
  | some f =>
    if (s.ch (s.chanOf c)).frozen then s else
    let s := s.pass (s.chanOf c) (f + 40)
    let x := s.ctx c
    let s := (s.modCtx c fun x => { x with abandonAt := none }).releaseGroups c (f + 40)
    if x.restoreWait && x.st == .faulted then ((s.modCtx c fun x => { x with restoreWait := false }).restore c).1 else s

/-- The end of a drain (Table 9-2, R219). Under UNBIND the dirty lines go home once the runs are gone, and the context enters
FREE when none is left and nothing of its direct words is due; under TEARDOWN it enters FREE when no issued transfer is outstanding. -/
def State.drained (s : State) (c : Nat) : State :=
  let x := s.ctx c
  let n := s.chanOf c
  let h := s.ch n
  if x.st != .draining || h.frozen then s
  else if x.drain == .teardown then
    if s.outstanding c then s
    else
      let s := s.abandoned c
      let s := (List.range 8).foldl (fun s m => s.modCh m fun h => { h with wb := h.wb.filter fun l => l.owner != c }) s
      s.enterFree c
  else if !x.runs.isEmpty then s
  else
    let s := s.pass n (h.lastDue c)
    let mine := (s.ch n).loft.filter fun l => l.owner == c
    let s := (mine.filter fun l => l.dirty && !s.asked n l).foldl (fun s l => s.queueHome c l) s
    if (mine.any fun l => l.dirty || !l.still) || s.outstanding c
        || ((List.range 8).any fun m => (s.ch m).wb.any fun l => l.owner == c) then s
    else (s.abandoned c).enterFree c

/-! ### The commands, written to CTXCMD -/

def execBind (ctx : CtxId) (s : State) : Host.Outcome State Fault Refusal := ctl s fun s => (s.bind ctx.val).1

def execUnbind (ctx : CtxId) (s : State) : Host.Outcome State Fault Refusal := ctl s fun s => (s.unbind ctx.val).1

def execTeardown (ctx : CtxId) (s : State) : Host.Outcome State Fault Refusal := ctl s fun s => (s.teardown ctx.val).1

def execRestore (ctx : CtxId) (s : State) : Host.Outcome State Fault Refusal := ctl s fun s => (s.restore ctx.val).1

def execMigrate (ctx : CtxId) (target : ChanId) (s : State) : Host.Outcome State Fault Refusal :=
  ctl s fun s => (s.migrate ctx.val target.val).1

def execDrainComplete (ctx : CtxId) (s : State) : Host.Outcome State Fault Refusal := hw s fun s => s.drained ctx.val

def execAbandonComplete (ctx : CtxId) (s : State) : Host.Outcome State Fault Refusal := hw s fun s => s.abandoned ctx.val

end Sys2Proof.Machine
end

