-- ==== Sys2Proof/Machine/Regs.lean ====
section
/-! DEFINITION. The Control registers (15): what each reads, and the meanings of the writes and reads that have a row of their
own. -/
namespace Sys2Proof.Machine

/-- A register from its fields: (value, width, lowest bit). Bits that no field covers read zero (R16). -/
def regOf (fs : List (Nat × Nat × Nat)) : Reg := BitVec.ofNat 64 (fs.foldl (fun a f => a + (f.1 % 2 ^ f.2.1) * 2 ^ f.2.2) 0)

/-- Bits [hi:lo] of written data. -/
def fld (d : BitVec 64) (hi lo : Nat) : Nat := (d.toNat >>> lo) % 2 ^ (hi + 1 - lo)

/-- A number as the low bits of two's complement. -/
def low32 (i : Int) : Nat := (BitVec.ofInt 32 i).toNat

/-! ### Reading -/

/-- STATE of CTXST (Table 9-1). -/
def CtxSt.code : CtxSt → Nat | .free => 0 | .bound => 1 | .running => 2 | .faulted => 3 | .draining => 4
/-- STATE of CHSTAT (Table 14-1). -/
def ChSt.code : ChSt → Nat | .off => 0 | .powering => 1 | .ready => 2 | .quiescing => 3 | .fenced => 4 | .testing => 5

/-- A context's entry (Table 9-1), registers 0 to 7. -/
def Ctx.entryReg (x : Ctx) : Nat → Reg
  | 0 => regOf [(x.st.code, 3, 0), (x.ten, 4, 4), (x.chan, 3, 8), (x.binderr, 4, 12), (x.lgmask.toNat, 16, 16),
                (x.rbmask.toNat, 8, 32), (x.faultcode, 8, 40)]
  | 1 => regOf [(x.vatreq, 7, 0), (x.reamreq, 7, 8), (x.reambase, 8, 16), (x.proga, 12, 24), (x.progav.toNat, 1, 36),
                (x.progb, 12, 37), (x.progbv.toNat, 1, 49)]
  | 2 => regOf [(x.alreq, 15, 0), (x.algrant, 15, 16), (x.stashwin, 2, 32), (x.policy, 2, 34)]
  | 3 => regOf [(x.stashbase, 30, 0), (x.extent, 31, 30)]
  | 5 => x.smpctr
  | 6 => x.strm.zeroExtend 64
  | 7 => regOf [(x.budget, 32, 0), (low32 x.balance, 32, 32)]
  | _ => 0

/-- CTXCAP (Table 15-6). -/
def CapRec.reg (r : CapRec) : Reg :=
  regOf [(1, 1, 0), (r.kind.toNat, 1, 1), (r.pseq, 16, 8), (r.row, 16, 24), (r.col, 15, 40)]

/-- A context's status block (Table 15-5), registers 0 to 15. -/
def Ctx.statusReg (x : Ctx) : Nat → Reg
  | 0 => x.flags.zeroExtend 64
  | 1 => match x.cap with | some r => r.reg | none => 0
  | 2 => x.iflt
  | 3 => x.lost
  | 4 => regOf [(x.stallPace, 32, 0), (x.stallBudget, 32, 32)]
  | 8 => x.mark.extractLsb' 0 64
  | 9 => x.mark.extractLsb' 64 64
  | 10 => x.mark.extractLsb' 128 64
  | 11 => x.mark.extractLsb' 192 64
  | _ => 0

/-- CHFREE (R410). -/
def Channel.freeReg (h : Channel) : Reg :=
  if h.st == .ready || h.st == .quiescing then regOf [(h.freeVat, 7, 0), (h.largestBlock, 7, 8), (h.freeLoft, 15, 16)] else 0

/-- CHIMG (R410). -/
def Channel.imgReg (h : Channel) : Reg :=
  if h.st == .off || h.st == .powering then 0
  else regOf [(if h.imgbadMc then 0 else h.mcCrc.toNat, 32, 0), (if h.imgbadTb then 0 else h.tbCrc.toNat, 32, 32)]

/-- CHFSTAT (Table 13-4). -/
def Channel.faultReg (h : Channel) : Reg :=
  regOf [(h.fcount, 8, 0), (h.perm.toNat, 1, 8), ((h.st == .quiescing && h.alloc.isEmpty).toNat, 1, 9), (h.qabort.toNat, 1, 10),
         (h.tres, 2, 11), ((h.imgbadMc || h.imgbadTb).toNat, 1, 13), (h.rjlatch.toNat, 1, 14)]

/-- CHERR (Table 13-4). -/
def Channel.errReg (h : Channel) : Reg :=
  match h.err with | some e => regOf [(1, 1, 0), (e.src, 4, 1), (e.index, 24, 8), (e.cyc, 32, 32)] | none => 0

/-- CHSTAT (Table 14-1): the uncore's own state of the channel, and the throttle fields as they last crossed (R405). -/
def Channel.statReg (h : Channel) : Reg :=
  regOf [(h.st.code, 3, 0), (h.sdown.toNat, 1, 3), (h.onlatch.toNat, 1, 4), (h.offlatch.toNat, 1, 5), (h.thrCopy.step, 3, 6),
         (h.thrCopy.pend.toNat, 1, 9), (h.thrCopy.next, 3, 10), (h.thrCopy.src, 2, 13)]

/-- A channel's block (Table 15-4, Table 11-4, Table 13-4, Table 14-1), by offset. Control reads the uncore's copies (R405). -/
def Channel.reg (h : Channel) (o : Nat) : Reg :=
  if o = 0x000 then h.flag.zeroExtend 64
  else if o = 0x008 then regOf [(h.cycCopy, 64, 0)]
  else if o = 0x010 then regOf [(h.wexpStored, 5, 0)]
  else if o = 0x018 then h.freeReg
  else if o = 0x020 then h.imgReg
  else if o = 0x400 then regOf [(h.pstall, 64, 0)]
  else if 0x408 ≤ o ∧ o ≤ 0x458 then regOf [(h.pcause.getD ((o - 0x408) / 8) 0, 64, 0)]
  else if o = 0x460 then regOf [(h.starve, 64, 0)]
  else if o = 0x468 then regOf [(h.crederr, 32, 0)]
  else if o = 0x508 then h.fcfg.zeroExtend 64
  else if o = 0x510 then h.faultReg
  else if o = 0x518 then h.errReg
  else if o = 0x520 then regOf [(h.ce, 32, 0)]
  else if o = 0x600 then h.statReg
  else if o = 0x610 then h.pchctl.zeroExtend 64
  else if o = 0x618 then h.tempCopy.zeroExtend 64
  else 0

/-- A tenant's windows and events (Table 9-4), by offset. -/
def Tenant.reg (t : Tenant) (o : Nat) : Reg :=
  if o < 0x40 then
    let w := t.win (o / 0x10)
    if o % 0x10 = 0 then regOf [(w.en.toNat, 1, 0), (w.base.toNat, 40, 12)] else w.sizeexp.zeroExtend 64
  else if o = 0x40 then t.tevpend.zeroExtend 64
  else if o = 0x48 then t.tevmask.zeroExtend 64
  else if o = 0x50 then regOf [(t.trefcnt, 32, 0)]
  else 0

/-- MBSTAT (Table 13-8). -/
def State.mbstat (s : State) (t : Nat) : Reg :=
  regOf [((s.tenant t).mbBusy.toNat, 1, 0), ((s.mailbox.filter fun e => e.ten == t).length, 5, 8),
         ((s.tenant t).mbTag.toNat, 16, 16)]

/-- MBRPT (Table 13-8). -/
def Report.reg (r : Report) : Reg := regOf [(1, 1, 0), (r.result, 3, 1), (r.detail, 8, 8), (r.tag.toNat, 16, 16)]
def Tenant.mbrpt (t : Tenant) : Reg := match t.reports with | [] => 0 | r :: _ => r.reg

/-- PLACT (Table 14-2): the power limit holds its target above 0. -/
def State.plact (s : State) : Bool := s.plimit != 0 && s.pw > 0

/-- PWRSTAT (Table 14-2). -/
def State.pwrstat (s : State) : Reg :=
  regOf [(s.ucrdy.toNat, 1, 0), (s.mill.run.toNat, 1, 1),
         ((List.range 8).foldl (fun m n => if (s.ch n).st == .off && !(s.ch n).sdown then m + 2 ^ n else m) 0, 8, 8),
         (s.plact.toNat, 1, 16)]

/-- MNTSTAT (Table 13-6). -/
def State.mntstat (s : State) : Reg :=
  regOf [(s.mnt.isSome.toNat, 1, 0), (s.mntDone.toNat, 1, 1), (s.mntErr.toNat, 1, 2), (s.mntCode, 4, 4)]

/-- MILLIMG (Table 15-3). -/
def State.millimg (s : State) : Reg :=
  regOf [((s.mill.active.getD 0).toNat, 32, 0), ((s.mill.inactive.getD 0).toNat, 32, 32)]

/-- JVER (R406). -/
def jver : Nat := 0x00030002

/-- The global blocks (Table 15-2, Table 15-3), by offset. -/
def State.globalReg (s : State) (o : Nat) : Reg :=
  if o = 0x0000 then regOf [(jver, 64, 0)]
  else if o = 0x0008 then Config.jwmk.zeroExtend 64
  else if o = 0x1010 then regOf [(s.fsRej, 32, 0), (s.fsLslot, 12, 32)]
  else if o = 0x1100 then s.ifstat.zeroExtend 64
  else if o = 0x1108 then s.ifmask.zeroExtend 64
  else if o = 0x1110 then regOf [(s.ucce, 32, 0)]
  else if o = 0x1200 then regOf [(s.mntAddr.toNat, 46, 6)]
  else if o = 0x1210 then s.mntstat
  else if o = 0x1218 then s.millimg
  else if o = 0x1300 then s.pwrstat
  else if o = 0x1308 then regOf [(s.pstep.toNat, 12, 0), (s.plimit.toNat, 8, 12)]
  else 0

/-- DBGRSEL (Table 3-6). -/
def State.dbgrsel (s : State) : Reg := regOf [(s.dbgCh, 3, 0), (s.dbgReam, 8, 8), (s.dbgView.toNat, 1, 16)]

/-- The debug block (Table 3-6), by offset: the limbs of the snapshot read zero while DBGEN is 0 (R107). -/
def State.debugReg (s : State) (o : Nat) : Reg :=
  if o = 0x000 then regOf [(s.dbgen.toNat, 1, 0)]
  else if o = 0x100 then s.dbgrsel
  else if 0x110 ≤ o ∧ o ≤ 0x158 then (if s.dbgen then s.snapWord.extractLsb' (64 * ((o - 0x110) / 8)) 64 else 0)
  else 0

/-- What a Control read returns (R400, R402), but for the snapshot that a read of DBGRDESC takes. Offset bits [2:0] are
ignored, and an offset that no register occupies reads zero (R17). -/
def State.readReg (s : State) (off : Nat) : Reg :=
  let o := off / 8 * 8
  if o < 0x002000 then s.globalReg o
  else if o < 0x002200 then
    let t := (o - 0x2000) / 0x20
    if o % 0x20 = 0x10 then s.mbstat t else if o % 0x20 = 0x18 then (s.tenant t).mbrpt else 0
  else if o < 0x010000 then 0
  else if o < 0x018000 then (s.ch ((o - 0x010000) / 0x1000)).reg (o % 0x1000)
  else if o < 0x100000 then 0
  else if o < 0x110000 then (s.ctx ((o - 0x100000) / 0x40)).entryReg (o % 0x40 / 8)
  else if o < 0x130000 then (s.ctx ((o - 0x110000) / 0x80)).statusReg (o % 0x80 / 8)
  else if o < 0x200000 then 0
  else if o < 0x210000 then (s.masterWord ((o - 0x200000) / 0x10)).extractLsb' (if o % 0x10 = 0 then 0 else 64) 64
  else if o < 0x300000 then 0
  else if o < 0x300800 then (s.tenant ((o - 0x300000) / 0x80)).reg (o % 0x80)
  else if 0x3F0000 ≤ o ∧ o < 0x400000 then s.debugReg (o - 0x3F0000)
  else 0

/-- A read of a register: the value on CTL_RDATA (Table 12-10). -/
def State.readOut (s : State) (off : Nat) : State := { s with ctlRdata := s.readReg off }

/-- Base offsets of Table 15-1. -/
def chBase (n : Nat) : Nat := 0x010000 + 0x1000 * n
def entryBase (c : Nat) : Nat := 0x100000 + 0x40 * c
def statusBase (c : Nat) : Nat := 0x110000 + 0x80 * c
def tenantBase (t : Nat) : Nat := 0x300000 + 0x80 * t

/-! ### Furnish master -/

/-- A rejected write (R175, R407). -/
def State.fsReject (s : State) (slot : Nat) : State := { s with fsRej := sat32 (s.fsRej + 1), fsLslot := slot }

/-- A word committed to the master and to the store of every channel that is READY or QUIESCING (R173); one whose clock has stopped
takes it when the clock resumes (R404). -/
def State.commitWord (s : State) (slot : Nat) (w : IWord) : State :=
  (List.range 8).foldl (fun s n =>
    let h := s.ch n
    if h.st == .ready || h.st == .quiescing then
      s.setCh n (if h.clkStop then { h with storeWait := h.storeWait ++ [(slot, w)] } else { h with store := Tbl.put 0 h.store slot w })
    else s)
    { s with master := Tbl.put 0 s.master slot w }

def State.furnishLow (s : State) (slot : Nat) (d : BitVec 64) : State :=
  if s.locked slot then s.fsReject slot else { s with staging := d }

/-- The access completes once every READY or QUIESCING channel store has taken the word: it waits for those whose clock has stopped
(R404). -/
def State.furnishHigh (s : State) (slot : Nat) (d : BitVec 64) : State :=
  if s.locked slot then s.fsReject slot
  else (List.range 8).foldl (fun s n => s.modCh n fun h =>
    if (h.st == .ready || h.st == .quiescing) && h.clkStop then { h with ctlHeld := true } else h) (s.commitWord slot (d ++ s.staging))

/-! ### Context entry -/

/-- CTXST: TENANT, CHAN and LGMASK while FREE, RBMASK in any state (Table 9-1). -/
def State.writeCtxst (s : State) (c : Nat) (d : BitVec 64) : State :=
  s.modCtx c fun x =>
    let x := { x with rbmask := d.extractLsb' 32 8 }
    if x.st == .free then { x with ten := fld d 7 4, chan := fld d 10 8, lgmask := d.extractLsb' 16 16 } else x

/-- The program fields of CTXRES. -/
def Ctx.withProgs (x : Ctx) (d : BitVec 64) : Ctx :=
  { x with proga := fld d 35 24, progav := d.getLsbD 36, progb := fld d 48 37, progbv := d.getLsbD 49 }
def Ctx.sameProgs (x y : Ctx) : Bool :=
  x.proga == y.proga && x.progav == y.progav && x.progb == y.progb && x.progbv == y.progbv

/-- CTXRES: VATREQ, REAMREQ and the program fields while FREE; otherwise, but for DRAINING, a change of the program fields
under R179 and R180. A refused change leaves the entry as it was. -/
def State.writeCtxres (s : State) (c : Nat) (d : BitVec 64) : State :=
  let x := s.ctx c
  let y := x.withProgs d
  match x.st with
  | .free => s.setCtx c { y with vatreq := fld d 6 0, reamreq := fld d 14 8 }
  | .draining => s
  | _ =>
    if x.sameProgs y then s
    else match progCheck s y with
      | some code => s.setCtx c { x with binderr := code }
      | none => (s.setCtx c { y with binderr := 0, newSlots := x.newSlots ++ [⟨x.runs.map fun r => r.ser, progDecls s y.starts⟩] }).settleSlots c

/-- CTXLOFT: ALREQ, STASHWIN and POLICY while FREE. -/
def State.writeCtxloft (s : State) (c : Nat) (d : BitVec 64) : State :=
  s.modCtx c fun x =>
    if x.st == .free then { x with alreq := fld d 14 0, stashwin := fld d 33 32, policy := fld d 35 34 } else x

/-- CTXSTASH: STASHBASE and EXTENT while FREE. -/
def State.writeCtxstash (s : State) (c : Nat) (d : BitVec 64) : State :=
  s.modCtx c fun x => if x.st == .free then { x with stashbase := fld d 29 0, extent := fld d 60 30 } else x

/-- CTXKEY, in any state. -/
def State.writeCtxkey (s : State) (c : Nat) (d : BitVec 64) : State := s.modCtx c fun x => { x with key := d }

/-- BUDGET, in any state; the next refill takes it (R272). -/
def State.writeCtxbud (s : State) (c : Nat) (d : BitVec 64) : State := s.modCtx c fun x => { x with budget := fld d 31 0 }

/-! ### Other registers with a row of their own -/

/-- CHPCTL: a write in a decision cc, or after it while it is not served, leaves that decision the value before it (R415). -/
def Channel.writePchctl (h : Channel) (v : BitVec 31) : Channel :=
  { h with
    pchctl := v
    pchOld := if h.pchOld.any fun e => decide (h.cyc / 65536 * 65536 ≤ e.1) then h.pchOld else some (h.cyc, h.pchctl) }

/-- What CHPCTL holds at a decision cc: what it held before the writes from that cc on (R396, R415). -/
def Channel.pchAt (h : Channel) (cc : Nat) : BitVec 31 :=
  match h.pchOld with | some (w, v) => if cc ≤ w then v else h.pchctl | none => h.pchctl

/-- The exponent that a write of WEXP stores (R409). -/
def clampWexp (v : Nat) : Nat := max 10 (min 24 v)

/-- CHWIN: the stored value may come into force from the next cc, in a channel that is OFF when it leaves OFF (R409). -/
def State.writeChwin (s : State) (n : Nat) (d : BitVec 64) : State :=
  s.modCh n fun h => { h with wexpStored := clampWexp (fld d 4 0), wexpAt := h.cyc + 1 }

def State.clearCtxflag (s : State) (c : Nat) (d : BitVec 64) : State :=
  s.modCtx c fun x => { x with flags := Flags.w1c x.flags (d.extractLsb' 0 8) }
def State.clearChflag (s : State) (n : Nat) (d : BitVec 64) : State :=
  s.modCh n fun h => { h with flag := Flags.w1c h.flag (d.extractLsb' 0 8) }
/-- Writing 1 to VALID clears the register (R412); an offence detected in the same cc stays in it (R77). -/
def State.clearCap (s : State) (c : Nat) (d : BitVec 64) : State :=
  if d.getLsbD 0 then s.modCtx c fun x => x.rearm (s.ch (s.chanOf c)).cyc else s
/-- Writing 1 to VALID clears the register; a fault found in the same cc stays in it (R412). -/
def State.clearIflt (s : State) (c : Nat) (d : BitVec 64) : State :=
  if d.getLsbD 0 then s.modCtx c fun x => { x with iflt := madeIn x.ifltNow (s.ch (s.chanOf c)).cyc } else s
/-- Writing 1 to VALID clears the register; what was recorded in the same uc stays in it with VALID 1 (R412). -/
def State.clearLost (s : State) (c : Nat) (d : BitVec 64) : State :=
  if d.getLsbD 0 then s.modCtx c fun x =>
    let v := madeIn x.lostNow s.uc
    { x with lost := if v = 0 then 0 else v ||| (x.lost &&& 1) }
  else s
def State.clearIfstat (s : State) (d : BitVec 64) : State := { s with ifstat := s.ifstat &&& ~~~(d.extractLsb' 0 21) }
def State.clearTevpend (s : State) (t : Nat) (d : BitVec 64) : State :=
  s.modTenant t fun x => { x with tevpend := x.tevpend &&& ~~~(d.extractLsb' 0 5) }
/-- LOFTMARK register k (Table 15-5). -/
def State.clearMark (s : State) (c k : Nat) (d : BitVec 64) : State :=
  s.modCtx c fun x => { x with mark := x.mark &&& ~~~(d.zeroExtend 256 <<< (64 * k)) }

/-- DBGRSEL: the snapshot is cleared to zero (R107). -/
def State.writeDbgrsel (s : State) (d : BitVec 64) : State :=
  { s with dbgCh := fld d 2 0, dbgReam := fld d 15 8, dbgView := d.getLsbD 16, snapDesc := 0, snapWord := 0 }

/-- The part of a ream that the debug window sees (R108). -/
def Channel.view (h : Channel) (ream : Nat) (shadow : Bool) : Option RPart :=
  if h.st == .off || h.st == .fenced then none
  else if shadow then (h.ream ream).sh.map fun q => q.view (h.ream ream).com h.cyc
  else some (h.ream ream).com

/-- A read of DBGRDESC: with DBGEN the snapshot is taken first; without it the register reads zero (R107, R108). It waits while the
clock of the channel has stopped (R404). -/
def State.readDbgrdesc (s : State) : State :=
  if s.dbgen then
    if (s.ch s.dbgCh).frozen && (s.ch s.dbgCh).st != .fenced then { s with dbgWait := true } else
    let p := (s.ch s.dbgCh).view s.dbgReam s.dbgView
    let d : Reg := match p with | some r => r.desc | none => 0
    { s with snapDesc := d, snapWord := (match p with | some r => r.w | none => 0), ctlRdata := d }
  else { s with ctlRdata := 0 }

/-- The offset of a pacing counter (Table 11-4). -/
def pacingOffset : PacingCounter → Nat
  | .chpstall => 0x400
  | .chpcause c => 0x408 + 8 * c.val
  | .chstarve => 0x460
  | .chcrederr => 0x468

/-- The copy of a pacing counter that an RC read clears; what has not crossed yet is kept (R405). -/
def Channel.clearPacing (h : Channel) : PacingCounter → Channel
  | .chpstall => { h with pstall := 0 }
  | .chpcause c => { h with pcause := h.pcause.set c.val 0 }
  | .chstarve => { h with starve := 0 }
  | .chcrederr => { h with crederr := 0 }

/-! ### The commands -/

def execFurnishLowWrite (slot : Fin 4096) (data : BitVec 64) (s : State) : Host.Outcome State Fault Refusal :=
  ctl s fun s => s.furnishLow slot.val data

def execFurnishHighWrite (slot : Fin 4096) (data : BitVec 64) (s : State) : Host.Outcome State Fault Refusal :=
  ctl s fun s => s.furnishHigh slot.val data

def execProgramChange (ctx : CtxId) (data : BitVec 64) (s : State) : Host.Outcome State Fault Refusal :=
  ctl s fun s => s.writeCtxres ctx.val data

def execContextFieldWrite (ctx : CtxId) (reg : EntryReg) (data : BitVec 64) (s : State) : Host.Outcome State Fault Refusal :=
  ctl s fun s => match reg with
    | .ctxst => s.writeCtxst ctx.val data
    | .ctxres => s.writeCtxres ctx.val data
    | .ctxloft => s.writeCtxloft ctx.val data
    | .ctxstash => s.writeCtxstash ctx.val data

def execCtxkeyWrite (ctx : CtxId) (data : BitVec 64) (s : State) : Host.Outcome State Fault Refusal :=
  ctl s fun s => s.writeCtxkey ctx.val data

def execCtxbudWrite (ctx : CtxId) (data : BitVec 64) (s : State) : Host.Outcome State Fault Refusal :=
  ctl s fun s => s.writeCtxbud ctx.val data

def execChwinWrite (ch : ChanId) (data : BitVec 64) (s : State) : Host.Outcome State Fault Refusal :=
  ctl s fun s => s.writeChwin ch.val data

def execCtxflagClear (ctx : CtxId) (data : BitVec 64) (s : State) : Host.Outcome State Fault Refusal :=
  ctl s fun s => s.clearCtxflag ctx.val data

def execChflagClear (ch : ChanId) (data : BitVec 64) (s : State) : Host.Outcome State Fault Refusal :=
  ctl s fun s => s.clearChflag ch.val data

def execCtxcapClear (ctx : CtxId) (data : BitVec 64) (s : State) : Host.Outcome State Fault Refusal :=
  ctl s fun s => s.clearCap ctx.val data

def execCtxifltClear (ctx : CtxId) (data : BitVec 64) (s : State) : Host.Outcome State Fault Refusal :=
  ctl s fun s => s.clearIflt ctx.val data

def execCtxlostClear (ctx : CtxId) (data : BitVec 64) (s : State) : Host.Outcome State Fault Refusal :=
  ctl s fun s => s.clearLost ctx.val data

def execIfstatClear (data : BitVec 64) (s : State) : Host.Outcome State Fault Refusal := ctl s fun s => s.clearIfstat data

def execTevpendClear (t : TenId) (data : BitVec 64) (s : State) : Host.Outcome State Fault Refusal :=
  ctl s fun s => s.clearTevpend t.val data

def execLoftmarkClear (ctx : CtxId) (k : Fin 4) (data : BitVec 64) (s : State) : Host.Outcome State Fault Refusal :=
  ctl s fun s => s.clearMark ctx.val k.val data

def execDbgrselWrite (data : BitVec 64) (s : State) : Host.Outcome State Fault Refusal := ctl s fun s => s.writeDbgrsel data

def execDbgrdescRead (s : State) : Host.Outcome State Fault Refusal := ctl s fun s => s.readDbgrdesc

def execPacingCounterRead (ch : ChanId) (which : PacingCounter) (s : State) : Host.Outcome State Fault Refusal :=
  ctl s fun s => (s.readOut (chBase ch.val + pacingOffset which)).modCh ch.val fun h => h.clearPacing which

def execCtxstallRead (ctx : CtxId) (s : State) : Host.Outcome State Fault Refusal :=
  ctl s fun s => (s.readOut (statusBase ctx.val + 0x20)).modCtx ctx.val fun x => { x with stallPace := 0, stallBudget := 0 }

def execChceRead (ch : ChanId) (s : State) : Host.Outcome State Fault Refusal :=
  ctl s fun s => (s.readOut (chBase ch.val + 0x520)).modCh ch.val fun h => { h with ce := 0 }

def execUcceRead (s : State) : Host.Outcome State Fault Refusal := ctl s fun s => { s.readOut 0x1110 with ucce := 0 }

def execTrefcntRead (t : TenId) (s : State) : Host.Outcome State Fault Refusal :=
  ctl s fun s => (s.readOut (tenantBase t.val + 0x50)).modTenant t.val fun x => { x with trefcnt := 0 }

def execFsstatRead (s : State) : Host.Outcome State Fault Refusal :=
  ctl s fun s => { s.readOut 0x1010 with fsRej := 0, fsLslot := 0 }

end Sys2Proof.Machine
end

