-- ==== Sys2Proof/Machine/Loads.lean ====
section
/-! DEFINITION. Program loads of the mill core (R176) and maintenance loads (R375, R376): their reads of host memory, what each
line that returns does, and how a load ends. -/
namespace Sys2Proof.Machine

/-- Bits of a 512-bit line: the 32-bit little-endian word at byte b (R13). -/
def lineWord (data b : Nat) : Nat := (data >>> (8 * b)) % 2 ^ 32

/-! ### Reports of the mailbox -/

/-- A report is pushed (Table 13-8). -/
def State.pushReport (s : State) (t result detail : Nat) (tag : BitVec 16) : State :=
  s.modTenant t fun x => { x with reports := x.reports ++ [⟨result, detail, tag⟩] }

/-- RESULT of Table 13-8. -/
def rsDone : Nat := 0
def rsRefused : Nat := 1
def rsFailed : Nat := 2
def rsAborted : Nat := 3

/-! ### Program loads -/

/-- Lines that a load of n words reads (R355). -/
def loadLines (n : Nat) : Nat := (16 * n + 63) / 64

/-- The read of line i of a program load. -/
def LoadSt.access (l : LoadSt) (i : Nat) : FeltAcc :=
  ⟨.load, 0, i, l.ten, l.win, l.woff + 64 * i, 64, false, l.ser, 0⟩

/-- A load ends with a result (R176, R378). -/
def State.endLoad (s : State) (l : LoadSt) (result : Nat) : State :=
  ({ s with mill := { s.mill with cur := none, lastBeat := s.uc } }).pushReport l.ten result 0 l.tag

/-- The header as it is written, with OWNER from the tenant (R176, Table 10-4). -/
def ownedHeader (w : IWord) (ten : Nat) : IWord :=
  BitVec.ofNat 128 ((w.toNat >>> 108) * 2 ^ 108 + (ten % 16) * 2 ^ 104 + w.toNat % 2 ^ 104)

/-- A load is refused for its header (Table 6-10): DETAIL is the code of Table 6-3 (log 73). -/
def State.refuseLoad (s : State) (l : LoadSt) : State :=
  ({ s with mill := { s.mill with cur := none, lastBeat := s.uc } }).pushReport l.ten rsRefused 0x1 l.tag

/-- A line of a program load returns: its words but the header go to their slots; the last line ends the load. A header of more than
16 declarations is refused when its line returns (R202). No program over which the load runs has been bound meanwhile (Table 6-9). -/
def State.loadLine (s : State) (data : Nat) : State :=
  match s.mill.cur with
  | none => s
  | some l =>
    let ws : List IWord := ((List.range 4).map fun i => BitVec.ofNat 128 (data >>> (128 * i))).take (l.count - 4 * l.lines)
    if l.lines = 0 && 16 < (Hdr.ofWord (ws.headD 0)).ndecl then s.refuseLoad l else
    let s := ((List.range ws.length).zip ws).foldl (fun s iw =>
      let k := 4 * l.lines + iw.1
      if k = 0 then s else s.commitWord (l.slot + k) iw.2) s
    let l := { l with lines := l.lines + 1, words := l.words ++ ws }
    if l.lines < loadLines l.count then
      ({ s with mill := { s.mill with cur := some l, lastBeat := s.uc } }).queueFelt 0 (l.access l.lines)
    else
      let h := l.words.headD 0
      if (Hdr.ofWord h).len = l.count then (s.commitWord l.slot (ownedHeader h l.ten)).endLoad l rsDone
      else s.endLoad l rsFailed

/-- A program load fails: slot s keeps its header of length 0. -/
def State.loadFailed (s : State) : State :=
  match s.mill.cur with
  | none => s
  | some l => s.endLoad l rsFailed

/-! ### Maintenance loads -/

/-- One bit of CRC-32, polynomial of IEEE 802.3 in its reflected form. -/
def crcBit (c : BitVec 32) : BitVec 32 := if c.getLsbD 0 then (c >>> 1) ^^^ 0xEDB88320#32 else c >>> 1
/-- One byte. -/
def crcByte (c : BitVec 32) (b : Nat) : BitVec 32 :=
  (List.range 8).foldl (fun c _ => crcBit c) (c ^^^ BitVec.ofNat 32 (b % 256))
/-- The 64 bytes of a line, lowest address first. -/
def crcLine (c : BitVec 32) (data : Nat) : BitVec 32 :=
  (List.range 64).foldl (fun c i => crcByte c (data >>> (8 * i))) c
/-- The running value before the first byte, and the CRC from the running value after the last. -/
def crcStart : BitVec 32 := 0xFFFFFFFF#32
def crcEnd (c : BitVec 32) : BitVec 32 := ~~~c

/-- Payload limit of a kind (Table 13-7). -/
def payloadMax (kind : Nat) : Nat := if kind = 1 then 262144 else if kind = 2 then 131072 else 524288

/-- Payload bytes and CRC of the header of a load, once it is read. -/
def hdrLen (h : Nat) : Nat := lineWord h 16
def hdrCrc (h : Nat) : BitVec 32 := BitVec.ofNat 32 (lineWord h 20)

/-- The check of a header (Table 13-7): ERRCODE of the first failure, taken in the order magic and kind, JVER, payload length. Bytes 5 to 7
and 24 to 63, zero by Table 13-7 and with no ERRCODE of their own, are not checked (log 106). -/
def headerCheck (kind h : Nat) : Option Nat :=
  if lineWord h 0 ≠ 0x4A524D49 ∨ (h >>> 32) % 256 ≠ kind then some 0x1
  else if (h >>> 64) % 2 ^ 64 ≠ jver then some 0x2
  else if hdrLen h % 64 ≠ 0 ∨ hdrLen h > payloadMax kind then some 0x4
  else none

/-- The read of a line of the image: the header is line 0 (R376). off is the host address. -/
def MntLoad.access (m : MntLoad) (i : Nat) : FeltAcc := ⟨.maint, 0x3FF, i, 0, 0, m.addr + 64 * i, 64, false, m.ser, 0⟩

/-- The image field that a load of microcode or tables makes unusable (R376). -/
def Channel.spoil (h : Channel) (kind : Nat) : Channel :=
  if kind = 2 then { h with imgbadMc := true } else { h with imgbadTb := true }

/-- A load ends with an error (R375, R376): after the first payload write the image of a channel is unusable. -/
def State.endMntErr (s : State) (m : MntLoad) (code : Nat) (bad : Bool) : State :=
  let s := { s with mnt := none, mntDone := false, mntErr := true, mntCode := code }.raiseIf 20
  if m.kind = 1 then s
  else if bad || m.lines > 0 then s.modCh m.ch fun h => h.spoil m.kind
  else s

/-- A mill core fault (R377): MILL is raised and the core restarts; the command being carried out is aborted (R201), and a
microcode or table load ends with ERRCODE 0x7 (R381). A core that is halted stays halted (R394). -/
def State.millFault (s : State) : State :=
  let s := s.raiseIf 16
  if !(s.mill.run || s.mill.restarting) then s
  else
    let s := match s.mill.cur with
      | some l => { s.endLoad l rsAborted with slices := (s.modSlice 0 fun q =>
          { q with wait := q.wait.filter fun a => a.kind != AccKind.load }).slices }
      | none => s
    let s := match s.mnt with
      | some m => if m.kind = 1 then s else
          (s.endMntErr m 0x7 true).modSlice 0 fun q => { q with wait := q.wait.filter fun a => a.kind != AccKind.maint }
      | none => s
    { s with mill := { s.mill with run := false, restarting := true } }

/-- A line of an image returns. With the first payload line of firmware the inactive bank holds no checked image (R376, R407). -/
def State.mntLine (s : State) (data : Nat) : State :=
  match s.mnt with
  | none => s
  | some m =>
    if m.err.isSome then s
    else match m.header with
      | none =>
        match headerCheck m.kind data with
        | some e => { s with mnt := some { m with err := some e } }
        | none =>
          let m := { m with header := some data }
          let s := { s with mnt := some m }
          if hdrLen data = 0 then s else s.queueFelt 0 (m.access 1)
      | some h =>
        let m := { m with lines := m.lines + 1, crc := crcLine m.crc data }
        let s := { s with mnt := some m, mill := if m.kind = 1 then { s.mill with inactive := none } else s.mill }
        if 64 * m.lines < hdrLen h then s.queueFelt 0 (m.access (m.lines + 1)) else s

/-- A read of an image failed (Table 13-6, ERRCODE 0x5). -/
def State.mntFailed (s : State) : State :=
  match s.mnt with
  | none => s
  | some m => { s with mnt := some { m with err := some (m.err.getD 0x5) } }

/-- MNTCMD (R375, R376): ignored while BUSY; microcode and tables need the mill core to run, and the channel QUIESCING with no
context bound; where neither holds ERRCODE is 0x7 (log 55). -/
def State.mntCommand (s : State) (kind ch : Nat) : State :=
  if kind = 0 || s.mnt.isSome then s
  else
    let m : MntLoad := ⟨s.seq, kind, ch, 64 * s.mntAddr.toNat, none, 0, crcStart, none⟩
    let s := { s with mntDone := false, mntErr := false, mntCode := 0, seq := s.seq + 1 }
    let h := s.ch ch
    if kind ≠ 1 && !s.mill.run then s.endMntErr m 0x7 false
    else if kind ≠ 1 && !(h.st == .quiescing && h.alloc.isEmpty) then s.endMntErr m 0x6 false
    else ({ s with mnt := some m }).queueFelt 0 (m.access 0)

/-- The end of a load (R376): it has failed, or every line is read and the CRC over the payload, as read and as read back,
agrees or not. A load that still reads does not end, nor does one into a channel that is frozen (R383). -/
def State.mntEnd (s : State) (readBackOk : Bool) : State :=
  match s.mnt with
  | none => s
  | some m =>
    match m.err, m.header with
    | some e, _ => s.endMntErr m e false
    | none, none => s
    | none, some h =>
      if 64 * m.lines < hdrLen h || (m.kind ≠ 1 && (s.ch m.ch).frozen) then s
      else if crcEnd m.crc ≠ hdrCrc h ∨ !readBackOk then s.endMntErr m 0x3 false
      else
        let s := { s with mnt := none, mntDone := true }
        if m.kind = 1 then
          let s := { s with mill := { s.mill with active := some (hdrCrc h), inactive := s.mill.active } }
          let s := s.millFault
          { s with mill := { s.mill with run := false, restarting := true } }
        else if m.kind = 2 then s.modCh m.ch fun c => { c with imgbadMc := false, mcCrc := hdrCrc h }
        else s.modCh m.ch fun c => { c with imgbadTb := false, tbCrc := hdrCrc h }

end Sys2Proof.Machine
end

