-- ==== Sys2Proof/Machine/Mailbox.lean ====
section
/-! DEFINITION. The mailbox and the mill core's commands (R176, R260, R377 to R379), and the maintenance commands (R375,
R376). -/
namespace Sys2Proof.Machine

/-! ### Posting and reports (R378) -/

/-- MBPL. -/
def State.mbplWrite (s : State) (t : Nat) (d : BitVec 64) : State := s.modTenant t fun x => { x with mbl := d }

/-- TAG of a mailbox command (Table 13-9). -/
def mbTag (w : IWord) : BitVec 16 := w.extractLsb' 104 16

/-- MBPH: the command is queued, or the post is BUSY with 64 entries in the mailbox or 16 of the tenant. -/
def State.mbphWrite (s : State) (t : Nat) (d : BitVec 64) : State :=
  if s.mailbox.length ≥ 64 || (s.mailbox.filter fun e => e.ten == t).length ≥ 16 then
    s.modTenant t fun x => { x with mbBusy := true }
  else
    let w : IWord := d ++ (s.tenant t).mbl
    { s.modTenant t fun x => { x with mbBusy := false, mbTag := mbTag w } with mailbox := s.mailbox ++ [⟨t, w, false⟩] }

/-- A read of MBRPT returns the oldest report and removes it. -/
def State.mbrptRead (s : State) (t : Nat) : State :=
  { s.modTenant t fun x => { x with reports := x.reports.drop 1 } with ctlRdata := (s.tenant t).mbrpt }

/-! ### Commands that the mill core carries out -/

/-- Fields of Table 13-9. -/
def mbOp (w : IWord) : Nat := IWord.fld w 127 120
def mbCtx (w : IWord) : Nat := IWord.fld w 103 94
def mbChan (w : IWord) : Nat := IWord.fld w 93 91
def mbWin (w : IWord) : Nat := IWord.fld w 90 89
def mbSlot (w : IWord) : Nat := IWord.fld w 88 77
def mbCount (w : IWord) : Nat := IWord.fld w 76 70
def mbWoff (w : IWord) : Nat := IWord.fld w 69 34

/-- An operation that Table 13-9 defines, with its reserved field zero. -/
def mbWellFormed (w : IWord) : Bool :=
  ([0x01, 0x02, 0x03, 0x04, 0x05, 0x10].contains (mbOp w)) && IWord.fld w 33 0 == 0

/-- Whether the mill core takes commands now: it runs, and no load is in progress. -/
def State.millFree (s : State) : Bool := s.mill.run && s.mill.cur.isNone

/-- The oldest entry of a tenant whose report queue has room (R378), and the mailbox without it. -/
def State.takeEntry (s : State) : Option (MbEntry × List MbEntry) :=
  (firstEntry s.mailbox).map fun t => t
where
  firstEntry : List MbEntry → Option (MbEntry × List MbEntry)
  | [] => none
  | e :: r => if (s.tenant e.ten).reports.length < 16 then some (e, r)
              else (firstEntry r).map fun t => (t.1, e :: t.2)

/-- An 8-bit detail that the manual does not state (log 29). -/
def State.freeDetail (s : State) : Nat × State := let (v, s) := s.free; (v.toNat % 256, s)

/-- The mill core takes an entry whose operation is op: it is reported failed when its word is lost (Table 13-1), refused when
it is malformed (R379), and otherwise carried out. An entry of another operation stays. -/
def State.millTake (s : State) (op : Nat) (f : State → MbEntry → State) : State :=
  if !s.millFree then s
  else match s.takeEntry with
    | none => s
    | some (e, rest) =>
      let t := { s with mailbox := rest, mill := { s.mill with lastBeat := s.uc } }
      if e.lost then t.pushReport e.ten rsFailed 0xFE (mbTag e.cmd)
      else if !mbWellFormed e.cmd then t.pushReport e.ten rsRefused 0 (mbTag e.cmd)
      else if mbOp e.cmd = op then f t e
      else s

/-- The report of a context command: done, or refused with its BINDERR code. -/
def State.reportCode (s : State) (e : MbEntry) (code : Option Nat) : State :=
  match code with
  | none => s.pushReport e.ten rsDone 0 (mbTag e.cmd)
  | some k => s.pushReport e.ten rsRefused k (mbTag e.cmd)

/-- A context command of the mailbox, refused for a context of another tenant (R260). -/
def State.millContext (s : State) (e : MbEntry) (f : State → Nat → State × Option Nat) : State :=
  let c := mbCtx e.cmd
  if (s.ctx c).ten ≠ e.ten then
    let (d, s) := s.freeDetail
    s.pushReport e.ten rsRefused d (mbTag e.cmd)
  else let (s, code) := f s c; s.reportCode e code

/-- BIND of the mailbox: TENANT of a FREE context is written from the poster first (R260, R415). -/
def State.millBind (s : State) (e : MbEntry) : State :=
  let c := mbCtx e.cmd
  let s := if (s.ctx c).st == .free then s.modCtx c fun x => { x with ten := e.ten } else s
  s.millContext e State.bind

/-- LOADPROG (R176): refused when its range is locked or passes slot 4095, failed when its offset is not a multiple of 64 (R355);
otherwise slot s takes a header of length 0 and the reads begin (log 29, log 73). -/
def State.millLoad (s : State) (e : MbEntry) : State :=
  let w := e.cmd
  let n := mbCount w
  if n < 2 ∨ n > 64 then s.pushReport e.ten rsRefused 0 (mbTag w)
  else if mbSlot w + n > 4096 ∨ (List.range n).any (fun i => s.locked (mbSlot w + i)) then
    let (d, s) := s.freeDetail
    s.pushReport e.ten rsRefused d (mbTag w)
  else if mbWoff w % 64 ≠ 0 then s.pushReport e.ten rsFailed 0 (mbTag w)
  else
    let l : LoadSt := ⟨s.seq, e.ten, mbTag w, mbSlot w, n, mbWin w, mbWoff w, 0, []⟩
    let s := { s.commitWord l.slot emptyHeader with seq := s.seq + 1 }
    ({ s with mill := { s.mill with cur := some l } }).queueFelt 0 (l.access 0)

/-! ### The mill core -/

/-- The watchdog expires 2^16 uc after the last heartbeat (R377). -/
def State.watchdog (s : State) : State :=
  if s.mill.run then ({ s with uc := max s.uc (s.mill.lastBeat + 65536) }).millFault else s

/-- A restart ends (R377): from the active bank, from the other bank when the active one has an uncorrectable error and the
other holds an image that passed its check, or not at all. After a restart from the other bank the bank that failed counts as holding no
image, so that ICRC reads 0 (log 107). -/
def State.millRestart (s : State) (activeBad : Bool) : State :=
  if !s.mill.restarting then s
  else
    let m := { s.mill with restarting := false, lastBeat := s.uc }
    if !activeBad && m.active.isSome then { s with mill := { m with run := true } }
    else match m.inactive with
      | some crc => { s with mill := { m with run := true, active := some crc, inactive := none } }
      | none => { s with mill := { m with run := false } }.raiseIf 17

/-! ### The commands -/

def execMbplWrite (t : TenId) (data : BitVec 64) (s : State) : Host.Outcome State Fault Refusal :=
  ctl s fun s => s.mbplWrite t.val data

def execMbphWrite (t : TenId) (data : BitVec 64) (s : State) : Host.Outcome State Fault Refusal :=
  ctl s fun s => s.mbphWrite t.val data

def execMbrptRead (t : TenId) (s : State) : Host.Outcome State Fault Refusal := ctl s fun s => s.mbrptRead t.val

def execMbBind (s : State) : Host.Outcome State Fault Refusal := hw s fun s => s.millTake 0x01 State.millBind

def execMbUnbind (s : State) : Host.Outcome State Fault Refusal :=
  hw s fun s => s.millTake 0x02 fun s e => s.millContext e State.unbind

def execMbTeardown (s : State) : Host.Outcome State Fault Refusal :=
  hw s fun s => s.millTake 0x03 fun s e => s.millContext e State.teardown

def execMbRestore (s : State) : Host.Outcome State Fault Refusal :=
  hw s fun s => s.millTake 0x04 fun s e => s.millContext e State.restore

def execMbMigrate (s : State) : Host.Outcome State Fault Refusal :=
  hw s fun s => s.millTake 0x05 fun s e => s.millContext e fun s c => s.migrate c (mbChan e.cmd)

def execLoadprog (s : State) : Host.Outcome State Fault Refusal := hw s fun s => s.millTake 0x10 State.millLoad

def execWatchdogExpiry (s : State) : Host.Outcome State Fault Refusal := hw s State.watchdog

def execMillCoreFault (s : State) : Host.Outcome State Fault Refusal := hw s State.millFault

def execMillRestartDone (activeBad : Bool) (s : State) : Host.Outcome State Fault Refusal :=
  hw s fun s => s.millRestart activeBad

def execMillFirmwareLoad (s : State) : Host.Outcome State Fault Refusal := ctl s fun s => s.mntCommand 1 0

def execMicrocodeLoad (ch : ChanId) (s : State) : Host.Outcome State Fault Refusal := ctl s fun s => s.mntCommand 2 ch.val

def execFunctionTableLoad (ch : ChanId) (s : State) : Host.Outcome State Fault Refusal := ctl s fun s => s.mntCommand 3 ch.val

def execMaintenanceLoadDone (readBackOk : Bool) (s : State) : Host.Outcome State Fault Refusal :=
  hw s fun s => s.mntEnd readBackOk

end Sys2Proof.Machine
end

