-- ==== Sys2Proof/Machine/Felt.lean ====
section
/-! DEFINITION. Felt (R355 to R358): the issue of an access with its window check, the write data, the responses, and what the
end of an access does to Loft lines, contexts and loads. -/
namespace Sys2Proof.Machine

/-- The host address that an access names, whether or not it is permitted. -/
def State.address (s : State) (a : FeltAcc) : Nat :=
  if a.kind == AccKind.maint then a.off else ((s.tenant a.ten).win a.win).base.toNat * 4096 + a.off

/-- The address of an access when its window check passes (R267, R356); maintenance reads pass none. -/
def State.window (s : State) (a : FeltAcc) : Option Nat :=
  if a.kind == AccKind.maint then some a.off
  else
    let w := (s.tenant a.ten).win a.win
    let base := w.base.toNat * 4096
    if w.enabled && decide (a.off + a.len ≤ 2 ^ w.sizeexp.toNat ∧ base + a.off + a.len ≤ 2 ^ 52) then some (base + a.off) else none

/-- Whether an access to a 64-byte block is outstanding in any slice (R357). -/
def State.blockBusy (s : State) (addr : Nat) : Bool :=
  (List.range 8).any fun n => (s.slice n).out.any fun o => o.addr / 64 == addr / 64

/-- The lowest tag that is free in a uc (R357). -/
def Slice.freeTag (q : Slice) (uc : Nat) : Option Nat :=
  (List.range 64).find? fun t => decide (Tbl.look 0 q.tagAt t ≤ uc) && q.out.all fun o => o.tag != t

/-- The first uc, from one on, in which a tag is free, and the lowest one then; none while all 64 are taken. A tag is free again in the uc
after its last response beat is taken (R357). -/
def Slice.nextTag (q : Slice) (uc : Nat) : Option (Nat × Nat) :=
  match q.freeTag uc with
  | some t => some (uc, t)
  | none =>
    match (((List.range 64).filter fun t => q.out.all fun o => o.tag != t).map fun t => Tbl.look 0 q.tagAt t) with
    | [] => none
    | a :: as => let u := as.foldl min a; (q.freeTag u).map fun t => (u, t)

/-- Whether a context still is what an access was made for: it is not torn down (R358). -/
def State.owned (s : State) (a : FeltAcc) : Bool :=
  let x := s.ctx a.ctx
  x.st != .free && !(x.st == .draining && x.drain == .teardown)

/-- The line of a channel that an access writes home: resident statistics or stash line, or one of the write-back. -/
def State.lineOf (s : State) (a : FeltAcc) : Option LoftLine :=
  match a.kind with
  | .home ch => (s.ch ch).findLine a.ctx a.line
  | .stash ch _ => (s.ch ch).loft.find? fun l => l.owner == a.ctx && l.stash && l.line == a.line && l.dirty
  | .homeWb ch => (s.ch ch).wb.find? fun l => l.owner == a.ctx && l.line == a.line && !l.fetching
  | _ => none

/-- Whether a waiting access has lost its reason: its line was released, is clean or is filled already. -/
def State.stale (s : State) (a : FeltAcc) : Bool :=
  match a.kind with
  | .home _ | .stash _ _ | .homeWb _ => match s.lineOf a with | some l => !l.dirty | none => true
  | .fetch ch => match (s.ch ch).findLine a.ctx a.line with | some l => !l.fetching | none => false
  | _ => false

/-- Data and byte enables of a write when it is issued (Table 12-8). -/
def State.payload (s : State) (a : FeltAcc) : Nat × Nat :=
  match s.lineOf a with
  | some l => (l.data, if l.stash then l.be else recEnables l.valid)
  | none => (a.data, a.be)

/-- Marking the line of an access. -/
def State.markLine (s : State) (a : FeltAcc) (f : LoftLine → LoftLine) : State :=
  match a.kind, s.lineOf a with
  | .home ch, some l => s.modCh ch fun h => h.modLine l.idx f
  | .stash ch _, some l => s.modCh ch fun h => h.modLine l.idx f
  | .homeWb ch, some l => s.modCh ch fun h => { h with wb := h.wb.map fun m => if m.owner == l.owner && m.idx == l.idx then f m else m }
  | _, _ => s

/-- Whether a home write of the write-back waits for a line: it has changed since an earlier one was issued. -/
def State.wbAgain (s : State) (ch c line : Nat) : Bool :=
  (List.range 8).any fun n => (s.slice n).wait.any fun a => a.ctx == c && a.line == line && a.kind == .homeWb ch

/-- A line of the write-back that cannot be written is lost (R226): LOFTLOST, and the mark of a stash line (log 56). -/
def State.loseWb (s : State) (ch c line : Nat) : State :=
  let ls := (s.ch ch).wb.filter fun l => l.owner == c && l.line == line
  let s := s.modCh ch fun h => { h with wb := h.wb.filter fun l => !(l.owner == c && l.line == line) }
  ls.foldl (fun s l =>
    let s := s.noteLoss c
    if l.stash then s.setMark c l.tag else s) s

/-- The fetch that a line of the write-back waited for has ended: the line is written home now (R226). -/
def State.wbFetched (s : State) (ch : Nat) (a : FeltAcc) (f : LoftLine → LoftLine) : State :=
  let is (l : LoftLine) : Bool := l.owner == a.ctx && !l.stash && l.line == a.line && l.fetching
  let ls := (s.ch ch).wb.filter is
  let s := s.modCh ch fun h => { h with wb := h.wb.map fun l => if is l then f l else l }
  if ls.isEmpty then s else s.queueFelt ch { a with kind := .homeWb ch, wr := true }

/-- A fetch fills the invalid records of its line (R216). -/
def LoftLine.fill (l : LoftLine) (data now : Nat) : LoftLine :=
  { l with
    data := (List.range 4).foldl (fun d i => if l.valid.testBit i then d else setRec d i (data >>> (128 * i))) l.data
    valid := 15, fetching := false, lastUse := now }

/-- The failure of an access (R267, R358): the window check failed, or the host returned FRSP_ERR. -/
def State.feltFail (s : State) (a : FeltAcc) (code : Nat) : State :=
  if !s.owned a && !(a.kind == AccKind.load || a.kind == AccKind.maint) then s
  else match a.kind with
    | .load => match s.mill.cur with | some l => if l.ser = a.data then s.loadFailed else s | none => s
    | .maint => match s.mnt with | some m => if m.ser = a.data then s.mntFailed else s | none => s
    | .home ch =>
      let s := s.modCh ch fun h => { h with loft := h.loft.map fun l =>
        if l.owner == a.ctx && !l.stash && l.line == a.line then { l with dirty := l.valid != 0, writing := false } else l }
      s.fault a.ctx code 0
    | .homeWb ch => (if s.wbAgain ch a.ctx a.line then s else s.loseWb ch a.ctx a.line).fault a.ctx code 0
    | .straight _ => s.fault a.ctx code 0
    | .fetch ch =>
      let s := s.modCh ch fun h =>
        { h with loft := (h.loft.map fun l =>
            if l.owner == a.ctx && !l.stash && l.line == a.line then { l with fetching := false } else l).filter fun l =>
              !(l.owner == a.ctx && !l.stash && l.line == a.line && l.valid == 0) }
      (s.wbFetched ch a fun l => { l with fetching := false }).fault a.ctx code 0
    | .stash ch tag =>
      let s := s.modCh ch fun h => { h with loft := h.loft.filter fun l => !(l.owner == a.ctx && l.stash && l.line == a.line) }
      (s.setMark a.ctx tag).fault a.ctx code 0
    | .stashStraight _ tag => (s.setMark a.ctx tag).fault a.ctx code 0
    | .sample _ => s.fault a.ctx code 0

/-- The line of a context that waits for a fetch takes its data; it is freed if its four records were released meanwhile (R221). -/
def Channel.fillLine (h : Channel) (c line data : Nat) : Channel :=
  { h with loft := (h.loft.map fun l =>
      if l.owner == c && !l.stash && l.line == line && l.fetching then l.fill data h.cyc else l).filter fun l =>
        !(l.owner == c && l.line == line && l.gone) }

/-- An access completes (R358), on the channel to which its context was rebound meanwhile too (R361): a home write makes its line clean,
a stash line is free, a fetch fills its line, a load reads on. -/
def State.feltDone (s : State) (o : FeltOut) : State :=
  let a := o.acc
  if !s.owned a && !(a.kind == AccKind.load || a.kind == AccKind.maint) then s
  else match a.kind with
    | .load => match s.mill.cur with | some l => if l.ser = a.data then s.loadLine o.rdata else s | none => s
    | .maint => match s.mnt with | some m => if m.ser = a.data then s.mntLine o.rdata else s | none => s
    | .home ch => s.modCh ch fun h => { h with loft := h.loft.map fun l =>
        if l.owner == a.ctx && !l.stash && l.line == a.line then { l with writing := s.asked ch l } else l }
    | .homeWb ch => s.modCh ch fun h => { h with wb := h.wb.filter fun l => !(l.owner == a.ctx && l.line == a.line && !l.dirty) }
    | .stash ch _ => s.modCh ch fun h => { h with loft := h.loft.filter fun l =>
        !(l.owner == a.ctx && l.stash && l.line == a.line && !l.dirty) }
    | .fetch ch =>
      let s := (s.modCh ch fun h => h.fillLine a.ctx a.line o.rdata).wbFetched ch a fun l => l.fill o.rdata (s.ch ch).cyc
      if s.chanOf a.ctx = ch then s else s.modCh (s.chanOf a.ctx) fun h => h.fillLine a.ctx a.line o.rdata
    | _ => s

/-- Whether an access writes a sampling record. -/
def FeltAcc.isSample (a : FeltAcc) : Bool := match a.kind with | .sample _ => true | _ => false

/-- Whether a waiting access of a slice may leave it now: its block is free (R357), an earlier sampling record of its context has been
written (R254) (log 98), and the write-back of its line has been made (R226). -/
def State.ready (s : State) (q : Slice) (a : FeltAcc) : Bool :=
  !s.blockBusy (s.address a)
    && (!a.isSample || ((q.wait.find? fun b => b.ctx == a.ctx && b.isSample) == some a && !s.issued fun b => b.ctx == a.ctx && b.isSample))
    && (match a.kind with | .home _ | .straight _ => !s.writingBack a.ctx a.line | _ => true)

/-- The position of the first access of a list that meets a test. -/
def firstAt {α : Type} (p : α → Bool) : List α → Option (List α × α × List α)
  | [] => none
  | a :: r => if p a then some ([], a, r) else (firstAt p r).map fun t => (a :: t.1, t.2)

/-- The lines of an LFLUSH that are still to be queued on a channel, when its slice has nothing else that waits: time passes to the cc of the
first (R306). -/
def State.toFlush (s : State) (n : Nat) : State :=
  if !(s.slice n).wait.isEmpty then s
  else match (s.ch n).due.find? fun e => (match e.what with | .flush _ _ => true | _ => false) with
    | some e => s.pass n e.cc
    | none => s

/-- The uc in which a slice issues an access: one FREQ transfer per uc (R357), and a write behind the data of earlier writes, so that lines
of 64 bytes leave one per 2 uc (R306) (log 82). -/
def Slice.issueAt (q : Slice) (a : FeltAcc) (uc : Nat) : Nat := max uc (if a.wr then max q.reqAt q.wrAt else q.reqAt)

/-- FELT_ACCESS_ISSUE: when FREQ is free and a tag is, the first access of a slice that may leave it is checked (R267, R356): it takes the
lowest free tag and raises FREQ, or fails its window check and transfers nothing. Time passes to the uc in which it may be issued. -/
def State.feltIssue (s : State) (n : Nat) : State :=
  let s := s.toFlush n
  let s := s.modSlice n fun q => { q with wait := q.wait.filter fun a => !s.stale a }
  let q := s.slice n
  match firstAt (s.ready q) q.wait, q.freq with
  | some (pre, a, post), none =>
    match q.nextTag (q.issueAt a s.uc) with
    | none => s
    | some (u, tag) =>
      let s := { s with uc := u }
      match s.window a with
      | none => (s.setSlice n { q with wait := pre ++ post }).feltFail a fcWindow
      | some addr =>
        let (data, be) := s.payload a
        let beats := a.len / 32
        let fwd := if a.wr then (List.range beats).map fun i =>
          FwdBeat.mk tag ((data >>> (256 * i)) % 2 ^ 256) ((be >>> (32 * i)) % 2 ^ 32) (decide (i + 1 = beats)) else []
        (s.setSlice n { q with wait := pre ++ post, out := q.out ++ [⟨tag, a, addr, 0, false, 0⟩], freq := some tag
                               fwd := q.fwd ++ fwd, reqAt := u + 1, wrAt := if a.wr then u + beats else q.wrAt
                               fwdAt := if q.fwd.isEmpty then max q.fwdAt (u + 1) else q.fwdAt }).markLine a fun l =>
          { l with dirty := false, writing := true }
  | _, _ => s

/-- An issued access fails: once only, and its data is dropped from then on. -/
def State.failOut (s : State) (n : Nat) (o : FeltOut) : State :=
  if o.failed then s
  else (s.modSlice n fun q => { q with out := q.out.map fun p => if p.tag == o.tag then { p with failed := true } else p }).feltFail
    o.acc fcResponse

/-- A response beat is taken in the first uc in which FRSP has not transferred one (R357). -/
def State.takeResponse (s : State) (n : Nat) : State :=
  let u := max s.uc (s.slice n).respAt
  { s with uc := u }.modSlice n fun q => { q with respAt := u + 1 }

/-- FELT_RESPONSE (R358). A response to a tag that is not outstanding is taken and dropped. A tag whose access has ended is free from the
next uc on (R357). -/
def State.feltResponse (s : State) (n : Nat) (r : FeltResp) : State :=
  let s := s.takeResponse n
  match (s.slice n).out.find? fun o => o.tag == r.tag.val with
  | none => s
  | some o =>
    let s := if r.err then s.failOut n o else s
    let o := { o with
      failed := o.failed || r.err
      rdata := if r.wack then o.rdata else o.rdata + r.data.toNat * 2 ^ (256 * o.beats)
      beats := o.beats + 1 }
    if r.last then
      let s := s.modSlice n fun q =>
        { q with out := q.out.filter fun p => p.tag != o.tag, tagAt := Tbl.put 0 q.tagAt o.tag (s.uc + 1) }
      if o.failed then s else s.feltDone o
    else s.modSlice n fun q => { q with out := q.out.map fun p => if p.tag == o.tag then o else p }

/-- FELT_REQUEST_ACCEPT: the host takes the request on FREQ; the next one follows in a later uc (R357). -/
def State.acceptRequest (s : State) (n : Nat) : State :=
  s.modSlice n fun q => if q.freq.isSome then { q with freq := none, reqAt := max q.reqAt (s.uc + 1) } else q

/-- FELT_WRITE_DATA_ACCEPT: the host takes the first beat on FWD, in the first uc in which it may be transferred (R357). -/
def State.acceptData (s : State) (n : Nat) : State :=
  let q := s.slice n
  if q.fwd.isEmpty then s
  else
    let u := max s.uc q.fwdAt
    { s with uc := u }.setSlice n { q with fwd := q.fwd.drop 1, fwdAt := u + 1 }

/-! ### What the ports show -/

/-- FREQ_CLS of an access (Table 12-7). A stash line written home in the write-back of R226 is a Loft line home write of Table 12-8
(log 77). -/
def FeltAcc.cls (a : FeltAcc) : Nat :=
  match a.kind with
  | .home _ | .homeWb _ | .straight _ | .fetch _ => 0
  | .stash _ _ | .stashStraight _ _ => 1
  | .sample _ => 2
  | .load | .maint => 3

/-- FREQ_SRC of an access (Table 12-7). -/
def FeltAcc.src (a : FeltAcc) : Nat := if a.cls = 3 then 1 else 0

/-- FREQ_ADDR of the request on a slice's port: bits [51:5] of the address. -/
def Slice.freqAddr (q : Slice) : Option Nat :=
  match q.freq with
  | some t => (q.out.find? fun o => o.tag == t).map fun o => o.addr / 32
  | none => none

/-! ### The commands -/

def execFeltAccessIssue (sl : SliceId) (s : State) : Host.Outcome State Fault Refusal := hw s fun s => s.feltIssue sl.val

def execFeltResponse (sl : SliceId) (r : FeltResp) (s : State) : Host.Outcome State Fault Refusal :=
  port s fun s => s.feltResponse sl.val r

def execFeltRequestAccept (sl : SliceId) (s : State) : Host.Outcome State Fault Refusal :=
  port s fun s => s.acceptRequest sl.val

def execFeltWriteDataAccept (sl : SliceId) (s : State) : Host.Outcome State Fault Refusal :=
  port s fun s => s.acceptData sl.val

end Sys2Proof.Machine
end

