-- ==== Sys2Proof/Machine/Headbox.lean ====
section
/-! DEFINITION. Headbox (R265, R284, R313, R353): the receivers, the delivery of a word to its context's channel, and the words
themselves (R285 to R288, R304, R305). -/
namespace Sys2Proof.Machine

/-- Table 10-3 as a word. -/
def nopWord : IWord := 0
def runWord (w : RunFields) : IWord :=
  mkWord 0x01 [(w.psel.toNat, 119), (w.evt.toNat, 118), (w.rrst.toNat, 117), (w.pseq.toNat, 101), (w.cbase.toNat, 87),
    (w.rbias.toNat, 55), (w.sbias.toNat, 25), (w.pass2.toNat, 24)]
def discardWord (pseq : BitVec 16) : IWord := mkWord 0x02 [(pseq.toNat, 101)]
/-- Table 10-14 as a word. -/
def rclrWord (rn rcnt : BitVec 8) (kind : BitVec 3) : IWord :=
  mkWord 0x90 [(rn.toNat, 112), (rcnt.toNat, 104), (kind.toNat, 101)]
def rexpWord (rn rcnt : BitVec 8) : IWord := mkWord 0x91 [(rn.toNat, 112), (rcnt.toNat, 104), (0xB, 97)]
def rcloseWord (w : RcloseFields) : IWord :=
  mkWord 0x92 [(w.rn.toNat, 112), (w.rcnt.toNat, 104), (w.ofmt.toNat, 97), (w.route.toNat, 96), (w.ddof.toNat, 95),
    (w.stats.toNat, 94), (w.dest.toNat, 93), (w.dslot.toNat, 89), (w.sel.toNat, 87)]
/-- Table 10-15 as a word. -/
def loftWord (opcode : Nat) (lidx lcnt : BitVec 32) : IWord := mkWord opcode [(lidx.toNat, 88), (lcnt.toNat, 56)]

/-- A run queued by its RUN word: what it captures when the word reaches the channel (R180, R252, R287). -/
def newRun (x : Ctx) (ser now : Nat) (w : RunW) : Run :=
  { ser := ser, w := w, slot := x.start w.psel, key := x.key, strm := x.strm, arrived := now, phase := .waiting, start := 0
    prog := ⟨[]⟩, base := none, beats := 0, rows := 0, lastT := 0, tEnd := 0, uLast := none, rowU := [], commitAt := 0, outs := [], emitAt := []
    closed := [], parts := [], sot := false, stashed := [], holds := false, takes := [], fills := [], landing := [], records := 0
    carryIn := [], readIdx := [], after := [] }

/-- Whether a word is refused (R265). -/
def Ctx.refuses (x : Ctx) (ten : Nat) : Bool := x.ten != ten || !(x.st == .bound || x.st == .running)

/-- A word that passes R265 reaches the channel: the encoding check of R282, then its effect (R285 to R288). -/
def State.accept (s : State) (c ser : Nat) (w : IWord) : State :=
  match directCheck w with
  | some flsb => s.ifault c false 0 0 (opc w) flsb
  | none =>
    match opOf w with
    | some .run => s.modCtx c fun x => { x with runs := x.runs ++ [newRun x ser (s.ch x.chan).cyc (RunW.ofWord w)] }
    | some .discard => s.discard c (IWord.fld w 116 101)
    | some .nop => s
    | _ => (s.modCtx c fun x => { x with directs := x.directs ++ [⟨ser, w⟩] }).settle c

/-- A channel takes one word in a cc: the next one in a later cc (R313). -/
def State.takeWord (s : State) (n : Nat) : State :=
  (s.pass n (s.ch n).wordAt).modCh n fun h => { h with wordAt := h.cyc + 1 }

/-- Whether a DISCARD meets a fault of its context in the cc in which the fault takes effect (R307, R331). -/
def State.meetsFault (s : State) (c ten : Nat) (w : IWord) : Bool :=
  let x := s.ctx c
  opOf w == some .discard && x.ten == ten && x.st == .faulted && x.abandonAt == some (s.ch (s.chanOf c)).cyc

/-- A word is refused (R265). A DISCARD that meets a fault of its context has no effect. -/
def State.refuseWord (s : State) (c ten : Nat) (w : IWord) : State := if s.meetsFault c ten w then s else s.refuse ten

/-- A word reaches the channel to which its context is bound, in a cc of its own (R313), or is refused (R265). -/
def State.deliver (s : State) (c ten ser : Nat) (w : IWord) : State :=
  if (s.ctx c).refuses ten then s.refuseWord c ten w
  else
    let s := s.takeWord (s.ctx c).chan
    if (s.ctx c).refuses ten then s.refuseWord c ten w else s.accept c ser w

/-- Whether the channel of a context can take a word now: it holds the context's resources (R284; log 26) and its clock
runs (R383). -/
def State.reachable (s : State) (c : Nat) : Bool := s.hosted c && !(s.ch (s.ctx c).chan).clkStop

/-- Whether a receiver may deliver a word: a word that R265 refuses leaves at once; any other needs its channel, and follows
every word of its context that was accepted earlier (R284). -/
def State.mayDeliver (s : State) (w : HbWord) : Bool :=
  ((s.ctx w.ctx).refuses w.ten || s.reachable w.ctx)
    && (List.range 8).all fun n => (s.rxq n).all fun v => v.ctx != w.ctx || decide (w.ser ≤ v.ser)

/-- HEADBOX_WORD (R353, R313): while 64 words are queued the acknowledge is withheld and nothing is accepted (log 61). A receiver accepts
one word in a uc: the next one in a later uc. -/
def State.headboxWord (s : State) (rx c ten : Nat) (w : IWord) : State :=
  if (s.rxq rx).length < 64 then
    let uc := max s.uc (Tbl.look 0 s.rxAt rx)
    { s.setRxq rx (s.rxq rx ++ [⟨w, c, ten, s.seq⟩]) with seq := s.seq + 1, uc := uc, rxAt := Tbl.put 0 s.rxAt rx (uc + 1) }
  else s

/-- HEADBOX_DELIVER: the first word of a receiver that may be delivered (R284, R313). -/
def State.headboxDeliver (s : State) (rx : Nat) : State :=
  match (s.rxq rx).find? s.mayDeliver with
  | none => s
  | some w => (s.setRxq rx ((s.rxq rx).filter fun v => v.ser != w.ser)).deliver w.ctx w.ten w.ser w.word

/-- A word that a command brings to the channel itself, accepted and delivered at once: where the channel can take it and no
word of its context accepted earlier waits in a receiver, or where R265 refuses it (log 27). -/
def State.direct (s : State) (c ten : Nat) (w : IWord) : State :=
  if s.mayDeliver ⟨w, c, ten, s.seq⟩ then ({ s with seq := s.seq + 1 }).deliver c ten s.seq w else s

/-! ### The commands -/

def execNop (ctx : CtxId) (ten : TenId) (s : State) : Host.Outcome State Fault Refusal :=
  port s fun s => s.direct ctx.val ten.val nopWord

def execRun (ctx : CtxId) (ten : TenId) (w : RunFields) (s : State) : Host.Outcome State Fault Refusal :=
  port s fun s => s.direct ctx.val ten.val (runWord w)

def execDiscard (ctx : CtxId) (ten : TenId) (pseq : BitVec 16) (s : State) : Host.Outcome State Fault Refusal :=
  port s fun s => s.direct ctx.val ten.val (discardWord pseq)

def execRclr (ctx : CtxId) (ten : TenId) (rn rcnt : BitVec 8) (kind : BitVec 3) (s : State) : Host.Outcome State Fault Refusal :=
  port s fun s => s.direct ctx.val ten.val (rclrWord rn rcnt kind)

def execRexp (ctx : CtxId) (ten : TenId) (rn rcnt : BitVec 8) (s : State) : Host.Outcome State Fault Refusal :=
  port s fun s => s.direct ctx.val ten.val (rexpWord rn rcnt)

def execRclose (ctx : CtxId) (ten : TenId) (w : RcloseFields) (s : State) : Host.Outcome State Fault Refusal :=
  port s fun s => s.direct ctx.val ten.val (rcloseWord w)

def execLrel (ctx : CtxId) (ten : TenId) (lidx lcnt : BitVec 32) (s : State) : Host.Outcome State Fault Refusal :=
  port s fun s => s.direct ctx.val ten.val (loftWord 0xA0 lidx lcnt)

def execLflush (ctx : CtxId) (ten : TenId) (lidx lcnt : BitVec 32) (s : State) : Host.Outcome State Fault Refusal :=
  port s fun s => s.direct ctx.val ten.val (loftWord 0xA1 lidx lcnt)

def execHeadboxWord (rx : ChanId) (ctx : CtxId) (ten : TenId) (word : BitVec 128) (s : State) : Host.Outcome State Fault Refusal :=
  port s fun s => s.headboxWord rx.val ctx.val ten.val word

def execHeadboxDeliver (rx : ChanId) (s : State) : Host.Outcome State Fault Refusal :=
  hw s fun s => s.headboxDeliver rx.val

end Sys2Proof.Machine
end

