-- ==== Sys2Proof/Machine/Fence.lean ====
section
/-! DEFINITION. Errors and their outcomes (R362 to R365), the fence and the placement of contexts (R276, R366 to R369), and the
channel commands with self-test and drain (R371 to R374). -/
namespace Sys2Proof.Machine

/-! ### Placement (R276) -/

/-- A context in ascending order of its number. -/
def insertNat (n : Nat) : List Nat → List Nat
  | [] => [n]
  | a :: r => if n < a then n :: a :: r else a :: insertNat n r
def sortNat (l : List Nat) : List Nat := l.foldr insertNat []

/-- Contexts bound to a channel, in ascending number. -/
def Channel.bound (h : Channel) : List Nat := sortNat (h.alloc.map fun a => a.ctx)

/-- Whether a context may be placed on a channel (R276). -/
def State.takes (s : State) (x : Ctx) (n : Nat) : Bool :=
  let h := s.ch n
  x.rbmask.getLsbD n && h.st == .ready && decide (x.vatreq ≤ 96 ∧ x.vatreq ≤ h.freeVat) && (h.placeReams x.reamreq).isSome

/-- The READY channel of RBMASK, other than the fenced one, that passes the checks and has the most free Vat, the lower number
on a tie (R276). -/
def State.rebindTarget (s : State) (n : Nat) (x : Ctx) : Option Nat :=
  (List.range 8).foldl (fun b m =>
    if m = n || !s.takes x m then b
    else match b with
      | none => some m
      | some k => if (s.ch m).freeVat > (s.ch k).freeVat then some m else some k) none

/-- CTXLOST of a context that a fence moves (R369) (log 58). -/
def lostRecord (h : Channel) (a : Alloc) (x : Ctx) : BitVec 64 :=
  let prev := x.lost
  let ream := (List.range a.reams).any fun i => (h.ream (a.ream + i)).com.kind != .unset
  let slot := x.slots.any fun sl => sl.copies.any fun c => c.st != .empty
  let n := x.runs.length
  let was := fld prev 15 8
  let first := if was ≠ 0 then fld prev 31 16 else (x.runs.head?.map fun r => r.w.pseq).getD 0
  let last := match x.runs.getLast? with | some r => r.w.pseq | none => fld prev 47 32
  let (cv, cp) := match x.cpseq with | some e => (1, e.2) | none => (fld prev 4 4, fld prev 63 48)
  regOf [(1, 1, 0), ((ream || prev.getLsbD 1).toNat, 1, 1), ((slot || prev.getLsbD 2).toNat, 1, 2), (fld prev 3 3, 1, 3),
         (cv, 1, 4), (min 255 (was + n), 8, 8), (first, 16, 16), (last, 16, 32), (cp, 16, 48)]

/-- A context of a fenced channel is placed on a surviving channel, or faulted for want of room (R276, R367, R369, Table
13-2). A RESTORE that waits takes effect, or is refused for a context whose entry was lost (R362). Where no channel has room it lapses, and
FAULTCODE stays as it is (log 57). -/
def State.place (s : State) (n c : Nat) : State :=
  let h := s.ch n
  match h.record c with
  | none => s
  | some a =>
    let x := s.ctx c
    let lost := lostRecord h a x
    let now := lostRecord h a { x with lost := madeIn x.lostNow s.uc }
    let s := s.writeBack n c
    let lost := lost ||| ((s.ctx c).lost &&& 8)
    let s := s.modCh n fun h => h.give c
    let wait := x.restoreWait && x.st == CtxSt.faulted && x.faultcode != fcEntryLost
    let refused := x.restoreWait && x.st == CtxSt.faulted && x.faultcode == fcEntryLost
    let y : Ctx := { x.sealCap.clearWork with lost := lost, lostNow := some (s.uc, now), binderr := if refused then 0x8 else x.binderr }
    let s := match s.rebindTarget n x with
      | some t =>
        let ht := s.ch t
        let lines := min x.alreq ht.freeLoft
        let s := s.setCh t (ht.take c x.vatreq ((ht.placeReams x.reamreq).getD 0) (4 * x.reamreq) lines)
        let y : Ctx := { y with
          st := if x.st == CtxSt.running then CtxSt.bound else x.st
          chan := t, rebound := some s.uc, reambase := (ht.placeReams x.reamreq).getD 0, algrant := lines
          budForce := x.budget, balance := satBal x.budget, slots := freshSlots (progDecls s x.starts) }
        s.setCtx c (if wait then y.restore else y)
      | none =>
        let s := s.setCtx c { y with
          st := CtxSt.faulted, faultcode := if x.faultcode = 0 then fcNoRoom else x.faultcode, algrant := 0, drain := .none }
        if x.st == CtxSt.faulted then s else s.tev x.ten tevFault
    s.tev x.ten tevRebind

/-! ### The fence -/

/-- A maintenance load into a channel that is fenced ends (R381). -/
def State.fenceLoad (s : State) (n : Nat) : State :=
  match s.mnt with
  | some m =>
    if m.kind ≠ 1 && m.ch == n then
      (s.endMntErr m 0x8 true).modSlice 0 fun q => { q with wait := q.wait.filter fun a => a.kind != AccKind.maint }
    else s
  | none => s

/-- The fence (R366, R367): a channel that is neither READY nor QUIESCING ignores a further cause. One whose clock has stopped is frozen
and fenced when the clock resumes (R383). -/
def State.fence (s : State) (n src index : Nat) : State :=
  let h := s.ch n
  if !(h.st == .ready || h.st == .quiescing) then s
  else if h.clkStop then s.setCh n { h with fenceLatch := some (h.fenceLatch.getD (src, index)) }
  else
    let s := s.setCh n { h with
      st := .fenced, err := some ⟨src, index, h.cyc % 2 ^ 32⟩, fcount := min 255 (h.fcount + 1), fencing := true
      copying := false, testLatch := false, wtest := none }
    let s := (s.raiseIf n).fenceLoad n
    let s := h.bound.foldl (fun s c => s.place n c) s
    s.modCh n Channel.fenceWipe

/-! ### Errors -/

/-- A residue or parity error that faults a context is counted, and the one that brings a window's count to RESLIM fences the
channel (R365), with INDEX 0 in CHERR, as the FENCE command does (log 91). -/
def State.countError (s : State) (n : Nat) : State :=
  let h := s.ch n
  let win := h.cyc / 2 ^ 24
  let cnt := (if h.resWin = win then h.resCnt else 0) + 1
  let s := s.setCh n { h with resWin := win, resCnt := cnt }
  let lim := (h.fcfg.extractLsb' 11 4).toNat
  if lim ≠ 0 && cnt == lim then s.fence n 0x7 0 else s

/-- The owning context of a residue or parity error faults (Table 13-1). -/
def State.ownerError (s : State) (c code : Nat) : State :=
  let x := s.ctx c
  let n := s.chanOf c
  if s.hosted c && (x.st == .bound || x.st == .running || x.st == .draining) then (s.fault c code 0).countError n else s

/-- A word that no context holds is written as zero and counted (R363). -/
def State.scrubbed (s : State) (n : Nat) : State := s.modCh n fun h => if h.ticking then { h with dCe := h.dCe + 1 } else h

/-- A Loft line with an uncorrectable error is lost (R226). Its loss is reported where it was dirty, and a line is dirty until its home write
is done (R222, R358). -/
def State.loseLine (s : State) (n : Nat) (l : LoftLine) : State :=
  let reported := l.dirty || s.issued fun a => a.writes n l
  let s := s.modCh n fun h => h.dropLine l.idx
  if !reported then s
  else
    let s := s.noteLoss l.owner
    if l.stash then s.setMark l.owner l.tag else s

/-- An uncorrectable SECDED error (Table 13-1) (log 60). -/
def State.uncorrectable (s : State) (u : ErrUnit) (index : Nat) : State :=
  match u with
  | .vat ch holder => if holder.isSome then s.fence ch.val 0x1 index else s.scrubbed ch.val
  | .loft ch holder line =>
    let n := ch.val
    match (s.ch n).wb.find? fun l => l.idx == line with
    | some l => (s.loseWb n l.owner l.line).fence n 0x2 index
    | none =>
      match (s.ch n).loft.find? fun l => l.idx == line with
      | some l => if (s.ch n).st == .ready || (s.ch n).st == .quiescing then (s.loseLine n l).fence n 0x2 index else s
      | none => if holder.isSome then s.fence n 0x2 index else s.scrubbed n
  | .ream ch holder _ => if holder.isSome then s.fence ch.val 0x3 index else s.scrubbed ch.val
  | .couch ch => s.fence ch.val 0x4 index
  | .egress ch => s.fence ch.val 0x5 index
  | .furnish ch slot => s.modCh ch.val fun h => { h with store := Tbl.put 0 h.store slot (s.masterWord slot) }
  | .mailbox entry => { s with mailbox := ((List.range s.mailbox.length).zip s.mailbox).map fun ie =>
      if ie.1 == entry then { ie.2 with lost := true } else ie.2 }
  | .millMemory _ => s.millFault
  | .feltSlice sl tag =>
    match (s.slice sl.val).out.find? fun o => o.tag == tag.val with
    | some o => s.failOut sl.val o
    | none => s
  | .headbox rx entry =>
    match (s.rxq rx.val)[entry]? with
    | none => s
    | some w =>
      let s := s.setRxq rx.val ((s.rxq rx.val).filter fun v => v.ser != w.ser)
      if (s.ctx w.ctx).refuses w.ten then s.refuse w.ten else s.fault w.ctx fcParity 0

/-! ### Duplicated words (Table 13-1) -/

/-- A register of the entry at its reset value. -/
def Ctx.resetEntry (x : Ctx) : Nat → Ctx
  | 0 => { x with st := .free, ten := 0, chan := 0, binderr := 0, lgmask := 0, rbmask := 0, faultcode := 0 }
  | 1 => { x with vatreq := 0, reamreq := 0, reambase := 0, proga := 0, progav := false, progb := 0, progbv := false }
  | 2 => { x with alreq := 0, algrant := 0, stashwin := 0, policy := 0 }
  | 3 => { x with stashbase := 0, extent := 0 }
  | 4 => { x with key := 0 }
  | 5 => { x with smpctr := 0 }
  | 6 => { x with strm := 0 }
  | _ => { x with budget := 0, balance := 0 }

/-- A register of the status block at its reset value. -/
def Ctx.resetStatus (x : Ctx) (r : Nat) : Ctx :=
  match r with
  | 0 => { x with flags := 0 }
  | 1 => { x with cap := none }
  | 2 => { x with iflt := 0, ifltNow := none }
  | 3 => { x with lost := 0, lostNow := none }
  | 4 => { x with stallPace := 0, stallBudget := 0 }
  | 5 | 6 | 7 => x
  | _ => if r < 12 then { x with mark := x.mark &&& ~~~((0xFFFFFFFFFFFFFFFF#256) <<< (64 * (r - 8))) } else x

/-- A register of a tenant at its reset value. -/
def Tenant.resetReg (t : Tenant) (r : Nat) : Tenant :=
  if r < 8 then
    { t with wins := t.wins.set (r / 2) (let w := t.win (r / 2)
                                         if r % 2 = 0 then { w with en := false, base := 0 } else { w with sizeexp := 0 }) }
  else if r = 8 then { t with tevpend := 0 }
  else if r = 9 then { t with tevmask := 0 }
  else if r = 10 then { t with trefcnt := 0 }
  else t

/-- A word of a context lost in both copies: a bound context, known from its channel's allocation record, is FAULTED with code
0x0A and its work is abandoned (R362, R273) (log 59). FAULT is set for the TENANT that the entry held before the loss (log 90). -/
def State.loseWord (s : State) (c : Nat) (f : Ctx → Ctx) : State :=
  if (s.homeOf c).isSome then
    let x := s.ctx c
    let n := s.chanOf c
    let enters := x.st != .faulted
    let s := if enters then s.abandon c else s
    let s := s.modCtx c fun y =>
      { f y with st := .faulted, faultcode := fcEntryLost, drain := .none
                 abandonAt := if enters then some (s.ch n).cyc else y.abandonAt }
    if enters then s.tev x.ten tevFault else s
  else s.modCtx c f

/-- A master word lost in both copies is written as zero into the master and into every channel store (R362), in place of a word that
waits for a store. -/
def State.loseMaster (s : State) (slot : Nat) : State :=
  (List.range 8).foldl (fun s n => s.modCh n fun h =>
      { h with store := Tbl.drop slot h.store, storeWait := h.storeWait.filter fun e => e.1 != slot })
    { s with master := Tbl.drop slot s.master }

/-- A duplicated word fails in one copy, which is rewritten from the other, or in both (R362). -/
def State.duplicateError (s : State) (w : DupWord) (both : Bool) : State :=
  if !both then s.raiseIf 18
  else
    let s := s.raiseIf 19
    match w with
    | .entry c r => s.loseWord c.val fun x => x.resetEntry r.val
    | .status c r => s.loseWord c.val fun x => x.resetStatus r.val
    | .master slot _ => s.loseMaster slot
    | .tenant t r => s.modTenant t.val fun x => x.resetReg r.val

/-- A corrected error is counted in its island (R363). -/
def State.corrected (s : State) : Island → State
  | .chan ch => s.modCh ch.val fun h => if h.ticking then { h with dCe := h.dCe + 1 } else h
  | .uncore => { s with ucce := sat32 (s.ucce + 1) }

/-- A parity error on a bus (Table 13-1): the context that owns the beat faults, or the channel is fenced. -/
def State.parity (s : State) (n : Nat) (owner : Option CtxId) (index : Nat) : State :=
  match owner with
  | some c => if s.chanOf c.val == n then s.ownerError c.val fcParity else s
  | none => s.fence n 0x6 index

/-- The clock of a channel resumes (R383, R404): its store takes the words that were written meanwhile, a fence that waits is made, the next
CCR grant is presented, and a read of DBGRDESC that waits for it is answered. -/
def State.clockResume (s : State) (n : Nat) : State :=
  let h := s.ch n
  let s := s.setCh n { h with
    clkStop := false, fenceLatch := none, ccrHold := false, storeWait := [], ctlHeld := false, store := Tbl.puts 0 h.store h.storeWait }
  let s := match h.fenceLatch with | some (src, index) => s.fence n src index | none => s
  if s.dbgWait && s.dbgCh == n then { s with dbgWait := false }.readDbgrdesc else s

/-! ### The commands -/

def execUncorrectableError (unit : ErrUnit) (index : BitVec 24) (s : State) : Host.Outcome State Fault Refusal :=
  hw s fun s => s.uncorrectable unit index.toNat

def execCorrectedError (where_ : Island) (s : State) : Host.Outcome State Fault Refusal := hw s fun s => s.corrected where_

def execResidueError (ctx : CtxId) (s : State) : Host.Outcome State Fault Refusal :=
  hw s fun s => s.ownerError ctx.val fcResidue

def execParityError (ch : ChanId) (owner : Option CtxId) (index : BitVec 24) (s : State) : Host.Outcome State Fault Refusal :=
  hw s fun s => s.parity ch.val owner index.toNat

def execDuplicateCopyError (word : DupWord) (both : Bool) (s : State) : Host.Outcome State Fault Refusal :=
  hw s fun s => s.duplicateError word both

/-- A scrub visits every word without changing one (R363); the errors that it finds are commands of their own (log 66). -/
def execScrub (_where : Island) (s : State) : Host.Outcome State Fault Refusal := hw s fun s => s

def execFence (ch : ChanId) (s : State) : Host.Outcome State Fault Refusal := ctl s fun s => s.fence ch.val 0x8 0

end Sys2Proof.Machine
end

