-- ==== Sys2Proof/Machine/Service.lean ====
section
/-! DEFINITION. The states of a channel in service (Table 13-3, Table 13-5), its power states (Table 14-3, R388, R389), the
throttle (R329, R396, R397), the budget windows (R271, R272, R409), clocks, reset and reports (R382, R383, R392, R393,
R405). -/
namespace Sys2Proof.Machine

/-! ### Self-test, rejoining, drain -/

/-- A channel enters TESTING: the test writes over every SRAM (R371). -/
def Channel.enterTest (h : Channel) (t : Option WTest) : Channel :=
  { h.wipe with st := .testing, copying := false, testLatch := false, rjlatch := false, fencing := false, wtest := t }

/-- A test is held until the fence sequence is complete (R373). A wrapper's request that joins a TEST which is held, in a later uc,
limits it to its own test: the full self-test of the TEST is not run (log 30). -/
def Channel.latchTest (h : Channel) (t : Option WTest) : Channel := { h with testLatch := true, wtest := h.wtest <|> t }

/-- TEST (Table 13-5), or a wrapper's request that acts as one (R427): held while the fence sequence is not complete (R373). A wrapper's
request that is held stands when TEST follows it (log 30). In QUIESCING, or in FENCED after the sequence, a TEST written during the copy
of a RELEASE or a REJOIN ends that copy and is run instead (log 53). -/
def State.test (s : State) (n : Nat) (t : Option WTest) : State :=
  s.modCh n fun h =>
    if h.st == .fenced && !h.perm then (if h.fencing then h.latchTest t else h.enterTest t)
    else if h.st == .quiescing && h.alloc.isEmpty then h.enterTest t
    else h

/-- CHCMD TEST: the uc in which it is written is kept, for a request of the wrapper in the same uc (R433). -/
def State.testCommand (s : State) (n : Nat) : State := (s.modCh n fun h => { h with testAt := some s.uc }).test n none

/-- REJOIN (Table 13-5, R376): latched during TESTING; otherwise the channel copies the furnish master (R173). -/
def Channel.rejoin (h : Channel) : Channel :=
  let good := !(h.imgbadMc || h.imgbadTb)
  if !good then h
  else if h.st == .testing then { h with rjlatch := true }
  else if (h.st == .fenced && h.tres == 1 && !h.perm) || (h.st == .quiescing && h.alloc.isEmpty) then { h with copying := true }
  else h

/-- QUIESCE (R374). -/
def State.quiesce (s : State) (n : Nat) : State :=
  s.modCh n fun h => if h.st == .ready then { h with st := .quiescing, qabort := false, quietAt := s.uc, copying := false } else h

/-- RELEASE (Table 13-3): the channel returns to READY when it has copied the master. -/
def Channel.unquiesce (h : Channel) : Channel := if h.st == .quiescing then { h with copying := true } else h

/-- The drain time-out in uc (Table 13-4). -/
def Channel.drainTime (h : Channel) : Nat :=
  let q := (h.fcfg.extractLsb' 6 5).toNat
  2 ^ (if 10 ≤ q ∧ q ≤ 30 then q else 30)

/-- A drain times out with a context still bound (R374, R381). -/
def State.drainTimeout (s : State) (n : Nat) : State :=
  let h := s.ch n
  if h.st == .quiescing && !h.copying then
    let s := { s with uc := max s.uc (h.quietAt + h.drainTime) }
    if h.alloc.isEmpty then s else s.setCh n { h with qabort := true, copying := true }
  else s

/-- The placements and the write-back of a fence are complete (Table 13-3). A TEST that is held goes before the copy of a REJOIN, which is
then latched. A REJOIN alone skips the self-test of AUTOTEST, and its copy goes on (log 53). -/
def State.fenceDone (s : State) (n : Nat) : State :=
  let h := s.ch n
  if !(h.st == .fenced && h.fencing && h.wb.isEmpty) then s
  else
    let h := { h with fencing := false }
    if !h.perm && h.testLatch then s.setCh n { h.enterTest h.wtest with rjlatch := h.copying }
    else if !h.perm && !h.copying && h.fcfg.getLsbD 0 then s.setCh n (h.enterTest none)
    else (s.setCh n { h with testLatch := false }).honourOff n

/-- CHFSTAT TRES of a result (Table 13-4). -/
def tresOf : TestResult → Nat | .pass => 1 | .mbistFail => 2 | .lbistFail => 3

/-- A test ends (Table 13-3): with every part passed the channel copies the master and rejoins, or is FENCED; with a failure it
is FENCED for good. -/
def State.testEnds (s : State) (n tres : Nat) : State :=
  let h := { s.ch n with tres := tres, wtest := none }
  if tres ≠ 1 then
    ((s.setCh n { h with st := .fenced, perm := true, rjlatch := false }).raiseIf (8 + n)).honourOff n
  else if (h.fcfg.getLsbD 1 && decide (h.fcount < (h.fcfg.extractLsb' 2 4).toNat)) || h.rjlatch then
    s.setCh n { h with copying := true }
  else (s.setCh n { h with st := .fenced, rjlatch := false }).honourOff n

/-- The self-test of a channel, begun by the fence sequence or by TEST, ends. -/
def State.selfTestDone (s : State) (n : Nat) (r : TestResult) : State :=
  let h := s.ch n
  if h.st == .testing && h.wtest.isNone && !h.copying && !h.clkStop then s.testEnds n (tresOf r) else s

/-- The furnish copy ends (R173): the channel enters READY, even if the write-back of its fence is not complete. In power-up it is step 6 of
Table 14-4, and READY follows (log 53). Without a clock it waits (R383). -/
def State.copyDone (s : State) (n : Nat) : State :=
  let h := s.ch n
  if h.frozen || (h.fencing && h.testLatch) then s
  else if h.st == .powering then (if h.wtest.isSome then s else s.setCh n { h with store := s.master })
  else if h.copying then
    (s.setCh n { h with st := .ready, store := s.master, copying := false, fencing := false, testLatch := false, rjlatch := false
                        wtest := none }).honourOff n
  else s

/-! ### Power -/

/-- A FLOOR or CEIL of 7 acts as 6 (Table 14-1). -/
def stepCode (n : Nat) : Nat := min n 6
def Channel.floor (h : Channel) : Nat := stepCode (h.pchctl.extractLsb' 0 3).toNat
def Channel.ceil (h : Channel) : Nat := stepCode (h.pchctl.extractLsb' 3 3).toNat

/-- Entry into POWERING (R271, R388, R389, R396, R409). -/
def Channel.powerUp (h : Channel) : Channel :=
  { h.wipe with
    st := .powering, sdown := false, onlatch := false, cyc := 0, step := h.floor, thrpend := false, th := 0, pw := 0, wexp := h.wexpStored
    wexpAt := 0, refilled := 0, decided := 0, pchOld := none, resWin := 0, resCnt := 0, imgbadMc := false, imgbadTb := false, fencing := false }

/-- POWER (Table 14-3). -/
def Channel.power (h : Channel) : Channel :=
  match h.st with
  | .off => if h.sdown then { h with onlatch := true } else h.powerUp
  | .powering => { h with offlatch := false }
  | _ => h

/-- Whether a maintenance load into a channel is in progress (R399). -/
def State.loading (s : State) (n : Nat) : Bool := match s.mnt with | some m => m.kind != 1 && m.ch == n | none => false

/-- OFF (Table 14-3). -/
def State.turnOff (s : State) (n : Nat) : State :=
  let h := s.ch n
  match h.st with
  | .powering | .testing => s.setCh n { h with offlatch := true }
  | .off => if h.sdown then s.setCh n { h with onlatch := false } else s
  | _ => if h.mayOff && !s.loading n then s.setCh n h.goOff else s

/-- The switches are open: SDOWN falls, and a latched POWER is honoured (Table 14-3). Without a clock its 8 cc do not pass (R383). -/
def Channel.switchesOpen (h : Channel) : Channel :=
  if h.st == .off && h.sdown && !h.clkStop then (if h.onlatch then h.powerUp else { h with sdown := false }) else h

/-- Power-up completes (R388): the ROM baselines are in force (R389), a report crosses, and the master is copied (R173). Without a clock it
waits (R383). A channel that a wrapper's request powered enters TESTING after step 3 (R427). -/
def State.powerUpDone (s : State) (n : Nat) : State :=
  let h := s.ch n
  if h.st == .powering && !h.clkStop then
    if h.wtest.isSome then s.setCh n { h with st := .testing }
    else (s.setCh n { h.report with
      st := if h.perm then .fenced else .ready, store := s.master, mcCrc := Config.romMicrocodeCrc
      tbCrc := Config.romTableCrc }).honourOff n
  else s

/-! ### Throttle -/

/-- An announced step takes effect (R329, R396). -/
def Channel.stepNow (h : Channel) : Channel := { h with step := h.next, thrpend := false }

/-- Two's complement value of a temperature. -/
def degrees (t : BitVec 8) : Int := t.toInt

/-- The thermal term after a decision (R396). -/
def Channel.thermal (h : Channel) (temp : BitVec 8) : Nat :=
  if !h.pchctl.getLsbD 6 then 0
  else if degrees temp ≥ degrees (h.pchctl.extractLsb' 23 8) then 6
  else if degrees temp ≥ degrees (h.pchctl.extractLsb' 7 8) then min (h.th + 1) 6
  else if degrees temp ≤ degrees (h.pchctl.extractLsb' 15 8) then h.th - 1
  else h.th

/-- A throttle decision in a decision cc with the power-limit term pw (R396). The step of a tie is counted to the floor, the
thermal term and the power limit in that order (log 28). -/
def Channel.throttle (h : Channel) (temp : BitVec 8) (pw cc : Nat) : Channel :=
  let h := if h.thrpend && decide (h.thrAt + 4096 ≤ cc) then h.stepNow else h
  let th := h.thermal temp
  let auto := min h.ceil (max th pw)
  let target := max h.floor auto
  let src := if target = 0 then 0 else if auto < h.floor then 3 else if th ≥ pw then 1 else 2
  let h := { h with th := th, temp := temp, decided := cc + 1 }
  if !h.thrpend && target ≠ h.step then
    { h with next := if target > h.step then h.step + 1 else h.step - 1, thrpend := true, thrAt := cc, thrsrc := src }
  else h

/-- A throttle decision in a decision cc under CHPCTL as it stood before that cc (R396, R415). -/
def Channel.decision (h : Channel) (temp : BitVec 8) (pw cc : Nat) : Channel :=
  { ({ h with pchctl := h.pchAt cc } : Channel).throttle temp pw cc with pchctl := h.pchctl }

/-- The next cycle that is a multiple of a period, not before a bound: the last one passed when it has not been served. -/
def nextMultiple (now served period : Nat) : Nat :=
  let m := now / period * period
  if m < served then m + period else m

/-- THROTTLE_DECISION, in the next cc that is a multiple of 2^16. -/
def State.throttleDecision (s : State) (n : Nat) (temp : BitVec 8) : State :=
  let h := s.ch n
  if h.ticking then
    let cc := nextMultiple h.cyc h.decided 65536
    (s.pass n cc).modCh n fun h => h.decision temp (if s.plimit = 0 then 0 else h.pw) cc
  else s

/-- THROTTLE_STEP_EFFECT, 4,096 cc after the announcement. -/
def State.stepEffect (s : State) (n : Nat) : State :=
  let h := s.ch n
  if h.ticking && h.thrpend then (s.pass n (h.thrAt + 4096)).modCh n Channel.stepNow else s

/-- CH_THR_STEP (R338). -/
def Channel.thrStepPin (h : Channel) : Nat := if h.thrpend then h.next else h.step

/-- pw after an estimate (R397). -/
def State.nextPw (s : State) (mw : Nat) : Nat :=
  let lim := 1000 * s.plimit.toNat
  if lim = 0 then 0 else if mw > lim then min 6 (s.pw + 1) else if 10 * mw ≤ 9 * lim then s.pw - 1 else s.pw

/-- A value of pw crosses to every island that works and whose clock runs (R397) (log 78). -/
def State.sendPw (s : State) (pw : Nat) : State :=
  (List.range 8).foldl (fun s n => s.modCh n fun h => if h.ticking && h.st != .powering then { h with pw := pw } else h) s

/-- POWER_ESTIMATE, once every 2^16 uc (R397); the estimate is an operand, in milliwatts. -/
def State.powerEstimate (s : State) (mw : Nat) : State :=
  let u := nextMultiple s.uc s.estAt 65536
  let pw := s.nextPw mw
  { s with uc := max s.uc u, estAt := u + 1, pw := pw }.sendPw pw

/-! ### Budget windows -/

/-- The refill of a context (R272). -/
def Ctx.refill (x : Ctx) : Ctx :=
  { x with budForce := x.budget, balance := if x.budget = 0 then x.balance else satBal (min x.balance 0 + x.budget) }

/-- BUDGET_REFILL: the first cc of the next window, or of the present one when its refill is not made. A stored exponent comes
into force in a cc that begins a window under both sizes (R409). -/
def State.budgetRefill (s : State) (n : Nat) : State :=
  let h := s.ch n
  if !h.ticking then s
  else
    let cc := nextMultiple h.cyc h.refilled (2 ^ h.wexp)
    let force := decide (h.wexpAt ≤ cc) && decide (cc % 2 ^ max h.wexp h.wexpStored = 0)
    let s := (s.pass n cc).modCh n fun h => { h with refilled := cc + 1, wexp := if force then h.wexpStored else h.wexp }
    h.bound.foldl (fun s c => s.modCtx c Ctx.refill) s

/-! ### Clocks and reset -/

/-- A level of an input: it acts in every state but the undefined one. -/
def level (s : State) (f : State → State) : Host.Outcome State Fault Refusal :=
  if s.undef then .refused .undefinedUntilReset else .next (f s)

/-- JRST_N is low: every register at its reset value, every channel OFF, the mill core halted, every transition abandoned
(R392). The clock inputs, the test wrapper and the commands that wait are outside the reset; the wrapper's lock follows JRST_N
(R428), and a test that ran has ended (R433): BUSY is 0, and the rest of the BIST status stays as it was, DONE 0 of the abandoned
test with it (log 108). -/
def State.assertReset (s : State) : State :=
  { State.reset with
    pending := s.pending, jrst := true, uc := s.uc, freeCtr := s.freeCtr, seq := s.seq
    chans := (List.range 8).foldl (fun t n =>
      Tbl.put Channel.reset t n { Channel.reset with clkStop := (s.ch n).clkStop }) []
    wrap := { s.wrap with tries := 0, opened := false, bist := (List.range 8).foldl (fun t n =>
              Tbl.put Bist.reset t n { Tbl.look Bist.reset s.wrap.bist n with busy := false }) [] }
    ucKHz := s.ucKHz, chKHz := s.chKHz }

/-! ### The commands -/

def execQuiesce (ch : ChanId) (s : State) : Host.Outcome State Fault Refusal := ctl s fun s => s.quiesce ch.val

def execTest (ch : ChanId) (s : State) : Host.Outcome State Fault Refusal := ctl s fun s => s.testCommand ch.val

def execRejoin (ch : ChanId) (s : State) : Host.Outcome State Fault Refusal := ctl s fun s => s.modCh ch.val Channel.rejoin

def execRelease (ch : ChanId) (s : State) : Host.Outcome State Fault Refusal := ctl s fun s => s.modCh ch.val Channel.unquiesce

def execDrainTimeout (ch : ChanId) (s : State) : Host.Outcome State Fault Refusal := hw s fun s => s.drainTimeout ch.val

def execFenceWritebackDone (ch : ChanId) (s : State) : Host.Outcome State Fault Refusal := hw s fun s => s.fenceDone ch.val

def execSelfTestDone (ch : ChanId) (res : TestResult) (s : State) : Host.Outcome State Fault Refusal :=
  hw s fun s => s.selfTestDone ch.val res

def execFurnishCopyDone (ch : ChanId) (s : State) : Host.Outcome State Fault Refusal := hw s fun s => s.copyDone ch.val

def execPower (ch : ChanId) (s : State) : Host.Outcome State Fault Refusal := ctl s fun s => s.modCh ch.val Channel.power

def execOff (ch : ChanId) (s : State) : Host.Outcome State Fault Refusal := ctl s fun s => s.turnOff ch.val

def execSwitchesOpen (ch : ChanId) (s : State) : Host.Outcome State Fault Refusal :=
  hw s fun s => s.modCh ch.val Channel.switchesOpen

def execPowerUpDone (ch : ChanId) (s : State) : Host.Outcome State Fault Refusal := hw s fun s => s.powerUpDone ch.val

def execThrottleDecision (ch : ChanId) (temp : BitVec 8) (s : State) : Host.Outcome State Fault Refusal :=
  hw s fun s => s.throttleDecision ch.val temp

def execThrottleStepEffect (ch : ChanId) (s : State) : Host.Outcome State Fault Refusal :=
  hw s fun s => s.stepEffect ch.val

def execPowerEstimate (milliwatts : Nat) (s : State) : Host.Outcome State Fault Refusal := hw s fun s => s.powerEstimate milliwatts

def execBudgetRefill (ch : ChanId) (s : State) : Host.Outcome State Fault Refusal := hw s fun s => s.budgetRefill ch.val

def execChannelClockStop (ch : ChanId) (s : State) : Host.Outcome State Fault Refusal :=
  level s fun s => s.modCh ch.val fun h => { h with clkStop := true }

def execChannelClockResume (ch : ChanId) (s : State) : Host.Outcome State Fault Refusal :=
  level s fun s => s.clockResume ch.val

/-- A frequency change alters no result, flag, count or ordering (R382). -/
def execClockFrequencyChange (clk : ClockIn) (kHz : Nat) (s : State) : Host.Outcome State Fault Refusal :=
  level s fun s => match clk with
    | .chan ch => { s with chKHz := Tbl.put 0 s.chKHz ch.val kHz }
    | .uncore => { s with ucKHz := kHz }

def execResetAssert (s : State) : Host.Outcome State Fault Refusal := .next s.assertReset

/-- The uncore starts to initialise itself (R393). -/
def execResetRelease (s : State) : Host.Outcome State Fault Refusal := level s fun s => { s with jrst := false }

def execUncoreInitDone (s : State) : Host.Outcome State Fault Refusal := hw s State.initDone

def execChannelReport (ch : ChanId) (s : State) : Host.Outcome State Fault Refusal :=
  hw s fun s => s.modCh ch.val fun h => if h.ticking then h.report else h

end Sys2Proof.Machine
end

