-- ==== Sys2Proof/Machine/Control.lean ====
section
/-! DEFINITION. A Control write to any offset (R14 to R17, R400, R401): each register acts under its access code; what a row
of its own describes acts as that row does. -/
namespace Sys2Proof.Machine

/-- CTXCMD (R259). -/
def State.ctxcmd (s : State) (d : BitVec 64) : State :=
  let c := fld d 9 0
  match fld d 18 16 with
  | 1 => (s.bind c).1
  | 2 => (s.unbind c).1
  | 3 => (s.teardown c).1
  | 4 => (s.restore c).1
  | 5 => (s.migrate c (fld d 26 24)).1
  | _ => s

/-- CHCMD (Table 13-5). -/
def State.chcmd (s : State) (n : Nat) (d : BitVec 64) : State :=
  match fld d 2 0 with
  | 1 => s.quiesce n
  | 2 => s.testCommand n
  | 3 => s.modCh n Channel.rejoin
  | 4 => s.fence n 0x8 0
  | 5 => s.modCh n Channel.unquiesce
  | _ => s

/-- CHPCMD (Table 14-1). -/
def State.chpcmd (s : State) (n : Nat) (d : BitVec 64) : State :=
  match fld d 1 0 with
  | 1 => s.modCh n Channel.power
  | 2 => s.turnOff n
  | _ => s

/-- PSTEP: values below 16 act as 16 (Table 14-2). -/
def State.powerStep (s : State) : Nat := max 16 s.pstep.toNat

/-- The global block (Table 15-3). -/
def State.writeGlobal (s : State) (o : Nat) (d : BitVec 64) : State :=
  if o = 0x1000 then s.ctxcmd d
  else if o = 0x1100 then s.clearIfstat d
  else if o = 0x1108 then { s with ifmask := d.extractLsb' 0 21 }
  else if o = 0x1200 then { s with mntAddr := d.extractLsb' 6 46 }
  else if o = 0x1208 then s.mntCommand (fld d 1 0) (if fld d 1 0 = 1 then 0 else fld d 6 4)
  else if o = 0x1308 then
    let s := { s with pstep := d.extractLsb' 0 12, plimit := d.extractLsb' 12 8 }
    if fld d 19 12 = 0 then { s with pw := 0 }.sendPw 0 else s
  else s

/-- A channel's block (Table 15-4). CHPCTL acts at the next decision (R396). -/
def State.writeChannel (s : State) (n o : Nat) (d : BitVec 64) : State :=
  if o = 0x000 then s.clearChflag n d
  else if o = 0x010 then s.writeChwin n d
  else if o = 0x500 then s.chcmd n d
  else if o = 0x508 then s.modCh n fun h => { h with fcfg := d.extractLsb' 0 15 }
  else if o = 0x608 then s.chpcmd n d
  else if o = 0x610 then s.modCh n fun h => h.writePchctl (d.extractLsb' 0 31)
  else s

/-- A context's entry (Table 9-1), register k. -/
def State.writeEntry (s : State) (c k : Nat) (d : BitVec 64) : State :=
  match k with
  | 0 => s.writeCtxst c d
  | 1 => s.writeCtxres c d
  | 2 => s.writeCtxloft c d
  | 3 => s.writeCtxstash c d
  | 4 => s.writeCtxkey c d
  | 5 => s.modCtx c fun x => { x with smpctr := d }
  | 6 => s.modCtx c fun x => { x with strm := d.extractLsb' 0 32 }
  | _ => s.writeCtxbud c d

/-- A context's status block (Table 15-5), register k. -/
def State.writeStatus (s : State) (c k : Nat) (d : BitVec 64) : State :=
  if k = 0 then s.clearCtxflag c d
  else if k = 1 then s.clearCap c d
  else if k = 2 then s.clearIflt c d
  else if k = 3 then s.clearLost c d
  else if 8 ≤ k ∧ k ≤ 11 then s.clearMark c (k - 8) d
  else s

/-- A tenant's windows and events (Table 9-4). -/
def State.writeTenant (s : State) (t o : Nat) (d : BitVec 64) : State :=
  if o < 0x40 then
    s.modTenant t fun x =>
      let w := x.win (o / 0x10)
      let v := if o % 0x10 = 0 then { w with en := d.getLsbD 0, base := d.extractLsb' 12 40 }
        else { w with sizeexp := d.extractLsb' 0 6 }
      { x with wins := setNth x.wins (o / 0x10) v }
  else if o = 0x40 then s.clearTevpend t d
  else if o = 0x48 then s.modTenant t fun x => { x with tevmask := d.extractLsb' 0 5 }
  else s

/-- The debug block (Table 3-6). -/
def State.writeDebug (s : State) (o : Nat) (d : BitVec 64) : State :=
  if o = 0x000 then { s with dbgen := d.getLsbD 0 }
  else if o = 0x100 then s.writeDbgrsel d
  else s

/-- A Control write (R400): an offset that no register occupies ignores it (R17). -/
def State.writeReg (s : State) (off : Nat) (d : BitVec 64) : State :=
  let o := off / 8 * 8
  if o < 0x002000 then s.writeGlobal o d
  else if o < 0x002200 then
    let t := (o - 0x2000) / 0x20
    if o % 0x20 = 0x00 then s.mbplWrite t d else if o % 0x20 = 0x08 then s.mbphWrite t d else s
  else if o < 0x010000 then s
  else if o < 0x018000 then s.writeChannel ((o - 0x010000) / 0x1000) (o % 0x1000) d
  else if o < 0x100000 then s
  else if o < 0x110000 then s.writeEntry ((o - 0x100000) / 0x40) (o % 0x40 / 8) d
  else if o < 0x130000 then s.writeStatus ((o - 0x110000) / 0x80) (o % 0x80 / 8) d
  else if o < 0x200000 then s
  else if o < 0x210000 then
    (if o % 0x10 = 0 then s.furnishLow ((o - 0x200000) / 0x10) d else s.furnishHigh ((o - 0x200000) / 0x10) d)
  else if o < 0x300000 then s
  else if o < 0x300800 then s.writeTenant ((o - 0x300000) / 0x80) (o % 0x80) d
  else if 0x3F0000 ≤ o ∧ o < 0x400000 then s.writeDebug (o - 0x3F0000) d
  else s

def execRegisterWrite (offset : BitVec 24) (data : BitVec 64) (s : State) : Host.Outcome State Fault Refusal :=
  ctl s fun s => s.writeReg offset.toNat data

end Sys2Proof.Machine
end

