-- ==== Sys2Proof/Machine/Couch.lean ====
section
/-! DEFINITION. Couch credits and arriving beats (R316, R317, R340, R341), and the transfers that the host accepts (R341, R352). -/
namespace Sys2Proof.Machine

/-- The start of a context's earliest run that has started and has not completed (R316, R180). -/
def Ctx.openStart (x : Ctx) : Option Nat := (x.runs.find? fun r => r.phase != .waiting).map fun r => r.start

/-- Buffer entries that no beat and no credit takes (R316). -/
def Channel.freeBuffer (h : Channel) : Nat := 32 - h.couch.length - h.credits.foldl (fun n e => n + e.2) 0

/-- Insertion by (start, context). -/
def insertStart (e : Nat × Nat) : List (Nat × Nat) → List (Nat × Nat)
  | [] => [e]
  | a :: r => if e.1 < a.1 || (e.1 == a.1 && decide (e.2 < a.2)) then e :: a :: r else a :: insertStart e r

/-- Contexts that receive credits, in the order in which they are served (R316): (start, context) (log 52). -/
def State.served (s : State) (n : Nat) : List (Nat × Nat) :=
  ((s.ch n).alloc.filterMap fun a => ((s.ctx a.ctx).openStart).map fun t => (t, a.ctx)).foldr insertStart []

/-- One context's grant: up to 16 unused credits, within the free entries. -/
def Channel.grant (h : Channel) (c : Nat) : Channel :=
  let g := min (16 - h.credit c) h.freeBuffer
  if g = 0 then h else { h.setCredit c (h.credit c + g) with grants := h.grants ++ [(c, g)] }

/-- CREDIT_GRANT: the grants of one cc (R316, R341). -/
def State.creditGrant (s : State) (n : Nat) : State :=
  if (s.ch n).serves then s.modCh n fun h => (s.served n).foldl (fun h e => h.grant e.2) h else s

/-- COUCH_BEAT (R317, R340, R328): a beat enters the buffer against a credit of its context, or is discarded; it is not counted when it
uses a credit that lapsed as its context faulted (R361). -/
def State.couchBeat (s : State) (n : Nat) (b : CouchBeat) : State :=
  let h := s.ch n
  let c := b.ctx.val
  let x := s.ctx c
  let err := s.setCh n { h with dCrederr := h.dCrederr + 1 }
  if !(h.st == .ready || h.st == .quiescing) then s
  else if x.ten != b.ten.val then err
  else if x.faultcode ≠ 0 && Tbl.look 0 h.lapsed c > 0 then
    s.setCh n { h with lapsed := Tbl.put 0 h.lapsed c (Tbl.look 0 h.lapsed c - 1) }
  else if (h.record c).isNone || x.chan != n || h.credit c = 0 then err
  else
    let h := h.setCredit c (h.credit c - 1)
    if x.dropSot && !b.sot then s.setCh n h
    else
      let s := if x.dropSot then s.modCtx c fun x => { x with dropSot := false } else s
      { s.setCh n { h with couch := h.couch ++ [⟨s.seq, h.cyc, b⟩] } with seq := s.seq + 1 }

/-- The host takes the grant on the CCR port (R341). A frozen channel then presents no other (R383). -/
def Channel.nextGrant (h : Channel) : Channel := if h.ccrHold then h else { h with grants := h.grants.drop 1, ccrHold := h.frozen }

/-! ### The commands -/

def execCreditGrant (ch : ChanId) (s : State) : Host.Outcome State Fault Refusal := hw s fun s => s.creditGrant ch.val

def execCreditGrantAccept (ch : ChanId) (s : State) : Host.Outcome State Fault Refusal :=
  port s fun s => s.modCh ch.val Channel.nextGrant

def execCouchBeat (ch : ChanId) (beat : CouchBeat) (s : State) : Host.Outcome State Fault Refusal :=
  port s fun s => s.couchBeat ch.val beat

def execReelAccept (ch : ChanId) (s : State) : Host.Outcome State Fault Refusal :=
  port s fun s => s.modCh ch.val fun h => { h with reelPort := none }

end Sys2Proof.Machine
end

