-- ==== Sys2Proof/Machine/Issue.lean ====
section
/-! DEFINITION. The commands that take a run through its channel: RUN_START, COUCH_PRESENT, TILE_COMMIT and REEL_PRESENT. Time passes to
the cc in which each acts (log 4). -/
namespace Sys2Proof.Machine

/-- RUN_START: in the cc after it reached the channel, or the present one, the next run of a context is chosen where R270 and R272 let
it, and starts, after the handover of lane groups; else it waits for one cc (R314, R321) (log 84). -/
def State.runStart (s : State) (c : Nat) : State :=
  let n := (s.ctx c).chan
  match (s.ctx c).waiting with
  | none => s
  | some r =>
    if !s.hosted c || !(s.ch n).serves || s.heldBack c r then s
    else
      let s := s.pass n (r.arrived + 1)
      match s.couldStart c with
      | some q =>
        if s.outrun c q.ser then s.pass n ((s.ch n).cyc + 1)
        else
          let s := s.pass n ((s.ch n).handover c (s.ctx c).lgmask.toNat)
          match s.nextRun c with
          | some q => (s.start c q).settleDue n
          | none => s
      | none => if (s.startWait c).isSome then s.pass n ((s.ch n).cyc + 1) else s

/-- Couch in the present cc: the contexts whose beats may be presented are judged in their order, and the first that every condition
permits is presented (R318, R319). -/
def State.couch (s : State) (n : Nat) : State :=
  let t := (s.ch n).cyc
  match (s.cands n).filter fun q => q.ready ≤ t with
  | [] => s
  | cs =>
    let p := cs.foldl (Poll.step n t) ⟨s, none, []⟩
    let s := match p.win with
      | some (q, r) => (p.s.modCh n fun h => h.takeBeat q.beat.ser).presentBeat n q.ctx r q.beat.beat t
      | none => p.s
    (s.modCh n fun h => { h with polled := some ⟨p.win.isSome, p.stalls⟩ }).settleDue n

/-- The first cc, from the present one on, in which a buffered beat may be presented (R315, R318). -/
def State.couchAt (s : State) (n : Nat) : Nat :=
  match (s.cands n).map fun q => q.ready with
  | [] => (s.ch n).cyc
  | r :: rs => rs.foldl min r

/-- COUCH_PRESENT: Couch in the next cc in which it has not been commanded and a beat may be presented. -/
def State.couchPresent (s : State) (n : Nat) : State :=
  if !(s.ch n).serves then s
  else
    let s := if (s.ch n).polled.isSome then s.pass n ((s.ch n).cyc + 1) else s
    (s.pass n (s.couchAt n)).couch n

/-- The commit that is due for a run. -/
def Channel.uncommit (h : Channel) (ser : Nat) : Channel :=
  { h with due := h.due.filter fun e => !(e.run == some ser && e.what == .commit) }

/-- TILE_COMMIT: the first tile of a context that has ended commits, in its cc (R87, R91), once it has passed its check; the words after
the ingest follow in the next cc (R303). -/
def State.tileCommit (s : State) (c : Nat) : State :=
  let n := (s.ctx c).chan
  match (s.ctx c).runs.find? fun r => r.phase == .checking || r.phase == .ended with
  | none => s
  | some r =>
    if !s.hosted c || !(s.ch n).serves then s
    else
      let s := s.pass n (r.tEnd + 1)
      match (s.ctx c).run r.ser with
      | none => s
      | some r =>
        let s := s.passTo n r.commitDone (Effect.rank .commit)
        let s := ((s.modCh n fun h => h.uncommit r.ser).commit n c r.ser).settleDue n
        if r.after.isEmpty then s else s.pass n (r.commitAt + 3)

/-- REEL_PRESENT: the first beat of the egress buffer goes to the port, in its fixed cycle or later (R330). -/
def State.reelPresent (s : State) (n : Nat) : State :=
  let h := s.ch n
  if !h.serves then s
  else match h.reelPort, h.egress with
    | none, b :: _ =>
      let s := s.pass n b.due
      match (s.ch n).egress with
      | a :: rest =>
        if a.due ≤ (s.ch n).cyc then
          let s := (s.modCh n fun h => { h with egress := rest }).toPort n a
          match a.run with | some ser => s.reelEnds a.ctx ser (s.ch n).cyc | none => s
        else s
      | [] => s
    | _, _ => s

/-! ### The commands -/

def execRunStart (ctx : CtxId) (s : State) : Host.Outcome State Fault Refusal := hw s fun s => s.runStart ctx.val

def execCouchPresent (ch : ChanId) (s : State) : Host.Outcome State Fault Refusal := hw s fun s => s.couchPresent ch.val

def execTileCommit (ctx : CtxId) (s : State) : Host.Outcome State Fault Refusal := hw s fun s => s.tileCommit ctx.val

def execReelPresent (ch : ChanId) (s : State) : Host.Outcome State Fault Refusal := hw s fun s => s.reelPresent ch.val

end Sys2Proof.Machine
end

