-- ==== Sys2Proof/Machine/Ports.lean ====
section
/-! DEFINITION. The signals of the ports in the order of their tables (Tables 12-3 and 12-5 to 12-11), the level of every output, and
the boundary cells (R423, Table 16-5). -/
namespace Sys2Proof.Machine

/-- The signals that have boundary cells. -/
inductive Sig where
  | couchReq | couchAck | couchData | couchSca | couchScb | couchCtx | couchTen | couchSot | couchEot | couchPseq | couchNrec
  | ccrReq | ccrAck | ccrCtx | ccrCnt
  | reelReq | reelAck | reelData | reelWe | reelScale | reelScv | reelRoute | reelCtx | reelTen | reelFmt | reelKind | reelEgr
  | reelPiece | reelHalf | reelSot | reelEot | reelPseq | reelNrec
  | hbReq | hbAck | hbWord | hbCtx | hbTen
  | freqReq | freqAck | freqOp | freqAddr | freqLen | freqTag | freqTen | freqCtx | freqSrc | freqCls
  | fwdReq | fwdAck | fwdData | fwdBe | fwdTag | fwdLast
  | frspReq | frspAck | frspData | frspTag | frspWack | frspErr | frspLast
  | chThrPend | chThrStep
  | ctlReq | ctlAck | ctlWr | ctlOff | ctlWdata | ctlRdata
  | evTen | evFlt | jrstN
  deriving DecidableEq, Repr

/-- A signal with its width and whether Jorim drives it. -/
structure Bus where
  sig : Sig
  width : Nat
  out : Bool
  deriving DecidableEq, Repr

/-- The signals of a channel's segment, in the row order of the tables (R423). -/
def chanBuses : List Bus :=
  [⟨.couchReq, 1, false⟩, ⟨.couchAck, 1, true⟩, ⟨.couchData, 32768, false⟩, ⟨.couchSca, 1024, false⟩, ⟨.couchScb, 1024, false⟩,
   ⟨.couchCtx, 10, false⟩, ⟨.couchTen, 4, false⟩, ⟨.couchSot, 1, false⟩, ⟨.couchEot, 1, false⟩, ⟨.couchPseq, 16, false⟩,
   ⟨.couchNrec, 6, false⟩, ⟨.ccrReq, 1, true⟩, ⟨.ccrAck, 1, false⟩, ⟨.ccrCtx, 10, true⟩, ⟨.ccrCnt, 5, true⟩]
  ++ [⟨.reelReq, 1, true⟩, ⟨.reelAck, 1, false⟩, ⟨.reelData, 16384, true⟩, ⟨.reelWe, 1024, true⟩, ⟨.reelScale, 512, true⟩,
   ⟨.reelScv, 1, true⟩, ⟨.reelRoute, 1, true⟩, ⟨.reelCtx, 10, true⟩, ⟨.reelTen, 4, true⟩, ⟨.reelFmt, 4, true⟩,
   ⟨.reelKind, 2, true⟩, ⟨.reelEgr, 1, true⟩, ⟨.reelPiece, 2, true⟩, ⟨.reelHalf, 1, true⟩, ⟨.reelSot, 1, true⟩,
   ⟨.reelEot, 1, true⟩, ⟨.reelPseq, 16, true⟩, ⟨.reelNrec, 5, true⟩]
  ++ [⟨.hbReq, 1, false⟩, ⟨.hbAck, 1, true⟩, ⟨.hbWord, 128, false⟩, ⟨.hbCtx, 10, false⟩, ⟨.hbTen, 4, false⟩]
  ++ [⟨.freqReq, 1, true⟩, ⟨.freqAck, 1, false⟩, ⟨.freqOp, 1, true⟩, ⟨.freqAddr, 47, true⟩, ⟨.freqLen, 1, true⟩,
   ⟨.freqTag, 6, true⟩, ⟨.freqTen, 4, true⟩, ⟨.freqCtx, 10, true⟩, ⟨.freqSrc, 1, true⟩, ⟨.freqCls, 2, true⟩,
   ⟨.fwdReq, 1, true⟩, ⟨.fwdAck, 1, false⟩, ⟨.fwdData, 256, true⟩, ⟨.fwdBe, 32, true⟩, ⟨.fwdTag, 6, true⟩, ⟨.fwdLast, 1, true⟩,
   ⟨.frspReq, 1, false⟩, ⟨.frspAck, 1, true⟩, ⟨.frspData, 256, false⟩, ⟨.frspTag, 6, false⟩, ⟨.frspWack, 1, false⟩,
   ⟨.frspErr, 1, false⟩, ⟨.frspLast, 1, false⟩]
  ++ [⟨.chThrPend, 1, true⟩, ⟨.chThrStep, 3, true⟩]

/-- The signals of the instance segment. -/
def instBuses : List Bus :=
  [⟨.ctlReq, 1, false⟩, ⟨.ctlAck, 1, true⟩, ⟨.ctlWr, 1, false⟩, ⟨.ctlOff, 24, false⟩, ⟨.ctlWdata, 64, false⟩,
   ⟨.ctlRdata, 64, true⟩, ⟨.evTen, 16, true⟩, ⟨.evFlt, 1, true⟩, ⟨.jrstN, 1, false⟩]

/-- Buses with the first cell of each. -/
def placed : Nat → List Bus → List (Nat × Bus)
  | _, [] => []
  | a, b :: r => (a, b) :: placed (a + b.width) r

/-- Cells of one channel's segment of the boundary register, and of the instance segment (Table 16-5). -/
def chanCells : Nat := 53630
def instCells : Nat := 173

/-- The signal of a cell in the numbering of all segments in series (R423): the channel, none for the instance segment, the signal and
its bit. -/
def cellSignal (cell : Nat) : Option (Option Nat × Bus × Nat) :=
  let at_ (n : Option Nat) (bs : List Bus) (k : Nat) : Option (Option Nat × Bus × Nat) :=
    ((placed 0 bs).find? fun p => decide (p.1 ≤ k ∧ k < p.1 + p.2.width)).map fun p => (n, p.2, k - p.1)
  if cell < 8 * chanCells then at_ (some (cell / chanCells)) chanBuses (cell % chanCells)
  else at_ none instBuses (cell - 8 * chanCells)

/-- Whether Jorim drives the signal of a cell. -/
def cellOut (cell : Nat) : Bool := match cellSignal cell with | some (_, b, _) => b.out | none => false

/-! ### The levels of the outputs -/

/-- The bits of a number that are 1. -/
def onesOf (width v : Nat) : List Nat := if v = 0 then [] else (List.range width).filter v.testBit

/-- The bits of the Reel signals that are 1 (Table 12-5): the beat on the port. -/
def ReelBeat.ones (b : ReelBeat) : Sig → List Nat
  | .reelReq => [0]
  | .reelData => b.data.flatMap fun v => (onesOf 16 v.2).map fun i => 16 * v.1 + i
  | .reelWe => b.we
  | .reelScale => b.scale.flatMap fun v => (onesOf 8 v.2).map fun i => 8 * v.1 + i
  | .reelScv => onesOf 1 b.scv.toNat
  | .reelRoute => onesOf 1 b.route.toNat
  | .reelCtx => onesOf 10 b.ctx
  | .reelTen => onesOf 4 b.ten
  | .reelFmt => onesOf 4 b.fmt
  | .reelKind => onesOf 2 b.kind
  | .reelEgr => onesOf 1 b.egr
  | .reelPiece => onesOf 2 b.piece
  | .reelHalf => onesOf 1 b.half
  | .reelSot => onesOf 1 b.sot.toNat
  | .reelEot => onesOf 1 b.eot.toNat
  | .reelPseq => onesOf 16 b.pseq
  | .reelNrec => onesOf 5 b.nrec
  | _ => []

/-- The bits of the request signals that are 1 (Table 12-7): the access on the port. -/
def FeltOut.ones (o : FeltOut) : Sig → List Nat
  | .freqReq => [0]
  | .freqOp => onesOf 1 o.acc.wr.toNat
  | .freqAddr => onesOf 47 (o.addr / 32)
  | .freqLen => onesOf 1 (decide (o.acc.len = 64)).toNat
  | .freqTag => onesOf 6 o.tag
  | .freqTen => onesOf 4 o.acc.ten
  | .freqCtx => onesOf 10 o.acc.ctx
  | .freqSrc => onesOf 1 o.acc.src
  | .freqCls => onesOf 2 o.acc.cls
  | _ => []

/-- The bits of the write data signals that are 1 (Table 12-7). -/
def FwdBeat.ones (b : FwdBeat) : Sig → List Nat
  | .fwdReq => [0]
  | .fwdData => onesOf 256 b.data
  | .fwdBe => onesOf 32 b.be
  | .fwdTag => onesOf 6 b.tag
  | .fwdLast => onesOf 1 b.last.toNat
  | _ => []

/-- The bits of an output of channel n that are 1. Acknowledge lines are 0 between transfers (R334). -/
def State.chanOnes (s : State) (n : Nat) (g : Sig) : List Nat :=
  let h := s.ch n
  let q := s.slice n
  let grant : List Nat := match (if h.ccrHold then [] else h.grants), g with
    | _ :: _, .ccrReq => [0]
    | e :: _, .ccrCtx => onesOf 10 e.1
    | e :: _, .ccrCnt => onesOf 5 e.2
    | _, _ => []
  let reel : List Nat := match h.reelPort with | some b => b.ones g | none => []
  let freq : List Nat := match q.freq with
    | some t => (match q.out.find? fun o => o.tag == t with | some o => o.ones g | none => [])
    | none => []
  let fwd : List Nat := match q.fwd with | b :: _ => b.ones g | [] => []
  let thr : List Nat := match g with
    | .chThrPend => onesOf 1 h.thrpend.toNat
    | .chThrStep => onesOf 3 (if h.thrpend then h.next else h.step)
    | _ => []
  grant ++ reel ++ freq ++ fwd ++ thr

/-- The bits of an output of the instance segment that are 1 (Tables 12-10 and 12-11), and the level of JRST_N. CTL_RDATA keeps the
data of the last read, the one data line that is not 0 outside a transfer (log 79). -/
def State.instOnes (s : State) : Sig → List Nat
  | .ctlRdata => onesOf 64 s.ctlRdata.toNat
  | .evTen => (List.range 16).filter s.evTen
  | .evFlt => onesOf 1 s.evFlt.toNat
  | .jrstN => onesOf 1 (!s.jrst).toNat
  | _ => []

/-- The cells of segment g (0 to 7 a channel, 8 the instance) that hold 1 for what Jorim drives, and for JRST_N. -/
def State.segmentOnes (s : State) (g : Nat) : List Nat :=
  if g < 8 then (placed (chanCells * g) chanBuses).flatMap fun p => (s.chanOnes g p.2.sig).map fun i => p.1 + i
  else (placed (chanCells * 8) instBuses).flatMap fun p => (s.instOnes p.2.sig).map fun i => p.1 + i

end Sys2Proof.Machine
end

