-- ==== Sys2Proof/Machine/Wrapper.lean ====
section
/-! DEFINITION. The IEEE 1500 wrapper (R422 to R428, R433): its instructions, data registers and BIST requests. -/
namespace Sys2Proof.Machine

/-- The instructions of Table 16-4; every other value of WIR acts as the bypass. -/
inductive WIns where | bypass | extest | preload | clamp | safe | idcode | mbist | lbist | vendor
  deriving DecidableEq, Repr

/-- The segment of WIR. -/
def wirSeg (w : BitVec 8) : Nat := w.toNat / 16

/-- The instruction in WIR: a segment that Table 16-4 does not permit makes it the bypass (R422). -/
def wirIns (w : BitVec 8) : WIns :=
  let g := wirSeg w
  let seg := decide (g ≤ 8 ∨ g = 15)
  match w.toNat % 16 with
  | 1 => if seg then .extest else .bypass
  | 2 => if seg then .preload else .bypass
  | 3 => if seg then .clamp else .bypass
  | 4 => if seg then .safe else .bypass
  | 5 => if seg then .idcode else .bypass
  | 6 => if g ≤ 7 then .mbist else .bypass
  | 7 => if g ≤ 7 then .lbist else .bypass
  | 15 => if g = 0 then .vendor else .bypass
  | _ => .bypass

/-- The cells of a segment in the numbering of all segments in series: first cell and end (R423). -/
def segRange (g : Nat) : Nat × Nat :=
  if g ≤ 7 then (chanCells * g, chanCells * (g + 1))
  else if g = 8 then (chanCells * 8, chanCells * 8 + instCells)
  else (0, chanCells * 8 + instCells)

/-- The observe-only cell of JRST_N. -/
def jrstCell : Nat := chanCells * 8 + 172

/-- Changing the wrapper: its own logic acts in every state of the block. -/
def wrapDo (s : State) (f : Wrapper → Wrapper) : Host.Outcome State Fault Refusal := .next { s with wrap := f s.wrap }

/-- The bits that leave WSO when a register of n bits is scanned whole: bit 0 lies nearest WSI, so bit n − 1 leaves first (R423)
(log 75). -/
def scanOut (n : Nat) (bit : Nat → Bool) : Tbl Bool :=
  ((List.range n).map fun k => (k, bit (n - 1 - k))).filter fun e => e.2

/-- Eight shifts with SelectWIR bring the instruction in and the old shift stage out on WSO (R339), and UpdateWR loads WIR. -/
def Wrapper.load (w : Wrapper) (ins : Nat) (seg : BitVec 4) : Wrapper :=
  let v := BitVec.ofNat 8 (seg.toNat * 16 + ins)
  { w with wir := v, wirShift := v, wso := scanOut 8 w.wirShift.getLsbD }

/-- The cells of a table inside a segment take new levels, those not listed 0; the others keep theirs. -/
def cellsIn (g : Nat) (old : Tbl Bool) (new : List (Nat × Bool)) : Tbl Bool :=
  let (lo, hi) := segRange g
  Tbl.puts false (old.filter fun e => !(decide (lo ≤ e.1 ∧ e.1 < hi))) (new.filter fun e => decide (lo ≤ e.1 ∧ e.1 < hi))

/-- What a boundary cell drives while the wrapper holds the ports (Table 16-4): none where the logic drives, none for the
observe-only cell, and none for an input under WS_CLAMP and WS_SAFE, which hold outputs. -/
def Wrapper.drives (w : Wrapper) (cell : Nat) : Option Bool :=
  let (lo, hi) := segRange (wirSeg w.wir)
  if lo ≤ cell ∧ cell < hi ∧ cell ≠ jrstCell then
    match wirIns w.wir with
    | .extest => some (Tbl.look false w.update cell)
    | .clamp => if cellOut cell then some (Tbl.look false w.update cell) else none
    | .safe => if cellOut cell then some false else none
    | _ => none
  else none

/-- Whether BIST can be requested of a channel as a TEST command (R427). -/
def Channel.testable (h : Channel) : Bool := (h.st == .fenced && !h.perm) || (h.st == .quiescing && h.alloc.isEmpty)

def State.bist (s : State) (n : Nat) : Bist := Tbl.look Bist.reset s.wrap.bist n
def State.setBist (s : State) (n : Nat) (b : Bist) : State :=
  { s with wrap := { s.wrap with bist := Tbl.put Bist.reset s.wrap.bist n b } }

/-- A BIST request (R427): as TEST in FENCED or QUIESCING, from OFF through power-up of the island, refused elsewhere, in the uc in which
CHCMD TEST was written for the channel (Table 16-8), and while the block is held in reset. BUSY is 1 from an accepted request on, also while
the request is held or the island powers up, and a test begun by CHCMD TEST alone does not set it; a refused request leaves DONE and BUSY as
they are, with a test under way or none (log 30). -/
def State.bistRequest (s : State) (n : Nat) (lbist : Bool) : State :=
  let h := s.ch n
  let b := s.bist n
  let go := s.setBist n { b with done := false, busy := true, refused := false }
  if s.jrst || h.testAt == some s.uc then s.setBist n { b with refused := true }
  else if h.testable then go.test n (some ⟨false, lbist⟩)
  else if h.st == .off && !h.sdown then
    go.setCh n { h.powerUp with wtest := some ⟨true, lbist⟩ }
  else s.setBist n { b with refused := true }

/-- The result of a named test: a failure of it or a pass. -/
def namedTres (lbist : Bool) : TestResult → Nat | .pass => 1 | _ => if lbist then 3 else 2

/-- A wrapper's test ends (R427, R433): from OFF the channel returns to OFF whatever the latch holds (log 54). REFUSED stays set when a
later request was refused during the test (Table 16-6). -/
def State.bistDone (s : State) (n : Nat) (r : TestResult) (first : BitVec 16) : State :=
  let h := s.ch n
  match h.wtest with
  | none => s
  | some w =>
    if h.st != .testing || h.clkStop then s
    else
      let tres := namedTres w.lbist r
      let s := s.setBist n ⟨true, false, (s.bist n).refused, tres, if tres = 1 then 0 else first⟩
      if w.fromOff then
        let s := s.setCh n { ({ h with tres := tres, perm := h.perm || tres != 1 } : Channel).goOff with wtest := none }
        if tres = 1 then s else s.raiseIf (8 + n)
      else s.testEnds n tres

/-- The identification that JW_IDCODE captures (R425). -/
def idcode : BitVec 64 := BitVec.ofNat 64 (jver + Config.jwmk.toNat * 2 ^ 32)

/-- The BIST status register (Table 16-6). -/
def Bist.reg (b : Bist) : BitVec 32 :=
  BitVec.ofNat 32 (b.done.toNat + b.busy.toNat * 2 + b.refused.toNat * 4 + b.tres * 8 + b.first.toNat * 65536)

/-- What CaptureWR loads into the cells of a segment (R423): the levels of the outputs and of JRST_N as the block has them, and of the
inputs as the pins have them (log 79). -/
def State.captured (s : State) (g : Nat) (pins : List (Nat × Bool)) : List (Nat × Bool) :=
  ((if g < 9 then [g] else List.range 9).flatMap fun k => (s.segmentOnes k).map fun c => (c, true))
    ++ pins.filter fun e => !(cellOut e.1 || e.1 == jrstCell)

/-- The levels of the outputs of a segment as free values, 64 cells to each (log 5). -/
def State.freeCells (s : State) (g : Nat) : List (Nat × Bool) × State :=
  let (lo, hi) := segRange g
  (((List.range (hi - lo)).filter fun i => cellOut (lo + i)).map fun i =>
    (lo + i, (Config.freeValue (s.freeCtr + i / 64)).getLsbD (i % 64)), { s with freeCtr := s.freeCtr + (hi - lo + 63) / 64 })

/-- What CaptureWR loads into the cells of a segment: while the block's state is undefined the outputs have free levels (R433). -/
def State.captureCells (s : State) (g : Nat) (pins : List (Nat × Bool)) : List (Nat × Bool) × State :=
  if s.undef then
    let (outs, t) := s.freeCells g
    ((s.captured g pins).filter (fun e => !cellOut e.1) ++ outs, t)
  else (s.captured g pins, s)

/-- CaptureWR loads the selected data register (R423, R425, R427, R428). The bypass bit keeps its level. What JW_VENDOR captures
once its modes are open is not stated: a free value (log 5) (log 63). -/
def State.capture (s : State) (pins : List (Nat × Bool)) : State :=
  let w := s.wrap
  match wirIns w.wir with
  | .extest | .preload =>
    let g := wirSeg w.wir
    let (cells, t) := s.captureCells g pins
    { t with wrap := { w with shift := cellsIn g w.shift cells } }
  | .idcode => { s with wrap := { w with idreg := idcode } }
  | .mbist | .lbist => { s with wrap := { w with bistReg := (s.bist (wirSeg w.wir)).reg } }
  | .vendor =>
    if w.opened then let (v, t) := s.free; { t with wrap := { w with unlockReg := v.extractLsb' 0 32 } }
    else { s with wrap := { w with unlockReg := 0 } }
  | _ => s

/-- What leaves WSO in a scan of a segment: the cell farthest from WSI first (R423, R339). -/
def Wrapper.scanCells (w : Wrapper) (g : Nat) : Tbl Bool :=
  let (lo, hi) := segRange g
  Tbl.puts false [] ((w.shift.filter fun e => decide (lo ≤ e.1 ∧ e.1 < hi)).map fun e => (hi - 1 - e.1, e.2))

/-- The register between WSI and WSO in the other instructions, its bit 0 nearest WSI (Table 16-4) (log 75). -/
def Wrapper.dataReg (w : Wrapper) : List Bool :=
  let bits (n : Nat) (f : Nat → Bool) : List Bool := (List.range n).map f
  match wirIns w.wir with
  | .idcode => bits 64 w.idreg.getLsbD
  | .mbist | .lbist => bits 32 w.bistReg.getLsbD
  | .vendor => bits 32 w.unlockReg.getLsbD
  | _ => [w.bypass]

/-- A number from its bits, bit 0 first. -/
def ofBits (bs : List Bool) : Nat := bs.foldr (fun b n => b.toNat + 2 * n) 0

/-- One shift of a register: the bit on WSI enters at bit 0, and the last bit leaves on WSO. -/
def shiftIn (r : List Bool) (wsi : Bool) : List Bool × Bool := ((wsi :: r).take r.length, r.getLastD false)

/-- Bits shifted through such a register: its contents after them, and the bits that left WSO. -/
def shiftAll (r : List Bool) : List Bool → List Bool × List Bool
  | [] => (r, [])
  | b :: bs => let (r', o) := shiftIn r b; let (r'', os) := shiftAll r' bs; (r'', o :: os)

/-- A value reaches the unlock register (R428), whose bits leave WSO as it is shifted in (R339). -/
def Wrapper.unlock (w : Wrapper) (v : BitVec 32) : Wrapper :=
  if wirIns w.wir != .vendor then w
  else
    let w := { w with wso := scanOut 32 w.unlockReg.getLsbD, unlockReg := v }
    if w.opened || w.tries ≥ 4 then w
    else if v = Config.unlockValue then { w with opened := true }
    else { w with tries := w.tries + 1 }

/-- Bits shifted through the selected register while it is not the boundary register (R339). -/
def Wrapper.shiftData (w : Wrapper) (bs : List Bool) : Wrapper :=
  let (r, os) := shiftAll w.dataReg bs
  let out : Tbl Bool := ((List.range os.length).zip os).filter fun (e : Nat × Bool) => e.2
  let w : Wrapper := match wirIns w.wir with
    | .idcode => { w with idreg := BitVec.ofNat 64 (ofBits r) }
    | .mbist | .lbist => { w with bistReg := BitVec.ofNat 32 (ofBits r) }
    | .vendor => w.unlock (BitVec.ofNat 32 (ofBits r))
    | _ => { w with bypass := r.headD false }
  { w with wso := out }

/-- UpdateWR under WS_EXTEST or WS_PRELOAD: the cells shifted in stand in the shift stage and pass to the update stage; the
observe-only cell has none (R423). In the other instructions the levels pass the selected register in the order given, and UpdateWR
has no other effect than on the unlock register (log 75). -/
def Wrapper.updateCells (w : Wrapper) (cells : List (Nat × Bool)) : Wrapper :=
  match wirIns w.wir with
  | .extest | .preload =>
    let g := wirSeg w.wir
    { w with wso := w.scanCells g, shift := cellsIn g w.shift cells
             update := cellsIn g w.update (cells.filter fun e => e.1 != jrstCell) }
  | _ => w.shiftData (cells.map fun e => e.2)

/-! ### The commands -/

def execWsBypass (seg : BitVec 4) (s : State) : Host.Outcome State Fault Refusal := wrapDo s fun w => w.load 0x0 seg

/-- Loaded while JRST_N is 1, WS_EXTEST leaves the state undefined until the next reset (R433) (log 22). -/
def execWsExtest (seg : BitVec 4) (s : State) : Host.Outcome State Fault Refusal :=
  let w := s.wrap.load 0x1 seg
  .next { s with wrap := w, undef := s.undef || (wirIns w.wir == .extest && !s.jrst) }

def execWsPreload (seg : BitVec 4) (s : State) : Host.Outcome State Fault Refusal := wrapDo s fun w => w.load 0x2 seg

def execWsClamp (seg : BitVec 4) (s : State) : Host.Outcome State Fault Refusal := wrapDo s fun w => w.load 0x3 seg

def execWsSafe (seg : BitVec 4) (s : State) : Host.Outcome State Fault Refusal := wrapDo s fun w => w.load 0x4 seg

def execJwIdcode (seg : BitVec 4) (s : State) : Host.Outcome State Fault Refusal := wrapDo s fun w => w.load 0x5 seg

def execJwMbist (seg : BitVec 4) (s : State) : Host.Outcome State Fault Refusal :=
  level s fun s =>
    let s := { s with wrap := s.wrap.load 0x6 seg }
    if seg.toNat < 8 then s.bistRequest seg.toNat false else s

def execJwLbist (seg : BitVec 4) (s : State) : Host.Outcome State Fault Refusal :=
  level s fun s =>
    let s := { s with wrap := s.wrap.load 0x7 seg }
    if seg.toNat < 8 then s.bistRequest seg.toNat true else s

def execJwVendor (seg : BitVec 4) (s : State) : Host.Outcome State Fault Refusal := wrapDo s fun w => w.load 0xF seg

def execVendorUnlock (value : BitVec 32) (s : State) : Host.Outcome State Fault Refusal := wrapDo s fun w => w.unlock value

/-- WRSTN falls (R422); a test in progress runs to its end (R433). -/
def execWrapperReset (s : State) : Host.Outcome State Fault Refusal := wrapDo s fun w => { w with wir := 0 }

def execWrapperBistDone (ch : ChanId) (res : TestResult) (first : BitVec 16) (s : State) : Host.Outcome State Fault Refusal :=
  hw s fun s => s.bistDone ch.val res first

def execWrapperCapture (pins : List (Nat × Bool)) (s : State) : Host.Outcome State Fault Refusal := .next (s.capture pins)

def execBoundaryRegisterUpdate (cells : List (Nat × Bool)) (s : State) : Host.Outcome State Fault Refusal :=
  wrapDo s fun w => w.updateCells cells

end Sys2Proof.Machine
end

