-- ==== Sys2Proof/Machine/Writes.lean ====
section
/-! DEFINITION. What a run leaves to be written after its commit: Loft records (R219, R223), stash lines (R222), sampling
records (R253), and the completion of the run (R180, R254). -/
namespace Sys2Proof.Machine

/-- Stash overflow under the fault policy (Table 7-4). -/
def State.stashOverflow (s : State) (c : Nat) : State := (s.raise c flStashOvf).fault c fcStash 0

/-- Time passes to the cc from which a write of a context may be made. -/
def State.toWrite (s : State) (c : Nat) (cc : Option Nat) : State :=
  match cc with
  | some t => if (s.ch (s.ctx c).chan).serves then s.pass (s.ctx c).chan t else s
  | none => s

/-- The first record write of a context is made. -/
def State.popRec (s : State) (c : Nat) : State := s.modCtx c fun x => { x with recQ := x.recQ.drop 1 }
def State.popStash (s : State) (c : Nat) : State := s.modCtx c fun x => { x with stashQ := x.stashQ.drop 1 }

/-- LOFT_RECORD_WRITE, from the cc of the record on (R163): to the resident line, to a line that is free, or straight home for want of any
(R227), where the line through which the context reads takes the new value too (R216, R225); otherwise it waits for an eviction or follows
the overflow policy (Table 7-4). -/
def State.writeRecord (s : State) (c : Nat) : State :=
  let s := s.toWrite c ((s.ctx c).recQ.head?.map fun w => w.cc)
  let x := s.ctx c
  let h := s.ch x.chan
  match x.recQ with
  | [] => s
  | w :: _ =>
    if !h.serves then s
    else if x.algrant = 0 then
      if x.policy = 2 then s.stashOverflow c
      else ((s.popRec c).modCh x.chan fun h => h.freshen c w.idx w.rec4).queueFelt x.chan
        ⟨.straight w.run, c, w.idx / 4, x.ten, x.stashwin, x.home (w.idx / 4), 64, true,
         setRec 0 w.idx w.rec4, recEnables (2 ^ (w.idx % 4))⟩
    else match h.findLine c (w.idx / 4) with
      | some l => (s.popRec c).modCh x.chan fun h => h.modLine l.idx fun l => l.store w.idx w.rec4 h.cyc
      | none => match h.needLine c x.algrant with
        | .free h' i => (s.popRec c).setCh x.chan (h'.addLine ((newLine i c (w.idx / 4) h.cyc).store w.idx w.rec4 h.cyc))
        | .evict l => s.queueHome c l
        | .wait => s
        | .full => if x.policy = 2 then s.stashOverflow c else s

/-- STASH_WRITE, from the cc of the line on: a line of its own until Felt has written it home (R222), or straight home for want of any line
(R227); under recompute a line that finds the Loft full is dropped and its layer marked (Table 7-4). -/
def State.writeStash (s : State) (c : Nat) : State :=
  let s := s.toWrite c ((s.ctx c).stashQ.head?.map fun w => w.cc)
  let x := s.ctx c
  let h := s.ch x.chan
  match x.stashQ with
  | [] => s
  | w :: _ =>
    let full : State :=
      if x.policy = 1 then (s.popStash c).setMark c w.tag
      else if x.policy = 2 then s.stashOverflow c
      else s
    if !h.serves then s
    else if x.algrant = 0 then
      if x.policy = 0 || x.policy = 3 then
        (s.popStash c).queueFelt x.chan ⟨.stashStraight w.run w.tag, c, w.line, x.ten, x.stashwin, x.home w.line, 64, true,
          w.data, w.be⟩
      else full
    else match h.needLine c x.algrant with
      | .free h' i =>
        let l := { newLine i c w.line h.cyc with stash := true, tag := w.tag, data := w.data, be := w.be, dirty := true
                                                 writing := true, run := w.run }
        ((s.popStash c).setCh x.chan (h'.addLine l)).queueFelt x.chan
          ⟨.stash x.chan w.tag, c, w.line, x.ten, x.stashwin, x.home w.line, 64, true, 0, 0⟩
      | .evict l => s.queueHome c l
      | .wait => s
      | .full => full

/-- Whether a sampling record of another context of a channel is handed over first: of the records of one cc that whose commit began earlier,
then that of the lower context (Table 8-5). -/
def State.handsFirst (s : State) (n c : Nat) (w : SmpWr) : Bool :=
  (s.ch n).alloc.any fun a => a.ctx != c && (s.ctx a.ctx).smpQ.any fun v =>
    v.cc == w.cc && decide (v.w < w.w ∨ (v.w = w.w ∧ a.ctx < c))

/-- SAMPLE_RECORD_WRITE, from the cc in which the selection is complete (Table 8-4): one 32-byte write whose byte enables select the
record's 16 bytes (R253, Table 12-8). It waits while another context's record is handed over first. -/
def State.writeSample (s : State) (c : Nat) : State :=
  let s := s.toWrite c ((s.ctx c).smpQ.head?.map fun w => w.cc)
  let x := s.ctx c
  match x.smpQ with
  | [] => s
  | w :: rest =>
    if !(s.ch x.chan).serves || s.handsFirst x.chan c w then s
    else
      let sh := w.off % 32
      (s.setCtx c { x with smpQ := rest }).queueFelt x.chan
        ⟨.sample w.run, c, 0, x.ten, w.win, w.off - sh, 32, true, w.data * 2 ^ (8 * sh), 0xFFFF * 2 ^ sh⟩

/-- Whether a Felt access belongs to what a run must have written before it completes. -/
def AccKind.ofRun (k : AccKind) (ser : Nat) : Bool :=
  match k with
  | .straight r => r == ser
  | .stashStraight r _ => r == ser
  | .sample r => r == ser
  | _ => false

/-- Whether an effect is work of a tile that goes on: a commit, a close, an emission, words that act. -/
def Effect.isWork : Effect → Bool
  | .commit | .close _ | .reserve _ _ _ | .emit _ | .turn _ | .turnClose _ | .after | .check _ => true
  | _ => false

/-- Whether a committed run has nothing left to present or write (R180), but for what falls due without it. -/
def State.completes (s : State) (c : Nat) (r : Run) : Bool :=
  let x := s.ctx c
  let h := s.ch x.chan
  r.phase == .committed && r.after.isEmpty
    && (h.due.all fun e => !(e.run == some r.ser && e.what.isWork))
    && (h.egress.all fun b => !(b.ctx == c && b.run == some r.ser))
    && (x.recQ.all fun w => w.run != r.ser) && (x.stashQ.all fun w => w.run != r.ser) && (x.smpQ.all fun w => w.run != r.ser)
    && (h.loft.all fun l => !(l.stash && l.owner == c && l.run == r.ser))
    && ((List.range 8).all fun n =>
          ((s.slice n).wait.all fun a => !(a.ctx == c && a.kind.ofRun r.ser))
          && (s.slice n).out.all fun o => !(o.acc.ctx == c && o.acc.kind.ofRun r.ser))

/-- Whether a run raises RUNEV when it completes (R268, R254). -/
def Run.event (r : Run) : Bool :=
  r.w.evt || (match r.prog.rowLike with
    | some (_, w) => opc w == 0x70 && IWord.fld w 119 116 == 1 && (SampleW.ofWord w).evt
    | none => false)

/-- The cc of the last thing that a run is still to bring about. -/
def Channel.lastOf (h : Channel) (ser : Nat) : Nat := ((h.due.filter fun e => e.run == some ser).map fun e => e.cc).foldl max 0

/-- A run that has nothing left completes (R180, Table 9-2). -/
def State.finish (s : State) (c : Nat) (r : Run) : State :=
  let s := s.modCtx c fun x =>
    { x with
      runs := x.runs.filter fun q => q.ser != r.ser
      cpseq := match x.cpseq with
        | some e => if r.ser > e.1 then some (r.ser, r.w.pseq) else some e
        | none => some (r.ser, r.w.pseq) }
  let s := if r.holds then s.releaseGroups c (s.ch (s.ctx c).chan).cyc else s
  let s := if r.event then s.tev (s.ctx c).ten tevRunev else s
  s.settle c

/-- RUN_COMPLETE: the earliest run of a context that has nothing left completes, once the last of its flags, statistics entries and losses
has fallen due (R180). -/
def State.runComplete (s : State) (c : Nat) : State :=
  let x := s.ctx c
  if (s.ch x.chan).frozen then s else
  match x.runs.find? fun r => s.completes c r with
  | none => s
  | some r =>
    let s := s.pass x.chan ((s.ch x.chan).lastOf r.ser)
    match (s.ctx c).run r.ser with
    | some r => s.finish c r
    | none => s

/-! ### The commands -/

def execLoftRecordWrite (ctx : CtxId) (s : State) : Host.Outcome State Fault Refusal := hw s fun s => s.writeRecord ctx.val

def execStashWrite (ctx : CtxId) (s : State) : Host.Outcome State Fault Refusal := hw s fun s => s.writeStash ctx.val

def execSampleRecordWrite (ctx : CtxId) (s : State) : Host.Outcome State Fault Refusal := hw s fun s => s.writeSample ctx.val

def execRunComplete (ctx : CtxId) (s : State) : Host.Outcome State Fault Refusal := hw s fun s => s.runComplete ctx.val

end Sys2Proof.Machine
end

