-- ==== Sys2Proof/Machine/Dispatch.lean ====
section
/-! DEFINITION. One arm for each command of the block: a direct call of its meaning. -/
namespace Sys2Proof.Machine

def exec (i : Instr) (s : State) : Host.Outcome State Fault Refusal :=
  match i with
  | .nop ctx ten => Sys2Proof.Machine.execNop ctx ten s
  | .run ctx ten w => Sys2Proof.Machine.execRun ctx ten w s
  | .discard ctx ten pseq => Sys2Proof.Machine.execDiscard ctx ten pseq s
  | .rclr ctx ten rn rcnt kind => Sys2Proof.Machine.execRclr ctx ten rn rcnt kind s
  | .rexp ctx ten rn rcnt => Sys2Proof.Machine.execRexp ctx ten rn rcnt s
  | .rclose ctx ten w => Sys2Proof.Machine.execRclose ctx ten w s
  | .lrel ctx ten lidx lcnt => Sys2Proof.Machine.execLrel ctx ten lidx lcnt s
  | .lflush ctx ten lidx lcnt => Sys2Proof.Machine.execLflush ctx ten lidx lcnt s
  | .headboxWord rx ctx ten word => Sys2Proof.Machine.execHeadboxWord rx ctx ten word s
  | .headboxDeliver rx => Sys2Proof.Machine.execHeadboxDeliver rx s
  | .runStart ctx => Sys2Proof.Machine.execRunStart ctx s
  | .creditGrant ch => Sys2Proof.Machine.execCreditGrant ch s
  | .couchBeat ch beat => Sys2Proof.Machine.execCouchBeat ch beat s
  | .couchPresent ch => Sys2Proof.Machine.execCouchPresent ch s
  | .abandonComplete ctx => Sys2Proof.Machine.execAbandonComplete ctx s
  | .tileCommit ctx => Sys2Proof.Machine.execTileCommit ctx s
  | .sampleRecordWrite ctx => Sys2Proof.Machine.execSampleRecordWrite ctx s
  | .loftRecordWrite ctx => Sys2Proof.Machine.execLoftRecordWrite ctx s
  | .stashWrite ctx => Sys2Proof.Machine.execStashWrite ctx s
  | .reelPresent ch => Sys2Proof.Machine.execReelPresent ch s
  | .reelAccept ch => Sys2Proof.Machine.execReelAccept ch s
  | .runComplete ctx => Sys2Proof.Machine.execRunComplete ctx s
  | .feltAccessIssue sl => Sys2Proof.Machine.execFeltAccessIssue sl s
  | .feltResponse sl r => Sys2Proof.Machine.execFeltResponse sl r s
  | .bind ctx => Sys2Proof.Machine.execBind ctx s
  | .unbind ctx => Sys2Proof.Machine.execUnbind ctx s
  | .teardown ctx => Sys2Proof.Machine.execTeardown ctx s
  | .restore ctx => Sys2Proof.Machine.execRestore ctx s
  | .migrate ctx target => Sys2Proof.Machine.execMigrate ctx target s
  | .drainComplete ctx => Sys2Proof.Machine.execDrainComplete ctx s
  | .mbplWrite t data => Sys2Proof.Machine.execMbplWrite t data s
  | .mbphWrite t data => Sys2Proof.Machine.execMbphWrite t data s
  | .mbrptRead t => Sys2Proof.Machine.execMbrptRead t s
  | .mbBind => Sys2Proof.Machine.execMbBind s
  | .mbUnbind => Sys2Proof.Machine.execMbUnbind s
  | .mbTeardown => Sys2Proof.Machine.execMbTeardown s
  | .mbRestore => Sys2Proof.Machine.execMbRestore s
  | .mbMigrate => Sys2Proof.Machine.execMbMigrate s
  | .loadprog => Sys2Proof.Machine.execLoadprog s
  | .quiesce ch => Sys2Proof.Machine.execQuiesce ch s
  | .test ch => Sys2Proof.Machine.execTest ch s
  | .rejoin ch => Sys2Proof.Machine.execRejoin ch s
  | .fence ch => Sys2Proof.Machine.execFence ch s
  | .release ch => Sys2Proof.Machine.execRelease ch s
  | .drainTimeout ch => Sys2Proof.Machine.execDrainTimeout ch s
  | .uncorrectableError unit index => Sys2Proof.Machine.execUncorrectableError unit index s
  | .fenceWritebackDone ch => Sys2Proof.Machine.execFenceWritebackDone ch s
  | .selfTestDone ch res => Sys2Proof.Machine.execSelfTestDone ch res s
  | .furnishCopyDone ch => Sys2Proof.Machine.execFurnishCopyDone ch s
  | .correctedError where_ => Sys2Proof.Machine.execCorrectedError where_ s
  | .residueError ctx => Sys2Proof.Machine.execResidueError ctx s
  | .parityError ch owner index => Sys2Proof.Machine.execParityError ch owner index s
  | .duplicateCopyError word both => Sys2Proof.Machine.execDuplicateCopyError word both s
  | .scrub where_ => Sys2Proof.Machine.execScrub where_ s
  | .watchdogExpiry => Sys2Proof.Machine.execWatchdogExpiry s
  | .millCoreFault => Sys2Proof.Machine.execMillCoreFault s
  | .millRestartDone activeBad => Sys2Proof.Machine.execMillRestartDone activeBad s
  | .millFirmwareLoad => Sys2Proof.Machine.execMillFirmwareLoad s
  | .microcodeLoad ch => Sys2Proof.Machine.execMicrocodeLoad ch s
  | .functionTableLoad ch => Sys2Proof.Machine.execFunctionTableLoad ch s
  | .maintenanceLoadDone readBackOk => Sys2Proof.Machine.execMaintenanceLoadDone readBackOk s
  | .power ch => Sys2Proof.Machine.execPower ch s
  | .off ch => Sys2Proof.Machine.execOff ch s
  | .switchesOpen ch => Sys2Proof.Machine.execSwitchesOpen ch s
  | .powerUpDone ch => Sys2Proof.Machine.execPowerUpDone ch s
  | .throttleDecision ch temp => Sys2Proof.Machine.execThrottleDecision ch temp s
  | .throttleStepEffect ch => Sys2Proof.Machine.execThrottleStepEffect ch s
  | .powerEstimate milliwatts => Sys2Proof.Machine.execPowerEstimate milliwatts s
  | .budgetRefill ch => Sys2Proof.Machine.execBudgetRefill ch s
  | .channelClockStop ch => Sys2Proof.Machine.execChannelClockStop ch s
  | .channelClockResume ch => Sys2Proof.Machine.execChannelClockResume ch s
  | .clockFrequencyChange clk kHz => Sys2Proof.Machine.execClockFrequencyChange clk kHz s
  | .resetAssert => Sys2Proof.Machine.execResetAssert s
  | .resetRelease => Sys2Proof.Machine.execResetRelease s
  | .uncoreInitDone => Sys2Proof.Machine.execUncoreInitDone s
  | .channelReport ch => Sys2Proof.Machine.execChannelReport ch s
  | .furnishLowWrite slot data => Sys2Proof.Machine.execFurnishLowWrite slot data s
  | .furnishHighWrite slot data => Sys2Proof.Machine.execFurnishHighWrite slot data s
  | .programChange ctx data => Sys2Proof.Machine.execProgramChange ctx data s
  | .contextFieldWrite ctx reg data => Sys2Proof.Machine.execContextFieldWrite ctx reg data s
  | .ctxkeyWrite ctx data => Sys2Proof.Machine.execCtxkeyWrite ctx data s
  | .ctxbudWrite ctx data => Sys2Proof.Machine.execCtxbudWrite ctx data s
  | .chwinWrite ch data => Sys2Proof.Machine.execChwinWrite ch data s
  | .ctxflagClear ctx data => Sys2Proof.Machine.execCtxflagClear ctx data s
  | .chflagClear ch data => Sys2Proof.Machine.execChflagClear ch data s
  | .ctxcapClear ctx data => Sys2Proof.Machine.execCtxcapClear ctx data s
  | .ctxifltClear ctx data => Sys2Proof.Machine.execCtxifltClear ctx data s
  | .ctxlostClear ctx data => Sys2Proof.Machine.execCtxlostClear ctx data s
  | .ifstatClear data => Sys2Proof.Machine.execIfstatClear data s
  | .tevpendClear t data => Sys2Proof.Machine.execTevpendClear t data s
  | .loftmarkClear ctx k data => Sys2Proof.Machine.execLoftmarkClear ctx k data s
  | .dbgrselWrite data => Sys2Proof.Machine.execDbgrselWrite data s
  | .dbgrdescRead => Sys2Proof.Machine.execDbgrdescRead s
  | .pacingCounterRead ch which => Sys2Proof.Machine.execPacingCounterRead ch which s
  | .ctxstallRead ctx => Sys2Proof.Machine.execCtxstallRead ctx s
  | .chceRead ch => Sys2Proof.Machine.execChceRead ch s
  | .ucceRead => Sys2Proof.Machine.execUcceRead s
  | .trefcntRead t => Sys2Proof.Machine.execTrefcntRead t s
  | .fsstatRead => Sys2Proof.Machine.execFsstatRead s
  | .registerWrite offset data => Sys2Proof.Machine.execRegisterWrite offset data s
  | .wsBypass seg => Sys2Proof.Machine.execWsBypass seg s
  | .wsExtest seg => Sys2Proof.Machine.execWsExtest seg s
  | .wsPreload seg => Sys2Proof.Machine.execWsPreload seg s
  | .wsClamp seg => Sys2Proof.Machine.execWsClamp seg s
  | .wsSafe seg => Sys2Proof.Machine.execWsSafe seg s
  | .jwIdcode seg => Sys2Proof.Machine.execJwIdcode seg s
  | .jwMbist seg => Sys2Proof.Machine.execJwMbist seg s
  | .jwLbist seg => Sys2Proof.Machine.execJwLbist seg s
  | .jwVendor seg => Sys2Proof.Machine.execJwVendor seg s
  | .vendorUnlock value => Sys2Proof.Machine.execVendorUnlock value s
  | .wrapperReset => Sys2Proof.Machine.execWrapperReset s
  | .wrapperBistDone ch res first => Sys2Proof.Machine.execWrapperBistDone ch res first s
  | .creditGrantAccept ch => Sys2Proof.Machine.execCreditGrantAccept ch s
  | .feltRequestAccept sl => Sys2Proof.Machine.execFeltRequestAccept sl s
  | .feltWriteDataAccept sl => Sys2Proof.Machine.execFeltWriteDataAccept sl s
  | .wrapperCapture pins => Sys2Proof.Machine.execWrapperCapture pins s
  | .boundaryRegisterUpdate cells => Sys2Proof.Machine.execBoundaryRegisterUpdate cells s

end Sys2Proof.Machine
end

