-- ==== Sys2Proof/Safety.lean ====
section
/-! DEFINITION. What a safe run is: no step of it ends in a fault, and none is refused but after WS_EXTEST. The terms in which
statements speak of commands: what a command reaches, what it leaves alone, and the invariant that every step keeps. -/
namespace Sys2Proof.Safety
open Sys2Proof.Machine

/-- A step answers a next state. -/
def Advances (s : State) : Prop := ∃ t, Machine.step s = .next t

/-- The state is one that R433 leaves undefined. -/
abbrev Undefined (s : State) : Prop := s.undef = true

/-- JRST_N is high and the state is defined (R392, R433): events inside the block act. -/
abbrev Inside (s : State) : Prop := s.undef = false ∧ s.jrst = false

/-- Moreover no wrapper instruction isolates the ports (R424): commands at the ports act. -/
abbrev Reached (s : State) : Prop := Inside s ∧ s.isolated = false

/-- The state takes a Control access: no other one is outstanding (R359). -/
abbrev Commanded (s : State) : Prop := Reached s ∧ s.ctlBusy = false

/-! ### Frames -/

/-- Nothing but context c differs. -/
def OnlyCtx (c : Nat) (s t : State) : Prop := { t with ctxs := s.ctxs } = s ∧ ∀ d, d ≠ c → t.ctx d = s.ctx d
/-- Nothing but channel n differs. -/
def OnlyCh (n : Nat) (s t : State) : Prop := { t with chans := s.chans } = s ∧ ∀ m, m ≠ n → t.ch m = s.ch m
/-- Nothing but slice n differs. -/
def OnlySlice (n : Nat) (s t : State) : Prop := { t with slices := s.slices } = s ∧ ∀ m, m ≠ n → t.slice m = s.slice m
/-- Nothing but the wrapper differs. -/
abbrev OnlyWrap (s t : State) : Prop := { t with wrap := s.wrap } = s
/-- Nothing but tenant m's registers differs. -/
def OnlyTenant (m : Nat) (s t : State) : Prop := { t with tenants := s.tenants } = s ∧ ∀ k, k ≠ m → t.tenant k = s.tenant k
/-- Contexts other than c, channels other than n and everything that is no context and no channel stay. -/
def OnlyCtxCh (c n : Nat) (s t : State) : Prop :=
  { t with ctxs := s.ctxs, chans := s.chans } = s ∧ (∀ d, d ≠ c → t.ctx d = s.ctx d) ∧ ∀ m, m ≠ n → t.ch m = s.ch m

/-- Commands that act while JRST_N is low: the reset's own level, the clock inputs and the test wrapper (R392, R422). -/
def actsInReset : Instr → Bool
  | .resetAssert | .resetRelease | .channelClockStop _ | .channelClockResume _ | .clockFrequencyChange _ _
  | .wsBypass _ | .wsExtest _ | .wsPreload _ | .wsClamp _ | .wsSafe _ | .jwIdcode _ | .jwMbist _ | .jwLbist _ | .jwVendor _
  | .vendorUnlock _ | .wrapperReset | .wrapperCapture _ | .boundaryRegisterUpdate _ => true
  | _ => false

/-- The Control accesses (Table 12-1, 15_register_map.md). -/
def isControl : Instr → Bool
  | .bind _ | .unbind _ | .teardown _ | .restore _ | .migrate _ _ | .mbplWrite _ _ | .mbphWrite _ _ | .mbrptRead _
  | .quiesce _ | .test _ | .rejoin _ | .fence _ | .release _ | .power _ | .off _
  | .millFirmwareLoad | .microcodeLoad _ | .functionTableLoad _ | .furnishLowWrite _ _ | .furnishHighWrite _ _
  | .programChange _ _ | .contextFieldWrite _ _ _ | .ctxkeyWrite _ _ | .ctxbudWrite _ _ | .chwinWrite _ _
  | .ctxflagClear _ _ | .chflagClear _ _ | .ctxcapClear _ _ | .ctxifltClear _ _ | .ctxlostClear _ _ | .ifstatClear _
  | .tevpendClear _ _ | .loftmarkClear _ _ _ | .dbgrselWrite _ | .dbgrdescRead | .pacingCounterRead _ _ | .ctxstallRead _
  | .chceRead _ | .ucceRead | .trefcntRead _ | .fsstatRead | .registerWrite _ _ => true
  | _ => false

/-! ### Binding checks (Table 9-3, Table 6-3) in the words of R262 -/

/-- The code with which a BIND is refused, none when every check passes. -/
def bindCode (s : State) (c : Nat) : Option Nat :=
  let x := s.ctx c
  let h := s.ch x.chan
  if x.st ≠ .free then some 0x8
  else if h.st ≠ .ready then some 0x9
  else if x.lgmask = 0 then some 0xA
  else if x.vatreq > 96 ∨ x.vatreq > h.freeVat then some 0xB
  else if h.placeReams x.reamreq = none then some 0xC
  else if x.alreq > h.freeLoft then some 0xD
  else if x.alreq ≠ 0 ∧ (((s.tenant x.ten).win x.stashwin).enabled = false ∨ x.policy = 3) then some 0xE
  else progCheck s x

/-- The code with which a MIGRATE to a channel is refused (R264). -/
def migrateCode (s : State) (c target : Nat) : Option Nat :=
  let x := s.ctx c
  let h := s.ch target
  if x.st ≠ .bound ∨ x.runs ≠ [] ∨ x.directs ≠ [] then some 0x8
  else if x.rebound = some s.uc then some 0x9
  else if h.st ≠ .ready ∨ target = x.chan then some 0x9
  else if x.vatreq > 96 ∨ x.vatreq > h.freeVat then some 0xB
  else if h.placeReams x.reamreq = none then some 0xC
  else if x.alreq > h.freeLoft then some 0xD
  else progCheck s x

/-! ### Headbox (R265, R284) -/

/-- A word that names context c under tag ten reaches c's channel at once: c is BOUND or RUNNING and of that tenant, its channel holds
it and runs, and no receiver holds an earlier word of c. -/
abbrev Deliverable (s : State) (c ten : Nat) : Prop :=
  (s.ctx c).ten = ten ∧ ((s.ctx c).st = .bound ∨ (s.ctx c).st = .running) ∧ s.hosted c = true
    ∧ (s.ch (s.ctx c).chan).clkStop = false ∧ ∀ n < 8, ∀ v ∈ s.rxq n, v.ctx = c → s.seq ≤ v.ser

/-- A word that R265 refuses: the tag is not the context's tenant, or the context is FREE, FAULTED or DRAINING. -/
abbrev Refused (s : State) (c ten : Nat) : Prop :=
  (s.ctx c).ten ≠ ten ∨ (s.ctx c).st = .free ∨ (s.ctx c).st = .faulted ∨ (s.ctx c).st = .draining

/-- The context and the tenant tag of a command that brings a word to a channel (Table 10-1, Direct on Headbox). -/
def directOf : Instr → Option (CtxId × TenId)
  | .nop c m | .run c m _ | .discard c m _ | .rclr c m _ _ _ | .rexp c m _ _ | .rclose c m _ | .lrel c m _ _ | .lflush c m _ _ =>
    some (c, m)
  | _ => none

/-- The state in which the channel of context c takes a word that a command brings: time has passed there to the first cc in which
it takes one (R313). -/
def wordPoint (s : State) (c : Nat) : State := ({ s with seq := s.seq + 1 }).takeWord (s.ctx c).chan

/-- No earlier run or word of a bound context is left: a direct word acts at once (R285). -/
abbrev Quiet (x : Ctx) : Prop := x.st = .bound ∧ x.runs = [] ∧ x.directs = [] ∧ x.newSlots = [] ∧ x.restarts = []

/-- A word that a command brings to context c under tag ten acts at once (R265, R284, R285). -/
abbrev ActsAtOnce (s : State) (c ten : Nat) : Prop :=
  Reached s ∧ Deliverable s c ten ∧ ((wordPoint s c).ctx c).ten = ten ∧ Quiet ((wordPoint s c).ctx c)

/-- Nothing falls due on a channel by a cc. -/
abbrev NothingDue (h : Channel) (cc : Nat) : Prop := ∀ e ∈ h.due, cc < e.cc

/-- The result beats of a buffer that another does not hold. -/
def newBeats (old new : List ReelBeat) : List ReelBeat := new.filter fun b => !old.contains b

/-- A slot of a result beat: one that is not listed holds zero (R347). -/
def slotOf (b : ReelBeat) (k : Nat) : Nat := match b.data.find? fun v => v.1 == k with | some v => v.2 | none => 0

/-- Piece k, of 16 bits, of the record of a committed part: its descriptor, then its limbs from L9 down (R101, R351). -/
def recordPiece (a : RPart) (k : Nat) : Nat :=
  ((if k < 4 then a.desc else a.limb (10 - k / 4)).toNat >>> (16 * (k % 4))) % 65536

/-- The kinds that RCLOSE accepts (R304, Table 10-14a). -/
def closeTakes (w : RcloseFields) (k : RKind) : Prop :=
  if w.stats = true then k = .sum
  else if w.sel = 0 then k ≠ .unset
  else if w.sel = 1 ∨ w.sel = 2 then k = .exp else k = .max ∨ k = .min

/-- The entries of an RCLOSE over the committed parts of its reams, each with its flags, in the words of R304: with STATS the mean and the
variance of each pair (R104), else by SEL the close of each ream (Table 10-14a). -/
def closeEntries (w : RcloseFields) (a : Nat → RPart) : List (Nat × Flags) :=
  let f := elemFmt w.ofmt.toNat
  let rounded (v : Nat) : Nat × Flags := convertCode (decode v .fp32) f false
  if w.stats then (List.range ((w.rcnt.toNat + 1) / 2)).flatMap fun j =>
    let (m, v, fl) := closeStats (a (2 * j)) (a (2 * j + 1)) w.ddof.toNat
    [((rounded m).1, fl ||| (rounded m).2), rounded v]
  else (List.range (w.rcnt.toNat + 1)).flatMap fun i =>
    if w.sel = 0 then
      [match (a i).kind with
        | .sum => (a i).closeSum f
        | .exp => (a i).closeExpTotal f
        | _ => rounded (a i).recVal]
    else if w.sel = 1 then [(a i).closeSum .fp32, (encode (Val.ofInt (a i).offset) .fp32, 0)]
    else if w.sel = 2 then [((smaxClose (a i) RPart.unset).1.l, (smaxClose (a i) RPart.unset).2)]
    else [((a i).recPos, 0)]

/-- An illegal operand of a direct word: the context faults with code 0x02, and the first fault is attributed to the word and the field
(R281, R283, R435). -/
abbrev OperandFault (c : Nat) (opcode flsb : Nat) (p t : State) : Prop :=
  (t.ctx c).st = .faulted ∧ (t.ctx c).faultcode = (if (p.ctx c).faultcode = 0 then 0x02 else (p.ctx c).faultcode)
    ∧ ((p.ctx c).iflt.getLsbD 0 = false → (t.ctx c).iflt = ifltWord true 0 0 opcode flsb)
    ∧ (t.tenant (p.ctx c).ten).tevpend = (p.tenant (p.ctx c).ten).tevpend ||| 0x2

/-- A fault of a bound context takes effect: FAULTED, with FAULTCODE and CTXIFLT of the first fault since the bind, its runs gone and FAULT
set for its tenant (R266, R273, R274, R283). -/
abbrev FaultTaken (c code : Nat) (iflt : BitVec 64) (p t : State) : Prop :=
  (t.ctx c).st = .faulted ∧ (t.ctx c).faultcode = (if (p.ctx c).faultcode = 0 then code else (p.ctx c).faultcode)
    ∧ (t.ctx c).iflt = (if (p.ctx c).iflt.getLsbD 0 then (p.ctx c).iflt else iflt) ∧ (t.ctx c).runs = []
    ∧ (t.tenant (p.ctx c).ten).tevpend = (p.tenant (p.ctx c).ten).tevpend ||| 0x2

/-- Channel n is fenced for a source and an index (R366 to R369): CHERR, the count and the fault line tell of it, its contents are lost, its
contexts are placed elsewhere or FAULTED with REBIND set, and the furnish master stays. -/
def Fenced (n src index : Nat) (s t : State) : Prop :=
  (t.ch n).st = .fenced ∧ (t.ch n).err = some ⟨src, index, (s.ch n).cyc % 2 ^ 32⟩ ∧ (t.ch n).fencing = true
    ∧ (t.ch n).fcount = min 255 ((s.ch n).fcount + 1) ∧ t.ifstat.getLsbD n = true
    ∧ (t.ch n).alloc = [] ∧ (t.ch n).reams = [] ∧ (t.ch n).store = [] ∧ (t.ch n).loft = []
    ∧ (t.ch n).couch = [] ∧ (t.ch n).egress = [] ∧ (t.ch n).cyc = (s.ch n).cyc
    ∧ (∀ a ∈ (s.ch n).alloc, (t.ctx a.ctx).runs = []
        ∧ ((t.ctx a.ctx).chan ≠ n ∧ (t.ch (t.ctx a.ctx).chan).st = .ready ∨ (t.ctx a.ctx).st = .faulted)
        ∧ (t.tenant (s.ctx a.ctx).ten).tevpend.getLsbD 2 = true)
    ∧ t.master = s.master

/-! ### The mailbox (R260, R378) -/

/-- The mailbox as the mill core finds it: it runs, no load is in progress, and the oldest entry is whole, well formed, of operation op
and of a tenant whose report queue has room. -/
abbrev MillTakes (s : State) (op : Nat) (e : MbEntry) (rest : List MbEntry) : Prop :=
  s.mill.run = true ∧ s.mill.cur = none ∧ s.mailbox = e :: rest ∧ (s.tenant e.ten).reports.length < 16 ∧ e.lost = false
    ∧ mbWellFormed e.cmd = true ∧ mbOp e.cmd = op ∧ s.ucrdy = true

/-- The state in which the mill core carries out the oldest entry. -/
def taken (s : State) (rest : List MbEntry) : State :=
  { s with mailbox := rest, mill := { s.mill with lastBeat := s.uc } }

/-- The report of a context command: done, or refused with the BINDERR code (Table 13-8). -/
def reported (t : State) (e : MbEntry) : State :=
  t.pushReport e.ten (if (t.ctx (mbCtx e.cmd)).binderr = 0 then 0 else 1) (t.ctx (mbCtx e.cmd)).binderr (e.cmd.extractLsb' 104 16)

/-! ### The couch and the start of runs (R270, R315, R318) -/

/-- The state in which the start of a run is decided: in the cc after the run reached its channel, or the present one (R270, R286). -/
def startPoint (s : State) (c : Nat) (r : Run) : State := s.pass (s.ctx c).chan (r.arrived + 1)

/-- The state in which Couch decides: in the next cc in which it has not been commanded and a beat may be presented (R315, R318). -/
def couchPoint (s : State) (n : Nat) : State :=
  let s := if (s.ch n).polled.isSome then s.pass n ((s.ch n).cyc + 1) else s
  s.pass n (s.couchAt n)

/-- Contexts other than c keep everything but BALANCE, which the charge of issued slots lowers (R272). -/
def OthersOnlyPay (c : Nat) (s t : State) : Prop :=
  ∀ d, d ≠ c → { t.ctx d with balance := (s.ctx d).balance } = s.ctx d

/-- While a cc passes contexts other than c keep everything but BALANCE and the counts of their own stalls (R321). -/
def OthersOnlyWait (c : Nat) (s t : State) : Prop :=
  ∀ d, d ≠ c → { t.ctx d with
    balance := (s.ctx d).balance, stallPace := (s.ctx d).stallPace, stallBudget := (s.ctx d).stallBudget } = s.ctx d

/-- Some beats stand in an egress buffer, but for the marks of the first and the last of a stream (R350). -/
def Stand (beats egress : List ReelBeat) : Prop :=
  ∀ b ∈ beats, ∃ o ∈ egress, { o with sot := b.sot, eot := b.eot, pseq := b.pseq } = b

/-- A program of two words: a FLOW of a plain format without scales, and an EGRESS of results in a plain format, not split and not
masked. -/
abbrev Converts (p : Prog) (i : IngW) (o : EgrW) : Prop :=
  (∃ j k a b, p.body = [(j, a), (k, b)] ∧ opc a = 0x10 ∧ IngW.ofWord a = i ∧ opc b = 0x80 ∧ EgrW.ofWord b = o)
    ∧ i.scm = 0 ∧ i.fmt ≤ 10 ∧ isMx i.fmt = false ∧ o.ofmt ≤ 10 ∧ isMx o.ofmt = false ∧ o.sel = false ∧ o.split = 0 ∧ o.mkind = 0

/-- No word of any run and no direct word waits, and no change of program fields is pending. -/
abbrev NoWordsWait (x : Ctx) : Prop := (∀ q ∈ x.runs, q.after = []) ∧ x.directs = [] ∧ x.newSlots = []

/-! ### Exact values -/

/-- The rational that an exact value stands for. -/
def ratOf (q : XQ) : ℚ := (q.n : ℚ) / q.d * (2 : ℚ) ^ q.e

/-- k is x rounded to an integer, to nearest with ties to even. -/
abbrev NearestEven (x : ℚ) (k : ℤ) : Prop := |x - k| ≤ 1 / 2 ∧ (|x - k| = 1 / 2 → k % 2 = 0)

/-- x lies in the binade of exponent e. -/
abbrev Binade (x : ℚ) (e : ℤ) : Prop := (2 : ℚ) ^ e ≤ |x| ∧ |x| < (2 : ℚ) ^ (e + 1)

/-! ### The invariant -/

/-- What every channel keeps: its ream file and furnish store in canonical form, no more beats and credits than its Couch buffer has
entries (R316), sixteen lane groups (R269), throttle codes at most 6 (R395), window exponents 10 to 24 (R409). -/
abbrev Bounded (h : Channel) : Prop :=
  Tbl.wf ReamCell.reset h.reams = true ∧ Tbl.wf 0 h.store = true
    ∧ h.couch.length + (h.credits.map fun e => e.2).sum ≤ 32 ∧ h.holders.length = 16
    ∧ h.step ≤ 6 ∧ h.next ≤ 6 ∧ h.th ≤ 6
    ∧ 10 ≤ h.wexp ∧ h.wexp ≤ 24 ∧ 10 ≤ h.wexpStored ∧ h.wexpStored ≤ 24

/-- What every step keeps: each table of the state in canonical form, every channel within its bounds, at most 64 words in a Headbox
receiver (R313) and 64 entries in the mailbox (R378), and a power-limit term of at most 6 (R397). -/
def Inv (s : State) : Prop :=
  Tbl.wf Channel.reset s.chans = true ∧ Tbl.wf Ctx.reset s.ctxs = true ∧ Tbl.wf Tenant.reset s.tenants = true
    ∧ Tbl.wf Slice.reset s.slices = true ∧ Tbl.wf [] s.rx = true ∧ Tbl.wf 0 s.master = true
    ∧ (∀ n, Bounded (s.ch n)) ∧ (∀ n, (s.rxq n).length ≤ 64) ∧ s.mailbox.length ≤ 64 ∧ s.pw ≤ 6

end Sys2Proof.Safety
end

