-- ==== Sys2Proof/Certificates/Slice0/Obligations.lean ====
section
/-! DEFINITION. What is stated of the block for the provers: one definition for each obligation, with the rule of spec/ that it
formalises. -/
namespace Sys2Proof
open Sys2Proof.Machine Sys2Proof.Safety
end Sys2Proof

open Sys2Proof Sys2Proof.Machine Sys2Proof.Safety

/-! ### The queue, the clocks and reset -/

/-- A step takes the command at the front of the queue and runs it on the state with the queue's rest (the model's form, log 1). -/
def Obligations.StepRunsFrontCommand : Prop :=
  ∀ (c : Instr) (rest : List Instr) (s : State), s.pending = c :: rest → Machine.step s = exec c { s with pending := rest }

/-- With no command waiting one uc passes, and one cc in every channel that is not OFF and has a clock (R271, R383); where nothing falls due
in that cc, contexts keep everything but BALANCE, which the slots issued lower, and the counts of their stalls, a channel that serves
contexts counts the cc in CHSTARVE where a started run waits for the host (R322), and nothing else changes. The model's tick is DESIGN
CHOICE of log 4 and log 65. -/
def Obligations.IdleStepTicksClocks : Prop :=
  ∀ s : State, s.pending = [] → Inside s →
    Machine.step s = .next s.tick ∧ s.tick.uc = s.uc + 1
    ∧ ((∀ n < 8, NothingDue (s.ch n) ((s.ch n).cyc + 1)) →
      (∀ n : ChanId, ((s.ch n.val).st = .off ∨ (s.ch n.val).clkStop = true → s.tick.ch n.val = s.ch n.val)
        ∧ ((s.ch n.val).st ≠ .off → (s.ch n.val).clkStop = false →
          (s.tick.ch n.val).cyc = min ((s.ch n.val).cyc + 1) (2 ^ 64 - 1)
          ∧ (s.tick.ch n.val).dStarve = (s.ch n.val).dStarve + (if (s.ch n.val).serves = true ∧ s.ccStarved n.val = true then 1 else 0)
          ∧ { s.tick.ch n.val with
              cyc := (s.ch n.val).cyc, dStarve := (s.ch n.val).dStarve, dPstall := (s.ch n.val).dPstall
              dPcause := (s.ch n.val).dPcause, polled := (s.ch n.val).polled, laneRes := (s.ch n.val).laneRes
              treeRes := (s.ch n.val).treeRes, treeTgt := (s.ch n.val).treeTgt, scanRes := (s.ch n.val).scanRes } = s.ch n.val))
      ∧ (∀ c, { s.tick.ctx c with
          balance := (s.ctx c).balance, stallPace := (s.ctx c).stallPace, stallBudget := (s.ctx c).stallBudget } = s.ctx c)
      ∧ { s.tick with uc := s.uc, chans := s.chans, ctxs := s.ctxs } = s)

/-- After reset every register but JWMK reads the reset value of its table: each register of each context's entry and status block, of each
tenant and its mailbox, of the furnish master and of the debug block reads zero, as the write-only CTXCMD and MNTCMD do, and the registers
with another reset value read that (R107, R257, R266, R372, R380, R385, R393, R406, R407, R408, R411). JWMK is a build value that the spec
does not give (log 11). -/
def Obligations.ResetRegistersReadTheirResetValues : Prop :=
  (∀ (c : CtxId) (k : Fin 8), State.reset.readReg (entryBase c.val + 8 * k.val) = 0)
    ∧ (∀ (c : CtxId) (k : Fin 16), State.reset.readReg (statusBase c.val + 8 * k.val) = 0)
    ∧ (∀ (m : TenId) (k : Fin 16), State.reset.readReg (tenantBase m.val + 8 * k.val) = 0)
    ∧ (∀ (m : TenId) (k : Fin 4), State.reset.readReg (0x2000 + 0x20 * m.val + 8 * k.val) = 0)
    ∧ (∀ k : Fin 8192, State.reset.readReg (0x200000 + 8 * k.val) = 0 ∧ State.reset.readReg (0x3F0000 + 8 * k.val) = 0)
    ∧ (∀ (n : ChanId) (k : Fin 512), State.reset.readReg (chBase n.val + 8 * k.val) =
        if k.val = 2 then 0x10 else if k.val = 0xA1 then 0x250F else if k.val = 0xC2 then 0x39AFB4F0 else 0)
    ∧ State.reset.readReg 0x0000 = 0x30002 ∧ State.reset.readReg 0x1010 = 0 ∧ State.reset.readReg 0x1100 = 0
    ∧ State.reset.readReg 0x1108 = 0x1FFFFF ∧ State.reset.readReg 0x1110 = 0 ∧ State.reset.readReg 0x1200 = 0
    ∧ State.reset.readReg 0x1210 = 0 ∧ State.reset.readReg 0x1218 = 0 ∧ State.reset.readReg 0x1300 = 0xFF00
    ∧ State.reset.readReg 0x1308 = 0xFA ∧ State.reset.readReg 0x1000 = 0 ∧ State.reset.readReg 0x1208 = 0

/-- RESET_ASSERT: every channel is OFF with its switches open, every register takes its reset value and the mill core is halted,
whatever the state was (R392); the clock inputs and the commands that wait are outside the reset.
RESET_RELEASE and UNCORE_INIT_DONE: JRST_N rises, and UCRDY is set when initialisation is complete (R393); nothing else changes. -/
def Obligations.ResetTakesEffectAndEnds : Prop :=
  (∀ s : State, ∃ t, exec .resetAssert s = .next t
      ∧ t.jrst = true ∧ t.ucrdy = false ∧ t.undef = false ∧ t.pending = s.pending
      ∧ (∀ n : ChanId, t.ch n.val = { Channel.reset with clkStop := (s.ch n.val).clkStop })
      ∧ (∀ c, t.ctx c = Ctx.reset) ∧ (∀ m, t.tenant m = Tenant.reset) ∧ (∀ n, t.slice n = Slice.reset) ∧ (∀ n, t.rxq n = [])
      ∧ (∀ k, t.masterWord k = 0) ∧ t.mailbox = [] ∧ t.mill = Mill.reset ∧ t.mnt = none
      ∧ t.ifstat = 0 ∧ t.ifmask = 0x1FFFFF ∧ t.ucce = 0 ∧ t.fsRej = 0 ∧ t.pstep = 250 ∧ t.plimit = 0 ∧ t.pw = 0 ∧ t.dbgen = false
      ∧ t.mntAddr = 0 ∧ t.mntDone = false ∧ t.mntErr = false ∧ t.mntCode = 0 ∧ t.fsLslot = 0 ∧ t.staging = 0 ∧ t.ctlRdata = 0
      ∧ t.dbgCh = 0 ∧ t.dbgReam = 0 ∧ t.dbgView = false ∧ t.dbgWait = false ∧ t.snapDesc = 0 ∧ t.snapWord = 0
      ∧ t.wrap.wir = s.wrap.wir ∧ t.wrap.opened = false ∧ t.wrap.tries = 0)
  ∧ (∀ s : State, (s.undef = false → exec .resetRelease s = .next { s with jrst := false })
      ∧ (Inside s → exec .uncoreInitDone s = .next { s with ucrdy := true }))

/-- While JRST_N is low, every command but the reset's own level, the clock inputs and the test wrapper leaves the state as it is
(R392). -/
def Obligations.NothingActsWhileResetIsLow : Prop :=
  ∀ (c : Instr) (s : State), s.undef = false → s.jrst = true → actsInReset c = false → exec c s = .next s

/-- No command but RESET_ASSERT and RESET_RELEASE moves JRST_N, only WS_EXTEST loaded while JRST_N is 1 makes the state undefined
(R433), and no command touches the queue (log 1). -/
def Obligations.ResetLevelAndQueueAreKept : Prop :=
  ∀ (c : Instr) (s t : State), exec c s = .next t →
    t.pending = s.pending ∧ (t.jrst = s.jrst ∨ c = .resetAssert ∨ c = .resetRelease)
      ∧ (t.undef = s.undef ∨ c = .resetAssert ∨ ∃ g, c = .wsExtest g)

/-- Clock inputs: a stopped channel clock freezes its island (R383); a resumed one goes on, its store takes the words that were written
meanwhile (R404), the next CCR grant is presented, a fence that waits is made, and a read of DBGRDESC that waits is answered; a frequency
change alters nothing but the frequency (R382). That a fence waits for the clock is the model's reading (log 53). -/
def Obligations.ClockInputsStopAndResumeIslands : Prop :=
  ∀ s : State, s.undef = false →
    (∀ n : ChanId, exec (.channelClockStop n) s = .next (s.setCh n.val { s.ch n.val with clkStop := true }))
    ∧ (∀ n : ChanId, let h := { s.ch n.val with
          clkStop := false, fenceLatch := none, ccrHold := false, storeWait := [], ctlHeld := false
          store := Tbl.puts 0 (s.ch n.val).store (s.ch n.val).storeWait }
        ((s.ch n.val).fenceLatch = none → s.dbgWait = false ∨ s.dbgCh ≠ n.val →
          exec (.channelClockResume n) s = .next (s.setCh n.val h))
        ∧ ((s.ch n.val).fenceLatch = none → s.dbgWait = true → s.dbgCh = n.val →
          exec (.channelClockResume n) s = .next ({ s.setCh n.val h with dbgWait := false }.readDbgrdesc))
        ∧ (∀ f, (s.ch n.val).fenceLatch = some f → (s.ch n.val).st = .ready ∨ (s.ch n.val).st = .quiescing →
          ∃ t, exec (.channelClockResume n) s = .next t ∧ (t.ch n.val).st = .fenced
            ∧ (t.ch n.val).err = some ⟨f.1, f.2, (s.ch n.val).cyc % 2 ^ 32⟩ ∧ (t.ch n.val).clkStop = false))
    ∧ (∀ (n : ChanId) (f : Nat), exec (.clockFrequencyChange (.chan n) f) s = .next { s with chKHz := Tbl.put 0 s.chKHz n.val f })
    ∧ (∀ f : Nat, exec (.clockFrequencyChange .uncore f) s = .next { s with ucKHz := f })

/-! ### Control registers -/

/-- Registers with access W1C: each bit written 1 clears, each bit written 0 stays, and nothing else changes (R14, R72, R75, R224, R266,
R380); EV_TEN and EV_FLT follow the bits that are set and not masked (R268, R360).
Writing 1 to VALID of CTXCAP, CTXIFLT or CTXLOST clears every field of that register; writing 0 leaves it (R412). The first offence that
was detected in the very cc in which CTXCAP is cleared stays in it (R15, R77), and so do the fault of that cc in CTXIFLT and what the same uc
recorded in CTXLOST, with VALID 1 (R412).
Flags that a context's work raises in a cc are set in CTXFLAG and in CHFLAG of its channel and stay set, and CTXCAP holds the first invalid
or ingress-NaN offence since it was cleared: the earliest cc, in it an ingress NaN before an invalid, then the lowest row and column (R72,
R75, R76, R77). -/
def Obligations.WritesOfOneClear : Prop :=
  (∀ (s : State) (d : BitVec 64), Commanded s →
      (∀ c : CtxId, ∃ f, exec (.ctxflagClear c d) s = .next (s.initDone.setCtx c.val { s.ctx c.val with flags := f })
        ∧ ∀ i < 8, f.getLsbD i = ((s.ctx c.val).flags.getLsbD i && !d.getLsbD i))
      ∧ (∀ n : ChanId, ∃ f, exec (.chflagClear n d) s = .next (s.initDone.setCh n.val { s.ch n.val with flag := f })
        ∧ ∀ i < 8, f.getLsbD i = ((s.ch n.val).flag.getLsbD i && !d.getLsbD i))
      ∧ (∃ f, exec (.ifstatClear d) s = .next { s.initDone with ifstat := f }
        ∧ (∀ i < 21, f.getLsbD i = (s.ifstat.getLsbD i && !d.getLsbD i))
        ∧ ({ s.initDone with ifstat := f }.evFlt = true ↔ ∃ i < 21, f.getLsbD i = true ∧ s.ifmask.getLsbD i = true))
      ∧ (∀ m : TenId, ∃ f, exec (.tevpendClear m d) s = .next (s.initDone.setTenant m.val { s.tenant m.val with tevpend := f })
        ∧ (∀ i < 5, f.getLsbD i = ((s.tenant m.val).tevpend.getLsbD i && !d.getLsbD i))
        ∧ ((s.initDone.setTenant m.val { s.tenant m.val with tevpend := f }).evTen m.val = true ↔
            ∃ i < 5, f.getLsbD i = true ∧ (s.tenant m.val).tevmask.getLsbD i = true))
      ∧ (∀ (c : CtxId) (k : Fin 4), ∃ f, exec (.loftmarkClear c k d) s = .next (s.initDone.setCtx c.val { s.ctx c.val with mark := f })
        ∧ ∀ i < 256, f.getLsbD i = ((s.ctx c.val).mark.getLsbD i && !(decide (i / 64 = k.val) && d.getLsbD (i % 64)))))
  ∧ (∀ (s : State) (c : CtxId) (d : BitVec 64), Commanded s →
      (d.getLsbD 0 = true →
        ((∀ a, (s.ctx c.val).capNow = some a → a.cc ≠ (s.ch (s.chanOf c.val)).cyc) →
          exec (.ctxcapClear c d) s = .next (s.initDone.setCtx c.val { s.ctx c.val with cap := none }))
        ∧ (∀ a, (s.ctx c.val).capNow = some a → a.cc = (s.ch (s.chanOf c.val)).cyc →
          exec (.ctxcapClear c d) s = .next (s.initDone.setCtx c.val { s.ctx c.val with cap := some a }))
        ∧ ((∀ a, (s.ctx c.val).ifltNow = some a → a.1 ≠ (s.ch (s.chanOf c.val)).cyc) →
          exec (.ctxifltClear c d) s = .next (s.initDone.setCtx c.val { s.ctx c.val with iflt := 0 }))
        ∧ (∀ a, (s.ctx c.val).ifltNow = some a → a.1 = (s.ch (s.chanOf c.val)).cyc →
          exec (.ctxifltClear c d) s = .next (s.initDone.setCtx c.val { s.ctx c.val with iflt := a.2 }))
        ∧ ((∀ a, (s.ctx c.val).lostNow = some a → a.1 ≠ s.uc) →
          exec (.ctxlostClear c d) s = .next (s.initDone.setCtx c.val { s.ctx c.val with lost := 0 }))
        ∧ (∀ a, (s.ctx c.val).lostNow = some a → a.1 = s.uc → a.2 ≠ 0 → (s.ctx c.val).lost.getLsbD 0 = true →
          exec (.ctxlostClear c d) s = .next (s.initDone.setCtx c.val { s.ctx c.val with lost := a.2 ||| 1 })))
      ∧ (d.getLsbD 0 = false →
        exec (.ctxcapClear c d) s = .next s.initDone ∧ exec (.ctxifltClear c d) s = .next s.initDone
        ∧ exec (.ctxlostClear c d) s = .next s.initDone))
  ∧ (∀ (s : State) (n c : Nat) (run : Option Nat) (pseq : Nat) (os : List Off) (rest : List Later),
      (s.ch n).ticking = true → (s.ch n).cyc + 1 < 2 ^ 64 → (s.ch n).due = ⟨(s.ch n).cyc + 1, c, run, .offs pseq os⟩ :: rest →
      (∀ e ∈ rest, (s.ch n).cyc + 1 < e.cc) → (s.ctx c).chan = n →
      let x := s.ctx c
      let t := s.pass n ((s.ch n).cyc + 1)
      (∀ i < 8, (t.ctx c).flags.getLsbD i = (x.flags.getLsbD i || os.any fun o => o.fl.getLsbD i))
      ∧ (∀ i < 8, (t.ch n).flag.getLsbD i = ((s.ch n).flag.getLsbD i || os.any fun o => o.fl.getLsbD i))
      ∧ (∀ o ∈ os, o.fl.getLsbD 4 = true ∨ o.fl.getLsbD 0 = true → ∃ a, (t.ctx c).cap = some a
          ∧ (a.cc < o.cc ∨ a.cc = o.cc ∧ (a.kind = true ∧ o.fl.getLsbD 4 = false ∨ a.kind = o.fl.getLsbD 4
              ∧ (a.row < o.row ∨ a.row = o.row ∧ a.col ≤ o.col))))
      ∧ (∀ b, x.cap = some b → (∀ o ∈ os, b.cc < o.cc) → (t.ctx c).cap = some b)
      ∧ (∀ a, (t.ctx c).capNow = some a → x.capNow = some a ∨ ∃ o ∈ os, a = ⟨o.fl.getLsbD 4, pseq, o.row, o.col, o.cc⟩)
      ∧ ((∀ a, x.capNow = some a → ∀ o ∈ os, a.cc ≤ o.cc) → ∀ o ∈ os, o.fl.getLsbD 4 = true ∨ o.fl.getLsbD 0 = true →
          (∀ q ∈ os, q.cc = o.cc) → ∃ a, (t.ctx c).capNow = some a ∧ a.cc = o.cc
            ∧ (a.kind = true ∧ o.fl.getLsbD 4 = false ∨ a.kind = o.fl.getLsbD 4 ∧ (a.row < o.row ∨ a.row = o.row ∧ a.col ≤ o.col)))
      ∧ (∀ a, (t.ctx c).cap = some a → x.cap = some a ∨ ∃ o ∈ os, a = ⟨o.fl.getLsbD 4, pseq, o.row, o.col, o.cc⟩
          ∧ (o.fl.getLsbD 4 = true ∨ o.fl.getLsbD 0 = true))
      ∧ (∀ d, d ≠ c → (t.ctx d).flags = (s.ctx d).flags ∧ (t.ctx d).cap = (s.ctx d).cap))

/-- Registers with access RC: a read returns the counter and clears that register alone (R14, R175, R322, R363, R380, R405, R411). -/
def Obligations.ReadToClearRegisters : Prop :=
  ∀ s : State, Commanded s →
    (∀ n : ChanId, exec (.pacingCounterRead n .chpstall) s =
      .next ({ s.initDone with ctlRdata := BitVec.ofNat 64 (s.ch n.val).pstall }.setCh n.val { s.ch n.val with pstall := 0 }))
    ∧ (∀ (n : ChanId) (k : Fin 11), exec (.pacingCounterRead n (.chpcause k)) s =
      .next ({ s.initDone with ctlRdata := BitVec.ofNat 64 ((s.ch n.val).pcause.getD k.val 0) }.setCh n.val
        { s.ch n.val with pcause := (s.ch n.val).pcause.set k.val 0 }))
    ∧ (∀ n : ChanId, exec (.pacingCounterRead n .chstarve) s =
      .next ({ s.initDone with ctlRdata := BitVec.ofNat 64 (s.ch n.val).starve }.setCh n.val { s.ch n.val with starve := 0 }))
    ∧ (∀ n : ChanId, exec (.pacingCounterRead n .chcrederr) s =
      .next ({ s.initDone with ctlRdata := BitVec.ofNat 64 ((s.ch n.val).crederr % 2 ^ 32) }.setCh n.val
        { s.ch n.val with crederr := 0 }))
    ∧ (∀ c : CtxId, exec (.ctxstallRead c) s =
      .next ({ s.initDone with
          ctlRdata := BitVec.ofNat 64 ((s.ctx c.val).stallPace % 2 ^ 32 + (s.ctx c.val).stallBudget % 2 ^ 32 * 2 ^ 32) }.setCtx c.val
        { s.ctx c.val with stallPace := 0, stallBudget := 0 }))
    ∧ (∀ n : ChanId, exec (.chceRead n) s =
      .next ({ s.initDone with ctlRdata := BitVec.ofNat 64 ((s.ch n.val).ce % 2 ^ 32) }.setCh n.val { s.ch n.val with ce := 0 }))
    ∧ exec .ucceRead s = .next { s.initDone with ctlRdata := BitVec.ofNat 64 (s.ucce % 2 ^ 32), ucce := 0 }
    ∧ (∀ m : TenId, exec (.trefcntRead m) s =
      .next ({ s.initDone with ctlRdata := BitVec.ofNat 64 ((s.tenant m.val).trefcnt % 2 ^ 32) }.setTenant m.val
        { s.tenant m.val with trefcnt := 0 }))
    ∧ exec .fsstatRead s =
      .next { s.initDone with ctlRdata := BitVec.ofNat 64 (s.fsRej % 2 ^ 32 + s.fsLslot % 2 ^ 12 * 2 ^ 32), fsRej := 0, fsLslot := 0 }

/-- Writes of a FREE context's entry: every field that Table 9-1 lets the programmer write takes the written bits, the RO fields and the
reserved bits do not (R257, R401). That the program fields of a FREE context take a write unchecked is the model's reading (log 50).
A field marked "FREE only" keeps its value outside FREE, while RBMASK, CTXKEY and BUDGET take a write in any state (R257); a read of
CTXKEY returns zero. -/
def Obligations.ContextFieldsTakeWritesWhereTheyMay : Prop :=
  (∀ (s : State) (c : CtxId) (d : BitVec 64), Commanded s → (s.ctx c.val).st = .free →
      exec (.contextFieldWrite c .ctxst d) s = .next (s.initDone.setCtx c.val { s.ctx c.val with
        ten := (d.extractLsb' 4 4).toNat, chan := (d.extractLsb' 8 3).toNat, lgmask := d.extractLsb' 16 16
        rbmask := d.extractLsb' 32 8 })
      ∧ (∀ k, k = .contextFieldWrite c .ctxres d ∨ k = .programChange c d →
        exec k s = .next (s.initDone.setCtx c.val { s.ctx c.val with
          vatreq := (d.extractLsb' 0 7).toNat, reamreq := (d.extractLsb' 8 7).toNat
          proga := (d.extractLsb' 24 12).toNat, progav := d.getLsbD 36, progb := (d.extractLsb' 37 12).toNat, progbv := d.getLsbD 49 }))
      ∧ exec (.contextFieldWrite c .ctxloft d) s = .next (s.initDone.setCtx c.val { s.ctx c.val with
        alreq := (d.extractLsb' 0 15).toNat, stashwin := (d.extractLsb' 32 2).toNat, policy := (d.extractLsb' 34 2).toNat })
      ∧ exec (.contextFieldWrite c .ctxstash d) s = .next (s.initDone.setCtx c.val { s.ctx c.val with
        stashbase := (d.extractLsb' 0 30).toNat, extent := (d.extractLsb' 30 31).toNat }))
  ∧ (∀ (s : State) (c : CtxId) (d : BitVec 64), Commanded s →
      ((s.ctx c.val).st ≠ .free →
        exec (.contextFieldWrite c .ctxst d) s = .next (s.initDone.setCtx c.val { s.ctx c.val with rbmask := d.extractLsb' 32 8 })
        ∧ exec (.contextFieldWrite c .ctxloft d) s = .next (s.initDone.setCtx c.val (s.ctx c.val))
        ∧ exec (.contextFieldWrite c .ctxstash d) s = .next (s.initDone.setCtx c.val (s.ctx c.val)))
      ∧ exec (.ctxkeyWrite c d) s = .next (s.initDone.setCtx c.val { s.ctx c.val with key := d })
      ∧ exec (.ctxbudWrite c d) s = .next (s.initDone.setCtx c.val { s.ctx c.val with budget := (d.extractLsb' 0 32).toNat })
      ∧ s.readReg (entryBase c.val + 0x20) = 0)

/-- A change of a bound context's program fields (R179, R180): refused with the first failing code of Table 6-3 with the entry kept;
accepted, it is in the entry at once. With no run open the slots follow at once: a slot declared as before keeps its copies, every other
starts EMPTY. While runs are open the slots follow when those runs are gone, change by change. DRAINING ignores it.
That an accepted change clears BINDERR (log 50) and that a change waits for the runs that it found open (log 20) are the model's readings. -/
def Obligations.ProgramChangeIsCheckedAndDeferred : Prop :=
  ∀ (s : State) (c : CtxId) (d : BitVec 64) (x y : Ctx), Commanded s → x = s.ctx c.val →
    y = { x with proga := (d.extractLsb' 24 12).toNat, progav := d.getLsbD 36, progb := (d.extractLsb' 37 12).toNat,
                 progbv := d.getLsbD 49 } →
    (x.st = .draining → exec (.programChange c d) s = .next s.initDone)
    ∧ (x.st = .bound ∨ x.st = .running ∨ x.st = .faulted → x ≠ y →
      (∀ code, progCheck s.initDone y = some code →
        exec (.programChange c d) s = .next (s.initDone.setCtx c.val { x with binderr := code }))
      ∧ (progCheck s.initDone y = none →
        (x.newSlots = [] → x.runs = [] → ∃ t, exec (.programChange c d) s = .next t ∧ OnlyCtx c.val s.initDone t
          ∧ t.ctx c.val = { y with binderr := 0, slots := (t.ctx c.val).slots }
          ∧ (t.ctx c.val).slots.map (fun sl => sl.decl) = progDecls s y.starts
          ∧ ∀ sl ∈ (t.ctx c.val).slots, sl ∈ x.slots ∨ (∀ k ∈ sl.copies, k.st = .empty) ∧ ∀ o ∈ x.slots, o.decl ≠ sl.decl)
        ∧ ((x.newSlots = [] ∧ x.runs ≠ []) ∨ (∃ q ∈ x.newSlots.head?, ∃ r ∈ x.runs, r.ser ∈ q.before) →
          ∃ t, exec (.programChange c d) s = .next t ∧ OnlyCtx c.val s.initDone t
          ∧ t.ctx c.val = { y with
              binderr := 0, newSlots := x.newSlots ++ [⟨x.runs.map fun r => r.ser, progDecls s y.starts⟩] })))

/-- Registers with access RW take a write of their fields and of nothing else; the reserved bits have no place (R16, R252, R266, R372,
R375, R380, R385, R396, R397, R407). A write with PLIMIT 0 makes pw zero, in the register and in every island that works and has a
clock (log 78). A write of CHPCTL leaves the decision of the latest decision cc what it had and serves the next one (R415).
CHWIN: a WEXP below 10 stores 10 and one above 24 stores 24; it may come into force from the next cc (R409). -/
def Obligations.ReadWriteRegistersTakeWrites : Prop :=
  (∀ (s : State) (d : BitVec 64), Commanded s →
      exec (.registerWrite 0x1108 d) s = .next { s.initDone with ifmask := d.extractLsb' 0 21 }
      ∧ exec (.registerWrite 0x1200 d) s = .next { s.initDone with mntAddr := d.extractLsb' 6 46 }
      ∧ (d.extractLsb' 12 8 ≠ 0 → exec (.registerWrite 0x1308 d) s = .next { s.initDone with
          pstep := d.extractLsb' 0 12, plimit := d.extractLsb' 12 8 })
      ∧ (d.extractLsb' 12 8 = 0 → ∃ t, exec (.registerWrite 0x1308 d) s = .next t
          ∧ { t with chans := s.chans } = { s.initDone with pstep := d.extractLsb' 0 12, plimit := 0, pw := 0 }
          ∧ ∀ n : ChanId, t.ch n.val = if (s.ch n.val).st ≠ .off ∧ (s.ch n.val).st ≠ .powering ∧ (s.ch n.val).clkStop = false
              then { s.ch n.val with pw := 0 } else s.ch n.val)
      ∧ exec (.registerWrite 0x3F0000 d) s = .next { s.initDone with dbgen := d.getLsbD 0 }
      ∧ (∀ n : ChanId,
        exec (.registerWrite (BitVec.ofNat 24 (chBase n.val + 0x508)) d) s =
          .next (s.initDone.setCh n.val { s.ch n.val with fcfg := d.extractLsb' 0 15 })
        ∧ ∃ old, exec (.registerWrite (BitVec.ofNat 24 (chBase n.val + 0x610)) d) s =
            .next (s.initDone.setCh n.val { s.ch n.val with pchctl := d.extractLsb' 0 31, pchOld := old })
          ∧ (∀ cc, cc % 65536 = 0 → cc ≤ (s.ch n.val).cyc → (s.ch n.val).cyc < cc + 65536 →
            ({ s.ch n.val with pchctl := d.extractLsb' 0 31, pchOld := old } : Channel).pchAt cc = (s.ch n.val).pchAt cc
            ∧ ((∀ a, (s.ch n.val).pchOld = some a → a.1 < cc + 65536) →
              ({ s.ch n.val with pchctl := d.extractLsb' 0 31, pchOld := old } : Channel).pchAt (cc + 65536) = d.extractLsb' 0 31)))
      ∧ (∀ c : CtxId,
        exec (.registerWrite (BitVec.ofNat 24 (entryBase c.val + 0x28)) d) s =
          .next (s.initDone.setCtx c.val { s.ctx c.val with smpctr := d })
        ∧ exec (.registerWrite (BitVec.ofNat 24 (entryBase c.val + 0x30)) d) s =
          .next (s.initDone.setCtx c.val { s.ctx c.val with strm := d.extractLsb' 0 32 }))
      ∧ (∀ m : TenId, exec (.registerWrite (BitVec.ofNat 24 (tenantBase m.val + 0x48)) d) s =
          .next (s.initDone.setTenant m.val { s.tenant m.val with tevmask := d.extractLsb' 0 5 }))
      ∧ (∀ (m : TenId) (w : Fin 4),
        exec (.registerWrite (BitVec.ofNat 24 (tenantBase m.val + 0x10 * w.val)) d) s =
          .next (s.initDone.setTenant m.val { s.tenant m.val with
            wins := (s.tenant m.val).wins.set w.val { (s.tenant m.val).win w.val with en := d.getLsbD 0, base := d.extractLsb' 12 40 } })
        ∧ exec (.registerWrite (BitVec.ofNat 24 (tenantBase m.val + 0x10 * w.val + 8)) d) s =
          .next (s.initDone.setTenant m.val { s.tenant m.val with
            wins := (s.tenant m.val).wins.set w.val { (s.tenant m.val).win w.val with sizeexp := d.extractLsb' 0 6 } })))
  ∧ (∀ (s : State) (n : ChanId) (d : BitVec 64), Commanded s → ∃ v, exec (.chwinWrite n d) s =
        .next (s.initDone.setCh n.val { s.ch n.val with wexpStored := v, wexpAt := (s.ch n.val).cyc + 1 })
      ∧ v = if (d.extractLsb' 0 5).toNat < 10 then 10 else if (d.extractLsb' 0 5).toNat > 24 then 24 else (d.extractLsb' 0 5).toNat)

/-- While a Control access waits for a channel whose clock has stopped the block accepts no other: the host has one outstanding at a time,
in order (R359; that the other command leaves the state as it is is the model's form, log 104). The debug window: a write to DBGRSEL selects
and clears the snapshot to zero; a read of DBGRDESC takes the snapshot while DBGEN is 1 and reads zero while it is 0, in which case nothing
is taken (R107); a channel that is OFF or FENCED gives zero (R108). The shadow view shows what stands in the shadow in the present cc (R87),
and zero where no run holds one. While the clock of the channel has stopped, the read waits (R404). -/
def Obligations.DebugWindowTakesSnapshots : Prop :=
  (∀ (s : State) (k : Instr), Reached s → isControl k = true → s.dbgWait = true ∨ (∃ n : ChanId, (s.ch n.val).ctlHeld = true) →
    exec k s = .next s)
  ∧ ∀ (s : State) (d : BitVec 64), Commanded s →
    exec (.dbgrselWrite d) s = .next { s.initDone with
      dbgCh := (d.extractLsb' 0 3).toNat, dbgReam := (d.extractLsb' 8 8).toNat, dbgView := d.getLsbD 16, snapDesc := 0, snapWord := 0 }
    ∧ (s.dbgen = false → exec .dbgrdescRead s = .next { s.initDone with ctlRdata := 0 })
    ∧ (s.dbgen = true → (s.ch s.dbgCh).st = .off ∨ (s.ch s.dbgCh).st = .fenced →
      exec .dbgrdescRead s = .next { s.initDone with snapDesc := 0, snapWord := 0, ctlRdata := 0 })
    ∧ (s.dbgen = true → (s.ch s.dbgCh).st ≠ .off → (s.ch s.dbgCh).st ≠ .fenced → (s.ch s.dbgCh).clkStop = true →
      exec .dbgrdescRead s = .next { s.initDone with dbgWait := true })
    ∧ (s.dbgen = true → (s.ch s.dbgCh).st ≠ .off → (s.ch s.dbgCh).st ≠ .fenced → (s.ch s.dbgCh).clkStop = false →
      (s.dbgView = false → exec .dbgrdescRead s = .next { s.initDone with
        snapDesc := ((s.ch s.dbgCh).ream s.dbgReam).com.desc, snapWord := ((s.ch s.dbgCh).ream s.dbgReam).com.w
        ctlRdata := ((s.ch s.dbgCh).ream s.dbgReam).com.desc })
      ∧ (s.dbgView = true → ((s.ch s.dbgCh).ream s.dbgReam).sh = none →
        exec .dbgrdescRead s = .next { s.initDone with snapDesc := 0, snapWord := 0, ctlRdata := 0 })
      ∧ (∀ q, s.dbgView = true → ((s.ch s.dbgCh).ream s.dbgReam).sh = some q → ∃ a : RPart,
        exec .dbgrdescRead s = .next { s.initDone with snapDesc := a.desc, snapWord := a.w, ctlRdata := a.desc }
        ∧ ((∀ e ∈ q.hist, (s.ch s.dbgCh).cyc < e.1) → a = ((s.ch s.dbgCh).ream s.dbgReam).com.openShadow)
        ∧ (∀ e es, q.hist = e :: es → e.1 ≤ (s.ch s.dbgCh).cyc → a = e.2)))

/-- A write to an offset that no register occupies is ignored, a read of it returns zero, and offset bits [2:0] are ignored (R17): outside
the blocks, and inside a block the offsets that its layout does not name (R400). -/
def Obligations.UnoccupiedOffsetsAreIgnored : Prop :=
  ∀ (s : State) (off : BitVec 24) (d : BitVec 64), Commanded s →
    (0x002200 ≤ off.toNat ∧ off.toNat < 0x010000 ∨ 0x018000 ≤ off.toNat ∧ off.toNat < 0x100000
        ∨ 0x130000 ≤ off.toNat ∧ off.toNat < 0x200000 ∨ 0x210000 ≤ off.toNat ∧ off.toNat < 0x300000
        ∨ 0x300800 ≤ off.toNat ∧ off.toNat < 0x3F0000 ∨ 0x400000 ≤ off.toNat →
      exec (.registerWrite off d) s = .next s.initDone ∧ s.readReg off.toNat = 0)
    ∧ (∀ (n : ChanId) (k : Fin 512), off.toNat = chBase n.val + 8 * k.val →
        (5 ≤ k.val ∧ k.val < 0x80 ∨ 0x8E ≤ k.val ∧ k.val < 0xA0 ∨ 0xA5 ≤ k.val ∧ k.val < 0xC0 ∨ 0xC4 ≤ k.val) →
      exec (.registerWrite off d) s = .next s.initDone ∧ s.readReg off.toNat = 0)
    ∧ (∀ k : Fin 1024, off.toNat = 8 * k.val →
        (2 ≤ k.val ∧ k.val < 0x200 ∨ k.val = 0x201 ∨ 0x203 ≤ k.val ∧ k.val < 0x220 ∨ 0x223 ≤ k.val ∧ k.val < 0x240
          ∨ 0x244 ≤ k.val ∧ k.val < 0x260 ∨ 0x262 ≤ k.val) →
      exec (.registerWrite off d) s = .next s.initDone ∧ s.readReg off.toNat = 0)
    ∧ (∀ (c : CtxId) (k : Fin 16), off.toNat = statusBase c.val + 8 * k.val → (5 ≤ k.val ∧ k.val < 8 ∨ 12 ≤ k.val) →
      exec (.registerWrite off d) s = .next s.initDone ∧ s.readReg off.toNat = 0)
    ∧ (∀ (m : TenId) (k : Fin 16), off.toNat = tenantBase m.val + 8 * k.val → 11 ≤ k.val →
      exec (.registerWrite off d) s = .next s.initDone ∧ s.readReg off.toNat = 0)
    ∧ (∀ k : Fin 8192, off.toNat = 0x3F0000 + 8 * k.val →
        (1 ≤ k.val ∧ k.val < 0x20 ∨ 0x2C ≤ k.val) →
      exec (.registerWrite off d) s = .next s.initDone ∧ s.readReg off.toNat = 0)
    ∧ exec (.registerWrite off d) s = exec (.registerWrite (off &&& 0xFFFFF8#24) d) s
    ∧ s.readReg off.toNat = s.readReg (off &&& 0xFFFFF8#24).toNat

/-- A write of CTXCMD, CHCMD, CHPCMD or MNTCMD acts as the command of its code, and the codes without a command are ignored; CTXCMD and
MNTCMD read zero (R259, R373, R375, R385). -/
def Obligations.CommandRegistersActAsTheirCommands : Prop :=
  ∀ (s : State) (d : BitVec 64), Commanded s →
    s.readReg 0x1000 = 0 ∧ s.readReg 0x1208 = 0
    ∧ exec (.registerWrite 0x1208 d) s =
        (match (d.extractLsb' 0 2).toNat with
         | 1 => exec .millFirmwareLoad s
         | 2 => exec (.microcodeLoad (Fin.ofNat 8 (d.extractLsb' 4 3).toNat)) s
         | 3 => exec (.functionTableLoad (Fin.ofNat 8 (d.extractLsb' 4 3).toNat)) s
         | _ => .next s.initDone)
    ∧ (∀ c : CtxId, (d.extractLsb' 0 10).toNat = c.val →
      exec (.registerWrite 0x1000 d) s =
        (match (d.extractLsb' 16 3).toNat with
         | 1 => exec (.bind c) s
         | 2 => exec (.unbind c) s
         | 3 => exec (.teardown c) s
         | 4 => exec (.restore c) s
         | 5 => exec (.migrate c (Fin.ofNat 8 (d.extractLsb' 24 3).toNat)) s
         | _ => .next s.initDone))
    ∧ (∀ n : ChanId, exec (.registerWrite (BitVec.ofNat 24 (chBase n.val + 0x500)) d) s =
        (match (d.extractLsb' 0 3).toNat with
         | 1 => exec (.quiesce n) s
         | 2 => exec (.test n) s
         | 3 => exec (.rejoin n) s
         | 4 => exec (.fence n) s
         | 5 => exec (.release n) s
         | _ => .next s.initDone))
    ∧ (∀ n : ChanId, exec (.registerWrite (BitVec.ofNat 24 (chBase n.val + 0x608)) d) s =
        (match (d.extractLsb' 0 2).toNat with
         | 1 => exec (.power n) s
         | 2 => exec (.off n) s
         | _ => .next s.initDone))

/-! ### The furnish master (R173 to R175) -/

/-- A low-half write is staged; a high-half write commits the word to the master and to the store of every channel that is READY or
QUIESCING, and to nothing else (R173, R174); a channel whose clock has stopped takes it when the clock resumes, for which the access waits
(R404).
A Control write to either half of a slot inside a program that a context not FREE names is ignored, and FSSTAT counts it
(R175). The master is mapped at 0x20_0000 + 16 × slot, low half first, and a read returns the committed half (R174). -/
def Obligations.FurnishWritesCommitUnlessLocked : Prop :=
  (∀ (s : State) (slot : Fin 4096) (d : BitVec 64), Commanded s → s.locked slot.val = false →
      exec (.furnishLowWrite slot d) s = .next { s.initDone with staging := d }
      ∧ ∃ t, exec (.furnishHighWrite slot d) s = .next t
        ∧ (∀ k, t.masterWord k = if k = slot.val then d ++ s.staging else s.masterWord k)
        ∧ (∀ (n : ChanId) (k : Nat), (t.ch n.val).word k =
            if k = slot.val ∧ ((s.ch n.val).st = .ready ∨ (s.ch n.val).st = .quiescing) ∧ (s.ch n.val).clkStop = false
            then d ++ s.staging else (s.ch n.val).word k)
        ∧ (∀ n : ChanId, (t.ch n.val).storeWait =
            if ((s.ch n.val).st = .ready ∨ (s.ch n.val).st = .quiescing) ∧ (s.ch n.val).clkStop = true
            then (s.ch n.val).storeWait ++ [(slot.val, d ++ s.staging)] else (s.ch n.val).storeWait)
        ∧ (∀ n : ChanId, (t.ch n.val).ctlHeld =
            ((s.ch n.val).ctlHeld || ((s.ch n.val).st == .ready || (s.ch n.val).st == .quiescing) && (s.ch n.val).clkStop))
        ∧ (∀ n : ChanId, { t.ch n.val with
            store := (s.ch n.val).store, storeWait := (s.ch n.val).storeWait, ctlHeld := (s.ch n.val).ctlHeld } = s.ch n.val)
        ∧ { t with master := s.master, chans := s.chans } = s.initDone)
  ∧ (∀ (s : State) (slot : Fin 4096) (d : BitVec 64) (c a : Nat), Commanded s →
      (s.ctx c).st ≠ .free → a ∈ (s.ctx c).starts → opc (s.masterWord a) = 0xF0 →
      a ≤ slot.val → slot.val < a + (Hdr.ofWord (s.masterWord a)).len →
      ∀ k, k = .furnishLowWrite slot d ∨ k = .furnishHighWrite slot d →
        exec k s = .next { s.initDone with fsRej := min (s.fsRej + 1) 0xFFFFFFFF, fsLslot := slot.val })
  ∧ (∀ (s : State) (slot : Fin 4096) (d : BitVec 64),
      s.readReg (0x200000 + 16 * slot.val) = (s.masterWord slot.val).extractLsb' 0 64
      ∧ s.readReg (0x200000 + 16 * slot.val + 8) = (s.masterWord slot.val).extractLsb' 64 64
      ∧ exec (.registerWrite (BitVec.ofNat 24 (0x200000 + 16 * slot.val)) d) s = exec (.furnishLowWrite slot d) s
      ∧ exec (.registerWrite (BitVec.ofNat 24 (0x200000 + 16 * slot.val + 8)) d) s = exec (.furnishHighWrite slot d) s)

/-! ### Contexts (R258 to R264, R273 to R277) -/

/-- BIND with every check passed: the context enters BOUND with its resources allocated, BALANCE at BUDGET, flags, capture, marks and
records cleared, every ream of its block UNSET and every slot copy EMPTY; its requests, programs and generator fields stay, and so do
the other contexts and channels (R80, R185, R258, R262, R263, R283).
BIND refused: the first check of Table 9-3 and Table 6-3 that fails gives BINDERR, and nothing else changes (R262). -/
def Obligations.BindAllocatesOrChangesOnlyBinderr : Prop :=
  (∀ (s : State) (c : CtxId), Commanded s → bindCode s.initDone c.val = none → ∃ t base, exec (.bind c) s = .next t
      ∧ (s.ch (s.ctx c.val).chan).placeReams (s.ctx c.val).reamreq = some base
      ∧ (let x := s.ctx c.val
         let y := t.ctx c.val
         y.st = .bound ∧ y.binderr = 0 ∧ y.faultcode = 0 ∧ y.reambase = base ∧ y.algrant = x.alreq ∧ y.balance = satBal x.budget
          ∧ y.flags = 0 ∧ y.cap = none ∧ y.mark = 0 ∧ y.iflt = 0 ∧ y.lost = 0 ∧ y.stallPace = 0 ∧ y.stallBudget = 0
          ∧ y.runs = [] ∧ y.directs = [] ∧ y.cnts = [0, 0, 0, 0] ∧ (∀ sl ∈ y.slots, ∀ k ∈ sl.copies, k.st = .empty)
          ∧ y.ten = x.ten ∧ y.chan = x.chan ∧ y.lgmask = x.lgmask ∧ y.rbmask = x.rbmask ∧ y.vatreq = x.vatreq ∧ y.reamreq = x.reamreq
          ∧ y.starts = x.starts ∧ y.key = x.key ∧ y.smpctr = x.smpctr ∧ y.strm = x.strm ∧ y.budget = x.budget
          ∧ (t.ch x.chan).alloc = (s.ch x.chan).alloc ++ [⟨c.val, x.vatreq, base, 4 * x.reamreq, x.alreq⟩]
          ∧ (∀ i, (t.ch x.chan).ream i = if base ≤ i ∧ i < base + 4 * x.reamreq then ReamCell.reset else (s.ch x.chan).ream i)
          ∧ (∀ d, Tbl.look 0 (t.ch x.chan).lapsed d = if d = c.val then 0 else Tbl.look 0 (s.ch x.chan).lapsed d)
          ∧ { t.ch x.chan with
              alloc := (s.ch x.chan).alloc, reams := (s.ch x.chan).reams, lapsed := (s.ch x.chan).lapsed } = s.ch x.chan
          ∧ OnlyCtxCh c.val x.chan s.initDone t))
  ∧ (∀ (s : State) (c : CtxId) (code : Nat), Commanded s → bindCode s.initDone c.val = some code →
      exec (.bind c) s = .next (s.initDone.setCtx c.val { s.ctx c.val with binderr := code }))

/-- UNBIND is accepted in BOUND and RUNNING and starts a drain; in any other state it is refused with code 0x8 and changes nothing else
(R261). That direct words which wait never act then is the model's reading of R285 (log 21).
TEARDOWN is accepted in BOUND, RUNNING and FAULTED: the context drains with its runs abandoned and its committed reams kept, and no
other context changes; in FREE and DRAINING it is refused with code 0x8 (R228, R261, R273). -/
def Obligations.UnbindAndTeardownDrain : Prop :=
  (∀ (s : State) (c : CtxId), Commanded s →
      ((s.ctx c.val).st = .bound ∨ (s.ctx c.val).st = .running → exec (.unbind c) s =
        .next (s.initDone.setCtx c.val { s.ctx c.val with st := .draining, drain := .unbind, directs := [], binderr := 0 }))
      ∧ ((s.ctx c.val).st = .free ∨ (s.ctx c.val).st = .faulted ∨ (s.ctx c.val).st = .draining →
        exec (.unbind c) s = .next (s.initDone.setCtx c.val { s.ctx c.val with binderr := 0x8 })))
  ∧ (∀ (s : State) (c : CtxId), Commanded s → Inv s →
      ((s.ctx c.val).st = .bound ∨ (s.ctx c.val).st = .running ∨ (s.ctx c.val).st = .faulted →
        ∃ t, exec (.teardown c) s = .next t
          ∧ (t.ctx c.val).st = .draining ∧ (t.ctx c.val).drain = .teardown ∧ (t.ctx c.val).binderr = 0
          ∧ (t.ctx c.val).runs = [] ∧ (t.ctx c.val).directs = [] ∧ (t.ctx c.val).held = [] ∧ (t.ctx c.val).recQ = []
          ∧ (t.ctx c.val).stashQ = [] ∧ (t.ctx c.val).smpQ = [] ∧ (t.ctx c.val).faultcode = (s.ctx c.val).faultcode
          ∧ (∀ d, d ≠ c.val → t.ctx d = s.ctx d) ∧ (∀ n i, ((t.ch n).ream i).com = ((s.ch n).ream i).com)
          ∧ t.tenants = s.tenants ∧ t.master = s.master ∧ t.rx = s.rx ∧ t.mailbox = s.mailbox)
      ∧ ((s.ctx c.val).st = .free ∨ (s.ctx c.val).st = .draining →
        exec (.teardown c) s = .next (s.initDone.setCtx c.val { s.ctx c.val with binderr := 0x8 })))

/-- RESTORE of a FAULTED context: it waits while the abandonment is not complete, is refused with code 0x8 for an entry lost in both
copies and for a context that no channel had room for, which stays FAULTED (R43; the code is log 26), and otherwise takes the context to
BOUND with FAULTCODE and CTXIFLT cleared and its flags and capture kept; the home writes of the stash lines whose accesses the fault removed
wait in the slice again (log 19). In any other state it is refused with code 0x8 (R261, R274, R283, R362). -/
def Obligations.RestoreClearsTheFault : Prop :=
  ∀ (s : State) (c : CtxId), Commanded s →
    ((s.ctx c.val).st = .faulted → (s.ctx c.val).faultcode ≠ 0x0A → s.hosted c.val = true → (s.ctx c.val).abandonAt = none →
      let x := s.ctx c.val
      ∃ t, exec (.restore c) s = .next t
        ∧ t.ctx c.val = { x with st := .bound, faultcode := 0, iflt := 0, ifltNow := none, restoreWait := false, binderr := 0 }
        ∧ (t.slice x.chan).wait = (s.slice x.chan).wait ++
            (((s.ch x.chan).loft.filter fun l => l.owner == c.val && l.stash && l.dirty && !l.fetching && !l.writing).map fun l =>
              ⟨.stash x.chan l.tag, c.val, l.line, x.ten, x.stashwin, x.stashbase * 64 + 64 * l.line, 64, true, 0, 0⟩)
        ∧ { t.slice x.chan with wait := (s.slice x.chan).wait } = s.slice x.chan ∧ (∀ k, k ≠ x.chan → t.slice k = s.slice k)
        ∧ (t.ch x.chan).loft.map (fun l => { l with writing := false }) = (s.ch x.chan).loft.map (fun l => { l with writing := false })
        ∧ { t.ch x.chan with lapsed := (s.ch x.chan).lapsed, loft := (s.ch x.chan).loft } = s.ch x.chan
        ∧ OnlyCtxCh c.val x.chan s.initDone { t with slices := s.slices })
    ∧ ((s.ctx c.val).st = .faulted → (s.ctx c.val).faultcode ≠ 0x0A → s.hosted c.val = true → (s.ctx c.val).abandonAt ≠ none →
      exec (.restore c) s = .next (s.initDone.setCtx c.val { s.ctx c.val with restoreWait := true, binderr := 0 }))
    ∧ ((s.ctx c.val).st ≠ .faulted ∨ (s.ctx c.val).faultcode = 0x0A ∨ s.hosted c.val = false →
      exec (.restore c) s = .next (s.initDone.setCtx c.val { s.ctx c.val with binderr := 0x8 }))

/-- MIGRATE with every check passed, once what the context's direct words leave due has come about: the context is on the target with its
block UNSET there, BALANCE at BUDGET, and its programs, generator fields, flags, capture and marks kept; its source channel gives its
resources back and writes its dirty lines home. A MIGRATE that fails a check changes BINDERR alone (R226, R264). That time passes for the
direct words is log 4 and log 17, and that they come about on a stopped clock log 33; that one of a context which a fence has just rebound
fails with 0x9 is the model's choice for R277 (log 80). -/
def Obligations.MigrateMovesABoundContext : Prop :=
  ∀ (s : State) (c : CtxId) (n : ChanId), Commanded s →
    let h := s.ch (s.ctx c.val).chan
    let p := s.initDone.directsEnd (s.ctx c.val).chan c.val
    (h.ticking = true → p = s.initDone.pass (s.ctx c.val).chan (h.lastDue c.val))
    ∧ (h.ticking = false → (∀ e ∈ h.due, e.ctx ≠ c.val) → p.ctxs = s.ctxs ∧ ∀ k, p.ch k = s.ch k)
    ∧ (migrateCode s.initDone c.val n.val = none → p.chanOf c.val = (p.ctx c.val).chan → (p.ctx c.val).chan ≠ n.val →
      ∃ t base, exec (.migrate c n) s = .next t
      ∧ (s.ch n.val).placeReams (s.ctx c.val).reamreq = some base
      ∧ (let x := p.ctx c.val
         let y := t.ctx c.val
         y.st = x.st ∧ y.chan = n.val ∧ y.binderr = 0 ∧ y.reambase = base ∧ y.algrant = x.alreq ∧ y.balance = satBal x.budget
          ∧ y.flags = x.flags ∧ y.cap = x.cap.map (fun a => ⟨a.kind, a.pseq, a.row, a.col, 0⟩) ∧ y.mark = x.mark ∧ y.iflt = x.iflt
          ∧ y.starts = x.starts ∧ y.key = x.key ∧ y.smpctr = x.smpctr
          ∧ y.strm = x.strm ∧ (∀ sl ∈ y.slots, ∀ k ∈ sl.copies, k.st = .empty)
          ∧ (t.ch n.val).alloc = (p.ch n.val).alloc ++ [⟨c.val, x.vatreq, base, 4 * x.reamreq, x.alreq⟩]
          ∧ (∀ i, base ≤ i → i < base + 4 * x.reamreq → (t.ch n.val).ream i = ReamCell.reset)
          ∧ (t.ch x.chan).record c.val = none ∧ (∀ l ∈ (t.ch x.chan).loft, l.owner ≠ c.val)
          ∧ (∀ l ∈ (p.ch x.chan).loft, l.owner = c.val → l.dirty = true →
              (∃ k ∈ (t.ch x.chan).wb, { k with fetching := l.fetching } = l)
              ∧ (l.fetching = false →
                ⟨.homeWb x.chan, c.val, l.line, x.ten, x.stashwin, x.stashbase * 64 + 64 * l.line, 64, true, 0, 0⟩ ∈ (t.slice x.chan).wait))
          ∧ (∀ d, d ≠ c.val → t.ctx d = p.ctx d)))
    ∧ (∀ code, migrateCode s.initDone c.val n.val = some code →
      exec (.migrate c n) s = .next (s.initDone.setCtx c.val { s.ctx c.val with binderr := code }))

/-- ABANDON_COMPLETE: the abandonment of a fault in cc f is complete by cc f + 40 of a channel whose clock runs, the lane groups that
the context still held are free by then, and a RESTORE that waited takes effect (R261, R269, R273). Without a clock those cc do not pass
(R383). That the command passes time to cc f + 40, and that the groups are free from exactly that cc, is DESIGN CHOICE of log 4. -/
def Obligations.AbandonmentFreesTheLaneGroups : Prop :=
  ∀ (s : State) (c : CtxId) (f : Nat), Inside s → (s.ctx c.val).abandonAt = some f →
    let n := s.chanOf c.val
    let p := s.pass n (f + 40)
    ((s.ch n).st ≠ .off → (s.ch n).clkStop = true → exec (.abandonComplete c) s = .next s)
    ∧ ((s.ch n).st = .off ∨ (s.ch n).clkStop = false → (p.ctx c.val).runs = [] → p.chanOf c.val = n → (p.ctx c.val).chan = n →
      ∃ t, exec (.abandonComplete c) s = .next t
      ∧ ((s.ch n).ticking = true → f + 40 < 2 ^ 64 → f + 40 ≤ (t.ch n).cyc)
      ∧ (t.ch n).holders = (p.ch n).holders.map (fun g => if g.now = some c.val then ⟨none, some c.val, f + 40⟩ else g)
      ∧ (t.ctx c.val).abandonAt = none
      ∧ ((p.ctx c.val).restoreWait = false →
          t.ctx c.val = { p.ctx c.val with abandonAt := none } ∧ OnlyCtxCh c.val n p t)
      ∧ ((p.ctx c.val).restoreWait = true → (p.ctx c.val).st = .faulted → (p.ctx c.val).faultcode ≠ 0x0A → p.hosted c.val = true →
          (t.ctx c.val).st = .bound ∧ (t.ctx c.val).faultcode = 0 ∧ (t.ctx c.val).iflt = 0)
      ∧ OnlyCtxCh c.val n p { t with slices := p.slices })

/-- DRAIN_COMPLETE: a context draining under UNBIND with no run left, whose lines are all clean, with no transfer outstanding and no line
of a write-back, or draining under TEARDOWN with no issued transfer outstanding, enters FREE: CTXKEY, SMPCTR, CTXSTRM, BALANCE, ALGRANT
and REAMBASE are cleared, its flags and marks keep their values, and DRAINED is set for its tenant. Its resources are given back: its
channel holds no allocation record of it, its reams are UNSET, and none of its lines, credits and buffered beats is left there. While a
transfer is outstanding a TEARDOWN waits, and while a run is left an UNBIND does (R258, R261, R266, R316). -/
def Obligations.DrainEndsInFree : Prop :=
  ∀ (s : State) (c : CtxId), Inside s → (s.ctx c.val).st = .draining →
    let n := s.chanOf c.val
    let p := if (s.ctx c.val).drain = .teardown then s else s.pass n ((s.ch n).lastDue c.val)
    let q := p.abandoned c.val
    ((s.ch n).st = .off ∨ (s.ch n).clkStop = false → p.outstanding c.val = false →
      (s.ctx c.val).drain = .teardown
        ∨ (s.ctx c.val).runs = [] ∧ (∀ l ∈ (p.ch n).loft, l.owner = c.val → l.dirty = false ∧ l.fetching = false ∧ l.writing = false)
          ∧ (∀ m < 8, ∀ l ∈ (p.ch m).wb, l.owner ≠ c.val) →
      let k := q.chanOf c.val
      ∃ t, exec (.drainComplete c) s = .next t
        ∧ (t.ctx c.val).st = .free ∧ (t.ctx c.val).key = 0 ∧ (t.ctx c.val).smpctr = 0 ∧ (t.ctx c.val).strm = 0
        ∧ (t.ctx c.val).balance = 0 ∧ (t.ctx c.val).algrant = 0 ∧ (t.ctx c.val).reambase = 0
        ∧ (t.ctx c.val).flags = (q.ctx c.val).flags ∧ (t.ctx c.val).mark = (q.ctx c.val).mark
        ∧ (t.ctx c.val).ten = (q.ctx c.val).ten ∧ (t.ctx c.val).budget = (q.ctx c.val).budget
        ∧ (t.tenant (q.ctx c.val).ten).tevpend = (q.tenant (q.ctx c.val).ten).tevpend ||| 0x10
        ∧ (t.ch k).record c.val = none ∧ (t.ch k).alloc = (q.ch k).alloc.filter (fun a => a.ctx != c.val)
        ∧ (∀ a, (q.ch k).record c.val = some a → ∀ i, a.ream ≤ i → i < a.ream + a.reams → (t.ch k).ream i = ReamCell.reset)
        ∧ (∀ l ∈ (t.ch k).loft, l.owner ≠ c.val) ∧ (t.ch k).credit c.val = 0 ∧ (∀ b ∈ (t.ch k).couch, b.beat.ctx.val ≠ c.val)
        ∧ (∀ d, d ≠ c.val → t.ctx d = q.ctx d))
    ∧ (s.outstanding c.val = true → (s.ctx c.val).drain = .teardown → exec (.drainComplete c) s = .next s)
    ∧ ((s.ctx c.val).runs ≠ [] → (s.ctx c.val).drain ≠ .teardown → exec (.drainComplete c) s = .next s)

/-! ### The mailbox, the mill core and maintenance loads (R176, R260, R375 to R379) -/

/-- Mailbox posts and reports: MBPL stages; MBPH queues the command, or is BUSY with 64 entries in the mailbox or 16 of the tenant; a
read of MBRPT returns the oldest report and removes it, and an empty queue reads zero (R378). -/
def Obligations.MailboxPostsAndReports : Prop :=
  ∀ (s : State) (m : TenId) (d : BitVec 64), Commanded s →
    exec (.mbplWrite m d) s = .next (s.initDone.setTenant m.val { s.tenant m.val with mbl := d })
    ∧ (s.mailbox.length ≥ 64 ∨ (s.mailbox.filter fun e => e.ten == m.val).length ≥ 16 →
      exec (.mbphWrite m d) s = .next (s.initDone.setTenant m.val { s.tenant m.val with mbBusy := true }))
    ∧ (s.mailbox.length < 64 → (s.mailbox.filter fun e => e.ten == m.val).length < 16 →
      exec (.mbphWrite m d) s = .next
        { s.initDone.setTenant m.val { s.tenant m.val with mbBusy := false, mbTag := (d ++ (s.tenant m.val).mbl).extractLsb' 104 16 } with
          mailbox := s.mailbox ++ [⟨m.val, d ++ (s.tenant m.val).mbl, false⟩] })
    ∧ exec (.mbrptRead m) s = .next
        { s.initDone.setTenant m.val { s.tenant m.val with reports := (s.tenant m.val).reports.drop 1 } with
          ctlRdata := match (s.tenant m.val).reports with
            | [] => 0
            | r :: _ => BitVec.ofNat 64 (1 + r.result % 8 * 2 + r.detail % 256 * 2 ^ 8 + r.tag.toNat * 2 ^ 16) }

/-- A BIND of the mailbox writes TENANT of a FREE context from the identity of the poster, and then acts as the BIND of CTXCMD, with its
outcome reported (R260, R277).
A context command of the mailbox for a context of the poster acts as the CTXCMD command of the same code, and its outcome is
reported (R260, R378, R379), also while a Control access waits.
A mailbox command that names a context of another tenant is refused and changes no context (R260); the DETAIL of that report is a
free value (log 29). -/
def Obligations.MailboxCommandsActForTheirTenant : Prop :=
  (∀ (s : State) (e : MbEntry) (rest : List MbEntry) (c : CtxId), Reached s → mbCtx e.cmd = c.val → (s.ctx c.val).st = .free →
      MillTakes s 0x01 e rest → let p := (taken s rest).setCtx c.val { s.ctx c.val with ten := e.ten }
      exec .mbBind s = .next (reported (p.bind c.val).1 e) ∧ (s.ctlBusy = false → exec (.bind c) p = .next (p.bind c.val).1))
  ∧ (∀ (s : State) (e : MbEntry) (rest : List MbEntry) (c : CtxId), Reached s → mbCtx e.cmd = c.val → (s.ctx c.val).ten = e.ten →
      let p := taken s rest
      (MillTakes s 0x02 e rest → exec .mbUnbind s = .next (reported (p.unbind c.val).1 e)
        ∧ (s.ctlBusy = false → exec (.unbind c) p = .next (p.unbind c.val).1))
      ∧ (MillTakes s 0x03 e rest → exec .mbTeardown s = .next (reported (p.teardown c.val).1 e)
        ∧ (s.ctlBusy = false → exec (.teardown c) p = .next (p.teardown c.val).1))
      ∧ (MillTakes s 0x04 e rest → exec .mbRestore s = .next (reported (p.restore c.val).1 e)
        ∧ (s.ctlBusy = false → exec (.restore c) p = .next (p.restore c.val).1))
      ∧ (MillTakes s 0x05 e rest → let m : ChanId := Fin.ofNat 8 (mbChan e.cmd)
        exec .mbMigrate s = .next (reported (p.migrate c.val m.val).1 e)
        ∧ (s.ctlBusy = false → exec (.migrate c m) p = .next (p.migrate c.val m.val).1)))
  ∧ (∀ (s : State) (e : MbEntry) (rest : List MbEntry) (op : Nat) (k : Instr), Reached s → MillTakes s op e rest →
      (s.ctx (mbCtx e.cmd)).ten ≠ e.ten → (op = 0x01 → (s.ctx (mbCtx e.cmd)).st ≠ .free) →
      (op = 0x01 ∧ k = .mbBind ∨ op = 0x02 ∧ k = .mbUnbind ∨ op = 0x03 ∧ k = .mbTeardown ∨ op = 0x04 ∧ k = .mbRestore
        ∨ op = 0x05 ∧ k = .mbMigrate) →
      exec k s = .next (({ taken s rest with freeCtr := s.freeCtr + 1 }).pushReport e.ten 1
        ((Config.freeValue s.freeCtr).toNat % 256) (e.cmd.extractLsb' 104 16)))

/-- LOADPROG of a range that is free and inside the store: slot s takes a header of length 0, and the first line's read waits in slice 0
under the tenant's window (R176, R355, R356).
LOADPROG of a range that holds a locked slot or passes slot 4095 is refused and writes nothing (R176).
Each line that returns writes its words but the header to their slots, and the next line's read waits. The last one ends the load: with
the header's LEN equal to the count, the header goes to slot s with OWNER the tenant, and the load is reported done; with another LEN
slot s keeps what it had and the load is reported failed, as it is when a read fails (R176, R378). A header of more than 16 declarations
is refused (R202), when its line returns (log 73). -/
def Obligations.LoadprogStartsOrRefuses : Prop :=
  (∀ (s : State) (e : MbEntry) (rest : List MbEntry), Reached s → MillTakes s 0x10 e rest →
      2 ≤ mbCount e.cmd → mbCount e.cmd ≤ 64 → mbSlot e.cmd + mbCount e.cmd ≤ 4096 → mbWoff e.cmd % 64 = 0 →
      (∀ i < mbCount e.cmd, s.locked (mbSlot e.cmd + i) = false) → ∃ t l, exec .loadprog s = .next t
        ∧ t.mill.cur = some l ∧ l.ten = e.ten ∧ l.slot = mbSlot e.cmd ∧ l.count = mbCount e.cmd ∧ l.lines = 0 ∧ l.words = []
        ∧ (∀ k, t.masterWord k = if k = mbSlot e.cmd then BitVec.ofNat 128 (0xF0 * 2 ^ 120) else s.masterWord k)
        ∧ (t.slice 0).wait = (s.slice 0).wait ++
            [⟨.load, 0, 0, e.ten, mbWin e.cmd, mbWoff e.cmd, 64, false, l.ser, 0⟩]
        ∧ t.mailbox = rest ∧ t.ctxs = s.ctxs ∧ t.tenants = s.tenants)
  ∧ (∀ (s : State) (e : MbEntry) (rest : List MbEntry), Reached s → MillTakes s 0x10 e rest →
      2 ≤ mbCount e.cmd → mbCount e.cmd ≤ 64 →
      (mbSlot e.cmd + mbCount e.cmd > 4096 ∨ ∃ i < mbCount e.cmd, s.locked (mbSlot e.cmd + i) = true) →
      ∃ t d, exec .loadprog s = .next t ∧ t.master = s.master ∧ t.chans = s.chans ∧ t.ctxs = s.ctxs ∧ t.slices = s.slices
        ∧ t.mill.cur = none ∧ (t.tenant e.ten).reports = (s.tenant e.ten).reports ++ [⟨1, d, e.cmd.extractLsb' 104 16⟩])
  ∧ (∀ (s : State) (l : LoadSt) (o : FeltOut) (r : FeltResp), Reached s → s.mill.cur = some l →
      (s.slice 0).out.find? (fun p => p.tag == r.tag.val) = some o → o.acc.kind = .load → o.acc.data = l.ser → o.failed = false →
      l.words.length = 4 * l.lines → 4 * l.lines < l.count →
      let data := if r.wack then o.rdata else o.rdata + r.data.toNat * 2 ^ (256 * o.beats)
      let word (i : Nat) : IWord := BitVec.ofNat 128 (data >>> (128 * i))
      let header := if l.lines = 0 then word 0 else l.words.headD 0
      let written (k : Nat) : IWord :=
        if l.slot + 4 * l.lines ≤ k ∧ k < l.slot + min (4 * l.lines + 4) l.count ∧ k ≠ l.slot then word (k - l.slot - 4 * l.lines)
        else s.masterWord k
      (r.err = true → ∃ t d, exec (.feltResponse 0 r) s = .next t ∧ t.mill.cur = none ∧ t.master = s.master ∧ t.ctxs = s.ctxs
        ∧ (t.tenant l.ten).reports = (s.tenant l.ten).reports ++ [⟨2, d, l.tag⟩])
      ∧ (r.err = false → r.last = true →
        (l.lines = 0 → 16 < (word 0).toNat / 2 ^ 108 % 32 → ∃ t d, exec (.feltResponse 0 r) s = .next t ∧ t.mill.cur = none
          ∧ t.master = s.master ∧ t.ctxs = s.ctxs ∧ (t.tenant l.ten).reports = (s.tenant l.ten).reports ++ [⟨1, d, l.tag⟩])
        ∧ ((l.lines = 0 → (word 0).toNat / 2 ^ 108 % 32 ≤ 16) →
          (4 * l.lines + 4 < l.count → ∃ t, exec (.feltResponse 0 r) s = .next t ∧ (∀ k, t.masterWord k = written k)
            ∧ (∃ l', t.mill.cur = some l' ∧ l'.lines = l.lines + 1 ∧ l'.words.headD 0 = header ∧ l'.ser = l.ser ∧ l'.slot = l.slot
              ∧ l'.count = l.count ∧ l'.ten = l.ten)
            ∧ (t.slice 0).wait = (s.slice 0).wait ++
                [⟨.load, 0, l.lines + 1, l.ten, l.win, l.woff + 64 * (l.lines + 1), 64, false, l.ser, 0⟩]
            ∧ t.ctxs = s.ctxs ∧ t.tenants = s.tenants)
          ∧ (l.count ≤ 4 * l.lines + 4 → header.toNat / 2 ^ 113 % 128 = l.count → ∃ t d, exec (.feltResponse 0 r) s = .next t
            ∧ t.mill.cur = none ∧ (t.tenant l.ten).reports = (s.tenant l.ten).reports ++ [⟨0, d, l.tag⟩]
            ∧ (∀ k, k ≠ l.slot → t.masterWord k = written k)
            ∧ (t.masterWord l.slot).extractLsb' 104 4 = BitVec.ofNat 4 l.ten
            ∧ (t.masterWord l.slot).extractLsb' 108 20 = header.extractLsb' 108 20
            ∧ (t.masterWord l.slot).extractLsb' 0 104 = header.extractLsb' 0 104 ∧ t.ctxs = s.ctxs)
          ∧ (l.count ≤ 4 * l.lines + 4 → header.toNat / 2 ^ 113 % 128 ≠ l.count → ∃ t d, exec (.feltResponse 0 r) s = .next t
            ∧ t.mill.cur = none ∧ (t.tenant l.ten).reports = (s.tenant l.ten).reports ++ [⟨2, d, l.tag⟩]
            ∧ (∀ k, t.masterWord k = written k) ∧ t.ctxs = s.ctxs))))

/-- A mill core fault with no load in progress, and a watchdog expiry, raise MILL and restart the core; the mailbox keeps its entries
(R377, R380). A core that is halted stays halted (R394). That WATCHDOG_EXPIRY passes time to 2^16 uc after the last heartbeat is DESIGN
CHOICE of log 4.
A mill core fault reports the command being carried out with result 3 and ends it (R201, R377), and ends a microcode or table load
with ERRCODE 0x7 and IMGBAD set (R381); the DETAIL of that report, which Table 13-8 does not give, is whatever the model puts (log 29).
A restart ends: the core runs from its active bank, from the other bank when the active one has an uncorrectable error and the other
holds an image that passed its check, and otherwise halts and raises MHALT (R377). -/
def Obligations.MillFaultsAbortAndRestart : Prop :=
  (∀ s : State, Inside s → s.mill.cur = none → s.mnt = none →
      (s.mill.run = true ∨ s.mill.restarting = true → exec .millCoreFault s =
        .next { s with ifstat := s.ifstat ||| 0x10000, mill := { s.mill with run := false, restarting := true } })
      ∧ (s.mill.run = false → s.mill.restarting = false → exec .millCoreFault s = .next { s with ifstat := s.ifstat ||| 0x10000 })
      ∧ (s.mill.run = true → exec .watchdogExpiry s = .next { s with
          uc := max s.uc (s.mill.lastBeat + 65536), ifstat := s.ifstat ||| 0x10000, mill := { s.mill with run := false, restarting := true } }))
  ∧ (∀ s : State, Inside s → s.mill.run = true →
      (∀ l, s.mill.cur = some l → s.mnt = none → ∃ t d, exec .millCoreFault s = .next t ∧ t.mill.cur = none ∧ t.mill.run = false
        ∧ (t.tenant l.ten).reports = (s.tenant l.ten).reports ++ [⟨3, d, l.tag⟩] ∧ t.mailbox = s.mailbox ∧ t.master = s.master)
      ∧ (∀ m, s.mill.cur = none → s.mnt = some m → m.kind = 2 ∨ m.kind = 3 → ∃ t, exec .millCoreFault s = .next t ∧ t.mnt = none
        ∧ t.mntErr = true ∧ t.mntDone = false ∧ t.mntCode = 0x7 ∧ t.ifstat.getLsbD 16 = true ∧ t.ifstat.getLsbD 20 = true
        ∧ (m.kind = 2 → (t.ch m.ch).imgbadMc = true) ∧ (m.kind = 3 → (t.ch m.ch).imgbadTb = true)
        ∧ (t.ch m.ch).st = (s.ch m.ch).st))
  ∧ (∀ (s : State) (b : Bool), Inside s → s.mill.restarting = true →
      (b = false → s.mill.active ≠ none → exec (.millRestartDone b) s =
        .next { s with mill := { s.mill with restarting := false, lastBeat := s.uc, run := true } })
      ∧ (∀ crc, b = true → s.mill.inactive = some crc → exec (.millRestartDone b) s =
        .next { s with mill := { s.mill with restarting := false, lastBeat := s.uc, run := true, active := some crc, inactive := none } })
      ∧ (b = true → s.mill.inactive = none → exec (.millRestartDone b) s =
        .next { s with ifstat := s.ifstat ||| 0x20000, mill := { s.mill with restarting := false, lastBeat := s.uc, run := false } }))

/-- MNTCMD: ignored while a load is busy; the loads that the mill core makes are refused with ERRCODE 0x6 unless the channel is QUIESCING
with no context bound (R376), and with 0x7 while the core does not run, which is the model's reading of R375 (log 55); an accepted load
reads its header from MNTADDR through slice 0 with no window, and DONE, ERR and ERRCODE are cleared (R356, R375, R376). -/
def Obligations.MaintenanceLoadsStart : Prop :=
  ∀ (s : State) (n : ChanId) (k : Instr) (kind ch : Nat), Commanded s →
    (k = .millFirmwareLoad ∧ kind = 1 ∧ ch = 0 ∨ k = .microcodeLoad n ∧ kind = 2 ∧ ch = n.val
      ∨ k = .functionTableLoad n ∧ kind = 3 ∧ ch = n.val) →
    (s.mnt ≠ none → exec k s = .next s.initDone)
    ∧ (s.mnt = none →
      kind = 1 ∨ s.mill.run = true ∧ (s.ch n.val).st = .quiescing ∧ (s.ch n.val).alloc = [] → ∃ t, exec k s = .next t
        ∧ t.mnt = some ⟨s.seq, kind, ch, 64 * s.mntAddr.toNat, none, 0, 0xFFFFFFFF#32, none⟩
        ∧ t.mntDone = false ∧ t.mntErr = false ∧ t.mntCode = 0
        ∧ (t.slice 0).wait = (s.slice 0).wait ++ [⟨.maint, 0x3FF, 0, 0, 0, 64 * s.mntAddr.toNat, 64, false, s.seq, 0⟩]
        ∧ t.chans = s.chans ∧ t.ctxs = s.ctxs ∧ t.mill = s.mill ∧ t.master = s.master)
    ∧ (s.mnt = none → kind ≠ 1 → s.mill.run = false ∨ (s.ch n.val).st ≠ .quiescing ∨ (s.ch n.val).alloc ≠ [] →
      exec k s = .next { s.initDone with
        seq := s.seq + 1, mntDone := false, mntErr := true, mntCode := if s.mill.run then 0x6 else 0x7, ifstat := s.ifstat ||| 0x100000 })

/-- A header that returns is checked: another magic number or kind is ERRCODE 0x1, another version 0x2, a payload that is no multiple of
64 bytes or longer than its kind permits 0x4; the failure of a read is 0x5. With such an error MAINTENANCE_LOAD_DONE ends the load under
its code and raises LOADERR (R375, R376, Table 13-7).
MAINTENANCE_LOAD_DONE once every line is read: a load whose CRC agrees, as read and as read back, is in force (the banks swap and the
core restarts, or IMGBAD clears and CHIMG takes the CRC); one that does not agree ends with ERRCODE 0x3 and raises LOADERR (R375 to
R377, R389, R410). While the clock of its channel has stopped a load for it does not end (R383). -/
def Obligations.MaintenanceLoadsEndByTheirCrc : Prop :=
  (∀ (s : State) (m : MntLoad) (h : Nat) (b : Bool), Inside s → s.mnt = some m → m.err = none → m.header = some h →
    64 * m.lines = hdrLen h →
    (m.kind ≠ 1 → (s.ch m.ch).frozen = true → exec (.maintenanceLoadDone b) s = .next s)
    ∧ (m.kind = 1 ∨ (s.ch m.ch).frozen = false → crcEnd m.crc = hdrCrc h → b = true →
      (m.kind = 2 → exec (.maintenanceLoadDone b) s = .next ({ s with mnt := none, mntDone := true }.setCh m.ch
        { s.ch m.ch with imgbadMc := false, mcCrc := hdrCrc h }))
      ∧ (m.kind = 3 → exec (.maintenanceLoadDone b) s = .next ({ s with mnt := none, mntDone := true }.setCh m.ch
        { s.ch m.ch with imgbadTb := false, tbCrc := hdrCrc h }))
      ∧ (m.kind = 1 → ∃ t, exec (.maintenanceLoadDone b) s = .next t ∧ t.mnt = none ∧ t.mntDone = true
        ∧ t.mill.active = some (hdrCrc h) ∧ t.mill.inactive = s.mill.active ∧ t.mill.restarting = true ∧ t.mill.run = false
        ∧ t.ifstat.getLsbD 16 = true ∧ t.chans = s.chans))
    ∧ (m.kind = 1 ∨ (s.ch m.ch).frozen = false → crcEnd m.crc ≠ hdrCrc h ∨ b = false →
      ∃ t, exec (.maintenanceLoadDone b) s = .next t ∧ t.mnt = none ∧ t.mntErr = true
      ∧ t.mntDone = false ∧ t.mntCode = 0x3 ∧ t.ifstat.getLsbD 20 = true ∧ t.mill.active = s.mill.active ∧ t.mill.run = s.mill.run))
  ∧ (∀ (s : State) (m : MntLoad) (e : Nat) (b : Bool), Inside s → s.mnt = some m → m.err = some e →
    ∃ t, exec (.maintenanceLoadDone b) s = .next t ∧ t.mnt = none ∧ t.mntErr = true ∧ t.mntDone = false ∧ t.mntCode = e
      ∧ t.ifstat.getLsbD 20 = true ∧ t.mill = s.mill)
  ∧ (∀ (s : State) (m : MntLoad) (o : FeltOut) (r : FeltResp), Reached s → s.mnt = some m → m.err = none →
    (s.slice 0).out.find? (fun p => p.tag == r.tag.val) = some o → o.acc.kind = .maint → o.acc.data = m.ser → o.failed = false →
    let h := if r.wack then o.rdata else o.rdata + r.data.toNat * 2 ^ (256 * o.beats)
    let bytes (a n : Nat) : Nat := h / 2 ^ (8 * a) % 2 ^ (8 * n)
    (r.err = true → ∃ t, exec (.feltResponse 0 r) s = .next t ∧ t.mnt = some { m with err := some 0x5 } ∧ t.mill = s.mill)
    ∧ (r.err = false → r.last = true → m.header = none → ∃ t, exec (.feltResponse 0 r) s = .next t ∧ t.mill = s.mill ∧ t.chans = s.chans
      ∧ (bytes 0 4 ≠ 0x4A524D49 ∨ bytes 4 1 ≠ m.kind → t.mnt = some { m with err := some 0x1 })
      ∧ (bytes 0 4 = 0x4A524D49 → bytes 4 1 = m.kind →
        (bytes 8 8 ≠ 0x00030002 → t.mnt = some { m with err := some 0x2 })
        ∧ (bytes 8 8 = 0x00030002 →
          let most := if m.kind = 1 then 262144 else if m.kind = 2 then 131072 else 524288
          (bytes 16 4 % 64 ≠ 0 ∨ most < bytes 16 4 → t.mnt = some { m with err := some 0x4 })
          ∧ (bytes 16 4 % 64 = 0 → bytes 16 4 ≤ most → t.mnt = some { m with header := some h })))))

/-! ### Headbox and the words it carries (R265, R284 to R288, R303 to R305) -/

/-- HEADBOX_WORD: a receiver accepts a word for any context while it holds fewer than 64, behind those that it holds, one in a uc, and
withholds acceptance at 64 (R313, R353). That the command passes time to the uc in which the receiver may accept is log 4. -/
def Obligations.HeadboxAcceptsUpTo64Words : Prop :=
  ∀ (s : State) (rx : ChanId) (c : CtxId) (m : TenId) (w : BitVec 128), Reached s →
    ((s.rxq rx.val).length < 64 → exec (.headboxWord rx c m w) s =
      .next { s.setRxq rx.val (s.rxq rx.val ++ [⟨w, c.val, m.val, s.seq⟩]) with
        seq := s.seq + 1, uc := max s.uc (Tbl.look 0 s.rxAt rx.val), rxAt := Tbl.put 0 s.rxAt rx.val (max s.uc (Tbl.look 0 s.rxAt rx.val) + 1) })
    ∧ ((s.rxq rx.val).length = 64 → exec (.headboxWord rx c m w) s = .next s)

/-- HEADBOX_DELIVER: the first word of the receiver that may be delivered leaves it. A refused word counts for the tenant whose tag it
carries, but for a DISCARD that meets its context's fault, which has no effect (R331). Any other is taken by the context's channel in the
first cc in which it takes a word (R313): a RUN is queued in its context behind the runs delivered earlier, and a NOP does nothing
(R265, R284). The passing of time is log 4. -/
def Obligations.HeadboxDeliversTheFirstWordItMay : Prop :=
  ∀ (s : State) (rx : ChanId) (pre post : List HbWord) (v : HbWord), Inside s → s.rxq rx.val = pre ++ v :: post →
    (∀ u ∈ pre, s.mayDeliver u = false) → s.mayDeliver v = true →
    let left := s.setRxq rx.val ((s.rxq rx.val).filter fun u => u.ser != v.ser)
    let p := left.takeWord (s.ctx v.ctx).chan
    (Refused s v.ctx v.ten →
      (s.meetsFault v.ctx v.ten v.word = true → exec (.headboxDeliver rx) s = .next left)
      ∧ (s.meetsFault v.ctx v.ten v.word = false → ∃ t, exec (.headboxDeliver rx) s = .next t
      ∧ t.rxq rx.val = (s.rxq rx.val).filter (fun u => u.ser != v.ser)
      ∧ (t.tenant v.ten).trefcnt = min ((s.tenant v.ten).trefcnt + 1) 0xFFFFFFFF
      ∧ (t.tenant v.ten).tevpend = (s.tenant v.ten).tevpend ||| 0x8
      ∧ (∀ k, k ≠ v.ten → t.tenant k = s.tenant k) ∧ (∀ k, k ≠ rx.val → t.rxq k = s.rxq k)
      ∧ { t with rx := s.rx, tenants := s.tenants } = s))
    ∧ (¬ Refused s v.ctx v.ten → ¬ Refused p v.ctx v.ten → v.word = 0 → exec (.headboxDeliver rx) s = .next p)
    ∧ (∀ w : RunFields, ¬ Refused s v.ctx v.ten → ¬ Refused p v.ctx v.ten → v.word = runWord w → ∃ r, exec (.headboxDeliver rx) s =
        .next (p.setCtx v.ctx { p.ctx v.ctx with runs := (p.ctx v.ctx).runs ++ [r] })
        ∧ r.ser = v.ser ∧ r.phase = .waiting ∧ r.w = RunW.ofWord (runWord w) ∧ r.slot = (p.ctx v.ctx).start w.psel)

/-- A word that R265 refuses, whichever of the eight, has no effect on any context: TREFCNT and REFUSE of the tenant whose tag it
carries, and nothing else. A DISCARD that meets its context's fault in the cc of the fault has no effect at all (R331). -/
def Obligations.RefusedWordsOnlyCount : Prop :=
  ∀ (s : State) (k : Instr) (c : CtxId) (m : TenId), Reached s → directOf k = some (c, m) → Refused s c.val m.val →
    (∀ n < 8, ∀ v ∈ s.rxq n, v.ctx = c.val → s.seq ≤ v.ser) →
    let meets := (∃ q, k = .discard c m q) ∧ (s.ctx c.val).ten = m.val ∧ (s.ctx c.val).st = .faulted
      ∧ (s.ctx c.val).abandonAt = some (s.ch (s.chanOf c.val)).cyc
    (meets → exec k s = .next { s with seq := s.seq + 1 })
    ∧ (¬ meets → ∃ t, exec k s = .next t
      ∧ (t.tenant m.val).trefcnt = min ((s.tenant m.val).trefcnt + 1) 0xFFFFFFFF
      ∧ (t.tenant m.val).tevpend = (s.tenant m.val).tevpend ||| 0x8
      ∧ (∀ j, j ≠ m.val → t.tenant j = s.tenant j) ∧ { t with tenants := s.tenants, seq := s.seq } = s)

/-- The fields of the eight direct words stand where their tables put them, and no word that a command spells is an illegal encoding but
for a field value that its table excludes (R278, R280, R285, R304, R305; Tables 10-3, 10-14, 10-14a, 10-15): a KIND above 4 for RCLR; for
RCLOSE an OFMT that its SEL or STATS does not permit, an odd RN, even RCNT or SEL with STATS 1, DDOF without STATS, DSLOT without DEST,
ROUTE with DEST, and ROUTE with SEL 3. -/
def Obligations.DirectWordsCarryTheirFields : Prop :=
  (opOf nopWord = some .nop ∧ directCheck nopWord = none)
  ∧ (∀ w : RunFields, opOf (runWord w) = some .run ∧ directCheck (runWord w) = none
    ∧ RunW.ofWord (runWord w) = ⟨w.psel, w.evt, w.rrst, w.pseq.toNat, w.cbase.toNat, w.rbias.toNat, w.sbias.toNat, w.pass2⟩)
  ∧ (∀ p : BitVec 16, opOf (discardWord p) = some .discard ∧ directCheck (discardWord p) = none
    ∧ IWord.fld (discardWord p) 116 101 = p.toNat)
  ∧ (∀ (rn rcnt : BitVec 8) (k : BitVec 3), opOf (rclrWord rn rcnt k) = some .rclr
    ∧ directCheck (rclrWord rn rcnt k) = (if k.toNat ≤ 4 then none else some 101)
    ∧ (ReamW.ofWord (rclrWord rn rcnt k)).rn = rn.toNat ∧ (ReamW.ofWord (rclrWord rn rcnt k)).rcnt = rcnt.toNat
    ∧ (ReamW.ofWord (rclrWord rn rcnt k)).kind = k.toNat)
  ∧ (∀ rn rcnt : BitVec 8, opOf (rexpWord rn rcnt) = some .rexp ∧ directCheck (rexpWord rn rcnt) = none
    ∧ (ReamW.ofWord (rexpWord rn rcnt)).rn = rn.toNat ∧ (ReamW.ofWord (rexpWord rn rcnt)).rcnt = rcnt.toNat)
  ∧ (∀ w : RcloseFields, opOf (rcloseWord w) = some .rclose
    ∧ (directCheck (rcloseWord w) = none ↔
        (w.ofmt.toNat ≤ 4 ∨ w.ofmt.toNat = 10) ∧ (w.dest = true → w.route = false) ∧ (w.dest = false → w.dslot = 0)
        ∧ (w.stats = false → w.ddof = 0)
        ∧ (w.stats = true → w.rn.toNat % 2 = 0 ∧ w.rcnt.toNat % 2 = 1 ∧ w.ofmt.toNat ≤ 4 ∧ w.sel = 0)
        ∧ (w.stats = false → w.sel = 0 → w.ofmt.toNat ≤ 4)
        ∧ (w.stats = false → w.sel = 1 ∨ w.sel = 2 → w.ofmt.toNat = 0)
        ∧ (w.stats = false → w.sel = 3 → w.ofmt.toNat = 10 ∧ w.route = false))
    ∧ ReamW.ofWord (rcloseWord w) = ⟨w.rn.toNat, w.rcnt.toNat, 0, w.ofmt.toNat, w.route, w.ddof.toNat, w.stats, w.dest,
        w.dslot.toNat, w.sel.toNat⟩)
  ∧ (∀ i n : BitVec 32, opOf (loftWord 0xA0 i n) = some .lrel ∧ opOf (loftWord 0xA1 i n) = some .lflush
    ∧ directCheck (loftWord 0xA0 i n) = none ∧ directCheck (loftWord 0xA1 i n) = none
    ∧ LoftW.ofWord (loftWord 0xA0 i n) = ⟨i.toNat, n.toNat⟩ ∧ LoftW.ofWord (loftWord 0xA1 i n) = ⟨i.toNat, n.toNat⟩)

/-- NOP passes the checks of R265 and then has no effect; RUN queues a run with the word's fields, the generator key and stream in force
and the start slot that its program has now, behind the runs delivered earlier (R178, R180, R252, R285, R286). Both are taken by the
channel in the first cc in which it takes a word (R313), which is the present one where it has taken none in it and nothing falls due. -/
def Obligations.NopDoesNothingAndRunIsQueued : Prop :=
  ∀ (s : State) (c : CtxId) (m : TenId) (w : RunFields), Reached s → Deliverable s c.val m.val →
    let p := wordPoint s c.val
    let n := (s.ctx c.val).chan
    ((s.ch n).wordAt ≤ (s.ch n).cyc → NothingDue (s.ch n) (s.ch n).cyc →
      p = { s with seq := s.seq + 1 }.setCh n { s.ch n with wordAt := (s.ch n).cyc + 1 })
    ∧ (¬ Refused p c.val m.val → exec (.nop c m) s = .next p
    ∧ ∃ r, exec (.run c m w) s =
        .next (p.setCtx c.val { p.ctx c.val with runs := (p.ctx c.val).runs ++ [r] })
      ∧ r.ser = s.seq ∧ r.phase = .waiting ∧ r.holds = false ∧ r.beats = 0 ∧ r.takes = [] ∧ r.fills = []
      ∧ r.w = ⟨w.psel, w.evt, w.rrst, w.pseq.toNat, w.cbase.toNat, w.rbias.toNat, w.sbias.toNat, w.pass2⟩
      ∧ r.slot = (if w.psel then (if (p.ctx c.val).progbv then some (p.ctx c.val).progb else none)
          else if (p.ctx c.val).progav then some (p.ctx c.val).proga else none)
      ∧ r.key = (p.ctx c.val).key ∧ r.strm = (p.ctx c.val).strm ∧ r.arrived = (p.ch (p.ctx c.val).chan).cyc)

/-- DISCARD selects the earliest-delivered run, open or waiting, whose PSEQ equals its own and whose tile-end marker has not passed its
check; the run and its result beats are removed and every committed part stays; the shadows of an open run are released without a commit
in cc d + 1 (R91, R288, R306, R331). When no earlier run has started, the context's buffered beats before its next tile-start beat are
dropped with an open run, and where none is buffered those that arrive before it will be (R328). One that selects no run has no effect. No
RUNEV is raised. The word is taken in the first cc in which the channel takes one (R313). -/
def Obligations.DiscardRemovesTheSelectedRun : Prop :=
  ∀ (s : State) (c : CtxId) (m : TenId) (k : BitVec 16), Reached s → Deliverable s c.val m.val →
    let p := wordPoint s c.val
    let n := (p.ctx c.val).chan
    let x := p.ctx c.val
    let d := (p.ch n).cyc
    Inv p → ¬ Refused p c.val m.val → x.directs = [] → x.newSlots = [] →
    (∀ q ∈ x.runs, q.phase = .committed → q.after = []) → (∀ q ∈ x.runs, q.phase = .started → q.base ≠ none) →
    p.chanOf c.val = n →
    ((∀ q ∈ x.runs, q.w.pseq ≠ k.toNat ∨ q.phase = .ended ∨ q.phase = .committed) → exec (.discard c m k) s = .next p)
    ∧ (∀ pre r post, x.runs = pre ++ r :: post →
      (∀ q ∈ pre, q.w.pseq ≠ k.toNat ∨ q.phase = .ended ∨ q.phase = .committed) → r.w.pseq = k.toNat →
      r.phase = .waiting ∨ r.phase = .started ∨ r.phase = .checking → ∃ t, exec (.discard c m k) s = .next t
        ∧ (t.ctx c.val).runs = x.runs.filter (fun q => q.ser != r.ser)
        ∧ (∀ b ∈ (t.ctx c.val).held, b.run ≠ r.ser)
        ∧ (∀ i, (t.ch n).ream i = (p.ch n).ream i)
        ∧ (∀ b ∈ (t.ch n).egress, b.run ≠ some r.ser)
        ∧ (∀ e ∈ (t.ch n).due, e.run ≠ some r.ser)
        ∧ t.tenants = p.tenants ∧ OnlyCtxCh c.val n p t
        ∧ (r.phase = .waiting ∨ (∃ q ∈ x.runs, q.ser < r.ser ∧ q.phase = .started) →
            (t.ch n).couch = (p.ch n).couch ∧ (t.ctx c.val).dropSot = x.dropSot)
        ∧ (r.phase ≠ .waiting → (∀ q ∈ x.runs, q.ser < r.ser → q.phase ≠ .started) →
            ((∀ b ∈ (p.ch n).couch, b.beat.ctx = c → b.beat.sot = false) →
              (t.ch n).couch = (p.ch n).couch.filter (fun b => b.beat.ctx != c) ∧ (t.ctx c.val).dropSot = true)
            ∧ (∀ bs b cs, (p.ch n).couch = bs ++ b :: cs → b.beat.ctx = c → b.beat.sot = true →
              (∀ a ∈ bs, a.beat.ctx = c → a.beat.sot = false) →
              (t.ch n).couch = bs.filter (fun b => b.beat.ctx != c) ++ b :: cs ∧ (t.ctx c.val).dropSot = false))
        ∧ ((r.phase = .waiting → (t.ch n).due = (p.ch n).due.filter (fun e => e.run != some r.ser))
          ∧ (r.phase ≠ .waiting → ⟨d + 1, c.val, none, .drop r.ser⟩ ∈ (t.ch n).due))
        ∧ (r.phase ≠ .waiting → (p.ch n).ticking = true → d + 1 < 2 ^ 64 → NothingDue (p.ch n) (d + 1) →
          ∀ i, ((t.pass n (d + 1)).ch n).ream i =
            match ((p.ch n).ream i).sh with
            | some q => if q.run = r.ser then ⟨((p.ch n).ream i).com, none⟩ else (p.ch n).ream i
            | none => (p.ch n).ream i))

/-- RCLR of a bound context with no run or word left acts at once: every ream in [RN, RN + RCNT] is cleared to the kind, no other ream
changes (R80, R285, R304). A ream outside the block is an illegal operand, and so is, wherever the word stands, one whose shadow an open
run of the context holds: the context faults with code 0x02 (R81, R304). From which cc a shadow is held is log 47.
What a clear leaves in a ream (R80, R97): W, TALLY and every status bit zero and KIND as named, OFFSET −8,388,607 for EXP and zero for
every other kind; MAX and MIN hold the empty record. -/
def Obligations.RclrClearsItsReams : Prop :=
  (∀ (s : State) (c : CtxId) (m : TenId) (rn rcnt : BitVec 8) (kind : BitVec 3) (k : RKind), ActsAtOnce s c.val m.val →
      RKind.ofCode kind.toNat = some k →
      let p := wordPoint s c.val
      let x := p.ctx c.val
      (rn.toNat + rcnt.toNat + 1 ≤ 4 * x.reamreq →
        ∃ t, exec (.rclr c m rn rcnt kind) s = .next t
          ∧ (∀ i, (t.ch x.chan).ream i = if x.reambase + rn.toNat ≤ i ∧ i ≤ x.reambase + rn.toNat + rcnt.toNat
              then ⟨RPart.clear k, none⟩ else (p.ch x.chan).ream i)
          ∧ { t.ch x.chan with reams := (p.ch x.chan).reams } = p.ch x.chan
          ∧ t.ctx c.val = x ∧ OnlyCtxCh c.val x.chan p t)
      ∧ (4 * x.reamreq < rn.toNat + rcnt.toNat + 1 →
        ∃ t, exec (.rclr c m rn rcnt kind) s = .next t ∧ OperandFault c.val 0x90 112 p t))
  ∧ (∀ (s : State) (c : CtxId) (place : Site) (rn rcnt : BitVec 8) (kind : BitVec 3) (i : Nat) (q : Shadow) (r : Run),
      let x := s.ctx c.val
      x.st = .bound ∨ x.st = .running → kind.toNat ≤ 4 → rn.toNat + rcnt.toNat + 1 ≤ 4 * x.reamreq → i ≤ rcnt.toNat →
      ((s.ch x.chan).ream (x.reambase + rn.toNat + i)).sh = some q → r ∈ x.runs → r.ser = q.run →
      FaultTaken c.val 0x02 (ifltWord true place.src place.index 0x90 112) s (s.act c.val place (rclrWord rn rcnt kind)))
  ∧ (∀ k : RKind, let p := RPart.clear k
      p.kind = k ∧ p.tally = 0 ∧ p.nan = false ∧ p.pinf = false ∧ p.ninf = false ∧ p.csat = false ∧ p.trim = false
        ∧ p.offset = (if k = .exp then -8388607 else 0)
        ∧ (k = .unset ∨ k = .sum ∨ k = .exp → p.w = 0)
        ∧ (k = .max ∨ k = .min → p.recPos = 0xFFFFFFFF))

/-- REXP of a bound context with no run or word left emits the committed part of each ream as one record, 23 to a beat, in ascending ream
order: the beats' record counts sum to RCNT + 1, and the slots of a beat hold the descriptor and the ten limbs of each of its reams in
order (R101, R351). The beats take Reel cycles that nothing has taken, from cc a + 4 on, in a stream of its own with PSEQ 0, and the
reams stay as they are (R285, R304, R306, R320, R350). A ream outside the block, or one that is UNSET, is an illegal operand (R81,
R101). -/
def Obligations.RexpEmitsOneRecordPerReam : Prop :=
  ∀ (s : State) (c : CtxId) (m : TenId) (rn rcnt : BitVec 8), ActsAtOnce s c.val m.val →
    let p := wordPoint s c.val
    let x := p.ctx c.val
    let a (i : Nat) : RPart := ((p.ch x.chan).ream (x.reambase + rn.toNat + i)).com
    (rn.toNat + rcnt.toNat + 1 ≤ 4 * x.reamreq → (∀ i ≤ rcnt.toNat, (a i).kind ≠ .unset) →
      ∃ t, exec (.rexp c m rn rcnt) s = .next t
      ∧ (t.ch x.chan).egress.filter (fun b => (p.ch x.chan).egress.contains b) = (p.ch x.chan).egress
      ∧ (let new := newBeats (p.ch x.chan).egress (t.ch x.chan).egress
         new.length = (rcnt.toNat + 23) / 23 ∧ (new.map fun b => b.nrec).sum = rcnt.toNat + 1
        ∧ ∀ j b, new[j]? = some b →
          b.kind = 2 ∧ b.fmt = 0xB ∧ b.route = false ∧ b.ctx = c.val ∧ b.ten = x.ten ∧ b.run = none ∧ b.pseq = 0
          ∧ b.nrec = min 23 (rcnt.toNat + 1 - 23 * j) ∧ b.we = List.range (44 * b.nrec)
          ∧ (b.sot = true ↔ j = 0) ∧ (b.eot = true ↔ j + 1 = new.length)
          ∧ (p.ch x.chan).cyc + 4 ≤ b.due ∧ (∀ q ∈ (p.ch x.chan).egress, q.due ≠ b.due)
          ∧ ∀ i < b.nrec, ∀ k < 44, slotOf b (44 * i + k) = recordPiece (a (23 * j + i)) k)
      ∧ { t.ch x.chan with egress := (p.ch x.chan).egress } = p.ch x.chan
      ∧ t.ctx c.val = x ∧ OnlyCtxCh c.val x.chan p t)
    ∧ (4 * x.reamreq < rn.toNat + rcnt.toNat + 1 ∨ (∃ i ≤ rcnt.toNat, (a i).kind = .unset) →
      ∃ t, exec (.rexp c m rn rcnt) s = .next t ∧ OperandFault c.val 0x91 112 p t)

/-- RCLOSE of a bound context with no run or word left makes the entries of R304 from the committed parts: with STATS 0 one entry for
each ream under SEL 0 (the rounded sum, the sum of exponentials or the winning value), 2 and 3, and two under SEL 1; with STATS 1 mean and
variance of each pair (R103, R104, R145, Table 10-14a). Their flags are raised in cc a + 14 (R304), and the reams stay.
With DEST 0 the entries leave as close results from cc a + 16, one beat, or two halves for a 32-bit format (R347, R351). With DEST 1 they
fill a one-row persistent slot of that format that is long enough, whose copy is FULL in cc a + 15 (Table 10-16), and no beat is presented;
a slot that is not that, and a ream outside the block or of a kind that is not accepted, is an illegal operand (R304). While a shadow of a
ream that it names stands the word waits for it, and nothing else changes (03, Closing a row; log 94). -/
def Obligations.RcloseEmitsOrFillsItsSlot : Prop :=
  ∀ (s : State) (c : CtxId) (m : TenId) (w : RcloseFields), ActsAtOnce s c.val m.val → directCheck (rcloseWord w) = none →
    let p := wordPoint s c.val
    let x := p.ctx c.val
    let cyc := (p.ch x.chan).cyc
    let a (i : Nat) : RPart := ((p.ch x.chan).ream (x.reambase + w.rn.toNat + i)).com
    let es := closeEntries w a
    let fl := es.foldl (fun f e => f ||| e.2) 0
    let wait := p.closeWaits c.val s.seq (rcloseWord w)
    let slotFits := ∃ sl ∈ x.slots, sl.decl.slot = w.dslot.toNat ∧ sl.decl.role = 2 ∧ sl.decl.rows = 1 ∧ sl.decl.fmt = w.ofmt.toNat
      ∧ es.length ≤ sl.decl.cols
    (wait = true → ∃ t, exec (.rclose c m w) s = .next t ∧ t.ctx c.val = { x with directs := [⟨s.seq, rcloseWord w⟩] }
      ∧ t.ch x.chan = p.ch x.chan ∧ OnlyCtxCh c.val x.chan p t)
    ∧ (w.rn.toNat + w.rcnt.toNat + 1 ≤ 4 * x.reamreq →
      (∃ i ≤ w.rcnt.toNat, ((p.ch x.chan).ream (x.reambase + w.rn.toNat + i)).sh ≠ none) → wait = true)
    ∧ ((∀ i ≤ w.rcnt.toNat, (p.ch x.chan).shadowed (x.reambase + w.rn.toNat + i) = false) →
      (∀ sl ∈ x.slots, ∀ k ∈ sl.copies, k.st ≠ .filling) → wait = false)
    ∧ (wait = false → w.rn.toNat + w.rcnt.toNat + 1 ≤ 4 * x.reamreq → (∀ i ≤ w.rcnt.toNat, closeTakes w (a i).kind) →
      (w.dest = false → ∃ t, exec (.rclose c m w) s = .next t
        ∧ (t.ch x.chan).egress.filter (fun b => (p.ch x.chan).egress.contains b) = (p.ch x.chan).egress
        ∧ (let new := newBeats (p.ch x.chan).egress (t.ch x.chan).egress
           new.length = (if codeWidth w.ofmt.toNat = 32 then 2 else 1)
          ∧ ∀ j b, new[j]? = some b →
            b.kind = 3 ∧ b.fmt = w.ofmt.toNat ∧ b.route = w.route ∧ b.ctx = c.val ∧ b.ten = x.ten ∧ b.run = none ∧ b.pseq = 0
            ∧ b.half = j ∧ b.we = List.range es.length ∧ (b.sot = true ↔ j = 0) ∧ (b.eot = true ↔ j + 1 = new.length)
            ∧ cyc + 16 ≤ b.due ∧ (∀ q ∈ (p.ch x.chan).egress, q.due ≠ b.due)
            ∧ ∀ i e, es[i]? = some e → slotOf b i =
                if codeWidth w.ofmt.toNat = 32 then e.1 / 2 ^ (16 * j) % 65536 else e.1)
        ∧ t.ctx c.val = x ∧ { t.ch x.chan with egress := (p.ch x.chan).egress, due := (p.ch x.chan).due } = p.ch x.chan
        ∧ OnlyCtxCh c.val x.chan p t
        ∧ ((p.ch x.chan).ticking = true → cyc + 14 < 2 ^ 64 → NothingDue (p.ch x.chan) (cyc + 14) →
            ((t.pass x.chan (cyc + 13)).ctx c.val).flags = x.flags
            ∧ ((t.pass x.chan (cyc + 14)).ctx c.val).flags = x.flags ||| fl))
      ∧ (w.dest = true → slotFits → ∃ t, exec (.rclose c m w) s = .next t
        ∧ (∀ sl ∈ (t.ctx c.val).slots, sl.decl.slot = w.dslot.toNat → ∀ k ∈ sl.copies, k.st = .filling)
        ∧ (t.ch x.chan).egress = (p.ch x.chan).egress ∧ (∀ i, (t.ch x.chan).ream i = (p.ch x.chan).ream i)
        ∧ { t.ctx c.val with slots := x.slots } = x ∧ OnlyCtxCh c.val x.chan p t
        ∧ ((p.ch x.chan).ticking = true → cyc + 15 < 2 ^ 64 → NothingDue (p.ch x.chan) (cyc + 15) →
            let u := t.pass x.chan (cyc + 15)
            (u.ctx c.val).flags = x.flags ||| fl
            ∧ ∀ sl ∈ (u.ctx c.val).slots, sl.decl.slot = w.dslot.toNat → ∀ k ∈ sl.copies, k.st = .full
              ∧ ∀ i e, es[i]? = some e → Tbl.look (0, 0) k.data i = (e.1, 0)))
      ∧ (w.dest = true → ¬ slotFits → ∃ t, exec (.rclose c m w) s = .next t ∧ OperandFault c.val 0x92 89 p t))
    ∧ (wait = false → 4 * x.reamreq < w.rn.toNat + w.rcnt.toNat + 1 ∨ (∃ i ≤ w.rcnt.toNat, ¬ closeTakes w (a i).kind) →
      ∃ t, exec (.rclose c m w) s = .next t ∧ OperandFault c.val 0x92 112 p t)

/-- LREL of a bound context with no run or word left releases the records of its range in cc a + 1: each line of the context gains the
release bits of exactly the records of the range, which it then holds no longer, so that it is dirty only if a record is left in it; a line
whose four records are then all released is freed unless its fetch is under way, and no other context's line changes. A range that leaves
the extent is an illegal operand (R218, R221, R305, R306, Table 7-5). That a released record is held no longer is log 96.
LFLUSH of a bound context with no run or word left asks in cc a + 1 for a home write of each dirty resident line of the context that holds
a record of its range and for which none waits, and changes no record and no line of another context (R305, R306; the pace is log 82). -/
def Obligations.LoftWordsReleaseAndFlush : Prop :=
  (∀ (s : State) (c : CtxId) (m : TenId) (i n : BitVec 32), ActsAtOnce s c.val m.val →
      let p := wordPoint s c.val
      let x := p.ctx c.val
      let h := p.ch x.chan
      (∀ k opcode, k = .lrel c m i n ∧ opcode = 0xA0 ∨ k = .lflush c m i n ∧ opcode = 0xA1 →
        4 * x.extent < i.toNat + n.toNat + 1 → ∃ t, exec k s = .next t ∧ OperandFault c.val opcode 88 p t)
      ∧ (i.toNat + n.toNat + 1 ≤ 4 * x.extent →
        (∃ t, exec (.lrel c m i n) s = .next t
          ∧ { t.ch x.chan with due := h.due } = h ∧ t.ctx c.val = x ∧ OnlyCtxCh c.val x.chan p t
          ∧ (h.ticking = true → h.cyc + 1 < 2 ^ 64 → NothingDue h (h.cyc + 1) →
            let bit (l : LoftLine) (j : Nat) : Bool := decide (i.toNat ≤ 4 * l.line + j ∧ 4 * l.line + j ≤ i.toNat + n.toNat)
            let gone (l : LoftLine) : Prop := l.owner = c.val ∧ l.stash = false ∧ l.fetching = false ∧ l.released < 16
              ∧ ∀ j < 4, l.released.testBit j = true ∨ bit l j = true
            let ls := ((t.pass x.chan (h.cyc + 1)).ch x.chan).loft
            (∀ l ∈ h.loft, l.owner ≠ c.val ∨ l.stash = true → l ∈ ls)
            ∧ (∀ l ∈ h.loft, l.owner = c.val → l.stash = false → l.released < 16 → ¬ gone l →
                ∃ r v d w, { l with released := r, valid := v, dirty := d, writing := w } ∈ ls
                  ∧ (∀ j < 4, r.testBit j = (l.released.testBit j || bit l j) ∧ v.testBit j = (l.valid.testBit j && !bit l j))
                  ∧ (d = true ↔ l.dirty = true ∧ v ≠ 0) ∧ (w = true ↔ l.writing = true ∧ v ≠ 0))
            ∧ (∀ l ∈ ls, ∃ l' ∈ h.loft,
                { l with released := l'.released, valid := l'.valid, dirty := l'.dirty, writing := l'.writing } = l' ∧ ¬ gone l')))
        ∧ (∃ t, exec (.lflush c m i n) s = .next t
          ∧ { t.ch x.chan with due := h.due } = h ∧ t.ctx c.val = x ∧ OnlyCtxCh c.val x.chan p t
          ∧ (h.ticking = true → h.cyc + 1 < 2 ^ 64 → NothingDue h (h.cyc + 1) →
            let u := t.pass x.chan (h.cyc + 1)
            (u.slice x.chan).wait = (p.slice x.chan).wait ++
                ((h.loft.filter fun l => l.owner == c.val && !l.stash && l.dirty && !p.asked x.chan l
                  && decide (4 * l.line < i.toNat + n.toNat + 1 ∧ i.toNat < 4 * l.line + 4)).map fun l =>
                  ⟨.home x.chan, c.val, l.line, x.ten, x.stashwin, x.stashbase * 64 + 64 * l.line, 64, true, 0, 0⟩)
            ∧ (u.ch x.chan).loft.map (fun l => { l with writing := false }) = h.loft.map (fun l => { l with writing := false })
            ∧ u.tenants = p.tenants ∧ u.master = p.master))))


/-! ### Couch and Reel (R316, R317, R330, R340, R341, R352) -/

/-- CREDIT_GRANT: each context with a run in progress receives as many credits as bring it to 16, within the free entries of the buffer:
the contexts are served in turn, and once one is left below 16 the buffer is full and the later ones receive none. The grants of a cc,
which are those credits, wait for the CCR port behind those that it holds; a channel that does not serve grants nothing (R316, R341).
The order of service is the model's reading (log 52). A host that takes a grant removes the first; a channel whose clock has stopped then
presents the next one only when the clock resumes (R383). -/
def Obligations.CreditsStayWithinTheBuffer : Prop :=
  ∀ (s : State) (n : ChanId),
    (Inside s → (s.ch n.val).serves = false → exec (.creditGrant n) s = .next s)
    ∧ (Inside s → (s.ch n.val).serves = true → Tbl.wf 0 (s.ch n.val).credits = true → ∃ t new, exec (.creditGrant n) s = .next t
      ∧ (t.ch n.val).grants = (s.ch n.val).grants ++ new
      ∧ (∀ g ∈ new, 1 ≤ g.2 ∧ g.2 ≤ 16 ∧ g.1 ∈ (s.served n.val).map fun e => e.2)
      ∧ (∀ c, (t.ch n.val).credit c = (s.ch n.val).credit c + ((new.filter fun g => g.1 == c).map fun g => g.2).sum)
      ∧ (∀ e ∈ s.served n.val, (t.ch n.val).credit e.2 ≤ max 16 ((s.ch n.val).credit e.2))
      ∧ ((s.ch n.val).couch.length + ((s.ch n.val).credits.map fun e => e.2).sum ≤ 32 →
          (t.ch n.val).couch.length + ((t.ch n.val).credits.map fun e => e.2).sum ≤ 32
          ∧ ∀ pre e post, s.served n.val = pre ++ e :: post → (t.ch n.val).credit e.2 < 16 →
            (t.ch n.val).couch.length + ((t.ch n.val).credits.map fun e => e.2).sum = 32
            ∧ ∀ q ∈ post, q.2 ∉ (pre.map fun e => e.2) → q.2 ≠ e.2 → (t.ch n.val).credit q.2 = (s.ch n.val).credit q.2)
      ∧ { t.ch n.val with credits := (s.ch n.val).credits, grants := (s.ch n.val).grants } = s.ch n.val ∧ OnlyCh n.val s t)
    ∧ (Reached s →
      ((s.ch n.val).ccrHold = false → exec (.creditGrantAccept n) s = .next (s.setCh n.val
        { s.ch n.val with
          grants := (s.ch n.val).grants.drop 1, ccrHold := decide ((s.ch n.val).st ≠ .off) && (s.ch n.val).clkStop }))
      ∧ ((s.ch n.val).ccrHold = true → ∃ t, exec (.creditGrantAccept n) s = .next t ∧ t.ch n.val = s.ch n.val ∧ OnlyCh n.val s t))

/-- COUCH_BEAT: a beat of a context of the channel, under its tenant's tag and with a credit, enters the buffer behind the others and
uses one credit; a beat with no credit, of a context that is not bound to the channel or of another tenant is discarded and counted
in CHCREDERR; a credit that lapsed with a fault is used without a count, also while the context drains (R361); after a DISCARD the beats
before the next tile-start beat are discarded (R317, R328, R340). A channel that does not take beats ignores them. -/
def Obligations.CouchBeatsEnterAgainstCredits : Prop :=
  ∀ (s : State) (n : ChanId) (b : CouchBeat), Reached s →
    let h := s.ch n.val
    let x := s.ctx b.ctx.val
    let mine := (∃ a ∈ h.alloc, a.ctx = b.ctx.val) ∧ x.chan = n.val
    let lapsed := x.faultcode ≠ 0 ∧ 0 < Tbl.look 0 h.lapsed b.ctx.val
    (h.st ≠ .ready → h.st ≠ .quiescing → exec (.couchBeat n b) s = .next s)
    ∧ (h.st = .ready ∨ h.st = .quiescing →
      (x.ten ≠ b.ten.val ∨ ¬ lapsed ∧ (¬ mine ∨ h.credit b.ctx.val = 0) →
        exec (.couchBeat n b) s = .next (s.setCh n.val { h with dCrederr := h.dCrederr + 1 }))
      ∧ (x.ten = b.ten.val → lapsed → exec (.couchBeat n b) s =
        .next (s.setCh n.val { h with lapsed := Tbl.put 0 h.lapsed b.ctx.val (Tbl.look 0 h.lapsed b.ctx.val - 1) }))
      ∧ (x.ten = b.ten.val → mine → ¬ lapsed → h.credit b.ctx.val ≠ 0 →
        (x.dropSot = true → b.sot = false → exec (.couchBeat n b) s =
          .next (s.setCh n.val (h.setCredit b.ctx.val (h.credit b.ctx.val - 1))))
        ∧ (x.dropSot = false ∨ b.sot = true → ∃ t, exec (.couchBeat n b) s = .next t
          ∧ (t.ch n.val).couch = h.couch ++ [⟨s.seq, h.cyc, b⟩] ∧ (t.ch n.val).credit b.ctx.val = h.credit b.ctx.val - 1
          ∧ { t.ch n.val with couch := h.couch, credits := h.credits } = h
          ∧ t.ctx b.ctx.val = { x with dropSot := false } ∧ t.seq = s.seq + 1
          ∧ OnlyCtxCh b.ctx.val n.val { s with seq := s.seq + 1 } t)))

/-- REEL_PRESENT: the first beat of the egress buffer goes to an empty port in its cycle or later and in the order of the buffer, with
REEL_SOT if it is the first that its run presents (R350); a beat at the port is held until Host accepts it, and a channel that does not
serve presents none (R330, R352). A held beat is emitted into the cycles reserved for it, its flags under the PSEQ of the tile that held it
(R141, R154, log 43). That the command passes time to the cycle of the first beat is DESIGN CHOICE of log 4. -/
def Obligations.ReelPresentsInOrder : Prop :=
  ∀ (s : State) (n : ChanId),
    (Inside s → (s.ch n.val).serves = false ∨ (s.ch n.val).reelPort ≠ none ∨ (s.ch n.val).egress = [] →
      exec (.reelPresent n) s = .next s)
    ∧ (∀ b rest, Inside s → (s.ch n.val).serves = true → (s.ch n.val).reelPort = none → (s.ch n.val).egress = b :: rest →
      let p := s.pass n.val b.due
      (b.due ≤ (s.ch n.val).cyc → NothingDue (s.ch n.val) (s.ch n.val).cyc → p = s)
      ∧ (∀ a left, (p.ch n.val).egress = a :: left → a.due ≤ (p.ch n.val).cyc → ∃ t, exec (.reelPresent n) s = .next t
        ∧ (a.run = none → (t.ch n.val).reelPort = some a)
        ∧ (∀ q, a.run = some q → ∀ r, (p.ctx a.ctx).run q = some r → (t.ch n.val).reelPort = some { a with sot := !r.sot }
            ∧ ∀ v ∈ (t.ctx a.ctx).runs, v.ser = q → v.sot = true)
        ∧ (t.ch n.val).egress = left
        ∧ (t.ch n.val).cyc = (p.ch n.val).cyc ∧ (t.ch n.val).couch = (p.ch n.val).couch
        ∧ (∀ i, (t.ch n.val).ream i = (p.ch n.val).ream i) ∧ t.tenants = p.tenants ∧ t.slices = p.slices
        ∧ (a.run = none → t = p.setCh n.val { p.ch n.val with egress := left, reelPort := some a }))
      ∧ (∀ a left, (p.ch n.val).egress = a :: left → (p.ch n.val).cyc < a.due → exec (.reelPresent n) s = .next p))
    ∧ (Reached s → exec (.reelAccept n) s = .next (s.setCh n.val { s.ch n.val with reelPort := none }))
    ∧ (∀ (c : CtxId) (r : Run) (j : Nat) (b : HeldBeat) (els : List HElem) (rest : List Later),
      let h := s.ch n.val
      let t1 := h.cyc + 1
      let x := s.ctx c.val
      let t := s.pass n.val t1
      let ccs := Tbl.look [] r.emitAt j
      let (ls, os, us, _) := emitBeat ⟨x, r⟩ b els (ccs.headD 0)
      h.ticking = true → t1 < 2 ^ 64 → h.due = ⟨t1, c.val, some r.ser, .emit j⟩ :: rest → (∀ e ∈ rest, t1 < e.cc) → x.chan = n.val →
      x.run r.ser = some r → r.outs[j]? = some (b, els) → r.carriesLater = false → us = [] → (ls.all fun l => !l.stash) = true →
      (∀ o ∈ os, t1 < o.cc) →
        Stand (dated (ls.flatMap fun l => l.beats c.val x.ten r.ser (r.emitSlot (ccs.headD 0))) ccs) (t.ch n.val).egress
        ∧ (∀ o ∈ h.egress, ∃ a ∈ (t.ch n.val).egress, { a with eot := o.eot, pseq := o.pseq } = o)
        ∧ (∀ q ∈ (t.ch n.val).reelRes, q.run = r.ser → q.cc ∉ ccs)
        ∧ (∀ o ∈ os, ∃ l, o ∈ l ∧ ⟨o.cc, c.val, some r.ser, .offs b.pseq l⟩ ∈ (t.ch n.val).due)
        ∧ (t.ctx c.val).st = x.st ∧ ∀ i, (t.ch n.val).ream i = h.ream i)

/-! ### Felt (R267, R355 to R358) -/

/-- FELT_ACCESS_ISSUE: with FREQ free and fewer than 64 accesses outstanding, the first access of the slice that may leave it is judged, and
no other is (R267, R356, R357). None leaves while an access to its block is outstanding, a sampling record not before its context's earlier
ones are written (R254, log 98), a home write not before the write-back of its line (R226); any other may. Inside its window it takes the
lowest tag that is free in the first uc in which one is, the uc after its last response or a later one, and raises FREQ with its address,
the beats of a write go on FWD, and a line that it writes home is clean from then on unless written again (R219); outside its window nothing
is transferred and its context faults with code 0x06. Otherwise no access is issued. With nothing else to issue time passes to the lines of
an LFLUSH, and each access has its uc, a write behind the data of those before it (R306, R357, log 82). The host takes the request from the
port, whose next one follows in a later uc, and one beat of write data in a uc (R355, R357). -/
def Obligations.FeltAccessesIssueWithinTheirWindow : Prop :=
  ∀ (s : State) (sl : SliceId),
    let q := s.slice sl.val
    (∀ a ∈ q.wait,
      (s.blockBusy (s.address a) = true → s.ready q a = false)
      ∧ (∀ r m o, a.kind = .sample r → m < 8 → o ∈ (s.slice m).out → o.acc.ctx = a.ctx → o.acc.isSample = true → s.ready q a = false)
      ∧ (∀ r v pre post, a.kind = .sample r → q.wait = pre ++ a :: post → a ∉ pre → v ∈ pre → v.ctx = a.ctx → v.isSample = true →
          s.ready q a = false)
      ∧ (∀ k, a.kind = .home k ∨ a.kind = .straight k → s.writingBack a.ctx a.line = true → s.ready q a = false)
      ∧ (s.blockBusy (s.address a) = false → (∀ k, a.kind ≠ .sample k ∧ a.kind ≠ .home k ∧ a.kind ≠ .straight k) → s.ready q a = true))
    ∧ (∀ (pre post : List FeltAcc) (a : FeltAcc), Inside s → q.wait = pre ++ a :: post →
      (∀ b ∈ pre ++ a :: post, s.stale b = false) → (∀ b ∈ pre, s.ready q b = false) → s.ready q a = true →
      (s.slice sl.val).freq = none → (∃ i < 64, ∀ o ∈ q.out, o.tag ≠ i) →
      let lo := max s.uc (if a.wr then max q.reqAt q.wrAt else q.reqAt)
      (∀ addr, s.window a = some addr → ∃ t tag, exec (.feltAccessIssue sl) s = .next t ∧ tag < 64 ∧ Tbl.look 0 q.tagAt tag ≤ t.uc
          ∧ lo ≤ t.uc ∧ (∀ i < 64, (∀ o ∈ q.out, o.tag ≠ i) → t.uc ≤ max lo (Tbl.look 0 q.tagAt i))
          ∧ (t.slice sl.val).tagAt = q.tagAt
          ∧ (t.slice sl.val).wait = pre ++ post ∧ (t.slice sl.val).out = (s.slice sl.val).out ++ [⟨tag, a, addr, 0, false, 0⟩]
          ∧ (t.slice sl.val).freq = some tag ∧ (t.slice sl.val).freqAddr = some (addr / 32)
          ∧ (t.slice sl.val).fwd.length = (s.slice sl.val).fwd.length + (if a.wr then a.len / 32 else 0)
          ∧ (∀ o ∈ (s.slice sl.val).out, o.tag ≠ tag)
          ∧ (∀ i < tag, t.uc < Tbl.look 0 q.tagAt i ∨ ∃ o ∈ (s.slice sl.val).out, o.tag = i)
          ∧ (t.slice sl.val).reqAt = t.uc + 1 ∧ (q.fwd = [] → t.uc + 1 ≤ (t.slice sl.val).fwdAt)
          ∧ (t.slice sl.val).wrAt = (if a.wr then t.uc + a.len / 32 else q.wrAt)
          ∧ (∀ k l, a.kind = .home k → (s.ch k).findLine a.ctx a.line = some l →
              ∃ l' ∈ (t.ch k).loft, { l with dirty := false, writing := true } = l')
          ∧ ((∀ m i, a.kind ≠ .home m ∧ a.kind ≠ .homeWb m ∧ a.kind ≠ .stash m i) → ∀ k, t.ch k = s.ch k)
          ∧ (∀ k, k ≠ sl.val → t.slice k = s.slice k) ∧ { t with chans := s.chans, slices := s.slices, uc := s.uc } = s)
      ∧ (s.window a = none → a.kind ≠ .load → a.kind ≠ .maint → (s.ctx a.ctx).st = .bound ∨ (s.ctx a.ctx).st = .running →
        ∃ t, exec (.feltAccessIssue sl) s = .next t ∧ (t.slice sl.val).out = (s.slice sl.val).out
          ∧ (t.slice sl.val).freq = none ∧ (t.slice sl.val).fwd = (s.slice sl.val).fwd
          ∧ ((∀ m, ∀ b ∈ (s.slice m).wait, ∀ k l, b.kind = .fetch k → l ∈ (s.ch k).wb → l.owner = b.ctx → l.line ≠ b.line) →
            ∀ b ∈ (t.slice sl.val).wait, b ∈ pre ++ post)
          ∧ (t.ctx a.ctx).st = .faulted ∧ (t.ctx a.ctx).faultcode = if (s.ctx a.ctx).faultcode = 0 then 0x06 else (s.ctx a.ctx).faultcode))
    ∧ (Inside s → q.wait ≠ [] ∨ (∀ e ∈ (s.ch sl.val).due, ∀ i k, e.what ≠ .flush i k) → (∀ b ∈ q.wait, s.stale b = false) →
      q.freq ≠ none ∨ (∀ i < 64, ∃ o ∈ q.out, o.tag = i) ∨ (∀ b ∈ q.wait, s.ready q b = false) →
      ∃ t, exec (.feltAccessIssue sl) s = .next t ∧ t.slice sl.val = q ∧ OnlySlice sl.val s t)
    ∧ (∀ pre e post i k, Inside s → q.wait = [] → (s.ch sl.val).due = pre ++ e :: post → e.what = .flush i k →
      (∀ d ∈ pre, ∀ i k, d.what ≠ .flush i k) → let p := s.pass sl.val e.cc
      (p.slice sl.val).wait ≠ [] → exec (.feltAccessIssue sl) s = exec (.feltAccessIssue sl) p)
    ∧ (Reached s → ∃ t, exec (.feltRequestAccept sl) s = .next t ∧ OnlySlice sl.val s t
      ∧ t.slice sl.val = if q.freq = none then q else { q with freq := none, reqAt := max q.reqAt (s.uc + 1) })
    ∧ (Reached s → (q.fwd = [] → exec (.feltWriteDataAccept sl) s = .next s)
      ∧ (q.fwd ≠ [] → let u := max s.uc q.fwdAt
        exec (.feltWriteDataAccept sl) s = .next ({ s with uc := u }.setSlice sl.val { q with fwd := q.fwd.drop 1, fwdAt := u + 1 })))

/-- FELT_RESPONSE: FRSP transfers one beat in a uc (R357). A response to a tag that is not outstanding is dropped; one that is not the last
is gathered; the last ends the access, whose tag is free from the next uc on (R357), and a fetch then makes every record of its line valid,
on the channel to which its context was rebound meanwhile too (R361), leaving the records that were valid, and a line whose four records
were released meanwhile is free (R221, log 96); an error faults the context with code 0x07. The responses of a context that is torn down are
taken and dropped (R216, R220, R358). -/
def Obligations.FeltResponsesEndTheirAccess : Prop :=
  ∀ (s : State) (sl : SliceId) (r : FeltResp), Reached s →
    let u := max s.uc (s.slice sl.val).respAt
    let p := { s with uc := u }.setSlice sl.val { s.slice sl.val with respAt := u + 1 }
    let Ended (q : Slice) : Prop := q.out = (s.slice sl.val).out.filter (fun p => p.tag != r.tag.val)
      ∧ ∀ k, Tbl.look 0 q.tagAt k = if k = r.tag.val then u + 1 else Tbl.look 0 (s.slice sl.val).tagAt k
    ((∀ o ∈ (s.slice sl.val).out, o.tag ≠ r.tag.val) → exec (.feltResponse sl r) s = .next p)
    ∧ (∀ o, (s.slice sl.val).out.find? (fun p => p.tag == r.tag.val) = some o →
      let data := if r.wack then o.rdata else o.rdata + r.data.toNat * 2 ^ (256 * o.beats)
      (r.err = false → r.last = false → ∃ t, exec (.feltResponse sl r) s = .next t
        ∧ (t.slice sl.val).out = (s.slice sl.val).out.map (fun p => if p.tag = r.tag.val then
            { o with beats := o.beats + 1, rdata := data } else p)
        ∧ OnlySlice sl.val p t)
      ∧ (r.err = false → r.last = true → o.failed = false → ∀ q, o.acc.kind = .sample q ∨ o.acc.kind = .straight q →
        ∃ t, exec (.feltResponse sl r) s = .next t ∧ Ended (t.slice sl.val) ∧ OnlySlice sl.val p t)
      ∧ (r.last = true → o.acc.kind ≠ .load → o.acc.kind ≠ .maint →
          (s.ctx o.acc.ctx).st = .free ∨ (s.ctx o.acc.ctx).st = .draining ∧ (s.ctx o.acc.ctx).drain = .teardown →
        ∃ t, exec (.feltResponse sl r) s = .next t ∧ Ended (t.slice sl.val) ∧ OnlySlice sl.val p t)
      ∧ (r.err = false → r.last = true → o.failed = false → ∀ n, o.acc.kind = .fetch n → s.owned o.acc = true →
        ∃ t, exec (.feltResponse sl r) s = .next t
          ∧ (∀ m, m = n ∨ m = s.chanOf o.acc.ctx →
            (∀ l ∈ (t.ch m).loft, l.owner = o.acc.ctx → l.stash = false → l.line = o.acc.line →
              l.fetching = false ∧ l.released ≠ 15)
            ∧ (∀ l ∈ (s.ch m).loft, l.owner = o.acc.ctx → l.stash = false → l.line = o.acc.line → l.fetching = true → l.released ≠ 15 →
              ∃ l' ∈ (t.ch m).loft, l'.idx = l.idx ∧ l'.line = l.line ∧ l'.valid = 15 ∧ l'.dirty = l.dirty
                ∧ ∀ i < 4, l'.rec4 i = if l.valid.testBit i then l.rec4 i else data / 2 ^ (128 * i) % 2 ^ 128))
          ∧ t.ctxs = s.ctxs ∧ t.tenants = s.tenants)
      ∧ (r.err = true → o.failed = false → o.acc.kind ≠ .load → o.acc.kind ≠ .maint →
          (s.ctx o.acc.ctx).st = .bound ∨ (s.ctx o.acc.ctx).st = .running → ∃ t, exec (.feltResponse sl r) s = .next t
          ∧ (t.ctx o.acc.ctx).st = .faulted
          ∧ (t.ctx o.acc.ctx).faultcode = (if (s.ctx o.acc.ctx).faultcode = 0 then 0x07 else (s.ctx o.acc.ctx).faultcode)
          ∧ (r.last = true → ∀ p ∈ (t.slice sl.val).out, p.tag ≠ r.tag.val)
          ∧ (r.last = false → ∀ p ∈ (t.slice sl.val).out, p.tag = r.tag.val → p.failed = true)))

/-! ### Records, stash lines and samples (R216, R219, R222, R227, R253, Table 7-4) -/

/-- LOFT_RECORD_WRITE: the oldest waiting record, once the cc from which it may be written has come (R163), is stored in its resident line,
which is then dirty, takes a line of its own while the context uses fewer than it was granted, or goes straight home for a context granted
none; there the line through which the context reads takes the value too and is no dirtier for that (R216, R225). With no record waiting
nothing happens (R219, R227). That the command passes time to that cc is log 4, and the line of a context granted none log 24. -/
def Obligations.LoftRecordsFindALine : Prop :=
  ∀ (s : State) (c : CtxId), Inside s →
    let p := s.toWrite c.val ((s.ctx c.val).recQ.head?.map fun w => w.cc)
    let x := p.ctx c.val
    let h := p.ch x.chan
    ((s.ctx c.val).recQ = [] ∨ (s.ch (s.ctx c.val).chan).serves = false → exec (.loftRecordWrite c) s = .next s)
    ∧ (∀ w rest, (s.ctx c.val).recQ = w :: rest → w.cc ≤ (s.ch (s.ctx c.val).chan).cyc →
      NothingDue (s.ch (s.ctx c.val).chan) (s.ch (s.ctx c.val).chan).cyc → p = s)
    ∧ (∀ w rest, x.recQ = w :: rest → h.serves = true → w.rec4 < 2 ^ 128 →
      (∀ l, x.algrant ≠ 0 → h.findLine c.val (w.idx / 4) = some l → ∃ t l', exec (.loftRecordWrite c) s = .next t
        ∧ t.ctx c.val = { x with recQ := rest } ∧ (t.ch x.chan).findLine c.val (w.idx / 4) = some l'
        ∧ l'.rec4 w.idx = w.rec4 ∧ l'.dirty = true ∧ l'.valid = l.valid ||| 2 ^ (w.idx % 4) ∧ l'.lastWrite = h.cyc
        ∧ (t.ch x.chan).loft.length = h.loft.length ∧ OnlyCtxCh c.val x.chan p t)
      ∧ (h.findLine c.val (w.idx / 4) = none → h.lineCount c.val < x.algrant → ∃ t l', exec (.loftRecordWrite c) s = .next t
        ∧ t.ctx c.val = { x with recQ := rest } ∧ l' ∈ (t.ch x.chan).loft ∧ l'.owner = c.val ∧ l'.line = w.idx / 4 ∧ l'.stash = false
        ∧ l'.rec4 w.idx = w.rec4 ∧ l'.dirty = true ∧ l'.valid = 2 ^ (w.idx % 4)
        ∧ (t.ch x.chan).loft.length = h.loft.length + 1 ∧ (∀ l ∈ h.loft, l ∈ (t.ch x.chan).loft ∧ l.idx ≠ l'.idx)
        ∧ OnlyCtxCh c.val x.chan p t)
      ∧ (x.algrant = 0 → x.policy ≠ 2 → ∃ t a, exec (.loftRecordWrite c) s = .next t
        ∧ t.ctx c.val = { x with recQ := rest } ∧ (t.slice x.chan).wait = (p.slice x.chan).wait ++ [a]
        ∧ a.ctx = c.val ∧ a.off = x.stashbase * 64 + 64 * (w.idx / 4) ∧ a.len = 64 ∧ a.wr = true ∧ a.ten = x.ten ∧ a.win = x.stashwin
        ∧ a.data = w.rec4 * 2 ^ (128 * (w.idx % 4)) ∧ a.be = 0xFFFF * 2 ^ (16 * (w.idx % 4))
        ∧ (∀ l, h.findLine c.val (w.idx / 4) = some l → ∃ l', (t.ch x.chan).findLine c.val (w.idx / 4) = some l'
            ∧ l'.rec4 w.idx = w.rec4 ∧ l'.valid = l.valid ||| 2 ^ (w.idx % 4) ∧ l'.dirty = l.dirty)
        ∧ (h.findLine c.val (w.idx / 4) = none → (t.ch x.chan).loft = h.loft)
        ∧ OnlyCtxCh c.val x.chan { p with slices := t.slices } t ∧ (∀ k, k ≠ x.chan → t.slice k = p.slice k))
      ∧ (x.algrant = 0 → x.policy = 2 → x.st = .bound ∨ x.st = .running → ∃ t, exec (.loftRecordWrite c) s = .next t
        ∧ (t.ctx c.val).st = .faulted ∧ (t.ctx c.val).faultcode = (if x.faultcode = 0 then 0x08 else x.faultcode)
        ∧ (t.ctx c.val).flags = x.flags ||| flStashOvf))

/-- STASH_WRITE: the oldest waiting stash line, from its cc on, takes a Loft line of its own, whose home write waits in the slice; a context
granted none writes straight home under spill, drops the line and sets its layer's mark under recompute, and faults with code 0x08 under
fault (Table 7-3, R222, R224, R227, Table 7-4). The code 0b11 is reserved; only a context that asked for no line may hold it, and its
lines go straight home, as R227 says of every policy (the model's reading, log 37). SAMPLE_RECORD_WRITE: the oldest sampling record goes
home as one 32-byte write whose byte enables select its 16 bytes, after a record of the same cc whose tile's commit began earlier, or in the
same cc in a lower context (R253, R256, Table 8-5). That the commands pass time to the cc of the write is log 4. -/
def Obligations.StashLinesAndSamplesGoHome : Prop :=
  ∀ (s : State) (c : CtxId), Inside s →
    ((s.ctx c.val).stashQ = [] ∨ (s.ch (s.ctx c.val).chan).serves = false → exec (.stashWrite c) s = .next s)
    ∧ ((s.ctx c.val).smpQ = [] ∨ (s.ch (s.ctx c.val).chan).serves = false → exec (.sampleRecordWrite c) s = .next s)
    ∧ (let p := s.toWrite c.val ((s.ctx c.val).stashQ.head?.map fun w => w.cc)
      let x := p.ctx c.val
      let h := p.ch x.chan
      ∀ w rest, x.stashQ = w :: rest → h.serves = true →
      (h.lineCount c.val < x.algrant → ∃ t l', exec (.stashWrite c) s = .next t
        ∧ t.ctx c.val = { x with stashQ := rest } ∧ l' ∈ (t.ch x.chan).loft ∧ l'.owner = c.val ∧ l'.line = w.line ∧ l'.stash = true
        ∧ l'.tag = w.tag ∧ l'.data = w.data ∧ l'.be = w.be ∧ l'.dirty = true ∧ l'.writing = true
        ∧ (∀ l ∈ h.loft, l ∈ (t.ch x.chan).loft ∧ l.idx ≠ l'.idx)
        ∧ (t.slice x.chan).wait = (p.slice x.chan).wait ++
            [⟨.stash x.chan w.tag, c.val, w.line, x.ten, x.stashwin, x.stashbase * 64 + 64 * w.line, 64, true, 0, 0⟩]
        ∧ t.tenants = p.tenants ∧ (∀ d, d ≠ c.val → t.ctx d = p.ctx d))
      ∧ (x.algrant = 0 → x.policy = 0 ∨ x.policy = 3 → ∃ t, exec (.stashWrite c) s = .next t
        ∧ t.ctx c.val = { x with stashQ := rest }
        ∧ (t.slice x.chan).wait = (p.slice x.chan).wait ++
            [⟨.stashStraight w.run w.tag, c.val, w.line, x.ten, x.stashwin, x.stashbase * 64 + 64 * w.line, 64, true, w.data, w.be⟩]
        ∧ t.chans = p.chans ∧ t.tenants = p.tenants ∧ (∀ d, d ≠ c.val → t.ctx d = p.ctx d))
      ∧ (x.algrant = 0 → x.policy = 1 → ∃ t, exec (.stashWrite c) s = .next t
        ∧ t.ctx c.val = { x with stashQ := rest, mark := (t.ctx c.val).mark }
        ∧ (∀ i < 256, (t.ctx c.val).mark.getLsbD i = (x.mark.getLsbD i || decide (i = w.tag % 256)))
        ∧ OnlyCtx c.val p t)
      ∧ (x.algrant = 0 → x.policy = 2 → x.st = .bound ∨ x.st = .running → ∃ t, exec (.stashWrite c) s = .next t
        ∧ (t.ctx c.val).st = .faulted ∧ (t.ctx c.val).faultcode = (if x.faultcode = 0 then 0x08 else x.faultcode)
        ∧ (t.ctx c.val).flags = x.flags ||| flStashOvf))
    ∧ (let p := s.toWrite c.val ((s.ctx c.val).smpQ.head?.map fun w => w.cc)
      let x := p.ctx c.val
      ∀ w rest, x.smpQ = w :: rest → (p.ch x.chan).serves = true →
      let first (d : Nat) (v : SmpWr) : Prop := v.cc = w.cc ∧ (v.w < w.w ∨ v.w = w.w ∧ d < c.val)
      ((∃ a ∈ (p.ch x.chan).alloc, a.ctx ≠ c.val ∧ ∃ v ∈ (p.ctx a.ctx).smpQ, first a.ctx v) → exec (.sampleRecordWrite c) s = .next p)
      ∧ ((∀ a ∈ (p.ch x.chan).alloc, a.ctx ≠ c.val → ∀ v ∈ (p.ctx a.ctx).smpQ, ¬ first a.ctx v) → ∃ t a, exec (.sampleRecordWrite c) s = .next t
        ∧ t.ctx c.val = { x with smpQ := rest } ∧ (t.slice x.chan).wait = (p.slice x.chan).wait ++ [a]
        ∧ a.off = w.off / 32 * 32 ∧ a.len = 32 ∧ a.wr = true ∧ a.ctx = c.val ∧ a.ten = x.ten ∧ a.win = w.win
        ∧ a.data = w.data * 2 ^ (8 * (w.off % 32)) ∧ a.be = 0xFFFF * 2 ^ (w.off % 32)
        ∧ t.chans = p.chans ∧ t.tenants = p.tenants ∧ (∀ d, d ≠ c.val → t.ctx d = p.ctx d)))

/-! ### Runs (R269, R270, R286, R318, R91, R180) -/

/-- RUN_START: a waiting run that has reached its channel, whose lane groups no other context's run holds, that no earlier-delivered run of
another context could take, whose balance permits it and which no change of slots keeps back, is chosen, and starts after the handover of
its groups: the context holds them, s is the cc, a BOUND context is RUNNING, and RRST restarts the row count. A run with no program, a
header that is no valid one, a CBASE or PASS2 that its program does not take, or a program that fails a check faults the context at that
word and field, and so does a statistics entry of its rows that nothing provides, where its row count is known. The words before the ingest
act in s, each as its meaning has it at its place; an operand that one of them does not take faults the context (R282, R287, R303).
Otherwise one cc passes, counted as a stall, under BUDGET too where the balance keeps the run back (R269, R270, R272, R282, R286, R287,
R321). The passing of time is log 4, and choice before handover log 84; the attribution of faults is log 49. -/
def Obligations.RunsStartWhenTheirGroupsAreFree : Prop :=
  ∀ (s : State) (c : CtxId) (r : Run), Inside s → (s.ctx c.val).waiting = some r → s.hosted c.val = true →
    let n := (s.ctx c.val).chan
    let p := startPoint s c.val r
    let u := p.pass n ((p.ch n).handover c.val (p.ctx c.val).lgmask.toNat)
    let x := u.ctx c.val
    let h := u.ch n
    (s.ch n).serves = true → s.heldBack c.val r = false → (p.ctx c.val).chan = n → x.chan = n →
    (∀ w v, p.nextRun c.val = some w → (p.ch n).groupsFree c.val (p.ctx c.val).lgmask.toNat (p.ch n).cyc = true →
      (p.ctx c.val).permits = true → (p.ctx c.val).waitsSlots (p.ch n) w = false → p.outrun c.val w.ser = false →
      u.nextRun c.val = some v → NothingDue h h.cyc →
      let g := h.program (v.slot.getD 0)
      let r' := { v with prog := g }
      let first := if v.w.rrst then 0 else x.cnts.getD v.count 0
      let Before (e : Run) : Prop := e.ser < v.ser ∧ e.count = v.count ∧ (e.phase = .waiting ∨ e.phase = .started ∨ e.phase = .checking)
      let Counted : Prop := (∀ e ∈ x.runs, ¬ Before e) ∧ x.restarts = [] ∧ v.base = none
      let missing := u.statMissing c.val r' ((List.range (r'.knownRows x)).map fun i => first + i)
      let Started (q : Run) : Prop := q.ser = v.ser ∧ q.phase = .started ∧ q.start = h.cyc ∧ q.holds = true ∧ q.prog = g
      let Taken (t : State) : Prop := (t.ctx c.val).st = (if x.st = .bound then .running else x.st)
        ∧ (t.ctx c.val).runs.length = x.runs.length
        ∧ (∀ k < 16, ((t.ch n).holders.getD k Holder.reset).now =
            if x.lgmask.getLsbD k then some c.val else (h.holders.getD k Holder.reset).now)
        ∧ (∀ i, (t.ch n).ream i = h.ream i) ∧ (t.ctx c.val).flags = x.flags ∧ (t.ctx c.val).balance = x.balance
        ∧ OnlyCtxCh c.val n u t
      (v.slot ≠ none → headerFault (h.word (v.slot.getD 0)) = none → v.wordFault g = none → x.startFaults g v.ser = [] →
        h.holders.length = 16 → (∀ q ∈ x.runs, q.phase = .started → q.base ≠ none) → (x.runs.map fun q => q.ser).Nodup →
        (g.before = [] → g.statReads = [] ∨ (∃ e ∈ x.runs, Before e) ∨ Counted ∧ missing = none →
          ∃ t, exec (.runStart c) s = .next t ∧ Taken t
            ∧ ∃ q ∈ (t.ctx c.val).runs, Started q ∧ (Counted → q.base = some first))
        ∧ (∀ q, g.before = [] → Counted → missing = some q → x.st = .bound ∨ x.st = .running →
          ∃ t, exec (.runStart c) s = .next t ∧ FaultTaken c.val 0x02
            (ifltWord true (if v.w.psel then 2 else 1) q.word (opc (g.words.getD q.word 0)) q.flsb) u t)
        ∧ (∀ i w, g.before = [(i, w)] → g.statReads = [] → x.st = .bound ∨ x.st = .running → ∃ p1 t, exec (.runStart c) s = .next t
          ∧ Taken p1 ∧ (∃ q ∈ (p1.ctx c.val).runs, Started q) ∧ { p1.ch n with holders := h.holders } = h
          ∧ (let p2 := p1.act c.val (Site.ofRun r' i) w
            t.chans = p2.chans ∧ t.tenants = p2.tenants ∧ t.slices = p2.slices ∧ (∀ d, d ≠ c.val → t.ctx d = p2.ctx d)
            ∧ (t.ctx c.val).st = (p2.ctx c.val).st ∧ (t.ctx c.val).faultcode = (p2.ctx c.val).faultcode
            ∧ (t.ctx c.val).iflt = (p2.ctx c.val).iflt ∧ (t.ctx c.val).flags = x.flags ∧ (t.ctx c.val).slots = (p2.ctx c.val).slots
            ∧ ((p2.ctx c.val).st ≠ .faulted → ∃ q ∈ (t.ctx c.val).runs, Started q)))
        ∧ (x.st = .bound ∨ x.st = .running → ∃ t, exec (.runStart c) s = .next t
          ∧ ((∃ q ∈ (t.ctx c.val).runs, Started q) ∧ (t.ctx c.val).st = .running
            ∨ (t.ctx c.val).st = .faulted ∧ (t.ctx c.val).runs = []
              ∧ (t.ctx c.val).faultcode = (if x.faultcode = 0 then 0x02 else x.faultcode))))
      ∧ (x.st = .bound ∨ x.st = .running →
        (v.slot = none → ∃ t, exec (.runStart c) s = .next t ∧ FaultTaken c.val 0x02 (ifltWord true 0 0 0x01 119) u t)
        ∧ (∀ a f, v.slot = some a → headerFault (h.word a) = some f → ∃ t, exec (.runStart c) s = .next t
          ∧ FaultTaken c.val 0x01 (ifltWord false (if v.w.psel then 2 else 1) 0 (opc (h.word a)) f.flsb) u t)
        ∧ (∀ a, v.slot = some a → headerFault (h.word a) = none →
          (v.w.cbase % max g.hdr.c 1 ≠ 0 ∨ g.hdr.w ≤ v.w.cbase ∨ g.scan.isSome = true ∧ v.w.cbase % 64 ≠ 0 →
            ∃ t, exec (.runStart c) s = .next t ∧ FaultTaken c.val 0x02 (ifltWord true 0 0 0x01 87) u t)
          ∧ (v.w.cbase % max g.hdr.c 1 = 0 → v.w.cbase < g.hdr.w → g.scan = none ∨ v.w.cbase % 64 = 0 →
            v.w.pass2 = true → g.hdr.strat ≠ 2 →
            ∃ t, exec (.runStart c) s = .next t ∧ FaultTaken c.val 0x02 (ifltWord true 0 0 0x01 24) u t)
          ∧ (∀ f, v.wordFault g = none → firstFault (x.startFaults g v.ser) = some f → ∃ t, exec (.runStart c) s = .next t
            ∧ FaultTaken c.val (if f.operand then 0x02 else 0x01)
                (ifltWord f.operand (if v.w.psel then 2 else 1) f.word (opc (g.words.getD f.word 0)) f.flsb) u t))))
    ∧ (∀ w k, p.nextRun c.val = some w → (p.ch n).serves = true → NothingDue (p.ch n) ((p.ch n).cyc + 1) →
      (∃ a ∈ (p.ch n).alloc, a.ctx = c.val) → (∀ q, (p.ch n).polled = some q → ∀ e ∈ q.stalls, 2 < e.2.code) →
      (k = .group ∧ ((p.ch n).groupsFree c.val (p.ctx c.val).lgmask.toNat (p.ch n).cyc = false ∨ p.outrun c.val w.ser = true))
        ∨ (p.startWait c.val = some k ∧ p.couldStart c.val = none) →
      ∃ t, exec (.runStart c) s = .next t
      ∧ (t.ctx c.val).runs = (p.ctx c.val).runs ∧ (t.ctx c.val).st = (p.ctx c.val).st
      ∧ (t.ctx c.val).stallPace = min ((p.ctx c.val).stallPace + 1) 0xFFFFFFFF
      ∧ (t.ctx c.val).stallBudget = (if k = .budget then min ((p.ctx c.val).stallBudget + 1) 0xFFFFFFFF else (p.ctx c.val).stallBudget)
      ∧ (t.ch n).cyc = min ((p.ch n).cyc + 1) (2 ^ 64 - 1) ∧ (t.ch n).holders = (p.ch n).holders
      ∧ (∀ i, (t.ch n).ream i = (p.ch n).ream i) ∧ (t.ch n).couch = (p.ch n).couch ∧ OthersOnlyWait c.val p t)

/-- COUCH_PRESENT where the beat of one context of the channel may be presented: a beat that every condition permits leaves the buffer and
counts as one or two lane-beats of its run; the run's copies that it fills are FILLING; a tile-end beat is checked in the next cc (R315,
R318, R324). A beat that a condition keeps back is a stall of its context in that cc, counted as the cc ends; one out of sequence faults its
context with code 0x03 and one with an illegal operand with code 0x02 (R282, R321). With no beat time passes to no other cc. The results of
a presented beat stand in the egress buffer in their cc, what is held and stashed waits, its flags and terms are due; of a program that only
converts, each result is the element's value in the format of EGRESS, 24 cc after presentation (R59, R309, R342, R347).
The tile-end check: a PSEQ that is not the run's faults the context with code 0x03 and raises the sequence flag; with the run's PSEQ its
tile has ended (R34, R324), and each service row of a sampling tile is to be committed in its own w: t_c + 1, or t_e + 2 where that is later
(R255, Table 8-4, log 103).
That the command passes time to the cc in which it acts is log 4, and the order of checks in a presentation log 44. -/
def Obligations.CouchPresentsTheBeatItMay : Prop :=
  (∀ (s : State) (n : ChanId), Inside s →
    let p := couchPoint s n.val
    let t0 := (p.ch n.val).cyc
    ((s.ch n.val).serves = false → exec (.couchPresent n) s = .next s)
    ∧ ((s.ch n.val).serves = true → (∀ q ∈ p.cands n.val, t0 < q.ready) → exec (.couchPresent n) s = .next p)
    ∧ (∀ q, (s.ch n.val).serves = true → (p.cands n.val).filter (fun q => decide (q.ready ≤ t0)) = [q] →
      NothingDue (p.ch n.val) t0 → (p.ctx q.ctx).chan = n.val →
      let x := p.ctx q.ctx
      let b := q.beat.beat
      (∀ p' r, p.verdict n.val q.ctx q.run b t0 = (p', .go r) →
        (b.sot = (decide (r.beats = 0) && decide (r.records = 0)) →
          let d := (p'.modCh n.val fun h => h.takeBeat q.beat.ser).beatWork n.val q.ctx r b t0
          (∀ e ∈ r.beatEvents q.ctx b t0 d, t0 < e.cc) → ∃ t, exec (.couchPresent n) s = .next t
          ∧ (t.ch n.val).couch = (p.ch n.val).couch.filter (fun e => e.ser != q.beat.ser)
          ∧ (t.ch n.val).cyc = t0 ∧ (t.ch n.val).polled = some ⟨true, []⟩
          ∧ (∃ v ∈ (t.ctx q.ctx).runs, v.ser = q.run.ser ∧ v.beats = q.run.beats + q.run.prog.halves
              ∧ v.phase = if b.eot then .checking else .started)
          ∧ (b.eot = true → (t.ctx q.ctx).lastEnd = t0 ∧ ⟨t0 + 1, q.ctx, some q.run.ser, .check b.pseq.toNat⟩ ∈ (t.ch n.val).due)
          ∧ (q.run.beats = 0 → ∀ f ∈ d.run.fills, ∀ sl ∈ (t.ctx q.ctx).slots, sl.decl.slot = f.1 →
              ∀ k, sl.copies[f.2]? = some k → k.st = .filling)
          ∧ (∀ e ∈ r.beatEvents q.ctx b t0 d, e ∈ (t.ch n.val).due)
          ∧ Stand (dated ((d.leaves.filter fun l => !l.stash).flatMap fun l => l.beats q.ctx x.ten r.ser (t0 + 7)) (r.reelCycles x b.eot t0))
              (t.ch n.val).egress
          ∧ (∀ a ∈ d.k.els, ∃ g ∈ (t.ctx q.ctx).held, g.run = r.ser ∧ g.base = r.base.getD 0 ∧ a ∈ g.els)
          ∧ (∀ g ∈ x.held, g ∈ (t.ctx q.ctx).held) ∧ (t.ctx q.ctx).stashQ = (p'.ctx q.ctx).stashQ ++ d.stash
          ∧ (∀ i o, Converts r.prog i o → ∀ hf j cs, (r.nextCells x)[hf]? = some cs → j < fmtBeats o.ofmt → ∃ g ∈ (t.ch n.val).egress,
              g.due = t0 + 24 + hf * fmtBeats o.ofmt + j ∧ g.run = some r.ser ∧ g.fmt = o.ofmt ∧ g.half = j ∧ g.route = o.route ∧ g.scv = false
              ∧ ∀ a ∈ cs, a.lane ∈ g.we ∧ slotOf g a.lane =
                  (convertCode (decode (slotCode b i.fmt hf a.lane) (elemFmt i.fmt)) (elemFmt o.ofmt) o.sat).1 / 65536 ^ j % 65536)
          ∧ (t.ctx q.ctx).st = x.st ∧ (t.ctx q.ctx).flags = x.flags ∧ (∀ e, e ≠ q.ctx → t.ctx e = p.ctx e) ∧ t.tenants = p.tenants)
        ∧ (b.sot ≠ (decide (r.beats = 0) && decide (r.records = 0)) → x.st = .bound ∨ x.st = .running →
          ∃ t, exec (.couchPresent n) s = .next t ∧ FaultTaken q.ctx 0x03 0 p t ∧ (t.ctx q.ctx).flags = x.flags ||| flSequence))
      ∧ (∀ p' k, p.verdict n.val q.ctx q.run b t0 = (p', .stall k) → ∃ t, exec (.couchPresent n) s = .next t
          ∧ (t.ch n.val).couch = (p.ch n.val).couch ∧ (t.ch n.val).cyc = t0 ∧ (t.ch n.val).polled = some ⟨false, [(q.ctx, k)]⟩
          ∧ (t.ctx q.ctx).runs = x.runs ∧ (t.ctx q.ctx).st = x.st ∧ (t.ctx q.ctx).stallPace = x.stallPace
          ∧ (∀ e, e ≠ q.ctx → t.ctx e = p.ctx e)
          ∧ (NothingDue (p.ch n.val) (t0 + 1) →
            ((t.pass n.val (t0 + 1)).ctx q.ctx).stallPace = min (x.stallPace + 1) 0xFFFFFFFF
            ∧ ((t.pass n.val (t0 + 1)).ch n.val).dPstall = (p.ch n.val).dPstall + 1))
      ∧ (∀ p' w f, p.verdict n.val q.ctx q.run b t0 = (p', .operand w f) → x.st = .bound ∨ x.st = .running →
          ∃ t, exec (.couchPresent n) s = .next t ∧ FaultTaken q.ctx 0x02
            (ifltWord true (if q.run.w.psel then 2 else 1) w (opc (q.run.prog.words.getD w 0)) f) p t)))
  ∧ (∀ (s : State) (n : ChanId) (c : CtxId) (r : Run) (pseq : Nat) (rest : List Later),
    let t1 := (s.ch n.val).cyc + 1
    let x := s.ctx c.val
    let t := s.pass n.val t1
    (s.ch n.val).ticking = true → t1 < 2 ^ 64 → (s.ch n.val).due = ⟨t1, c.val, some r.ser, .check pseq⟩ :: rest →
    (∀ e ∈ rest, t1 < e.cc) → x.run r.ser = some r → x.chan = n.val →
      (pseq ≠ r.w.pseq → x.st = .bound ∨ x.st = .running →
        FaultTaken c.val 0x03 0 s t ∧ (t.ctx c.val).flags = x.flags ||| flSequence)
      ∧ (pseq = r.w.pseq → t1 ≤ r.tEnd + 1 → x.restarts = [] → (∀ q ∈ x.runs, q.phase = .started → q.base ≠ none) →
        (∃ v ∈ (t.ctx c.val).runs, v.ser = r.ser ∧ v.phase = .ended ∧ v.commitAt = r.commitCycle)
        ∧ (t.ctx c.val).st = x.st ∧ (t.ctx c.val).flags = x.flags
        ∧ (r.prog.closes r.w.cbase = true → (t.ctx c.val).cnts = x.cnts.set r.count (r.base.getD 0 + r.rows))
        ∧ (r.mode = .sample → ∀ row < r.rows, row + 1 = r.rows ∨ (r.base.getD 0 + row + 1) % r.prog.sampleW.s = 0 → ∃ w : Nat,
            ⟨w, c.val, some r.ser, .close ⟨row, r.base.getD 0 + row, 0, w⟩⟩ ∈ (t.ch n.val).due ∧ r.tEnd + 2 ≤ w
            ∧ (w = r.tEnd + 2 ∨ ∃ i < r.rows, (r.base.getD 0 + i) / r.prog.sampleW.s = (r.base.getD 0 + row) / r.prog.sampleW.s
                ∧ w = Tbl.look 0 r.rowU i + 1)
            ∧ ∀ i < r.rows, (r.base.getD 0 + i) / r.prog.sampleW.s = (r.base.getD 0 + row) / r.prog.sampleW.s →
                Tbl.look 0 r.rowU i + 1 ≤ w)))

/-- TILE_COMMIT of the first tile that has passed its check, in its cc w + 2 or later: its shadows are combined into the committed parts and
released, no other ream changes, and the run has committed; the copy that it landed is FULL with what it landed (R185, R200), and landing
copies that it read are EMPTY once nothing of it is left to emit (Table 6-5, log 87). Under fold and in a first pass its rows then close:
their statistics are written in w + 20, their records may be written from w + 20 on, and their flags are raised in their cc (R145, R150,
R157, R162, R163). With no such tile nothing happens (R87, R91, R99, R286).
A held row closes in its own cc: the shadows of its reams alone are combined, and its close is kept for its emission (R153, log 31). A
statistics entry reads as written from its cc on (R157, R158); a loss enters the batch ream, and faults its context with code 0x02 if that is
no SUM ream (R245, log 48). A service row of a sampling tile commits in its w: its candidates are committed, and where it ends with the tile
they are selected from with the draw of the counter, which then counts, and a record waits at its place in the ring (R248 to R253, R255,
log 89, log 103). The passing of time is log 4. -/
def Obligations.TilesCommitTheirShadows : Prop :=
  (∀ (s : State) (c : CtxId), Inside s → Inv s →
    let n := (s.ctx c.val).chan
    ((∀ q ∈ (s.ctx c.val).runs, q.phase ≠ .checking ∧ q.phase ≠ .ended) ∨ s.hosted c.val = false ∨ (s.ch n).serves = false →
      exec (.tileCommit c) s = .next s)
    ∧ (∀ r q v, (s.ctx c.val).runs.find? (fun q => q.phase == .checking || q.phase == .ended) = some r → s.hosted c.val = true →
      (s.ch n).serves = true →
      let p := s.pass n (r.tEnd + 1)
      let u := p.passTo n q.commitDone (Effect.rank .commit)
      let x := u.ctx c.val
      let h := u.ch n
      (p.ctx c.val).run r.ser = some q → q.after = [] → x.run r.ser = some v → v.phase = .ended → Inv u → x.chan = n → u.chanOf c.val = n →
      NoWordsWait x → (∀ e ∈ x.runs, e.phase = .started → e.base ≠ none) → v.carriesLater = false →
      v.commitAt = v.commitCycle → h.cyc < v.commitAt + 4 → (∀ e ∈ h.due, h.cyc < e.cc ∨ e.run = some r.ser ∧ e.what = .commit) →
      ∃ t, exec (.tileCommit c) s = .next t
        ∧ (∀ i, (t.ch n).ream i = match (h.ream i).sh with
            | some d => if d.run = r.ser then ⟨((h.ream i).com.combine d.part).1, none⟩ else h.ream i
            | none => h.ream i)
        ∧ (t.ctx c.val).runs.length = x.runs.length ∧ (t.ctx c.val).st = x.st ∧ (t.ch n).cyc = h.cyc ∧ (t.ch n).couch = h.couch
        ∧ OnlyCtxCh c.val n u t
        ∧ (∀ i slot k, v.prog.lands = some (i, slot) → v.fills = [(slot, k)] → (∀ e ∈ v.takes, e.1 ≠ slot) →
          ∀ sl ∈ (t.ctx c.val).slots, sl.decl.slot = slot → ∀ y, sl.copies[k]? = some y → y.st = .full ∧ y.data = v.landing ∧ y.order = r.ser)
        ∧ (h.emitting r.ser = false → ∀ e ∈ v.takes, v.prog.role e.1 = 1 →
          ∀ sl ∈ (t.ctx c.val).slots, sl.decl.slot = e.1 → ∀ y, sl.copies[e.2]? = some y → y.st = .empty)
        ∧ (v.closesAtCommit = false → (t.ctx c.val).recQ = x.recQ
          ∧ ∃ w ∈ (t.ctx c.val).runs, w.ser = r.ser ∧ w.phase = .committed ∧ w.closed = v.closed)
        ∧ (v.closesAtCommit = true → ∃ y : Ctx, ∃ z ∈ (t.ctx c.val).runs, z.ser = r.ser ∧ z.phase = .committed
          ∧ y.slots = x.slots ∧ y.rows = x.rows ∧ y.reambase = x.reambase ∧ y.reamreq = x.reamreq ∧ y.extent = x.extent
          ∧ (let k := closeUnits ⟨y, v⟩ (t.ch n) v.closings
            z.closed = v.closed ++ k.cs
            ∧ (t.ctx c.val).recQ = x.recQ ++ (y.records v k.cs).1 ∧ (∀ e ∈ (y.records v k.cs).1, e.cc = v.commitAt + 20)
            ∧ (∀ e ∈ v.statEntries k.cs, ⟨v.commitAt + 20, c.val, some r.ser, .stat e.1 e.2.1 e.2.2⟩ ∈ (t.ch n).due)
            ∧ (∀ o ∈ k.offs, ∃ os, o ∈ os ∧ ⟨o.cc, c.val, some r.ser, .offs v.w.pseq os⟩ ∈ (t.ch n).due)))))
  ∧ (∀ (s : State) (n : ChanId) (c : CtxId) (r : Run) (k : Closing) (ps : List Nat) (rest : List Later),
    let t1 := (s.ch n.val).cyc + 1
    let x := s.ctx c.val
    let h := s.ch n.val
    let t := s.pass n.val t1
    Inv s → h.ticking = true → t1 < 2 ^ 64 → h.due = ⟨t1, c.val, some r.ser, .close k⟩ :: rest → (∀ e ∈ rest, t1 < e.cc) →
    x.run r.ser = some r → x.chan = n.val → t1 < k.w + 4 → r.prog.statFills = none →
    (∀ u, r.prog.units = some u → (Env.mk x r).closingReams u k = some ps) → r.prog.units ≠ none →
      (∀ i, (t.ch n.val).ream i = match (h.ream i).sh with
        | some d => if d.run = r.ser ∧ i ∈ ps then ⟨((h.ream i).com.combine d.part).1, none⟩ else h.ream i
        | none => h.ream i)
      ∧ ∃ y : Ctx, ∃ z ∈ (t.ctx c.val).runs, y.slots = x.slots ∧ y.rows = x.rows ∧ y.reambase = x.reambase ∧ y.reamreq = x.reamreq
        ∧ z.ser = r.ser ∧ z.phase = r.phase ∧ z.closed = r.closed ++ (closeUnits ⟨y, r⟩ (t.ch n.val) [k]).cs)
  ∧ (∀ (s : State) (n : ChanId) (e : Later) (rest : List Later),
    let h := s.ch n.val
    let t1 := h.cyc + 1
    let x := s.ctx e.ctx
    let t := s.pass n.val t1
    Inv s → h.ticking = true → t1 < 2 ^ 64 → h.due = e :: rest → e.cc = t1 → (∀ e ∈ rest, t1 < e.cc) →
      (∀ slot k v d, e.what = .stat slot k v → x.slot slot = some d →
        (d.copies.getD (statPlace d.decl k).1 Copy.fresh).st = .full →
        (d.copies.getD (statPlace d.decl k).1 Copy.fresh).group = (statPlace d.decl k).2.1 →
        (statPlace d.decl k).1 < d.copies.length →
        (t.ctx e.ctx).statEntry slot k = some v
          ∧ ∀ k', statPlace d.decl k' ≠ statPlace d.decl k → (t.ctx e.ctx).statEntry slot k' = x.statEntry slot k')
      ∧ (∀ p v row pseq iflt, e.what = .loss p v row pseq iflt →
        ((h.ream p).com.kind = .sum →
          (t.ch n.val).ream p = ⟨((h.ream p).com.combine ((RPart.clear .sum).admitSum (f32v v)).1).1, (h.ream p).sh⟩
          ∧ (∀ i, i ≠ p → (t.ch n.val).ream i = h.ream i) ∧ (t.ctx e.ctx).st = x.st)
        ∧ ((h.ream p).com.kind ≠ .sum → x.st = .bound ∨ x.st = .running →
          FaultTaken e.ctx 0x02 iflt s t ∧ ∀ i, ((t.ch n.val).ream i).com = (h.ream i).com)))
  ∧ (∀ (s : State) (n : ChanId) (c : CtxId) (r : Run) (k : Closing) (rest : List Later),
    let t1 := (s.ch n.val).cyc + 1
    let x := s.ctx c.val
    let h := s.ch n.val
    let t := s.pass n.val t1
    let w := r.prog.sampleW
    let f := elemFmt w.hfmt
    let Mine (e : SortRow) : Prop := e.ctx = c.val ∧ e.row = 2 * (k.k / w.s) + r.w.psel.toNat
    h.ticking = true → t1 < 2 ^ 64 → h.due = ⟨t1, c.val, some r.ser, .close k⟩ :: rest → (∀ e ∈ rest, t1 < e.cc) →
    x.run r.ser = some r → x.chan = n.val → r.mode = .sample → t1 ≤ k.w →
      (t.ctx c.val).st = x.st ∧ (t.ctx c.val).flags = x.flags ∧ (∀ i, (t.ch n.val).ream i = h.ream i)
      ∧ (∀ e ∈ h.sorter, ¬ Mine e → e ∈ (t.ch n.val).sorter)
      ∧ (r.prog.closes r.w.cbase = false ∨ (k.k + 1) % w.s ≠ 0 → (t.ctx c.val).smpctr = x.smpctr ∧ (t.ctx c.val).smpQ = x.smpQ
        ∧ ∀ e ∈ h.sorter, Mine e → e.commit r.ser w.k f ∈ (t.ch n.val).sorter)
      ∧ (r.prog.closes r.w.cbase = true → (k.k + 1) % w.s = 0 → ∀ com : List (Nat × Nat),
        (∀ e ∈ h.sorter, Mine e → com = (e.commit r.ser w.k f).com) → ((∀ e ∈ h.sorter, ¬ Mine e) → com = []) →
        let sel := sampleSelect com f w.p (jmix r.key r.strm x.smpctr)
        (t.ctx c.val).smpctr = x.smpctr + 1
        ∧ (t.ctx c.val).smpQ = x.smpQ ++ [⟨k.w + 14 + (w.k + 15) / 16, k.w, r.ser, w.win,
            16 * w.roff + 16 * (x.smpctr.toNat % 2 ^ w.rlog),
            sel.1 + sel.2.1 * 2 ^ 32 + x.smpctr.toNat % 2 ^ 32 * 2 ^ 64 + sel.2.2.1 * 2 ^ 96, w.evt⟩]
        ∧ ∀ e ∈ (t.ch n.val).sorter, ¬ Mine e))

/-- RUN_COMPLETE: the earliest run with nothing left to present or write leaves the context, once the last of what it brings about has
fallen due; RUNEV is set where the run asks for it, the lane groups are released where no other run holds them, CTXLOST's latest completed
PSEQ follows the latest-delivered run, and a RUNNING context with no started run left is BOUND. With no such run, or while the channel's
clock has stopped (R383), nothing happens (R180, R268, R269, R369, Table 9-2). The passing of time is log 4. -/
def Obligations.RunsCompleteWithNothingLeft : Prop :=
  ∀ (s : State) (c : CtxId), Inside s →
    let n := (s.ctx c.val).chan
    ((∀ q ∈ (s.ctx c.val).runs, s.completes c.val q = false) ∨ (s.ch n).frozen = true → exec (.runComplete c) s = .next s)
    ∧ (∀ r v, (s.ctx c.val).runs.find? (fun q => s.completes c.val q) = some r → (s.ch n).frozen = false →
      let p := s.pass n ((s.ch n).lastOf r.ser)
      let x := p.ctx c.val
      ((s.ch n).lastOf r.ser ≤ (s.ch n).cyc → NothingDue (s.ch n) (s.ch n).cyc → p = s)
      ∧ (x.run r.ser = some v → NoWordsWait x → (∀ q ∈ x.runs, q.phase = .started → q.base ≠ none) →
        ∃ t, exec (.runComplete c) s = .next t
      ∧ (t.ctx c.val).runs = x.runs.filter (fun q => q.ser != r.ser)
      ∧ (t.ctx c.val).st = (if x.st = .running ∧ (∀ q ∈ x.runs, q.ser ≠ r.ser → q.phase = .waiting) then .bound else x.st)
      ∧ (∃ e, (t.ctx c.val).cpseq = some e ∧ (e = (v.ser, v.w.pseq) ∨ some e = x.cpseq ∧ v.ser ≤ e.1))
      ∧ (t.tenant x.ten).tevpend = (if v.event then (p.tenant x.ten).tevpend ||| 0x1 else (p.tenant x.ten).tevpend)
      ∧ (t.ch (p.chanOf c.val)).holders =
          (if v.holds = true ∧ (∀ q ∈ x.runs, q.ser ≠ r.ser → q.holds = false) then
            (p.ch (p.chanOf c.val)).holders.map (fun g =>
              if g.now = some c.val then ⟨none, some c.val, (p.ch x.chan).cyc⟩ else g)
          else (p.ch (p.chanOf c.val)).holders)
      ∧ (∀ d, d ≠ c.val → t.ctx d = p.ctx d) ∧ (∀ m, m ≠ x.ten → t.tenant m = p.tenant m)
      ∧ { t with ctxs := p.ctxs, chans := p.chans, tenants := p.tenants } = p))

/-! ### Channels in service (Table 13-3, Table 13-5, Table 14-3) -/

/-- QUIESCE, RELEASE, REJOIN, TEST, POWER and OFF take a channel from the states in which Table 13-5 and Table 14-3 give them an effect, and
leave it alone in every other but for the uc in which a TEST is written, which is kept; no other channel and no context changes (R372 to
R374, R376, R385 to R388). A test and an OFF lose every SRAM (R371, R384); OFF sends a last report unless the clock has stopped (R405, log
62), and has no effect on a channel that is off with its switches open, that has a context or an open fence sequence, or into which a
maintenance load is in progress (R399, Tables 13-5 and 14-3). That RELEASE and REJOIN first mark the furnish copy, after which the channel
is READY, is the model's form (log 53). -/
def Obligations.ChannelCommandsMoveTheStates : Prop :=
  ∀ (s : State) (n : ChanId), Commanded s →
    let h := s.ch n.val
    (∃ t, exec (.quiesce n) s = .next t ∧ OnlyCh n.val s.initDone t
      ∧ t.ch n.val = if h.st = .ready then { h with st := .quiescing, qabort := false, quietAt := s.uc, copying := false } else h)
    ∧ (∃ t, exec (.release n) s = .next t ∧ OnlyCh n.val s.initDone t
      ∧ t.ch n.val = if h.st = .quiescing then { h with copying := true } else h)
    ∧ (∃ t, exec (.rejoin n) s = .next t ∧ OnlyCh n.val s.initDone t
      ∧ t.ch n.val =
        if h.imgbadMc = true ∨ h.imgbadTb = true then h
        else if h.st = .testing then { h with rjlatch := true }
        else if h.st = .fenced ∧ h.tres = 1 ∧ h.perm = false ∨ h.st = .quiescing ∧ h.alloc = [] then { h with copying := true } else h)
    ∧ (∃ t, exec (.test n) s = .next t ∧ OnlyCh n.val s.initDone t
      ∧ (h.st = .fenced → h.perm = false → h.fencing = true → t.ch n.val = { h with testLatch := true, testAt := some s.uc })
      ∧ (h.st = .fenced ∧ h.perm = false ∧ h.fencing = false ∨ h.st = .quiescing ∧ h.alloc = [] →
          (t.ch n.val).st = .testing ∧ (t.ch n.val).reams = [] ∧ (t.ch n.val).store = [] ∧ (t.ch n.val).loft = []
            ∧ (t.ch n.val).couch = [] ∧ (t.ch n.val).egress = [] ∧ (t.ch n.val).credits = [] ∧ (t.ch n.val).sorter = []
            ∧ (t.ch n.val).cyc = h.cyc ∧ (t.ch n.val).pstall = h.pstall ∧ (t.ch n.val).flag = h.flag ∧ (t.ch n.val).wtest = none
            ∧ (t.ch n.val).testAt = some s.uc)
      ∧ (h.st ≠ .fenced ∧ (h.st ≠ .quiescing ∨ h.alloc ≠ []) ∨ h.st = .fenced ∧ h.perm = true →
          t.ch n.val = { h with testAt := some s.uc }))
    ∧ (∃ t, exec (.power n) s = .next t ∧ OnlyCh n.val s.initDone t
      ∧ (h.st = .off → h.sdown = true → t.ch n.val = { h with onlatch := true })
      ∧ (h.st = .off → h.sdown = false → (t.ch n.val).st = .powering ∧ (t.ch n.val).cyc = 0
          ∧ (t.ch n.val).step = min (h.pchctl.extractLsb' 0 3).toNat 6 ∧ (t.ch n.val).thrpend = false ∧ (t.ch n.val).th = 0
          ∧ (t.ch n.val).pw = 0 ∧ (t.ch n.val).wexp = h.wexpStored ∧ (t.ch n.val).imgbadMc = false ∧ (t.ch n.val).imgbadTb = false)
      ∧ (h.st = .powering → t.ch n.val = { h with offlatch := false })
      ∧ (h.st ≠ .off → h.st ≠ .powering → t.ch n.val = h))
    ∧ (∃ t, exec (.off n) s = .next t ∧ OnlyCh n.val s.initDone t
      ∧ (h.st = .powering ∨ h.st = .testing → t.ch n.val = { h with offlatch := true })
      ∧ (h.st = .off → h.sdown = true → t.ch n.val = { h with onlatch := false })
      ∧ (h.alloc = [] → h.st = .ready ∨ h.st = .quiescing ∨ h.st = .fenced ∧ h.fencing = false →
          (∀ m, s.mnt = some m → m.kind = 1 ∨ m.ch ≠ n.val) →
          (t.ch n.val).st = .off ∧ (t.ch n.val).sdown = true ∧ (t.ch n.val).reams = [] ∧ (t.ch n.val).store = []
            ∧ (t.ch n.val).loft = [] ∧ (t.ch n.val).cycCopy = (if h.clkStop then h.cycCopy else h.cyc) ∧ (t.ch n.val).rjlatch = false
            ∧ (t.ch n.val).flag = h.flag ∧ (t.ch n.val).err = h.err)
      ∧ (h.st = .off ∧ h.sdown = false ∨ h.st = .fenced ∧ h.fencing = true
          ∨ (h.st = .ready ∨ h.st = .quiescing ∨ h.st = .fenced) ∧ (h.alloc ≠ [] ∨ ∃ m, s.mnt = some m ∧ m.kind ≠ 1 ∧ m.ch = n.val) →
        t.ch n.val = h))

/-- The events of a channel: open switches end the power-down and honour a latched POWER; power-up ends in READY with the ROM images and
the furnish master copied, FENCED for a channel fenced for good, or TESTING for a wrapper's test (R427); a furnish copy ends in READY; a
self-test that fails leaves the channel FENCED for good with its fault line bit set, one that passes leaves it FENCED, or goes on to a copy
where REJOIN is latched or AUTOREJOIN is 1 and FCOUNT below FLIMIT; a fence that is complete waits for TEST or begins its test; a drain
that times out returns to READY with a context still bound. While the channel's clock has stopped its switches, its power-up, its copy and
its self-test do not end; the write-back of a fence and the drain's time-out, which the uncore counts, do (R173, R371, R373, R374, R383,
R388, R389). The mark of a copy under way is log 53, and the uc to which DRAIN_TIMEOUT moves log 4. -/
def Obligations.ChannelEventsMoveTheStates : Prop :=
  ∀ (s : State) (n : ChanId), Inside s →
    let h := s.ch n.val
    (∃ t, exec (.switchesOpen n) s = .next t ∧ OnlyCh n.val s t
      ∧ (h.st = .off → h.sdown = true → h.onlatch = false → h.clkStop = false → t.ch n.val = { h with sdown := false })
      ∧ (h.st = .off → h.sdown = true → h.onlatch = true → h.clkStop = false → (t.ch n.val).st = .powering ∧ (t.ch n.val).sdown = false)
      ∧ (h.st ≠ .off ∨ h.sdown = false ∨ h.clkStop = true → t.ch n.val = h))
    ∧ (h.st = .powering → h.clkStop = false → h.offlatch = false → h.wtest = none → ∃ t, exec (.powerUpDone n) s = .next t
      ∧ OnlyCh n.val s t ∧ (t.ch n.val).st = (if h.perm then .fenced else .ready) ∧ (t.ch n.val).store = s.master
      ∧ (t.ch n.val).mcCrc = Config.romMicrocodeCrc ∧ (t.ch n.val).tbCrc = Config.romTableCrc ∧ (t.ch n.val).cycCopy = h.cyc
      ∧ (t.ch n.val).cyc = h.cyc ∧ (t.ch n.val).step = h.step)
    ∧ (h.st = .powering → h.clkStop = false → h.wtest ≠ none →
      exec (.powerUpDone n) s = .next (s.setCh n.val { h with st := .testing }))
    ∧ (h.st ≠ .powering ∨ h.clkStop = true → exec (.powerUpDone n) s = .next s)
    ∧ (h.st ≠ .powering → h.copying = true → h.offlatch = false → h.frozen = false → h.fencing = false ∨ h.testLatch = false →
      ∃ t, exec (.furnishCopyDone n) s = .next t ∧ OnlyCh n.val s t
      ∧ t.ch n.val = { h with st := .ready, store := s.master, copying := false, fencing := false, testLatch := false
                              rjlatch := false, wtest := none })
    ∧ (h.st = .powering → h.clkStop = false → h.fencing = false → h.wtest = none →
      exec (.furnishCopyDone n) s = .next (s.setCh n.val { h with store := s.master }))
    ∧ (h.st ≠ .powering → h.copying = false → exec (.furnishCopyDone n) s = .next s)
    ∧ (h.frozen = true → exec (.furnishCopyDone n) s = .next s)
    ∧ (∀ res, h.st = .testing → h.wtest = none → h.copying = false → h.clkStop = false → h.offlatch = false →
      (res ≠ .pass → exec (.selfTestDone n res) s = .next
        { s.setCh n.val { h with
            tres := if res = .mbistFail then 2 else 3, wtest := none, st := .fenced, perm := true, rjlatch := false } with
          ifstat := s.ifstat ||| BitVec.ofNat 21 (2 ^ (8 + n.val)) })
      ∧ (res = .pass → h.rjlatch = true ∨ h.fcfg.getLsbD 1 = true ∧ h.fcount < (h.fcfg.extractLsb' 2 4).toNat →
        exec (.selfTestDone n res) s = .next (s.setCh n.val { h with tres := 1, wtest := none, copying := true }))
      ∧ (res = .pass → h.rjlatch = false → h.fcfg.getLsbD 1 = false ∨ (h.fcfg.extractLsb' 2 4).toNat ≤ h.fcount →
        exec (.selfTestDone n res) s =
        .next (s.setCh n.val { h with tres := 1, wtest := none, st := .fenced, rjlatch := false })))
    ∧ (∀ res, h.clkStop = true → exec (.selfTestDone n res) s = .next s)
    ∧ (h.st ≠ .fenced ∨ h.fencing = false ∨ h.wb ≠ [] → exec (.fenceWritebackDone n) s = .next s)
    ∧ (h.st = .fenced → h.fencing = true → h.wb = [] → h.fcfg.getLsbD 0 = false → h.testLatch = false → h.offlatch = false →
      exec (.fenceWritebackDone n) s = .next (s.setCh n.val { h with fencing := false, testLatch := false }))
    ∧ (h.st = .fenced → h.fencing = true → h.wb = [] → h.fcfg.getLsbD 0 = true → h.perm = false → h.copying = false →
      ∃ t, exec (.fenceWritebackDone n) s = .next t ∧ OnlyCh n.val s t ∧ (t.ch n.val).st = .testing ∧ (t.ch n.val).reams = [])
    ∧ (h.st = .fenced → h.fencing = true → h.wb = [] → h.testLatch = true → h.perm = false →
      ∃ t, exec (.fenceWritebackDone n) s = .next t ∧ OnlyCh n.val s t ∧ (t.ch n.val).st = .testing ∧ (t.ch n.val).reams = []
        ∧ (t.ch n.val).wtest = h.wtest ∧ (t.ch n.val).rjlatch = h.copying)
    ∧ (h.st = .quiescing → h.copying = false → h.alloc ≠ [] → ∃ t, exec (.drainTimeout n) s = .next t
      ∧ t.ch n.val = { h with qabort := true, copying := true } ∧ t.uc = max s.uc (h.quietAt + h.drainTime)
      ∧ OnlyCh n.val { s with uc := t.uc } t)
    ∧ (h.st ≠ .quiescing ∨ h.copying = true → exec (.drainTimeout n) s = .next s)

/-- A fence, by FENCE, by an uncorrectable error in the Vat, the Loft, a ream, Couch or the egress buffer, by a parity error with no owner,
or by the RESLIMth residue or parity error of a window: the channel is FENCED with CHERR naming the source, the index and the low 32 bits
of CHCYC, CHFSTAT's count goes up, its fault line bit is set, its reams, store and buffers are lost, and no context is left on it: each that
it held is placed on another channel or FAULTED, with REBIND for its tenant. A channel that is neither READY nor QUIESCING ignores a
further cause; one whose clock has stopped is fenced when it resumes (R276, R360, R362, R365 to R369, R383). That CHERR's INDEX of the last
two sources is 0 is log 91, and that a fence waits for the clock log 53. -/
def Obligations.FenceEmptiesItsChannel : Prop :=
  (∀ (s : State) (n : ChanId) (k : Instr) (src : Nat) (i : BitVec 24), Reached s → s.ucrdy = true →
    (k = .fence n ∧ src = 8 ∧ i = 0 ∧ s.ctlBusy = false
      ∨ (∃ c, k = .uncorrectableError (.vat n (some c)) i) ∧ src = 1
      ∨ (∃ c line, k = .uncorrectableError (.loft n (some c) line) i ∧ (∀ l ∈ (s.ch n.val).wb, l.idx ≠ line)
          ∧ ∀ l ∈ (s.ch n.val).loft, l.idx = line → ∃ a ∈ (s.ch n.val).alloc, a.ctx = l.owner) ∧ src = 2
      ∨ (∃ c r, k = .uncorrectableError (.ream n (some c) r) i) ∧ src = 3
      ∨ k = .uncorrectableError (.couch n) i ∧ src = 4 ∨ k = .uncorrectableError (.egress n) i ∧ src = 5
      ∨ k = .parityError n none i ∧ src = 6) →
    let h := s.ch n.val
    (h.st ≠ .ready → h.st ≠ .quiescing → exec k s = .next s)
    ∧ (h.st = .ready ∨ h.st = .quiescing → h.clkStop = true → src ≠ 2 →
      exec k s = .next (s.setCh n.val { h with fenceLatch := some (h.fenceLatch.getD (src, i.toNat)) }))
    ∧ (h.st = .ready ∨ h.st = .quiescing → h.clkStop = false → ∃ t, exec k s = .next t ∧ Fenced n.val src i.toNat s t
      ∧ (∀ c, (∀ a ∈ h.alloc, a.ctx ≠ c) → t.ctx c = s.ctx c)))
  ∧ (∀ (s : State) (n : ChanId) (k : Instr) (c : CtxId) (code : Nat), Inside s →
    (k = .residueError c ∧ code = 0x04 ∨ (∃ i, k = .parityError n (some c) i) ∧ code = 0x05) →
    let h := s.ch n.val
    let x := s.ctx c.val
    s.hosted c.val = true → s.chanOf c.val = n.val → x.st = .bound ∨ x.st = .running → x.restoreWait = false →
    h.st = .ready ∨ h.st = .quiescing → h.clkStop = false → h.fcfg.extractLsb' 11 4 ≠ 0#4 →
    (if h.resWin = h.cyc / 2 ^ 24 then h.resCnt else 0) + 1 = (h.fcfg.extractLsb' 11 4).toNat →
    ∃ t, exec k s = .next t ∧ Fenced n.val 7 0 s t ∧ (t.ctx c.val).st = .faulted
      ∧ (t.ctx c.val).faultcode = (if x.faultcode = 0 then code else x.faultcode))

/-- A context whose FENCE placement finds a READY channel of RBMASK with room moves there: a RUNNING context is BOUND, its block is
UNSET, its slots are EMPTY, BALANCE is BUDGET, and it keeps its programs, generator fields and flags; one that finds none is FAULTED with
code 0x09 and granted nothing (R276, log 26). CTXLOST then names what was lost (R369): the loss bits, ORed with those of a fence before; the
runs lost, counted to 255, with the first and the last of them; and the latest completed run. The order of the placements and what a
context without room keeps are the model's reading (log 57), as is the run that CPSEQ names (log 58). -/
def Obligations.FenceMovesOrFaultsAContext : Prop :=
  ∀ (s : State) (n : ChanId) (a : Alloc), Commanded s → (s.ch n.val).st = .ready ∨ (s.ch n.val).st = .quiescing →
    (s.ch n.val).clkStop = false → (s.ch n.val).alloc = [a] → (s.ctx a.ctx).restoreWait = false →
    let x := s.ctx a.ctx
    let LostTo (t : State) : Prop :=
      let lost := (t.ctx a.ctx).lost
      let was := (x.lost.extractLsb' 8 8).toNat
      lost.getLsbD 0 = true
      ∧ (lost.getLsbD 1 = true ↔ x.lost.getLsbD 1 = true ∨ ∃ i < a.reams, ((s.ch n.val).ream (a.ream + i)).com.kind ≠ .unset)
      ∧ (lost.getLsbD 2 = true ↔ x.lost.getLsbD 2 = true ∨ ∃ sl ∈ x.slots, ∃ k ∈ sl.copies, k.st ≠ .empty)
      ∧ lost.getLsbD 3 = x.lost.getLsbD 3
      ∧ (lost.extractLsb' 8 8).toNat = min 255 (was + x.runs.length)
      ∧ (was ≠ 0 → lost.extractLsb' 16 16 = x.lost.extractLsb' 16 16)
      ∧ (∀ r rest, was = 0 → x.runs = r :: rest → (lost.extractLsb' 16 16).toNat = r.w.pseq % 65536)
      ∧ (∀ r rest, x.runs = rest ++ [r] → (lost.extractLsb' 32 16).toNat = r.w.pseq % 65536)
      ∧ (x.runs = [] → lost.extractLsb' 32 16 = x.lost.extractLsb' 32 16)
      ∧ (∀ e, x.cpseq = some e → lost.getLsbD 4 = true ∧ (lost.extractLsb' 48 16).toNat = e.2 % 65536)
      ∧ (x.cpseq = none → lost.getLsbD 4 = x.lost.getLsbD 4 ∧ lost.extractLsb' 48 16 = x.lost.extractLsb' 48 16)
    (∀ m, s.rebindTarget n.val x = some m → ∃ t base, exec (.fence n) s = .next t
      ∧ (s.ch m).placeReams x.reamreq = some base
      ∧ (t.ctx a.ctx).chan = m ∧ (t.ctx a.ctx).st = (if x.st = .running then .bound else x.st) ∧ (t.ctx a.ctx).reambase = base
      ∧ (t.ctx a.ctx).algrant = min x.alreq (s.ch m).freeLoft ∧ (t.ctx a.ctx).balance = satBal x.budget
      ∧ (t.ctx a.ctx).key = x.key ∧ (t.ctx a.ctx).smpctr = x.smpctr ∧ (t.ctx a.ctx).strm = x.strm ∧ (t.ctx a.ctx).starts = x.starts
      ∧ (t.ctx a.ctx).flags = x.flags ∧ (∀ sl ∈ (t.ctx a.ctx).slots, ∀ k ∈ sl.copies, k.st = .empty)
      ∧ (∀ i, base ≤ i → i < base + 4 * x.reamreq → (t.ch m).ream i = ReamCell.reset)
      ∧ LostTo t)
    ∧ (s.rebindTarget n.val x = none → ∃ t, exec (.fence n) s = .next t
      ∧ (t.ctx a.ctx).st = .faulted ∧ (t.ctx a.ctx).faultcode = (if x.faultcode = 0 then 0x09 else x.faultcode)
      ∧ (t.ctx a.ctx).algrant = 0 ∧ (t.ctx a.ctx).chan = x.chan ∧ LostTo t)

/-- Errors that fence nothing. Uncorrectable errors (Table 13-1): a word of the Vat, the Loft or a ream that no context holds is written as
zero and counted; a store's furnish word is copied from the master again; an entry of the mailbox is lost; one in the mill core's memory is
a mill core fault; the access of a slice's tag fails, so that its context faults with code 0x07; a word in a Headbox receiver leaves it, and
its context faults with code 0x05, or it counts as refused. A residue error faults its context with code 0x04 and a parity error of its beat
with 0x05, where RESLIM is 0 or its count is not reached (R365), and no other context changes; a corrected error counts in its island; a
scrub changes nothing; a duplicated word that fails in one copy raises DUPERR alone (IFSTAT[18]), and a furnish master word lost in both
copies is zero in the master and in every channel store. A word of a context's entry or status block lost in both copies reads zero where no
channel holds the context, and faults a bound context with code 0x0A; one of a tenant reads zero (R88, R361 to R365, R380; log 59,
log 60). -/
def Obligations.ErrorsStayWhereTheyAre : Prop :=
  ∀ s : State, Inside s →
    (∀ (c : CtxId) (k : Instr) (code : Nat), s.hosted c.val = true → s.chanOf c.val = (s.ctx c.val).chan →
      (s.ctx c.val).st = .bound ∨ (s.ctx c.val).st = .running →
      let h := s.ch (s.ctx c.val).chan
      h.fcfg.extractLsb' 11 4 = 0#4
        ∨ (if h.resWin = h.cyc / 2 ^ 24 then h.resCnt else 0) + 1 ≠ (h.fcfg.extractLsb' 11 4).toNat →
      (k = .residueError c ∧ code = 0x04
        ∨ (∃ (n : ChanId) (i : BitVec 24), k = .parityError n (some c) i ∧ n.val = (s.ctx c.val).chan) ∧ code = 0x05) →
      ∃ t, exec k s = .next t ∧ (t.ctx c.val).st = .faulted
        ∧ (t.ctx c.val).faultcode = (if (s.ctx c.val).faultcode = 0 then code else (s.ctx c.val).faultcode)
        ∧ (t.ctx c.val).runs = [] ∧ (t.tenant (s.ctx c.val).ten).tevpend = (s.tenant (s.ctx c.val).ten).tevpend ||| 0x2
        ∧ (∀ d, d ≠ c.val → t.ctx d = s.ctx d) ∧ (t.ch (s.ctx c.val).chan).st = h.st
        ∧ (t.ch (s.ctx c.val).chan).resCnt = (if h.resWin = h.cyc / 2 ^ 24 then h.resCnt else 0) + 1)
    ∧ (∀ n : ChanId, (s.ch n.val).ticking = true → exec (.correctedError (.chan n)) s =
      .next (s.setCh n.val { s.ch n.val with dCe := (s.ch n.val).dCe + 1 }))
    ∧ exec (.correctedError .uncore) s = .next { s with ucce := min (s.ucce + 1) 0xFFFFFFFF }
    ∧ (∀ i, exec (.scrub i) s = .next s)
    ∧ (∀ w, exec (.duplicateCopyError w false) s = .next { s with ifstat := s.ifstat ||| 0x40000 })
    ∧ (∀ slot hi, ∃ t, exec (.duplicateCopyError (.master slot hi) true) s = .next t ∧ t.ifstat = s.ifstat ||| 0x80000
      ∧ (∀ k, t.masterWord k = if k = slot then 0 else s.masterWord k)
      ∧ (∀ (n : ChanId) (k : Nat), (t.ch n.val).word k = if k = slot then 0 else (s.ch n.val).word k)
      ∧ (∀ n : ChanId, ∀ e ∈ (t.ch n.val).storeWait, e.1 ≠ slot ∧ e ∈ (s.ch n.val).storeWait)
      ∧ t.ctxs = s.ctxs ∧ t.tenants = s.tenants)
    ∧ (∀ (n : ChanId) (k : Instr) (i : BitVec 24), (s.ch n.val).ticking = true →
      (k = .uncorrectableError (.vat n none) i ∨ (∃ r, k = .uncorrectableError (.ream n none r) i)
        ∨ ∃ j, k = .uncorrectableError (.loft n none j) i ∧ (∀ l ∈ (s.ch n.val).loft ++ (s.ch n.val).wb, l.idx ≠ j)) →
      exec k s = .next (s.setCh n.val { s.ch n.val with dCe := (s.ch n.val).dCe + 1 }))
    ∧ (∀ (n : ChanId) (slot : Nat) (i : BitVec 24), ∃ t, exec (.uncorrectableError (.furnish n slot) i) s = .next t ∧ OnlyCh n.val s t
      ∧ (∀ k, (t.ch n.val).word k = if k = slot then s.masterWord slot else (s.ch n.val).word k)
      ∧ { t.ch n.val with store := (s.ch n.val).store } = s.ch n.val)
    ∧ (∀ (j : Nat) (i : BitVec 24), ∃ t, exec (.uncorrectableError (.mailbox j) i) s = .next t ∧ { t with mailbox := s.mailbox } = s
      ∧ ∀ k, t.mailbox[k]? = if k = j then (s.mailbox[k]?).map (fun e => { e with lost := true }) else s.mailbox[k]?)
    ∧ (∀ (b : Bool) (i : BitVec 24), exec (.uncorrectableError (.millMemory b) i) s = exec .millCoreFault s)
    ∧ (∀ (sl : SliceId) (tag : Fin 64) (i : BitVec 24), let k := Instr.uncorrectableError (.feltSlice sl tag) i
      ((∀ o ∈ (s.slice sl.val).out, o.tag ≠ tag.val) → exec k s = .next s)
      ∧ (∀ o, (s.slice sl.val).out.find? (fun o => o.tag == tag.val) = some o → o.failed = false → o.acc.kind ≠ .load → o.acc.kind ≠ .maint →
        (s.ctx o.acc.ctx).st = .bound ∨ (s.ctx o.acc.ctx).st = .running → ∃ t, exec k s = .next t ∧ (t.ctx o.acc.ctx).st = .faulted
          ∧ (t.ctx o.acc.ctx).faultcode = (if (s.ctx o.acc.ctx).faultcode = 0 then 0x07 else (s.ctx o.acc.ctx).faultcode)
          ∧ ∀ p ∈ (t.slice sl.val).out, p.tag = tag.val → p.failed = true))
    ∧ (∀ (rx : ChanId) (j : Nat) (i : BitVec 24), let k := Instr.uncorrectableError (.headbox rx j) i
      ((s.rxq rx.val)[j]? = none → exec k s = .next s)
      ∧ (∀ w, (s.rxq rx.val)[j]? = some w → ∃ t, exec k s = .next t
        ∧ t.rxq rx.val = (s.rxq rx.val).filter (fun v => v.ser != w.ser) ∧ (∀ m, m ≠ rx.val → t.rxq m = s.rxq m)
        ∧ (Refused s w.ctx w.ten → t.ctxs = s.ctxs ∧ (t.tenant w.ten).trefcnt = min ((s.tenant w.ten).trefcnt + 1) 0xFFFFFFFF)
        ∧ (¬ Refused s w.ctx w.ten → (t.ctx w.ctx).st = .faulted
          ∧ (t.ctx w.ctx).faultcode = (if (s.ctx w.ctx).faultcode = 0 then 0x05 else (s.ctx w.ctx).faultcode))))
    ∧ (∀ (m : TenId) (r : Fin 16), ∃ t, exec (.duplicateCopyError (.tenant m r) true) s = .next t
      ∧ t.readReg (tenantBase m.val + 8 * r.val) = 0 ∧ t.ifstat = s.ifstat ||| 0x80000
      ∧ (∀ k : Fin 16, k ≠ r → t.readReg (tenantBase m.val + 8 * k.val) = s.readReg (tenantBase m.val + 8 * k.val))
      ∧ OnlyTenant m.val { s with ifstat := t.ifstat } t)
    ∧ (∀ (c : CtxId) (r : Fin 16), s.homeOf c.val = none → ∃ t, exec (.duplicateCopyError (.status c r) true) s = .next t
      ∧ t.readReg (statusBase c.val + 8 * r.val) = 0 ∧ t.ifstat = s.ifstat ||| 0x80000 ∧ OnlyCtx c.val { s with ifstat := t.ifstat } t)
    ∧ (∀ (c : CtxId) (r : Fin 16), s.homeOf c.val ≠ none → ∃ t, exec (.duplicateCopyError (.status c r) true) s = .next t
      ∧ (t.ctx c.val).st = .faulted ∧ (t.ctx c.val).faultcode = 0x0A ∧ (∀ d, d ≠ c.val → t.ctx d = s.ctx d))
    ∧ (∀ (c : CtxId) (r : Fin 8), s.homeOf c.val = none → (∀ n, ∀ e ∈ (s.ch n).laneRes, e.ctx ≠ c.val) →
      ∃ t, exec (.duplicateCopyError (.entry c r) true) s = .next t
      ∧ t.readReg (entryBase c.val + 8 * r.val) = 0 ∧ t.ifstat = s.ifstat ||| 0x80000 ∧ OnlyCtx c.val { s with ifstat := t.ifstat } t)
    ∧ (∀ (c : CtxId) (r : Fin 8), s.homeOf c.val ≠ none → ∃ t, exec (.duplicateCopyError (.entry c r) true) s = .next t
      ∧ (t.ctx c.val).st = .faulted ∧ (t.ctx c.val).faultcode = 0x0A ∧ (∀ d, d ≠ c.val → t.ctx d = s.ctx d))

/-! ### Throttle, power and budget (R271, R272, R329, R396, R397, R405, R409) -/

/-- THROTTLE_DECISION in a multiple of 2^16 cc: the thermal term goes to 6 at the critical temperature, up or down by one at the two
thresholds, and is 0 while automatic throttling is off; the target is the floor or, within the ceiling, the greater of that term and the
power-limit term that has crossed to the channel, by what CHPCTL held before that cc (R415); a step towards it is announced unless one is
pending (R396). The announced step takes
effect 4,096 cc later (R329). A power estimate sets pw and brings it to the channels that work (R397, log 78). The passing of time to those
cycles is log 4. -/
def Obligations.ThrottleStepsTowardsItsTarget : Prop :=
  ∀ (s : State) (n : ChanId) (temp : BitVec 8), Inside s → (s.ch n.val).ticking = true →
    let cc := nextMultiple (s.ch n.val).cyc (s.ch n.val).decided 65536
    let p := s.pass n.val cc
    let h := p.ch n.val
    let pw := if p.plimit = 0 then 0 else h.pw
    let ctl := h.pchAt cc
    let th := if ctl.getLsbD 6 = false then 0
      else if (ctl.extractLsb' 23 8).toInt ≤ temp.toInt then 6
      else if (ctl.extractLsb' 7 8).toInt ≤ temp.toInt then min (h.th + 1) 6
      else if temp.toInt ≤ (ctl.extractLsb' 15 8).toInt then h.th - 1 else h.th
    let target := max (min (ctl.extractLsb' 0 3).toNat 6) (min (min (ctl.extractLsb' 3 3).toNat 6) (max th pw))
    (cc % 65536 = 0 ∧ (s.ch n.val).cyc < cc + 65536 ∧ ∃ t, exec (.throttleDecision n temp) s = .next t ∧ OnlyCh n.val p t
      ∧ (t.ch n.val).th = th ∧ (t.ch n.val).temp = temp ∧ (t.ch n.val).cyc = h.cyc ∧ (t.ch n.val).pchctl = h.pchctl
      ∧ (h.thrpend = false → (t.ch n.val).step = h.step ∧ ((t.ch n.val).thrpend = true ↔ target ≠ h.step)
        ∧ (target > h.step → (t.ch n.val).next = h.step + 1) ∧ (target < h.step → (t.ch n.val).next = h.step - 1)
        ∧ (target = h.step → (t.ch n.val).next = h.next)))
    ∧ ((s.ch n.val).thrpend = true →
        let u := s.pass n.val ((s.ch n.val).thrAt + 4096)
        exec (.throttleStepEffect n) s = .next (u.setCh n.val { u.ch n.val with step := (u.ch n.val).next, thrpend := false }))
    ∧ (∀ mw, ∃ t, exec (.powerEstimate mw) s = .next t ∧ { t with uc := s.uc, estAt := s.estAt, pw := s.pw, chans := s.chans } = s
      ∧ s.uc ≤ t.uc
      ∧ t.pw = (if s.plimit = 0 then 0
          else if 1000 * s.plimit.toNat < mw then min 6 (s.pw + 1)
          else if 10 * mw ≤ 9 * (1000 * s.plimit.toNat) then s.pw - 1 else s.pw)
      ∧ ∀ m : ChanId, t.ch m.val = if (s.ch m.val).ticking = true ∧ (s.ch m.val).st ≠ .powering then { s.ch m.val with pw := t.pw }
          else s.ch m.val)

/-- BUDGET_REFILL at the start of a window: BUDGET as it stands comes into force for each context bound to the channel (log 51), and BALANCE
becomes the lesser of itself and zero plus BUDGET, saturating; BUDGET 0 leaves BALANCE; a stored window exponent comes into force only
where a window begins under both sizes (R271, R272, R409). The passing of time to that cycle is log 4. CHANNEL_REPORT brings the channel's
counts to the registers, all at once (R405, log 16). -/
def Obligations.WindowsRefillTheBalances : Prop :=
  ∀ (s : State) (n : ChanId), Inside s → (s.ch n.val).ticking = true →
    let cc := nextMultiple (s.ch n.val).cyc (s.ch n.val).refilled (2 ^ (s.ch n.val).wexp)
    let p := s.pass n.val cc
    (cc % 2 ^ (s.ch n.val).wexp = 0 ∧ ∃ t, exec (.budgetRefill n) s = .next t
      ∧ { t.ch n.val with refilled := (p.ch n.val).refilled, wexp := (p.ch n.val).wexp } = p.ch n.val
      ∧ (t.ch n.val).refilled = cc + 1
      ∧ ((p.ch n.val).wexpStored = (s.ch n.val).wexpStored → (t.ch n.val).wexp =
          if (s.ch n.val).wexpAt ≤ cc ∧ cc % 2 ^ max (s.ch n.val).wexp (s.ch n.val).wexpStored = 0
            then (s.ch n.val).wexpStored else (p.ch n.val).wexp)
      ∧ (∀ c, (∃ a ∈ (s.ch n.val).alloc, a.ctx = c) → (t.ctx c).budForce = (p.ctx c).budget
          ∧ ((p.ctx c).budget = 0 → (t.ctx c).balance = (p.ctx c).balance)
          ∧ ((p.ctx c).budget ≠ 0 → ((s.ch n.val).alloc.map fun a => a.ctx).Nodup →
              (t.ctx c).balance = satBal (min (p.ctx c).balance 0 + (p.ctx c).budget))
          ∧ { t.ctx c with budForce := (p.ctx c).budForce, balance := (p.ctx c).balance } = p.ctx c)
      ∧ (∀ c, (∀ a ∈ (s.ch n.val).alloc, a.ctx ≠ c) → t.ctx c = p.ctx c)
      ∧ { t with ctxs := p.ctxs, chans := p.chans } = p)
    ∧ (∃ t, exec (.channelReport n) s = .next t ∧ OnlyCh n.val s t
      ∧ (t.ch n.val).cycCopy = (s.ch n.val).cyc ∧ (t.ch n.val).tempCopy = (s.ch n.val).temp
      ∧ (t.ch n.val).thrCopy = ⟨(s.ch n.val).step, (s.ch n.val).thrpend, (s.ch n.val).next, (s.ch n.val).thrsrc⟩
      ∧ (t.ch n.val).pstall = min ((s.ch n.val).pstall + (s.ch n.val).dPstall) 0xFFFFFFFFFFFFFFFF ∧ (t.ch n.val).dPstall = 0
      ∧ (t.ch n.val).starve = min ((s.ch n.val).starve + (s.ch n.val).dStarve) 0xFFFFFFFFFFFFFFFF ∧ (t.ch n.val).dStarve = 0
      ∧ (t.ch n.val).crederr = min ((s.ch n.val).crederr + (s.ch n.val).dCrederr) 0xFFFFFFFF ∧ (t.ch n.val).dCrederr = 0
      ∧ (t.ch n.val).ce = min ((s.ch n.val).ce + (s.ch n.val).dCe) 0xFFFFFFFF ∧ (t.ch n.val).dCe = 0
      ∧ (t.ch n.val).cyc = (s.ch n.val).cyc)

/-! ### The test wrapper (R422 to R428, R433) -/

/-- The wrapper: an instruction acts only under the segments of Table 16-4, and WS_CLAMP and WS_SAFE hold outputs alone. Each shifts its
code and segment into WIR, the old shift stage leaving on WSO, and drives nothing but the wrapper (R339, R422, log 75); WS_EXTEST loaded
while JRST_N is 1 leaves the state undefined (R433); WRSTN makes WIR zero; the unlock value opens the vendor modes within four tries (R428);
CaptureWR takes the identification under JW_IDCODE (R425), and under WS_EXTEST and WS_PRELOAD the level of JRST_N and those of the inputs as
the pins have them, the outputs having free levels while the state is undefined (R433, log 5); UpdateWR takes the cells of the segment under
WS_PRELOAD (R423, log 79). JW_MBIST and JW_LBIST request a test: of an OFF channel, which powers up for it, of one that is FENCED or
drained, as TEST does, held while its fence is open; or they are REFUSED, of a channel whose switches are still closed and of one for which
TEST is written in the same uc too (Table 16-8, log 30). The end of the test sets DONE, leaves REFUSED, and a channel that
was OFF returns to OFF (R427, R433, log 54). -/
def Obligations.WrapperLoadsCapturesAndTests : Prop :=
  ∀ (s : State) (g : BitVec 4),
    let Loaded (code : BitVec 4) (t : State) : Prop :=
      t.wrap.wir = g ++ code ∧ t.wrap.wirShift = g ++ code
      ∧ (∀ k < 8, Tbl.look false t.wrap.wso k = s.wrap.wirShift.getLsbD (7 - k))
      ∧ { t.wrap with wir := s.wrap.wir, wirShift := s.wrap.wirShift, wso := s.wrap.wso } = s.wrap
    (∀ k code, (k = .wsBypass g ∧ code = 0x0 ∨ k = .wsPreload g ∧ code = 0x2 ∨ k = .wsClamp g ∧ code = 0x3 ∨ k = .wsSafe g ∧ code = 0x4
        ∨ k = .jwIdcode g ∧ code = 0x5 ∨ k = .jwVendor g ∧ code = 0xF) →
      ∃ t, exec k s = .next t ∧ OnlyWrap s t ∧ Loaded (BitVec.ofNat 4 code) t)
    ∧ (∃ t, exec (.wsExtest g) s = .next t ∧ Loaded 0x1#4 t ∧ { t with wrap := s.wrap, undef := s.undef } = s
      ∧ (s.jrst = true → t.undef = s.undef)
      ∧ (s.jrst = false → g.toNat ≤ 8 ∨ g.toNat = 15 → t.undef = true))
    ∧ (9 ≤ g.toNat → g.toNat ≤ 14 → ∀ code : BitVec 4, wirIns (g ++ code) = .bypass)
    ∧ (∀ cell, wirIns s.wrap.wir = .clamp ∨ wirIns s.wrap.wir = .safe → cellOut cell = false → s.wrap.drives cell = none)
    ∧ exec .wrapperReset s = .next { s with wrap := { s.wrap with wir := 0 } }
    ∧ (∀ v, wirIns s.wrap.wir = .vendor → ∃ t, exec (.vendorUnlock v) s = .next t ∧ OnlyWrap s t ∧ t.wrap.unlockReg = v
        ∧ t.wrap.wir = s.wrap.wir ∧ (∀ k < 32, Tbl.look false t.wrap.wso k = s.wrap.unlockReg.getLsbD (31 - k))
        ∧ (s.wrap.opened = false → s.wrap.tries < 4 → t.wrap.opened = decide (v = Config.unlockValue)
            ∧ t.wrap.tries = if v = Config.unlockValue then s.wrap.tries else s.wrap.tries + 1)
        ∧ (s.wrap.opened = true ∨ 4 ≤ s.wrap.tries → t.wrap.opened = s.wrap.opened ∧ t.wrap.tries = s.wrap.tries))
    ∧ (∀ v, wirIns s.wrap.wir ≠ .vendor → exec (.vendorUnlock v) s = .next s)
    ∧ (∀ pins, wirIns s.wrap.wir = .idcode → exec (.wrapperCapture pins) s = .next { s with wrap := { s.wrap with idreg := idcode } })
    ∧ (wirIns s.wrap.wir = .extest ∨ wirIns s.wrap.wir = .preload → ∀ pins, ∃ t, exec (.wrapperCapture pins) s = .next t
      ∧ OnlyWrap { s with freeCtr := t.freeCtr } t ∧ (s.undef = false → t.freeCtr = s.freeCtr)
      ∧ (s.undef = true → ∀ cell, cellOut cell = true →
          (segRange (wirSeg s.wrap.wir)).1 ≤ cell → cell < (segRange (wirSeg s.wrap.wir)).2 → let i := cell - (segRange (wirSeg s.wrap.wir)).1
          Tbl.look false t.wrap.shift cell = (Config.freeValue (s.freeCtr + i / 64)).getLsbD (i % 64))
      ∧ (wirSeg s.wrap.wir = 8 → Tbl.look false t.wrap.shift jrstCell = !s.jrst)
      ∧ (∀ cell level, pins = [(cell, level)] → cellOut cell = false → cell ≠ jrstCell →
          (segRange (wirSeg s.wrap.wir)).1 ≤ cell → cell < (segRange (wirSeg s.wrap.wir)).2 → Tbl.look false t.wrap.shift cell = level))
    ∧ (∀ cells, ∃ t, exec (.boundaryRegisterUpdate cells) s = .next t ∧ OnlyWrap s t ∧ t.wrap.wir = s.wrap.wir
      ∧ (∀ cell level, wirIns s.wrap.wir = .preload → cells = [(cell, level)] → cell ≠ jrstCell →
          (segRange (wirSeg s.wrap.wir)).1 ≤ cell → cell < (segRange (wirSeg s.wrap.wir)).2 → Tbl.look false t.wrap.update cell = level))
    ∧ (∀ (n : ChanId) (k : Instr) (lb : Bool), Inside s →
      (k = .jwMbist (BitVec.ofNat 4 n.val) ∧ lb = false ∨ k = .jwLbist (BitVec.ofNat 4 n.val) ∧ lb = true) →
      let h := s.ch n.val
      let Busy (t : State) : Prop := (t.bist n.val).busy = true ∧ (t.bist n.val).done = false ∧ (t.bist n.val).refused = false
      let Now : Prop := h.testAt = some s.uc
      (h.st = .off → h.sdown = false → ¬ Now →
        ∃ t, exec k s = .next t ∧ (t.ch n.val).st = .powering ∧ (t.ch n.val).wtest = some ⟨true, lb⟩ ∧ Busy t)
      ∧ (¬ Now → h.st = .fenced ∧ h.perm = false ∧ h.fencing = false ∨ h.st = .quiescing ∧ h.alloc = [] →
        ∃ t, exec k s = .next t ∧ (t.ch n.val).st = .testing ∧ (t.ch n.val).wtest = some ⟨false, lb⟩ ∧ Busy t)
      ∧ (h.st = .fenced → h.perm = false → ¬ Now → h.fencing = true →
        ∃ t, exec k s = .next t ∧ t.ch n.val = { h with testLatch := true, wtest := some (h.wtest.getD ⟨false, lb⟩) } ∧ Busy t)
      ∧ (h.st = .ready ∨ h.st = .powering ∨ h.st = .testing ∨ h.st = .off ∧ h.sdown = true ∨ h.st = .fenced ∧ h.perm = true
          ∨ h.st = .quiescing ∧ h.alloc ≠ [] ∨ Now → ∃ t, exec k s = .next t
        ∧ t.ch n.val = h ∧ (t.bist n.val).refused = true ∧ t.chans = s.chans ∧ t.ctxs = s.ctxs))
    ∧ (∀ (n : ChanId) (res : TestResult) (f : BitVec 16) (off lb : Bool), Inside s → (s.ch n.val).st = .testing → (s.ch n.val).clkStop = false →
      (s.ch n.val).offlatch = false → (s.ch n.val).wtest = some ⟨off, lb⟩ → ∃ t, exec (.wrapperBistDone n res f) s = .next t
        ∧ (t.ch n.val).wtest = none ∧ (t.bist n.val).done = true ∧ (t.bist n.val).busy = false
        ∧ (t.bist n.val).refused = (s.bist n.val).refused
        ∧ (off = true → (t.ch n.val).st = .off ∧ (t.ch n.val).rjlatch = false)
        ∧ (res = .pass → (t.bist n.val).tres = 1 ∧ (t.ch n.val).perm = (s.ch n.val).perm)
        ∧ (res ≠ .pass → (t.bist n.val).tres = (if lb then 3 else 2) ∧ (t.bist n.val).first = f ∧ (t.ch n.val).perm = true
            ∧ (off = false → (t.ch n.val).st = .fenced) ∧ t.ifstat.getLsbD (8 + n.val) = true))

/-! ### Reams -/

/-- The sum of a SUM ream does not depend on the order in which its terms enter, nor on how they are split between a committed part and a
shadow that is combined into it (R82, R99), and the candidates that a sorter keeps are the k highest whatever the order in which they are
offered (R248, R250). The conversion that closes a value rounds to nearest even on the grid of its format, with the flags of R57; into an
integer it clamps with invalid (R58); saturation acts on E4M3 and E5M2 only (R59, R60); a code of a finite value other than zero converts
to itself (R56); and an MX block takes the scale of its largest finite magnitude, the code 0xFF with a NaN, 0x7F without a finite value
other than zero (R64). -/
def Obligations.SumsDoNotDependOnOrderOrSplit : Prop :=
  (∀ (d : RPart) (ts us : List Val), ts.Perm us →
    ts.foldl (fun e t => (e.admitSum t).1) d = us.foldl (fun e t => (e.admitSum t).1) d)
  ∧ (∀ (a : RPart) (ts us : List Val), a.kind = .sum → a.tally < 2 ^ 32 →
      let whole := (ts ++ us).foldl (fun e t => (e.admitSum t).1) a
      let split := ((ts.foldl (fun e t => (e.admitSum t).1) a).combine (us.foldl (fun e t => (e.admitSum t).1) a.openShadow)).1
      split.w = whole.w ∧ split.tally = whole.tally ∧ split.nan = whole.nan ∧ split.pinf = whole.pinf ∧ split.ninf = whole.ninf
        ∧ split.kind = .sum ∧ split.offset = a.offset)
  ∧ (∀ (f : Fmt) (k : Nat) (xs ys : List (Nat × Nat)), xs.Perm ys → (xs.map Prod.snd).Nodup →
      let kept (l : List (Nat × Nat)) := l.foldl (fun c x => candInsert f k x c) []
      kept ys = kept xs ∧ (kept xs).length = min k xs.length ∧ (kept xs).Pairwise (fun a b => candAbove f a b = true)
        ∧ (∀ x ∈ kept xs, x ∈ xs) ∧ ∀ x ∈ xs, x ∉ kept xs → ∀ y ∈ kept xs, candAbove f y x = true)
  ∧ (∀ (f : Fmt) (q : XQ) (e : Int), f.isInt = false → 0 < q.d → Binade (ratOf q) e →
      let x := ratOf q
      let g := (2 : ℚ) ^ (max e f.emin - f.mant)
      ∃ k j : Int, NearestEven (x / g) k ∧ NearestEven (x / (2 : ℚ) ^ (e - f.mant)) j
        ∧ let big := ratOf f.maxFin < |k * g|
          let tiny := |j * (2 : ℚ) ^ (e - f.mant)| < (2 : ℚ) ^ f.emin
          (roundRne (.fin q) f).2 = flIf (k * g ≠ x ∨ big) flInexact ||| flIf (tiny ∧ k * g ≠ x) flUnderflow ||| flIf big flOverflow
          ∧ (big → (roundRne (.fin q) f).1 = if f = .e4m3 then .nan else .inf (q.n < 0))
          ∧ (¬ big → ∃ p : XQ, (roundRne (.fin q) f).1 = .fin p ∧ ratOf p = k * g))
  ∧ (∀ (w : Nat) (q : XQ) (n : Int), w = 8 ∨ w = 32 → 0 < q.d → NearestEven (ratOf q) n →
      let hi : Int := 2 ^ (w - 1) - 1
      toIntRound (.fin q) w = (if (hi + 1 : ℚ) < |ratOf q| ∨ hi < n then (Val.ofInt (if 0 < ratOf q then hi else -hi - 1), flInvalid)
        else (Val.ofInt n, flIf (n ≠ ratOf q) flInexact))
      ∧ toIntRound .nan w = (Val.zero, flInvalid) ∧ ∀ b, toIntRound (.inf b) w = (Val.ofInt (if b then -hi - 1 else hi), flInvalid))
  ∧ (∀ (f : Fmt) (v : Val), (f ≠ .e4m3 → f ≠ .e5m2 → convert v f true = convert v f false)
      ∧ (f = .e4m3 ∨ f = .e5m2 →
        let top (b : Bool) : Val := .fin (if b then f.maxFin.neg else f.maxFin)
        (∀ b, convert (.inf b) f true = (top b, flOverflow)) ∧ convert .nan f true = convert .nan f false
        ∧ ∀ q, convert (.fin q) f true = (match (convert (.fin q) f false).1 with
            | .fin y => .fin y
            | _ => top (q.n < 0), (convert (.fin q) f false).2)))
  ∧ (∀ (f : Fmt) (b : Nat) (q : XQ) (sat : Bool), b < 2 ^ f.width → decode b f = .fin q → q.n ≠ 0 →
      convertCode (decode b f) f sat = (b, flNone))
  ∧ (∀ (elem : Fmt) (vals : List Val), elem = .e4m3 ∨ elem = .e5m2 → (∀ q : XQ, .fin q ∈ vals → 0 < q.d) →
      let (c, codes, fl) := mxQuantise vals elem
      (.nan ∈ vals → c = 0xFF ∧ codes = vals.map (fun _ => elem.nanCode) ∧ fl = flNone)
      ∧ (.nan ∉ vals → codes = vals.map (fun v => (convertCode (v.scale (127 - (c : Int))) elem true).1)
          ∧ fl = vals.foldl (fun s v => s ||| (convertCode (v.scale (127 - (c : Int))) elem true).2) flNone
          ∧ ((∀ q : XQ, .fin q ∈ vals → q.n = 0) → c = 0x7F)
          ∧ ∀ (e : Int) (q : XQ), .fin q ∈ vals → Binade (ratOf q) e → (∀ r : XQ, .fin r ∈ vals → |ratOf r| < (2 : ℚ) ^ (e + 1)) →
              (c : Int) = min (max (e - if elem = .e4m3 then 8 else 15) (-127)) 127 + 127))

/-! ### The invariant -/

/-- The state after reset has the invariant; its register values are those of the spec where it gives them (log 6). -/
def Obligations.ResetHasTheInvariant : Prop := Inv State.reset

/-- Every step keeps the invariant, from every state that has it: the tables of the state in canonical form, the Couch buffer within its
32 entries (R316), a receiver within 64 words (R313), the mailbox within 64 entries (R378), the throttle codes within 0 to 6 (R395,
R397) and the window exponents within 10 to 24 (R409). -/
def Obligations.EveryStepKeepsTheInvariant : Prop :=
  ∀ s t : State, Inv s → Machine.step s = .next t → Inv t
end

