-- ==== Sys2Proof/Laws/Table.lean ====
section
/-! SUPPORT. Laws of sparse tables: a read after a write, and that every write keeps the canonical form. -/
namespace Sys2Proof.Machine

variable {α : Type}

theorem Tbl.look_ins_same (d : α) (t : Tbl α) (k : Nat) (v : α) (h : ∀ e ∈ t, e.1 ≠ k) :
    Tbl.look d (Tbl.ins k v t) k = v := by
  induction t with
  | nil => simp [Tbl.ins, Tbl.look]
  | cons e r ih =>
    obtain ⟨a, x⟩ := e
    have ha : a ≠ k := h (a, x) (by simp)
    simp only [Tbl.ins]
    split
    · simp [Tbl.look]
    · simp only [Tbl.look, ha, if_false]
      exact ih fun e he => h e (by simp [he])

theorem Tbl.look_ins_other (d : α) (t : Tbl α) (k j : Nat) (v : α) (h : j ≠ k) :
    Tbl.look d (Tbl.ins k v t) j = Tbl.look d t j := by
  induction t with
  | nil => simp [Tbl.ins, Tbl.look, Ne.symm h]
  | cons e r ih =>
    obtain ⟨a, x⟩ := e
    simp only [Tbl.ins]
    split
    · simp [Tbl.look, Ne.symm h]
    · simp only [Tbl.look, ih]

theorem Tbl.drop_ne (t : Tbl α) (k : Nat) : ∀ e ∈ Tbl.drop k t, e.1 ≠ k := by
  induction t with
  | nil => simp [Tbl.drop]
  | cons e r ih =>
    obtain ⟨a, x⟩ := e
    simp only [Tbl.drop]
    split
    · exact ih
    · intro e he
      rcases List.mem_cons.mp he with rfl | h
      · assumption
      · exact ih e h

theorem Tbl.look_of_ne (d : α) (t : Tbl α) (k : Nat) (h : ∀ e ∈ t, e.1 ≠ k) : Tbl.look d t k = d := by
  induction t with
  | nil => rfl
  | cons e r ih =>
    obtain ⟨a, x⟩ := e
    have ha : a ≠ k := h (a, x) (by simp)
    simp only [Tbl.look, ha, if_false]
    exact ih fun e he => h e (by simp [he])

theorem Tbl.look_drop_other (d : α) (t : Tbl α) (k j : Nat) (h : j ≠ k) :
    Tbl.look d (Tbl.drop k t) j = Tbl.look d t j := by
  induction t with
  | nil => rfl
  | cons e r ih =>
    obtain ⟨a, x⟩ := e
    simp only [Tbl.drop]
    split
    · rename_i hk; subst hk; simp [Tbl.look, Ne.symm h, ih]
    · simp [Tbl.look, ih]

/-- A read of the key just written gives the value written. -/
@[simp] theorem Tbl.look_put_same [DecidableEq α] (d : α) (t : Tbl α) (k : Nat) (v : α) :
    Tbl.look d (Tbl.put d t k v) k = v := by
  unfold Tbl.put
  split
  · rename_i h; rw [h]; exact Tbl.look_of_ne d _ k (Tbl.drop_ne t k)
  · exact Tbl.look_ins_same d _ k v (Tbl.drop_ne t k)

/-- A write leaves every other key alone. -/
@[simp] theorem Tbl.look_put_other [DecidableEq α] (d : α) (t : Tbl α) (k j : Nat) (v : α) (h : j ≠ k) :
    Tbl.look d (Tbl.put d t k v) j = Tbl.look d t j := by
  unfold Tbl.put
  split
  · exact Tbl.look_drop_other d t k j h
  · rw [Tbl.look_ins_other d _ k j v h]; exact Tbl.look_drop_other d t k j h

theorem Tbl.wfFrom_weaken [DecidableEq α] (d : α) (t : Tbl α) (a b : Nat) (h : a ≤ b)
    (hw : Tbl.wfFrom d (some b) t = true) : Tbl.wfFrom d (some a) t = true := by
  cases t with
  | nil => rfl
  | cons e r =>
    obtain ⟨k, x⟩ := e
    simp only [Tbl.wfFrom, Bool.and_eq_true, decide_eq_true_eq] at hw ⊢
    exact ⟨⟨by omega, hw.1.2⟩, hw.2⟩

theorem Tbl.wfFrom_none [DecidableEq α] (d : α) (t : Tbl α) (a : Nat)
    (hw : Tbl.wfFrom d (some a) t = true) : Tbl.wfFrom d none t = true := by
  cases t with
  | nil => rfl
  | cons e r =>
    obtain ⟨k, x⟩ := e
    simp only [Tbl.wfFrom, Bool.and_eq_true, decide_eq_true_eq] at hw ⊢
    exact ⟨⟨trivial, hw.1.2⟩, hw.2⟩

theorem Tbl.wfFrom_drop [DecidableEq α] (d : α) (t : Tbl α) (k : Nat) :
    ∀ lo, Tbl.wfFrom d lo t = true → Tbl.wfFrom d lo (Tbl.drop k t) = true := by
  induction t with
  | nil => intro lo h; exact h
  | cons e r ih =>
    obtain ⟨a, x⟩ := e
    intro lo h
    simp only [Tbl.wfFrom, Bool.and_eq_true, decide_eq_true_eq] at h
    simp only [Tbl.drop]
    split
    · have hr := ih (some a) h.2
      cases lo with
      | none => exact Tbl.wfFrom_none d _ a hr
      | some b =>
        have hb : b < a := by simpa using h.1.1
        exact Tbl.wfFrom_weaken d _ b a (Nat.le_of_lt hb) hr
    · simp only [Tbl.wfFrom, Bool.and_eq_true, decide_eq_true_eq]
      exact ⟨h.1, ih _ h.2⟩

theorem Tbl.wfFrom_ins [DecidableEq α] (d : α) (t : Tbl α) (k : Nat) (v : α) (hv : v ≠ d) :
    ∀ lo, (∀ b, lo = some b → b < k) → (∀ e ∈ t, e.1 ≠ k) → Tbl.wfFrom d lo t = true →
      Tbl.wfFrom d lo (Tbl.ins k v t) = true := by
  induction t with
  | nil =>
    intro lo hlo _ _
    cases lo with
    | none => simp [Tbl.ins, Tbl.wfFrom, hv]
    | some b => simp [Tbl.ins, Tbl.wfFrom, hv, hlo b rfl]
  | cons e r ih =>
    obtain ⟨a, x⟩ := e
    intro lo hlo hne h
    simp only [Tbl.wfFrom, Bool.and_eq_true, decide_eq_true_eq] at h
    simp only [Tbl.ins]
    split
    · rename_i hk
      simp only [Tbl.wfFrom, Bool.and_eq_true, decide_eq_true_eq]
      refine ⟨⟨?_, hv⟩, ⟨hk, h.1.2⟩, h.2⟩
      cases lo with
      | none => trivial
      | some b => simpa using hlo b rfl
    · rename_i hk
      have hak : a ≠ k := hne (a, x) (by simp)
      simp only [Tbl.wfFrom, Bool.and_eq_true, decide_eq_true_eq]
      refine ⟨h.1, ih (some a) ?_ (fun e he => hne e (by simp [he])) h.2⟩
      intro b hb; cases hb; omega

/-- Every write keeps the canonical form. -/
theorem Tbl.wf_put [DecidableEq α] (d : α) (t : Tbl α) (k : Nat) (v : α) (h : Tbl.wf d t = true) :
    Tbl.wf d (Tbl.put d t k v) = true := by
  unfold Tbl.put Tbl.wf at *
  split
  · exact Tbl.wfFrom_drop d t k none h
  · rename_i hv
    exact Tbl.wfFrom_ins d _ k v hv none (by intro b hb; cases hb) (Tbl.drop_ne t k) (Tbl.wfFrom_drop d t k none h)

theorem Tbl.wf_puts [DecidableEq α] (d : α) (es : List (Nat × α)) :
    ∀ t : Tbl α, Tbl.wf d t = true → Tbl.wf d (Tbl.puts d t es) = true := by
  induction es with
  | nil => intro t h; exact h
  | cons e r ih =>
    intro t h
    exact ih _ (Tbl.wf_put d t e.1 e.2 h)

end Sys2Proof.Machine
end

