-- ==== Sys2Proof/Laws/State.lean ====
section
/-! SUPPORT. What a read finds after each update of the state: one lemma for each field and update, all by definition, so that no
proof unfolds a record; and the guards of a command where the command acts. -/
namespace Sys2Proof.Machine
open Sys2Proof.Safety

variable (s : State)

/-! ### setCh -/

@[simp] theorem State.setCh_pending (n : Nat) (c : Channel) : (s.setCh n c).pending = s.pending := rfl
@[simp] theorem State.setCh_jrst (n : Nat) (c : Channel) : (s.setCh n c).jrst = s.jrst := rfl
@[simp] theorem State.setCh_ucrdy (n : Nat) (c : Channel) : (s.setCh n c).ucrdy = s.ucrdy := rfl
@[simp] theorem State.setCh_undef (n : Nat) (c : Channel) : (s.setCh n c).undef = s.undef := rfl
@[simp] theorem State.setCh_uc (n : Nat) (c : Channel) : (s.setCh n c).uc = s.uc := rfl
@[simp] theorem State.setCh_freeCtr (n : Nat) (c : Channel) : (s.setCh n c).freeCtr = s.freeCtr := rfl
@[simp] theorem State.setCh_seq (n : Nat) (c : Channel) : (s.setCh n c).seq = s.seq := rfl
@[simp] theorem State.setCh_ctlRdata (n : Nat) (c : Channel) : (s.setCh n c).ctlRdata = s.ctlRdata := rfl
@[simp] theorem State.setCh_ctxs (n : Nat) (c : Channel) : (s.setCh n c).ctxs = s.ctxs := rfl
@[simp] theorem State.setCh_tenants (n : Nat) (c : Channel) : (s.setCh n c).tenants = s.tenants := rfl
@[simp] theorem State.setCh_slices (n : Nat) (c : Channel) : (s.setCh n c).slices = s.slices := rfl
@[simp] theorem State.setCh_rx (n : Nat) (c : Channel) : (s.setCh n c).rx = s.rx := rfl
@[simp] theorem State.setCh_master (n : Nat) (c : Channel) : (s.setCh n c).master = s.master := rfl
@[simp] theorem State.setCh_rxAt (n : Nat) (c : Channel) : (s.setCh n c).rxAt = s.rxAt := rfl
@[simp] theorem State.setCh_staging (n : Nat) (c : Channel) : (s.setCh n c).staging = s.staging := rfl
@[simp] theorem State.setCh_fsRej (n : Nat) (c : Channel) : (s.setCh n c).fsRej = s.fsRej := rfl
@[simp] theorem State.setCh_fsLslot (n : Nat) (c : Channel) : (s.setCh n c).fsLslot = s.fsLslot := rfl
@[simp] theorem State.setCh_ifstat (n : Nat) (c : Channel) : (s.setCh n c).ifstat = s.ifstat := rfl
@[simp] theorem State.setCh_ifmask (n : Nat) (c : Channel) : (s.setCh n c).ifmask = s.ifmask := rfl
@[simp] theorem State.setCh_ucce (n : Nat) (c : Channel) : (s.setCh n c).ucce = s.ucce := rfl
@[simp] theorem State.setCh_mailbox (n : Nat) (c : Channel) : (s.setCh n c).mailbox = s.mailbox := rfl
@[simp] theorem State.setCh_mill (n : Nat) (c : Channel) : (s.setCh n c).mill = s.mill := rfl
@[simp] theorem State.setCh_mntAddr (n : Nat) (c : Channel) : (s.setCh n c).mntAddr = s.mntAddr := rfl
@[simp] theorem State.setCh_mntDone (n : Nat) (c : Channel) : (s.setCh n c).mntDone = s.mntDone := rfl
@[simp] theorem State.setCh_mntErr (n : Nat) (c : Channel) : (s.setCh n c).mntErr = s.mntErr := rfl
@[simp] theorem State.setCh_mntCode (n : Nat) (c : Channel) : (s.setCh n c).mntCode = s.mntCode := rfl
@[simp] theorem State.setCh_mnt (n : Nat) (c : Channel) : (s.setCh n c).mnt = s.mnt := rfl
@[simp] theorem State.setCh_pstep (n : Nat) (c : Channel) : (s.setCh n c).pstep = s.pstep := rfl
@[simp] theorem State.setCh_plimit (n : Nat) (c : Channel) : (s.setCh n c).plimit = s.plimit := rfl
@[simp] theorem State.setCh_pw (n : Nat) (c : Channel) : (s.setCh n c).pw = s.pw := rfl
@[simp] theorem State.setCh_estAt (n : Nat) (c : Channel) : (s.setCh n c).estAt = s.estAt := rfl
@[simp] theorem State.setCh_dbgen (n : Nat) (c : Channel) : (s.setCh n c).dbgen = s.dbgen := rfl
@[simp] theorem State.setCh_dbgCh (n : Nat) (c : Channel) : (s.setCh n c).dbgCh = s.dbgCh := rfl
@[simp] theorem State.setCh_dbgReam (n : Nat) (c : Channel) : (s.setCh n c).dbgReam = s.dbgReam := rfl
@[simp] theorem State.setCh_dbgView (n : Nat) (c : Channel) : (s.setCh n c).dbgView = s.dbgView := rfl
@[simp] theorem State.setCh_dbgWait (n : Nat) (c : Channel) : (s.setCh n c).dbgWait = s.dbgWait := rfl
@[simp] theorem State.setCh_snapDesc (n : Nat) (c : Channel) : (s.setCh n c).snapDesc = s.snapDesc := rfl
@[simp] theorem State.setCh_snapWord (n : Nat) (c : Channel) : (s.setCh n c).snapWord = s.snapWord := rfl
@[simp] theorem State.setCh_wrap (n : Nat) (c : Channel) : (s.setCh n c).wrap = s.wrap := rfl
@[simp] theorem State.setCh_ucKHz (n : Nat) (c : Channel) : (s.setCh n c).ucKHz = s.ucKHz := rfl
@[simp] theorem State.setCh_chKHz (n : Nat) (c : Channel) : (s.setCh n c).chKHz = s.chKHz := rfl
@[simp] theorem State.setCh_ctx (n : Nat) (c : Channel) (k : Nat) : (s.setCh n c).ctx k = s.ctx k := rfl
@[simp] theorem State.setCh_tenant (n : Nat) (c : Channel) (k : Nat) : (s.setCh n c).tenant k = s.tenant k := rfl
@[simp] theorem State.setCh_slice (n : Nat) (c : Channel) (k : Nat) : (s.setCh n c).slice k = s.slice k := rfl
@[simp] theorem State.setCh_rxq (n : Nat) (c : Channel) (k : Nat) : (s.setCh n c).rxq k = s.rxq k := rfl
@[simp] theorem State.setCh_masterWord (n : Nat) (c : Channel) (k : Nat) : (s.setCh n c).masterWord k = s.masterWord k := rfl
@[simp] theorem State.setCh_ch_same (n : Nat) (c : Channel) : (s.setCh n c).ch n = c := Tbl.look_put_same ..
@[simp] theorem State.setCh_ch_other (n : Nat) (c : Channel) (k : Nat) (h : k ≠ n) : (s.setCh n c).ch k = s.ch k :=
  Tbl.look_put_other _ _ _ _ _ h

/-! ### setCtx -/

@[simp] theorem State.setCtx_pending (n : Nat) (c : Ctx) : (s.setCtx n c).pending = s.pending := rfl
@[simp] theorem State.setCtx_jrst (n : Nat) (c : Ctx) : (s.setCtx n c).jrst = s.jrst := rfl
@[simp] theorem State.setCtx_ucrdy (n : Nat) (c : Ctx) : (s.setCtx n c).ucrdy = s.ucrdy := rfl
@[simp] theorem State.setCtx_undef (n : Nat) (c : Ctx) : (s.setCtx n c).undef = s.undef := rfl
@[simp] theorem State.setCtx_uc (n : Nat) (c : Ctx) : (s.setCtx n c).uc = s.uc := rfl
@[simp] theorem State.setCtx_freeCtr (n : Nat) (c : Ctx) : (s.setCtx n c).freeCtr = s.freeCtr := rfl
@[simp] theorem State.setCtx_seq (n : Nat) (c : Ctx) : (s.setCtx n c).seq = s.seq := rfl
@[simp] theorem State.setCtx_ctlRdata (n : Nat) (c : Ctx) : (s.setCtx n c).ctlRdata = s.ctlRdata := rfl
@[simp] theorem State.setCtx_chans (n : Nat) (c : Ctx) : (s.setCtx n c).chans = s.chans := rfl
@[simp] theorem State.setCtx_tenants (n : Nat) (c : Ctx) : (s.setCtx n c).tenants = s.tenants := rfl
@[simp] theorem State.setCtx_slices (n : Nat) (c : Ctx) : (s.setCtx n c).slices = s.slices := rfl
@[simp] theorem State.setCtx_rx (n : Nat) (c : Ctx) : (s.setCtx n c).rx = s.rx := rfl
@[simp] theorem State.setCtx_master (n : Nat) (c : Ctx) : (s.setCtx n c).master = s.master := rfl
@[simp] theorem State.setCtx_rxAt (n : Nat) (c : Ctx) : (s.setCtx n c).rxAt = s.rxAt := rfl
@[simp] theorem State.setCtx_staging (n : Nat) (c : Ctx) : (s.setCtx n c).staging = s.staging := rfl
@[simp] theorem State.setCtx_fsRej (n : Nat) (c : Ctx) : (s.setCtx n c).fsRej = s.fsRej := rfl
@[simp] theorem State.setCtx_fsLslot (n : Nat) (c : Ctx) : (s.setCtx n c).fsLslot = s.fsLslot := rfl
@[simp] theorem State.setCtx_ifstat (n : Nat) (c : Ctx) : (s.setCtx n c).ifstat = s.ifstat := rfl
@[simp] theorem State.setCtx_ifmask (n : Nat) (c : Ctx) : (s.setCtx n c).ifmask = s.ifmask := rfl
@[simp] theorem State.setCtx_ucce (n : Nat) (c : Ctx) : (s.setCtx n c).ucce = s.ucce := rfl
@[simp] theorem State.setCtx_mailbox (n : Nat) (c : Ctx) : (s.setCtx n c).mailbox = s.mailbox := rfl
@[simp] theorem State.setCtx_mill (n : Nat) (c : Ctx) : (s.setCtx n c).mill = s.mill := rfl
@[simp] theorem State.setCtx_mntAddr (n : Nat) (c : Ctx) : (s.setCtx n c).mntAddr = s.mntAddr := rfl
@[simp] theorem State.setCtx_mntDone (n : Nat) (c : Ctx) : (s.setCtx n c).mntDone = s.mntDone := rfl
@[simp] theorem State.setCtx_mntErr (n : Nat) (c : Ctx) : (s.setCtx n c).mntErr = s.mntErr := rfl
@[simp] theorem State.setCtx_mntCode (n : Nat) (c : Ctx) : (s.setCtx n c).mntCode = s.mntCode := rfl
@[simp] theorem State.setCtx_mnt (n : Nat) (c : Ctx) : (s.setCtx n c).mnt = s.mnt := rfl
@[simp] theorem State.setCtx_pstep (n : Nat) (c : Ctx) : (s.setCtx n c).pstep = s.pstep := rfl
@[simp] theorem State.setCtx_plimit (n : Nat) (c : Ctx) : (s.setCtx n c).plimit = s.plimit := rfl
@[simp] theorem State.setCtx_pw (n : Nat) (c : Ctx) : (s.setCtx n c).pw = s.pw := rfl
@[simp] theorem State.setCtx_estAt (n : Nat) (c : Ctx) : (s.setCtx n c).estAt = s.estAt := rfl
@[simp] theorem State.setCtx_dbgen (n : Nat) (c : Ctx) : (s.setCtx n c).dbgen = s.dbgen := rfl
@[simp] theorem State.setCtx_dbgCh (n : Nat) (c : Ctx) : (s.setCtx n c).dbgCh = s.dbgCh := rfl
@[simp] theorem State.setCtx_dbgReam (n : Nat) (c : Ctx) : (s.setCtx n c).dbgReam = s.dbgReam := rfl
@[simp] theorem State.setCtx_dbgView (n : Nat) (c : Ctx) : (s.setCtx n c).dbgView = s.dbgView := rfl
@[simp] theorem State.setCtx_dbgWait (n : Nat) (c : Ctx) : (s.setCtx n c).dbgWait = s.dbgWait := rfl
@[simp] theorem State.setCtx_snapDesc (n : Nat) (c : Ctx) : (s.setCtx n c).snapDesc = s.snapDesc := rfl
@[simp] theorem State.setCtx_snapWord (n : Nat) (c : Ctx) : (s.setCtx n c).snapWord = s.snapWord := rfl
@[simp] theorem State.setCtx_wrap (n : Nat) (c : Ctx) : (s.setCtx n c).wrap = s.wrap := rfl
@[simp] theorem State.setCtx_ucKHz (n : Nat) (c : Ctx) : (s.setCtx n c).ucKHz = s.ucKHz := rfl
@[simp] theorem State.setCtx_chKHz (n : Nat) (c : Ctx) : (s.setCtx n c).chKHz = s.chKHz := rfl
@[simp] theorem State.setCtx_ch (n : Nat) (c : Ctx) (k : Nat) : (s.setCtx n c).ch k = s.ch k := rfl
@[simp] theorem State.setCtx_tenant (n : Nat) (c : Ctx) (k : Nat) : (s.setCtx n c).tenant k = s.tenant k := rfl
@[simp] theorem State.setCtx_slice (n : Nat) (c : Ctx) (k : Nat) : (s.setCtx n c).slice k = s.slice k := rfl
@[simp] theorem State.setCtx_rxq (n : Nat) (c : Ctx) (k : Nat) : (s.setCtx n c).rxq k = s.rxq k := rfl
@[simp] theorem State.setCtx_masterWord (n : Nat) (c : Ctx) (k : Nat) : (s.setCtx n c).masterWord k = s.masterWord k := rfl
@[simp] theorem State.setCtx_ctx_same (n : Nat) (c : Ctx) : (s.setCtx n c).ctx n = c := Tbl.look_put_same ..
@[simp] theorem State.setCtx_ctx_other (n : Nat) (c : Ctx) (k : Nat) (h : k ≠ n) : (s.setCtx n c).ctx k = s.ctx k :=
  Tbl.look_put_other _ _ _ _ _ h

/-! ### setTenant -/

@[simp] theorem State.setTenant_pending (n : Nat) (c : Tenant) : (s.setTenant n c).pending = s.pending := rfl
@[simp] theorem State.setTenant_jrst (n : Nat) (c : Tenant) : (s.setTenant n c).jrst = s.jrst := rfl
@[simp] theorem State.setTenant_ucrdy (n : Nat) (c : Tenant) : (s.setTenant n c).ucrdy = s.ucrdy := rfl
@[simp] theorem State.setTenant_undef (n : Nat) (c : Tenant) : (s.setTenant n c).undef = s.undef := rfl
@[simp] theorem State.setTenant_uc (n : Nat) (c : Tenant) : (s.setTenant n c).uc = s.uc := rfl
@[simp] theorem State.setTenant_freeCtr (n : Nat) (c : Tenant) : (s.setTenant n c).freeCtr = s.freeCtr := rfl
@[simp] theorem State.setTenant_seq (n : Nat) (c : Tenant) : (s.setTenant n c).seq = s.seq := rfl
@[simp] theorem State.setTenant_ctlRdata (n : Nat) (c : Tenant) : (s.setTenant n c).ctlRdata = s.ctlRdata := rfl
@[simp] theorem State.setTenant_chans (n : Nat) (c : Tenant) : (s.setTenant n c).chans = s.chans := rfl
@[simp] theorem State.setTenant_ctxs (n : Nat) (c : Tenant) : (s.setTenant n c).ctxs = s.ctxs := rfl
@[simp] theorem State.setTenant_slices (n : Nat) (c : Tenant) : (s.setTenant n c).slices = s.slices := rfl
@[simp] theorem State.setTenant_rx (n : Nat) (c : Tenant) : (s.setTenant n c).rx = s.rx := rfl
@[simp] theorem State.setTenant_master (n : Nat) (c : Tenant) : (s.setTenant n c).master = s.master := rfl
@[simp] theorem State.setTenant_rxAt (n : Nat) (c : Tenant) : (s.setTenant n c).rxAt = s.rxAt := rfl
@[simp] theorem State.setTenant_staging (n : Nat) (c : Tenant) : (s.setTenant n c).staging = s.staging := rfl
@[simp] theorem State.setTenant_fsRej (n : Nat) (c : Tenant) : (s.setTenant n c).fsRej = s.fsRej := rfl
@[simp] theorem State.setTenant_fsLslot (n : Nat) (c : Tenant) : (s.setTenant n c).fsLslot = s.fsLslot := rfl
@[simp] theorem State.setTenant_ifstat (n : Nat) (c : Tenant) : (s.setTenant n c).ifstat = s.ifstat := rfl
@[simp] theorem State.setTenant_ifmask (n : Nat) (c : Tenant) : (s.setTenant n c).ifmask = s.ifmask := rfl
@[simp] theorem State.setTenant_ucce (n : Nat) (c : Tenant) : (s.setTenant n c).ucce = s.ucce := rfl
@[simp] theorem State.setTenant_mailbox (n : Nat) (c : Tenant) : (s.setTenant n c).mailbox = s.mailbox := rfl
@[simp] theorem State.setTenant_mill (n : Nat) (c : Tenant) : (s.setTenant n c).mill = s.mill := rfl
@[simp] theorem State.setTenant_mntAddr (n : Nat) (c : Tenant) : (s.setTenant n c).mntAddr = s.mntAddr := rfl
@[simp] theorem State.setTenant_mntDone (n : Nat) (c : Tenant) : (s.setTenant n c).mntDone = s.mntDone := rfl
@[simp] theorem State.setTenant_mntErr (n : Nat) (c : Tenant) : (s.setTenant n c).mntErr = s.mntErr := rfl
@[simp] theorem State.setTenant_mntCode (n : Nat) (c : Tenant) : (s.setTenant n c).mntCode = s.mntCode := rfl
@[simp] theorem State.setTenant_mnt (n : Nat) (c : Tenant) : (s.setTenant n c).mnt = s.mnt := rfl
@[simp] theorem State.setTenant_pstep (n : Nat) (c : Tenant) : (s.setTenant n c).pstep = s.pstep := rfl
@[simp] theorem State.setTenant_plimit (n : Nat) (c : Tenant) : (s.setTenant n c).plimit = s.plimit := rfl
@[simp] theorem State.setTenant_pw (n : Nat) (c : Tenant) : (s.setTenant n c).pw = s.pw := rfl
@[simp] theorem State.setTenant_estAt (n : Nat) (c : Tenant) : (s.setTenant n c).estAt = s.estAt := rfl
@[simp] theorem State.setTenant_dbgen (n : Nat) (c : Tenant) : (s.setTenant n c).dbgen = s.dbgen := rfl
@[simp] theorem State.setTenant_dbgCh (n : Nat) (c : Tenant) : (s.setTenant n c).dbgCh = s.dbgCh := rfl
@[simp] theorem State.setTenant_dbgReam (n : Nat) (c : Tenant) : (s.setTenant n c).dbgReam = s.dbgReam := rfl
@[simp] theorem State.setTenant_dbgView (n : Nat) (c : Tenant) : (s.setTenant n c).dbgView = s.dbgView := rfl
@[simp] theorem State.setTenant_dbgWait (n : Nat) (c : Tenant) : (s.setTenant n c).dbgWait = s.dbgWait := rfl
@[simp] theorem State.setTenant_snapDesc (n : Nat) (c : Tenant) : (s.setTenant n c).snapDesc = s.snapDesc := rfl
@[simp] theorem State.setTenant_snapWord (n : Nat) (c : Tenant) : (s.setTenant n c).snapWord = s.snapWord := rfl
@[simp] theorem State.setTenant_wrap (n : Nat) (c : Tenant) : (s.setTenant n c).wrap = s.wrap := rfl
@[simp] theorem State.setTenant_ucKHz (n : Nat) (c : Tenant) : (s.setTenant n c).ucKHz = s.ucKHz := rfl
@[simp] theorem State.setTenant_chKHz (n : Nat) (c : Tenant) : (s.setTenant n c).chKHz = s.chKHz := rfl
@[simp] theorem State.setTenant_ch (n : Nat) (c : Tenant) (k : Nat) : (s.setTenant n c).ch k = s.ch k := rfl
@[simp] theorem State.setTenant_ctx (n : Nat) (c : Tenant) (k : Nat) : (s.setTenant n c).ctx k = s.ctx k := rfl
@[simp] theorem State.setTenant_slice (n : Nat) (c : Tenant) (k : Nat) : (s.setTenant n c).slice k = s.slice k := rfl
@[simp] theorem State.setTenant_rxq (n : Nat) (c : Tenant) (k : Nat) : (s.setTenant n c).rxq k = s.rxq k := rfl
@[simp] theorem State.setTenant_masterWord (n : Nat) (c : Tenant) (k : Nat) : (s.setTenant n c).masterWord k = s.masterWord k := rfl
@[simp] theorem State.setTenant_tenant_same (n : Nat) (c : Tenant) : (s.setTenant n c).tenant n = c := Tbl.look_put_same ..
@[simp] theorem State.setTenant_tenant_other (n : Nat) (c : Tenant) (k : Nat) (h : k ≠ n) : (s.setTenant n c).tenant k = s.tenant k :=
  Tbl.look_put_other _ _ _ _ _ h

/-! ### setSlice -/

@[simp] theorem State.setSlice_pending (n : Nat) (c : Slice) : (s.setSlice n c).pending = s.pending := rfl
@[simp] theorem State.setSlice_jrst (n : Nat) (c : Slice) : (s.setSlice n c).jrst = s.jrst := rfl
@[simp] theorem State.setSlice_ucrdy (n : Nat) (c : Slice) : (s.setSlice n c).ucrdy = s.ucrdy := rfl
@[simp] theorem State.setSlice_undef (n : Nat) (c : Slice) : (s.setSlice n c).undef = s.undef := rfl
@[simp] theorem State.setSlice_uc (n : Nat) (c : Slice) : (s.setSlice n c).uc = s.uc := rfl
@[simp] theorem State.setSlice_freeCtr (n : Nat) (c : Slice) : (s.setSlice n c).freeCtr = s.freeCtr := rfl
@[simp] theorem State.setSlice_seq (n : Nat) (c : Slice) : (s.setSlice n c).seq = s.seq := rfl
@[simp] theorem State.setSlice_ctlRdata (n : Nat) (c : Slice) : (s.setSlice n c).ctlRdata = s.ctlRdata := rfl
@[simp] theorem State.setSlice_chans (n : Nat) (c : Slice) : (s.setSlice n c).chans = s.chans := rfl
@[simp] theorem State.setSlice_ctxs (n : Nat) (c : Slice) : (s.setSlice n c).ctxs = s.ctxs := rfl
@[simp] theorem State.setSlice_tenants (n : Nat) (c : Slice) : (s.setSlice n c).tenants = s.tenants := rfl
@[simp] theorem State.setSlice_rx (n : Nat) (c : Slice) : (s.setSlice n c).rx = s.rx := rfl
@[simp] theorem State.setSlice_master (n : Nat) (c : Slice) : (s.setSlice n c).master = s.master := rfl
@[simp] theorem State.setSlice_rxAt (n : Nat) (c : Slice) : (s.setSlice n c).rxAt = s.rxAt := rfl
@[simp] theorem State.setSlice_staging (n : Nat) (c : Slice) : (s.setSlice n c).staging = s.staging := rfl
@[simp] theorem State.setSlice_fsRej (n : Nat) (c : Slice) : (s.setSlice n c).fsRej = s.fsRej := rfl
@[simp] theorem State.setSlice_fsLslot (n : Nat) (c : Slice) : (s.setSlice n c).fsLslot = s.fsLslot := rfl
@[simp] theorem State.setSlice_ifstat (n : Nat) (c : Slice) : (s.setSlice n c).ifstat = s.ifstat := rfl
@[simp] theorem State.setSlice_ifmask (n : Nat) (c : Slice) : (s.setSlice n c).ifmask = s.ifmask := rfl
@[simp] theorem State.setSlice_ucce (n : Nat) (c : Slice) : (s.setSlice n c).ucce = s.ucce := rfl
@[simp] theorem State.setSlice_mailbox (n : Nat) (c : Slice) : (s.setSlice n c).mailbox = s.mailbox := rfl
@[simp] theorem State.setSlice_mill (n : Nat) (c : Slice) : (s.setSlice n c).mill = s.mill := rfl
@[simp] theorem State.setSlice_mntAddr (n : Nat) (c : Slice) : (s.setSlice n c).mntAddr = s.mntAddr := rfl
@[simp] theorem State.setSlice_mntDone (n : Nat) (c : Slice) : (s.setSlice n c).mntDone = s.mntDone := rfl
@[simp] theorem State.setSlice_mntErr (n : Nat) (c : Slice) : (s.setSlice n c).mntErr = s.mntErr := rfl
@[simp] theorem State.setSlice_mntCode (n : Nat) (c : Slice) : (s.setSlice n c).mntCode = s.mntCode := rfl
@[simp] theorem State.setSlice_mnt (n : Nat) (c : Slice) : (s.setSlice n c).mnt = s.mnt := rfl
@[simp] theorem State.setSlice_pstep (n : Nat) (c : Slice) : (s.setSlice n c).pstep = s.pstep := rfl
@[simp] theorem State.setSlice_plimit (n : Nat) (c : Slice) : (s.setSlice n c).plimit = s.plimit := rfl
@[simp] theorem State.setSlice_pw (n : Nat) (c : Slice) : (s.setSlice n c).pw = s.pw := rfl
@[simp] theorem State.setSlice_estAt (n : Nat) (c : Slice) : (s.setSlice n c).estAt = s.estAt := rfl
@[simp] theorem State.setSlice_dbgen (n : Nat) (c : Slice) : (s.setSlice n c).dbgen = s.dbgen := rfl
@[simp] theorem State.setSlice_dbgCh (n : Nat) (c : Slice) : (s.setSlice n c).dbgCh = s.dbgCh := rfl
@[simp] theorem State.setSlice_dbgReam (n : Nat) (c : Slice) : (s.setSlice n c).dbgReam = s.dbgReam := rfl
@[simp] theorem State.setSlice_dbgView (n : Nat) (c : Slice) : (s.setSlice n c).dbgView = s.dbgView := rfl
@[simp] theorem State.setSlice_dbgWait (n : Nat) (c : Slice) : (s.setSlice n c).dbgWait = s.dbgWait := rfl
@[simp] theorem State.setSlice_snapDesc (n : Nat) (c : Slice) : (s.setSlice n c).snapDesc = s.snapDesc := rfl
@[simp] theorem State.setSlice_snapWord (n : Nat) (c : Slice) : (s.setSlice n c).snapWord = s.snapWord := rfl
@[simp] theorem State.setSlice_wrap (n : Nat) (c : Slice) : (s.setSlice n c).wrap = s.wrap := rfl
@[simp] theorem State.setSlice_ucKHz (n : Nat) (c : Slice) : (s.setSlice n c).ucKHz = s.ucKHz := rfl
@[simp] theorem State.setSlice_chKHz (n : Nat) (c : Slice) : (s.setSlice n c).chKHz = s.chKHz := rfl
@[simp] theorem State.setSlice_ch (n : Nat) (c : Slice) (k : Nat) : (s.setSlice n c).ch k = s.ch k := rfl
@[simp] theorem State.setSlice_ctx (n : Nat) (c : Slice) (k : Nat) : (s.setSlice n c).ctx k = s.ctx k := rfl
@[simp] theorem State.setSlice_tenant (n : Nat) (c : Slice) (k : Nat) : (s.setSlice n c).tenant k = s.tenant k := rfl
@[simp] theorem State.setSlice_rxq (n : Nat) (c : Slice) (k : Nat) : (s.setSlice n c).rxq k = s.rxq k := rfl
@[simp] theorem State.setSlice_masterWord (n : Nat) (c : Slice) (k : Nat) : (s.setSlice n c).masterWord k = s.masterWord k := rfl
@[simp] theorem State.setSlice_slice_same (n : Nat) (c : Slice) : (s.setSlice n c).slice n = c := Tbl.look_put_same ..
@[simp] theorem State.setSlice_slice_other (n : Nat) (c : Slice) (k : Nat) (h : k ≠ n) : (s.setSlice n c).slice k = s.slice k :=
  Tbl.look_put_other _ _ _ _ _ h

/-! ### setRxq -/

@[simp] theorem State.setRxq_pending (n : Nat) (c : List HbWord) : (s.setRxq n c).pending = s.pending := rfl
@[simp] theorem State.setRxq_jrst (n : Nat) (c : List HbWord) : (s.setRxq n c).jrst = s.jrst := rfl
@[simp] theorem State.setRxq_ucrdy (n : Nat) (c : List HbWord) : (s.setRxq n c).ucrdy = s.ucrdy := rfl
@[simp] theorem State.setRxq_undef (n : Nat) (c : List HbWord) : (s.setRxq n c).undef = s.undef := rfl
@[simp] theorem State.setRxq_uc (n : Nat) (c : List HbWord) : (s.setRxq n c).uc = s.uc := rfl
@[simp] theorem State.setRxq_freeCtr (n : Nat) (c : List HbWord) : (s.setRxq n c).freeCtr = s.freeCtr := rfl
@[simp] theorem State.setRxq_seq (n : Nat) (c : List HbWord) : (s.setRxq n c).seq = s.seq := rfl
@[simp] theorem State.setRxq_ctlRdata (n : Nat) (c : List HbWord) : (s.setRxq n c).ctlRdata = s.ctlRdata := rfl
@[simp] theorem State.setRxq_chans (n : Nat) (c : List HbWord) : (s.setRxq n c).chans = s.chans := rfl
@[simp] theorem State.setRxq_ctxs (n : Nat) (c : List HbWord) : (s.setRxq n c).ctxs = s.ctxs := rfl
@[simp] theorem State.setRxq_tenants (n : Nat) (c : List HbWord) : (s.setRxq n c).tenants = s.tenants := rfl
@[simp] theorem State.setRxq_slices (n : Nat) (c : List HbWord) : (s.setRxq n c).slices = s.slices := rfl
@[simp] theorem State.setRxq_master (n : Nat) (c : List HbWord) : (s.setRxq n c).master = s.master := rfl
@[simp] theorem State.setRxq_rxAt (n : Nat) (c : List HbWord) : (s.setRxq n c).rxAt = s.rxAt := rfl
@[simp] theorem State.setRxq_staging (n : Nat) (c : List HbWord) : (s.setRxq n c).staging = s.staging := rfl
@[simp] theorem State.setRxq_fsRej (n : Nat) (c : List HbWord) : (s.setRxq n c).fsRej = s.fsRej := rfl
@[simp] theorem State.setRxq_fsLslot (n : Nat) (c : List HbWord) : (s.setRxq n c).fsLslot = s.fsLslot := rfl
@[simp] theorem State.setRxq_ifstat (n : Nat) (c : List HbWord) : (s.setRxq n c).ifstat = s.ifstat := rfl
@[simp] theorem State.setRxq_ifmask (n : Nat) (c : List HbWord) : (s.setRxq n c).ifmask = s.ifmask := rfl
@[simp] theorem State.setRxq_ucce (n : Nat) (c : List HbWord) : (s.setRxq n c).ucce = s.ucce := rfl
@[simp] theorem State.setRxq_mailbox (n : Nat) (c : List HbWord) : (s.setRxq n c).mailbox = s.mailbox := rfl
@[simp] theorem State.setRxq_mill (n : Nat) (c : List HbWord) : (s.setRxq n c).mill = s.mill := rfl
@[simp] theorem State.setRxq_mntAddr (n : Nat) (c : List HbWord) : (s.setRxq n c).mntAddr = s.mntAddr := rfl
@[simp] theorem State.setRxq_mntDone (n : Nat) (c : List HbWord) : (s.setRxq n c).mntDone = s.mntDone := rfl
@[simp] theorem State.setRxq_mntErr (n : Nat) (c : List HbWord) : (s.setRxq n c).mntErr = s.mntErr := rfl
@[simp] theorem State.setRxq_mntCode (n : Nat) (c : List HbWord) : (s.setRxq n c).mntCode = s.mntCode := rfl
@[simp] theorem State.setRxq_mnt (n : Nat) (c : List HbWord) : (s.setRxq n c).mnt = s.mnt := rfl
@[simp] theorem State.setRxq_pstep (n : Nat) (c : List HbWord) : (s.setRxq n c).pstep = s.pstep := rfl
@[simp] theorem State.setRxq_plimit (n : Nat) (c : List HbWord) : (s.setRxq n c).plimit = s.plimit := rfl
@[simp] theorem State.setRxq_pw (n : Nat) (c : List HbWord) : (s.setRxq n c).pw = s.pw := rfl
@[simp] theorem State.setRxq_estAt (n : Nat) (c : List HbWord) : (s.setRxq n c).estAt = s.estAt := rfl
@[simp] theorem State.setRxq_dbgen (n : Nat) (c : List HbWord) : (s.setRxq n c).dbgen = s.dbgen := rfl
@[simp] theorem State.setRxq_dbgCh (n : Nat) (c : List HbWord) : (s.setRxq n c).dbgCh = s.dbgCh := rfl
@[simp] theorem State.setRxq_dbgReam (n : Nat) (c : List HbWord) : (s.setRxq n c).dbgReam = s.dbgReam := rfl
@[simp] theorem State.setRxq_dbgView (n : Nat) (c : List HbWord) : (s.setRxq n c).dbgView = s.dbgView := rfl
@[simp] theorem State.setRxq_dbgWait (n : Nat) (c : List HbWord) : (s.setRxq n c).dbgWait = s.dbgWait := rfl
@[simp] theorem State.setRxq_snapDesc (n : Nat) (c : List HbWord) : (s.setRxq n c).snapDesc = s.snapDesc := rfl
@[simp] theorem State.setRxq_snapWord (n : Nat) (c : List HbWord) : (s.setRxq n c).snapWord = s.snapWord := rfl
@[simp] theorem State.setRxq_wrap (n : Nat) (c : List HbWord) : (s.setRxq n c).wrap = s.wrap := rfl
@[simp] theorem State.setRxq_ucKHz (n : Nat) (c : List HbWord) : (s.setRxq n c).ucKHz = s.ucKHz := rfl
@[simp] theorem State.setRxq_chKHz (n : Nat) (c : List HbWord) : (s.setRxq n c).chKHz = s.chKHz := rfl
@[simp] theorem State.setRxq_ch (n : Nat) (c : List HbWord) (k : Nat) : (s.setRxq n c).ch k = s.ch k := rfl
@[simp] theorem State.setRxq_ctx (n : Nat) (c : List HbWord) (k : Nat) : (s.setRxq n c).ctx k = s.ctx k := rfl
@[simp] theorem State.setRxq_tenant (n : Nat) (c : List HbWord) (k : Nat) : (s.setRxq n c).tenant k = s.tenant k := rfl
@[simp] theorem State.setRxq_slice (n : Nat) (c : List HbWord) (k : Nat) : (s.setRxq n c).slice k = s.slice k := rfl
@[simp] theorem State.setRxq_masterWord (n : Nat) (c : List HbWord) (k : Nat) : (s.setRxq n c).masterWord k = s.masterWord k := rfl
@[simp] theorem State.setRxq_rxq_same (n : Nat) (c : List HbWord) : (s.setRxq n c).rxq n = c := Tbl.look_put_same ..
@[simp] theorem State.setRxq_rxq_other (n : Nat) (c : List HbWord) (k : Nat) (h : k ≠ n) : (s.setRxq n c).rxq k = s.rxq k :=
  Tbl.look_put_other _ _ _ _ _ h

/-! ### Changes in place, by their setters -/

theorem State.modCh_eq (n : Nat) (f : Channel → Channel) : s.modCh n f = s.setCh n (f (s.ch n)) := rfl
theorem State.modCtx_eq (n : Nat) (f : Ctx → Ctx) : s.modCtx n f = s.setCtx n (f (s.ctx n)) := rfl
theorem State.modTenant_eq (n : Nat) (f : Tenant → Tenant) : s.modTenant n f = s.setTenant n (f (s.tenant n)) := rfl
theorem State.modSlice_eq (n : Nat) (f : Slice → Slice) : s.modSlice n f = s.setSlice n (f (s.slice n)) := rfl

/-! ### The end of initialisation -/

@[simp] theorem State.initDone_pending : s.initDone.pending = s.pending := rfl
@[simp] theorem State.initDone_jrst : s.initDone.jrst = s.jrst := rfl
@[simp] theorem State.initDone_ucrdy : s.initDone.ucrdy = true := rfl
@[simp] theorem State.initDone_undef : s.initDone.undef = s.undef := rfl
@[simp] theorem State.initDone_uc : s.initDone.uc = s.uc := rfl
@[simp] theorem State.initDone_freeCtr : s.initDone.freeCtr = s.freeCtr := rfl
@[simp] theorem State.initDone_seq : s.initDone.seq = s.seq := rfl
@[simp] theorem State.initDone_ctlRdata : s.initDone.ctlRdata = s.ctlRdata := rfl
@[simp] theorem State.initDone_chans : s.initDone.chans = s.chans := rfl
@[simp] theorem State.initDone_ctxs : s.initDone.ctxs = s.ctxs := rfl
@[simp] theorem State.initDone_tenants : s.initDone.tenants = s.tenants := rfl
@[simp] theorem State.initDone_slices : s.initDone.slices = s.slices := rfl
@[simp] theorem State.initDone_rx : s.initDone.rx = s.rx := rfl
@[simp] theorem State.initDone_master : s.initDone.master = s.master := rfl
@[simp] theorem State.initDone_rxAt : s.initDone.rxAt = s.rxAt := rfl
@[simp] theorem State.initDone_staging : s.initDone.staging = s.staging := rfl
@[simp] theorem State.initDone_fsRej : s.initDone.fsRej = s.fsRej := rfl
@[simp] theorem State.initDone_fsLslot : s.initDone.fsLslot = s.fsLslot := rfl
@[simp] theorem State.initDone_ifstat : s.initDone.ifstat = s.ifstat := rfl
@[simp] theorem State.initDone_ifmask : s.initDone.ifmask = s.ifmask := rfl
@[simp] theorem State.initDone_ucce : s.initDone.ucce = s.ucce := rfl
@[simp] theorem State.initDone_mailbox : s.initDone.mailbox = s.mailbox := rfl
@[simp] theorem State.initDone_mill : s.initDone.mill = s.mill := rfl
@[simp] theorem State.initDone_mntAddr : s.initDone.mntAddr = s.mntAddr := rfl
@[simp] theorem State.initDone_mntDone : s.initDone.mntDone = s.mntDone := rfl
@[simp] theorem State.initDone_mntErr : s.initDone.mntErr = s.mntErr := rfl
@[simp] theorem State.initDone_mntCode : s.initDone.mntCode = s.mntCode := rfl
@[simp] theorem State.initDone_mnt : s.initDone.mnt = s.mnt := rfl
@[simp] theorem State.initDone_pstep : s.initDone.pstep = s.pstep := rfl
@[simp] theorem State.initDone_plimit : s.initDone.plimit = s.plimit := rfl
@[simp] theorem State.initDone_pw : s.initDone.pw = s.pw := rfl
@[simp] theorem State.initDone_estAt : s.initDone.estAt = s.estAt := rfl
@[simp] theorem State.initDone_dbgen : s.initDone.dbgen = s.dbgen := rfl
@[simp] theorem State.initDone_dbgCh : s.initDone.dbgCh = s.dbgCh := rfl
@[simp] theorem State.initDone_dbgReam : s.initDone.dbgReam = s.dbgReam := rfl
@[simp] theorem State.initDone_dbgView : s.initDone.dbgView = s.dbgView := rfl
@[simp] theorem State.initDone_dbgWait : s.initDone.dbgWait = s.dbgWait := rfl
@[simp] theorem State.initDone_snapDesc : s.initDone.snapDesc = s.snapDesc := rfl
@[simp] theorem State.initDone_snapWord : s.initDone.snapWord = s.snapWord := rfl
@[simp] theorem State.initDone_wrap : s.initDone.wrap = s.wrap := rfl
@[simp] theorem State.initDone_ucKHz : s.initDone.ucKHz = s.ucKHz := rfl
@[simp] theorem State.initDone_chKHz : s.initDone.chKHz = s.chKHz := rfl
@[simp] theorem State.initDone_ch (k : Nat) : s.initDone.ch k = s.ch k := rfl
@[simp] theorem State.initDone_ctx (k : Nat) : s.initDone.ctx k = s.ctx k := rfl
@[simp] theorem State.initDone_tenant (k : Nat) : s.initDone.tenant k = s.tenant k := rfl
@[simp] theorem State.initDone_slice (k : Nat) : s.initDone.slice k = s.slice k := rfl
@[simp] theorem State.initDone_rxq (k : Nat) : s.initDone.rxq k = s.rxq k := rfl
@[simp] theorem State.initDone_masterWord (k : Nat) : s.initDone.masterWord k = s.masterWord k := rfl

/-! ### Guards -/

variable {s}

theorem hw_inside (h : Inside s) (f : State → State) : hw s f = .next (f s) := by
  simp [hw, h.1, h.2]

theorem port_reached (h : Reached s) (f : State → State) : port s f = .next (f s) := by
  simp [port, h.1.1, h.1.2, h.2]

theorem ctl_commanded (h : Commanded s) (f : State → State) : ctl s f = .next (f s.initDone) := by
  simp [ctl, port_reached h.1, h.2]

theorem ctl_busy (h : Reached s) (b : s.ctlBusy = true) (f : State → State) : ctl s f = .next s := by
  simp [ctl, port_reached h, b]

/-- What a guarded command answers, whatever the state. -/
theorem hw_cases (f : State → State) :
    hw s f = .refused .undefinedUntilReset ∨ hw s f = .next s ∨ hw s f = .next (f s) := by
  unfold hw
  split
  · exact .inl rfl
  · split
    · exact .inr (.inl rfl)
    · exact .inr (.inr rfl)

theorem port_cases (f : State → State) :
    port s f = .refused .undefinedUntilReset ∨ port s f = .next s ∨ port s f = .next (f s) := by
  unfold port
  split
  · exact .inl rfl
  · split
    · exact .inr (.inl rfl)
    · exact .inr (.inr rfl)

theorem ctl_cases (f : State → State) :
    ctl s f = .refused .undefinedUntilReset ∨ ctl s f = .next s ∨ ctl s f = .next (f s.initDone) := by
  unfold ctl
  rcases port_cases (s := s) fun s => if s.ctlBusy then s else f s.initDone with h | h | h
  · exact .inl h
  · exact .inr (.inl h)
  · rw [h]
    split
    · exact .inr (.inl rfl)
    · exact .inr (.inr rfl)

end Sys2Proof.Machine
end

