-- ==== Sys2Proof/Laws/Inv.lean ====
section
/-! SUPPORT. The invariant on a state whose tables are written out: what every listed entry has, every read has. -/
namespace Sys2Proof.Machine
open Sys2Proof.Safety

/-- A property of the value of unlisted keys and of every listed entry holds of every read. -/
theorem Tbl.forall_look {α : Type} {P : α → Prop} {d : α} : ∀ {t : Tbl α}, P d → (∀ e ∈ t, P e.2) → ∀ k, P (Tbl.look d t k)
  | [], hd, _, _ => hd
  | (a, x) :: r, hd, h, k => by
    simp only [Tbl.look]
    split
    · exact h (a, x) (List.mem_cons_self ..)
    · exact Tbl.forall_look hd (fun e he => h e (List.mem_cons_of_mem _ he)) k

theorem bounded_reset : Bounded Channel.reset := by decide

/-- The invariant of a state from a check of its tables. -/
theorem inv_of_tables {s : State}
    (h : (Tbl.wf Channel.reset s.chans = true ∧ Tbl.wf Ctx.reset s.ctxs = true ∧ Tbl.wf Tenant.reset s.tenants = true
      ∧ Tbl.wf Slice.reset s.slices = true ∧ Tbl.wf [] s.rx = true ∧ Tbl.wf 0 s.master = true)
      ∧ (∀ e ∈ s.chans, Bounded e.2) ∧ (∀ e ∈ s.rx, e.2.length ≤ 64) ∧ s.mailbox.length ≤ 64 ∧ s.pw ≤ 6) : Inv s := by
  obtain ⟨⟨h1, h2, h3, h4, h5, h6⟩, hb, hr, hm, hp⟩ := h
  exact ⟨h1, h2, h3, h4, h5, h6, Tbl.forall_look bounded_reset hb,
    Tbl.forall_look (P := fun q : List HbWord => q.length ≤ 64) (Nat.zero_le _) hr, hm, hp⟩

end Sys2Proof.Machine
end

