-- ==== Sys2Proof/Laws/Keep.lean ====
section
/-! SUPPORT. What every operation keeps: the queue, JRST_N, the mark of an undefined state, and the invariant; and what keeps a
channel within its bounds. Each operation has one lemma here, so that a proof about a step only joins them. -/
namespace Sys2Proof.Machine
open Sys2Proof.Safety

/-- t has the queue, the level of JRST_N and the mark of s, and the invariant if s has it. -/
def Keeps (s t : State) : Prop :=
  t.pending = s.pending ∧ t.jrst = s.jrst ∧ t.undef = s.undef ∧ (Inv s → Inv t)

theorem Keeps.refl (s : State) : Keeps s s := ⟨rfl, rfl, rfl, id⟩
theorem Keeps.trans {s t u : State} (h : Keeps s t) (k : Keeps t u) : Keeps s u :=
  ⟨k.1.trans h.1, k.2.1.trans h.2.1, k.2.2.1.trans h.2.2.1, fun i => k.2.2.2 (h.2.2.2 i)⟩
/-- The last of two operations first, so that it says what the first one is. -/
theorem Keeps.after {s t u : State} (k : Keeps t u) (h : Keeps s t) : Keeps s u := h.trans k
theorem Keeps.inv {s t : State} (h : Keeps s t) (i : Inv s) : Inv t := h.2.2.2 i

/-! ### Sums of tables -/

theorem Tbl.sum_drop (t : Tbl Nat) (k : Nat) :
    ((Tbl.drop k t).map fun e => e.2).sum + Tbl.look 0 t k ≤ (t.map fun e => e.2).sum := by
  have le (t : Tbl Nat) : ((Tbl.drop k t).map fun e => e.2).sum ≤ (t.map fun e => e.2).sum := by
    induction t with
    | nil => simp [Tbl.drop]
    | cons e r ih => simp only [Tbl.drop]; split <;> simp <;> omega
  induction t with
  | nil => simp [Tbl.drop, Tbl.look]
  | cons e r ih =>
    simp only [Tbl.drop, Tbl.look]
    have := le r
    split <;> simp <;> omega

theorem Tbl.sum_ins (t : Tbl Nat) (k v : Nat) : ((Tbl.ins k v t).map fun e => e.2).sum = v + (t.map fun e => e.2).sum := by
  induction t with
  | nil => simp [Tbl.ins]
  | cons e r ih =>
    simp only [Tbl.ins]
    split
    · simp
    · simp [ih]; omega

/-- A write changes the sum by no more than it changes its entry. -/
theorem Tbl.sum_put (t : Tbl Nat) (k v : Nat) :
    ((Tbl.put 0 t k v).map fun e => e.2).sum + Tbl.look 0 t k ≤ (t.map fun e => e.2).sum + v := by
  have h := Tbl.sum_drop t k
  unfold Tbl.put
  split
  · omega
  · rw [Tbl.sum_ins]; omega

theorem foldl_add {α : Type} (f : α → Nat) (l : List α) : ∀ n, l.foldl (fun n e => n + f e) n = n + (l.map f).sum := by
  induction l with
  | nil => simp
  | cons a r ih => intro n; simp [ih]; omega

/-! ### Channels -/

section
variable {h : Channel}

theorem bounded_setReam (b : Bounded h) (i : Nat) (r : ReamCell) : Bounded (h.setReam i r) :=
  ⟨Tbl.wf_put _ _ _ _ b.1, b.2⟩

theorem bounded_setCredit (b : Bounded h) {c n : Nat} (hn : n ≤ h.credit c) : Bounded (h.setCredit c n) := by
  obtain ⟨h1, h2, h3, h4⟩ := b
  refine ⟨h1, h2, ?_, h4⟩
  have := Tbl.sum_put h.credits c n
  simp only [Channel.setCredit, Channel.credit] at *
  omega

theorem bounded_couch (b : Bounded h) {q : List BufBeat} (hq : q.length ≤ h.couch.length) : Bounded { h with couch := q } := by
  obtain ⟨h1, h2, h3, h4⟩ := b
  exact ⟨h1, h2, by show q.length + (h.credits.map fun e => e.2).sum ≤ 32; omega, h4⟩

theorem bounded_dropCredit (b : Bounded h) (c : Nat) : Bounded { h with credits := Tbl.drop c h.credits } := by
  obtain ⟨h1, h2, h3, h4⟩ := b
  have := Tbl.sum_drop h.credits c
  exact ⟨h1, h2, by show h.couch.length + ((Tbl.drop c h.credits).map fun e => e.2).sum ≤ 32; omega, h4⟩

theorem bounded_holders (b : Bounded h) {g : List Holder} (hg : g.length = 16) : Bounded { h with holders := g } :=
  ⟨b.1, b.2.1, b.2.2.1, hg, b.2.2.2.2⟩

theorem bounded_store (b : Bounded h) {m : Tbl IWord} (hm : Tbl.wf 0 m = true) : Bounded { h with store := m } :=
  ⟨b.1, hm, b.2.2⟩

theorem bounded_foldl {α : Type} {f : Channel → α → Channel} (hf : ∀ h a, Bounded h → Bounded (f h a)) (l : List α) :
    ∀ h, Bounded h → Bounded (l.foldl f h) := by
  induction l with
  | nil => exact fun _ b => b
  | cons a r ih => exact fun h b => ih _ (hf h a b)

theorem bounded_setReams (b : Bounded h) (l : List Nat) (r : ReamCell) : Bounded (l.foldl (fun h p => h.setReam p r) h) :=
  bounded_foldl (fun _ _ b => bounded_setReam b ..) l h b

theorem bounded_unsetBlock (b : Bounded h) (base n : Nat) : Bounded (h.unsetBlock base n) :=
  bounded_foldl (fun _ _ b => bounded_setReam b ..) _ h b

theorem bounded_take (b : Bounded h) (c v base reams loft : Nat) : Bounded (h.take c v base reams loft) :=
  bounded_unsetBlock (h := { h with alloc := h.alloc ++ [Alloc.mk c v base reams loft], lapsed := Tbl.drop c h.lapsed }) b base reams

theorem bounded_keepBut (b : Bounded h) (c : Nat) (p : BufBeat → Bool) (g : Holder → Holder) :
    Bounded { h with credits := Tbl.drop c h.credits, couch := h.couch.filter p, holders := h.holders.map g } := by
  obtain ⟨h1, h2, h3, h4, h5⟩ := b
  refine ⟨h1, h2, ?_, ?_, h5⟩
  · have e1 := Tbl.sum_drop h.credits c
    have e2 := List.length_filter_le p h.couch
    show (h.couch.filter p).length + ((Tbl.drop c h.credits).map fun e => e.2).sum ≤ 32
    omega
  · show (h.holders.map _).length = 16
    rw [List.length_map, h4]

theorem bounded_give (b : Bounded h) (c : Nat) : Bounded (h.give c) := by
  unfold Channel.give
  cases h.record c with
  | none =>
    exact bounded_keepBut b c (fun b => b.beat.ctx.val != c)
      (fun g => if g.now == some c then { g with now := none, last := some c, freeAt := h.cyc } else g)
  | some a =>
    exact bounded_keepBut (bounded_unsetBlock b a.ream a.reams) c (fun b => b.beat.ctx.val != c)
      (fun g => if g.now == some c then { g with now := none, last := some c, freeAt := (h.unsetBlock a.ream a.reams).cyc } else g)

theorem bounded_wipe (b : Bounded h) : Bounded h.wipe :=
  ⟨rfl, rfl, by show 0 + 0 ≤ 32; omega, by simp [Channel.wipe], b.2.2.2.2⟩

theorem bounded_fenceWipe (b : Bounded h) : Bounded h.fenceWipe := by
  have w := bounded_wipe b
  exact w

theorem bounded_lastReport (b : Bounded h) : Bounded h.lastReport := by
  unfold Channel.lastReport
  split
  · exact b
  · exact b

theorem bounded_goOff (b : Bounded h) : Bounded h.goOff := bounded_wipe (h := h.lastReport) (bounded_lastReport b)

theorem bounded_dropShadows (b : Bounded h) (p : Nat → Bool) : Bounded (h.dropShadows p) :=
  bounded_foldl (fun h e b => by
    dsimp only
    split
    · split
      · exact bounded_setReam b ..
      · exact b
    · exact b) _ h b

theorem bounded_dropRuns (b : Bounded h) (p : Nat → Bool) : Bounded (h.dropRuns p) := b

end

/-! ### Parts of the state -/

section
variable {s : State}

theorem Keeps.setCh {n : Nat} {h : Channel} (hb : Inv s → Bounded h) : Keeps s (s.setCh n h) := by
  refine ⟨rfl, rfl, rfl, fun i => ?_⟩
  have b := hb i
  obtain ⟨h1, h2, h3, h4, h5, h6, h7, h8, h9, h10⟩ := i
  refine ⟨Tbl.wf_put _ _ _ _ h1, h2, h3, h4, h5, h6, fun m => ?_, h8, h9, h10⟩
  by_cases e : m = n
  · subst e; rw [State.setCh_ch_same]; exact b
  · rw [State.setCh_ch_other _ _ _ _ e]; exact h7 m

theorem inv_bounded (i : Inv s) (n : Nat) : Bounded (s.ch n) := i.2.2.2.2.2.2.1 n

theorem Keeps.modCh (n : Nat) {f : Channel → Channel} (hf : ∀ h, Bounded h → Bounded (f h)) : Keeps s (s.modCh n f) :=
  Keeps.setCh fun i => hf _ (i.2.2.2.2.2.2.1 n)

theorem Keeps.setCtx (c : Nat) (x : Ctx) : Keeps s (s.setCtx c x) :=
  ⟨rfl, rfl, rfl, fun ⟨h1, h2, h3⟩ => ⟨h1, Tbl.wf_put _ _ _ _ h2, h3⟩⟩
theorem Keeps.modCtx (c : Nat) (f : Ctx → Ctx) : Keeps s (s.modCtx c f) := Keeps.setCtx ..
theorem Keeps.setTenant (c : Nat) (x : Tenant) : Keeps s (s.setTenant c x) :=
  ⟨rfl, rfl, rfl, fun ⟨h1, h2, h3, h4⟩ => ⟨h1, h2, Tbl.wf_put _ _ _ _ h3, h4⟩⟩
theorem Keeps.modTenant (c : Nat) (f : Tenant → Tenant) : Keeps s (s.modTenant c f) := Keeps.setTenant ..
theorem Keeps.setSlice (c : Nat) (x : Slice) : Keeps s (s.setSlice c x) :=
  ⟨rfl, rfl, rfl, fun ⟨h1, h2, h3, h4, h5⟩ => ⟨h1, h2, h3, Tbl.wf_put _ _ _ _ h4, h5⟩⟩
theorem Keeps.modSlice (c : Nat) (f : Slice → Slice) : Keeps s (s.modSlice c f) := Keeps.setSlice ..

theorem Keeps.setRxq {n : Nat} {q : List HbWord} (hq : Inv s → q.length ≤ 64) : Keeps s (s.setRxq n q) := by
  refine ⟨rfl, rfl, rfl, fun i => ?_⟩
  have b := hq i
  obtain ⟨h1, h2, h3, h4, h5, h6, h7, h8, h9⟩ := i
  refine ⟨h1, h2, h3, h4, Tbl.wf_put _ _ _ _ h5, h6, h7, fun m => ?_, h9⟩
  by_cases e : m = n
  · subst e; simpa using b
  · simpa [e] using h8 m

theorem Keeps.foldl {α : Type} {f : State → α → State} (hf : ∀ s a, Keeps s (f s a)) (l : List α) :
    ∀ s, Keeps s (l.foldl f s) := by
  induction l with
  | nil => exact fun s => Keeps.refl s
  | cons a r ih => exact fun s => (hf s a).trans (ih _)

theorem Keeps.ite {c : Prop} [Decidable c] {a b : State} (ha : Keeps s a) (hb : Keeps s b) : Keeps s (if c then a else b) := by
  split
  · exact ha
  · exact hb

theorem keeps_tev (t b : Nat) : Keeps s (s.tev t b) := Keeps.modTenant ..
theorem keeps_refuse (t : Nat) : Keeps s (s.refuse t) := (Keeps.modTenant ..).trans (keeps_tev ..)
theorem keeps_raiseIf (b : Nat) : Keeps s (s.raiseIf b) := ⟨rfl, rfl, rfl, id⟩
theorem keeps_initDone : Keeps s s.initDone := ⟨rfl, rfl, rfl, id⟩
theorem keeps_raise (c : Nat) (f : Flags) : Keeps s (s.raise c f) := (Keeps.modCtx ..).trans (Keeps.modCh _ fun _ b => b)

theorem keeps_offend (c p : Nat) (os : List Off) : Keeps s (s.offend c p os) := by
  unfold State.offend
  dsimp only
  split
  · exact (keeps_raise ..).trans (Keeps.modCtx ..)
  · exact keeps_raise ..

theorem keeps_charge (n : Nat) : Keeps s (s.charge n) := by
  unfold State.charge
  exact (Keeps.setCh (n := n) (h := { s.ch n with laneRes := (s.ch n).laneRes.filter fun r => (s.ch n).cyc ≤ r.cc })
    fun i => inv_bounded i n).trans (Keeps.foldl (fun _ _ => Keeps.modCtx ..) _ _)

/-! ### Guards -/

theorem hw_keeps {f : State → State} {t : State} (hf : Keeps s (f s)) (e : hw s f = .next t) : Keeps s t := by
  rcases hw_cases (s := s) f with h | h | h <;> rw [h] at e
  · cases e
  · cases e; exact Keeps.refl s
  · cases e; exact hf

theorem port_keeps {f : State → State} {t : State} (hf : Keeps s (f s)) (e : port s f = .next t) : Keeps s t := by
  rcases port_cases (s := s) f with h | h | h <;> rw [h] at e
  · cases e
  · cases e; exact Keeps.refl s
  · cases e; exact hf

theorem ctl_keeps {f : State → State} {t : State} (hf : ∀ u : State, Keeps u (f u)) (e : ctl s f = .next t) : Keeps s t :=
  port_keeps (f := fun s => if s.ctlBusy then s else f s.initDone) (Keeps.ite (Keeps.refl s) ((hf _).after keeps_initDone)) e

end

end Sys2Proof.Machine
end

