-- ==== Sys2Proof/Laws/KeepWork.lean ====
section
/-! SUPPORT. What the operations on a context's work keep: its entry into FREE, faults, Reel beats, Loft lines, ream and Loft
words, the context commands, the Headbox, the start of runs, the Couch buffer and the Felt slices. -/
namespace Sys2Proof.Machine
open Sys2Proof.Safety

section
variable {s : State} {h : Channel}

theorem keeps_honourOff (n : Nat) : Keeps s (s.honourOff n) := by
  unfold State.honourOff
  dsimp only
  split
  · exact Keeps.setCh fun i => bounded_goOff (inv_bounded i n)
  · exact Keeps.refl s

theorem keeps_enterFree (c : Nat) : Keeps s (s.enterFree c) :=
  (keeps_honourOff ..).after ((keeps_tev ..).after ((Keeps.setCtx ..).after (Keeps.modCh _ fun _ b => bounded_give b c)))

/-! ### Faults -/

theorem bounded_releaseHolders (b : Bounded h) (g : Holder → Holder) : Bounded { h with holders := h.holders.map g } :=
  bounded_holders b (by rw [List.length_map, b.2.2.2.1])

theorem keeps_releaseGroups (c cc : Nat) : Keeps s (s.releaseGroups c cc) := by
  unfold State.releaseGroups
  dsimp only
  split
  · exact Keeps.refl s
  · exact Keeps.modCh _ fun _ b => bounded_releaseHolders b _

theorem keeps_setMark (c tag : Nat) : Keeps s (s.setMark c tag) := Keeps.modCtx ..

theorem keeps_cancelFelt (a : FeltAcc) : Keeps s (s.cancelFelt a) := by
  unfold State.cancelFelt
  split
  · exact Keeps.modCh _ fun _ b => b
  · exact Keeps.modCh _ fun _ b => b
  · exact Keeps.modCh _ fun _ b => b
  · exact keeps_setMark ..
  · exact Keeps.refl s

theorem keeps_cancelAll (c : Nat) : Keeps s (s.cancelAll c) :=
  Keeps.foldl (fun _ _ => (Keeps.foldl (fun _ _ => keeps_cancelFelt ..) _ _).after (Keeps.modSlice ..)) _ _

theorem bounded_abandon (b : Bounded h) (c : Nat) (p : BufBeat → Bool) :
    Bounded { h with couch := h.couch.filter p, credits := Tbl.drop c h.credits } :=
  bounded_couch (bounded_dropCredit b c) (List.length_filter_le ..)

theorem keeps_abandon (c : Nat) : Keeps s (s.abandon c) :=
  (keeps_cancelAll ..).after ((Keeps.modCtx ..).after
    (Keeps.modCh _ fun _ b => bounded_abandon (bounded_dropRuns (bounded_dropShadows b _) _) c fun b => b.beat.ctx.val != c))

theorem keeps_settleSlots (c : Nat) : Keeps s (s.settleSlots c) := by
  unfold State.settleSlots
  exact Keeps.ite (Keeps.refl s) (Keeps.modCtx ..)

theorem keeps_fault (c code : Nat) (iflt : BitVec 64) : Keeps s (s.fault c code iflt) := by
  unfold State.fault
  dsimp only
  split
  · exact Keeps.refl s
  · have k : Keeps s (if (s.ctx c).st == .faulted then s else (s.abandon c).settleSlots c) :=
      Keeps.ite (Keeps.refl s) ((keeps_abandon c).trans (keeps_settleSlots c))
    split
    · exact (keeps_tev ..).after ((Keeps.modCtx ..).after k)
    · exact (Keeps.modCtx ..).after k

theorem keeps_ifault (c : Nat) (o : Bool) (src word opcode flsb : Nat) : Keeps s (s.ifault c o src word opcode flsb) := keeps_fault ..
theorem keeps_operand (c : Nat) (r : Run) (word flsb : Nat) : Keeps s (s.operand c r word flsb) := keeps_ifault ..
theorem keeps_siteFault (c : Nat) (t : Site) (w : IWord) (flsb : Nat) : Keeps s (s.siteFault c t w flsb) := keeps_ifault ..

theorem keeps_settleState (c : Nat) : Keeps s (s.settleState c) := by
  unfold State.settleState
  exact Keeps.ite (Keeps.modCtx ..) (Keeps.refl s)

theorem bounded_defer (b : Bounded h) (es : List Later) : Bounded (h.defer es) := b
theorem keeps_defer (n : Nat) (es : List Later) : Keeps s (s.modCh n fun h => h.defer es) := Keeps.modCh _ fun _ b => b

/-! ### Reel and Loft -/

theorem keeps_modRun (c ser : Nat) (f : Run → Run) : Keeps s (s.modRun c ser f) := Keeps.modCtx ..

theorem bounded_addReel (b : Bounded h) (bs : List ReelBeat) : Bounded (h.addReel bs) := b
theorem bounded_addLine (b : Bounded h) (l : LoftLine) : Bounded (h.addLine l) := b

theorem keeps_present (c : Nat) (run : Option Nat) (bs : List ReelBeat) : Keeps s (s.present c run bs) := by
  unfold State.present
  split
  · exact Keeps.refl s
  · split
    · exact Keeps.modCh _ fun _ b => b
    · exact Keeps.modCh _ fun _ b => bounded_addReel b _

theorem keeps_queueFelt (sl : Nat) (a : FeltAcc) : Keeps s (s.queueFelt sl a) := Keeps.modSlice ..
theorem keeps_queueHome (c : Nat) (l : LoftLine) : Keeps s (s.queueHome c l) :=
  Keeps.after (keeps_queueFelt ..) (Keeps.modCh _ fun _ b => b)
theorem keeps_queueFetch (c line : Nat) : Keeps s (s.queueFetch c line) := keeps_queueFelt ..
theorem keeps_flush (c idx n : Nat) : Keeps s (s.flush c idx n) := Keeps.foldl (fun _ _ => keeps_queueHome ..) _ _

theorem bounded_needLine (b : Bounded h) {c g idx : Nat} {h' : Channel} (e : h.needLine c g = .free h' idx) : Bounded h' := by
  unfold Channel.needLine at e
  dsimp only at e
  split at e
  · cases e; exact b
  · split at e
    · cases e; exact b
    · split at e
      · cases e
      · split at e <;> cases e

theorem keeps_readRecord (c ser idx : Nat) : Keeps s (s.readRecord c ser idx).2 := by
  unfold State.readRecord
  dsimp only
  repeat' split
  · exact Keeps.refl s
  · exact Keeps.refl s
  · exact Keeps.modCh _ fun _ b => b
  · exact Keeps.refl s
  · exact (keeps_queueFetch ..).after (Keeps.modCh _ fun _ b => b)
  · rename_i e
    exact (keeps_queueFetch ..).after (Keeps.setCh fun i => bounded_addLine (bounded_needLine (inv_bounded i _) e) _)
  · exact keeps_queueHome ..
  · exact Keeps.refl s
  · exact Keeps.refl s

/-! ### Ream and Loft words -/

theorem keeps_actRclr (c : Nat) (t : Site) (w : IWord) : Keeps s (s.actRclr c t w) := by
  unfold State.actRclr
  dsimp only
  repeat' split
  · exact keeps_siteFault ..
  · exact Keeps.setCh fun i => bounded_setReams (inv_bounded i _) ..
  · exact keeps_siteFault ..

theorem keeps_actRexp (c : Nat) (t : Site) (w : IWord) : Keeps s (s.actRexp c t w) := by
  unfold State.actRexp
  dsimp only
  repeat' split
  · exact keeps_siteFault ..
  · exact keeps_siteFault ..
  · exact keeps_present ..

theorem keeps_actRclose (c : Nat) (t : Site) (w : IWord) : Keeps s (s.actRclose c t w) := by
  unfold State.actRclose
  dsimp only
  repeat' split
  · exact keeps_siteFault ..
  · exact keeps_siteFault ..
  · exact keeps_siteFault ..
  · exact (keeps_defer ..).after ((Keeps.modCtx ..).after (keeps_defer ..))
  all_goals exact (keeps_present ..).after (keeps_defer ..)

theorem keeps_actLrel (c : Nat) (t : Site) (w : IWord) : Keeps s (s.actLrel c t w) := by
  unfold State.actLrel
  dsimp only
  split
  · exact keeps_siteFault ..
  · exact keeps_defer ..

theorem keeps_actLflush (c : Nat) (t : Site) (w : IWord) : Keeps s (s.actLflush c t w) := by
  unfold State.actLflush
  dsimp only
  split
  · exact keeps_siteFault ..
  · exact keeps_defer ..

theorem keeps_act (c : Nat) (t : Site) (w : IWord) : Keeps s (s.act c t w) := by
  unfold State.act
  split
  · exact keeps_actRclr ..
  · exact keeps_actRexp ..
  · exact keeps_actRclose ..
  · exact keeps_actLrel ..
  · exact keeps_actLflush ..
  · exact Keeps.refl s

theorem keeps_actWords (c : Nat) (r : Run) (l : List Nat) : ∀ s : State, Keeps s (s.actWords c r l).1 := by
  induction l with
  | nil => exact fun s => Keeps.refl s
  | cons i is ih =>
    intro s
    unfold State.actWords
    dsimp only
    split
    · exact Keeps.refl s
    · split
      · exact Keeps.refl s
      · exact (keeps_act ..).trans (ih _)

theorem keeps_markDone (c ser : Nat) : Keeps s (s.markDone c ser) := by
  unfold State.markDone
  dsimp only
  split
  · exact Keeps.ite (Keeps.modCh _ fun _ b => b) (Keeps.refl s)
  · exact Keeps.refl s

theorem keeps_settleAfter (c : Nat) : Keeps s (s.settleAfter c) :=
  Keeps.foldl (fun s r => (keeps_markDone ..).after ((keeps_modRun ..).after (keeps_actWords c r r.after s))) _ _

theorem keeps_recallRuns (c : Nat) : Keeps s (s.recallRuns c) := Keeps.modCtx ..

theorem keeps_fixCounts (c : Nat) : Keeps s (s.fixCounts c) :=
  (keeps_recallRuns c).after (Keeps.after (Keeps.foldl (fun s q => by
    dsimp only
    split
    · exact Keeps.refl s
    · split
      · split
        · exact (keeps_operand ..).after (keeps_modRun ..)
        · exact keeps_modRun ..
      · exact Keeps.refl s) _ _) (Keeps.modCtx ..))

theorem keeps_settleDirects (c fuel : Nat) : ∀ s : State, Keeps s (s.settleDirects c fuel) := by
  induction fuel with
  | zero => exact fun s => Keeps.refl s
  | succ n ih =>
    intro s
    unfold State.settleDirects
    dsimp only
    split
    · exact Keeps.refl s
    · split
      · exact (ih _).after ((keeps_act ..).after (Keeps.modCtx ..))
      · exact Keeps.refl s

theorem keeps_settle (c : Nat) : Keeps s (s.settle c) := by
  unfold State.settle
  exact (keeps_settleState c).after ((keeps_settleDirects ..).after ((keeps_fixCounts c).after
    ((keeps_settleSlots c).after ((keeps_settleAfter c).after (keeps_recallRuns c)))))

theorem dropToSot_length (c : Nat) (l : List BufBeat) : (dropToSot c l).1.length ≤ l.length := by
  induction l with
  | nil => exact Nat.le_refl _
  | cons b bs ih =>
    unfold dropToSot
    split
    · split
      · exact Nat.le_refl _
      · exact Nat.le_succ_of_le ih
    · exact Nat.succ_le_succ ih

theorem Keeps.shorterCouch {c : Nat} {q : List BufBeat} (n : Nat) (hq : q.length ≤ (s.ch n).couch.length) :
    Keeps s ((s.modCh n fun h => { h with couch := q }).modCtx c f) :=
  (Keeps.setCh fun i => bounded_couch (inv_bounded i n) hq).trans (Keeps.modCtx ..)

theorem keeps_discard (c pseq : Nat) : Keeps s (s.discard c pseq) := by
  unfold State.discard
  dsimp only
  split
  · exact Keeps.refl s
  · refine (keeps_settle c).after (Keeps.trans ?_ (Keeps.ite (Keeps.shorterCouch _ (dropToSot_length ..)) (Keeps.refl _)))
    refine Keeps.trans ?_ (Keeps.ite (keeps_releaseGroups ..) (Keeps.refl _))
    exact (Keeps.modCtx ..).after (Keeps.modCh _ fun _ b => bounded_defer (bounded_dropRuns b _) _)

/-! ### Context commands -/

theorem keeps_bindRefused (c code : Nat) : Keeps s (s.bindRefused c code) := Keeps.modCtx ..

theorem keeps_bind (c : Nat) : Keeps s (s.bind c).1 := by
  unfold State.bind
  dsimp only
  repeat' split
  all_goals first
    | exact keeps_bindRefused ..
    | exact (Keeps.setCtx ..).after (Keeps.modCh _ (by exact fun _ b => bounded_take b ..))

theorem keeps_unbind (c : Nat) : Keeps s (s.unbind c).1 := by
  unfold State.unbind
  dsimp only
  split
  · exact Keeps.setCtx ..
  · exact keeps_bindRefused ..

theorem keeps_modSlices (f : Slice → Slice) (l : List Nat) : Keeps s (l.foldl (fun s n => s.modSlice n f) s) :=
  Keeps.foldl (fun _ _ => Keeps.modSlice ..) l s
theorem bounded_lines (b : Bounded h) (l w : List LoftLine) : Bounded { h with loft := l, wb := w } := b

theorem keeps_teardown (c : Nat) : Keeps s (s.teardown c).1 := by
  unfold State.teardown
  dsimp only
  split
  · dsimp only
    exact (Keeps.modCtx ..).after ((keeps_modSlices ..).after (keeps_abandon c))
  · exact keeps_bindRefused ..

theorem keeps_requeueStash (c : Nat) : Keeps s (s.requeueStash c) := Keeps.foldl (fun _ _ => keeps_queueHome ..) _ _

theorem keeps_restore (c : Nat) : Keeps s (s.restore c).1 := by
  unfold State.restore
  dsimp only
  repeat' split
  · exact keeps_bindRefused ..
  · exact Keeps.setCtx ..
  · exact (keeps_requeueStash c).after ((Keeps.setCtx ..).after (Keeps.modCh _ fun _ b => b))

theorem keeps_adoptHome (n : Nat) (l : LoftLine) : Keeps s (s.adoptHome n l) := Keeps.foldl (fun _ _ => Keeps.modSlice ..) _ _

theorem keeps_writeBack (n c : Nat) : Keeps s (s.writeBack n c) := by
  unfold State.writeBack
  dsimp only
  exact (Keeps.foldl (fun _ _ => keeps_queueFelt ..) _ _).after ((Keeps.foldl (fun _ l => keeps_adoptHome n l) _ _).after
    (Keeps.after (Keeps.modCh _ fun _ b => b) (Keeps.foldl (fun _ _ => Keeps.modSlice ..) _ _)))

/-! ### The start of a run -/

theorem keeps_stalls (n : Nat) (p q : Bool) (ks : List (Nat × Cause)) (j : Nat) : Keeps s (s.stalls n p q ks j) :=
  (Keeps.modCh _ (by exact fun _ b => b)).after (Keeps.foldl (fun _ _ => Keeps.modCtx ..) _ _)

theorem bounded_hold (b : Bounded h) (c : Nat) (m : BitVec 16) : Bounded (h.hold c m) :=
  bounded_holders b (by simp [List.length_zip, b.2.2.2.1])

theorem keeps_start (c : Nat) (r : Run) : Keeps s (s.start c r) := by
  have k0 : Keeps s ((s.setCh (s.ctx c).chan ((s.ch (s.ctx c).chan).hold c (s.ctx c).lgmask)).modCtx c fun x =>
      { x.modRun r.ser fun r' => { r' with phase := .started, start := (s.ch (s.ctx c).chan).cyc, holds := true } with
        st := if x.st == .bound then .running else x.st }) :=
    (Keeps.modCtx ..).after (Keeps.setCh fun i => bounded_hold (inv_bounded i _) ..)
  unfold State.start
  dsimp only
  refine k0.trans ?_
  generalize (s.setCh (s.ctx c).chan ((s.ch (s.ctx c).chan).hold c (s.ctx c).lgmask)).modCtx c _ = t
  generalize s.ch (s.ctx c).chan = h
  split
  · exact keeps_ifault ..
  · split
    · exact keeps_ifault ..
    · split
      · exact keeps_ifault ..
      · split
        · exact keeps_ifault ..
        · exact (keeps_fixCounts c).after ((keeps_actWords ..).after ((Keeps.ite (Keeps.modCtx ..) (Keeps.refl _)).after (keeps_modRun ..)))

/-! ### Couch and Reel -/

theorem keeps_seq (n : Nat) : Keeps s { s with seq := n } := ⟨rfl, rfl, rfl, id⟩

theorem bounded_grant (b : Bounded h) (c : Nat) : Bounded (h.grant c) := by
  unfold Channel.grant
  dsimp only
  split
  · exact b
  · obtain ⟨h1, h2, h3, h4⟩ := b
    refine ⟨h1, h2, ?_, h4⟩
    have e := Tbl.sum_put h.credits c (h.credit c + min (16 - h.credit c) h.freeBuffer)
    have f : h.freeBuffer = 32 - h.couch.length - (h.credits.map fun e => e.2).sum := by
      unfold Channel.freeBuffer
      rw [foldl_add, Nat.zero_add]
    have z : h.couch.length + (h.credits.map fun e => e.2).sum ≤ 32 := h3
    show h.couch.length + ((Tbl.put 0 h.credits c (h.credit c + min (16 - h.credit c) h.freeBuffer)).map fun e => e.2).sum ≤ 32
    have g : Tbl.look 0 h.credits c = h.credit c := rfl
    omega

theorem keeps_creditGrant (n : Nat) : Keeps s (s.creditGrant n) := by
  unfold State.creditGrant
  split
  · exact Keeps.modCh _ fun h b => bounded_foldl (fun _ _ b => bounded_grant b _) _ h b
  · exact Keeps.refl s

/-- A beat takes a credit of its context and an entry of the buffer. -/
theorem bounded_beat (b : Bounded h) (c : Nat) (hc : h.credit c ≠ 0) (e : BufBeat) :
    Bounded { h.setCredit c (h.credit c - 1) with couch := h.couch ++ [e] } := by
  obtain ⟨h1, h2, h3, h4⟩ := b
  refine ⟨h1, h2, ?_, h4⟩
  have e1 := Tbl.sum_put h.credits c (h.credit c - 1)
  have g : Tbl.look 0 h.credits c = h.credit c := rfl
  show (h.couch ++ [e]).length + ((Tbl.put 0 h.credits c (h.credit c - 1)).map fun e => e.2).sum ≤ 32
  rw [List.length_append, List.length_singleton]
  omega

theorem keeps_couchBeat (n : Nat) (b : CouchBeat) : Keeps s (s.couchBeat n b) := by
  unfold State.couchBeat
  dsimp only
  split
  · exact Keeps.refl s
  · split
    · exact Keeps.setCh fun i => inv_bounded i n
    · split
      · exact Keeps.setCh fun i => inv_bounded i n
      · split
        · exact Keeps.setCh fun i => inv_bounded i n
        · rename_i hn
          have hc : (s.ch n).credit b.ctx.val ≠ 0 := fun e => by simp [e] at hn
          split
          · exact Keeps.setCh fun i => bounded_setCredit (inv_bounded i n) (by omega)
          · refine (keeps_seq _).after ?_
            split
            · exact Keeps.after (Keeps.setCh fun i => bounded_beat (h := s.ch n) (inv_bounded i n) _ hc _) (Keeps.modCtx ..)
            · exact Keeps.setCh fun i => bounded_beat (inv_bounded i n) _ hc _

theorem keeps_reelEnds (c ser cc : Nat) : Keeps s (s.reelEnds c ser cc) := by
  unfold State.reelEnds
  dsimp only
  repeat' split
  · exact (keeps_releaseGroups ..).after (keeps_modRun ..)
  · exact Keeps.refl s
  · exact Keeps.refl s

end

end Sys2Proof.Machine
end

