-- ==== Sys2Proof/Laws/KeepTile.lean ====
section
/-! SUPPORT. What the presentation of a beat, the commit of a tile, and the passing of time on a channel keep. -/
namespace Sys2Proof.Machine
open Sys2Proof.Safety

/-- A property that each element of a list keeps. -/
theorem foldl_keeps {α β : Type} {P : β → Prop} {f : β → α → β} (hf : ∀ b a, P b → P (f b a)) (l : List α) :
    ∀ b, P b → P (l.foldl f b) := by
  induction l with
  | nil => exact fun _ h => h
  | cons a r ih => exact fun b h => ih _ (hf b a h)

section
variable {s : State} {h : Channel}

/-! ### What a beat waits for -/

theorem keeps_readRecords (c ser : Nat) (idxs : List Nat) : Keeps s (s.readRecords c ser idxs).1 := by
  refine foldl_keeps (P := fun acc : State × Option Cause => Keeps s acc.1) (fun acc i k => ?_) idxs _ (Keeps.refl s)
  dsimp only
  have r := keeps_readRecord (s := acc.1) c ser i
  split
  · exact k
  · split
    · exact k
    · split
      · exact k
      · split
        · exact k
        · split
          · rename_i e
            rw [e] at r
            exact (Keeps.modCtx ..).after (r.after k)
          · rename_i e
            rw [e] at r
            exact r.after k
          · rename_i e
            rw [e] at r
            exact r.after k

theorem keeps_lineWait (c : Nat) (r : Run) (ks : List Nat) : Keeps s (s.lineWait c r ks).1 := by
  unfold State.lineWait
  extract_lets x h stash recs lines mine
  split
  · exact Keeps.refl s
  · split
    · exact Keeps.refl s
    · split
      · exact keeps_queueHome ..
      · exact Keeps.refl s

theorem keeps_verdict (n c : Nat) (r : Run) (b : CouchBeat) (t : Nat) : Keeps s (s.verdict n c r b t).1 := by
  unfold State.verdict
  extract_lets x cells cs ks v
  clear_value v
  split
  · exact Keeps.refl s
  · split
    · rename_i r'
      split
      · exact Keeps.refl s
      · extract_lets needs
        split
        · exact Keeps.refl s
        · have k := keeps_readRecords (s := s) c r'.ser needs
          split
          · rename_i e
            rw [e] at k
            exact k
          · rename_i u e
            rw [e] at k
            have l := (keeps_lineWait (s := u) c r' ks).after k
            revert l
            generalize u.lineWait c r' ks = q
            intro l
            simp only [apply_ite Prod.fst, ite_self]
            exact l
    · exact Keeps.refl s

/-! ### A beat -/

theorem bounded_setShadow (b : Bounded h) (p run u : Nat) (d : RPart) : Bounded (h.setShadow p run u d) := bounded_setReam b ..

theorem bounded_feedRow (b : Bounded h) (e : Env) (w : IWord) (n : Units) (u : Nat) (xs : List Arr) {q : Channel × List Off}
    (hq : feedRow e h w n u xs = some q) : Bounded q.1 := by
  unfold feedRow at hq
  extract_lets p base at hq
  split at hq
  · cases hq
  · extract_lets ds put at hq
    clear_value ds
    split at hq
    · split at hq
      · split at hq
        · cases hq
          exact bounded_setShadow (bounded_setShadow (bounded_setShadow b ..) ..) ..
        · cases hq
      · split at hq
        · cases hq
          exact bounded_setShadow (bounded_setShadow b ..) ..
        · cases hq
          exact bounded_setShadow (bounded_setShadow b ..) ..
    · cases hq

theorem bounded_feedAll (b : Bounded h) (e : Env) (u : Nat) (xs : List Arr) {q : Channel × List Off}
    (hq : feedAll e h u xs = some q) : Bounded q.1 := by
  unfold feedAll at hq
  split at hq
  · refine foldl_keeps (P := fun acc : Option (Channel × List Off) => ∀ q, acc = some q → Bounded q.1) (fun acc rg k => ?_) _
      (some (h, [])) (fun q e => by cases e; exact b) q hq
    intro q hq
    split at hq
    · cases hq
    · rename_i g os
      obtain ⟨r, hr, e⟩ := Option.map_eq_some_iff.mp hq
      subst e
      have b' := bounded_feedRow (h := g) (k (g, os) rfl) _ _ _ _ _ hr
      exact b'
  · cases hq
    exact b

theorem keeps_feed (n c : Nat) (r : Run) (els : List HElem) : Keeps s (s.feed n c r els) := by
  unfold State.feed
  dsimp only
  split
  · rename_i hq
    exact (keeps_offend ..).after (Keeps.setCh fun i => bounded_feedAll (inv_bounded i n) _ _ _ hq)
  · exact keeps_operand ..

theorem bounded_offerAll (b : Bounded h) (e : Env) (c : Nat) (fl : Flow) : Bounded (offerAll e c h fl) :=
  bounded_foldl (fun h _ b => by
    have k : Bounded h := b
    exact k) _ h b

theorem bounded_laneWork (b : Bounded h) (e : Env) (c : Nat) (q : CouchBeat) (half t u : Nat) (cs : List Cell) :
    Bounded (laneWork e c h q half t u cs).h := by
  unfold laneWork
  dsimp only
  split
  · exact b
  · exact b
  · exact b
  · exact bounded_offerAll b ..
  · split
    all_goals exact b

theorem bounded_laneWorks (e : Env) (c : Nat) (q : CouchBeat) (l : List (Nat × Nat × Nat × List Cell)) :
    ∀ k : Work, Bounded k.h → Bounded (laneWorks e c q l k).1.h := by
  induction l with
  | nil => exact fun _ b => b
  | cons a r ih =>
    intro k b
    unfold laneWorks
    dsimp only
    refine ih _ ?_
    dsimp only
    exact bounded_laneWork b ..

theorem bounded_importRecord (e : Env) (g : IngW) (q : CouchBeat) (first u : Nat) (k : Channel × Option Nat) (j : Nat)
    (b : Bounded k.1) : Bounded (importRecord e g q first u k j).1 := by
  unfold importRecord
  split
  · split
    · exact b
    · split
      · split
        · exact b
        · split
          · exact bounded_setShadow b ..
          · exact b
      · exact b
  · exact b

theorem keeps_imports (n c : Nat) (r : Run) (b : CouchBeat) (first : Nat) : Keeps s (s.imports n c r b first) := by
  unfold State.imports
  split
  · exact Keeps.refl s
  · rename_i i w _
    have k (i : Inv s) : Bounded ((List.range b.nrec.toNat).foldl
        (importRecord ⟨s.ctx c, r⟩ (IngW.ofWord w) b first (s.ch n).cyc) (s.ch n, none)).1 :=
      foldl_keeps (P := fun acc : Channel × Option Nat => Bounded acc.1)
        (fun acc j b => bounded_importRecord _ _ _ _ _ acc j b) _ _ (inv_bounded i n)
    split
    · rename_i hq
      rw [hq] at k
      exact Keeps.setCh k
    · exact keeps_operand ..

theorem importWork_h (e : Env) (h : Channel) (q : CouchBeat) (t : Nat) : (importWork e h q t).h = h := by
  unfold importWork
  dsimp only
  repeat' split
  all_goals rfl

theorem bounded_addTree (b : Bounded h) (q : List TreeSlot) : Bounded (h.addTree q) := b

theorem bounded_treePlan (l : List (List (Nat × Nat))) : ∀ {h h' : Channel} {c run u : Nat} {us : List Nat},
    Bounded h → h.treePlan c run u l = some (h', us) → Bounded h' := by
  induction l with
  | nil =>
    intro h h' c run u us b e
    cases e
    exact b
  | cons a r ih =>
    intro h h' c run u us b e
    rw [Channel.treePlan] at e
    dsimp only at e
    split at e
    · cases e
    · split at e
      · rename_i e'
        cases e
        exact ih (bounded_addTree b ..) e'
      · cases e

theorem bounded_treeTakes (b : Bounded h) {h' : Channel} {x : Ctx} {c t : Nat} {r : Run} {eot : Bool} {us : List Nat}
    (e : h.treeTakes x c r eot t = some (h', us)) : Bounded h' := by
  unfold Channel.treeTakes at e
  split at e
  · cases e
  · rename_i k us' e'
    have b' : Bounded k := bounded_treePlan _ b e'
    generalize (if eot = true then r.turnSlots x c t else []) = qs at e
    dsimp only at e
    split at e
    · cases e
      exact b'
    · split at e
      · cases e
        exact bounded_addTree b' _
      · cases e

theorem bounded_beatWork (n c : Nat) (r : Run) (q : CouchBeat) (t : Nat) (i : Inv s) : Bounded (s.beatWork n c r q t).k.h := by
  unfold State.beatWork
  dsimp only
  have b : Bounded (((s.ch n).treeTakes (s.ctx c) c (r.recall (s.ctx c) (s.ch n)) q.eot t).getD (s.ch n, [])).1 := by
    cases e : (s.ch n).treeTakes (s.ctx c) c (r.recall (s.ctx c) (s.ch n)) q.eot t with
    | none => exact inv_bounded i n
    | some p => exact bounded_treeTakes (inv_bounded i n) (h' := p.1) (us := p.2) e
  split
  · rw [importWork_h]
    exact b
  · exact bounded_laneWorks _ _ _ _ _ b

theorem bounded_release (b : Bounded h) (c idx n : Nat) : Bounded (h.release c idx n) := b
theorem bounded_markEot (b : Bounded h) (ser pseq : Nat) : Bounded (h.markEot ser pseq) := b
theorem bounded_pruneTree (b : Bounded h) : Bounded h.pruneTree := b
theorem bounded_takeBeat (b : Bounded h) (ser : Nat) : Bounded (h.takeBeat ser) := bounded_couch b (List.length_filter_le ..)

theorem bounded_releases (b : Bounded h) (c : Nat) (l : List Nat) : Bounded (l.foldl (fun h i => h.release c i 1) h) :=
  bounded_foldl (fun _ _ b => bounded_release b ..) l h b

theorem bounded_ite {p : Prop} [Decidable p] {a b : Channel} (ha : Bounded a) (hb : Bounded b) : Bounded (if p then a else b) := by
  split
  · exact ha
  · exact hb

theorem keeps_endTile (n c ser : Nat) : Keeps s (s.endTile n c ser) := by
  unfold State.endTile
  extract_lets x h
  split
  · exact Keeps.refl s
  · extract_lets r rel h1 turn u v
    have b1 (i : Inv s) : Bounded h1 := bounded_ite (bounded_releases (inv_bounded i n) ..) (inv_bounded i n)
    have k : Keeps s u := Keeps.setCh fun i => bounded_defer (b1 i) _
    exact (keeps_markDone ..).after ((keeps_fixCounts c).after ((Keeps.modCtx ..).after k))

theorem keeps_seqError (c : Nat) : Keeps s (s.seqError c) := (keeps_fault ..).after (keeps_raise ..)

theorem keeps_tileCheck (n c ser pseq : Nat) : Keeps s (s.tileCheck n c ser pseq) := by
  unfold State.tileCheck
  split
  · exact Keeps.ite (keeps_endTile ..) (keeps_seqError c)
  · exact Keeps.refl s

theorem keeps_presentBeat (n c : Nat) (r : Run) (b : CouchBeat) (t : Nat) : Keeps s (s.presentBeat n c r b t) := by
  unfold State.presentBeat
  extract_lets x d res beats gap h0 h r' u
  have hd (i : Inv s) : Bounded d.k.h := bounded_beatWork n c r b t i
  clear_value d
  have hd (i : Inv s) : Bounded h := hd i
  have k : Keeps s (s.setCh n (h.defer (r.beatEvents c b t d))) := Keeps.setCh fun i => bounded_defer (hd i) _
  exact (keeps_present ..).after ((Keeps.modCtx c _).after k)

theorem keeps_pollStep (n t : Nat) (p : Poll) (q : Cand) : Keeps p.s (p.step n t q).s := by
  have k := keeps_verdict (s := p.s) n q.ctx q.run q.beat.beat t
  unfold Poll.step
  revert k
  generalize p.s.verdict n q.ctx q.run q.beat.beat t = v
  intro k
  split
  · exact k
  · exact (keeps_operand ..).after k
  · split
    · exact k
    · split
      · exact (keeps_seqError _).after ((Keeps.modCh _ (by exact fun _ b => bounded_takeBeat b _)).after k)
      · exact k

theorem keeps_poll (n t : Nat) (l : List Cand) (p : Poll) : Keeps p.s (l.foldl (Poll.step n t) p).s :=
  foldl_keeps (P := fun q : Poll => Keeps p.s q.s) (fun a q k => (keeps_pollStep n t a q).after k) l p (Keeps.refl _)

/-! ### The commit of a tile -/

theorem bounded_commitShadows (b : Bounded h) (ser : Nat) (p : Nat → Bool) : Bounded (h.commitShadows ser p).1 := by
  unfold Channel.commitShadows
  refine foldl_keeps (P := fun acc : Channel × Flags => Bounded acc.1) (fun acc e k => ?_) _ (h, flNone) b
  dsimp only
  split
  · split
    · exact bounded_setReam k ..
    · exact k
  · exact k

theorem keeps_commitShadows (n c ser : Nat) (p : Nat → Bool) : Keeps s (s.commitShadows n c ser p) :=
  (keeps_raise ..).after (Keeps.setCh fun i => bounded_commitShadows (inv_bounded i n) ..)

theorem keeps_readsEnd (n c ser : Nat) : Keeps s (s.readsEnd n c ser) := by
  unfold State.readsEnd
  split
  · exact Keeps.ite (Keeps.modCtx ..) (Keeps.refl s)
  · exact Keeps.refl s

theorem keeps_closed (n c : Nat) (r : Run) (k : Closes) : Keeps s (s.closed n c r k) := by
  unfold State.closed
  dsimp only
  exact (keeps_defer ..).after (Keeps.modCtx ..)

theorem keeps_addLoss (n c p v row pseq : Nat) (iflt : BitVec 64) : Keeps s (s.addLoss n c p v row pseq iflt) := by
  unfold State.addLoss
  dsimp only
  split
  · exact keeps_fault ..
  · exact (keeps_offend ..).after (Keeps.modCh _ fun _ b => bounded_setReam b ..)

theorem keeps_sampleClose (n c : Nat) (r : Run) (k : Closing) : Keeps s (s.sampleClose n c r k) := by
  unfold State.sampleClose
  dsimp only
  exact (Keeps.modCtx ..).after (Keeps.modCh _ fun _ b => b)

theorem keeps_commitSample (n c : Nat) (r : Run) (k : Closing) : Keeps s (s.commitSample n c r k) := by
  have h (f : Channel → Channel) (hf : ∀ h, Bounded h → Bounded (f h)) : Keeps s (s.modCh n f) := Keeps.modCh n hf
  unfold State.commitSample
  dsimp only
  split
  · exact (keeps_sampleClose ..).after (h _ fun _ b => b)
  · exact h _ fun _ b => b

theorem keeps_closeUnit (n c ser : Nat) (k : Closing) : Keeps s (s.closeUnit n c ser k) := by
  unfold State.closeUnit
  split
  · exact Keeps.refl s
  · split
    · exact keeps_commitSample ..
    · dsimp only
      exact (keeps_settle c).after ((keeps_closed ..).after (keeps_commitShadows ..))

theorem keeps_turn (n c ser q : Nat) : Keeps s (s.turn n c ser q) := by
  unfold State.turn
  split
  · exact Keeps.refl s
  · dsimp only
    split
    · exact keeps_operand ..
    · refine Keeps.foldl (fun s row => ?_) _ _
      exact (keeps_offend ..).after (Keeps.setCh fun i => bounded_setReam (bounded_setReam (inv_bounded i n) ..) ..)

theorem keeps_turnClose (n c ser q : Nat) : Keeps s (s.turnClose n c ser q) := by
  unfold State.turnClose
  split
  · exact Keeps.refl s
  · dsimp only
    exact (keeps_closed ..).after (Keeps.setCh fun i => bounded_foldl (fun _ _ b => bounded_setReam (bounded_setReam b ..) ..) _ _
      (inv_bounded i n))

theorem keeps_yieldLanes (n c ser : Nat) (ccs : List Nat) : Keeps s (s.yieldLanes n c ser ccs) := Keeps.setCh fun i => inv_bounded i n

theorem keeps_putOff (n c ser j : Nat) (e : HeldBeat × List HElem) : Keeps s (s.putOff n c ser j e) := by
  unfold State.putOff
  dsimp only
  exact Keeps.modCh _ fun _ b => b

theorem keeps_reserve (n c ser j : Nat) : Keeps s (s.reserve n c ser j) := by
  unfold State.reserve
  split
  · exact Keeps.refl s
  · split
    · exact Keeps.refl s
    · split
      · exact keeps_putOff ..
      · dsimp only
        exact (Keeps.modCtx ..).after (Keeps.after (Keeps.modCh _ fun _ b => b) (Keeps.after (Keeps.modCh _ fun _ b => b) (keeps_yieldLanes ..)))

theorem keeps_carryLeaves (n c : Nat) (r : Run) (held rows : Nat) (ccs : List Nat) : Keeps s (s.carryLeaves n c r held rows ccs) := by
  unfold State.carryLeaves
  dsimp only
  exact (Keeps.modCtx ..).after ((keeps_present ..).after (Keeps.modCh _ fun _ b => b))

/-- What follows the commit, or the last emission, of a tile. -/
theorem keeps_tileDone (n c ser cc : Nat) : Keeps s (((s.readsEnd n c ser).markDone c ser).reelEnds c ser cc) :=
  (keeps_reelEnds ..).after ((keeps_markDone ..).after (keeps_readsEnd ..))

theorem keeps_emitHeld (n c ser j : Nat) : Keeps s (s.emitHeld n c ser j) := by
  unfold State.emitHeld
  split
  · exact Keeps.refl s
  · split
    · exact Keeps.refl s
    · dsimp only
      refine (keeps_tileDone ..).after ?_
      generalize hs : State.present _ c (some ser) _ = u
      have k : Keeps s u := by
        rw [← hs]
        exact (keeps_present ..).after ((Keeps.modCtx ..).after (Keeps.modCh _ fun _ b => b))
      split
      · exact (keeps_carryLeaves ..).after k
      · exact k

theorem keeps_commit (n c ser : Nat) : Keeps s (s.commit n c ser) := by
  unfold State.commit
  split
  · exact Keeps.refl s
  · split
    · exact Keeps.refl s
    · dsimp only
      refine (keeps_reelEnds ..).after ((keeps_settle c).after ((keeps_markDone ..).after ((keeps_readsEnd ..).after ?_)))
      refine Keeps.trans ?_ (Keeps.ite (keeps_carryLeaves ..) (Keeps.refl _))
      refine (Keeps.modCtx ..).after ?_
      exact Keeps.trans (keeps_commitShadows ..) (Keeps.ite (keeps_closed ..) (Keeps.refl _))

theorem keeps_afterTile (n c ser : Nat) : Keeps s (s.afterTile n c ser) := (keeps_reelEnds ..).after (keeps_settle c)

/-! ### The passing of time -/

theorem keeps_later (n : Nat) (e : Later) : Keeps s (s.later n e) := by
  unfold State.later
  dsimp only
  split
  · exact keeps_offend ..
  · exact keeps_fault ..
  · exact keeps_tileCheck ..
  · split
    · exact keeps_feed ..
    · exact Keeps.refl s
  · split
    · exact keeps_imports ..
    · exact Keeps.refl s
  · exact keeps_commit ..
  · exact keeps_closeUnit ..
  · exact keeps_reserve ..
  · exact keeps_emitHeld ..
  · exact keeps_turn ..
  · exact keeps_turnClose ..
  · exact Keeps.modCtx ..
  · exact keeps_addLoss ..
  · exact (keeps_settle _).after (Keeps.modCtx ..)
  · exact Keeps.modCh _ fun _ b => bounded_release b ..
  · exact keeps_flush ..
  · exact (keeps_settle _).after (Keeps.modCh _ fun _ b => bounded_dropShadows b _)
  · exact keeps_afterTile ..

theorem keeps_settleTo (n cc rank fuel : Nat) : ∀ s : State, Keeps s (s.settleTo n cc rank fuel) := by
  induction fuel with
  | zero => exact fun s => Keeps.refl s
  | succ k ih =>
    intro s
    unfold State.settleTo
    split
    · exact Keeps.refl s
    · split
      · exact (ih _).after ((keeps_later ..).after (Keeps.modCh _ fun _ b => b))
      · exact Keeps.refl s

theorem keeps_settleDue (n : Nat) : Keeps s (s.settleDue n) := keeps_settleTo ..

theorem keeps_endCc (n j : Nat) : Keeps s (s.endCc n j) := by
  unfold State.endCc
  dsimp only
  refine Keeps.after (Keeps.modCh _ fun _ b => bounded_pruneTree b) ((keeps_charge n).after (Keeps.after (Keeps.modCh _ fun _ b => b) ?_))
  exact Keeps.ite (keeps_stalls ..) (Keeps.refl s)

theorem keeps_passFor (n cc rank fuel : Nat) : ∀ s : State, Keeps s (s.passFor n cc rank fuel) := by
  induction fuel with
  | zero => exact fun s => Keeps.refl s
  | succ k ih =>
    intro s
    unfold State.passFor
    split
    · exact Keeps.refl s
    · dsimp only
      refine (ih _).after ?_
      split
      · exact (keeps_settleTo ..).after (keeps_endCc ..)
      · exact (keeps_settleDue n).after (keeps_endCc ..)

theorem keeps_passTo (n cc rank : Nat) : Keeps s (s.passTo n cc rank) :=
  Keeps.ite ((keeps_settleTo ..).after (keeps_passFor ..)) (Keeps.refl s)

theorem keeps_pass (n cc : Nat) : Keeps s (s.pass n cc) := Keeps.ite ((keeps_settleDue n).after (keeps_passFor ..)) (Keeps.refl s)

theorem keeps_tickCh (n : Nat) : Keeps s (s.tickCh n) := Keeps.ite ((keeps_settleDue n).after (keeps_endCc ..)) (Keeps.refl s)

theorem keeps_tick : Keeps s s.tick :=
  Keeps.ite (Keeps.refl s) (Keeps.after (Keeps.foldl (fun _ _ => keeps_tickCh _) _ _) ⟨rfl, rfl, rfl, id⟩)

end

end Sys2Proof.Machine
end

