-- ==== Sys2Proof/Laws/KeepFlow.lean ====
section
/-! SUPPORT. What the operations keep in which time passes on a channel: runs through their channel, context commands, words, and what a
run leaves to be written. -/
namespace Sys2Proof.Machine
open Sys2Proof.Safety

section
variable {s : State} {h : Channel}

/-! ### Runs -/

theorem keeps_runStart (c : Nat) : Keeps s (s.runStart c) := by
  unfold State.runStart
  extract_lets n
  split
  · exact Keeps.refl s
  · split
    · exact Keeps.refl s
    · extract_lets u v
      have k : Keeps s u := keeps_pass ..
      split
      · split
        · exact (keeps_pass ..).after k
        · have l : Keeps s v := (keeps_pass ..).after k
          split
          · exact (keeps_settleDue n).after ((keeps_start ..).after l)
          · exact l
      · exact Keeps.ite ((keeps_pass ..).after k) k

theorem keeps_couch (n : Nat) : Keeps s (s.couch n) := by
  unfold State.couch
  extract_lets t
  split
  · exact Keeps.refl s
  · extract_lets p u
    have kp : Keeps s p.s := keeps_poll ..
    have k : Keeps s u := by
      simp only [u]
      split
      · exact (keeps_presentBeat ..).after (Keeps.after (Keeps.modCh _ fun _ b => bounded_takeBeat b _) kp)
      · exact kp
    exact (keeps_settleDue n).after (Keeps.after (Keeps.modCh _ fun _ b => b) k)

theorem keeps_couchPresent (n : Nat) : Keeps s (s.couchPresent n) := by
  unfold State.couchPresent
  split
  · exact Keeps.refl s
  · exact (keeps_couch n).after ((keeps_pass ..).after (Keeps.ite (keeps_pass ..) (Keeps.refl s)))

theorem bounded_uncommit (b : Bounded h) (ser : Nat) : Bounded (h.uncommit ser) := b

theorem keeps_tileCommit (c : Nat) : Keeps s (s.tileCommit c) := by
  unfold State.tileCommit
  extract_lets n
  split
  · exact Keeps.refl s
  · split
    · exact Keeps.refl s
    · extract_lets u
      have k : Keeps s u := keeps_pass ..
      split
      · exact k
      · extract_lets v w
        have l : Keeps s w := (keeps_settleDue n).after ((keeps_commit ..).after
          (Keeps.after (Keeps.modCh _ fun _ b => bounded_uncommit b _) ((keeps_passTo ..).after k)))
        exact Keeps.ite l ((keeps_pass ..).after l)

theorem keeps_toPort (n : Nat) (b : ReelBeat) : Keeps s (s.toPort n b) := by
  unfold State.toPort
  split
  · exact Keeps.modCh _ fun _ b => b
  · exact (keeps_modRun ..).after (Keeps.modCh _ fun _ b => b)

theorem keeps_reelPresent (n : Nat) : Keeps s (s.reelPresent n) := by
  unfold State.reelPresent
  extract_lets h
  split
  · exact Keeps.refl s
  · split
    · extract_lets u
      have k : Keeps s u := keeps_pass ..
      split
      · split
        · extract_lets v
          have l : Keeps s v := (keeps_toPort ..).after (Keeps.after (Keeps.modCh _ fun _ b => b) k)
          split
          · exact (keeps_reelEnds ..).after l
          · exact l
        · exact k
      · exact k
    · exact Keeps.refl s

/-! ### Context commands -/

theorem keeps_directsEnd (n c : Nat) : Keeps s (s.directsEnd n c) := by
  unfold State.directsEnd
  exact Keeps.ite (keeps_pass ..) ((Keeps.foldl (fun _ _ => keeps_later ..) _ _).after (Keeps.modCh _ fun _ b => b))

theorem keeps_migrate (c target : Nat) : Keeps s (s.migrate c target).1 := by
  unfold State.migrate
  extract_lets x h no
  split
  · exact keeps_bindRefused ..
  · split
    · exact keeps_bindRefused ..
    · split
      · exact keeps_bindRefused ..
      · split
        · exact keeps_bindRefused ..
        · split
          · exact keeps_bindRefused ..
          · dsimp only
            exact (Keeps.setCtx ..).after (Keeps.after (Keeps.modCh _ fun _ b => bounded_take b ..)
              (Keeps.after (Keeps.modCh _ fun _ b => bounded_give b _) ((keeps_writeBack ..).after (keeps_directsEnd ..))))

theorem keeps_abandoned (c : Nat) : Keeps s (s.abandoned c) := by
  unfold State.abandoned
  extract_lets x
  split
  · exact Keeps.refl s
  · split
    · exact Keeps.refl s
    · extract_lets u y v
      have k : Keeps s v := (keeps_releaseGroups ..).after ((Keeps.modCtx ..).after (keeps_pass ..))
      exact Keeps.ite ((keeps_restore c).after ((Keeps.modCtx ..).after k)) k

theorem keeps_drained (c : Nat) : Keeps s (s.drained c) := by
  unfold State.drained
  dsimp only
  split
  · exact Keeps.refl s
  · split
    · split
      · exact Keeps.refl s
      · exact (keeps_enterFree c).after (Keeps.after (Keeps.foldl (fun _ _ => Keeps.modCh _ (by exact fun _ b => b)) _ _) (keeps_abandoned c))
    · split
      · exact Keeps.refl s
      · have k (l : List LoftLine) := Keeps.after (Keeps.foldl (fun s (l : LoftLine) => keeps_queueHome (s := s) c l) l _)
          (keeps_pass (s := s) (s.chanOf c) ((s.ch (s.chanOf c)).lastDue c))
        split
        · exact k _
        · exact (keeps_enterFree c).after ((keeps_abandoned c).after (k _))

/-! ### Headbox -/

theorem keeps_accept (c ser : Nat) (w : IWord) : Keeps s (s.accept c ser w) := by
  unfold State.accept
  repeat' split
  · exact keeps_ifault ..
  · exact Keeps.modCtx ..
  · exact keeps_discard ..
  · exact Keeps.refl s
  · exact (keeps_settle c).after (Keeps.modCtx ..)

theorem keeps_takeWord (n : Nat) : Keeps s (s.takeWord n) := Keeps.after (Keeps.modCh _ fun _ b => b) (keeps_pass ..)

theorem keeps_refuseWord (c ten : Nat) (w : IWord) : Keeps s (s.refuseWord c ten w) := Keeps.ite (Keeps.refl s) (keeps_refuse ten)

theorem keeps_deliver (c ten ser : Nat) (w : IWord) : Keeps s (s.deliver c ten ser w) := by
  unfold State.deliver
  split
  · exact keeps_refuseWord ..
  · exact Keeps.trans (keeps_takeWord _) (Keeps.ite (keeps_refuseWord ..) (keeps_accept ..))

theorem keeps_headboxWord (rx c ten : Nat) (w : IWord) : Keeps s (s.headboxWord rx c ten w) := by
  unfold State.headboxWord
  split
  · rename_i hl
    have k : Keeps s (s.setRxq rx (s.rxq rx ++ [⟨w, c, ten, s.seq⟩])) :=
      Keeps.setRxq fun _ => by rw [List.length_append]; exact Nat.succ_le_of_lt hl
    exact ⟨k.1, k.2.1, k.2.2.1, k.2.2.2⟩
  · exact Keeps.refl s

theorem keeps_headboxDeliver (rx : Nat) : Keeps s (s.headboxDeliver rx) := by
  unfold State.headboxDeliver
  split
  · exact Keeps.refl s
  · exact (keeps_deliver ..).after (Keeps.setRxq fun i =>
      Nat.le_trans (List.length_filter_le ..) (i.2.2.2.2.2.2.2.1 rx))

theorem keeps_direct (c ten : Nat) (w : IWord) : Keeps s (s.direct c ten w) := by
  unfold State.direct
  split
  · exact (keeps_deliver ..).after (keeps_seq _)
  · exact Keeps.refl s

/-! ### What a run leaves to be written -/

theorem keeps_stashOverflow (c : Nat) : Keeps s (s.stashOverflow c) := (keeps_fault ..).after (keeps_raise ..)
theorem keeps_popRec (c : Nat) : Keeps s (s.popRec c) := Keeps.modCtx ..
theorem keeps_popStash (c : Nat) : Keeps s (s.popStash c) := Keeps.modCtx ..

theorem keeps_toWrite (c : Nat) (cc : Option Nat) : Keeps s (s.toWrite c cc) := by
  unfold State.toWrite
  split
  · exact Keeps.ite (keeps_pass ..) (Keeps.refl s)
  · exact Keeps.refl s

theorem bounded_modLine (b : Bounded h) (i : Nat) (f : LoftLine → LoftLine) : Bounded (h.modLine i f) := b

theorem bounded_freshen (b : Bounded h) (c idx v : Nat) : Bounded (h.freshen c idx v) := by
  unfold Channel.freshen
  split
  · exact b
  · exact b

theorem keeps_writeRecord (c : Nat) : Keeps s (s.writeRecord c) := by
  unfold State.writeRecord
  dsimp only
  refine Keeps.trans (keeps_toWrite c ((s.ctx c).recQ.head?.map fun w => w.cc)) ?_
  generalize s.toWrite c ((s.ctx c).recQ.head?.map fun w => w.cc) = s
  split
  · exact Keeps.refl s
  · split
    · exact Keeps.refl s
    · split
      · split
        · exact keeps_stashOverflow ..
        · exact (keeps_queueFelt ..).after (Keeps.after (Keeps.modCh _ fun _ b => bounded_freshen b ..) (keeps_popRec ..))
      · split
        · exact Keeps.after (Keeps.modCh _ fun _ b => bounded_modLine b ..) (keeps_popRec ..)
        · split
          · rename_i e
            exact Keeps.after (Keeps.setCh fun i => bounded_addLine (bounded_needLine
              (h := s.ch (s.ctx c).chan) (inv_bounded i (s.ctx c).chan) e) _) (keeps_popRec ..)
          · exact keeps_queueHome ..
          · exact Keeps.refl s
          · split
            · exact keeps_stashOverflow ..
            · exact Keeps.refl s

theorem keeps_writeStash (c : Nat) : Keeps s (s.writeStash c) := by
  unfold State.writeStash
  dsimp only
  refine Keeps.trans (keeps_toWrite c ((s.ctx c).stashQ.head?.map fun w => w.cc)) ?_
  generalize s.toWrite c ((s.ctx c).stashQ.head?.map fun w => w.cc) = s
  have full (w : StashWr) : Keeps s (if (s.ctx c).policy = 1 then (s.popStash c).setMark c w.tag
      else if (s.ctx c).policy = 2 then s.stashOverflow c else s) :=
    Keeps.ite ((keeps_setMark ..).after (keeps_popStash ..)) (Keeps.ite (keeps_stashOverflow ..) (Keeps.refl s))
  split
  · exact Keeps.refl s
  · split
    · exact Keeps.refl s
    · split
      · split
        · exact (keeps_queueFelt ..).after (keeps_popStash ..)
        · exact full _
      · split
        · rename_i e
          exact (keeps_queueFelt ..).after (Keeps.after (Keeps.setCh fun i => bounded_addLine (bounded_needLine
            (h := s.ch (s.ctx c).chan) (inv_bounded i (s.ctx c).chan) e) _) (keeps_popStash ..))
        · exact keeps_queueHome ..
        · exact Keeps.refl s
        · exact full _

theorem keeps_writeSample (c : Nat) : Keeps s (s.writeSample c) := by
  unfold State.writeSample
  dsimp only
  refine Keeps.trans (keeps_toWrite c ((s.ctx c).smpQ.head?.map fun w => w.cc)) ?_
  generalize s.toWrite c ((s.ctx c).smpQ.head?.map fun w => w.cc) = s
  split
  · exact Keeps.refl s
  · split
    · exact Keeps.refl s
    · exact (keeps_queueFelt ..).after (Keeps.setCtx ..)

theorem keeps_finish (c : Nat) (r : Run) : Keeps s (s.finish c r) := by
  unfold State.finish
  extract_lets u v w
  have k : Keeps s v := Keeps.trans (Keeps.modCtx ..) (Keeps.ite (keeps_releaseGroups ..) (Keeps.refl _))
  exact (keeps_settle c).after (Keeps.trans k (Keeps.ite (keeps_tev ..) (Keeps.refl _)))

theorem keeps_runComplete (c : Nat) : Keeps s (s.runComplete c) := by
  unfold State.runComplete
  extract_lets x
  split
  · exact Keeps.refl s
  · split
    · exact Keeps.refl s
    · extract_lets u
      have k : Keeps s u := keeps_pass ..
      split
      · exact (keeps_finish ..).after k
      · exact k

end

end Sys2Proof.Machine
end

