-- ==== Sys2Proof/Laws/KeepBlock.lean ====
section
/-! SUPPORT. What the operations on the block's registers and units keep: the furnish master, register writes, loads, the Felt
slices, errors and fences. -/
namespace Sys2Proof.Machine
open Sys2Proof.Safety

section
variable {s : State} {h : Channel}

/-- Fields that no invariant speaks of. -/
theorem Keeps.wrap {t : State} (k : Keeps s t) (w : Wrapper) : Keeps s { t with wrap := w } := k
theorem Keeps.mill {t : State} (k : Keeps s t) (m : Mill) : Keeps s { t with mill := m } := k
theorem Keeps.mnt {t : State} (k : Keeps s t) (m : Option MntLoad) : Keeps s { t with mnt := m } := k
theorem Keeps.uc {t : State} (k : Keeps s t) (n : Nat) : Keeps s { t with uc := n } := k
theorem Keeps.readData {t : State} (k : Keeps s t) (d : BitVec 64) : Keeps s { t with ctlRdata := d } := k

/-! ### Registers -/

theorem Keeps.master {m : Tbl IWord} (hm : Inv s → Tbl.wf 0 m = true) : Keeps s { s with master := m } :=
  ⟨rfl, rfl, rfl, fun i => ⟨i.1, i.2.1, i.2.2.1, i.2.2.2.1, i.2.2.2.2.1, hm i, i.2.2.2.2.2.2⟩⟩

theorem inv_master (i : Inv s) : Tbl.wf 0 s.master = true := i.2.2.2.2.2.1

theorem keeps_commitWord (slot : Nat) (w : IWord) : Keeps s (s.commitWord slot w) :=
  Keeps.after (Keeps.foldl (fun s n => by
    dsimp only
    split
    · exact Keeps.setCh fun i => bounded_ite (inv_bounded i n)
        (bounded_store (inv_bounded i n) (Tbl.wf_put _ _ _ _ (inv_bounded i n).2.1))
    · exact Keeps.refl s) _ _) (Keeps.master fun i => Tbl.wf_put _ _ _ _ (inv_master i))

theorem keeps_furnishLow (slot : Nat) (d : BitVec 64) : Keeps s (s.furnishLow slot d) := by
  unfold State.furnishLow
  split
  · exact Keeps.refl s
  · exact Keeps.refl s

theorem keeps_furnishHigh (slot : Nat) (d : BitVec 64) : Keeps s (s.furnishHigh slot d) := by
  unfold State.furnishHigh
  split
  · exact Keeps.refl s
  · refine (keeps_commitWord ..).trans (Keeps.foldl (fun s n => Keeps.modCh n fun h b => ?_) _ _)
    split
    · have k : Bounded h := b
      exact k
    · exact b

theorem keeps_writeCtxst (c : Nat) (d : BitVec 64) : Keeps s (s.writeCtxst c d) := Keeps.modCtx ..
theorem keeps_writeCtxres (c : Nat) (d : BitVec 64) : Keeps s (s.writeCtxres c d) := by
  unfold State.writeCtxres
  dsimp only
  split
  · exact Keeps.setCtx ..
  · exact Keeps.refl s
  · split
    · exact Keeps.refl s
    · split
      · exact Keeps.setCtx ..
      · exact (keeps_settleSlots c).after (Keeps.setCtx ..)
theorem keeps_writeCtxloft (c : Nat) (d : BitVec 64) : Keeps s (s.writeCtxloft c d) := Keeps.modCtx ..
theorem keeps_writeCtxstash (c : Nat) (d : BitVec 64) : Keeps s (s.writeCtxstash c d) := Keeps.modCtx ..
theorem keeps_writeCtxkey (c : Nat) (d : BitVec 64) : Keeps s (s.writeCtxkey c d) := Keeps.modCtx ..
theorem keeps_writeCtxbud (c : Nat) (d : BitVec 64) : Keeps s (s.writeCtxbud c d) := Keeps.modCtx ..

theorem clampWexp_range (v : Nat) : 10 ≤ clampWexp v ∧ clampWexp v ≤ 24 := by unfold clampWexp; omega

theorem bounded_wexp (b : Bounded h) (v n : Nat) : Bounded { h with wexpStored := clampWexp v, wexpAt := n } := by
  obtain ⟨h1, h2, h3, h4, h5, h6, h7, h8, h9, -⟩ := b
  exact ⟨h1, h2, h3, h4, h5, h6, h7, h8, h9, clampWexp_range v⟩

theorem keeps_writeChwin (n : Nat) (d : BitVec 64) : Keeps s (s.writeChwin n d) := Keeps.modCh _ fun _ b => bounded_wexp b ..

theorem keeps_clearCtxflag (c : Nat) (d : BitVec 64) : Keeps s (s.clearCtxflag c d) := Keeps.modCtx ..
theorem keeps_clearChflag (n : Nat) (d : BitVec 64) : Keeps s (s.clearChflag n d) := Keeps.modCh _ fun _ b => b
theorem keeps_clearCap (c : Nat) (d : BitVec 64) : Keeps s (s.clearCap c d) := Keeps.ite (Keeps.modCtx ..) (Keeps.refl s)
theorem keeps_clearIflt (c : Nat) (d : BitVec 64) : Keeps s (s.clearIflt c d) := Keeps.ite (Keeps.modCtx ..) (Keeps.refl s)
theorem keeps_clearLost (c : Nat) (d : BitVec 64) : Keeps s (s.clearLost c d) := Keeps.ite (Keeps.modCtx ..) (Keeps.refl s)
theorem keeps_clearIfstat (d : BitVec 64) : Keeps s (s.clearIfstat d) := ⟨rfl, rfl, rfl, id⟩
theorem keeps_clearTevpend (t : Nat) (d : BitVec 64) : Keeps s (s.clearTevpend t d) := Keeps.modTenant ..
theorem keeps_clearMark (c k : Nat) (d : BitVec 64) : Keeps s (s.clearMark c k d) := Keeps.modCtx ..
theorem keeps_writeDbgrsel (d : BitVec 64) : Keeps s (s.writeDbgrsel d) := ⟨rfl, rfl, rfl, id⟩
theorem keeps_readDbgrdesc : Keeps s s.readDbgrdesc := by
  unfold State.readDbgrdesc
  repeat' split
  all_goals exact ⟨rfl, rfl, rfl, id⟩
theorem keeps_readOut (off : Nat) : Keeps s (s.readOut off) := (Keeps.refl s).readData _
theorem bounded_clearPacing (b : Bounded h) (p : PacingCounter) : Bounded (h.clearPacing p) := by cases p <;> exact b

/-! ### Loads -/

theorem keeps_pushReport (t result detail : Nat) (tag : BitVec 16) : Keeps s (s.pushReport t result detail tag) := Keeps.modTenant ..
theorem keeps_endLoad (l : LoadSt) (result : Nat) : Keeps s (s.endLoad l result) :=
  (keeps_pushReport ..).after ((Keeps.refl s).mill _)

theorem keeps_refuseLoad (l : LoadSt) : Keeps s (s.refuseLoad l) := (keeps_pushReport ..).after ((Keeps.refl s).mill _)

theorem keeps_loadFailed : Keeps s s.loadFailed := by
  unfold State.loadFailed
  split
  · exact Keeps.refl s
  · exact keeps_endLoad ..

theorem keeps_loadWords (l : List (Nat × IWord)) (lines slot : Nat) :
    Keeps s (l.foldl (fun s iw => if 4 * lines + iw.1 = 0 then s else s.commitWord (slot + (4 * lines + iw.1)) iw.2) s) :=
  Keeps.foldl (fun s iw => by
    split
    · exact Keeps.refl s
    · exact keeps_commitWord ..) l s

theorem keeps_loadLine (data : Nat) : Keeps s (s.loadLine data) := by
  unfold State.loadLine
  split
  · exact Keeps.refl s
  · rename_i l _
    dsimp only
    have k := keeps_loadWords (s := s) ((List.range (((List.range 4).map fun i => BitVec.ofNat 128 (data >>> (128 * i))).take
      (l.count - 4 * l.lines)).length).zip (((List.range 4).map fun i => BitVec.ofNat 128 (data >>> (128 * i))).take
      (l.count - 4 * l.lines))) l.lines l.slot
    split
    · exact keeps_refuseLoad ..
    revert k
    generalize List.foldl _ s _ = t
    intro k
    split
    · exact (keeps_queueFelt ..).after (k.mill _)
    · split
      · exact (keeps_endLoad ..).after ((keeps_commitWord ..).after k)
      · exact (keeps_endLoad ..).after k

theorem bounded_spoil (b : Bounded h) (kind : Nat) : Bounded (h.spoil kind) := by
  unfold Channel.spoil
  split
  · exact b
  · exact b

theorem keeps_endMntErr (m : MntLoad) (code : Nat) (bad : Bool) : Keeps s (s.endMntErr m code bad) := by
  unfold State.endMntErr
  extract_lets u
  have k : Keeps s u := ⟨rfl, rfl, rfl, id⟩
  exact Keeps.ite k (Keeps.ite (Keeps.after (Keeps.modCh _ fun _ b => bounded_spoil b _) k) k)

theorem Keeps.slices {t u : State} (k : Keeps s t) (hu : Inv t → Tbl.wf Slice.reset u.slices = true) :
    Keeps s { t with slices := u.slices } :=
  ⟨k.1, k.2.1, k.2.2.1, fun i => let j := k.2.2.2 i
    ⟨j.1, j.2.1, j.2.2.1, hu j, j.2.2.2.2⟩⟩

theorem wf_modSlice (i : Inv s) (n : Nat) (f : Slice → Slice) : Tbl.wf Slice.reset (s.modSlice n f).slices = true :=
  Tbl.wf_put _ _ _ _ i.2.2.2.1

theorem keeps_abortLoad (l : LoadSt) (f : Slice → Slice) :
    Keeps s { s.endLoad l rsAborted with slices := (s.modSlice 0 f).slices } :=
  ⟨rfl, rfl, rfl, fun i => ((keeps_endLoad l rsAborted).slices (u := s.modSlice 0 f) fun _ => wf_modSlice i 0 f).inv i⟩

theorem keeps_millFault : Keeps s s.millFault := by
  unfold State.millFault
  dsimp only
  split
  · exact keeps_raiseIf _
  · refine Keeps.mill ?_ _
    refine (keeps_raiseIf 16).trans ?_
    generalize s.raiseIf 16 = t
    have last (u : State) : Keeps u (match u.mnt with
        | some m => if m.kind = 1 then u else
            (u.endMntErr m 0x7 true).modSlice 0 fun q => { q with wait := q.wait.filter fun a => a.kind != AccKind.maint }
        | none => u) := by
      split
      · split
        · exact Keeps.refl _
        · exact (Keeps.modSlice ..).after (keeps_endMntErr ..)
      · exact Keeps.refl _
    cases t.mill.cur with
    | none => exact last t
    | some l => exact (last _).after (keeps_abortLoad ..)

theorem keeps_mntLine (data : Nat) : Keeps s (s.mntLine data) := by
  unfold State.mntLine
  split
  · exact Keeps.refl s
  · split
    · exact Keeps.refl s
    · split
      · split
        · exact (Keeps.refl s).mnt _
        · extract_lets m u
          have k : Keeps s u := (Keeps.refl s).mnt _
          exact Keeps.ite k ((keeps_queueFelt ..).after k)
      · extract_lets m i u
        have k : Keeps s u := ⟨rfl, rfl, rfl, id⟩
        exact Keeps.ite ((keeps_queueFelt ..).after k) k

theorem keeps_mntFailed : Keeps s s.mntFailed := by
  unfold State.mntFailed
  split
  · exact Keeps.refl s
  · exact (Keeps.refl s).mnt _

theorem keeps_mntCommand (kind ch : Nat) : Keeps s (s.mntCommand kind ch) := by
  unfold State.mntCommand
  split
  · exact Keeps.refl s
  · dsimp only
    have k : Keeps s { s with mntDone := false, mntErr := false, mntCode := 0, seq := s.seq + 1 } := ⟨rfl, rfl, rfl, id⟩
    repeat' split
    · exact (keeps_endMntErr ..).after k
    · exact (keeps_endMntErr ..).after k
    · exact (keeps_queueFelt ..).after (k.mnt _)

theorem keeps_mntEnd (ok : Bool) : Keeps s (s.mntEnd ok) := by
  unfold State.mntEnd
  split
  · exact Keeps.refl s
  · split
    · exact keeps_endMntErr ..
    · exact Keeps.refl s
    · split
      · exact Keeps.refl s
      · split
        · exact keeps_endMntErr ..
        · dsimp only
          have k : Keeps s { s with mnt := none, mntDone := true } := ⟨rfl, rfl, rfl, id⟩
          split
          · exact Keeps.mill (keeps_millFault.after (k.mill _)) _
          · split
            · exact Keeps.after (Keeps.modCh _ (by exact fun _ b => b)) k
            · exact Keeps.after (Keeps.modCh _ (by exact fun _ b => b)) k

/-! ### Felt -/

theorem keeps_markLine (a : FeltAcc) (f : LoftLine → LoftLine) : Keeps s (s.markLine a f) := by
  unfold State.markLine
  split
  · exact Keeps.modCh _ fun _ b => b
  · exact Keeps.modCh _ fun _ b => b
  · exact Keeps.modCh _ fun _ b => b
  · exact Keeps.refl s

theorem keeps_noteLoss (c : Nat) : Keeps s (s.noteLoss c) := Keeps.modCtx ..

theorem keeps_lost (c : Nat) (stash : Bool) (tag : Nat) :
    Keeps s (if stash then (s.noteLoss c).setMark c tag else s.noteLoss c) :=
  Keeps.ite ((keeps_setMark ..).after (keeps_noteLoss c)) (keeps_noteLoss c)

theorem keeps_loseWb (ch c line : Nat) : Keeps s (s.loseWb ch c line) :=
  Keeps.after (Keeps.foldl (fun _ (l : LoftLine) => keeps_lost c l.stash l.tag) _ _) (Keeps.modCh _ (by exact fun _ b => b))

theorem keeps_wbFetched (ch : Nat) (a : FeltAcc) (f : LoftLine → LoftLine) : Keeps s (s.wbFetched ch a f) := by
  unfold State.wbFetched
  exact Keeps.trans (Keeps.modCh _ (by exact fun _ b => b)) (Keeps.ite (Keeps.refl _) (keeps_queueFelt ..))

theorem keeps_feltFail (a : FeltAcc) (code : Nat) : Keeps s (s.feltFail a code) := by
  unfold State.feltFail
  split
  · exact Keeps.refl s
  · dsimp only
    split
    · split
      · split
        · exact keeps_loadFailed
        · exact Keeps.refl s
      · exact Keeps.refl s
    · split
      · split
        · exact keeps_mntFailed
        · exact Keeps.refl s
      · exact Keeps.refl s
    · exact (keeps_fault ..).after (Keeps.modCh _ (by exact fun _ b => b))
    · exact (keeps_fault ..).after (Keeps.ite (Keeps.refl s) (keeps_loseWb ..))
    · exact keeps_fault ..
    · exact (keeps_fault ..).after ((keeps_wbFetched ..).after (Keeps.modCh _ (by exact fun _ b => bounded_lines b ..)))
    · exact (keeps_fault ..).after ((keeps_setMark ..).after (Keeps.modCh _ (by exact fun _ b => b)))
    · exact (keeps_fault ..).after (keeps_setMark ..)
    · exact keeps_fault ..

theorem bounded_fillLine (b : Bounded h) (c line data : Nat) : Bounded (h.fillLine c line data) := b

theorem keeps_feltDone (o : FeltOut) : Keeps s (s.feltDone o) := by
  unfold State.feltDone
  dsimp only
  split
  · exact Keeps.refl s
  · split
    · split
      · split
        · exact keeps_loadLine ..
        · exact Keeps.refl s
      · exact Keeps.refl s
    · split
      · split
        · exact keeps_mntLine ..
        · exact Keeps.refl s
      · exact Keeps.refl s
    · exact Keeps.modCh _ fun _ b => b
    · exact Keeps.modCh _ fun _ b => b
    · exact Keeps.modCh _ fun _ b => b
    · refine Keeps.trans ?_ (Keeps.ite (Keeps.refl _) (Keeps.modCh _ fun _ b => bounded_fillLine b ..))
      exact (keeps_wbFetched ..).after (Keeps.modCh _ fun _ b => bounded_fillLine b ..)
    · exact Keeps.refl s

theorem keeps_toFlush (n : Nat) : Keeps s (s.toFlush n) := by
  unfold State.toFlush
  refine Keeps.ite (Keeps.refl s) ?_
  split
  · exact keeps_pass ..
  · exact Keeps.refl s

theorem keeps_feltIssue (n : Nat) : Keeps s (s.feltIssue n) := by
  unfold State.feltIssue
  extract_lets t u q
  have k : Keeps s u := (Keeps.modSlice ..).after (keeps_toFlush n)
  split
  · split
    · exact k
    · extract_lets w
      have k : Keeps s w := k.trans ⟨rfl, rfl, rfl, id⟩
      split
      · exact (keeps_feltFail ..).after ((Keeps.setSlice ..).after k)
      · exact (keeps_markLine ..).after ((Keeps.setSlice ..).after k)
  · exact k

theorem keeps_failOut (n : Nat) (o : FeltOut) : Keeps s (s.failOut n o) := by
  unfold State.failOut
  split
  · exact Keeps.refl s
  · exact (keeps_feltFail ..).after (Keeps.modSlice ..)

theorem Keeps.atUc (u : Nat) : Keeps s { s with uc := u } := ⟨rfl, rfl, rfl, id⟩

theorem keeps_takeResponse (n : Nat) : Keeps s (s.takeResponse n) := (Keeps.modSlice ..).after (Keeps.atUc _)

theorem keeps_acceptData (n : Nat) : Keeps s (s.acceptData n) :=
  Keeps.ite (Keeps.refl s) ((Keeps.setSlice ..).after (Keeps.atUc _))

theorem keeps_feltResponse (n : Nat) (r : FeltResp) : Keeps s (s.feltResponse n r) := by
  unfold State.feltResponse
  have k := keeps_takeResponse (s := s) n
  revert k
  generalize s.takeResponse n = p
  intro k
  dsimp only
  split
  · exact k
  · rename_i o _
    have k : Keeps s (if r.err then p.failOut n o else p) := Keeps.ite ((keeps_failOut ..).after k) k
    revert k
    generalize (if r.err then p.failOut n o else p) = t
    intro k
    split
    · split
      · exact (Keeps.modSlice ..).after k
      · exact (keeps_feltDone ..).after ((Keeps.modSlice ..).after k)
    · exact (Keeps.modSlice ..).after k

/-! ### Errors and fences -/

theorem keeps_place (n c : Nat) : Keeps s (s.place n c) := by
  unfold State.place
  dsimp only
  split
  · exact Keeps.refl s
  · refine (keeps_tev ..).after ?_
    refine Keeps.trans ((Keeps.modCh n fun _ b => bounded_give b c).after (keeps_writeBack n c)) ?_
    generalize (s.writeBack n c).modCh n (fun h => h.give c) = t
    split
    · exact (Keeps.setCtx ..).after (Keeps.setCh fun i => bounded_take (inv_bounded i _) ..)
    · exact Keeps.after (Keeps.ite (Keeps.refl _) (keeps_tev ..)) (Keeps.setCtx ..)

theorem keeps_fenceLoad (n : Nat) : Keeps s (s.fenceLoad n) := by
  unfold State.fenceLoad
  split
  · split
    · exact (Keeps.modSlice ..).after (keeps_endMntErr ..)
    · exact Keeps.refl s
  · exact Keeps.refl s

theorem keeps_fence (n src index : Nat) : Keeps s (s.fence n src index) := by
  unfold State.fence
  dsimp only
  split
  · exact Keeps.refl s
  · split
    · exact Keeps.setCh fun i => inv_bounded i n
    · refine Keeps.after (Keeps.modCh n fun _ b => bounded_fenceWipe b) (Keeps.after (Keeps.foldl (fun _ _ => keeps_place ..) _ _) ?_)
      exact (keeps_fenceLoad n).after ((keeps_raiseIf n).after (Keeps.setCh fun i => inv_bounded i n))

theorem keeps_countError (n : Nat) : Keeps s (s.countError n) := by
  unfold State.countError
  dsimp only
  exact Keeps.after (Keeps.ite (keeps_fence ..) (Keeps.refl _)) (Keeps.setCh fun i => inv_bounded i n)

theorem keeps_ownerError (c code : Nat) : Keeps s (s.ownerError c code) := by
  unfold State.ownerError
  exact Keeps.ite ((keeps_countError ..).after (keeps_fault ..)) (Keeps.refl s)

theorem keeps_scrubbed (n : Nat) : Keeps s (s.scrubbed n) := Keeps.modCh _ fun h b => by
  split
  · exact b
  · exact b

theorem keeps_loseLine (n : Nat) (l : LoftLine) : Keeps s (s.loseLine n l) := by
  have k : Keeps s (s.modCh n fun h => h.dropLine l.idx) := Keeps.modCh _ fun _ b => b
  unfold State.loseLine
  dsimp only
  split
  · exact k
  · exact (keeps_lost ..).after k

theorem Keeps.mailbox {q : List MbEntry} (hq : Inv s → q.length ≤ 64) : Keeps s { s with mailbox := q } :=
  ⟨rfl, rfl, rfl, fun i => ⟨i.1, i.2.1, i.2.2.1, i.2.2.2.1, i.2.2.2.2.1, i.2.2.2.2.2.1, i.2.2.2.2.2.2.1, i.2.2.2.2.2.2.2.1,
    hq i, i.2.2.2.2.2.2.2.2.2⟩⟩

theorem inv_mailbox (i : Inv s) : s.mailbox.length ≤ 64 := i.2.2.2.2.2.2.2.2.1
theorem inv_rxq (i : Inv s) (n : Nat) : (s.rxq n).length ≤ 64 := i.2.2.2.2.2.2.2.1 n

theorem keeps_uncorrectable (u : ErrUnit) (index : Nat) : Keeps s (s.uncorrectable u index) := by
  unfold State.uncorrectable
  split
  · exact Keeps.ite (keeps_fence ..) (keeps_scrubbed ..)
  · extract_lets n
    split
    · exact (keeps_fence ..).after (keeps_loseWb ..)
    · split
      · exact Keeps.ite ((keeps_fence ..).after (keeps_loseLine ..)) (Keeps.refl s)
      · exact Keeps.ite (keeps_fence ..) (keeps_scrubbed ..)
  · exact Keeps.ite (keeps_fence ..) (keeps_scrubbed ..)
  · exact keeps_fence ..
  · exact keeps_fence ..
  · exact Keeps.modCh _ fun _ b => bounded_store b (Tbl.wf_put _ _ _ _ b.2.1)
  · exact Keeps.mailbox fun i => by simpa using inv_mailbox i
  · exact keeps_millFault
  · split
    · exact keeps_failOut ..
    · exact Keeps.refl s
  · split
    · exact Keeps.refl s
    · exact Keeps.trans (Keeps.setRxq fun i => Nat.le_trans (List.length_filter_le ..) (inv_rxq i _))
        (Keeps.ite (keeps_refuse _) (keeps_fault ..))

theorem keeps_loseWord (c : Nat) (f : Ctx → Ctx) : Keeps s (s.loseWord c f) := by
  unfold State.loseWord
  extract_lets x n enters u v
  have k : Keeps s v := (Keeps.modCtx ..).after (Keeps.ite (keeps_abandon c) (Keeps.refl s))
  exact Keeps.ite (Keeps.ite ((keeps_tev ..).after k) k) (Keeps.modCtx ..)

theorem keeps_loseMaster (slot : Nat) : Keeps s (s.loseMaster slot) :=
  Keeps.after (Keeps.foldl (fun _ _ => Keeps.modCh _ (by exact fun _ b => bounded_store b (Tbl.wfFrom_drop _ _ _ _ b.2.1))) _ _)
    (Keeps.master fun i => Tbl.wfFrom_drop _ _ _ _ (inv_master i))

theorem keeps_duplicateError (w : DupWord) (both : Bool) : Keeps s (s.duplicateError w both) := by
  unfold State.duplicateError
  split
  · exact keeps_raiseIf _
  · refine Keeps.trans (keeps_raiseIf 19) ?_
    dsimp only
    split
    · exact keeps_loseWord ..
    · exact keeps_loseWord ..
    · exact keeps_loseMaster ..
    · exact Keeps.modTenant ..

theorem keeps_corrected (i : Island) : Keeps s (s.corrected i) := by
  cases i with
  | chan ch => exact keeps_scrubbed ch.val
  | uncore => exact ⟨rfl, rfl, rfl, id⟩

theorem keeps_parity (n : Nat) (owner : Option CtxId) (index : Nat) : Keeps s (s.parity n owner index) := by
  unfold State.parity
  split
  · exact Keeps.ite (keeps_ownerError ..) (Keeps.refl s)
  · exact keeps_fence ..

theorem bounded_resume (b : Bounded h) (f : Option (Nat × Nat)) :
    Bounded { h with clkStop := false, fenceLatch := f, storeWait := [], store := Tbl.puts 0 h.store h.storeWait } :=
  bounded_store (h := { h with clkStop := false, fenceLatch := f, storeWait := [] }) b (Tbl.wf_puts _ _ _ b.2.1)

theorem keeps_clockResume (n : Nat) : Keeps s (s.clockResume n) := by
  unfold State.clockResume
  extract_lets h u v
  have k : Keeps s u := Keeps.setCh fun i => bounded_resume (inv_bounded i n) none
  have l : Keeps s v := by
    simp only [v]
    split
    · exact (keeps_fence ..).after k
    · exact k
  exact Keeps.ite (keeps_readDbgrdesc.after (Keeps.trans l ⟨rfl, rfl, rfl, id⟩)) l

end

end Sys2Proof.Machine
end

