-- ==== Sys2Proof/Laws/KeepControl.lean ====
section
/-! SUPPORT. What the states of a channel in service, power, the throttle, the clocks, the mailbox, Control writes and the wrapper
keep. -/
namespace Sys2Proof.Machine
open Sys2Proof.Safety

section
variable {s : State} {h : Channel}

/-! ### Channels in service -/

theorem bounded_enterTest (b : Bounded h) (t : Option WTest) : Bounded (h.enterTest t) := by
  have w := bounded_wipe b
  exact w

theorem keeps_test (n : Nat) (t : Option WTest) : Keeps s (s.test n t) := Keeps.modCh _ fun h b => by
  repeat' split
  · exact b
  · exact bounded_enterTest b _
  · exact bounded_enterTest b _
  · exact b

theorem keeps_testCommand (n : Nat) : Keeps s (s.testCommand n) := by
  unfold State.testCommand
  refine Keeps.after (keeps_test n none) (Keeps.modCh n fun h b => ?_)
  exact b

theorem bounded_rejoin (b : Bounded h) : Bounded h.rejoin := by
  unfold Channel.rejoin
  dsimp only
  repeat' split
  all_goals exact b

theorem keeps_quiesce (n : Nat) : Keeps s (s.quiesce n) := Keeps.modCh _ fun h b => by
  split
  · exact b
  · exact b

theorem bounded_unquiesce (b : Bounded h) : Bounded h.unquiesce := by
  unfold Channel.unquiesce
  split
  · exact b
  · exact b

theorem keeps_drainTimeout (n : Nat) : Keeps s (s.drainTimeout n) := by
  unfold State.drainTimeout
  dsimp only
  repeat' split
  · exact (Keeps.refl s).uc _
  · exact Keeps.after (Keeps.setCh fun i => inv_bounded i n) ((Keeps.refl s).uc _)
  · exact Keeps.refl s

theorem keeps_fenceDone (n : Nat) : Keeps s (s.fenceDone n) := by
  unfold State.fenceDone
  extract_lets h g
  split
  · exact Keeps.refl s
  · have k (i : Inv s) : Bounded g := inv_bounded i n
    split
    · exact Keeps.setCh fun i => bounded_enterTest (k i) g.wtest
    · split
      · exact Keeps.setCh fun i => bounded_enterTest (k i) none
      · exact (keeps_honourOff n).after (Keeps.setCh k)

theorem keeps_testEnds (n tres : Nat) : Keeps s (s.testEnds n tres) := by
  unfold State.testEnds
  dsimp only
  repeat' split
  · exact (keeps_honourOff n).after ((keeps_raiseIf _).after (Keeps.setCh fun i => inv_bounded i n))
  · exact Keeps.setCh fun i => inv_bounded i n
  · exact (keeps_honourOff n).after (Keeps.setCh fun i => inv_bounded i n)

theorem keeps_selfTestDone (n : Nat) (r : TestResult) : Keeps s (s.selfTestDone n r) := by
  unfold State.selfTestDone
  exact Keeps.ite (keeps_testEnds ..) (Keeps.refl s)

theorem bounded_copied (i : Inv s) (n : Nat) : Bounded { s.ch n with store := s.master } :=
  bounded_store (inv_bounded i n) (inv_master i)

theorem keeps_copyDone (n : Nat) : Keeps s (s.copyDone n) := by
  unfold State.copyDone
  extract_lets h
  split
  · exact Keeps.refl s
  · split
    · exact Keeps.ite (Keeps.refl s) (Keeps.setCh fun i => bounded_copied i n)
    · split
      · exact (keeps_honourOff n).after (Keeps.setCh fun i => bounded_copied i n)
      · exact Keeps.refl s

/-! ### Power and throttle -/

theorem floor_le (h : Channel) : h.floor ≤ 6 := Nat.min_le_right ..
theorem ceil_le (h : Channel) : h.ceil ≤ 6 := Nat.min_le_right ..

theorem bounded_powerUp (b : Bounded h) : Bounded h.powerUp := by
  obtain ⟨h1, h2, h3, h4, -, h6, -, -, -, h10, h11⟩ := bounded_wipe b
  exact ⟨h1, h2, h3, h4, floor_le h, h6, Nat.zero_le _, h10, h11, h10, h11⟩

theorem bounded_power (b : Bounded h) : Bounded h.power := by
  unfold Channel.power
  split
  · split
    · exact b
    · exact bounded_powerUp b
  · exact b
  · exact b

theorem keeps_turnOff (n : Nat) : Keeps s (s.turnOff n) := by
  unfold State.turnOff
  dsimp only
  repeat' split
  · exact Keeps.setCh fun i => inv_bounded i n
  · exact Keeps.setCh fun i => inv_bounded i n
  · exact Keeps.setCh fun i => inv_bounded i n
  · exact Keeps.refl s
  · exact Keeps.setCh fun i => bounded_goOff (inv_bounded i n)
  · exact Keeps.refl s

theorem bounded_switchesOpen (b : Bounded h) : Bounded h.switchesOpen := by
  unfold Channel.switchesOpen
  repeat' split
  · exact bounded_powerUp b
  · exact b
  · exact b

theorem keeps_powerUpDone (n : Nat) : Keeps s (s.powerUpDone n) := by
  unfold State.powerUpDone
  extract_lets h
  split
  · split
    · exact Keeps.setCh fun i => inv_bounded i n
    · exact (keeps_honourOff n).after (Keeps.setCh fun i => bounded_copied i n)
  · exact Keeps.refl s

theorem bounded_stepNow (b : Bounded h) : Bounded h.stepNow := by
  obtain ⟨h1, h2, h3, h4, -, h6, h7⟩ := b
  exact ⟨h1, h2, h3, h4, h6, h6, h7⟩

theorem thermal_le (b : Bounded h) (t : BitVec 8) : h.thermal t ≤ 6 := by
  have := b.2.2.2.2.2.2.1
  unfold Channel.thermal
  repeat' split
  all_goals omega

theorem bounded_throttle (b : Bounded h) (t : BitVec 8) (pw cc : Nat) : Bounded (h.throttle t pw cc) := by
  unfold Channel.throttle
  dsimp only
  have k : Bounded (if h.thrpend && decide (h.thrAt + 4096 ≤ cc) then h.stepNow else h) := by
    split
    · exact bounded_stepNow b
    · exact b
  revert k
  generalize (if h.thrpend && decide (h.thrAt + 4096 ≤ cc) then h.stepNow else h) = g
  intro k
  have th := thermal_le k t
  have f := floor_le g
  have c := ceil_le g
  obtain ⟨h1, h2, h3, h4, h5, h6, h7, h8⟩ := k
  split
  · rename_i hne
    refine ⟨h1, h2, h3, h4, h5, ?_, th, h8⟩
    dsimp only
    split <;> omega
  · exact ⟨h1, h2, h3, h4, h5, h6, th, h8⟩

theorem bounded_decision (b : Bounded h) (t : BitVec 8) (pw cc : Nat) : Bounded (h.decision t pw cc) := by
  have k : Bounded ({ h with pchctl := h.pchAt cc } : Channel) := b
  have r := bounded_throttle k t pw cc
  exact r

theorem keeps_throttleDecision (n : Nat) (t : BitVec 8) : Keeps s (s.throttleDecision n t) := by
  unfold State.throttleDecision
  extract_lets h
  exact Keeps.ite (Keeps.after (Keeps.modCh _ fun _ b => bounded_decision b ..) (keeps_pass ..)) (Keeps.refl s)

theorem keeps_stepEffect (n : Nat) : Keeps s (s.stepEffect n) := by
  unfold State.stepEffect
  extract_lets h
  exact Keeps.ite (Keeps.after (Keeps.modCh _ fun _ b => bounded_stepNow b) (keeps_pass ..)) (Keeps.refl s)

theorem nextPw_le (i : Inv s) (mw : Nat) : s.nextPw mw ≤ 6 := by
  have := i.2.2.2.2.2.2.2.2.2
  unfold State.nextPw
  dsimp only
  repeat' split
  all_goals omega

theorem keeps_sendPw (pw : Nat) : Keeps s (s.sendPw pw) :=
  Keeps.foldl (fun _ _ => Keeps.modCh _ fun _ b => by
    split
    · exact b
    · exact b) _ _

theorem keeps_powerEstimate (mw : Nat) : Keeps s (s.powerEstimate mw) := by
  unfold State.powerEstimate
  extract_lets u pw
  refine (keeps_sendPw pw).after ⟨rfl, rfl, rfl, fun i => ?_⟩
  obtain ⟨h1, h2, h3, h4, h5, h6, h7, h8, h9, -⟩ := id i
  exact ⟨h1, h2, h3, h4, h5, h6, h7, h8, h9, nextPw_le i mw⟩

theorem bounded_window (b : Bounded h) (cc : Nat) (f : Bool) :
    Bounded { h with refilled := cc, wexp := if f then h.wexpStored else h.wexp } := by
  obtain ⟨h1, h2, h3, h4, h5, h6, h7, h8, h9, h10, h11⟩ := b
  refine ⟨h1, h2, h3, h4, h5, h6, h7, ?_, ?_, h10, h11⟩
  · dsimp only
    split
    · exact h10
    · exact h8
  · dsimp only
    split
    · exact h11
    · exact h9

theorem keeps_budgetRefill (n : Nat) : Keeps s (s.budgetRefill n) := by
  unfold State.budgetRefill
  extract_lets h cc force u
  split
  · exact Keeps.refl s
  · have k : Keeps s u := Keeps.after (Keeps.modCh _ fun _ b => bounded_window b ..) (keeps_pass ..)
    exact Keeps.after (Keeps.foldl (fun _ _ => Keeps.modCtx ..) _ _) k

theorem bounded_report (b : Bounded h) : Bounded h.report := b

/-! ### The mailbox -/

theorem keeps_mbplWrite (t : Nat) (d : BitVec 64) : Keeps s (s.mbplWrite t d) := Keeps.modTenant ..

theorem keeps_mbphWrite (t : Nat) (d : BitVec 64) : Keeps s (s.mbphWrite t d) := by
  unfold State.mbphWrite
  split
  · exact Keeps.modTenant ..
  · rename_i hl
    have hm : s.mailbox.length < 64 := by
      simp only [Bool.or_eq_true, decide_eq_true_eq, not_or, ge_iff_le] at hl
      omega
    exact Keeps.after (Keeps.mailbox fun _ => by rw [List.length_append]; exact Nat.succ_le_of_lt hm) (Keeps.modTenant ..)

theorem keeps_mbrptRead (t : Nat) : Keeps s (s.mbrptRead t) := (Keeps.modTenant ..).readData _

theorem firstEntry_length (l : List MbEntry) {e : MbEntry} {r : List MbEntry}
    (h : State.takeEntry.firstEntry s l = some (e, r)) : r.length ≤ l.length := by
  induction l generalizing e r with
  | nil => cases h
  | cons a q ih =>
    unfold State.takeEntry.firstEntry at h
    split at h
    · cases h
      exact Nat.le_succ _
    · cases hq : State.takeEntry.firstEntry s q with
      | none => rw [hq] at h; cases h
      | some p =>
        rw [hq] at h
        cases h
        exact Nat.succ_le_succ (ih (e := p.1) (r := p.2) hq)

theorem keeps_millTake (op : Nat) (f : State → MbEntry → State) (hf : ∀ t e, Keeps t (f t e)) : Keeps s (s.millTake op f) := by
  unfold State.millTake
  split
  · exact Keeps.refl s
  · split
    · exact Keeps.refl s
    · rename_i e rest he
      have hl : rest.length ≤ s.mailbox.length := by
        unfold State.takeEntry at he
        cases hq : State.takeEntry.firstEntry s s.mailbox with
        | none => rw [hq] at he; cases he
        | some p =>
          rw [hq] at he
          cases he
          exact firstEntry_length _ hq
      have k : Keeps s { s with mailbox := rest, mill := { s.mill with lastBeat := s.uc } } :=
        (Keeps.mailbox fun i => Nat.le_trans hl (inv_mailbox i)).mill _
      dsimp only
      repeat' split
      · exact (keeps_pushReport ..).after k
      · exact (keeps_pushReport ..).after k
      · exact (hf ..).after k
      · exact Keeps.refl s

theorem keeps_reportCode (e : MbEntry) (code : Option Nat) : Keeps s (s.reportCode e code) := by
  unfold State.reportCode
  split
  · exact keeps_pushReport ..
  · exact keeps_pushReport ..

theorem keeps_freeDetail : Keeps s s.freeDetail.2 := ⟨rfl, rfl, rfl, id⟩

theorem keeps_millContext (e : MbEntry) (f : State → Nat → State × Option Nat) (hf : ∀ t c, Keeps t (f t c).1) :
    Keeps s (s.millContext e f) := by
  unfold State.millContext
  dsimp only
  split
  · exact (keeps_pushReport ..).after keeps_freeDetail
  · exact (keeps_reportCode ..).after (hf ..)

theorem keeps_millBind (e : MbEntry) : Keeps s (s.millBind e) :=
  Keeps.after (keeps_millContext _ _ fun _ c => keeps_bind c) (Keeps.ite (Keeps.modCtx ..) (Keeps.refl s))

theorem keeps_millReads (l : LoadSt) (n : Nat) (a : FeltAcc) :
    Keeps s ({ s with seq := n, mill := { s.mill with cur := some l } }.queueFelt 0 a) := by
  refine Keeps.after (keeps_queueFelt ..) ?_
  exact ⟨rfl, rfl, rfl, id⟩

theorem keeps_millLoad (e : MbEntry) : Keeps s (s.millLoad e) := by
  unfold State.millLoad
  dsimp only
  repeat' split
  · exact keeps_pushReport ..
  · exact (keeps_pushReport ..).after keeps_freeDetail
  · exact keeps_pushReport ..
  · exact (keeps_commitWord ..).trans (keeps_millReads ..)

theorem keeps_watchdog : Keeps s s.watchdog := by
  unfold State.watchdog
  exact Keeps.ite (keeps_millFault.after ((Keeps.refl s).uc _)) (Keeps.refl s)

theorem keeps_millRestart (bad : Bool) : Keeps s (s.millRestart bad) := by
  unfold State.millRestart
  dsimp only
  repeat' split
  · exact Keeps.refl s
  · exact (Keeps.refl s).mill _
  · exact (Keeps.refl s).mill _
  · exact (keeps_raiseIf _).after ((Keeps.refl s).mill _)

/-! ### Control writes -/

theorem keeps_ctxcmd (d : BitVec 64) : Keeps s (s.ctxcmd d) := by
  unfold State.ctxcmd
  dsimp only
  split
  · exact keeps_bind _
  · exact keeps_unbind _
  · exact keeps_teardown _
  · exact keeps_restore _
  · exact keeps_migrate ..
  · exact Keeps.refl s

theorem keeps_chcmd (n : Nat) (d : BitVec 64) : Keeps s (s.chcmd n d) := by
  unfold State.chcmd
  split
  · exact keeps_quiesce _
  · exact keeps_testCommand _
  · exact Keeps.modCh _ fun _ b => bounded_rejoin b
  · exact keeps_fence ..
  · exact Keeps.modCh _ fun _ b => bounded_unquiesce b
  · exact Keeps.refl s

theorem keeps_chpcmd (n : Nat) (d : BitVec 64) : Keeps s (s.chpcmd n d) := by
  unfold State.chpcmd
  split
  · exact Keeps.modCh _ fun _ b => bounded_power b
  · exact keeps_turnOff _
  · exact Keeps.refl s

theorem keeps_noPw : Keeps s { s with pw := 0 } :=
  ⟨rfl, rfl, rfl, fun ⟨h1, h2, h3, h4, h5, h6, h7, h8, h9, _⟩ => ⟨h1, h2, h3, h4, h5, h6, h7, h8, h9, Nat.zero_le _⟩⟩

theorem keeps_writeGlobal (o : Nat) (d : BitVec 64) : Keeps s (s.writeGlobal o d) := by
  unfold State.writeGlobal
  extract_lets u
  refine Keeps.ite (keeps_ctxcmd _) (Keeps.ite (keeps_clearIfstat _) (Keeps.ite ⟨rfl, rfl, rfl, id⟩ (Keeps.ite ⟨rfl, rfl, rfl, id⟩
    (Keeps.ite (keeps_mntCommand ..) (Keeps.ite ?_ (Keeps.refl s))))))
  have k : Keeps s u := ⟨rfl, rfl, rfl, id⟩
  exact Keeps.ite ((keeps_sendPw 0).after (keeps_noPw.after k)) k

theorem keeps_writeChannel (n o : Nat) (d : BitVec 64) : Keeps s (s.writeChannel n o d) := by
  unfold State.writeChannel
  repeat' split
  · exact keeps_clearChflag ..
  · exact keeps_writeChwin ..
  · exact keeps_chcmd ..
  · exact Keeps.modCh _ fun _ b => b
  · exact keeps_chpcmd ..
  · exact Keeps.modCh _ fun _ b => b
  · exact Keeps.refl s

theorem keeps_writeEntry (c k : Nat) (d : BitVec 64) : Keeps s (s.writeEntry c k d) := by
  unfold State.writeEntry
  split
  · exact keeps_writeCtxst ..
  · exact keeps_writeCtxres ..
  · exact keeps_writeCtxloft ..
  · exact keeps_writeCtxstash ..
  · exact keeps_writeCtxkey ..
  · exact Keeps.modCtx ..
  · exact Keeps.modCtx ..
  · exact keeps_writeCtxbud ..

theorem keeps_writeStatus (c k : Nat) (d : BitVec 64) : Keeps s (s.writeStatus c k d) := by
  unfold State.writeStatus
  repeat' split
  · exact keeps_clearCtxflag ..
  · exact keeps_clearCap ..
  · exact keeps_clearIflt ..
  · exact keeps_clearLost ..
  · exact keeps_clearMark ..
  · exact Keeps.refl s

theorem keeps_writeTenant (t o : Nat) (d : BitVec 64) : Keeps s (s.writeTenant t o d) := by
  unfold State.writeTenant
  split
  · exact Keeps.modTenant ..
  · split
    · exact keeps_clearTevpend ..
    · split
      · exact Keeps.modTenant ..
      · exact Keeps.refl s

theorem keeps_writeDebug (o : Nat) (d : BitVec 64) : Keeps s (s.writeDebug o d) := by
  unfold State.writeDebug
  repeat' split
  · exact Keeps.refl s
  · exact keeps_writeDbgrsel _
  · exact Keeps.refl s

theorem keeps_writeReg (off : Nat) (d : BitVec 64) : Keeps s (s.writeReg off d) := by
  unfold State.writeReg
  dsimp only
  refine Keeps.ite (keeps_writeGlobal ..) (Keeps.ite ?_ (Keeps.ite (Keeps.refl s) (Keeps.ite (keeps_writeChannel ..) ?_)))
  · exact Keeps.ite (keeps_mbplWrite ..) (Keeps.ite (keeps_mbphWrite ..) (Keeps.refl s))
  · refine Keeps.ite (Keeps.refl s) (Keeps.ite (keeps_writeEntry ..) (Keeps.ite (keeps_writeStatus ..) ?_))
    refine Keeps.ite (Keeps.refl s) (Keeps.ite (Keeps.ite (keeps_furnishLow ..) (keeps_furnishHigh ..)) ?_)
    exact Keeps.ite (Keeps.refl s) (Keeps.ite (keeps_writeTenant ..) (Keeps.ite (keeps_writeDebug ..) (Keeps.refl s)))

/-! ### The wrapper and the clocks -/

theorem keeps_setBist (n : Nat) (b : Bist) : Keeps s (s.setBist n b) := (Keeps.refl s).wrap _

theorem keeps_bistRequest (n : Nat) (l : Bool) : Keeps s (s.bistRequest n l) := by
  unfold State.bistRequest
  dsimp only
  repeat' split
  · exact keeps_setBist ..
  · exact (keeps_test ..).after (keeps_setBist ..)
  · exact Keeps.after (Keeps.setCh fun i => by
      have b := bounded_powerUp (inv_bounded i n)
      exact b) (keeps_setBist ..)
  · exact keeps_setBist ..

theorem bounded_testOff (b : Bounded h) (tres : Nat) (perm : Bool) (w : Option WTest) :
    Bounded { ({ h with tres := tres, perm := perm } : Channel).goOff with wtest := w } := by
  have g := bounded_goOff (h := { h with tres := tres, perm := perm }) b
  exact g

theorem keeps_bistDone (n : Nat) (r : TestResult) (f : BitVec 16) : Keeps s (s.bistDone n r f) := by
  unfold State.bistDone
  dsimp only
  repeat' split
  · exact Keeps.refl s
  · exact Keeps.refl s
  · exact Keeps.after (Keeps.setCh fun i => bounded_testOff (inv_bounded i n) ..) (keeps_setBist ..)
  · exact (keeps_raiseIf _).after (Keeps.after (Keeps.setCh fun i => bounded_testOff (inv_bounded i n) ..) (keeps_setBist ..))
  · exact (keeps_testEnds ..).after (keeps_setBist ..)
  · exact (keeps_testEnds ..).after (keeps_setBist ..)

theorem keeps_captureCells (g : Nat) (pins : List (Nat × Bool)) : Keeps s (s.captureCells g pins).2 := by
  unfold State.captureCells
  split
  · exact ⟨rfl, rfl, rfl, id⟩
  · exact Keeps.refl s

theorem keeps_capture (pins : List (Nat × Bool)) : Keeps s (s.capture pins) := by
  unfold State.capture
  extract_lets w g
  have k := keeps_captureCells (s := s) g pins
  split
  · exact k.wrap _
  · exact k.wrap _
  · exact (Keeps.refl s).wrap _
  · exact (Keeps.refl s).wrap _
  · exact (Keeps.refl s).wrap _
  · split
    · exact ⟨rfl, rfl, rfl, id⟩
    · exact (Keeps.refl s).wrap _
  · exact Keeps.refl s

theorem level_keeps {f : State → State} {t : State} (hf : Keeps s (f s)) (e : level s f = .next t) : Keeps s t := by
  unfold level at e
  split at e
  · cases e
  · cases e; exact hf

theorem wrapDo_keeps {f : Wrapper → Wrapper} {t : State} (e : wrapDo s f = .next t) : Keeps s t := by
  cases e
  exact (Keeps.refl s).wrap _

end

end Sys2Proof.Machine
end

