-- ==== Sys2Proof/WellFormed.lean ====
section
/-! DEFINITION. When a command is well formed: its operands lie in the ranges that the ports and the integrator's
obligations give them. -/
namespace Sys2Proof

/-- Keys strictly rising and below a bound. -/
def keysOk {α : Type} (bound : Nat) : List (Nat × α) → Bool
  | [] => true
  | [x] => x.1 < bound
  | x :: y :: r => x.1 < y.1 && x.1 < bound && keysOk bound (y :: r)

/-- A Couch beat names slots 0 to 1,023 and scale positions 0 to 127, each once (Table 12-3). -/
def CouchBeat.wf (b : CouchBeat) : Bool :=
  keysOk 1024 b.data && keysOk 128 b.sca && keysOk 128 b.scb

/-- The cells of the boundary register over all segments (Table 16-5). -/
def boundaryCells : Nat := 429213

/-- The words an error names lie inside the unit that holds them (R26, R216, R172, R378, R313). -/
def ErrUnit.wf : ErrUnit → Bool
  | .loft _ _ line => line < 16384
  | .ream _ _ r => r < 256
  | .furnish _ slot => slot < 4096
  | .mailbox e => e < 64
  | .headbox _ e => e < 64
  | _ => true

/-- Clock limits of R382, in kHz. -/
def ClockIn.wf (clk : ClockIn) (kHz : Nat) : Bool :=
  match clk with
  | .chan _ => kHz ≤ 1250000
  | .uncore => 100000 ≤ kHz && kHz ≤ 1250000

/-- Well-formed commands (log 64). -/
def Instr.wf : Instr → Bool
  | .couchBeat _ b => b.wf
  | .uncorrectableError u _ => u.wf
  | .duplicateCopyError (.master slot _) _ => slot < 4096
  | .clockFrequencyChange clk f => clk.wf f
  | .wrapperCapture pins => keysOk boundaryCells pins
  | .boundaryRegisterUpdate cells => keysOk boundaryCells cells
  | _ => true

end Sys2Proof
end

