-- ==== Sys2Proof/Tests/Slice0.lean ====
section
/-! SUPPORT. Tests of the model on small states, each about one step: ill-formed operands are refused, results that the spec's worked
examples and tables give, and for each statement with hypotheses a state and operands that meet them together. -/
namespace Sys2Proof.Tests
open Sys2Proof Sys2Proof.Machine Sys2Proof.Safety

/-! ### Ill-formed operands (WellFormed) -/

def beat0 : CouchBeat := ⟨0, 0, true, true, 0, 0, [], [], []⟩

theorem test_wf_beat : (Instr.couchBeat 0 beat0).wf = true := by decide
theorem test_wf_beat_slot_1024 : (Instr.couchBeat 0 { beat0 with data := [(1024, 0)] }).wf = false := by decide
theorem test_wf_beat_slots_rise : (Instr.couchBeat 0 { beat0 with data := [(3, 0), (3, 1)] }).wf = false := by decide
theorem test_wf_beat_scale_a_128 : (Instr.couchBeat 0 { beat0 with sca := [(128, 0)] }).wf = false := by decide
theorem test_wf_beat_scale_b_128 : (Instr.couchBeat 0 { beat0 with scb := [(128, 0)] }).wf = false := by decide
theorem test_wf_loft_line : (Instr.uncorrectableError (.loft 0 none 16384) 0).wf = false := by decide
theorem test_wf_ream : (Instr.uncorrectableError (.ream 0 none 256) 0).wf = false := by decide
theorem test_wf_furnish : (Instr.uncorrectableError (.furnish 0 4096) 0).wf = false := by decide
theorem test_wf_mailbox : (Instr.uncorrectableError (.mailbox 64) 0).wf = false := by decide
theorem test_wf_headbox : (Instr.uncorrectableError (.headbox 0 64) 0).wf = false := by decide
theorem test_wf_master : (Instr.duplicateCopyError (.master 4096 false) true).wf = false := by decide
theorem test_wf_channel_clock : (Instr.clockFrequencyChange (.chan 0) 1250001).wf = false := by decide
theorem test_wf_uncore_clock : (Instr.clockFrequencyChange .uncore 99999).wf = false := by decide
theorem test_wf_capture : (Instr.wrapperCapture [(429213, true)]).wf = false := by decide
theorem test_wf_boundary : (Instr.boundaryRegisterUpdate [(5, true), (4, true)]).wf = false := by decide

/-! ### States for tests -/

/-- The state after initialisation. -/
def up : State := { State.reset with ucrdy := true }
/-- A READY channel, and one that holds context 0 with one block of four reams. -/
def rdy : Channel := { Channel.reset with st := .ready }
def h0 : Channel := { rdy with alloc := [⟨0, 0, 0, 4, 0⟩] }
/-- Context 0 bound to channel 0 with lane group 0 and extent 1. -/
def x0 : Ctx := { Ctx.reset with st := .bound, lgmask := 1, reamreq := 1, extent := 1 }
/-- Context 0 and channel 0 with given contents. -/
def bnd (x : Ctx) (h : Channel) : State := (up.setCh 0 h).setCtx 0 x
/-- A run of a program that has no word, delivered first. -/
def r0 : Run := { newRun x0 1 0 ⟨false, false, false, 0, 0, 0, 0, false⟩ with slot := none }
/-- The program of a plain pass of 64 columns in FP32: header, INGEST, EMIT (Table 10-4, Table 10-6, Table 10-13). -/
def prog0 : List IWord := [319045872772006907985988603734346694656#128, 21267647932558653966460912964485513216#128,
  170141183460469231731687303715884105728#128]
/-- Channel 0 with that program at slot 0. -/
def hp : Channel := { h0 with store := [(0, prog0.getD 0 0), (1, prog0.getD 1 0), (2, prog0.getD 2 0)] }
def rp : Run := { r0 with slot := some 0 }

/-! ### Hypotheses of the statements are met: queue, clocks, reset -/

theorem witness_StepRunsFrontCommand : ({ up with pending := [.scrub .uncore] } : State).pending = .scrub .uncore :: [] := by decide
theorem witness_IdleStepTicksClocks : (bnd x0 h0).pending = [] ∧ Inside (bnd x0 h0)
    ∧ (∀ n < 8, NothingDue ((bnd x0 h0).ch n) (((bnd x0 h0).ch n).cyc + 1)) ∧ ((bnd x0 h0).ch 0).st ≠ .off
    ∧ ((bnd x0 h0).ch 0).clkStop = false ∧ ((bnd x0 h0).ch 1).st = .off := by decide
theorem witness_ResetTakesEffectAndEnds : up.undef = false ∧ Inside up := by decide
theorem witness_NothingActsWhileResetIsLow : ({ up with jrst := true } : State).undef = false
    ∧ ({ up with jrst := true } : State).jrst = true ∧ actsInReset (.nop 0 0) = false := by decide
theorem witness_ResetLevelAndQueueAreKept : exec .resetRelease up = .next { up with jrst := false }
    ∧ exec (.wsBypass 0) up = .next { up with wrap := { up.wrap with wir := 0 } } := ⟨rfl, rfl⟩
/-- Resumed clocks: with a fence that waits, and with a read of DBGRDESC that waits. -/
theorem witness_ClockInputsStopAndResumeIslands : up.undef = false
    ∧ ({ h0 with clkStop := true, fenceLatch := some (8, 0) } : Channel).fenceLatch = some (8, 0) ∧ h0.st = .ready
    ∧ h0.fenceLatch = none ∧ ({ bnd x0 h0 with dbgWait := true } : State).dbgCh = 0 := by decide

/-! ### Registers -/

theorem witness_WritesOfOneClear : Commanded up ∧ (1#64).getLsbD 0 = true ∧ (0xFFFFFFFFFFFFFFFE#64).getLsbD 0 = false := by decide
/-- An offence detected in the present cc, 5, and one of an earlier cc. -/
theorem witness_WritesOfOneClear_rearm : ∀ cc ∈ [4, 5], let s := bnd { x0 with capNow := some ⟨false, 0, 0, 0, cc⟩ } { h0 with cyc := 5 }
    Commanded s ∧ (∃ a, (s.ctx 0).capNow = some a ∧ (a.cc = (s.ch (s.chanOf 0)).cyc ↔ cc = 5)) := by decide
/-- A fault and a loss that were recorded now, and earlier. -/
theorem witness_WritesOfOneClear_now : ∀ cc ∈ [4, 5],
    let s := { bnd { x0 with ifltNow := some (cc, 1), lostNow := some (cc, 8), lost := 9 } { h0 with cyc := 5 } with uc := 5 }
    Commanded s ∧ (∃ a, (s.ctx 0).ifltNow = some a ∧ (a.1 = (s.ch (s.chanOf 0)).cyc ↔ cc = 5))
      ∧ (∃ a, (s.ctx 0).lostNow = some a ∧ (a.1 = s.uc ↔ cc = 5) ∧ a.2 ≠ 0) ∧ (s.ctx 0).lost.getLsbD 0 = true := by decide
/-- Two offences of one cc, an invalid of row 0 and an ingress NaN of row 1, behind a capture of an earlier cc. -/
theorem witness_WritesOfOneClear_raise :
    let os : List Off := [⟨flInvalid, 5, 0, 0⟩, ⟨flIngressNan, 5, 1, 0⟩]
    let s := bnd { x0 with cap := some ⟨false, 0, 0, 0, 3⟩ } { h0 with cyc := 4, due := [⟨5, 0, none, .offs 0 os⟩] }
    (s.ch 0).ticking = true ∧ (s.ch 0).due = ⟨(s.ch 0).cyc + 1, 0, none, .offs 0 os⟩ :: [] ∧ (s.ctx 0).chan = 0
      ∧ (∀ o ∈ os, o.fl.getLsbD 4 = true ∨ o.fl.getLsbD 0 = true) ∧ (∀ o ∈ os, 3 < o.cc) := by decide
theorem witness_ReadToClearRegisters : Commanded up := by decide
theorem witness_ContextFieldsTakeWritesWhereTheyMay : Commanded up ∧ (up.ctx 1023).st = .free ∧ ((bnd x0 h0).ctx 0).st ≠ .free
    ∧ Commanded (bnd x0 h0) := by decide
/-- A draining context; a program named that the master does not hold; both programs dropped, with no run open, and while one is open,
before and after such a change. -/
theorem witness_ProgramChangeIsCheckedAndDeferred :
    (Commanded (bnd { x0 with st := .draining } h0) ∧ ((bnd { x0 with st := .draining } h0).ctx 0).st = .draining)
    ∧ x0 ≠ { x0 with progav := true } ∧ progCheck (bnd x0 h0).initDone { x0 with progav := true } = some 0x1
    ∧ (∀ rs ∈ [[], [r0]], ({ x0 with progav := true, runs := rs } : Ctx) ≠ { x0 with runs := rs }
      ∧ progCheck (bnd x0 h0).initDone { x0 with runs := rs } = none)
    ∧ x0.newSlots = [] ∧ x0.runs = [] ∧ ({ x0 with runs := [r0] } : Ctx).runs ≠ []
    ∧ (let x : Ctx := { x0 with runs := [r0], newSlots := [⟨[r0.ser], []⟩] }
       ∃ q ∈ x.newSlots.head?, ∃ r ∈ x.runs, r.ser ∈ q.before) := by decide
/-- A shadow whose terms come in cc 9, as it stands before that cc and in it. -/
def shown (cyc : Nat) : State :=
  { bnd x0 { h0 with cyc := cyc, reams := [(0, ⟨RPart.clear .sum, some ⟨1, RPart.clear .sum, [(9, RPart.clear .sum)]⟩⟩)] } with
    dbgen := true, dbgView := true }
theorem witness_DebugWindowTakesSnapshots_shadow : ∀ cyc ∈ [8, 9], Commanded (shown cyc) ∧ ((shown cyc).ch (shown cyc).dbgCh).st = .ready
    ∧ ((shown cyc).ch (shown cyc).dbgCh).clkStop = false
    ∧ ((((shown cyc).ch (shown cyc).dbgCh).ream (shown cyc).dbgReam).sh.map fun q => q.hist.map fun e => decide (e.1 ≤ cyc))
      = some [decide (cyc = 9)] := by decide
theorem witness_DebugWindowTakesSnapshots_busy : Reached { up with dbgWait := true } ∧ isControl .dbgrdescRead = true
    ∧ ((bnd x0 { h0 with clkStop := true, ctlHeld := true }).ch 0).ctlHeld = true := by decide
theorem witness_DebugWindowTakesSnapshots : Commanded up ∧ up.dbgen = false
    ∧ ({ up with dbgen := true } : State).dbgen = true ∧ (up.ch up.dbgCh).st = .off ∧ ((bnd x0 h0).ch 0).st ≠ .off
    ∧ ((bnd x0 h0).ch 0).st ≠ .fenced ∧ ((up.ch 0).ream 0).sh = none := by decide
theorem witness_UnoccupiedOffsetsAreIgnored : Commanded up ∧ ∀ o ∈ [0x002200, 0x00FFFF, 0x018000, 0x0FFFFF, 0x130000, 0x1FFFFF, 0x210000,
    0x2FFFFF, 0x300800, 0x3EFFFF, 0x400000, 0xFFFFFF], 0x002200 ≤ o ∧ o < 0x010000 ∨ 0x018000 ≤ o ∧ o < 0x100000
      ∨ 0x130000 ≤ o ∧ o < 0x200000 ∨ 0x210000 ≤ o ∧ o < 0x300000 ∨ 0x300800 ≤ o ∧ o < 0x3F0000 ∨ 0x400000 ≤ o := by decide
theorem witness_UnoccupiedOffsetsAreIgnored_blocks : ∀ k ∈ [5, 0x7F, 0x8E, 0x9F, 0xA5, 0xBF, 0xC4, 511],
    (5 ≤ k ∧ k < 0x80 ∨ 0x8E ≤ k ∧ k < 0xA0 ∨ 0xA5 ≤ k ∧ k < 0xC0 ∨ 0xC4 ≤ k) ∧ chBase 7 + 8 * k < 2 ^ 24
      ∧ statusBase 1023 + 8 * 15 < 2 ^ 24 ∧ tenantBase 15 + 8 * 15 < 2 ^ 24 ∧ 0x3F0000 + 8 * 8191 < 2 ^ 24 := by decide
theorem witness_CommandRegistersActAsTheirCommands : Commanded up ∧ ((1023#64).extractLsb' 0 10).toNat = (1023 : CtxId).val := by decide
/-- A master that nothing locks, and slot 4095 in a program of two words that context 0 names. -/
theorem witness_FurnishWritesCommitUnlessLocked : Commanded up ∧ up.locked 4095 = false
    ∧ (let s := { bnd { x0 with proga := 4094, progav := true } h0 with master := [(4094, prog0.getD 0 0)] }
       Commanded s ∧ (s.ctx 0).st ≠ .free ∧ 4094 ∈ (s.ctx 0).starts ∧ opc (s.masterWord 4094) = 0xF0
        ∧ 4094 ≤ 4095 ∧ 4095 < 4094 + (Hdr.ofWord (s.masterWord 4094)).len) := by decide

/-! ### Contexts -/

/-- All 64 ream units of the channel, and one more. -/
theorem witness_BindAllocatesOrChangesOnlyBinderr :
    Commanded (bnd { Ctx.reset with lgmask := 1, reamreq := 64 } rdy)
    ∧ bindCode (bnd { Ctx.reset with lgmask := 1, reamreq := 64 } rdy).initDone 0 = none
    ∧ bindCode (bnd { Ctx.reset with lgmask := 1, reamreq := 65 } rdy).initDone 0 = some 0xC := by decide
theorem inv_bnd : Inv (bnd x0 h0) := inv_of_tables (by decide)
theorem witness_UnbindAndTeardownDrain : Commanded (bnd x0 h0) ∧ Inv (bnd x0 h0) ∧ ((bnd x0 h0).ctx 0).st = .bound
    ∧ ((bnd x0 h0).ctx 1).st = .free := ⟨by decide, inv_bnd, by decide, by decide⟩
theorem witness_RestoreClearsTheFault :
    (∀ a ∈ [none, some 0], let s := bnd { x0 with st := .faulted, faultcode := 2, abandonAt := a } h0
      Commanded s ∧ (s.ctx 0).st = .faulted ∧ (s.ctx 0).faultcode ≠ 0x0A ∧ s.hosted 0 = true ∧ (s.ctx 0).abandonAt = a)
    ∧ (let s := bnd { x0 with st := .faulted, faultcode := 9 } rdy; Commanded s ∧ (s.ctx 0).st = .faulted ∧ s.hosted 0 = false)
    ∧ Commanded (bnd x0 h0) ∧ ((bnd x0 h0).ctx 0).st ≠ .faulted := by decide
/-- Channel 1 has room; the source is no target, and neither is channel 1 in the uc in which a fence moved the context. -/
theorem witness_MigrateMovesABoundContext :
    (let s := (bnd x0 h0).setCh 1 rdy
     let p := s.initDone.directsEnd (s.ctx 0).chan 0
     (s.ch 0).ticking = true ∧ Commanded s ∧ migrateCode s.initDone 0 1 = none ∧ p.chanOf 0 = (p.ctx 0).chan ∧ (p.ctx 0).chan ≠ 1
      ∧ migrateCode s.initDone 0 0 = some 0x9)
    ∧ (let s := (bnd { x0 with rebound := some 0 } h0).setCh 1 rdy
       s.uc = 0 ∧ migrateCode s.initDone 0 1 = some 0x9)
    ∧ ({ h0 with clkStop := true } : Channel).ticking = false ∧ h0.due = []
    ∧ (let s := (bnd x0 { h0 with loft := [{ newLine 3 0 2 0 with valid := 1, dirty := true }] }).setCh 1 rdy
       let p := s.initDone.directsEnd 0 0
       migrateCode s.initDone 0 1 = none ∧ p.chanOf 0 = (p.ctx 0).chan ∧ (p.ctx 0).chan ≠ 1
        ∧ (p.ch 0).loft.map (fun l => (l.owner, l.dirty, l.fetching)) = [(0, true, false)]) := by decide
theorem witness_AbandonmentFreesTheLaneGroups :
    (∀ w ∈ [true, false], let s := bnd { x0 with st := .faulted, abandonAt := some 7, restoreWait := w } h0
      let p := s.pass (s.chanOf 0) 47
      Inside s ∧ (s.ctx 0).abandonAt = some 7 ∧ (s.ch (s.chanOf 0)).clkStop = false ∧ (s.ch (s.chanOf 0)).ticking = true
        ∧ (p.ctx 0).runs = [] ∧ p.chanOf 0 = s.chanOf 0 ∧ (p.ctx 0).chan = s.chanOf 0
        ∧ (p.ctx 0).st = .faulted ∧ (p.ctx 0).faultcode ≠ 0x0A ∧ (p.ctx 0).restoreWait = w ∧ p.hosted 0 = true)
    ∧ (let s := bnd { x0 with st := .faulted, abandonAt := some 7 } { h0 with clkStop := true }
       (s.ch (s.chanOf 0)).st ≠ .off ∧ (s.ch (s.chanOf 0)).clkStop = true) := by decide
/-- A drain of either kind with a clean line left; a TEARDOWN with a transfer outstanding; an UNBIND with a run left. -/
theorem witness_DrainEndsInFree :
    (∀ k ∈ [DrainKind.unbind, .teardown],
      let s := bnd { x0 with st := .draining, drain := k } { h0 with loft := [{ newLine 0 0 0 0 with valid := 15 }] }
      let p := if (s.ctx 0).drain = .teardown then s else s.pass (s.chanOf 0) ((s.ch (s.chanOf 0)).lastDue 0)
      Inside s ∧ (s.ctx 0).st = .draining ∧ (s.ch (s.chanOf 0)).clkStop = false ∧ p.outstanding 0 = false ∧ (s.ctx 0).runs = []
        ∧ (s.ctx 0).drain = k ∧ (p.ch (s.chanOf 0)).loft ≠ [] ∧ (∀ l ∈ (p.ch (s.chanOf 0)).loft, l.owner = 0 ∧ l.dirty = false ∧ l.fetching = false
          ∧ l.writing = false)
        ∧ ∀ m < 8, (p.ch m).wb = [])
    ∧ (let s := (bnd { x0 with st := .draining, drain := .teardown } h0).setSlice 0
        { Slice.reset with out := [⟨0, ⟨.straight 1, 0, 0, 0, 0, 0, 64, true, 0, 0⟩, 0, 0, false, 0⟩] }
       s.outstanding 0 = true ∧ (s.ctx 0).drain = .teardown ∧ (s.ctx 0).st = .draining)
    ∧ (let x : Ctx := { x0 with st := .draining, drain := .unbind, runs := [r0] }; x.runs ≠ [] ∧ x.drain ≠ .teardown) := by decide

/-! ### Mailbox, mill core, maintenance loads -/

/-- A mailbox command: operation, context, channel, slot, words. -/
def cmd (op ctx chan slot count : Nat) : IWord := BitVec.ofNat 128 (op * 2 ^ 120 + ctx * 2 ^ 94 + chan * 2 ^ 91 + slot * 2 ^ 77 + count * 2 ^ 70)
/-- A running mill core with one command of tenant 0 in the mailbox. -/
def milled (s : State) (w : IWord) : State := { s with mailbox := [⟨0, w, false⟩], mill := { Mill.reset with run := true } }

def posted (n : Nat) : State := { up with mailbox := List.replicate n ⟨0, 0, false⟩ }
theorem witness_MailboxPostsAndReports : Commanded up ∧ (posted 15).mailbox.length < 64
    ∧ ((posted 15).mailbox.filter fun e => e.ten == 0).length < 16 ∧ ((posted 16).mailbox.filter fun e => e.ten == 0).length ≥ 16
    ∧ (posted 64).mailbox.length ≥ 64 := by decide
theorem witness_MailboxCommandsActForTheirTenant :
    (let s := milled up (cmd 1 1023 0 0 0)
     Reached s ∧ mbCtx (cmd 1 1023 0 0 0) = 1023 ∧ (s.ctx 1023).st = .free ∧ MillTakes s 0x01 ⟨0, cmd 1 1023 0 0 0, false⟩ [])
    ∧ (∀ op ∈ [0x02, 0x03, 0x04, 0x05], let s := milled (bnd x0 h0) (cmd op 0 1 0 0)
      Reached s ∧ mbCtx (cmd op 0 1 0 0) = 0 ∧ (s.ctx 0).ten = 0 ∧ MillTakes s op ⟨0, cmd op 0 1 0 0, false⟩ [])
    ∧ (∀ op ∈ [0x01, 0x02, 0x03, 0x04, 0x05], let s := milled (bnd { x0 with ten := 1 } h0) (cmd op 0 0 0 0)
      MillTakes s op ⟨0, cmd op 0 0 0 0, false⟩ [] ∧ (s.ctx 0).ten ≠ 0 ∧ (s.ctx 0).st ≠ .free) := by decide
/-- The last two slots of the store; a range that passes its end; a range that holds a locked slot. -/
theorem witness_LoadprogStartsOrRefuses :
    (let e : MbEntry := ⟨0, cmd 0x10 0 0 4094 2, false⟩; let s := milled up e.cmd
     Reached s ∧ MillTakes s 0x10 e [] ∧ 2 ≤ mbCount e.cmd ∧ mbCount e.cmd ≤ 64 ∧ mbSlot e.cmd + mbCount e.cmd ≤ 4096
      ∧ mbWoff e.cmd % 64 = 0 ∧ ∀ i < mbCount e.cmd, s.locked (mbSlot e.cmd + i) = false)
    ∧ (let e : MbEntry := ⟨0, cmd 0x10 0 0 4094 3, false⟩; MillTakes (milled up e.cmd) 0x10 e [] ∧ mbSlot e.cmd + mbCount e.cmd > 4096)
    ∧ (let e : MbEntry := ⟨0, cmd 0x10 0 0 0 2, false⟩; let s := milled (bnd { x0 with progav := true } h0) e.cmd
       MillTakes s 0x10 e [] ∧ ∃ i < mbCount e.cmd, s.locked (mbSlot e.cmd + i) = true) := by decide
/-- A load of count words whose line l returns; a header with a LEN and an NDECL. -/
def loading (count l : Nat) (ws : List IWord) : LoadSt := ⟨1, 0, 0, 8, count, 0, 0, l, ws⟩
def loadOut (l : Nat) : FeltOut := ⟨5, ⟨.load, 0, l, 0, 0, 64 * l, 64, false, 1, 0⟩, 0, 1, false, 0⟩
def loads (count l : Nat) (ws : List IWord) : State :=
  { up with mill := { Mill.reset with run := true, cur := some (loading count l ws) } }.setSlice 0 { Slice.reset with out := [loadOut l] }
def header (len ndecl : Nat) : IWord := BitVec.ofNat 128 (0xF0 * 2 ^ 120 + len * 2 ^ 113 + ndecl * 2 ^ 108)
theorem witness_LoadprogStartsOrRefuses_lines :
    (∀ v ∈ [(5, 0, []), (5, 1, [header 5 0, 0, 0, 0]), (5, 1, [header 6 0, 0, 0, 0])], let s := loads v.1 v.2.1 v.2.2
      Reached s ∧ s.mill.cur = some (loading v.1 v.2.1 v.2.2) ∧ (s.slice 0).out.find? (fun p => p.tag == 5) = some (loadOut v.2.1)
        ∧ (loadOut v.2.1).acc.kind = .load ∧ (loadOut v.2.1).acc.data = (loading v.1 v.2.1 v.2.2).ser ∧ v.2.2.length = 4 * v.2.1
        ∧ 4 * v.2.1 < v.1)
    ∧ 16 < (header 2 17).toNat / 2 ^ 108 % 32 ∧ ¬ 16 < (header 2 16).toNat / 2 ^ 108 % 32
    ∧ 4 * 0 + 4 < 5 ∧ 5 ≤ 4 * 1 + 4 ∧ (header 5 0).toNat / 2 ^ 113 % 128 = 5 ∧ (header 6 0).toNat / 2 ^ 113 % 128 ≠ 5 := by decide
def loadNow : LoadSt := ⟨1, 0, 0, 0, 2, 0, 0, 0, []⟩
def mntNow (kind lines : Nat) : MntLoad := ⟨1, kind, 0, 0, some 0, lines, 0xFFFFFFFF#32, none⟩
theorem witness_MillFaultsAbortAndRestart :
    (Inside up ∧ up.mill.cur = none ∧ up.mnt = none ∧ up.mill.run = false ∧ up.mill.restarting = false)
    ∧ (milled up 0).mill.run = true
    ∧ ({ Mill.reset with run := true, cur := some loadNow } : Mill).cur = some loadNow
    ∧ (let s : State := { milled up 0 with mnt := some (mntNow 2 0) }; Inside s ∧ s.mill.cur = none ∧ s.mnt = some (mntNow 2 0))
    ∧ (mntNow 2 0).kind = 2 ∧ (mntNow 3 0).kind = 3
    ∧ (let s : State := { up with mill := { Mill.reset with restarting := true, active := some 0, inactive := some 1 } }
       Inside s ∧ s.mill.restarting = true ∧ s.mill.active ≠ none ∧ s.mill.inactive = some 1)
    ∧ Mill.reset.inactive = none := by decide
theorem witness_MaintenanceLoadsStart :
    (Commanded up ∧ up.mnt = none ∧ up.mill.run = false)
    ∧ ({ up with mnt := some (mntNow 1 0) } : State).mnt ≠ none
    ∧ (let s := milled ((up.setCh 7 { rdy with st := .quiescing })) 0
       Commanded s ∧ s.mnt = none ∧ s.mill.run = true ∧ (s.ch 7).st = .quiescing ∧ (s.ch 7).alloc = []) := by decide
/-- A load of no line: its header's length is 0, and the CRC of nothing is 0 (R376). -/
theorem witness_MaintenanceLoadsEndByTheirCrc :
    (∀ k ∈ [1, 2, 3], let s : State := { up with mnt := some (mntNow k 0) }
      Inside s ∧ s.mnt = some (mntNow k 0) ∧ (mntNow k 0).err = none ∧ (mntNow k 0).header = some 0 ∧ 64 * (mntNow k 0).lines = hdrLen 0
        ∧ crcEnd (mntNow k 0).crc = hdrCrc 0 ∧ (mntNow k 0).kind = k ∧ (s.ch (mntNow k 0).ch).frozen = false)
    ∧ ({ h0 with clkStop := true } : Channel).frozen = true
    ∧ crcEnd (0#32) ≠ hdrCrc 0 := by decide
/-- A load that failed; one whose header returns: a sound one, and one with another magic number, version, or length. -/
def image (magic version len : Nat) : Nat := magic + 2 * 2 ^ 32 + version * 2 ^ 64 + len * 2 ^ 128
theorem witness_MaintenanceLoadsEndByTheirCrc_header :
    (let m := { mntNow 2 0 with err := some 0x5 }; (m.err = some 0x5 ∧ ({ up with mnt := some m } : State).mnt = some m))
    ∧ (let m := { mntNow 2 0 with header := none }
       let o : FeltOut := ⟨5, ⟨.maint, 0x3FF, 0, 0, 0, 0, 64, false, 1, 0⟩, 0, 1, false, 0⟩
       let s := { up with mnt := some m }.setSlice 0 { Slice.reset with out := [o] }
       Reached s ∧ s.mnt = some m ∧ m.err = none ∧ m.header = none ∧ (s.slice 0).out.find? (fun p => p.tag == 5) = some o
        ∧ o.acc.kind = .maint ∧ o.acc.data = m.ser ∧ o.failed = false)
    ∧ (let bytes (h a n : Nat) : Nat := h / 2 ^ (8 * a) % 2 ^ (8 * n)
       let h := image 0x4A524D49 0x00030002 131072
       bytes h 0 4 = 0x4A524D49 ∧ bytes h 4 1 = 2 ∧ bytes h 8 8 = 0x00030002 ∧ bytes h 16 4 = 131072
        ∧ bytes (image 0x4A524D49 0x00030002 131136) 16 4 % 64 = 0 ∧ 131072 < bytes (image 0x4A524D49 0x00030002 131136) 16 4) := by decide

/-! ### Headbox and direct words -/

theorem witness_HeadboxAcceptsUpTo64Words : Reached up ∧ (up.rxq 0).length < 64
    ∧ ((up.setRxq 0 (List.replicate 64 ⟨0, 0, 0, 0⟩)).rxq 0).length = 64 := by decide
/-- A word held back for a context whose channel does not hold it, then one that is refused, a NOP and a RUN; a DISCARD that meets its
context's fault. -/
theorem witness_HeadboxDeliversTheFirstWordItMay :
    (∀ v ∈ [HbWord.mk 0 0 1 2, ⟨0, 0, 0, 2⟩, ⟨runWord ⟨false, false, false, 0, 0, 0, 0, false⟩, 0, 0, 2⟩],
      let s := ((bnd x0 h0).setCtx 1 { x0 with chan := 1 }).setRxq 0 [⟨0, 1, 0, 1⟩, v]
      let p := (s.setRxq 0 ((s.rxq 0).filter fun u => u.ser != v.ser)).takeWord (s.ctx v.ctx).chan
      Inside s ∧ s.rxq 0 = [⟨0, 1, 0, 1⟩] ++ v :: [] ∧ s.mayDeliver ⟨0, 1, 0, 1⟩ = false ∧ s.mayDeliver v = true
        ∧ (Refused s v.ctx v.ten ↔ v.ten = 1) ∧ (Refused p v.ctx v.ten ↔ v.ten = 1) ∧ s.meetsFault v.ctx v.ten v.word = false)
    ∧ (let v : HbWord := ⟨discardWord 0, 0, 0, 1⟩
       let s := (bnd { x0 with st := .faulted, abandonAt := some 0 } h0).setRxq 0 [v]
       Inside s ∧ s.mayDeliver v = true ∧ Refused s 0 0 ∧ s.meetsFault 0 0 v.word = true) := by decide
theorem witness_RefusedWordsOnlyCount :
    (Reached up ∧ directOf (.rexp 0 5 0 0) = some (0, 5) ∧ Refused up 0 5 ∧ ∀ n < 8, ∀ v ∈ up.rxq n, v.ctx = 0 → up.seq ≤ v.ser)
    ∧ (let s := bnd { x0 with st := .faulted, abandonAt := some 0 } h0
       Reached s ∧ directOf (.discard 0 0 0) = some (0, 0) ∧ Refused s 0 0 ∧ (s.ctx 0).abandonAt = some (s.ch (s.chanOf 0)).cyc) := by decide
theorem witness_NopDoesNothingAndRunIsQueued : Reached (bnd x0 h0) ∧ Deliverable (bnd x0 h0) 0 0 ∧ h0.wordAt ≤ h0.cyc
    ∧ NothingDue h0 h0.cyc ∧ ¬ Refused (wordPoint (bnd x0 h0) 0) 0 0 := by decide
/-- Three runs of one PSEQ: a committed one, a started one with a shadow, and one that waits. -/
def xr : Ctx := { x0 with runs := [{ r0 with phase := .committed }, { r0 with ser := 2, phase := .started, base := some 0 }, { r0 with ser := 3 }] }
def hx : Channel := { h0 with reams := [(0, ⟨RPart.clear .sum, some ⟨2, RPart.clear .sum, []⟩⟩)] }
theorem inv_xr : Inv (wordPoint (bnd xr hx) 0) := inv_of_tables (by decide +kernel)
theorem witness_DiscardRemovesTheSelectedRun :
    Reached (bnd xr hx) ∧ Deliverable (bnd xr hx) 0 0 ∧ Inv (wordPoint (bnd xr hx) 0)
    ∧ (let p := wordPoint (bnd xr hx) 0
       let x := p.ctx 0
       ¬ Refused p 0 0 ∧ x.directs = [] ∧ x.newSlots = [] ∧ (∀ q ∈ x.runs, q.phase = .committed → q.after = [])
        ∧ (∀ q ∈ x.runs, q.phase = .started → q.base ≠ none) ∧ p.chanOf 0 = x.chan ∧ x.runs = xr.runs ∧ (∀ q ∈ x.runs, q.w.pseq ≠ 1)
        ∧ (p.ch x.chan).ticking = true ∧ NothingDue (p.ch x.chan) ((p.ch x.chan).cyc + 1)) := by
  refine ⟨by decide, by decide, inv_xr, ?_⟩
  decide
/-- Beats of context 0 before the drop: one that begins no tile, and behind it one that does; the discarded run is the earliest started. -/
theorem witness_DiscardRemovesTheSelectedRun_beats :
    let b : BufBeat := ⟨4, 0, { beat0 with sot := false }⟩
    (∀ bs ∈ [[b], [b, ⟨5, 0, beat0⟩]], let p := wordPoint (bnd xr { hx with couch := bs }) 0
      (p.ch 0).couch = bs ∧ ∃ r ∈ (p.ctx 0).runs, r.ser = 2 ∧ r.phase = .started ∧ ∀ q ∈ (p.ctx 0).runs, q.ser < r.ser → q.phase ≠ .started)
    ∧ b.beat.ctx = 0 ∧ b.beat.sot = false ∧ beat0.sot = true := by decide
/-- The last ream of the block, and the first beyond it. -/
theorem witness_RclrClearsItsReams : ActsAtOnce (bnd x0 h0) 0 0
    ∧ RKind.ofCode 4 = some .min ∧ 3 + 0 + 1 ≤ 4 * x0.reamreq ∧ ((wordPoint (bnd x0 h0) 0).ctx 0).reamreq = 1
    ∧ (((wordPoint (bnd x0 h0) 0).ch 0).ream 3).sh = none ∧ 4 * x0.reamreq < 3 + 1 + 1 := by decide
/-- A shadow that an open run of the context holds. -/
theorem witness_RclrClearsItsReams_held : (((bnd xr hx).ch 0).ream (x0.reambase + 0 + 0)).sh.map (fun q => q.run) = some 2
    ∧ (∃ r ∈ ((bnd xr hx).ctx 0).runs, r.ser = 2) ∧ ((bnd xr hx).ctx 0).st = .bound ∧ 0 + 0 + 1 ≤ 4 * x0.reamreq := by decide
def hs : Channel := { h0 with reams := (List.range 4).map fun i => (i, ⟨RPart.clear .sum, none⟩) }
theorem witness_RexpEmitsOneRecordPerReam : ActsAtOnce (bnd x0 hs) 0 0
    ∧ 0 + 3 + 1 ≤ 4 * x0.reamreq ∧ (∀ i ≤ 3, (((wordPoint (bnd x0 hs) 0).ch 0).ream i).com.kind ≠ .unset)
    ∧ (((wordPoint (bnd x0 h0) 0).ch 0).ream 0).com.kind = .unset := by decide
/-- An RCLOSE of all four reams: under SEL 0 in FP32 to Reel or to slot 2, with STATS, and under SEL 1 to 3. -/
def rcl (fmt : Nat) (stats dest : Bool) (sel : Nat) : RcloseFields :=
  ⟨0, 3, BitVec.ofNat 4 fmt, false, false, stats, dest, if dest then 2 else 0, BitVec.ofNat 2 sel⟩
def slot2 : SlotSt := ⟨⟨2, 2, 0, 1, 4, 1⟩, [Copy.fresh]⟩
def hk (k : RKind) : Channel := { h0 with reams := (List.range 4).map fun i => (i, ⟨RPart.clear k, none⟩) }
def sk (k : RKind) : State := bnd { x0 with slots := [slot2] } (hk k)
theorem witness_RcloseEmitsOrFillsItsSlot :
    (∀ w ∈ [rcl 0 false false 0, rcl 0 false true 0, rcl 0 true false 0, rcl 0 false false 1, rcl 0 false false 2, rcl 10 false false 3],
      directCheck (rcloseWord w) = none)
    ∧ (∀ k ∈ [RKind.sum, .exp, .max, .min], ActsAtOnce (sk k) 0 0 ∧ ∀ i < 4, (((wordPoint (sk k) 0).ch 0).ream i).com.kind = k)
    ∧ ((wordPoint (sk .sum) 0).ctx 0).slots = [slot2] ∧ 0 + 3 + 1 ≤ 4 * x0.reamreq
    ∧ slot2.decl.slot = 2 ∧ slot2.decl.role = 2 ∧ slot2.decl.rows = 1 ∧ slot2.decl.fmt = 0 ∧ 3 + 1 ≤ slot2.decl.cols
    ∧ (∀ sl ∈ x0.slots, sl.decl.slot ≠ 2) ∧ NothingDue ((wordPoint (sk .sum) 0).ch 0) 14
    ∧ (∀ k ∈ slot2.copies, k.st ≠ .filling) ∧ (∀ i ≤ 3, ((wordPoint (sk .sum) 0).ch 0).shadowed i = false) := by decide
/-- The shadow of a run that was discarded in the present cc. -/
theorem witness_RcloseEmitsOrFillsItsSlot_wait : ActsAtOnce (bnd x0 hx) 0 0
    ∧ (wordPoint (bnd x0 hx) 0).closeWaits 0 (bnd x0 hx).seq (rcloseWord (rcl 0 false false 0)) = true
    ∧ (((wordPoint (bnd x0 hx) 0).ch 0).ream 0).sh ≠ none := by decide
def line0 : LoftLine := { newLine 0 0 0 0 with valid := 15, dirty := true }
theorem witness_LoftWordsReleaseAndFlush :
    (let s := bnd x0 { h0 with loft := [line0, { newLine 1 0 0 1 with released := 14 }] }
     ActsAtOnce s 0 0 ∧ 0 + 3 + 1 ≤ 4 * x0.extent ∧ 4 * x0.extent < 0 + 4 + 1
      ∧ (let h := (wordPoint s 0).ch 0; h.ticking = true ∧ NothingDue h (h.cyc + 1) ∧ h.loft.length = 2)) ∧ line0.dirty = true := by decide

/-! ### Couch, Reel, Felt -/

def hc : Channel := { h0 with credits := [(0, 1)] }
/-- A started run in a channel with room: its context is served. -/
def xs : Ctx := { x0 with st := .running, runs := [{ r0 with phase := .started }] }
theorem witness_CreditsStayWithinTheBuffer : Inside up ∧ (up.ch 0).serves = false ∧ Reached up
    ∧ (let s := bnd xs h0
       Inside s ∧ (s.ch 0).serves = true ∧ Tbl.wf 0 (s.ch 0).credits = true ∧ (s.served 0).map (fun e => e.2) = [0]
        ∧ (s.ch 0).couch.length + ((s.ch 0).credits.map fun e => e.2).sum ≤ 32)
    ∧ ({ h0 with clkStop := true, ccrHold := true } : Channel).ccrHold = true ∧ h0.ccrHold = false := by decide
theorem witness_CouchBeatsEnterAgainstCredits : Reached (bnd x0 hc)
    ∧ (up.ch 0).st ≠ .ready ∧ (up.ch 0).st ≠ .quiescing ∧ hc.st = .ready ∧ hc.alloc = [⟨0, 0, 0, 4, 0⟩] ∧ x0.chan = 0 ∧ x0.ten = 0
    ∧ hc.credit 0 ≠ 0 ∧ h0.credit 0 = 0 ∧ x0.dropSot = false ∧ beat0.sot = true
    ∧ (({ x0 with dropSot := true } : Ctx).dropSot = true ∧ ({ beat0 with sot := false } : CouchBeat).sot = false)
    ∧ (({ x0 with faultcode := 2 } : Ctx).faultcode ≠ 0 ∧ 0 < Tbl.look 0 ({ h0 with lapsed := [(0, 1)] } : Channel).lapsed 0) := by decide
def out0 : ReelBeat := blankBeat 0 0 9 none
theorem witness_ReelPresentsInOrder : (let s := bnd x0 { h0 with egress := [out0] }
      Inside s ∧ (s.ch 0).serves = true ∧ (s.ch 0).reelPort = none ∧ (s.ch 0).egress = out0 :: []
        ∧ (s.pass 0 9).ch 0 = { s.ch 0 with cyc := 9 } ∧ out0.due = 9)
    ∧ ({ h0 with reelPort := some out0 } : Channel).reelPort ≠ none ∧ h0.egress = [] ∧ (up.ch 0).serves = false ∧ Reached up := by decide
/-- A held element that leaves in the cc of its event. -/
def hb0 : HeldBeat := ⟨1, false, 0, 0, [⟨0, 0, 0, 0, 0, 0⟩], 0⟩
def rem : Run :=
  { r0 with
    slot := some 0, phase := .committed, prog := ⟨prog0⟩, base := some 0, beats := 1, rows := 1
    outs := [(hb0, hb0.els)], emitAt := [(0, [30, 31])] }
theorem witness_ReelPresentsInOrder_emit :
    let s := bnd { x0 with st := .running, runs := [rem] } { h0 with cyc := 19, due := [⟨20, 0, some 1, .emit 0⟩] }
    (s.ch 0).ticking = true ∧ (s.ch 0).due = ⟨20, 0, some rem.ser, .emit 0⟩ :: [] ∧ (s.ctx 0).chan = 0 ∧ (s.ctx 0).run rem.ser = some rem
      ∧ rem.outs[0]? = some (hb0, hb0.els) ∧ rem.carriesLater = false
      ∧ (match emitBeat ⟨s.ctx 0, rem⟩ hb0 hb0.els 30 with | (ls, os, us, _) => ls ≠ [] ∧ us = [] ∧ (ls.all fun l => !l.stash) = true
        ∧ ∀ o ∈ os, 20 < o.cc) := by
  decide
/-- A read of the last 64 bytes of a window of 4 KiB; the 64 bytes after it. -/
def acc (off : Nat) : FeltAcc := ⟨.fetch 0, 0, 0, 0, 0, off, 64, false, 0, 0⟩
def felt (off : Nat) : State := ((bnd x0 h0).setTenant 0 { Tenant.reset with wins := [⟨true, 1,
  12⟩] }).setSlice 0 { Slice.reset with wait := [acc off] }
theorem witness_FeltAccessesIssueWithinTheirWindow :
    (∀ v ∈ [(4032, some 8128), (4096, none)], let s := felt v.1
      Inside s ∧ (s.slice 0).wait = [] ++ acc v.1 :: [] ∧ s.stale (acc v.1) = false ∧ s.window (acc v.1) = v.2
        ∧ s.blockBusy (s.address (acc v.1)) = false ∧ s.ready (s.slice 0) (acc v.1) = true ∧ (s.slice 0).freq = none
        ∧ ∃ i < 64, ∀ o ∈ (s.slice 0).out, o.tag ≠ i)
    ∧ ((acc 4096).kind ≠ .load ∧ (acc 4096).kind ≠ .maint ∧ x0.st = .bound ∧ Reached up)
    ∧ (let s := (felt 4032).setSlice 0 { Slice.reset with wait := [acc 4032], freq := some 0 }
       Inside s ∧ (s.slice 0).freq ≠ none ∧ (s.slice 0).wait ≠ [] ∧ ∀ b ∈ (s.slice 0).wait, s.stale b = false) := by decide
def smpAcc (off : Nat) : FeltAcc := { acc off with kind := .sample 1, wr := true, len := 32 }
/-- A sampling record behind an earlier one that waits or is outstanding; the home write of a line of the write-back; a fetch whose block
is busy. -/
theorem witness_FeltAccessesIssueWithinTheirWindow_ready :
    (let q : Slice := { Slice.reset with wait := [smpAcc 0, smpAcc 64] }
     q.wait = [smpAcc 0] ++ smpAcc 64 :: [] ∧ smpAcc 64 ∉ [smpAcc 0] ∧ (smpAcc 0).isSample = true ∧ (smpAcc 64).kind = .sample 1)
    ∧ (let s := up.setSlice 1 { Slice.reset with out := [⟨0, smpAcc 0, 0, 0, false, 0⟩] }
       (s.slice 1).out = [⟨0, smpAcc 0, 0, 0, false, 0⟩] ∧ s.blockBusy (s.address (acc 0)) = true)
    ∧ (bnd x0 { h0 with wb := [line0] }).writingBack 0 0 = true
    ∧ (let s := bnd x0 { h0 with loft := [line0] }; (s.ch 0).findLine (acc 0).ctx (acc 0).line = some line0) := by decide
/-- Lines of an LFLUSH that are asked for in cc 6, with nothing else to issue. -/
theorem witness_FeltAccessesIssueWithinTheirWindow_flush :
    let s := bnd x0 { h0 with cyc := 5, loft := [line0], due := [⟨6, 0, none, .flush 0 4⟩] }
    Inside s ∧ (s.slice 0).wait = [] ∧ (s.ch 0).due = [] ++ ⟨6, 0, none, .flush 0 4⟩ :: [] ∧ ((s.pass 0 6).slice 0).wait ≠ [] := by decide
def waits (k : AccKind) : FeltOut := ⟨63, { acc 0 with kind := k }, 4096, 0, false, 0⟩
/-- Responses that end their access; one of a context that is torn down; one of a context that a fence has moved to channel 1. -/
theorem witness_FeltResponsesEndTheirAccess :
    (Reached up ∧ ∀ o ∈ (up.slice 0).out, o.tag ≠ 63)
    ∧ (∀ k ∈ [AccKind.fetch 0, .sample 1, .straight 1],
      let s := (bnd x0 { h0 with loft := [{ newLine 0 0 0 0 with fetching := true }] }).setSlice 0 { Slice.reset with out := [waits k] }
      Reached s ∧ (s.slice 0).out.find? (fun p => p.tag == 63) = some (waits k) ∧ (waits k).failed = false ∧ (waits k).acc.kind = k
        ∧ (s.ctx (waits k).acc.ctx).st = .bound ∧ (waits k).acc.kind ≠ .load ∧ (waits k).acc.kind ≠ .maint ∧ s.owned (waits k).acc = true)
    ∧ ({ newLine 0 0 0 0 with fetching := true } : LoftLine).released ≠ 15
    ∧ (({ x0 with st := .draining, drain := .teardown } : Ctx).st = .draining
      ∧ ((bnd { x0 with chan := 1 } h0).setCh 1 h0).owned (waits (.fetch 0)).acc = true
      ∧ (((bnd { x0 with chan := 1 } rdy).setCh 1 h0).chanOf 0) = 1) := by decide

/-! ### Records -/

def rec0 : RecWrite := ⟨7, 1, 3, 2 ^ 128 - 1⟩
/-- A record that may be written from cc 7 on, for a context with its line, with room for one, and with none. -/
theorem witness_LoftRecordsFindALine :
    (∀ g ∈ [0, 1], let s := bnd { x0 with recQ := [rec0], algrant := g } { h0 with loft := [line0] }
      let p := s.toWrite 0 ((s.ctx 0).recQ.head?.map fun w => w.cc)
      Inside s ∧ (p.ctx 0).recQ = rec0 :: [] ∧ (p.ch (p.ctx 0).chan).cyc = 7 ∧ (p.ch (p.ctx 0).chan).serves = true ∧ rec0.rec4 < 2 ^ 128
        ∧ (p.ctx 0).algrant = g ∧ (p.ch (p.ctx 0).chan).findLine 0 (rec0.idx / 4) = some line0)
    ∧ (h0.findLine 0 (rec0.idx / 4) = none ∧ h0.lineCount 0 < 1)
    ∧ (x0.policy ≠ 2 ∧ ({ x0 with policy := 2 } : Ctx).policy = 2 ∧ x0.st = .bound ∧ x0.recQ = []) := by decide
/-- A sampling record of a tile whose commit began in a cc. -/
def smp0 (w : Nat) : SmpWr := ⟨8, w, 1, 0, 16, 0, false⟩
theorem witness_StashLinesAndSamplesGoHome :
    (let s := bnd { x0 with stashQ := [⟨7, 1, 0, 0, 0, 0⟩], smpQ := [smp0 8], algrant := 1 } h0
     let p := s.toWrite 0 ((s.ctx 0).stashQ.head?.map fun w => w.cc)
     let q := s.toWrite 0 ((s.ctx 0).smpQ.head?.map fun w => w.cc)
     Inside s ∧ (p.ctx 0).stashQ = [⟨7, 1, 0, 0, 0, 0⟩] ∧ (p.ch (p.ctx 0).chan).serves = true
      ∧ (p.ch (p.ctx 0).chan).lineCount 0 < (p.ctx 0).algrant ∧ (q.ctx 0).smpQ = [smp0 8]
      ∧ (q.ch (q.ctx 0).chan).serves = true)
    ∧ (∀ p ∈ [0, 1, 2, 3], ({ x0 with policy := p } : Ctx).algrant = 0 ∧ ({ x0 with policy := p } : Ctx).policy = p)
    ∧ x0.stashQ = [] ∧ x0.smpQ = [] := by decide
/-- Records of contexts 0 and 1 in one cc: the commit of context 1 began first, or in the same cc. -/
theorem witness_StashLinesAndSamplesGoHome_order : ∀ w ∈ [7, 8],
    let h : Channel := { h0 with cyc := 8, alloc := [⟨0, 0, 0, 4, 0⟩, ⟨1, 0, 4, 4, 0⟩] }
    let s := (bnd { x0 with smpQ := [smp0 8] } h).setCtx 1 { x0 with smpQ := [smp0 w] }
    let p := s.toWrite 0 ((s.ctx 0).smpQ.head?.map fun w => w.cc)
    (p.ctx 0).smpQ = [smp0 8] ∧ (p.ctx 1).smpQ = [smp0 w] ∧ (p.ch 0).serves = true
      ∧ ((∃ a ∈ (p.ch 0).alloc, a.ctx ≠ 0 ∧ ∃ v ∈ (p.ctx a.ctx).smpQ, v.cc = 8 ∧ (v.w < 8 ∨ v.w = 8 ∧ a.ctx < 0)) ↔ w = 7) := by decide

/-! ### Runs -/

/-- Whether run r of context 0 is chosen and starts at slot 0 of channel h, with nothing due. -/
def chosen (x : Ctx) (h : Channel) (r : Run) : Bool :=
  let s := bnd x h
  let p := startPoint s 0 r
  let u := p.pass 0 ((p.ch 0).handover 0 1)
  decide (Inside s) && s.hosted 0 && (s.ch 0).serves && (s.ctx 0).waiting == some r && !s.heldBack 0 r && (p.ctx 0).chan == 0 && (u.ctx 0).chan == 0
    && p.nextRun 0 == some r && (p.ch 0).groupsFree 0 1 (p.ch 0).cyc && (p.ctx 0).permits && !(p.ctx 0).waitsSlots (p.ch 0) r
    && !p.outrun 0 r.ser && u.nextRun 0 == some r && decide (NothingDue (u.ch 0) (u.ch 0).cyc) && (u.ctx 0).st == .bound
/-- A run whose CBASE is no multiple of C; one with PASS2 of a program without fused statistics; the program without
its EGRESS, which produces nothing. -/
def rcb : Run := { rp with w := { rp.w with cbase := 1 } }
def rp2 : Run := { rp with w := { rp.w with pass2 := true } }
def he : Channel := { h0 with store := [(0, prog0.getD 0 0 - 2 ^ 113), (1, prog0.getD 1 0)] }
theorem witness_RunsStartWhenTheirGroupsAreFree :
    (chosen { x0 with runs := [rp] } hp rp ∧ headerFault (hp.word 0) = none ∧ rp.wordFault (hp.program 0) = none
      ∧ x0.startFaults (hp.program 0) 1 = [] ∧ (hp.program 0).before = [] ∧ (hp.program 0).statReads = [] ∧ hp.holders.length = 16)
    ∧ (chosen { x0 with runs := [r0] } hp r0 ∧ r0.slot = none)
    ∧ (chosen { x0 with runs := [rp] } h0 rp ∧ headerFault (h0.word 0) = some ⟨0, 120, false⟩)
    ∧ (chosen { x0 with runs := [rcb] } hp rcb ∧ rcb.w.cbase % max (hp.program 0).hdr.c 1 ≠ 0)
    ∧ (chosen { x0 with runs := [rp2] } hp rp2 ∧ rp2.w.cbase % max (hp.program 0).hdr.c 1 = 0 ∧ rp2.w.cbase < (hp.program 0).hdr.w
      ∧ (hp.program 0).scan = none ∧ (hp.program 0).hdr.strat ≠ 2) := by decide
theorem witness_RunsStartWhenTheirGroupsAreFree_check :
    (chosen { x0 with runs := [rp] } he rp ∧ headerFault (he.word 0) = none ∧ rp.wordFault (he.program 0) = none
      ∧ firstFault (x0.startFaults (he.program 0) 1) = some ⟨1, 120, false⟩) := by decide +kernel
/-- A program that clears the four reams of the block before its ingest; one that reads a statistics slot, of which nothing was written. -/
def hbef : Channel := { h0 with store := [(0, prog0.getD 0 0 + 2 ^ 113), (1, rclrWord 0 3 1), (2, prog0.getD 1 0), (3, prog0.getD 2 0)] }
def hstat : Channel := { h0 with store := [
  (0, BitVec.ofNat 128 (0xF0 * 2 ^ 120 + 5 * 2 ^ 113 + 2 ^ 108 + 3 * 2 ^ 85 + 2 * 2 ^ 82 + 3 * 2 ^ 67 + 2048 * 2 ^ 44)),
  (1, BitVec.ofNat 128 (0xE0 * 2 ^ 120 + 3 * 2 ^ 114 + 2 ^ 93 + 4 * 2 ^ 78 + 2 ^ 77)), (2, BitVec.ofNat 128 (0x10 * 2 ^ 120)),
  (3, BitVec.ofNat 128 (0x20 * 2 ^ 120 + 3 * 2 ^ 37)), (4, BitVec.ofNat 128 (0x80 * 2 ^ 120))] }
theorem witness_RunsStartWhenTheirGroupsAreFree_words :
    (chosen { x0 with runs := [rp] } hbef rp ∧ headerFault (hbef.word 0) = none ∧ rp.wordFault (hbef.program 0) = none
      ∧ x0.startFaults (hbef.program 0) 1 = [] ∧ (hbef.program 0).before = [(1, rclrWord 0 3 1)] ∧ (hbef.program 0).statReads = []
      ∧ hbef.holders.length = 16 ∧ ([rp].map fun q => q.ser).Nodup)
    ∧ (chosen { x0 with runs := [rp] } hstat rp ∧ headerFault (hstat.word 0) = none ∧ rp.wordFault (hstat.program 0) = none
      ∧ x0.startFaults (hstat.program 0) 1 = [] ∧ (hstat.program 0).before = [] ∧ (hstat.program 0).statReads ≠ [] ∧ rp.base = none
      ∧ ((bnd { x0 with runs := [rp] } hstat).statMissing 0 { rp with prog := hstat.program 0 } [0]).isSome = true) := by decide +kernel
/-- A group that another context holds; a balance of 0 under a budget. -/
theorem witness_RunsStartWhenTheirGroupsAreFree_wait :
    (let s := bnd { x0 with runs := [rp] } { hp with holders := ⟨some 1, none, 0⟩ :: List.replicate 15 Holder.reset }
     let p := startPoint s 0 rp
     (p.ch 0).groupsFree 0 1 (p.ch 0).cyc = false ∧ p.nextRun 0 = some rp ∧ (p.ch 0).serves = true ∧ NothingDue (p.ch 0) ((p.ch 0).cyc + 1)
      ∧ (∃ a ∈ (p.ch 0).alloc, a.ctx = 0) ∧ (p.ch 0).polled = none)
    ∧ (let s := bnd { x0 with runs := [rp], budForce := 1 } hp
       let p := startPoint s 0 rp
       p.startWait 0 = some .budget ∧ p.couldStart 0 = none ∧ p.nextRun 0 = some rp) := by decide
def rs : Run := { rp with phase := .started, start := 1, holds := true, base := some 0, prog := ⟨prog0⟩ }
/-- The first beat that a run presents. -/
theorem witness_ReelPresentsInOrder_first :
    let s := bnd { x0 with st := .running, runs := [rs] } { h0 with egress := [{ out0 with run := some 1 }] }
    Inside s ∧ (s.ch 0).serves = true ∧ (s.ch 0).reelPort = none ∧ (((s.pass 0 9).ctx 0).run 1) = some rs ∧ rs.sot = false
      ∧ ((s.pass 0 9).ch 0).egress = [{ out0 with run := some 1 }] := by decide
/-- A started run with a tile of one beat in the buffer. -/
def couched (b : CouchBeat) : State := bnd { x0 with st := .running, runs := [rs] } { hp with couch := [⟨2, 1, b⟩] }
/-- What Couch decides of it. -/
def verdict0 (s : State) (b : CouchBeat) : State × Verdict := s.verdict 0 0 rs b (s.ch 0).cyc
theorem witness_CouchPresentsTheBeatItMay_go : Inside (couched beat0) ∧ ((couched beat0).ch 0).serves = true
    ∧ (couchPoint (couched beat0) 0).cands 0 = [⟨0, ⟨2, 1, beat0⟩, rs, 16⟩] ∧ ((couchPoint (couched beat0) 0).ch 0).cyc = 16
    ∧ ((couchPoint (couched beat0) 0).ctx 0).chan = 0
    ∧ NothingDue ((couchPoint (couched beat0) 0).ch 0) 16 ∧ (verdict0 (couchPoint (couched beat0) 0) beat0).2 = .go rs
    ∧ beat0.sot = (decide (rs.beats = 0) && decide (rs.records = 0)) := by decide
theorem witness_CouchPresentsTheBeatItMay_converts : Converts ⟨prog0⟩ (IngW.ofWord (prog0.getD 1 0)) (EgrW.ofWord (prog0.getD 2 0)) :=
  ⟨⟨1, 2, _, _, rfl, rfl, rfl, rfl, rfl⟩, by decide⟩
theorem witness_CouchPresentsTheBeatItMay_seq :
    (verdict0 (couchPoint (couched { beat0 with sot := false }) 0) { beat0 with sot := false }).2 = .go rs
    ∧ false ≠ (decide (rs.beats = 0) && decide (rs.records = 0)) := by decide
/-- A result beat already stands in the cycle of the beat's first result, t + 24 (R309). -/
theorem witness_CouchPresentsTheBeatItMay_stall :
    (verdict0 ((couchPoint (couched beat0) 0).modCh 0 fun h => { h with egress := [{ out0 with due := 40 }] }) beat0).2 = .stall .reel := by decide
/-- A tile-end check that is due, of the run's PSEQ and of another. -/
def rk : Run := { rs with phase := .checking, beats := 1, rows := 1, lastT := 16, tEnd := 16 }
theorem witness_CouchPresentsTheBeatItMay_check : ∀ q ∈ [rk.w.pseq, 5],
    let s := bnd { x0 with st := .running, runs := [rk] } { hp with cyc := 16, due := [⟨17, 0, some 1, .check q⟩] }
    (s.ch 0).ticking = true ∧ (s.ch 0).due = ⟨(s.ch 0).cyc + 1, 0, some rk.ser, .check q⟩ :: [] ∧ (s.ctx 0).run rk.ser = some rk
      ∧ (s.ctx 0).chan = 0 ∧ (s.ch 0).cyc + 1 ≤ rk.tEnd + 1 ∧ (s.ctx 0).restarts = []
        ∧ (∀ q ∈ (s.ctx 0).runs, q.phase = .started → q.base ≠ none) := by
  decide

/-- A tile that has passed its check, with one shadow, and its commit. -/
def re : Run := { rs with phase := .ended, beats := 1, rows := 1, lastT := 16, tEnd := 16, commitAt := 18 }
def shadow (ser : Nat) : Tbl ReamCell := [(0, ⟨RPart.clear .sum, some ⟨ser, RPart.clear .sum, []⟩⟩)]
def ended : State := bnd { x0 with st := .running, runs := [re] } { hp with cyc := 17, due := [⟨20, 0, some 1, .commit⟩], reams := shadow 1 }
theorem inv_ended : Inv ended := inv_of_tables (by decide +kernel)
/-- The state in which the commit of run r is complete. -/
def donePoint (s : State) (r : Run) : State := (s.pass 0 (r.tEnd + 1)).passTo 0 r.commitDone (Effect.rank .commit)
theorem inv_done : Inv (donePoint ended re) := inv_of_tables (by decide +kernel)
theorem witness_TilesCommitTheirShadows : Inside ended ∧ Inv ended
    ∧ (ended.ctx 0).runs.find? (fun q => q.phase == .checking || q.phase == .ended) = some re ∧ ended.hosted 0 = true ∧ (ended.ch 0).serves = true
    ∧ ((ended.pass 0 (re.tEnd + 1)).ctx 0).run 1 = some re ∧ re.after = [] ∧ Inv (donePoint ended re)
    ∧ (let u := donePoint ended re
       (u.ctx 0).run 1 = some re ∧ (u.ctx 0).chan = 0 ∧ u.chanOf 0 = 0 ∧ NoWordsWait (u.ctx 0) ∧ re.mode ≠ .sample ∧ re.carriesLater = false
        ∧ re.commitAt = re.commitCycle ∧ (u.ch 0).cyc < re.commitAt + 4
        ∧ (∀ e ∈ (u.ch 0).due, (u.ch 0).cyc < e.cc ∨ e.run = some 1 ∧ e.what = .commit)) := by
  refine ⟨by decide, inv_ended, by decide, by decide, by decide, by decide, by decide, inv_done, ?_⟩
  decide
/-- A close, a statistics entry, and a loss for a batch ream of each kind that are due in the next cc. -/
def dueNext (r : Run) (w : Effect) (k : RKind) : State :=
  bnd { x0 with st := .running, runs := [r], slots := [⟨⟨3, 3, 0, 1, 4, 1⟩, [{ Copy.fresh with st := .full }]⟩] }
    { hp with cyc := 19, due := [⟨20, 0, some 1, w⟩], reams := [(0, ⟨RPart.clear k, none⟩)] }
def smaxProg : Prog := ⟨[BitVec.ofNat 128 (0xF0 * 2 ^ 120 + 4 * 2 ^ 113 + 3 * 2 ^ 85 + 2 * 2 ^ 82 + 3 * 2 ^ 67), prog0.getD 1 0,
  BitVec.ofNat 128 (0x40 * 2 ^ 120), prog0.getD 2 0]⟩
def rcls : Run := { re with prog := smaxProg, phase := .committed }
theorem inv_due : Inv (dueNext rcls (.close ⟨0, 0, 0, 18⟩) .exp) := inv_of_tables (by decide +kernel)
theorem witness_TilesCommitTheirShadows_close : Inv (dueNext rcls (.close ⟨0, 0, 0, 18⟩) .exp)
    ∧ ((dueNext rcls (.close ⟨0, 0, 0, 18⟩) .exp).ctx 0).run 1 = some rcls ∧ rcls.prog.statFills = none
    ∧ (rcls.prog.units.map fun u => (Env.mk ((dueNext rcls (.close ⟨0, 0, 0, 18⟩) .exp).ctx 0) rcls).closingReams u ⟨0, 0, 0, 18⟩)
      = some (some [0, 1]) := by
  refine ⟨inv_due, ?_⟩
  decide
theorem inv_due_loss : Inv (dueNext rs (.loss 0 0x3F800000 0 0 0) .max) := inv_of_tables (by decide +kernel)
theorem witness_TilesCommitTheirShadows_due : Inv (dueNext rs (.loss 0 0x3F800000 0 0 0) .max)
    ∧ (∀ w ∈ [Effect.stat 3 2 7, .loss 0 0x3F800000 0 0 0], ∀ k ∈ [RKind.sum, .max], let s := dueNext rs w k
      (s.ch 0).ticking = true ∧ (s.ch 0).due = ⟨20, 0, some 1, w⟩ :: [] ∧ (s.ch 0).cyc + 1 = 20 ∧ ((s.ch 0).ream 0).com.kind = k
        ∧ (s.ctx 0).st = .running)
    ∧ (((dueNext rs .commit .sum).ctx 0).slot 3).map (fun d => (d.copies.getD (statPlace d.decl 2).1 ⟨.empty, 9, 0, [], 0⟩, (statPlace d.decl 2).2.1))
      = some ({ Copy.fresh with st := .full }, 0) := by
  refine ⟨inv_due_loss, ?_⟩
  decide
/-- A sampling run of one service row with k = 4 of which two candidates are pending. -/
def sampProg : Prog := ⟨[BitVec.ofNat 128 (0xF0 * 2 ^ 120 + 3 * 2 ^ 113 + 8 * 2 ^ 85 + 2 * 2 ^ 82 + 8 * 2 ^ 67), prog0.getD 1 0,
  BitVec.ofNat 128 (0x70 * 2 ^ 120 + 1 * 2 ^ 116 + 4 * 2 ^ 97 + 0x3F666666 * 2 ^ 65 + 4 * 2 ^ 27)]⟩
def rsmp : Run := let r := { re with prog := sampProg }; { r with commitAt := r.commitCycle }
/-- Its service row is to be committed in the next cc, and ends with it. -/
def sampled : State := bnd { x0 with st := .running, runs := [rsmp] }
  { hp with cyc := 17, due := [⟨18, 0, some 1, .close ⟨0, 0, 0, 18⟩⟩], sorter := [⟨0, 0, [], [(1, [(0x40000000, 3), (0x3F800000, 5)])]⟩] }
theorem witness_TilesCommitTheirShadows_sample : (sampled.ch 0).ticking = true
    ∧ (sampled.ch 0).due = ⟨(sampled.ch 0).cyc + 1, 0, some rsmp.ser, .close ⟨0, 0, 0, 18⟩⟩ :: [] ∧ (sampled.ctx 0).run 1 = some rsmp
    ∧ (sampled.ctx 0).chan = 0 ∧ rsmp.mode = .sample ∧ (sampled.ch 0).cyc + 1 ≤ 18 ∧ rsmp.prog.closes rsmp.w.cbase = true
    ∧ (0 + 1) % rsmp.prog.sampleW.s = 0 ∧ (1 + 1) % 2 = 0 ∧ (∀ e ∈ (sampled.ch 0).sorter, e.ctx = 0 ∧ e.row = 2 * (0 / rsmp.prog.sampleW.s) + 0) := by
  decide
def rd : Run := { re with phase := .committed }
theorem witness_RunsCompleteWithNothingLeft :
    (let s := bnd { x0 with st := .running, runs := [rd] } hp
     Inside s ∧ (s.ctx 0).runs.find? (fun q => s.completes 0 q) = some rd ∧ (s.ch 0).frozen = false
      ∧ ((s.pass 0 ((s.ch 0).lastOf 1)).ctx 0).run 1 = some rd ∧ NoWordsWait ((s.pass 0 ((s.ch 0).lastOf 1)).ctx 0))
    ∧ (∀ q ∈ (ended.ctx 0).runs, ended.completes 0 q = false) ∧ ({ hp with clkStop := true } : Channel).frozen = true := by decide

/-! ### Channels, fences, errors -/

theorem witness_ChannelCommandsMoveTheStates : Commanded up
    ∧ (∀ s ∈ [ChSt.off, .powering, .ready, .quiescing, .fenced, .testing], ({ Channel.reset with st := s } : Channel).st = s)
    ∧ up.mnt = none ∧ ({ up with mnt := some (mntNow 2 0) } : State).mnt = some (mntNow 2 0) ∧ (mntNow 2 0).kind ≠ 1 ∧ (mntNow 2 0).ch = 0
    := by decide
theorem witness_ChannelEventsMoveTheStates : Inside up
    ∧ (let h : Channel := { Channel.reset with st := .powering }; h.st = .powering ∧ h.clkStop = false ∧ h.offlatch = false)
    ∧ (let h : Channel := { rdy with st := .quiescing, copying := true }; h.st ≠ .powering ∧ h.copying = true ∧ h.offlatch = false)
    ∧ (∀ b ∈ [true, false], let h : Channel := { rdy with st := .testing, rjlatch := b }
        h.st = .testing ∧ h.wtest = none ∧ h.copying = false ∧ h.clkStop = false ∧ h.offlatch = false ∧ h.rjlatch = b
          ∧ h.fcfg.getLsbD 1 = true ∧ h.fcount < (h.fcfg.extractLsb' 2 4).toNat)
    ∧ (({ rdy with fcount := 3 } : Channel).fcfg.extractLsb' 2 4).toNat ≤ 3
    ∧ (let h : Channel := { rdy with st := .fenced, fencing := true, testLatch := true, copying := true, wtest := some ⟨false, true⟩ }
       h.st = .fenced ∧ h.fencing = true ∧ h.wb = [] ∧ h.testLatch = true ∧ h.perm = false)
    ∧ (let h : Channel := { Channel.reset with sdown := true, onlatch := true }; h.st = .off ∧ h.sdown = true ∧ h.clkStop = false)
    ∧ (let h : Channel := { rdy with fcfg := 0 }; h.fcfg.getLsbD 1 = false ∧ h.fcfg.getLsbD 0 = false ∧ h.testLatch = false ∧ h.wb = [])
    ∧ rdy.fcfg.getLsbD 0 = true ∧ rdy.perm = false ∧ (({ h0 with st := .quiescing } : Channel).alloc ≠ []) := by decide
/-- A channel whose line 5 is its context's; one that is OFF; one whose clock has stopped; the fourth error of a window. -/
theorem witness_FenceEmptiesItsChannel :
    (let s := bnd x0 { h0 with loft := [newLine 5 0 0 0] }
     Reached s ∧ s.ucrdy = true ∧ (s.ch 0).st = .ready ∧ (s.ch 0).clkStop = false ∧ (s.ch 0).wb = []
      ∧ ∀ l ∈ (s.ch 0).loft, l.idx = 5 ∧ ∃ a ∈ (s.ch 0).alloc, a.ctx = l.owner)
    ∧ (up.ch 0).st ≠ .ready ∧ (up.ch 0).st ≠ .quiescing ∧ ({ h0 with clkStop := true } : Channel).st = .ready
    ∧ (let s := bnd x0 { h0 with resCnt := 3 }
       let h := s.ch 0
       Inside s ∧ s.hosted 0 = true ∧ s.chanOf 0 = 0 ∧ (s.ctx 0).st = .bound ∧ (s.ctx 0).restoreWait = false ∧ h.st = .ready ∧ h.clkStop = false
        ∧ h.fcfg.extractLsb' 11 4 ≠ 0#4 ∧ (if h.resWin = h.cyc / 2 ^ 24 then h.resCnt else 0) + 1 = (h.fcfg.extractLsb' 11 4).toNat) := by decide
/-- Channel 7 has room; no channel of RBMASK has. -/
theorem witness_FenceMovesOrFaultsAContext :
    (let s := (bnd { x0 with rbmask := 0x80 } h0).setCh 7 rdy
     Commanded s ∧ (s.ch 0).st = .ready ∧ (s.ch 0).clkStop = false ∧ (s.ch 0).alloc = [⟨0, 0, 0, 4, 0⟩] ∧ (s.ctx 0).restoreWait = false
      ∧ s.rebindTarget 0 (s.ctx 0) = some 7)
    ∧ (bnd x0 h0).rebindTarget 0 x0 = none := by decide
theorem witness_ErrorsStayWhereTheyAre :
    (let s := bnd x0 { h0 with fcfg := 0 }
     Inside s ∧ s.hosted 0 = true ∧ s.chanOf 0 = (s.ctx 0).chan ∧ (s.ctx 0).st = .bound ∧ (s.ch 0).fcfg.extractLsb' 11 4 = 0#4
      ∧ (s.ch 0).ticking = true ∧ s.homeOf 0 ≠ none ∧ s.homeOf 1 = none
      ∧ ∀ n < 8, (s.ch n).laneRes = []) := by decide
/-- An outstanding access of a bound context; words of a Headbox receiver, one of them refused. -/
theorem witness_ErrorsStayWhereTheyAre_uncore :
    (let s := (bnd x0 h0).setSlice 0 { Slice.reset with out := [waits (.fetch 0)] }
     Inside s ∧ (s.slice 0).out.find? (fun o => o.tag == 63) = some (waits (.fetch 0)) ∧ (waits (.fetch 0)).failed = false
      ∧ (waits (.fetch 0)).acc.kind ≠ .load ∧ (waits (.fetch 0)).acc.kind ≠ .maint ∧ (s.ctx 0).st = .bound
      ∧ (∀ o ∈ (s.slice 0).out, o.tag ≠ 5))
    ∧ (let s := (bnd x0 h0).setRxq 0 [⟨0, 0, 1, 1⟩, ⟨0, 0, 0, 2⟩]
       (s.rxq 0)[0]? = some ⟨0, 0, 1, 1⟩ ∧ Refused s 0 1 ∧ (s.rxq 0)[1]? = some ⟨0, 0, 0, 2⟩ ∧ ¬ Refused s 0 0 ∧ (s.rxq 0)[2]? = none) := by decide
theorem witness_ThrottleStepsTowardsItsTarget : Inside (bnd x0 h0) ∧ ((bnd x0 h0).ch 0).ticking = true
    ∧ ({ rdy with thrpend := true } : Channel).thrpend = true ∧ rdy.thrpend = false := by decide
theorem witness_WindowsRefillTheBalances : Inside (bnd x0 h0) ∧ ((bnd x0 h0).ch 0).ticking = true ∧ h0.laneRes = []
    ∧ (h0.alloc.map fun a => a.ctx).Nodup ∧ x0.budget = 0 ∧ ({ x0 with budget := 1 } : Ctx).budget ≠ 0 := by decide
theorem witness_WrapperLoadsCapturesAndTests :
    wirIns 0x0F = .vendor ∧ up.wrap.opened = false ∧ up.wrap.tries < 4 ∧ wirIns 0x85 = .idcode ∧ wirIns 0xF2 = .preload
    ∧ (segRange (wirSeg 0xF2)).1 ≤ 0 ∧ 429211 < (segRange (wirSeg 0xF2)).2 ∧ jrstCell = 429212
    ∧ Inside up ∧ (up.ch 7).st = .off ∧ (up.ch 7).sdown = false ∧ ((bnd x0 h0).ch 0).st = .ready ∧ State.reset.jrst = false
    ∧ (let h : Channel := { Channel.reset with st := .testing, wtest := some ⟨true, true⟩ }
       h.st = .testing ∧ h.clkStop = false ∧ h.offlatch = false ∧ h.wtest = some ⟨true, true⟩)
    ∧ (let h : Channel := { rdy with st := .fenced, fencing := true }
       h.st = .fenced ∧ h.perm = false ∧ h.testLatch = false ∧ h.fencing = true ∧ h.wtest = none)
    ∧ (let h : Channel := { rdy with st := .fenced, fencing := true, testLatch := true }; h.testLatch = true ∧ h.testAt ≠ some up.uc)
    ∧ ({ rdy with st := .fenced, testAt := some 0 } : Channel).testAt = some up.uc
    ∧ wirIns 0x03 = .clamp ∧ wirIns 0x04 = .safe ∧ 9 ≤ (0xE#4).toNat ∧ (0xE#4).toNat ≤ 14
    ∧ ({ up with undef := true } : State).undef = true ∧ cellOut 1 = true ∧ ({ Channel.reset with sdown := true } : Channel).sdown = true
    ∧ cellOut 0 = false ∧ 0 ≠ jrstCell := by decide
theorem witness_SumsDoNotDependOnOrderOrSplit : (RPart.clear .sum).kind = .sum ∧ (RPart.clear .sum).tally < 2 ^ 32
    ∧ [Val.nan, Val.one].Perm [Val.one, Val.nan] := by
  refine ⟨by decide, by decide, .swap ..⟩
/-- Candidates in two orders; 2.5 in its binade, whose nearest even integer is 2; the value of E4M3 code 0x38; an MX block with a NaN. -/
theorem witness_SumsDoNotDependOnOrderOrSplit_rounding : [((1 : Nat), (2 : Nat)), (3, 4)].Perm [(3, 4), (1, 2)]
    ∧ Binade (ratOf ⟨5, 2, 0⟩) 1 ∧ NearestEven (ratOf ⟨5, 2, 0⟩) 2 := by
  refine ⟨.swap .., by norm_num [Binade, ratOf], by norm_num [NearestEven, ratOf], ?_⟩
  norm_num [ratOf]
theorem witness_SumsDoNotDependOnOrderOrSplit_codes : (0x38 : Nat) < 2 ^ Fmt.e4m3.width
    ∧ (match decode 0x38 .e4m3 with | .fin q => decide (q.n ≠ 0) | _ => false) = true
    ∧ Val.nan ∈ [Val.nan, Val.one] ∧ Val.nan ∉ [Val.one] := by decide
theorem witness_EveryStepKeepsTheInvariant : Inv up ∧ Machine.step up = .next up.tick := ⟨inv_of_tables (by decide), rfl⟩

/-! ### Worked examples of the spec: number formats (02) -/

/-- 500.0 to E4M3 with and without saturation, and to E5M2 (02, Value rules). -/
theorem test_e4m3_saturates : convertCode (decode 0x43FA0000 .fp32) .e4m3 true = (0x7E, flOverflow ||| flInexact) := by decide
theorem test_e4m3_overflows_to_nan : convertCode (decode 0x43FA0000 .fp32) .e4m3 false = (0x7F, flOverflow ||| flInexact) := by decide
theorem test_e5m2_rounds : convertCode (decode 0x43FA0000 .fp32) .e5m2 true = (0x60, flInexact) := by decide
/-- Two ties of FP32 to BF16 (02). -/
theorem test_bf16_tie_down : convertCode (decode 0x3F808000 .fp32) .bf16 true = (0x3F80, flInexact) := by decide
theorem test_bf16_tie_up : convertCode (decode 0x3F818000 .fp32) .bf16 true = (0x3F82, flInexact) := by decide
/-- The block of 0.1 and −2⁻¹⁰ (02, MX). -/
theorem test_mx_block : mxQuantise [decode 0x3DCCCCCD .fp32, decode 0xBA800000 .fp32] .e4m3 = (0x73, [0x7D, 0xC8], flInexact) := by
  decide
/-- Combined scales above 127 and below −127 (02, scale-carry). -/
theorem test_scale_carry_high : scaleCarry 0xF0 0xA0 [.ofInt 8] .e4m3 = (0xFE, [0x7E], flOverflow ||| flInexact) := by decide
theorem test_scale_carry_low : scaleCarry 0x30 0x4C [.ofInt 8, .fin (XQ.pow2 (-4))] .e4m3 = (0, [0x38, 0x04], flUnderflow) := by decide
/-- A combined scale above 127 leaves E5M2 infinities (02, R68 and the exception of R64). -/
theorem test_scale_carry_e5m2 : scaleCarry 0xF0 0xA0 [.ofInt 8, .inf true] .e5m2 = (0xFE, [0x7C, 0xFC], flOverflow ||| flInexact) := by
  decide
/-- A NaN row gives NaN whatever its elements (05, R148). -/
theorem test_lsmax_nan_row : (lsmaxEmit Val.one ⟨none, 0, 0, 0x7F800000⟩).1 = .nan := by decide
/-- FP32 0x3FAA_AAAB in three and in two BF16 pieces (02, splits). -/
theorem test_split_three : splitBf16 (decode 0x3FAAAAAB .fp32) 3 = ([0x3FAB, 0xBB2B, 0x36AC], flNone) := by decide
theorem test_split_two : splitBf16 (decode 0x3FAAAAAB .fp32) 2 = ([0x3FAB, 0xBB2B], flInexact) := by decide

/-! ### Worked examples: reams and rows (03, 05, 07, 08) -/

def s4097 : RPart := ((RPart.clear .sum).admitSum (.ofInt 4097)).1
def s4098 : RPart := ((RPart.clear .sum).admitSum (.ofInt 4098)).1
def q4097 : RPart := ((RPart.clear .sum).admitSum (.ofInt 16785409)).1
def q4098 : RPart := ((RPart.clear .sum).admitSum (.ofInt 16793604)).1
/-- The split row 4097.0, 4098.0: limbs, descriptor, combined limbs (03, Combination; 12, Table 12-12). -/
theorem test_sum_limbs : s4097.limb 4 = 0x0100100000000000 ∧ q4097.limb 5 = 0x10 ∧ q4097.limb 4 = 0x0200100000000000
    ∧ s4098.desc = 0x2000000000000001 := by decide +kernel
theorem test_sum_combine : (s4097.combine s4098).1.limb 4 = 0x0200300000000000 ∧ (q4097.combine q4098).1.limb 5 = 0x20
    ∧ (q4097.combine q4098).1.limb 4 = 0x0600500000000000 := by decide +kernel
/-- Its mean 4097.5 and variance 0.25, by hand: 8195 / 2 and (2 × 33579013 − 8195²) / 4. -/
theorem test_close_stats : closeStats (s4097.combine s4098).1 (q4097.combine q4098).1 0 = (0x45800C00, 0x3E800000, flNone) := by decide +kernel

/-- The row 0.0, 0.0, 2.0 in two tiles (03, Exponential terms): 2 × 2³⁰⁰ at offset 0, and exp(2) at offset 3. -/
def expA : RPart := { RPart.clear .exp with offset := 0, w := BitVec.ofNat 640 (2 ^ 301), tally := 2 }
def expB : RPart := { RPart.clear .exp with offset := 3, w := BitVec.ofNat 640 (15495974 * 2 ^ 276), tally := 1 }
theorem test_exp_combine : (expA.combine expB).1.limb 4 = 0x000012C732600000 ∧ (expA.combine expB).1.trim = false
    ∧ (expA.combine expB).1.offset = 3 := by decide +kernel
/-- Its emission in FP16 (05, Soft-maximum): 0.0 gives 0x2ED1, 2.0 gives 0x3A4C; and the exact term of 2.0 (04, R122). -/
theorem test_exp_sig : expSig (XQ.ofInt 2) = (0xEC7326, 2) := by decide +kernel
def smaxRow0 : Option (XQ × Int) := some ((expA.combine expB).1.value, 3)
theorem test_smax_emit : (match smaxEmit (.ofInt 0) smaxRow0, smaxEmit (.ofInt 2) smaxRow0 with
    | (a, _), (b, _) => (convertCode a .fp16 true, convertCode b .fp16 true)) = ((0x2ED1, flInexact), (0x3A4C, flInexact)) := by
  decide +kernel
/-- The gradients of that row (07, backward row operations): 0x364C and 0xA6D1. -/
theorem test_smaxb_emit :
    (let g (dy u : Val) := convertCode (bwdEmit .smaxb false dy u Val.zero Val.zero (f32v 0x41163993) Val.one (f32v 0x3F000000) Val.zero).1
      .fp16 true
     (g Val.one (.ofInt 2), g (f32v 0x3E800000) (.ofInt 0))) = ((0x364C, flInexact), (0xA6D1, flInexact)) := by decide +kernel
/-- The row of ctx 300 with a draw of 0.75 × 2⁶⁴ (08, Sampling): token 903, probability 0x3EEF_C666, status 0. -/
theorem test_sample_select : sampleSelect [(0x40000000, 17), (0x40000000, 903), (0, 2050), (0, 3000)] .fp32 0x3F666666
    0xC000000000000000 = (903, 0x3EEFC666, 0, false) := by decide +kernel

/-! ### Worked examples: words and registers (04, 09, 10, 13, 14, 15) -/

/-- EXP of 1.5 in four formats and in FP32 (04, Table 4-4). -/
theorem test_exp_narrow : [Fmt.fp16, .bf16, .e4m3, .e5m2].map (fun f => (fnStage 1 (f32v 0x3FC00000) Val.zero).ex.toFmt f true)
    = [(0x447B, flInexact), (0x408F, flInexact), (0x49, flInexact), (0x44, flInexact)] := by decide +kernel
/-- The SILU program (10): its words, field by field, and no failing check. -/
def siluProg : Prog := ⟨[0xF00C1200801020000100000000000000#128, 0xE0080000210000000000000000000000#128, 0x10000000000000000000000000000000#128,
  0x20000000000000000003000004000000#128, 0x30344000000000000000000000000000#128, 0x80140000000000000000000000000000#128]⟩
theorem test_silu_header : siluProg.hdr = ⟨6, 1, 2, false, 0, false, 1024, 4, 1024, 4096, 0, 0⟩ := by decide
theorem test_silu_no_fault : siluProg.faults = [] := by decide
/-- The RUN word of the listing (10). -/
theorem test_run_word : RunW.ofWord 0x01200800000000000000000000000000#128 = ⟨false, false, true, 64, 0, 0, 0, false⟩ := by decide
/-- CTXIFLT of the missing bias vector (10). -/
theorem test_iflt_word : ifltWord true 1 3 0x20 44 = 0x0000000000B08037#64 := by decide
/-- CTXST and CTXCAP of ctx 37 (15, Table 15-8). -/
theorem test_ctxst : ({ Ctx.reset with st := .running, ten := 3, chan := 5, lgmask := 0xFFFF, rbmask := 0xF8 } : Ctx).entryReg 0
    = 0x000000F8FFFF0532 := by decide
theorem test_ctxcap : (CapRec.mk true 0x12 5 17 0).reg = 0x0000110005001203 := by decide
/-- CHERR and CTXLOST of the fence of CH6 (13, Table 13-12). -/
theorem test_cherr : ({ rdy with err := some ⟨1, 0x0A1F03, 0x01234567⟩ } : Channel).errReg = 0x012345670A1F0303 := by decide
def lostRun (p : Nat) (ph : RunPhase) : Run := { newRun x0 1 0 ⟨false, false, false, p, 0, 0, 0, false⟩ with phase := ph }
theorem test_ctxlost : lostRecord { h0 with reams := [(0, ⟨RPart.clear .sum, none⟩)] } ⟨0, 0, 0, 4, 0⟩
    { x0 with cpseq := some (7, 0x0310), runs := [lostRun 0x0311 .started, lostRun 0x0312 .waiting],
              slots := [⟨Decl.ofWord 0, [{ Copy.fresh with st := .full }]⟩] } = 0x0310031203110217 := by decide
/-- CHSTAT after OFF, then after POWER while the switches open, then with the latch alone (14, the OFF and POWER example). -/
theorem test_chstat : ({ Channel.reset with sdown := true } : Channel).statReg = 0x8
    ∧ ({ Channel.reset with sdown := true, onlatch := true } : Channel).statReg = 0x18
    ∧ ({ Channel.reset with onlatch := true } : Channel).statReg = 0x10 := by decide
/-- Cell 226 of segment 3 is driven from the update stage under WS_EXTEST (16). -/
theorem test_cell_226 : ({ ({ Wrapper.reset with wir := 0x31 } : Wrapper).updateCells [(53630 * 3 + 226, true)] with wir := 0x31 } : Wrapper).drives
    (53630 * 3 + 226) = some true := by decide

end Sys2Proof.Tests
end

section
/-! SUPPORT. The Control map as rules: what a Control access does where it is accepted, which register of a block an offset names
(R400), and what the offsets do that no register occupies (R17). -/
namespace Sys2Proof.Machine
open Sys2Proof.Safety

/-! ### Accepted accesses -/

theorem exec_registerWrite {s : State} (hs : Commanded s) (off : BitVec 24) (d : BitVec 64) :
    exec (.registerWrite off d) s = .next (s.initDone.writeReg off.toNat d) := by
  rw [exec, execRegisterWrite, ctl_commanded hs]

/-- A write at an offset whose meaning is known. -/
theorem exec_registerWrite_of_eq {s t : State} (hs : Commanded s) {o : Nat} (ho : o < 2 ^ 24) {d : BitVec 64}
    (h : s.initDone.writeReg o d = t) : exec (.registerWrite (BitVec.ofNat 24 o) d) s = .next t := by
  have e : (BitVec.ofNat 24 o).toNat = o := Nat.mod_eq_of_lt ho
  rw [exec_registerWrite hs, e, h]

/-! ### The register that an offset names -/

/-- An offset in block n of blocks of one size: it is aligned, and gives back the block and the place in it. -/
theorem block_offset {base size o : Nat} (n : Nat) (h : size ∣ base) (hs : 8 ∣ size) (ho : o < size) (h8 : o % 8 = 0) :
    (base + size * n + o) / 8 * 8 = base + size * n + o ∧ (base + size * n + o - base) / size = n
      ∧ (base + size * n + o) % size = o := by
  refine ⟨Nat.div_mul_cancel ?_, ?_, ?_⟩
  · exact Nat.dvd_add (Nat.dvd_add (hs.trans h) (hs.mul_right n)) (Nat.dvd_of_mod_eq_zero h8)
  · rw [Nat.add_assoc, Nat.add_sub_cancel_left, Nat.mul_add_div (Nat.zero_lt_of_lt ho), Nat.div_eq_of_lt ho, Nat.add_zero]
  · rw [Nat.add_mod, Nat.mod_eq_zero_of_dvd (Nat.dvd_add h (Nat.dvd_mul_right size n)), Nat.zero_add, Nat.mod_mod,
      Nat.mod_eq_of_lt ho]

section
variable (s : State) {o : Nat}

theorem readReg_global (ho : o < 0x2000) (h8 : o % 8 = 0) : s.readReg o = s.globalReg o := by
  have e : o / 8 * 8 = o := by omega
  simp only [State.readReg, e, if_pos ho]

theorem writeReg_global (d : BitVec 64) (ho : o < 0x2000) (h8 : o % 8 = 0) : s.writeReg o d = s.writeGlobal o d := by
  have e : o / 8 * 8 = o := by omega
  simp only [State.writeReg, e, if_pos ho]

variable {n : Nat}

theorem readReg_channel (hn : n < 8) (ho : o < 0x1000) (h8 : o % 8 = 0) : s.readReg (chBase n + o) = (s.ch n).reg o := by
  obtain ⟨e, en, eo⟩ := block_offset (base := 0x010000) (size := 0x1000) n (by decide) (by decide) ho h8
  simp only [State.readReg, chBase, e, en, eo]
  clear e en eo h8
  simp (disch := omega) only [if_neg, if_pos]

theorem writeReg_channel (d : BitVec 64) (hn : n < 8) (ho : o < 0x1000) (h8 : o % 8 = 0) :
    s.writeReg (chBase n + o) d = s.writeChannel n o d := by
  obtain ⟨e, en, eo⟩ := block_offset (base := 0x010000) (size := 0x1000) n (by decide) (by decide) ho h8
  simp only [State.writeReg, chBase, e, en, eo]
  clear e en eo h8
  simp (disch := omega) only [if_neg, if_pos]

theorem writeReg_entry (d : BitVec 64) (hn : n < 1024) (ho : o < 0x40) (h8 : o % 8 = 0) :
    s.writeReg (entryBase n + o) d = s.writeEntry n (o / 8) d := by
  obtain ⟨e, en, eo⟩ := block_offset (base := 0x100000) (size := 0x40) n (by decide) (by decide) ho h8
  simp only [State.writeReg, entryBase, e, en, eo]
  clear e en eo h8
  simp (disch := omega) only [if_neg, if_pos]

theorem readReg_status (hn : n < 1024) (ho : o < 0x80) (h8 : o % 8 = 0) :
    s.readReg (statusBase n + o) = (s.ctx n).statusReg (o / 8) := by
  obtain ⟨e, en, eo⟩ := block_offset (base := 0x110000) (size := 0x80) n (by decide) (by decide) ho h8
  simp only [State.readReg, statusBase, e, en, eo]
  clear e en eo h8
  simp (disch := omega) only [if_neg, if_pos]

theorem writeReg_status (d : BitVec 64) (hn : n < 1024) (ho : o < 0x80) (h8 : o % 8 = 0) :
    s.writeReg (statusBase n + o) d = s.writeStatus n (o / 8) d := by
  obtain ⟨e, en, eo⟩ := block_offset (base := 0x110000) (size := 0x80) n (by decide) (by decide) ho h8
  simp only [State.writeReg, statusBase, e, en, eo]
  clear e en eo h8
  simp (disch := omega) only [if_neg, if_pos]

theorem readReg_tenant (hn : n < 16) (ho : o < 0x80) (h8 : o % 8 = 0) : s.readReg (tenantBase n + o) = (s.tenant n).reg o := by
  obtain ⟨e, en, eo⟩ := block_offset (base := 0x300000) (size := 0x80) n (by decide) (by decide) ho h8
  simp only [State.readReg, tenantBase, e, en, eo]
  clear e en eo h8
  simp (disch := omega) only [if_neg, if_pos]

theorem writeReg_tenant (d : BitVec 64) (hn : n < 16) (ho : o < 0x80) (h8 : o % 8 = 0) :
    s.writeReg (tenantBase n + o) d = s.writeTenant n o d := by
  obtain ⟨e, en, eo⟩ := block_offset (base := 0x300000) (size := 0x80) n (by decide) (by decide) ho h8
  simp only [State.writeReg, tenantBase, e, en, eo]
  clear e en eo h8
  simp (disch := omega) only [if_neg, if_pos]

theorem readReg_debug (ho : o < 0x10000) (h8 : o % 8 = 0) : s.readReg (0x3F0000 + o) = s.debugReg o := by
  have e : (0x3F0000 + o) / 8 * 8 = 0x3F0000 + o := by omega
  have eo : 0x3F0000 + o - 0x3F0000 = o := by omega
  simp only [State.readReg, e, eo]
  clear e eo h8
  simp (disch := omega) only [if_neg, if_pos]

theorem writeReg_debug (d : BitVec 64) (ho : o < 0x10000) (h8 : o % 8 = 0) : s.writeReg (0x3F0000 + o) d = s.writeDebug o d := by
  have e : (0x3F0000 + o) / 8 * 8 = 0x3F0000 + o := by omega
  have eo : 0x3F0000 + o - 0x3F0000 = o := by omega
  simp only [State.writeReg, e, eo]
  clear e eo h8
  simp (disch := omega) only [if_neg, if_pos]

end

/-! ### Offsets that no register occupies -/

/-- An offset whose write changes nothing and whose read gives zero, in every state. -/
def Unoccupied (o : Nat) : Prop := ∀ (s : State) (d : BitVec 64), s.writeReg o d = s ∧ s.readReg o = 0

/-- Between the blocks of Table 15-1. -/
theorem unoccupied_between_blocks {o : Nat}
    (h : 0x002200 ≤ o ∧ o < 0x010000 ∨ 0x018000 ≤ o ∧ o < 0x100000 ∨ 0x130000 ≤ o ∧ o < 0x200000
      ∨ 0x210000 ≤ o ∧ o < 0x300000 ∨ 0x300800 ≤ o ∧ o < 0x3F0000 ∨ 0x400000 ≤ o) : Unoccupied o := by
  intro s d
  have hq : 0x002200 ≤ o / 8 * 8 ∧ o / 8 * 8 < 0x010000 ∨ 0x018000 ≤ o / 8 * 8 ∧ o / 8 * 8 < 0x100000
      ∨ 0x130000 ≤ o / 8 * 8 ∧ o / 8 * 8 < 0x200000 ∨ 0x210000 ≤ o / 8 * 8 ∧ o / 8 * 8 < 0x300000
      ∨ 0x300800 ≤ o / 8 * 8 ∧ o / 8 * 8 < 0x3F0000 ∨ 0x400000 ≤ o / 8 * 8 := by omega
  simp only [State.writeReg, State.readReg]
  generalize o / 8 * 8 = q at hq
  clear h
  rcases hq with h | h | h | h | h | h
  all_goals constructor <;> simp (disch := omega) only [if_neg, if_pos]

theorem unoccupied_channel {n k : Nat} (hn : n < 8) (hk : k < 512)
    (h : 5 ≤ k ∧ k < 0x80 ∨ 0x8E ≤ k ∧ k < 0xA0 ∨ 0xA5 ≤ k ∧ k < 0xC0 ∨ 0xC4 ≤ k) : Unoccupied (chBase n + 8 * k) := by
  intro s d
  rw [writeReg_channel s d hn (by omega) (by omega), readReg_channel s hn (by omega) (by omega)]
  constructor
  · simp (disch := omega) only [State.writeChannel, if_neg]
  · simp (disch := omega) only [Channel.reg, if_neg]

theorem unoccupied_global {k : Nat}
    (h : 2 ≤ k ∧ k < 0x200 ∨ k = 0x201 ∨ 0x203 ≤ k ∧ k < 0x220 ∨ 0x223 ≤ k ∧ k < 0x240 ∨ 0x244 ≤ k ∧ k < 0x260 ∨ 0x262 ≤ k)
    (hk : k < 1024) : Unoccupied (8 * k) := by
  intro s d
  rw [writeReg_global s d (by omega) (by omega), readReg_global s (by omega) (by omega)]
  constructor
  · simp (disch := omega) only [State.writeGlobal, if_neg]
  · simp (disch := omega) only [State.globalReg, if_neg]

theorem unoccupied_status {c k : Nat} (hc : c < 1024) (hk : k < 16) (h : 5 ≤ k ∧ k < 8 ∨ 12 ≤ k) :
    Unoccupied (statusBase c + 8 * k) := by
  intro s d
  have e : 8 * k / 8 = k := by omega
  rw [writeReg_status s d hc (by omega) (by omega), readReg_status s hc (by omega) (by omega), e]
  constructor
  · simp (disch := omega) only [State.writeStatus, if_neg]
  · rcases h with ⟨_, _⟩ | _
    · interval_cases k <;> rfl
    · interval_cases k <;> rfl

theorem unoccupied_tenant {m k : Nat} (hm : m < 16) (hk : k < 16) (h : 11 ≤ k) : Unoccupied (tenantBase m + 8 * k) := by
  intro s d
  rw [writeReg_tenant s d hm (by omega) (by omega), readReg_tenant s hm (by omega) (by omega)]
  constructor
  · simp (disch := omega) only [State.writeTenant, if_neg]
  · simp (disch := omega) only [Tenant.reg, if_neg]

theorem unoccupied_debug {k : Nat} (hk : k < 8192) (h : 1 ≤ k ∧ k < 0x20 ∨ 0x2C ≤ k) : Unoccupied (0x3F0000 + 8 * k) := by
  intro s d
  rw [writeReg_debug s d (by omega) (by omega), readReg_debug s (by omega) (by omega)]
  constructor
  · simp (disch := omega) only [State.writeDebug, if_neg]
  · simp (disch := omega) only [State.debugReg, if_neg]

/-- A Control access to such an offset. -/
theorem ignored_of_unoccupied {s : State} {off : BitVec 24} {d : BitVec 64} (hs : Commanded s) (h : Unoccupied off.toNat) :
    exec (.registerWrite off d) s = .next s.initDone ∧ s.readReg off.toNat = 0 :=
  ⟨by rw [exec_registerWrite hs, (h s.initDone d).1], (h s d).2⟩

/-! ### Offset bits [2:0] -/

theorem and_mask_eq (off : BitVec 24) : off &&& 0xFFFFF8#24 = (off >>> 3) <<< 3 := by
  ext i hi
  interval_cases i <;> simp

theorem toNat_and_mask (off : BitVec 24) : (off &&& 0xFFFFF8#24).toNat = off.toNat / 8 * 8 := by
  have := off.isLt
  rw [and_mask_eq, BitVec.toNat_shiftLeft, BitVec.toNat_ushiftRight, Nat.shiftLeft_eq, Nat.shiftRight_eq_div_pow]
  omega

theorem readReg_aligned (s : State) (o : Nat) : s.readReg (o / 8 * 8) = s.readReg o := by
  have e : o / 8 * 8 / 8 * 8 = o / 8 * 8 := by omega
  simp only [State.readReg, e]

theorem writeReg_aligned (s : State) (o : Nat) (d : BitVec 64) : s.writeReg (o / 8 * 8) d = s.writeReg o d := by
  have e : o / 8 * 8 / 8 * 8 = o / 8 * 8 := by omega
  simp only [State.writeReg, e]

end Sys2Proof.Machine

namespace Sys2Proof
open Sys2Proof.Machine Sys2Proof.Safety

/-- Settles O1: `step` takes the front of a queue that is not empty. -/
theorem stepRunsFrontCommand : Obligations.StepRunsFrontCommand := by
  intro c rest s h
  simp only [Machine.step, h]

/-- Settles O14, block by block. -/
theorem unoccupiedOffsetsAreIgnored : Obligations.UnoccupiedOffsetsAreIgnored := by
  intro s off d hs
  refine ⟨fun h => ignored_of_unoccupied hs (unoccupied_between_blocks h), fun n k e h => ?_, fun k e h => ?_, fun c k e h => ?_,
    fun m k e h => ?_, fun k e h => ?_, ?_, ?_⟩
  · exact ignored_of_unoccupied hs (e ▸ unoccupied_channel n.isLt k.isLt h)
  · exact ignored_of_unoccupied hs (e ▸ unoccupied_global h k.isLt)
  · exact ignored_of_unoccupied hs (e ▸ unoccupied_status c.isLt k.isLt h)
  · exact ignored_of_unoccupied hs (e ▸ unoccupied_tenant m.isLt k.isLt h)
  · exact ignored_of_unoccupied hs (e ▸ unoccupied_debug k.isLt h)
  · rw [exec_registerWrite hs, exec_registerWrite hs, toNat_and_mask, writeReg_aligned]
  · rw [toNat_and_mask, readReg_aligned]

end Sys2Proof
end

section
/-! SUPPORT. The registers that a read clears (access RC) and those that take a write (access RW): what each access does to its
register. -/
namespace Sys2Proof.Machine
open Sys2Proof.Safety

/-! ### Counters that a read clears -/

/-- A register of one field that begins at bit 0. -/
theorem regOf_low (v w : Nat) : regOf [(v, w, 0)] = BitVec.ofNat 64 (v % 2 ^ w) := by
  simp [regOf]

/-- A register of one field that is the whole of it. -/
theorem regOf_whole (v : Nat) : regOf [(v, 64, 0)] = BitVec.ofNat 64 v := by
  rw [regOf_low]
  exact BitVec.eq_of_toNat_eq (Nat.mod_mod ..)

/-- A register of two fields, the first at bit 0. -/
theorem regOf_two (v w v' w' i : Nat) :
    regOf [(v, w, 0), (v', w', i)] = BitVec.ofNat 64 (v % 2 ^ w + v' % 2 ^ w' * 2 ^ i) := by
  simp [regOf]

section
variable (s : State)

theorem readReg_chpstall (n : ChanId) : s.readReg (chBase n.val + 0x400) = BitVec.ofNat 64 (s.ch n.val).pstall := by
  rw [readReg_channel s n.isLt (by decide) (by decide), ← regOf_whole]
  rfl

theorem readReg_chpcause (n : ChanId) (k : Fin 11) :
    s.readReg (chBase n.val + (0x408 + 8 * k.val)) = BitVec.ofNat 64 ((s.ch n.val).pcause.getD k.val 0) := by
  have e : (0x408 + 8 * k.val - 0x408) / 8 = k.val := by omega
  rw [readReg_channel s n.isLt (by omega) (by omega), ← regOf_whole]
  simp (disch := omega) only [Channel.reg, if_neg, if_pos, e]

theorem readReg_chstarve (n : ChanId) : s.readReg (chBase n.val + 0x460) = BitVec.ofNat 64 (s.ch n.val).starve := by
  rw [readReg_channel s n.isLt (by decide) (by decide), ← regOf_whole]
  rfl

theorem readReg_chcrederr (n : ChanId) : s.readReg (chBase n.val + 0x468) = BitVec.ofNat 64 ((s.ch n.val).crederr % 2 ^ 32) := by
  rw [readReg_channel s n.isLt (by decide) (by decide), ← regOf_low]
  rfl

theorem readReg_chce (n : ChanId) : s.readReg (chBase n.val + 0x520) = BitVec.ofNat 64 ((s.ch n.val).ce % 2 ^ 32) := by
  rw [readReg_channel s n.isLt (by decide) (by decide), ← regOf_low]
  rfl

theorem readReg_ctxstall (c : CtxId) : s.readReg (statusBase c.val + 0x20)
    = BitVec.ofNat 64 ((s.ctx c.val).stallPace % 2 ^ 32 + (s.ctx c.val).stallBudget % 2 ^ 32 * 2 ^ 32) := by
  rw [readReg_status s c.isLt (by decide) (by decide), ← regOf_two]
  rfl

theorem readReg_trefcnt (m : TenId) : s.readReg (tenantBase m.val + 0x50) = BitVec.ofNat 64 ((s.tenant m.val).trefcnt % 2 ^ 32) := by
  rw [readReg_tenant s m.isLt (by decide) (by decide), ← regOf_low]
  rfl

theorem readReg_ucce : s.readReg 0x1110 = BitVec.ofNat 64 (s.ucce % 2 ^ 32) := by
  rw [readReg_global s (by decide) (by decide), ← regOf_low]
  rfl

theorem readReg_fsstat : s.readReg 0x1010 = BitVec.ofNat 64 (s.fsRej % 2 ^ 32 + s.fsLslot % 2 ^ 12 * 2 ^ 32) := by
  rw [readReg_global s (by decide) (by decide), ← regOf_two]
  rfl

end

/-! ### Values that a write stores -/

/-- CHWIN holds 10 to 24 (R409). -/
theorem clampWexp_eq (v : Nat) : clampWexp v = if v < 10 then 10 else if v > 24 then 24 else v := by
  unfold clampWexp
  split
  · omega
  · split <;> omega

section
variable {h : Channel} {a : Nat × BitVec 31} {cc : Nat}

theorem pchAt_of_le (ho : h.pchOld = some a) (hc : cc ≤ a.1) : h.pchAt cc = a.2 := by
  simp only [Channel.pchAt, ho, if_pos hc]

theorem pchAt_of_lt (ho : ∀ a, h.pchOld = some a → a.1 < cc) : h.pchAt cc = h.pchctl := by
  unfold Channel.pchAt
  split
  · rename_i w v hw
    exact if_neg (Nat.not_le.mpr (ho _ hw))
  · rfl

/-- A write leaves what an earlier one put off since the latest decision cc, or puts off the value of before. -/
theorem writePchctl_pchOld (h : Channel) (v : BitVec 31) :
    (∃ a, h.pchOld = some a ∧ h.cyc / 65536 * 65536 ≤ a.1 ∧ (h.writePchctl v).pchOld = some a)
      ∨ (∀ a, h.pchOld = some a → a.1 < h.cyc / 65536 * 65536) ∧ (h.writePchctl v).pchOld = some (h.cyc, h.pchctl) := by
  unfold Channel.writePchctl
  cases ho : h.pchOld with
  | none => exact .inr ⟨nofun, rfl⟩
  | some a =>
    by_cases hk : h.cyc / 65536 * 65536 ≤ a.1
    · exact .inl ⟨a, rfl, hk, if_pos (decide_eq_true hk)⟩
    · refine .inr ⟨fun b hb => ?_, if_neg (by simp [hk])⟩
      rw [← Option.some.inj hb]
      exact Nat.lt_of_not_le hk

/-- The decision cc at or before the present one keeps what CHPCTL held there (R415). -/
theorem writePchctl_pchAt_latest (v : BitVec 31) (h0 : cc % 65536 = 0) (h1 : cc ≤ h.cyc) (h2 : h.cyc < cc + 65536) :
    (h.writePchctl v).pchAt cc = h.pchAt cc := by
  have e : h.cyc / 65536 * 65536 = cc := by omega
  rcases writePchctl_pchOld h v with ⟨a, ho, hk, hw⟩ | ⟨hlt, hw⟩
  · rw [pchAt_of_le hw (e ▸ hk), pchAt_of_le ho (e ▸ hk)]
  · rw [pchAt_of_le hw h1, pchAt_of_lt (e ▸ hlt)]

/-- The next decision cc takes what is written, where no write that has been put off stands before it (R415). -/
theorem writePchctl_pchAt_next (v : BitVec 31) (h2 : h.cyc < cc + 65536) (hp : ∀ a, h.pchOld = some a → a.1 < cc + 65536) :
    (h.writePchctl v).pchAt (cc + 65536) = v := by
  refine pchAt_of_lt fun b hb => ?_
  rcases writePchctl_pchOld h v with ⟨a, ho, -, hw⟩ | ⟨-, hw⟩
  · rw [← Option.some.inj (hw.symm.trans hb)]
    exact hp a ho
  · rw [← Option.some.inj (hw.symm.trans hb)]
    exact h2

end

/-! ### One value for every channel -/

/-- A change of each channel of a list reaches those listed. -/
theorem foldl_modCh_ch (f : Channel → Channel) (m : Nat) {l : List Nat} (hl : l.Nodup) :
    ∀ s : State, (l.foldl (fun s n => s.modCh n f) s).ch m = if m ∈ l then f (s.ch m) else s.ch m := by
  induction l with
  | nil => simp
  | cons a r ih =>
    intro s
    obtain ⟨ha, hr⟩ := List.nodup_cons.mp hl
    rw [List.foldl_cons, ih hr]
    by_cases e : m = a
    · subst e; simp [ha, State.modCh]
    · simp [e, State.modCh]

/-- Such a change leaves all but the channels. -/
theorem foldl_modCh_others (f : Channel → Channel) (l : List Nat) (k : Tbl Channel) :
    ∀ s : State, { l.foldl (fun s n => s.modCh n f) s with chans := k } = { s with chans := k } := by
  induction l with
  | nil => exact fun _ => rfl
  | cons a r ih => exact fun s => ih (s.modCh a f)

/-- The islands that a value of pw reaches (log 78). -/
theorem worksClocked_iff (h : Channel) :
    (h.ticking && h.st != .powering) = true ↔ h.st ≠ .off ∧ h.st ≠ .powering ∧ h.clkStop = false := by
  simp [Channel.ticking, and_assoc, and_comm, and_left_comm]

theorem sendPw_ch (s : State) (p : Nat) (n : ChanId) : (s.sendPw p).ch n.val =
    if (s.ch n.val).st ≠ .off ∧ (s.ch n.val).st ≠ .powering ∧ (s.ch n.val).clkStop = false
      then { s.ch n.val with pw := p } else s.ch n.val := by
  rw [State.sendPw, foldl_modCh_ch _ _ List.nodup_range, if_pos (List.mem_range.mpr n.isLt)]
  exact if_congr (worksClocked_iff _) rfl rfl

theorem sendPw_others (s : State) (p : Nat) (k : Tbl Channel) : { s.sendPw p with chans := k } = { s with chans := k } :=
  foldl_modCh_others ..

/-! ### Registers that take a write -/

theorem writeReg_ifmask (s : State) (d : BitVec 64) : s.writeReg 0x1108 d = { s with ifmask := d.extractLsb' 0 21 } := by
  rw [writeReg_global s d (by decide) (by decide)]; rfl

theorem writeReg_mntaddr (s : State) (d : BitVec 64) : s.writeReg 0x1200 d = { s with mntAddr := d.extractLsb' 6 46 } := by
  rw [writeReg_global s d (by decide) (by decide)]; rfl

theorem writeReg_dbgen (s : State) (d : BitVec 64) : s.writeReg 0x3F0000 d = { s with dbgen := d.getLsbD 0 } :=
  writeReg_debug s (o := 0) d (by decide) (by decide)

theorem writeReg_fcfg (s : State) (n : ChanId) (d : BitVec 64) :
    s.writeReg (chBase n.val + 0x508) d = s.setCh n.val { s.ch n.val with fcfg := d.extractLsb' 0 15 } := by
  rw [writeReg_channel s d n.isLt (by decide) (by decide)]; rfl

theorem writeReg_pchctl (s : State) (n : ChanId) (d : BitVec 64) :
    s.writeReg (chBase n.val + 0x610) d = s.setCh n.val ((s.ch n.val).writePchctl (d.extractLsb' 0 31)) := by
  rw [writeReg_channel s d n.isLt (by decide) (by decide)]; rfl

theorem writeReg_smpctr (s : State) (c : CtxId) (d : BitVec 64) :
    s.writeReg (entryBase c.val + 0x28) d = s.setCtx c.val { s.ctx c.val with smpctr := d } := by
  rw [writeReg_entry s d c.isLt (by decide) (by decide)]; rfl

theorem writeReg_strm (s : State) (c : CtxId) (d : BitVec 64) :
    s.writeReg (entryBase c.val + 0x30) d = s.setCtx c.val { s.ctx c.val with strm := d.extractLsb' 0 32 } := by
  rw [writeReg_entry s d c.isLt (by decide) (by decide)]; rfl

theorem writeReg_tevmask (s : State) (m : TenId) (d : BitVec 64) :
    s.writeReg (tenantBase m.val + 0x48) d = s.setTenant m.val { s.tenant m.val with tevmask := d.extractLsb' 0 5 } := by
  rw [writeReg_tenant s d m.isLt (by decide) (by decide)]; rfl

theorem writeReg_window (s : State) (m : TenId) (w : Fin 4) (d : BitVec 64) :
    s.writeReg (tenantBase m.val + 0x10 * w.val) d = s.setTenant m.val { s.tenant m.val with
      wins := (s.tenant m.val).wins.set w.val { (s.tenant m.val).win w.val with en := d.getLsbD 0, base := d.extractLsb' 12 40 } } := by
  have e : 0x10 * w.val / 0x10 = w.val := by omega
  have e0 : 0x10 * w.val % 0x10 = 0 := by omega
  rw [writeReg_tenant s d m.isLt (by omega) (by omega), State.writeTenant, if_pos (by omega), e, e0]
  rfl

theorem writeReg_sizeexp (s : State) (m : TenId) (w : Fin 4) (d : BitVec 64) :
    s.writeReg (tenantBase m.val + (0x10 * w.val + 8)) d = s.setTenant m.val { s.tenant m.val with
      wins := (s.tenant m.val).wins.set w.val { (s.tenant m.val).win w.val with sizeexp := d.extractLsb' 0 6 } } := by
  have e : (0x10 * w.val + 8) / 0x10 = w.val := by omega
  have e0 : (0x10 * w.val + 8) % 0x10 = 8 := by omega
  rw [writeReg_tenant s d m.isLt (by omega) (by omega), State.writeTenant, if_pos (by omega), e, e0]
  rfl

theorem exec_chwinWrite {s : State} (hs : Commanded s) (n : ChanId) (d : BitVec 64) : exec (.chwinWrite n d) s =
    .next (s.initDone.setCh n.val
      { s.ch n.val with wexpStored := clampWexp (d.extractLsb' 0 5).toNat, wexpAt := (s.ch n.val).cyc + 1 }) := by
  rw [exec, execChwinWrite, ctl_commanded hs]
  rfl

/-- PWRCTL (Table 14-2). -/
theorem writeReg_pwrctl (s : State) (d : BitVec 64) (h : d.extractLsb' 12 8 ≠ 0) :
    s.writeReg 0x1308 d = { s with pstep := d.extractLsb' 0 12, plimit := d.extractLsb' 12 8 } := by
  have e : ¬ fld d 19 12 = 0 := fun e => h (BitVec.eq_of_toNat_eq e)
  rw [writeReg_global s d (by decide) (by decide)]
  simp only [State.writeGlobal, e]
  rfl

theorem writeReg_pwrctl_zero (s : State) (d : BitVec 64) (h : d.extractLsb' 12 8 = 0) :
    s.writeReg 0x1308 d = { s with pstep := d.extractLsb' 0 12, plimit := 0, pw := 0 }.sendPw 0 := by
  have e : fld d 19 12 = 0 := congrArg BitVec.toNat h
  rw [writeReg_global s d (by decide) (by decide)]
  simp only [State.writeGlobal, e, h]
  rfl

end Sys2Proof.Machine

namespace Sys2Proof
open Sys2Proof.Machine Sys2Proof.Safety

/-- Settles O9: what the read returns is the counter, and what is left of the access is its clear. -/
theorem readToClearRegisters : Obligations.ReadToClearRegisters := by
  intro s hs
  refine ⟨fun n => ?_, fun n k => ?_, fun n => ?_, fun n => ?_, fun c => ?_, fun n => ?_, ?_, fun m => ?_, ?_⟩
  · rw [exec, execPacingCounterRead, ctl_commanded hs, State.readOut, pacingOffset, readReg_chpstall]; rfl
  · rw [exec, execPacingCounterRead, ctl_commanded hs, State.readOut, pacingOffset, readReg_chpcause]; rfl
  · rw [exec, execPacingCounterRead, ctl_commanded hs, State.readOut, pacingOffset, readReg_chstarve]; rfl
  · rw [exec, execPacingCounterRead, ctl_commanded hs, State.readOut, pacingOffset, readReg_chcrederr]; rfl
  · rw [exec, execCtxstallRead, ctl_commanded hs, State.readOut, readReg_ctxstall]; rfl
  · rw [exec, execChceRead, ctl_commanded hs, State.readOut, readReg_chce]; rfl
  · rw [exec, execUcceRead, ctl_commanded hs, State.readOut, readReg_ucce]; rfl
  · rw [exec, execTrefcntRead, ctl_commanded hs, State.readOut, readReg_trefcnt]; rfl
  · rw [exec, execFsstatRead, ctl_commanded hs, State.readOut, readReg_fsstat]; rfl

/-- Settles O12, register by register. -/
theorem readWriteRegistersTakeWrites : Obligations.ReadWriteRegistersTakeWrites := by
  refine ⟨fun s d hs => ?_, fun s n d hs => ⟨_, exec_chwinWrite hs n d, clampWexp_eq _⟩⟩
  refine ⟨?_, ?_, fun h => ?_, fun h => ?_, ?_, fun n => ⟨?_, ?_⟩, fun c => ⟨?_, ?_⟩, fun m => ?_, fun m w => ⟨?_, ?_⟩⟩
  · exact exec_registerWrite_of_eq hs (by decide) (writeReg_ifmask ..)
  · exact exec_registerWrite_of_eq hs (by decide) (writeReg_mntaddr ..)
  · exact exec_registerWrite_of_eq hs (by decide) (writeReg_pwrctl _ d h)
  · exact ⟨_, exec_registerWrite_of_eq hs (by decide) (writeReg_pwrctl_zero _ d h), sendPw_others .., sendPw_ch _ _⟩
  · exact exec_registerWrite_of_eq hs (by decide) (writeReg_dbgen ..)
  · exact exec_registerWrite_of_eq hs (by unfold chBase; omega) (writeReg_fcfg ..)
  · exact ⟨_, exec_registerWrite_of_eq hs (by unfold chBase; omega) (writeReg_pchctl ..), fun cc h0 h1 h2 =>
      ⟨writePchctl_pchAt_latest _ h0 h1 h2, writePchctl_pchAt_next _ h2⟩⟩
  · exact exec_registerWrite_of_eq hs (by unfold entryBase; omega) (writeReg_smpctr ..)
  · exact exec_registerWrite_of_eq hs (by unfold entryBase; omega) (writeReg_strm ..)
  · exact exec_registerWrite_of_eq hs (by unfold tenantBase; omega) (writeReg_tevmask ..)
  · exact exec_registerWrite_of_eq hs (by unfold tenantBase; omega) (writeReg_window ..)
  · exact exec_registerWrite_of_eq hs (by unfold tenantBase; omega) (writeReg_sizeexp ..)

end Sys2Proof
end

section
/-! SUPPORT. Bits that a write of one clears (access W1C), and the registers of first offences, faults and losses that such a write
re-arms (R412). -/
namespace Sys2Proof.Machine
open Sys2Proof.Safety

/-! ### Bits -/

/-- What is written 1 clears, what is written 0 stays. -/
theorem getLsbD_clear {w : Nat} (f : BitVec w) (d : BitVec 64) {i : Nat} (hi : i < w) :
    (f &&& ~~~(d.extractLsb' 0 w)).getLsbD i = (f.getLsbD i && !d.getLsbD i) := by
  simp [hi]

/-- The LOFTMARK register k holds bits 64 k to 64 k + 63 of the marks. -/
theorem getLsbD_clear_mark (f : BitVec 256) (d : BitVec 64) (k : Nat) {i : Nat} (hi : i < 256) :
    (f &&& ~~~(d.zeroExtend 256 <<< (64 * k))).getLsbD i = (f.getLsbD i && !(decide (i / 64 = k) && d.getLsbD (i % 64))) := by
  have e : (d.zeroExtend 256 <<< (64 * k)).getLsbD i = (decide (i / 64 = k) && d.getLsbD (i % 64)) := by
    rw [BitVec.getLsbD_shiftLeft, BitVec.getLsbD_setWidth]
    by_cases hk : i / 64 = k
    · have e1 : i - 64 * k = i % 64 := by omega
      have e2 : ¬ i < 64 * k := by omega
      have e3 : i % 64 < 256 := by omega
      simp [hk, hi, e1, e2, e3]
    · by_cases hl : i < 64 * k
      · simp [hk, hl]
      · have : 64 ≤ i - 64 * k := by omega
        simp [hk, BitVec.getLsbD_of_ge _ _ this]
  rw [BitVec.getLsbD_and, BitVec.getLsbD_not, e]
  simp [hi]

theorem bne_zero_iff {w : Nat} (v : BitVec w) : (v != 0) = true ↔ ∃ i < w, v.getLsbD i = true := by
  rw [bne_iff_ne]
  constructor
  · intro h
    by_contra hn
    exact h (BitVec.eq_of_getLsbD_eq fun i hi => by simpa using fun e => hn ⟨i, hi, e⟩)
  · rintro ⟨i, -, hi⟩ rfl
    simp at hi

/-- The fault line follows the bits that are set and not masked (R360). -/
theorem evFlt_iff (s : State) : s.evFlt = true ↔ ∃ i < 21, s.ifstat.getLsbD i = true ∧ s.ifmask.getLsbD i = true := by
  simp only [State.evFlt, bne_zero_iff, BitVec.getLsbD_and, Bool.and_eq_true]

/-- An event line follows the tenant's bits that are set and not masked (R268). -/
theorem evTen_iff (s : State) (m : Nat) :
    s.evTen m = true ↔ ∃ i < 5, (s.tenant m).tevpend.getLsbD i = true ∧ (s.tenant m).tevmask.getLsbD i = true := by
  simp only [State.evTen, bne_zero_iff, BitVec.getLsbD_and, Bool.and_eq_true]

/-! ### Records -/

theorem madeIn_now {r : Option (Nat × BitVec 64)} {a : Nat × BitVec 64} {cc : Nat} (h : r = some a) (e : a.1 = cc) :
    madeIn r cc = a.2 := by
  subst h; exact if_pos e

theorem madeIn_earlier {r : Option (Nat × BitVec 64)} {cc : Nat} (h : ∀ a, r = some a → a.1 ≠ cc) : madeIn r cc = 0 := by
  cases r with
  | none => rfl
  | some a => exact if_neg (h a rfl)

theorem rearm_now {x : Ctx} {a : CapRec} {cc : Nat} (h : x.capNow = some a) (e : a.cc = cc) : x.rearm cc = { x with cap := some a } := by
  simp [Ctx.rearm, h, e]

theorem rearm_earlier {x : Ctx} {cc : Nat} (h : ∀ a, x.capNow = some a → a.cc ≠ cc) : x.rearm cc = { x with cap := none } := by
  unfold Ctx.rearm
  split
  · rename_i a ha; rw [if_neg (h a ha)]
  · rfl

theorem and_one_of_bit {v : BitVec 64} (h : v.getLsbD 0 = true) : v &&& 1 = 1 := by
  have e : (1 : BitVec 64) = BitVec.twoPow 64 0 := rfl
  rw [e, BitVec.and_twoPow, if_pos h]

section
variable {s : State} {c : Nat} {d : BitVec 64}

theorem clearCap_eq (h : d.getLsbD 0 = true) :
    s.clearCap c d = s.setCtx c ((s.ctx c).rearm (s.ch (s.chanOf c)).cyc) := if_pos h

theorem clearIflt_eq (h : d.getLsbD 0 = true) :
    s.clearIflt c d = s.setCtx c { s.ctx c with iflt := madeIn (s.ctx c).ifltNow (s.ch (s.chanOf c)).cyc } := if_pos h

theorem clearLost_eq (h : d.getLsbD 0 = true) : s.clearLost c d = s.setCtx c { s.ctx c with
    lost := if madeIn (s.ctx c).lostNow s.uc = 0 then 0 else madeIn (s.ctx c).lostNow s.uc ||| ((s.ctx c).lost &&& 1) } := if_pos h

theorem clear_without_valid (h : d.getLsbD 0 = false) : s.clearCap c d = s ∧ s.clearIflt c d = s ∧ s.clearLost c d = s :=
  have hn := ne_true_of_eq_false h
  ⟨if_neg hn, if_neg hn, if_neg hn⟩

end

end Sys2Proof.Machine
end

section
/-! SUPPORT. One cc that passes on a channel (log 4): what it leaves unchanged in contexts and in the channel, and what falls due in it. -/
namespace Sys2Proof.Machine
open Sys2Proof.Safety

/-! ### What contexts keep -/

/-- A context keeps everything but BALANCE and the counts of its stalls (R272, R321). -/
def Ctx.Waits (x y : Ctx) : Prop := { y with balance := x.balance, stallPace := x.stallPace, stallBudget := x.stallBudget } = x

theorem Ctx.Waits.trans {x y z : Ctx} (h : x.Waits y) (k : y.Waits z) : x.Waits z :=
  Eq.trans (congrArg (fun v : Ctx => { v with balance := x.balance, stallPace := x.stallPace, stallBudget := x.stallBudget }) k) h

section
variable {x y : Ctx} (h : x.Waits y)
include h

theorem Ctx.Waits.eq : { y with balance := x.balance, stallPace := x.stallPace, stallBudget := x.stallBudget } = x := h
theorem Ctx.Waits.flags : y.flags = x.flags := (congrArg Ctx.flags h.eq :)
theorem Ctx.Waits.cap : y.cap = x.cap := (congrArg Ctx.cap h.eq :)
theorem Ctx.Waits.capNow : y.capNow = x.capNow := (congrArg Ctx.capNow h.eq :)
theorem Ctx.Waits.chan : y.chan = x.chan := (congrArg Ctx.chan h.eq :)

end

theorem Ctx.Waits.refl (x : Ctx) : x.Waits x := rfl

/-- So does every context. -/
def OnlyWaits (s t : State) : Prop := ∀ d, (s.ctx d).Waits (t.ctx d)

theorem OnlyWaits.refl (s : State) : OnlyWaits s s := fun _ => Ctx.Waits.refl _

theorem OnlyWaits.trans {s t u : State} (h : OnlyWaits s t) (k : OnlyWaits t u) : OnlyWaits s u := fun d => (h d).trans (k d)

/-- The last of two operations first, so that it says what the first one is. -/
theorem OnlyWaits.after {s t u : State} (k : OnlyWaits t u) (h : OnlyWaits s t) : OnlyWaits s u := h.trans k

theorem OnlyWaits.modCtx (s : State) (c : Nat) {f : Ctx → Ctx} (hf : ∀ x : Ctx, x.Waits (f x)) : OnlyWaits s (s.modCtx c f) := by
  intro d
  by_cases e : d = c
  · subst e
    rw [State.modCtx, State.setCtx_ctx_same]
    exact hf _
  · rw [State.modCtx, State.setCtx_ctx_other _ _ _ _ e]
    exact Ctx.Waits.refl _

theorem OnlyWaits.foldl {α : Type} {f : State → α → State} (hf : ∀ s a, OnlyWaits s (f s a)) (l : List α) (s : State) :
    OnlyWaits s (l.foldl f s) :=
  foldl_keeps (P := OnlyWaits s) (fun t a h => h.trans (hf t a)) l s (OnlyWaits.refl s)

theorem onlyWaits_setCh (s : State) (n : Nat) (h : Channel) : OnlyWaits s (s.setCh n h) := fun d => by
  rw [State.setCh_ctx]
  exact Ctx.Waits.refl _

theorem onlyWaits_modCh (s : State) (n : Nat) (f : Channel → Channel) : OnlyWaits s (s.modCh n f) := onlyWaits_setCh _ _ _

theorem onlyWaits_stalls (s : State) (n : Nat) (p q : Bool) (ks : List (Nat × Cause)) (j : Nat) : OnlyWaits s (s.stalls n p q ks j) :=
  (onlyWaits_modCh _ _ _).after (OnlyWaits.foldl (fun _ _ => OnlyWaits.modCtx _ _ (by exact fun _ => rfl)) _ _)

theorem onlyWaits_charge (s : State) (n : Nat) : OnlyWaits s (s.charge n) :=
  (OnlyWaits.foldl (fun _ _ => OnlyWaits.modCtx _ _ (by exact fun _ => rfl)) _ _).after (onlyWaits_setCh _ _ _)

theorem onlyWaits_endCc (s : State) (n j : Nat) : OnlyWaits s (s.endCc n j) := by
  unfold State.endCc
  dsimp only
  refine (onlyWaits_modCh _ _ _).after ((onlyWaits_charge _ n).after ((onlyWaits_modCh _ _ _).after ?_))
  split
  · exact onlyWaits_stalls _ _ _ _ _ _
  · exact OnlyWaits.refl s

/-! ### What the channel keeps -/

theorem foldl_modCtx_ch {α : Type} (k : α → Nat) (f : α → Ctx → Ctx) (l : List α) (s : State) (n : Nat) :
    (l.foldl (fun s a => s.modCtx (k a) (f a)) s).ch n = s.ch n :=
  foldl_keeps (P := fun t : State => t.ch n = s.ch n) (f := fun s a => s.modCtx (k a) (f a)) (fun _ _ h => h) l s rfl

theorem stalls_ch (s : State) (n : Nat) (p q : Bool) (ks : List (Nat × Cause)) (j : Nat) :
    (s.stalls n p q ks j).ch n = { s.ch n with
      dPstall := if p || ks.isEmpty then (s.ch n).dPstall else (s.ch n).dPstall + j
      dPcause := (List.range 11).map fun i => (s.ch n).dPcause.getD i 0 + (if ks.any fun e => e.2.code == i + 1 then j else 0)
      dStarve := if q then (s.ch n).dStarve + j else (s.ch n).dStarve } := by
  simp only [State.stalls, State.modCh, State.setCh_ch_same, foldl_modCtx_ch]

theorem charge_ch (s : State) (n : Nat) :
    (s.charge n).ch n = { s.ch n with laneRes := (s.ch n).laneRes.filter fun r => (s.ch n).cyc ≤ r.cc } := by
  simp only [State.charge, foldl_modCtx_ch, State.setCh_ch_same]

/-- CHFLAG, what falls due and the count of a channel when j like cc end. -/
theorem endCc_ch (s : State) (n j : Nat) :
    ((s.endCc n j).ch n).due = (s.ch n).due ∧ ((s.endCc n j).ch n).flag = (s.ch n).flag
      ∧ ((s.endCc n j).ch n).cyc = sat64 ((s.ch n).cyc + j) := by
  simp only [State.endCc, State.modCh, State.setCh_ch_same, charge_ch, Channel.pruneTree]
  split
  · simp only [stalls_ch, and_self]
  · exact ⟨rfl, rfl, rfl⟩

/-! ### What falls due -/

/-- Effects are in their order: where the first does not fall due yet, none does. -/
theorem settleTo_of_later {s : State} {n cc rank : Nat} (h : ∀ e ∈ (s.ch n).due, e.before cc rank = false) (fuel : Nat) :
    s.settleTo n cc rank fuel = s := by
  cases fuel with
  | zero => rfl
  | succ k =>
    unfold State.settleTo
    split
    · rfl
    · rename_i e rest he
      rw [if_neg (by rw [h e (he ▸ List.mem_cons_self)]; decide)]

/-- The first effect takes place. -/
theorem settleTo_cons {s : State} {n cc rank fuel : Nat} {e : Later} {rest : List Later} (hd : (s.ch n).due = e :: rest)
    (hb : e.before cc rank = true) :
    s.settleTo n cc rank (fuel + 1) = ((s.modCh n fun h => { h with due := rest }).later n e).settleTo n cc rank fuel := by
  conv_lhs => unfold State.settleTo
  simp only [hd, hb, if_true]

theorem before_rank_zero (e : Later) (cc : Nat) : e.before cc 0 = decide (e.cc < cc) := by
  simp [Later.before]

theorem le_nextCc (s : State) (n cc : Nat) : (s.ch n).cyc + 1 ≤ s.nextCc n cc := by
  unfold State.nextCc
  dsimp only
  split
  · exact Nat.le_refl _
  · exact Nat.le_max_left ..

/-- Time passes to the next cc: the present one ends, and what falls due in the next one takes place. -/
theorem pass_next {s : State} {n : Nat} (ht : (s.ch n).ticking = true) (hc : (s.ch n).cyc + 1 < 2 ^ 64)
    (hd : ∀ e ∈ (s.ch n).due, (s.ch n).cyc < e.cc) :
    s.pass n ((s.ch n).cyc + 1) = (s.endCc n 1).settleTo n ((s.ch n).cyc + 2) 0 settleFuel := by
  obtain ⟨edue, -, ecyc⟩ := endCc_ch s n 1
  have hsat : sat64 ((s.ch n).cyc + 1) = (s.ch n).cyc + 1 := by unfold sat64; omega
  have hmin : min ((s.ch n).cyc + 1) (s.nextCc n ((s.ch n).cyc + 1)) = (s.ch n).cyc + 1 := Nat.min_eq_left (le_nextCc ..)
  have hfuel : (s.ch n).cyc + 1 - (s.ch n).cyc = 1 := by omega
  have hstay : (s.endCc n 1).settleTo n ((s.ch n).cyc + 1) 0 settleFuel = s.endCc n 1 :=
    settleTo_of_later (fun e he => by rw [before_rank_zero]; have := hd e (edue ▸ he); simp; omega) _
  have hone : s.passFor n ((s.ch n).cyc + 1) 0 1 = s.endCc n 1 := by
    simp only [State.passFor, hmin, hfuel, if_neg (Nat.not_succ_le_self _), if_true, hstay]
  rw [State.pass, if_pos ht, hfuel, hone, State.settleDue, ecyc, hsat]

end Sys2Proof.Machine
end

section
/-! SUPPORT. First-offence capture (R76, R77): the order of offences, what a capture keeps, and what raised flags do to a context and its
channel (R72, R75). -/
namespace Sys2Proof.Machine
open Sys2Proof.Safety

/-! ### The order of offences -/

/-- An offence no later than another: the cc, in it an ingress NaN before an invalid, then row and column (R77). -/
def CapRec.NoLater (a b : CapRec) : Prop :=
  a.cc < b.cc ∨ a.cc = b.cc ∧ (a.kind = true ∧ b.kind = false ∨ a.kind = b.kind
    ∧ (a.row < b.row ∨ a.row = b.row ∧ a.col ≤ b.col))

theorem CapRec.before_iff (a b : CapRec) : a.before b = true ↔
    a.cc < b.cc ∨ a.cc = b.cc ∧ (a.kind = true ∧ b.kind = false ∨ a.kind = b.kind ∧ (a.row < b.row ∨ a.row = b.row ∧ a.col < b.col)) := by
  simp [CapRec.before]

theorem CapRec.noLater_of_before {a b : CapRec} (h : a.before b = true) : a.NoLater b := by
  rw [CapRec.before_iff] at h
  unfold CapRec.NoLater
  grind

theorem CapRec.noLater_of_not_before {a b : CapRec} (h : b.before a = false) : a.NoLater b := by
  have h := mt (CapRec.before_iff b a).mpr (ne_true_of_eq_false h)
  unfold CapRec.NoLater
  cases ha : a.kind <;> cases hb : b.kind <;> simp [ha, hb] at h ⊢ <;> omega

theorem CapRec.NoLater.trans {a b c : CapRec} (h : a.NoLater b) (k : b.NoLater c) : a.NoLater c := by
  unfold CapRec.NoLater at *
  grind

theorem CapRec.NoLater.refl (a : CapRec) : a.NoLater a := by
  simp [CapRec.NoLater]

/-! ### The first of some offences -/

theorem CapRec.first_right (o : Option CapRec) (r : CapRec) : (CapRec.first o r).NoLater r := by
  unfold CapRec.first
  split
  · exact CapRec.NoLater.refl r
  · split
    · exact CapRec.NoLater.refl r
    · rename_i h; exact CapRec.noLater_of_not_before (eq_false_of_ne_true h)

theorem CapRec.first_left (a r : CapRec) : (CapRec.first (some a) r).NoLater a := by
  simp only [CapRec.first]
  split
  · rename_i h; exact CapRec.noLater_of_before h
  · exact CapRec.NoLater.refl a

theorem CapRec.first_mem (o : Option CapRec) (r : CapRec) : o = some (CapRec.first o r) ∨ CapRec.first o r = r := by
  unfold CapRec.first
  split
  · exact .inr rfl
  · split
    · exact .inr rfl
    · exact .inl rfl

/-- A record of an earlier cc stays. -/
theorem CapRec.first_of_cc_lt {a r : CapRec} (h : a.cc < r.cc) : CapRec.first (some a) r = a := by
  have hb : ¬ r.before a = true := by rw [CapRec.before_iff]; omega
  exact if_neg hb

/-- The first of some offences and of one recorded before them. -/
def firstOf (b : Option CapRec) (rs : List CapRec) : Option CapRec := rs.foldl (fun b r => some (CapRec.first b r)) b

theorem firstOf_mem (rs : List CapRec) : ∀ b a, firstOf b rs = some a → b = some a ∨ a ∈ rs := by
  induction rs with
  | nil => exact fun b a h => .inl h
  | cons r rs ih =>
    intro b a h
    rcases ih _ a h with e | e
    · rcases CapRec.first_mem b r with k | k
      · exact .inl (k.trans e)
      · exact .inr (by rw [← Option.some.inj e, k]; exact List.mem_cons_self)
    · exact .inr (List.mem_cons_of_mem _ e)

theorem mem_of_firstOf_none {rs : List CapRec} {a : CapRec} (h : firstOf none rs = some a) : a ∈ rs :=
  (firstOf_mem rs none a h).resolve_left nofun

/-- It is no later than the one recorded before. -/
theorem firstOf_noLater_base (rs : List CapRec) : ∀ b, ∃ a, firstOf (some b) rs = some a ∧ a.NoLater b := by
  induction rs with
  | nil => exact fun b => ⟨b, rfl, CapRec.NoLater.refl b⟩
  | cons r rs ih =>
    intro b
    obtain ⟨a, e, h⟩ := ih (CapRec.first (some b) r)
    exact ⟨a, e, h.trans (CapRec.first_left b r)⟩

/-- It is no later than any of them. -/
theorem firstOf_noLater (rs : List CapRec) : ∀ b, ∀ r ∈ rs, ∃ a, firstOf b rs = some a ∧ a.NoLater r := by
  induction rs with
  | nil => exact fun b r h => absurd h List.not_mem_nil
  | cons q rs ih =>
    intro b r h
    rcases List.mem_cons.mp h with rfl | h
    · obtain ⟨a, e, k⟩ := firstOf_noLater_base rs (CapRec.first b r)
      exact ⟨a, e, k.trans (CapRec.first_right b r)⟩
    · exact ih _ r h

/-! ### The record of an offence -/

/-- An offence that CTXCAP records: an invalid or an ingress NaN (R76). -/
def Off.Captured (o : Off) : Prop := o.fl.getLsbD 4 = true ∨ o.fl.getLsbD 0 = true

/-- The record of such an offence under a PSEQ. -/
def Off.capRec (o : Off) (pseq : Nat) : CapRec := ⟨o.fl.getLsbD 4, pseq, o.row, o.col, o.cc⟩

theorem and_ingressNan (f : Flags) : (f &&& flIngressNan != 0) = f.getLsbD 4 := by
  have e : flIngressNan = BitVec.twoPow 8 4 := rfl
  rw [e, BitVec.and_twoPow]
  cases f.getLsbD 4 <;> rfl

theorem and_invalid (f : Flags) : (f &&& flInvalid != 0) = f.getLsbD 0 := by
  have e : flInvalid = BitVec.twoPow 8 0 := rfl
  rw [e, BitVec.and_twoPow]
  cases f.getLsbD 0 <;> rfl

theorem Off.record_eq_some (o : Off) (pseq : Nat) (r : CapRec) : o.record pseq = some r ↔ o.Captured ∧ r = o.capRec pseq := by
  unfold Off.record Off.Captured Off.capRec
  simp only [and_ingressNan, and_invalid]
  cases o.fl.getLsbD 4 <;> cases o.fl.getLsbD 0 <;> simp [eq_comm]

/-- The records of some offences. -/
def recordsOf (pseq : Nat) (os : List Off) : List CapRec := os.filterMap fun o => o.record pseq

theorem mem_recordsOf {pseq : Nat} {os : List Off} {r : CapRec} :
    r ∈ recordsOf pseq os ↔ ∃ o ∈ os, o.Captured ∧ r = o.capRec pseq := by
  simp only [recordsOf, List.mem_filterMap, Off.record_eq_some]

/-! ### What raised flags do -/

theorem getLsbD_foldl_or (os : List Off) (i : Nat) :
    ∀ f : Flags, (os.foldl (fun f o => f ||| o.fl) f).getLsbD i = (f.getLsbD i || os.any fun o => o.fl.getLsbD i) := by
  induction os with
  | nil => simp
  | cons o os ih => intro f; simp [ih, Bool.or_assoc]

/-- The flags of some offences together. -/
def flagsOf (os : List Off) : Flags := os.foldl (fun f o => f ||| o.fl) flNone

theorem getLsbD_raise_flagsOf (f : Flags) (os : List Off) (i : Nat) :
    (Flags.raise f (flagsOf os)).getLsbD i = (f.getLsbD i || os.any fun o => o.fl.getLsbD i) := by
  rw [Flags.raise, BitVec.getLsbD_or, flagsOf, getLsbD_foldl_or]
  simp [flNone]

theorem raise_ctx_same (s : State) (c : Nat) (f : Flags) :
    (s.raise c f).ctx c = { s.ctx c with flags := Flags.raise (s.ctx c).flags f } := State.setCtx_ctx_same ..

theorem raise_ctx_other (s : State) {c d : Nat} (f : Flags) (h : d ≠ c) : (s.raise c f).ctx d = s.ctx d :=
  State.setCtx_ctx_other _ _ _ _ h

theorem raise_ch_same (s : State) (c : Nat) (f : Flags) : (s.raise c f).ch (s.ctx c).chan =
    { s.ch (s.ctx c).chan with flag := Flags.raise (s.ch (s.ctx c).chan).flag f } := State.setCh_ch_same ..

theorem raise_due (s : State) (c : Nat) (f : Flags) (n : Nat) : ((s.raise c f).ch n).due = (s.ch n).due := by
  by_cases h : n = (s.ctx c).chan
  · rw [h, raise_ch_same]
  · exact congrArg Channel.due (State.setCh_ch_other _ _ _ _ h)

/-- A context with a capture, if there is one to make. -/
def Ctx.captureAll (x : Ctx) (r : Option CapRec) : Ctx := match r with | some r => x.capture r | none => x

section
variable (s : State) (c p : Nat) (os : List Off)

theorem offend_of_none (h : firstOf none (recordsOf p os) = none) : s.offend c p os = s.raise c (flagsOf os) := by
  unfold firstOf recordsOf at h
  simp only [State.offend, h, flagsOf]

theorem offend_of_some {r : CapRec} (h : firstOf none (recordsOf p os) = some r) :
    s.offend c p os = (s.raise c (flagsOf os)).modCtx c fun x => x.capture r := by
  unfold firstOf recordsOf at h
  simp only [State.offend, h, flagsOf]

theorem offend_ctx_same : (s.offend c p os).ctx c =
    { s.ctx c with flags := Flags.raise (s.ctx c).flags (flagsOf os) }.captureAll (firstOf none (recordsOf p os)) := by
  cases h : firstOf none (recordsOf p os) with
  | none => rw [offend_of_none s c p os h, raise_ctx_same]; rfl
  | some r => rw [offend_of_some s c p os h, State.modCtx, State.setCtx_ctx_same, raise_ctx_same]; rfl

theorem offend_ctx_other {d : Nat} (hd : d ≠ c) : (s.offend c p os).ctx d = s.ctx d := by
  cases h : firstOf none (recordsOf p os) with
  | none => rw [offend_of_none s c p os h, raise_ctx_other s _ hd]
  | some r => rw [offend_of_some s c p os h, State.modCtx, State.setCtx_ctx_other _ _ _ _ hd, raise_ctx_other s _ hd]

theorem offend_ch (n : Nat) : (s.offend c p os).ch n = (s.raise c (flagsOf os)).ch n := by
  cases h : firstOf none (recordsOf p os) with
  | none => rw [offend_of_none s c p os h]
  | some r => rw [offend_of_some s c p os h, State.modCtx, State.setCtx_ch]

end

/-! ### What a capture keeps -/

section
variable {x : Ctx} {rs : List CapRec}

theorem captureAll_flags (r : Option CapRec) : (x.captureAll r).flags = x.flags := by
  cases r <;> rfl

theorem captureAll_cap_noLater {r : CapRec} (hr : r ∈ rs) : ∃ a, (x.captureAll (firstOf none rs)).cap = some a ∧ a.NoLater r := by
  obtain ⟨b, e, h⟩ := firstOf_noLater rs none r hr
  rw [e]
  exact ⟨_, rfl, (CapRec.first_right x.cap b).trans h⟩

theorem captureAll_cap_of_earlier {b : CapRec} (hb : x.cap = some b) (h : ∀ r ∈ rs, b.cc < r.cc) :
    (x.captureAll (firstOf none rs)).cap = some b := by
  cases e : firstOf none rs with
  | none => exact hb
  | some r =>
    have hr : r ∈ rs := mem_of_firstOf_none e
    exact congrArg some (by rw [hb, CapRec.first_of_cc_lt (h r hr)])

theorem captureAll_cap_mem {a : CapRec} (h : (x.captureAll (firstOf none rs)).cap = some a) : x.cap = some a ∨ a ∈ rs := by
  cases e : firstOf none rs with
  | none => rw [e] at h; exact .inl h
  | some r =>
    have hr : r ∈ rs := mem_of_firstOf_none e
    rw [e] at h
    obtain rfl : CapRec.first x.cap r = a := Option.some.inj h
    exact (CapRec.first_mem x.cap r).imp_right fun k => by rw [k]; exact hr

/-- The first offence of the latest cc, with one more: the latest cc's stays apart from those of earlier ones. -/
theorem capture_capNow (x : Ctx) (r : CapRec) : ∃ a, (x.capture r).capNow = some a ∧ (x.capNow = some a ∨ a = r)
    ∧ ((∀ o, x.capNow = some o → o.cc ≤ r.cc) → a.cc = r.cc ∧ a.NoLater r) := by
  cases h : x.capNow with
  | none => exact ⟨r, by simp only [Ctx.capture, h], .inr rfl, fun _ => ⟨rfl, CapRec.NoLater.refl r⟩⟩
  | some o =>
    by_cases hlt : o.cc < r.cc
    · exact ⟨r, by simp only [Ctx.capture, h, if_pos hlt], .inr rfl, fun _ => ⟨rfl, CapRec.NoLater.refl r⟩⟩
    · refine ⟨CapRec.first (some o) r, by simp only [Ctx.capture, h, if_neg hlt], CapRec.first_mem (some o) r,
        fun hx => ⟨?_, CapRec.first_right ..⟩⟩
      have ho : o.cc = r.cc := Nat.le_antisymm (hx o rfl) (Nat.le_of_not_lt hlt)
      rcases CapRec.first_mem (some o) r with e | e
      · rw [← Option.some.inj e, ho]
      · rw [e]

theorem captureAll_capNow_mem {a : CapRec} (h : (x.captureAll (firstOf none rs)).capNow = some a) : x.capNow = some a ∨ a ∈ rs := by
  cases e : firstOf none rs with
  | none => rw [e] at h; exact .inl h
  | some r =>
    have hr : r ∈ rs := mem_of_firstOf_none e
    obtain ⟨b, hb, hm, -⟩ := capture_capNow x r
    rw [e] at h
    obtain rfl : b = a := Option.some.inj (hb.symm.trans h)
    exact hm.imp_right fun k => by rw [k]; exact hr

theorem captureAll_capNow_noLater {r : CapRec} (hr : r ∈ rs) (hcc : ∀ q ∈ rs, q.cc = r.cc)
    (hx : ∀ o, x.capNow = some o → o.cc ≤ r.cc) :
    ∃ a, (x.captureAll (firstOf none rs)).capNow = some a ∧ a.cc = r.cc ∧ a.NoLater r := by
  obtain ⟨b, e, h⟩ := firstOf_noLater rs none r hr
  have hb : b.cc = r.cc := hcc b (mem_of_firstOf_none e)
  obtain ⟨a, ha, -, k⟩ := capture_capNow x b
  obtain ⟨hac, hab⟩ := k (hb ▸ hx)
  rw [e]
  exact ⟨a, ha, hac.trans hb, hab.trans h⟩

end

end Sys2Proof.Machine
end

section
/-! SUPPORT. The commands that clear record registers, and the cc in which raised flags fall due: what R14, R75 to R77 and R412 state of
them. -/
namespace Sys2Proof.Machine
open Sys2Proof.Safety

section
variable {s : State} (hs : Commanded s) (c : CtxId) (d : BitVec 64)
include hs

theorem exec_ctxcapClear (h : d.getLsbD 0 = true) :
    exec (.ctxcapClear c d) s = .next (s.initDone.setCtx c.val ((s.ctx c.val).rearm (s.ch (s.chanOf c.val)).cyc)) := by
  rw [exec, execCtxcapClear, ctl_commanded hs, clearCap_eq h]; rfl

theorem exec_ctxifltClear (h : d.getLsbD 0 = true) : exec (.ctxifltClear c d) s = .next (s.initDone.setCtx c.val
    { s.ctx c.val with iflt := madeIn (s.ctx c.val).ifltNow (s.ch (s.chanOf c.val)).cyc }) := by
  rw [exec, execCtxifltClear, ctl_commanded hs, clearIflt_eq h]; rfl

theorem exec_ctxlostClear (h : d.getLsbD 0 = true) : exec (.ctxlostClear c d) s = .next (s.initDone.setCtx c.val
    { s.ctx c.val with lost := if madeIn (s.ctx c.val).lostNow s.uc = 0 then 0
                               else madeIn (s.ctx c.val).lostNow s.uc ||| ((s.ctx c.val).lost &&& 1) }) := by
  rw [exec, execCtxlostClear, ctl_commanded hs, clearLost_eq h]; rfl

theorem exec_recordClears_without_valid (h : d.getLsbD 0 = false) :
    exec (.ctxcapClear c d) s = .next s.initDone ∧ exec (.ctxifltClear c d) s = .next s.initDone
      ∧ exec (.ctxlostClear c d) s = .next s.initDone := by
  obtain ⟨hcap, hiflt, hlost⟩ := clear_without_valid (s := s.initDone) (c := c.val) h
  refine ⟨?_, ?_, ?_⟩
  · rw [exec, execCtxcapClear, ctl_commanded hs, hcap]
  · rw [exec, execCtxifltClear, ctl_commanded hs, hiflt]
  · rw [exec, execCtxlostClear, ctl_commanded hs, hlost]

end

section
variable {s : State} {n c pseq : Nat} {run : Option Nat} {os : List Off} {rest : List Later}
  (ht : (s.ch n).ticking = true) (hc : (s.ch n).cyc + 1 < 2 ^ 64)
  (hd : (s.ch n).due = ⟨(s.ch n).cyc + 1, c, run, .offs pseq os⟩ :: rest) (hrest : ∀ e ∈ rest, (s.ch n).cyc + 1 < e.cc)
include ht hc hd hrest

/-- The next cc of a channel in which the flags of some offences fall due, and nothing else. -/
theorem pass_next_offs :
    s.pass n ((s.ch n).cyc + 1) = ((s.endCc n 1).modCh n fun h => { h with due := rest }).offend c pseq os := by
  have hlate : ∀ e ∈ (s.ch n).due, (s.ch n).cyc < e.cc := by
    intro e he
    rcases List.mem_cons.mp (hd ▸ he) with rfl | he
    · exact Nat.lt_succ_self _
    · exact Nat.lt_of_succ_lt (hrest e he)
  have hend : ((s.endCc n 1).ch n).due = ⟨(s.ch n).cyc + 1, c, run, .offs pseq os⟩ :: rest := (endCc_ch s n 1).1.trans hd
  rw [pass_next ht hc hlate, show settleFuel = 65535 + 1 from rfl, settleTo_cons hend (by simp [before_rank_zero])]
  refine settleTo_of_later (fun e he => ?_) _
  have hmem : e ∈ rest := by
    rw [State.later, offend_ch, raise_due, State.modCh, State.setCh_ch_same] at he
    exact he
  have := hrest e hmem
  rw [before_rank_zero]
  simp; omega

/-- The flags are raised and the offences captured in their context, as it stood before the cc. -/
theorem pass_next_offs_ctx : ∃ y : Ctx,
    (s.pass n ((s.ch n).cyc + 1)).ctx c = y.captureAll (firstOf none (recordsOf pseq os))
      ∧ y.flags = Flags.raise (s.ctx c).flags (flagsOf os) ∧ y.cap = (s.ctx c).cap ∧ y.capNow = (s.ctx c).capNow := by
  have hw : (s.ctx c).Waits ((s.endCc n 1).ctx c) := onlyWaits_endCc s n 1 c
  rw [pass_next_offs ht hc hd hrest]
  generalize s.endCc n 1 = u at hw ⊢
  rw [offend_ctx_same, State.modCh, State.setCh_ctx]
  exact ⟨_, rfl, congrArg (Flags.raise · _) hw.flags, hw.cap, hw.capNow⟩

theorem pass_next_offs_ctx_other {d : Nat} (h : d ≠ c) :
    ((s.pass n ((s.ch n).cyc + 1)).ctx d).flags = (s.ctx d).flags ∧ ((s.pass n ((s.ch n).cyc + 1)).ctx d).cap = (s.ctx d).cap := by
  have hw : (s.ctx d).Waits ((s.endCc n 1).ctx d) := onlyWaits_endCc s n 1 d
  rw [pass_next_offs ht hc hd hrest, offend_ctx_other _ _ _ _ h, State.modCh, State.setCh_ctx]
  exact ⟨hw.flags, hw.cap⟩

theorem pass_next_offs_flag (hn : (s.ctx c).chan = n) :
    ((s.pass n ((s.ch n).cyc + 1)).ch n).flag = Flags.raise (s.ch n).flag (flagsOf os) := by
  have hw : (s.ctx c).Waits ((s.endCc n 1).ctx c) := onlyWaits_endCc s n 1 c
  have hu : (((s.endCc n 1).modCh n fun h => { h with due := rest }).ctx c).chan = n := by
    rw [State.modCh, State.setCh_ctx, hw.chan, hn]
  have hr := raise_ch_same ((s.endCc n 1).modCh n fun h => { h with due := rest }) c (flagsOf os)
  rw [hu] at hr
  rw [pass_next_offs ht hc hd hrest, offend_ch, hr, State.modCh, State.setCh_ch_same, (endCc_ch s n 1).2.1]

end

/-- What an offence's place in the order says of its fields. -/
theorem capRec_noLater_of_cc_eq {a : CapRec} {o : Off} {p : Nat} (h : a.NoLater (o.capRec p)) (hc : a.cc = o.cc) :
    a.kind = true ∧ o.fl.getLsbD 4 = false ∨ a.kind = o.fl.getLsbD 4 ∧ (a.row < o.row ∨ a.row = o.row ∧ a.col ≤ o.col) :=
  (h.resolve_left (by simp [Off.capRec, hc])).2

end Sys2Proof.Machine

namespace Sys2Proof
open Sys2Proof.Machine Sys2Proof.Safety

/-- Settles O8: W1C bits, the re-armed registers, and the flags that one cc raises. -/
theorem writesOfOneClear : Obligations.WritesOfOneClear := by
  refine ⟨fun s d hs => ⟨fun c => ?_, fun n => ?_, ?_, fun m => ?_, fun c k => ?_⟩,
    fun s c d hs => ⟨fun h => ⟨fun ha => ?_, fun a ha hc => ?_, fun ha => ?_, fun a ha hc => ?_, fun ha => ?_, fun a ha hu hz hv => ?_⟩,
      exec_recordClears_without_valid hs c d⟩,
    fun s n c run pseq os rest ht hc hd hrest hn => ?_⟩
  · exact ⟨_, by rw [exec, execCtxflagClear, ctl_commanded hs]; rfl, fun i hi => getLsbD_clear _ d hi⟩
  · exact ⟨_, by rw [exec, execChflagClear, ctl_commanded hs]; rfl, fun i hi => getLsbD_clear _ d hi⟩
  · exact ⟨_, by rw [exec, execIfstatClear, ctl_commanded hs]; rfl, fun i hi => getLsbD_clear _ d hi, evFlt_iff _⟩
  · refine ⟨_, by rw [exec, execTevpendClear, ctl_commanded hs]; rfl, fun i hi => getLsbD_clear _ d hi, ?_⟩
    rw [evTen_iff, State.setTenant_tenant_same]
  · exact ⟨_, by rw [exec, execLoftmarkClear, ctl_commanded hs]; rfl, fun i hi => getLsbD_clear_mark _ d k.val hi⟩
  · rw [exec_ctxcapClear hs c d h, rearm_earlier ha]
  · rw [exec_ctxcapClear hs c d h, rearm_now ha hc]
  · rw [exec_ctxifltClear hs c d h, madeIn_earlier ha]
  · rw [exec_ctxifltClear hs c d h, madeIn_now ha hc]
  · rw [exec_ctxlostClear hs c d h, madeIn_earlier ha, if_pos rfl]
  · rw [exec_ctxlostClear hs c d h, madeIn_now ha hu, if_neg hz, and_one_of_bit hv]
  · intro x t
    obtain ⟨y, hy, hflags, hcap, hnow⟩ := pass_next_offs_ctx ht hc hd hrest
    have hrec : ∀ o ∈ os, o.Captured → o.capRec pseq ∈ recordsOf pseq os := fun o ho h => mem_recordsOf.mpr ⟨o, ho, h, rfl⟩
    refine ⟨fun i _ => ?_, fun i _ => ?_, fun o ho h => ?_, fun b hb hlt => ?_, fun a ha => ?_, fun hx o ho h hsame => ?_,
      fun a ha => ?_, fun d hdc => pass_next_offs_ctx_other ht hc hd hrest hdc⟩
    · rw [hy, captureAll_flags, hflags, getLsbD_raise_flagsOf]
    · rw [pass_next_offs_flag ht hc hd hrest hn, getLsbD_raise_flagsOf]
    · rw [hy]
      exact captureAll_cap_noLater (hrec o ho h)
    · rw [hy]
      refine captureAll_cap_of_earlier (hcap.trans hb) fun r hr => ?_
      obtain ⟨o, ho, -, rfl⟩ := mem_recordsOf.mp hr
      exact hlt o ho
    · rw [hy] at ha
      refine (captureAll_capNow_mem ha).imp (hnow ▸ ·) fun hr => ?_
      obtain ⟨o, ho, -, e⟩ := mem_recordsOf.mp hr
      exact ⟨o, ho, e⟩
    · rw [hy]
      obtain ⟨a, ha, hac, hle⟩ := captureAll_capNow_noLater (x := y) (hrec o ho h)
        (fun q hq => by obtain ⟨o', ho', -, rfl⟩ := mem_recordsOf.mp hq; exact hsame o' ho')
        (fun b hb => hx b (hnow ▸ hb) o ho)
      exact ⟨a, ha, hac, capRec_noLater_of_cc_eq hle hac⟩
    · rw [hy] at ha
      refine (captureAll_cap_mem ha).imp (hcap ▸ ·) fun hr => ?_
      obtain ⟨o, ho, hcapd, e⟩ := mem_recordsOf.mp hr
      exact ⟨o, ho, e, hcapd⟩

end Sys2Proof
end

section
/-! SUPPORT. RESTORE by its three ends (R261, R274, R283, R362), and what queueing home writes of Loft lines does (R219, R222). -/
namespace Sys2Proof.Machine
open Sys2Proof.Safety

/-! ### Home writes that are queued -/

/-- The access of the home write of a line. -/
def Ctx.homeWrite (x : Ctx) (c : Nat) (l : LoftLine) : FeltAcc :=
  ⟨if l.stash then .stash x.chan l.tag else .home x.chan, c, l.line, x.ten, x.stashwin, x.home l.line, 64, true, 0, 0⟩

/-- Accesses wait in slice n behind those that waited, channel n's lines may wait for their home writes, and nothing else differs. -/
structure HomesQueued (n : Nat) (as : List FeltAcc) (s t : State) : Prop where
  wait : (t.slice n).wait = (s.slice n).wait ++ as
  slice : { t.slice n with wait := (s.slice n).wait } = s.slice n
  slices : ∀ k, k ≠ n → t.slice k = s.slice k
  lines : (t.ch n).loft.map (fun l => { l with writing := false }) = (s.ch n).loft.map fun l => { l with writing := false }
  chan : { t.ch n with loft := (s.ch n).loft } = s.ch n
  chans : ∀ k, k ≠ n → t.ch k = s.ch k
  others : { t with slices := s.slices, chans := s.chans } = s

theorem HomesQueued.refl (n : Nat) (s : State) : HomesQueued n [] s s :=
  ⟨(List.append_nil _).symm, rfl, fun _ _ => rfl, rfl, rfl, fun _ _ => rfl, rfl⟩

theorem HomesQueued.trans {n : Nat} {as bs : List FeltAcc} {s t u : State} (h : HomesQueued n as s t) (k : HomesQueued n bs t u) :
    HomesQueued n (as ++ bs) s u where
  wait := by rw [k.wait, h.wait, List.append_assoc]
  slice := (congrArg (fun q : Slice => { q with wait := (s.slice n).wait }) k.slice).trans h.slice
  slices m hm := (k.slices m hm).trans (h.slices m hm)
  lines := k.lines.trans h.lines
  chan := (congrArg (fun q : Channel => { q with loft := (s.ch n).loft }) k.chan).trans h.chan
  chans m hm := (k.chans m hm).trans (h.chans m hm)
  others := (congrArg (fun q : State => { q with slices := s.slices, chans := s.chans }) k.others).trans h.others

theorem HomesQueued.ctxs {n : Nat} {as : List FeltAcc} {s t : State} (h : HomesQueued n as s t) : t.ctxs = s.ctxs :=
  (congrArg State.ctxs h.others :)

theorem HomesQueued.ctx {n : Nat} {as : List FeltAcc} {s t : State} (h : HomesQueued n as s t) (c : Nat) : t.ctx c = s.ctx c := by
  rw [State.ctx, h.ctxs, State.ctx]

/-- Context c and channel n changed, and home writes then queued there. -/
theorem HomesQueued.onlyCtxCh {n c : Nat} {as : List FeltAcc} {s p t : State} (h : HomesQueued n as p t) (k : OnlyCtxCh c n s p)
    (hs : p.slices = s.slices) : OnlyCtxCh c n s { t with slices := s.slices } := by
  obtain ⟨hframe, hctxs, hchans⟩ := k
  refine ⟨?_, fun d hd => (h.ctx d).trans (hctxs d hd), fun m hm => (h.chans m hm).trans (hchans m hm)⟩
  rw [← hs, ← hframe, ← h.others]

/-- The lapsed credits of channel n changed, and home writes then queued there. -/
theorem HomesQueued.channel {n : Nat} {as : List FeltAcc} {p t : State} {g : Channel} (h : HomesQueued n as p t)
    (k : { p.ch n with lapsed := g.lapsed } = g) : { t.ch n with lapsed := g.lapsed, loft := g.loft } = g := by
  rw [← k, ← h.chan]

/-- A change of lines that only lets them wait for their home writes. -/
theorem modLine_writing_lines (h : Channel) (i : Nat) :
    (h.modLine i fun l => { l with writing := true }).loft.map (fun l => { l with writing := false })
      = h.loft.map fun l => { l with writing := false } := by
  rw [Channel.modLine, List.map_map]
  refine List.map_congr_left fun l _ => ?_
  rw [Function.comp_apply]
  split <;> rfl

theorem setCh_setSlice_homesQueued {s : State} {n : Nat} {h : Channel} {q : Slice} {as : List FeltAcc}
    (hq : q = { s.slice n with wait := (s.slice n).wait ++ as })
    (hl : h.loft.map (fun l => { l with writing := false }) = (s.ch n).loft.map fun l => { l with writing := false })
    (hh : { h with loft := (s.ch n).loft } = s.ch n) : HomesQueued n as s ((s.setCh n h).setSlice n q) where
  wait := by rw [State.setSlice_slice_same, hq]
  slice := by rw [State.setSlice_slice_same, hq]
  slices _ hk := State.setSlice_slice_other _ _ _ _ hk
  lines := by rw [State.setSlice_ch, State.setCh_ch_same, hl]
  chan := by rw [State.setSlice_ch, State.setCh_ch_same, hh]
  chans _ hk := State.setCh_ch_other _ _ _ _ hk
  others := by simp only [State.setCh, State.setSlice]

theorem queueHome_homesQueued (s : State) (c : Nat) (l : LoftLine) :
    HomesQueued (s.ctx c).chan [(s.ctx c).homeWrite c l] s (s.queueHome c l) :=
  setCh_setSlice_homesQueued rfl (modLine_writing_lines _ _) rfl

theorem foldl_queueHome_homesQueued (c : Nat) (ls : List LoftLine) : ∀ s : State,
    HomesQueued (s.ctx c).chan (ls.map ((s.ctx c).homeWrite c)) s (ls.foldl (fun s l => s.queueHome c l) s) := by
  induction ls with
  | nil => exact fun s => HomesQueued.refl _ s
  | cons l ls ih =>
    intro s
    have first := queueHome_homesQueued s c l
    have rest := ih (s.queueHome c l)
    rw [first.ctx c] at rest
    exact first.trans rest

/-! ### The stash lines of a context that is restored -/

/-- The lines of a context whose home write a fault removed: dirty stash lines that wait for nothing (log 19). -/
abbrev strandedStash (loft : List LoftLine) (c : Nat) : List LoftLine :=
  loft.filter fun l => l.owner == c && l.stash && l.dirty && !l.fetching && !l.writing

theorem map_homeWrite_strandedStash (x : Ctx) (c : Nat) (loft : List LoftLine) : (strandedStash loft c).map (x.homeWrite c)
    = (strandedStash loft c).map fun l =>
        ⟨.stash x.chan l.tag, c, l.line, x.ten, x.stashwin, x.stashbase * 64 + 64 * l.line, 64, true, 0, 0⟩ := by
  refine List.map_congr_left fun l hl => ?_
  have hs : l.stash = true := by simp_all [strandedStash]
  rw [Ctx.homeWrite, if_pos hs, Ctx.home]

theorem requeueStash_homesQueued {s : State} {c : Nat} {x : Ctx} {loft : List LoftLine} (hx : s.ctx c = x)
    (hl : (s.ch x.chan).loft = loft) : HomesQueued x.chan ((strandedStash loft c).map (x.homeWrite c)) s (s.requeueStash c) := by
  subst hx hl
  simp only [State.requeueStash, LoftLine.still, ← Bool.and_assoc]
  exact foldl_queueHome_homesQueued c _ s

/-! ### RESTORE by its ends -/

theorem setCh_setCtx_onlyCtxCh (s : State) (n c : Nat) (h : Channel) (x : Ctx) : OnlyCtxCh c n s ((s.setCh n h).setCtx c x) :=
  ⟨by simp only [State.setCh, State.setCtx], fun _ hd => State.setCtx_ctx_other _ _ _ _ hd, fun _ hm => State.setCh_ch_other _ _ _ _ hm⟩

section
variable (s : State) (c : Nat)

/-- The state in which a restored context's stash lines are queued again: it is BOUND, and no lapsed credit of it is left. -/
def State.restored : State :=
  (s.modCh (s.ctx c).chan fun h => { h with lapsed := Tbl.drop c h.lapsed }).setCtx c (s.ctx c).restore

theorem restored_ctx_same : (s.restored c).ctx c = (s.ctx c).restore := State.setCtx_ctx_same ..

theorem restored_ch_same : (s.restored c).ch (s.ctx c).chan
    = { s.ch (s.ctx c).chan with lapsed := Tbl.drop c (s.ch (s.ctx c).chan).lapsed } := State.setCh_ch_same ..

theorem restored_loft : ((s.restored c).ch (s.ctx c).chan).loft = (s.ch (s.ctx c).chan).loft := by
  rw [restored_ch_same]

theorem restored_ch_frame :
    { (s.restored c).ch (s.ctx c).chan with lapsed := (s.ch (s.ctx c).chan).lapsed } = s.ch (s.ctx c).chan := by
  rw [restored_ch_same]

theorem restored_onlyCtxCh : OnlyCtxCh c (s.ctx c).chan s (s.restored c) :=
  setCh_setCtx_onlyCtxCh ..

theorem restored_requeueStash : HomesQueued (s.ctx c).chan
    ((strandedStash (s.ch (s.ctx c).chan).loft c).map ((s.ctx c).homeWrite c)) (s.restored c) ((s.restored c).requeueStash c) :=
  requeueStash_homesQueued (x := (s.ctx c).restore) (restored_ctx_same s c) (restored_loft s c)

theorem restore_of_complete (hst : (s.ctx c).st = .faulted) (hf : (s.ctx c).faultcode ≠ 0x0A) (hh : s.hosted c = true)
    (ha : (s.ctx c).abandonAt = none) : (s.restore c).1 = (s.restored c).requeueStash c := by
  simp [State.restore, State.restored, hst, fcEntryLost, hf, hh, ha]

theorem restore_of_abandoning (hst : (s.ctx c).st = .faulted) (hf : (s.ctx c).faultcode ≠ 0x0A) (hh : s.hosted c = true)
    (ha : (s.ctx c).abandonAt ≠ none) : (s.restore c).1 = s.setCtx c { s.ctx c with restoreWait := true, binderr := 0 } := by
  simp [State.restore, hst, fcEntryLost, hf, hh, Option.isSome_iff_ne_none.mpr ha]

theorem restore_of_refused (h : (s.ctx c).st ≠ .faulted ∨ (s.ctx c).faultcode = 0x0A ∨ s.hosted c = false) :
    (s.restore c).1 = s.setCtx c { s.ctx c with binderr := 0x8 } := by
  have hno : ((s.ctx c).st != .faulted || (s.ctx c).faultcode = fcEntryLost || !s.hosted c) = true := by
    simp only [Bool.or_eq_true, bne_iff_ne, decide_eq_true_eq, Bool.not_eq_true', or_assoc]
    exact h
  rw [State.restore, if_pos hno]
  rfl

end

theorem exec_restore {s : State} (hs : Commanded s) (c : CtxId) : exec (.restore c) s = .next (s.initDone.restore c.val).1 := by
  rw [exec, execRestore, ctl_commanded hs]

end Sys2Proof.Machine

namespace Sys2Proof
open Sys2Proof.Machine Sys2Proof.Safety

/-- Settles O19: RESTORE takes effect, waits for the abandonment, or is refused. -/
theorem restoreClearsTheFault : Obligations.RestoreClearsTheFault := by
  intro s c hs
  refine ⟨fun hst hf hh ha => ?_, fun hst hf hh ha => ?_, fun h => ?_⟩
  · have hq := restored_requeueStash s.initDone c.val
    refine ⟨_, by rw [exec_restore hs, restore_of_complete s.initDone c.val hst hf hh ha], ?_, ?_, hq.slice, hq.slices, ?_,
      hq.channel (restored_ch_frame s.initDone c.val), hq.onlyCtxCh (restored_onlyCtxCh s.initDone c.val) rfl⟩
    · rw [hq.ctx, restored_ctx_same]; rfl
    · rw [← map_homeWrite_strandedStash]; exact hq.wait
    · exact hq.lines.trans (congrArg _ (restored_loft s.initDone c.val))
  · rw [exec_restore hs, restore_of_abandoning s.initDone c.val hst hf hh ha]; rfl
  · rw [exec_restore hs, restore_of_refused s.initDone c.val h]; rfl

end Sys2Proof
end

section
/-! SUPPORT. What the registers of a block read in the state after reset. -/
namespace Sys2Proof.Machine
open Sys2Proof.Safety

/-! ### Registers after reset -/

theorem readReg_entry (s : State) {n o : Nat} (hn : n < 1024) (ho : o < 0x40) (h8 : o % 8 = 0) :
    s.readReg (entryBase n + o) = (s.ctx n).entryReg (o / 8) := by
  obtain ⟨e, en, eo⟩ := block_offset (base := 0x100000) (size := 0x40) n (by decide) (by decide) ho h8
  simp only [State.readReg, entryBase, e, en, eo]
  clear e en eo h8
  simp (disch := omega) only [if_neg, if_pos]

theorem readReg_mailbox (s : State) {m o : Nat} (hm : m < 16) (ho : o < 0x20) (h8 : o % 8 = 0) :
    s.readReg (0x2000 + 0x20 * m + o) = if o = 0x10 then s.mbstat m else if o = 0x18 then (s.tenant m).mbrpt else 0 := by
  obtain ⟨e, en, eo⟩ := block_offset (base := 0x2000) (size := 0x20) m (by decide) (by decide) ho h8
  simp only [State.readReg, e, en, eo]
  clear e en eo h8
  simp (disch := omega) only [if_neg, if_pos]

theorem readReg_furnish (s : State) {o : Nat} (ho : o < 0x10000) (h8 : o % 8 = 0) :
    s.readReg (0x200000 + o) = (s.masterWord (o / 0x10)).extractLsb' (if o % 0x10 = 0 then 0 else 64) 64 := by
  have e : (0x200000 + o) / 8 * 8 = 0x200000 + o := by omega
  have ed : (0x200000 + o - 0x200000) / 0x10 = o / 0x10 := by omega
  have em : (0x200000 + o) % 0x10 = o % 0x10 := by omega
  simp only [State.readReg, e, ed, em]
  clear e ed em h8
  simp (disch := omega) only [if_neg, if_pos]

theorem entryReg_reset : ∀ k < 8, Ctx.reset.entryReg k = 0 := by decide

theorem statusReg_reset : ∀ k < 16, Ctx.reset.statusReg k = 0 := by decide

theorem tenantReg_reset : ∀ k < 16, Tenant.reset.reg (8 * k) = 0 := by decide

theorem mbstat_reset (m : Nat) : State.reset.mbstat m = 0 := by
  change regOf [(0, 1, 0), (0, 5, 8), (0, 16, 16)] = 0
  decide

theorem debugReg_reset (o : Nat) : State.reset.debugReg o = 0 := by
  have hb : State.reset.dbgen = false := rfl
  have hr : State.reset.dbgrsel = 0 := by decide
  have h0 : regOf [(Bool.toNat false, 1, 0)] = 0 := by decide
  simp only [State.debugReg, hb, hr, h0, Bool.false_eq_true, if_false, ite_self]

theorem masterWord_reset_extract (k i : Nat) : (State.reset.masterWord k).extractLsb' i 64 = 0 :=
  BitVec.extractLsb'_zero

/-- CHWIN, CHFCFG and CHPCTL alone read other than zero (Table 13-4, Table 15-4). -/
theorem readReg_channel_reset (n : ChanId) (k : Fin 512) : State.reset.readReg (chBase n.val + 8 * k.val) =
    if k.val = 2 then 0x10 else if k.val = 0xA1 then 0x250F else if k.val = 0xC2 then 0x39AFB4F0 else 0 := by
  obtain ⟨k, hk⟩ := k
  by_cases h : 5 ≤ k ∧ k < 0x80 ∨ 0x8E ≤ k ∧ k < 0xA0 ∨ 0xA5 ≤ k ∧ k < 0xC0 ∨ 0xC4 ≤ k
  · rw [(unoccupied_channel n.isLt hk h State.reset 0).2]
    simp (disch := omega) only [if_neg]
  · rw [readReg_channel _ n.isLt (by omega) (by omega)]
    change Channel.reset.reg (8 * k) = if k = 2 then 0x10 else if k = 0xA1 then 0x250F else if k = 0xC2 then 0x39AFB4F0 else 0
    have hb : k < 5 ∨ 0x80 ≤ k ∧ k < 0x8E ∨ 0xA0 ≤ k ∧ k < 0xA5 ∨ 0xC0 ≤ k ∧ k < 0xC4 := by omega
    clear h
    rcases hb with h | ⟨_, _⟩ | ⟨_, _⟩ | ⟨_, _⟩
    all_goals
      interval_cases k
      all_goals decide

theorem readReg_global_reset : State.reset.readReg 0x0000 = 0x30002 ∧ State.reset.readReg 0x1010 = 0
    ∧ State.reset.readReg 0x1100 = 0 ∧ State.reset.readReg 0x1108 = 0x1FFFFF ∧ State.reset.readReg 0x1110 = 0
    ∧ State.reset.readReg 0x1200 = 0 ∧ State.reset.readReg 0x1210 = 0 ∧ State.reset.readReg 0x1218 = 0
    ∧ State.reset.readReg 0x1300 = 0xFF00 ∧ State.reset.readReg 0x1308 = 0xFA ∧ State.reset.readReg 0x1000 = 0
    ∧ State.reset.readReg 0x1208 = 0 := by
  simp (disch := decide) only [readReg_global]
  decide

end Sys2Proof.Machine

namespace Sys2Proof
open Sys2Proof.Machine Sys2Proof.Safety

/-- Settles O3, block by block. -/
theorem resetRegistersReadTheirResetValues : Obligations.ResetRegistersReadTheirResetValues := by
  refine ⟨fun c k => ?_, fun c k => ?_, fun m k => ?_, fun m k => ?_, fun k => ⟨?_, ?_⟩, fun n k => ?_, ?_⟩
  · rw [readReg_entry _ c.isLt (by omega) (by omega), Nat.mul_div_cancel_left _ (by decide)]
    exact entryReg_reset k k.isLt
  · rw [readReg_status _ c.isLt (by omega) (by omega), Nat.mul_div_cancel_left _ (by decide)]
    exact statusReg_reset k k.isLt
  · rw [readReg_tenant _ m.isLt (by omega) (by omega)]
    exact tenantReg_reset k k.isLt
  · rw [readReg_mailbox _ m.isLt (by omega) (by omega)]
    rw [mbstat_reset, show (State.reset.tenant m.val).mbrpt = 0 from rfl, ite_self, ite_self]
  · rw [readReg_furnish _ (by omega) (by omega), masterWord_reset_extract]
  · rw [readReg_debug _ (by omega) (by omega), debugReg_reset]
  · exact readReg_channel_reset n k
  · exact readReg_global_reset

end Sys2Proof
end

section
/-! SUPPORT. Reams of a channel after several writes, and BIND by its two ends (R80, R185, R262, R263, R283). -/
namespace Sys2Proof.Machine
open Sys2Proof.Safety

/-! ### Reams -/

@[simp] theorem setReam_ream_same (h : Channel) (i : Nat) (r : ReamCell) : (h.setReam i r).ream i = r := Tbl.look_put_same ..

@[simp] theorem setReam_ream_other (h : Channel) {i j : Nat} (r : ReamCell) (hj : j ≠ i) : (h.setReam i r).ream j = h.ream j :=
  Tbl.look_put_other _ _ _ _ _ hj

/-- One value in each ream of a list. -/
theorem foldl_setReam_ream (r : ReamCell) (i : Nat) (l : List Nat) :
    ∀ h : Channel, (l.foldl (fun h p => h.setReam p r) h).ream i = if i ∈ l then r else h.ream i := by
  induction l with
  | nil => exact fun h => rfl
  | cons p l ih =>
    intro h
    rw [List.foldl_cons, ih]
    by_cases hp : i = p
    · rw [hp, setReam_ream_same, if_pos (List.mem_cons_self ..), ite_self]
    · rw [setReam_ream_other _ _ hp]
      simp only [List.mem_cons, hp, false_or]

/-- Writes of reams leave the rest of the channel. -/
theorem foldl_setReam_frame (r : ReamCell) (t : Tbl ReamCell) (l : List Nat) :
    ∀ h : Channel, { l.foldl (fun h p => h.setReam p r) h with reams := t } = { h with reams := t } := by
  induction l with
  | nil => exact fun h => rfl
  | cons p l ih => exact fun h => ih (h.setReam p r)

theorem unsetBlock_eq (h : Channel) (base n : Nat) :
    h.unsetBlock base n = ((List.range n).map (base + ·)).foldl (fun h p => h.setReam p ReamCell.reset) h := by
  rw [List.foldl_map]
  rfl

theorem mem_map_range_add {base n i : Nat} : i ∈ (List.range n).map (base + ·) ↔ base ≤ i ∧ i < base + n := by
  rw [List.mem_map]
  constructor
  · rintro ⟨k, hk, rfl⟩
    have := List.mem_range.mp hk
    omega
  · exact fun ⟨h1, h2⟩ => ⟨i - base, List.mem_range.mpr (by omega), by omega⟩

theorem unsetBlock_ream (h : Channel) (base n i : Nat) :
    (h.unsetBlock base n).ream i = if base ≤ i ∧ i < base + n then ReamCell.reset else h.ream i := by
  simp only [unsetBlock_eq, foldl_setReam_ream, mem_map_range_add]

theorem unsetBlock_frame (h : Channel) (base n : Nat) (t : Tbl ReamCell) :
    { h.unsetBlock base n with reams := t } = { h with reams := t } := by
  rw [unsetBlock_eq, foldl_setReam_frame]

/-! ### What BIND takes of the channel -/

section
variable (h : Channel) (c vat base reams loft : Nat)

theorem take_ream (i : Nat) : (h.take c vat base reams loft).ream i
    = if base ≤ i ∧ i < base + reams then ReamCell.reset else h.ream i := unsetBlock_ream ..

theorem take_rest (t : Tbl ReamCell) : { h.take c vat base reams loft with reams := t }
    = { h with alloc := h.alloc ++ [⟨c, vat, base, reams, loft⟩], lapsed := Tbl.drop c h.lapsed, reams := t } :=
  unsetBlock_frame ..

theorem take_alloc : (h.take c vat base reams loft).alloc = h.alloc ++ [⟨c, vat, base, reams, loft⟩] :=
  (congrArg Channel.alloc (take_rest h c vat base reams loft []) :)

theorem take_lapsed : (h.take c vat base reams loft).lapsed = Tbl.drop c h.lapsed :=
  (congrArg Channel.lapsed (take_rest h c vat base reams loft []) :)

theorem take_frame : { h.take c vat base reams loft with alloc := h.alloc, reams := h.reams, lapsed := h.lapsed } = h :=
  (congrArg (fun q : Channel => { q with alloc := h.alloc, lapsed := h.lapsed }) (take_rest h c vat base reams loft h.reams) :)

end

theorem look_drop (d : Nat) (t : Tbl Nat) (k j : Nat) : Tbl.look d (Tbl.drop k t) j = if j = k then d else Tbl.look d t j := by
  split
  · rename_i h
    rw [h, Tbl.look_of_ne _ _ _ (Tbl.drop_ne t k)]
  · exact Tbl.look_drop_other _ _ _ _ ‹_›

theorem freshSlots_empty (ds : List Decl) : ∀ sl ∈ freshSlots ds, ∀ k ∈ sl.copies, k.st = .empty := by
  intro sl hsl k hk
  obtain ⟨d, -, rfl⟩ := List.mem_map.mp hsl
  rw [List.eq_of_mem_replicate hk]
  rfl

/-! ### BIND by its ends -/

/-- A context that enters BOUND with a ream block from a base. -/
def State.boundCtx (s : State) (c base : Nat) : Ctx :=
  let x := s.ctx c
  { x.clearWork with
    st := .bound, binderr := 0, faultcode := 0, reambase := base, algrant := x.alreq, budForce := x.budget, balance := satBal x.budget
    flags := 0, cap := none, mark := 0, iflt := 0, lost := 0, lostNow := none, stallPace := 0, stallBudget := 0
    cnts := [0, 0, 0, 0], slots := freshSlots (progDecls s x.starts), drain := .none, cpseq := none }

/-- The state with a context bound, its ream block from a base. -/
def State.boundAt (s : State) (c base : Nat) : State :=
  let x := s.ctx c
  (s.modCh x.chan fun h => h.take c x.vatreq base (4 * x.reamreq) x.alreq).setCtx c (s.boundCtx c base)

theorem progDecls_modCh (s : State) (n : Nat) (f : Channel → Channel) (l : List Nat) :
    progDecls (s.modCh n f) l = progDecls s l := rfl

/-- BIND follows the checks in the order of R262. -/
theorem bind_cases (s : State) (c : Nat) :
    (∃ code, bindCode s c = some code ∧ (s.bind c).1 = s.bindRefused c code)
      ∨ ∃ base, bindCode s c = none ∧ (s.ch (s.ctx c).chan).placeReams (s.ctx c).reamreq = some base
        ∧ (s.bind c).1 = s.boundAt c base := by
  simp only [bindCode, State.bind, roomCheck]
  by_cases hst : (s.ctx c).st = .free
  swap
  · exact .inl ⟨0x8, by simp [hst]⟩
  by_cases hch : (s.ch (s.ctx c).chan).st = .ready
  swap
  · exact .inl ⟨0x9, by simp [hst, hch]⟩
  by_cases hlg : (s.ctx c).lgmask = 0#16
  · exact .inl ⟨0xA, by simp [hst, hch, hlg]⟩
  by_cases hv : (s.ctx c).vatreq > 96 ∨ (s.ctx c).vatreq > (s.ch (s.ctx c).chan).freeVat
  · exact .inl ⟨0xB, by simp [hst, hch, hlg, hv]⟩
  cases hp : (s.ch (s.ctx c).chan).placeReams (s.ctx c).reamreq with
  | none => exact .inl ⟨0xC, by simp [hst, hch, hlg, hv]⟩
  | some base =>
    by_cases hl : (s.ctx c).alreq > (s.ch (s.ctx c).chan).freeLoft
    · exact .inl ⟨0xD, by simp [hst, hch, hlg, hv, hl]⟩
    by_cases hw : (s.ctx c).alreq ≠ 0 ∧ (((s.tenant (s.ctx c).ten).win (s.ctx c).stashwin).enabled = false ∨ (s.ctx c).policy = 3)
    · exact .inl ⟨0xE, by simp [hst, hch, hlg, hv, hl, hw]⟩
    cases progCheck s (s.ctx c) with
    | some code => exact .inl ⟨code, by simp [hst, hch, hlg, hv, hl, hw]⟩
    | none => exact .inr ⟨base, by simp [hst, hch, hlg, hv, hl, hw, State.boundAt, State.boundCtx, progDecls_modCh]⟩

theorem exec_bind {s : State} (hs : Commanded s) (c : CtxId) : exec (.bind c) s = .next (s.initDone.bind c.val).1 := by
  rw [exec, execBind, ctl_commanded hs]

end Sys2Proof.Machine

namespace Sys2Proof
open Sys2Proof.Machine Sys2Proof.Safety

/-- Settles O17, by the two ends of BIND. -/
theorem bindAllocatesOrChangesOnlyBinderr : Obligations.BindAllocatesOrChangesOnlyBinderr := by
  refine ⟨fun s c hs hcode => ?_, fun s c code hs hcode => ?_⟩
  · obtain ⟨_, h, -⟩ | ⟨base, -, hp, hb⟩ := bind_cases s.initDone c.val
    · rw [hcode] at h; cases h
    have hctx : (s.initDone.boundAt c.val base).ctx c.val = s.initDone.boundCtx c.val base := State.setCtx_ctx_same ..
    have hch : (s.initDone.boundAt c.val base).ch (s.ctx c.val).chan
        = (s.ch (s.ctx c.val).chan).take c.val (s.ctx c.val).vatreq base (4 * (s.ctx c.val).reamreq) (s.ctx c.val).alreq :=
      State.setCh_ch_same ..
    refine ⟨_, base, (exec_bind hs c).trans (congrArg _ hb), hp, ?_⟩
    simp only [hctx, hch]
    exact ⟨rfl, rfl, rfl, rfl, rfl, rfl, rfl, rfl, rfl, rfl, rfl, rfl, rfl, rfl, rfl, rfl, freshSlots_empty _, rfl, rfl, rfl, rfl, rfl, rfl,
      rfl, rfl, rfl, rfl, rfl, take_alloc .., take_ream _ _ _ _ _ _, fun d => by rw [take_lapsed, look_drop], take_frame ..,
      setCh_setCtx_onlyCtxCh ..⟩
  · obtain ⟨_, h, hb⟩ | ⟨_, h, -⟩ := bind_cases s.initDone c.val
    · rw [hcode] at h; cases h
      exact (exec_bind hs c).trans (congrArg _ hb)
    · rw [hcode] at h; cases h

end Sys2Proof
end

section
/-! SUPPORT. A word that a command brings to its channel, and a context fault (R265, R273, R274, R283, R285). -/
namespace Sys2Proof.Machine
open Sys2Proof.Safety

/-! ### Writes of one key in a row -/

theorem Tbl.drop_ins {α : Type} (k : Nat) (v : α) (t : Tbl α) : Tbl.drop k (Tbl.ins k v t) = Tbl.drop k t := by
  induction t with
  | nil => simp [Tbl.ins, Tbl.drop]
  | cons e r ih =>
    obtain ⟨a, x⟩ := e
    simp only [Tbl.ins]
    split
    · simp [Tbl.drop]
    · simp only [Tbl.drop, ih]

theorem Tbl.drop_drop {α : Type} (k : Nat) (t : Tbl α) : Tbl.drop k (Tbl.drop k t) = Tbl.drop k t := by
  induction t with
  | nil => rfl
  | cons e r ih =>
    obtain ⟨a, x⟩ := e
    by_cases h : a = k
    · simp only [Tbl.drop, h, if_true, ih]
    · simp only [Tbl.drop, h, if_false, ih]

theorem Tbl.put_put {α : Type} [DecidableEq α] (d : α) (t : Tbl α) (k : Nat) (v w : α) :
    Tbl.put d (Tbl.put d t k v) k w = Tbl.put d t k w := by
  have h : Tbl.drop k (Tbl.put d t k v) = Tbl.drop k t := by
    unfold Tbl.put
    split
    · exact Tbl.drop_drop k t
    · rw [Tbl.drop_ins, Tbl.drop_drop]
  conv_lhs => rw [Tbl.put, h]
  rfl

@[simp] theorem setCtx_setCtx (s : State) (c : Nat) (x y : Ctx) : (s.setCtx c x).setCtx c y = s.setCtx c y := by
  simp only [State.setCtx, Tbl.put_put]

@[simp] theorem setCh_setCh (s : State) (n : Nat) (g h : Channel) : (s.setCh n g).setCh n h = s.setCh n h := by
  simp only [State.setCh, Tbl.put_put]

/-! ### A word that may be delivered -/

theorem refuses_of_not_refused {s : State} {c ten : Nat} (h : ¬ Refused s c ten) : (s.ctx c).refuses ten = false := by
  simp only [Refused, not_or, ne_eq, not_not] at h
  obtain ⟨ht, hf, hx, hd⟩ := h
  cases hs : (s.ctx c).st <;> simp_all [Ctx.refuses]

theorem not_refused_of_open {s : State} {c ten : Nat} (ht : (s.ctx c).ten = ten) (hs : (s.ctx c).st = .bound ∨ (s.ctx c).st = .running) :
    ¬ Refused s c ten := by
  rcases hs with h | h <;> simp [Refused, ht, h]

/-- A word that its channel can take is accepted there, unless R265 refuses it by then. -/
theorem direct_of_deliverable {s : State} {c ten : Nat} (w : IWord) (hd : Deliverable s c ten) (hr : ¬ Refused (wordPoint s c) c ten) :
    s.direct c ten w = (wordPoint s c).accept c s.seq w := by
  obtain ⟨ht, hst, hh, hk, hq⟩ := hd
  have hq' : ∀ n < 8, ∀ v ∈ s.rxq n, (v.ctx != c || decide (s.seq ≤ v.ser)) = true := by
    intro n hn v hv
    by_cases h : v.ctx = c
    · simp [hq n hn v hv h]
    · simp [h]
  have hmay : s.mayDeliver ⟨w, c, ten, s.seq⟩ = true := by
    simp only [State.mayDeliver, State.reachable, hh, hk, Bool.and_eq_true, List.all_eq_true, List.mem_range]
    exact ⟨by simp, hq'⟩
  have hno : ∀ u : State, u = { s with seq := s.seq + 1 } → (u.ctx c).refuses ten = false := by
    rintro u rfl
    exact refuses_of_not_refused (s := s) (not_refused_of_open ht hst)
  have hthen := refuses_of_not_refused hr
  rw [State.direct, if_pos hmay, State.deliver, hno _ rfl]
  simp only [Bool.false_eq_true, if_false]
  rw [wordPoint] at hthen ⊢
  exact if_neg (by rw [Bool.not_eq_true]; exact hthen)

/-! ### A direct word of a context that nothing keeps busy -/

section
variable {s : State} {c : Nat}

/-- Writing a context's own value where reads find it already. -/
theorem settle_of_idle (hx : (s.ctx c).runs = []) (hn : (s.ctx c).newSlots = []) (hr : (s.ctx c).restarts = []) :
    s.settle c = ((s.setCtx c (s.ctx c)).settleDirects c (s.ctx c).directs.length).settleState c := by
  have hrec : ∀ t : State, (t.ctx c).runs = [] → t.recallRuns c = t.setCtx c (t.ctx c) := by
    intro t ht
    rw [State.recallRuns, State.modCtx, ht, List.map_nil, ← ht]
  have hset : (s.ctx c).settleRestarts = s.ctx c := by rw [Ctx.settleRestarts, hr]; rfl
  have hafter : ∀ t : State, (t.ctx c).runs = [] → t.settleAfter c = t := by
    intro t ht
    rw [State.settleAfter, ht]; rfl
  have hslots : ∀ t : State, (t.ctx c).newSlots = [] → t.settleSlots c = t := by
    intro t ht
    rw [State.settleSlots, ht]; rfl
  have hfix : ∀ t : State, t.ctx c = s.ctx c → t.fixCounts c = t.setCtx c (s.ctx c) := by
    intro t ht
    have h1 : t.modCtx c Ctx.settleRestarts = t.setCtx c (s.ctx c) := by rw [State.modCtx, ht, hset]
    have h2 : ((t.setCtx c (s.ctx c)).ctx c).runs = [] := by rw [State.setCtx_ctx_same, hx]
    rw [State.fixCounts, h1, h2, List.foldl_nil, hrec _ h2, State.setCtx_ctx_same, setCtx_setCtx]
  have h0 : (s.setCtx c (s.ctx c)).ctx c = s.ctx c := State.setCtx_ctx_same ..
  rw [State.settle, hrec s hx, hafter _ (by rw [h0, hx]), hslots _ (by rw [h0, hn]), hfix _ h0, setCtx_setCtx, h0]

end

/-! ### A context fault -/

/-- Nothing of the tenants, and of the contexts nothing but LOFTMARK differs. -/
def OnlyMarks (s t : State) : Prop := t.tenants = s.tenants ∧ ∀ d, { t.ctx d with mark := (s.ctx d).mark } = s.ctx d

theorem OnlyMarks.refl (s : State) : OnlyMarks s s := ⟨rfl, fun _ => rfl⟩

theorem OnlyMarks.trans {s t u : State} (h : OnlyMarks s t) (k : OnlyMarks t u) : OnlyMarks s u :=
  ⟨k.1.trans h.1, fun d => (congrArg (fun x : Ctx => { x with mark := (s.ctx d).mark }) (k.2 d)).trans (h.2 d)⟩

theorem OnlyMarks.foldl {α : Type} {f : State → α → State} (hf : ∀ s a, OnlyMarks s (f s a)) (l : List α) (s : State) :
    OnlyMarks s (l.foldl f s) :=
  foldl_keeps (P := OnlyMarks s) (fun t a h => h.trans (hf t a)) l s (OnlyMarks.refl s)

theorem onlyMarks_modCh (s : State) (n : Nat) (f : Channel → Channel) : OnlyMarks s (s.modCh n f) := ⟨rfl, fun _ => rfl⟩

theorem onlyMarks_setMark (s : State) (c tag : Nat) : OnlyMarks s (s.setMark c tag) := by
  refine ⟨rfl, fun d => ?_⟩
  by_cases h : d = c
  · rw [h, State.setMark, State.modCtx, State.setCtx_ctx_same]
  · rw [State.setMark, State.modCtx, State.setCtx_ctx_other _ _ _ _ h]

theorem onlyMarks_cancelFelt (s : State) (a : FeltAcc) : OnlyMarks s (s.cancelFelt a) := by
  unfold State.cancelFelt
  split
  · exact onlyMarks_modCh ..
  · exact onlyMarks_modCh ..
  · exact onlyMarks_modCh ..
  · exact onlyMarks_setMark ..
  · exact OnlyMarks.refl s

theorem onlyMarks_cancelAll (s : State) (c : Nat) : OnlyMarks s (s.cancelAll c) :=
  OnlyMarks.foldl (fun t _ => OnlyMarks.trans (t := t.modSlice _ _) ⟨rfl, fun _ => rfl⟩
    (OnlyMarks.foldl (fun _ _ => onlyMarks_cancelFelt ..) _ _)) _ s

/-- What the start of a row count changes of a context (R286, R287). -/
theorem settleRestarts_frame (x : Ctx) : { x.settleRestarts with cnts := x.cnts, restarts := x.restarts } = x := by
  refine foldl_keeps (P := fun y : Ctx => { y with cnts := x.cnts, restarts := x.restarts } = x) (fun y e h => ?_) x.restarts x rfl
  split
  · exact h
  · exact h

theorem settleRestarts_runs (x : Ctx) : x.settleRestarts.runs = x.runs := (congrArg Ctx.runs (settleRestarts_frame x) :)

/-- A context keeps its identity: its state, its tenant and the first fault since its bind. -/
structure Ctx.Same (x y : Ctx) : Prop where
  st : y.st = x.st
  ten : y.ten = x.ten
  faultcode : y.faultcode = x.faultcode
  iflt : y.iflt = x.iflt

theorem Ctx.Same.trans {x y z : Ctx} (h : x.Same y) (k : y.Same z) : x.Same z :=
  ⟨k.st.trans h.st, k.ten.trans h.ten, k.faultcode.trans h.faultcode, k.iflt.trans h.iflt⟩

theorem Ctx.Same.of_eq {x y : Ctx} (h : y = x) : x.Same y := h ▸ ⟨rfl, rfl, rfl, rfl⟩

theorem settleRestarts_same (x : Ctx) : x.Same x.settleRestarts :=
  have h := settleRestarts_frame x
  ⟨(congrArg Ctx.st h :), (congrArg Ctx.ten h :), (congrArg Ctx.faultcode h :), (congrArg Ctx.iflt h :)⟩

theorem OnlyMarks.same {s t : State} (h : OnlyMarks s t) (c : Nat) : (s.ctx c).Same (t.ctx c) :=
  ⟨(congrArg Ctx.st (h.2 c) :), (congrArg Ctx.ten (h.2 c) :), (congrArg Ctx.faultcode (h.2 c) :), (congrArg Ctx.iflt (h.2 c) :)⟩

theorem OnlyMarks.runs {s t : State} (h : OnlyMarks s t) (c : Nat) : (t.ctx c).runs = (s.ctx c).runs :=
  (congrArg Ctx.runs (h.2 c) :)

theorem abandon_same (s : State) (c : Nat) : (s.ctx c).Same ((s.abandon c).ctx c) := by
  refine Ctx.Same.trans ?_ ((onlyMarks_cancelAll _ c).same c)
  rw [State.modCtx, State.setCtx_ctx_same]
  have h := settleRestarts_same { (s.ctx c).emptyFilling with runs := [] }
  exact ⟨h.st, h.ten, h.faultcode, h.iflt⟩

theorem abandon_runs (s : State) (c : Nat) : ((s.abandon c).ctx c).runs = [] := by
  refine ((onlyMarks_cancelAll _ c).runs c).trans ?_
  rw [State.modCtx, State.setCtx_ctx_same]
  exact settleRestarts_runs { (s.ctx c).emptyFilling with runs := [] }

theorem abandon_tenants (s : State) (c : Nat) : (s.abandon c).tenants = s.tenants := (onlyMarks_cancelAll _ c).1

/-- Changes of program fields that take place touch the slots alone (R180). -/
theorem settleChanges_frame (qs : List SlotChange) : ∀ x : Ctx,
    { x.settleChanges qs with slots := x.slots, newSlots := x.newSlots } = x := by
  induction qs with
  | nil => exact fun x => rfl
  | cons q qs ih =>
    intro x
    rw [Ctx.settleChanges]
    split
    · rfl
    · exact (congrArg (fun y : Ctx => { y with slots := x.slots }) (ih (x.reslot q.decls)) :)

theorem settleChanges_runs (x : Ctx) (qs : List SlotChange) : (x.settleChanges qs).runs = x.runs :=
  (congrArg Ctx.runs (settleChanges_frame qs x) :)

theorem settleChanges_same (x : Ctx) (qs : List SlotChange) : x.Same (x.settleChanges qs) :=
  have h := settleChanges_frame qs x
  ⟨(congrArg Ctx.st h :), (congrArg Ctx.ten h :), (congrArg Ctx.faultcode h :), (congrArg Ctx.iflt h :)⟩

theorem settleSlots_cases (s : State) (c : Nat) :
    s.settleSlots c = s ∨ s.settleSlots c = s.setCtx c ((s.ctx c).settleChanges (s.ctx c).newSlots) := by
  unfold State.settleSlots
  split
  · exact .inl rfl
  · exact .inr rfl

theorem settleSlots_same (s : State) (c : Nat) : (s.ctx c).Same ((s.settleSlots c).ctx c) := by
  rcases settleSlots_cases s c with h | h
  · exact .of_eq (by rw [h])
  · rw [h, State.setCtx_ctx_same]
    exact settleChanges_same ..

theorem settleSlots_runs (s : State) (c : Nat) : ((s.settleSlots c).ctx c).runs = (s.ctx c).runs := by
  rcases settleSlots_cases s c with h | h
  · rw [h]
  · rw [h, State.setCtx_ctx_same, settleChanges_runs]

theorem settleSlots_tenants (s : State) (c : Nat) : (s.settleSlots c).tenants = s.tenants := by
  rcases settleSlots_cases s c with h | h
  · rw [h]
  · rw [h, State.setCtx_tenants]

/-- A fault of a BOUND or RUNNING context takes effect. -/
theorem fault_taken {s : State} {c : Nat} (code : Nat) (iflt : BitVec 64) (h : (s.ctx c).st = .bound ∨ (s.ctx c).st = .running) :
    FaultTaken c code iflt s (s.fault c code iflt) := by
  have hs := (abandon_same s c).trans (settleSlots_same (s.abandon c) c)
  have hruns : (((s.abandon c).settleSlots c).ctx c).runs = [] := (settleSlots_runs _ c).trans (abandon_runs s c)
  have htens : ((s.abandon c).settleSlots c).tenants = s.tenants := (settleSlots_tenants _ c).trans (abandon_tenants s c)
  have hfree : ((s.ctx c).st == .free) = false := by rcases h with h | h <;> rw [h] <;> rfl
  have hflt : ((s.ctx c).st == .faulted) = false := by rcases h with h | h <;> rw [h] <;> rfl
  have hopen : ((s.ctx c).st == .bound || (s.ctx c).st == .running) = true := by rcases h with h | h <;> rw [h] <;> rfl
  simp only [State.fault, hfree, hflt, hopen, Bool.false_eq_true, if_false, if_true]
  generalize (s.abandon c).settleSlots c = u at hs hruns htens
  have hten : u.tenant (s.ctx c).ten = s.tenant (s.ctx c).ten := by rw [State.tenant, htens, State.tenant]
  simp only [FaultTaken, State.tev, State.modTenant, State.modCtx, State.setTenant_ctx, State.setCtx_ctx_same,
    State.setTenant_tenant_same, State.setCtx_tenant, hten, hs.faultcode, hs.iflt, hruns]
  exact ⟨trivial, trivial, trivial, trivial, rfl⟩

/-- The parts of a fault that takes effect which a word's illegal operand names. -/
theorem operandFault_of_faultTaken {c src index opcode flsb : Nat} {p t : State} (h : FaultTaken c 0x02 (ifltWord true src index opcode flsb) p t)
    (hs : src = 0) (hi : index = 0) : OperandFault c opcode flsb p t := by
  subst hs hi
  obtain ⟨hst, hcode, hiflt, -, htev⟩ := h
  exact ⟨hst, hcode, fun h0 => by rw [hiflt, h0]; rfl, htev⟩

end Sys2Proof.Machine
end

section
/-! SUPPORT. The fields of ream words, and what RCLR does where it acts (R80, R81, R285, R304). -/
namespace Sys2Proof.Machine
open Sys2Proof.Safety

/-! ### Fields of a word -/

theorem fld_eq (w : IWord) (hi lo : Nat) : IWord.fld w hi lo = w.toNat / 2 ^ lo % 2 ^ (hi + 1 - lo) := by
  rw [IWord.fld, Nat.shiftRight_eq_div_pow]

theorem bit_eq (w : IWord) (i : Nat) : IWord.bit w i = decide (w.toNat / 2 ^ i % 2 = 1) := Nat.testBit_eq_decide_div_mod_eq

/-- What the fields of a word add to a number. -/
def fieldSum (a : Nat) (fs : List (Nat × Nat)) : Nat := fs.foldl (fun a f => a + f.1 * 2 ^ f.2) a

theorem fieldSum_nil (a : Nat) : fieldSum a [] = a := rfl

theorem fieldSum_cons (a v i : Nat) (fs : List (Nat × Nat)) : fieldSum a ((v, i) :: fs) = fieldSum (a + v * 2 ^ i) fs := rfl

theorem mkWord_toNat (op : Nat) (fs : List (Nat × Nat)) : (mkWord op fs).toNat = fieldSum (op * 2 ^ 120) fs % 2 ^ 128 := by
  rw [mkWord, BitVec.toNat_ofNat, fieldSum]

/-- The fields of a ream word that names reams, a kind and a format, and nothing else. -/
theorem reamWord_fields {w : IWord} {op rn rcnt kind ofmt : Nat} (hw : w.toNat = (op * 2 ^ 120 + rn * 2 ^ 112 + rcnt * 2 ^ 104
    + kind * 2 ^ 101 + ofmt * 2 ^ 97) % 2 ^ 128) (hop : op < 256) (hrn : rn < 256) (hc : rcnt < 256) (hk : kind < 8) (ho : ofmt < 16) :
    opc w = op ∧ ReamW.ofWord w = ⟨rn, rcnt, kind, ofmt, false, 0, false, false, 0, 0⟩ ∧ IWord.fld w 86 0 = 0 := by
  rw [Nat.mod_eq_of_lt (by omega)] at hw
  simp only [opc, ReamW.ofWord, fld_eq, bit_eq, hw, ReamW.mk.injEq, decide_eq_false_iff_not]
  omega

theorem rclrWord_fields (rn rcnt : BitVec 8) (kind : BitVec 3) : opc (rclrWord rn rcnt kind) = 0x90
    ∧ ReamW.ofWord (rclrWord rn rcnt kind) = ⟨rn.toNat, rcnt.toNat, kind.toNat, 0, false, 0, false, false, 0, 0⟩
    ∧ IWord.fld (rclrWord rn rcnt kind) 86 0 = 0 := by
  refine reamWord_fields ?_ (by decide) rn.isLt rcnt.isLt kind.isLt (by decide)
  rw [rclrWord, mkWord_toNat, fieldSum_cons, fieldSum_cons, fieldSum_cons, fieldSum_nil, Nat.zero_mul, Nat.add_zero]

theorem rexpWord_fields (rn rcnt : BitVec 8) : opc (rexpWord rn rcnt) = 0x91
    ∧ ReamW.ofWord (rexpWord rn rcnt) = ⟨rn.toNat, rcnt.toNat, 0, 0xB, false, 0, false, false, 0, 0⟩
    ∧ IWord.fld (rexpWord rn rcnt) 86 0 = 0 := by
  refine reamWord_fields ?_ (by decide) rn.isLt rcnt.isLt (by decide) (by decide)
  rw [rexpWord, mkWord_toNat, fieldSum_cons, fieldSum_cons, fieldSum_cons, fieldSum_nil, Nat.zero_mul, Nat.add_zero]

theorem opOf_rclrWord (rn rcnt : BitVec 8) (kind : BitVec 3) : opOf (rclrWord rn rcnt kind) = some .rclr := by
  rw [opOf, (rclrWord_fields rn rcnt kind).1]; rfl

theorem opOf_rexpWord (rn rcnt : BitVec 8) : opOf (rexpWord rn rcnt) = some .rexp := by
  rw [opOf, (rexpWord_fields rn rcnt).1]; rfl

/-- A word of RCLR or REXP with nothing in the fields that it leaves zero passes the check of R282. -/
theorem directCheck_of_fields {w : IWord} {rn rcnt kind ofmt : Nat} (hw : ReamW.ofWord w = ⟨rn, rcnt, kind, ofmt, false, 0, false, false, 0, 0⟩)
    (hlow : IWord.fld w 86 0 = 0) (h : opc w = 0x90 ∧ kind ≤ 4 ∧ ofmt = 0 ∨ opc w = 0x91 ∧ kind = 0 ∧ ofmt = 0xB) :
    directCheck w = none := by
  rcases h with ⟨hop, hk, ho⟩ | ⟨hop, hk, ho⟩
  · have hr : opOf w = some .rclr := by rw [opOf, hop]; rfl
    simp [directCheck, hr, reamChecks, hop, hw, hlow, topFail, hk, ho]
  · have hr : opOf w = some .rexp := by rw [opOf, hop]; rfl
    simp [directCheck, hr, reamChecks, hop, hw, hlow, topFail, hk, ho]

theorem directCheck_rclrWord (rn rcnt : BitVec 8) {kind : BitVec 3} (hk : kind.toNat ≤ 4) :
    directCheck (rclrWord rn rcnt kind) = none := by
  obtain ⟨hop, hw, hlow⟩ := rclrWord_fields rn rcnt kind
  exact directCheck_of_fields hw hlow (.inl ⟨hop, hk, rfl⟩)

theorem directCheck_rexpWord (rn rcnt : BitVec 8) : directCheck (rexpWord rn rcnt) = none := by
  obtain ⟨hop, hw, hlow⟩ := rexpWord_fields rn rcnt
  exact directCheck_of_fields hw hlow (.inr ⟨hop, rfl, rfl⟩)

theorem kind_le_of_ofCode {n : Nat} {k : RKind} (h : RKind.ofCode n = some k) : n ≤ 4 := by
  by_contra hn
  unfold RKind.ofCode at h
  split at h <;> first | omega | cases h

/-! ### A ream word that acts at once -/

section
variable {s : State} {c : Nat}

/-- The first direct word that waits acts where no run is left. -/
theorem settleDirects_cons {d : Direct} {ds : List Direct} {fuel : Nat} (hd : (s.ctx c).directs = d :: ds) (hst : (s.ctx c).st = .bound)
    (hr : (s.ctx c).runs = []) (hw : s.closeWaits c d.ser d.word = false) : s.settleDirects c (fuel + 1)
      = ((s.modCtx c fun x => { x with directs := ds }).act c Site.direct d.word).settleDirects c fuel := by
  conv_lhs => unfold State.settleDirects
  simp only [hd, hst, hr, hw, beq_self_eq_true, Bool.true_or, List.all_nil, Bool.not_false, Bool.and_self, if_true]

/-- An accepted ream or Loft word, of a context that nothing keeps busy, acts. -/
theorem accept_of_quiet {p : State} {ser : Nat} {w : IWord} (hq : Quiet (p.ctx c)) (hc : directCheck w = none)
    (ho : opOf w = some .rclr ∨ opOf w = some .rexp) :
    p.accept c ser w = ((p.setCtx c (p.ctx c)).act c Site.direct w).settleState c := by
  obtain ⟨hst, hruns, hdir, hnew, hres⟩ := hq
  have hwait : ∀ u : State, u.closeWaits c ser w = false := by
    intro u
    rcases ho with h | h <;> rw [State.closeWaits, h] <;> rfl
  have hacc : p.accept c ser w = (p.setCtx c { p.ctx c with directs := [⟨ser, w⟩] }).settle c := by
    rcases ho with h | h
    all_goals
      rw [State.accept, hc, h]
      simp only [State.modCtx, hdir, List.nil_append]
  have hx : (p.setCtx c { p.ctx c with directs := [⟨ser, w⟩] }).ctx c = { p.ctx c with directs := [⟨ser, w⟩] } := State.setCtx_ctx_same ..
  rw [hacc, settle_of_idle (by rw [hx, hruns]) (by rw [hx, hnew]) (by rw [hx, hres]), hx, setCtx_setCtx]
  have hone : (p.setCtx c { p.ctx c with directs := [⟨ser, w⟩] }).settleDirects c 1
      = (p.setCtx c (p.ctx c)).act c Site.direct w := by
    rw [settleDirects_cons (ds := []) (congrArg Ctx.directs hx) ((congrArg Ctx.st hx).trans hst) ((congrArg Ctx.runs hx).trans hruns) (hwait _),
      State.settleDirects, State.modCtx, hx, setCtx_setCtx, ← hdir]
  exact congrArg (State.settleState · c) hone

theorem settleState_of_not_running (h : (s.ctx c).st ≠ .running) : s.settleState c = s := by
  have e : ((s.ctx c).st == .running) = false := beq_eq_false_iff_ne.mpr h
  rw [State.settleState]
  simp only [e, Bool.false_and, Bool.false_eq_true, if_false]

/-- A command that brings a ream word to a context that nothing keeps busy: what it leaves. -/
theorem direct_of_actsAtOnce {ten : Nat} {w : IWord} (h : ActsAtOnce s c ten) (hc : directCheck w = none)
    (ho : opOf w = some .rclr ∨ opOf w = some .rexp) : s.direct c ten w
      = (((wordPoint s c).setCtx c ((wordPoint s c).ctx c)).act c Site.direct w).settleState c := by
  obtain ⟨-, hd, ht, hq⟩ := h
  rw [direct_of_deliverable w hd (not_refused_of_open ht (.inl hq.1)), accept_of_quiet hq hc ho]

end

/-! ### RCLR -/

theorem block_of_le {x : Ctx} {rn n : Nat} (h : rn + n ≤ 4 * x.reamreq) :
    x.block rn n = some ((List.range n).map (x.reambase + rn + ·)) := if_pos h

theorem block_of_lt {x : Ctx} {rn n : Nat} (h : 4 * x.reamreq < rn + n) : x.block rn n = none := if_neg (Nat.not_le.mpr h)

section
variable (s : State) (c : Nat) (t : Site) (rn rcnt : BitVec 8) (kind : BitVec 3)

theorem siteFault_rclr : s.siteFault c t (rclrWord rn rcnt kind) 112 = s.fault c 0x02 (ifltWord true t.src t.index 0x90 112) := by
  rw [State.siteFault, State.ifault, (rclrWord_fields rn rcnt kind).1]; rfl

/-- RCLR outside the block. -/
theorem actRclr_outside (h : 4 * (s.ctx c).reamreq < rn.toNat + (rcnt.toNat + 1)) :
    s.actRclr c t (rclrWord rn rcnt kind) = s.fault c 0x02 (ifltWord true t.src t.index 0x90 112) := by
  rw [← siteFault_rclr s c t rn rcnt kind, State.actRclr]
  simp only [(rclrWord_fields rn rcnt kind).2.1, block_of_lt h]

/-- RCLR of a block one of whose shadows an open run of the context holds. -/
theorem actRclr_held {k : RKind} (hk : RKind.ofCode kind.toNat = some k) (hb : rn.toNat + (rcnt.toNat + 1) ≤ 4 * (s.ctx c).reamreq) {i : Nat}
    (hi : i ≤ rcnt.toNat) (hh : (s.ch (s.ctx c).chan).heldOpen (s.ctx c) ((s.ctx c).reambase + rn.toNat + i) = true) :
    s.actRclr c t (rclrWord rn rcnt kind) = s.fault c 0x02 (ifltWord true t.src t.index 0x90 112) := by
  rw [← siteFault_rclr s c t rn rcnt kind, State.actRclr]
  simp only [(rclrWord_fields rn rcnt kind).2.1, block_of_le hb, hk]
  refine if_pos (List.any_eq_true.mpr ⟨_, List.mem_map_of_mem (List.mem_range.mpr (by omega)), hh⟩)

/-- RCLR of a block none of whose shadows an open run of the context holds. -/
theorem actRclr_free {k : RKind} (hk : RKind.ofCode kind.toNat = some k) (hb : rn.toNat + (rcnt.toNat + 1) ≤ 4 * (s.ctx c).reamreq)
    (hruns : (s.ctx c).runs = []) : s.actRclr c t (rclrWord rn rcnt kind)
      = s.setCh (s.ctx c).chan (((List.range (rcnt.toNat + 1)).map ((s.ctx c).reambase + rn.toNat + ·)).foldl
          (fun h p => h.setReam p ⟨RPart.clear k, none⟩) (s.ch (s.ctx c).chan)) := by
  have hfree : ∀ p, (s.ch (s.ctx c).chan).heldOpen (s.ctx c) p = false := by
    intro p
    rw [Channel.heldOpen, hruns]
    split <;> rfl
  rw [State.actRclr]
  simp only [(rclrWord_fields rn rcnt kind).2.1, block_of_le hb, hk]
  refine if_neg ?_
  simp only [List.any_eq_true, hfree, Bool.false_eq_true, and_false, exists_false, not_false_iff]

end

theorem act_rclr (s : State) (c : Nat) (t : Site) (rn rcnt : BitVec 8) (kind : BitVec 3) :
    s.act c t (rclrWord rn rcnt kind) = s.actRclr c t (rclrWord rn rcnt kind) := by
  rw [State.act, opOf_rclrWord]

theorem exec_rclr {s : State} {c : CtxId} {m : TenId} {kind : BitVec 3} (h : ActsAtOnce s c.val m.val) (hk : kind.toNat ≤ 4)
    (rn rcnt : BitVec 8) : exec (.rclr c m rn rcnt kind) s
      = .next ((((wordPoint s c.val).setCtx c.val ((wordPoint s c.val).ctx c.val)).actRclr c.val Site.direct (rclrWord rn rcnt kind)).settleState c.val) := by
  rw [exec, execRclr, port_reached h.1, direct_of_actsAtOnce h (directCheck_rclrWord rn rcnt hk) (.inl (opOf_rclrWord ..)), act_rclr]

theorem toNat_ofNat_of_lt_64 {w n : Nat} (hw : 64 ≤ w) (hn : n < 2 ^ 64) : (BitVec.ofNat w n).toNat = n :=
  (BitVec.toNat_ofNat ..).trans (Nat.mod_eq_of_lt (hn.trans_le (Nat.pow_le_pow_right Nat.zero_lt_two hw)))

theorem recWord_toNat {v pos : Nat} (hv : v < 2 ^ 32) (hp : pos < 2 ^ 32) : (recWord v pos).toNat = pos * 2 ^ 32 + v :=
  toNat_ofNat_of_lt_64 (by decide) (by omega)

/-- A record of MAX or MIN reads back its position (R97). -/
theorem recPos_recWord {r : RPart} {v pos : Nat} (hv : v < 2 ^ 32) (hp : pos < 2 ^ 32) (hw : r.w = recWord v pos) : r.recPos = pos := by
  rw [RPart.recPos, hw, recWord_toNat hv hp, Nat.shiftRight_eq_div_pow]
  omega

/-- A clear leaves nothing but a kind, its offset and its empty record (R80, R97). -/
theorem clear_contents (k : RKind) : let p := RPart.clear k
    p.kind = k ∧ p.tally = 0 ∧ p.nan = false ∧ p.pinf = false ∧ p.ninf = false ∧ p.csat = false ∧ p.trim = false
      ∧ p.offset = (if k = .exp then -8388607 else 0) ∧ (k = .unset ∨ k = .sum ∨ k = .exp → p.w = 0)
      ∧ (k = .max ∨ k = .min → p.recPos = 0xFFFFFFFF) := by
  refine ⟨rfl, rfl, rfl, rfl, rfl, rfl, rfl, rfl, ?_, ?_⟩
  · rintro (rfl | rfl | rfl) <;> rfl
  · rintro (rfl | rfl)
    · exact recPos_recWord (v := 0xFF800000) (by decide) (by decide) rfl
    · exact recPos_recWord (v := 0x7F800000) (by decide) (by decide) rfl

theorem operandFault_of_own {c opcode flsb : Nat} {p t : State} (h : OperandFault c opcode flsb (p.setCtx c (p.ctx c)) t) :
    OperandFault c opcode flsb p t := by
  simpa only [OperandFault, State.setCtx_ctx_same, State.setCtx_tenant] using h

end Sys2Proof.Machine

namespace Sys2Proof
open Sys2Proof.Machine Sys2Proof.Safety

/-- Settles O35, by the three ends of RCLR. -/
theorem rclrClearsItsReams : Obligations.RclrClearsItsReams := by
  refine ⟨?_, ?_, clear_contents⟩
  · intro s c m rn rcnt kind k h hk
    have hx : ((wordPoint s c.val).setCtx c.val ((wordPoint s c.val).ctx c.val)).ctx c.val = (wordPoint s c.val).ctx c.val :=
      State.setCtx_ctx_same ..
    have hexec := exec_rclr h (kind_le_of_ofCode hk) rn rcnt
    obtain ⟨-, -, -, hst, hruns, -⟩ := h
    intro p x
    refine ⟨fun hb => ?_, fun hb => ?_⟩
    · rw [actRclr_free _ _ _ _ _ _ hk (by rw [hx]; omega) (by rw [hx, hruns]), hx] at hexec
      rw [settleState_of_not_running (by rw [State.setCh_ctx, hx, hst]; decide)] at hexec
      refine ⟨_, hexec, fun i => ?_, ?_, ?_, ?_⟩
      · rw [State.setCh_ch_same, foldl_setReam_ream]
        simp only [mem_map_range_add]
        refine if_congr ?_ rfl rfl
        change x.reambase + _ ≤ i ∧ i < x.reambase + _ + _ ↔ _
        omega
      · rw [State.setCh_ch_same, foldl_setReam_frame]; rfl
      · rw [State.setCh_ctx, hx]
      · exact setCh_setCtx_onlyCtxCh ..
    · rw [actRclr_outside _ _ _ _ _ _ (by rw [hx]; omega)] at hexec
      have hf := fault_taken (c := c.val) 0x02 (ifltWord true Site.direct.src Site.direct.index 0x90 112)
        (.inl (by rw [hx]; exact hst) : _ ∨ (((wordPoint s c.val).setCtx c.val ((wordPoint s c.val).ctx c.val)).ctx c.val).st = .running)
      rw [settleState_of_not_running (by rw [hf.1]; decide)] at hexec
      exact ⟨_, hexec, operandFault_of_own (operandFault_of_faultTaken hf rfl rfl)⟩
  · intro s c place rn rcnt kind i q r x hst hk hb hi hq hr hser
    have hheld : (s.ch x.chan).heldOpen x (x.reambase + rn.toNat + i) = true := by
      rw [Channel.heldOpen, hq]
      exact List.any_eq_true.mpr ⟨r, hr, by rw [hser, beq_self_eq_true]⟩
    have hcode : ∃ k, RKind.ofCode kind.toNat = some k := by
      interval_cases kind.toNat <;> exact ⟨_, rfl⟩
    obtain ⟨k, hk⟩ := hcode
    rw [act_rclr, actRclr_held s c.val place rn rcnt kind hk (by omega) hi hheld]
    exact fault_taken 0x02 _ hst

end Sys2Proof
end

section
/-! SUPPORT. Result beats: the Reel cycles that are free (R320), their place in the egress buffer, and the beats of ream records (R101, R350,
R351). -/
namespace Sys2Proof.Machine
open Sys2Proof.Safety

/-! ### Free Reel cycles -/

/-- Among more cycles than there are reservations one is free. -/
theorem exists_free_reel (h : Channel) (cc : Nat) : ∃ i < h.egress.length + h.reelRes.length + 1, h.reelTaken (cc + i) = false := by
  by_contra hall
  push Not at hall
  let busy : Finset Nat := (h.egress.map (fun b => b.due) ++ h.reelRes.map (fun r => r.cc)).toFinset
  have hbusy : busy.card ≤ h.egress.length + h.reelRes.length := by
    refine (List.toFinset_card_le _).trans (le_of_eq ?_)
    rw [List.length_append, List.length_map, List.length_map]
  have hsub : (Finset.range (h.egress.length + h.reelRes.length + 1)).image (cc + ·) ⊆ busy := by
    intro x hx
    obtain ⟨i, hi, rfl⟩ := Finset.mem_image.mp hx
    have ht : h.reelTaken (cc + i) = true := by simpa using hall i (Finset.mem_range.mp hi)
    simpa [busy, Channel.reelTaken] using ht
  have hcard := Finset.card_le_card hsub
  rw [Finset.card_image_of_injective _ (add_right_injective cc), Finset.card_range] at hcard
  omega

theorem nextReel_free (h : Channel) (cc : Nat) : cc ≤ h.nextReel cc ∧ h.reelTaken (h.nextReel cc) = false := by
  unfold Channel.nextReel
  cases hf : (List.range (h.egress.length + h.reelRes.length + 1)).find? fun i => !h.reelTaken (cc + i) with
  | none =>
    obtain ⟨i, hi, hfree⟩ := exists_free_reel h cc
    have := List.find?_eq_none.mp hf i (List.mem_range.mpr hi)
    simp [hfree] at this
  | some i => exact ⟨Nat.le_add_right .., by simpa using List.find?_some hf⟩

theorem not_due_of_free {h : Channel} {cc : Nat} (hf : h.reelTaken cc = false) : ∀ q ∈ h.egress, q.due ≠ cc := by
  intro q hq hcc
  have : h.reelTaken cc = true := by simp [Channel.reelTaken, show ∃ b ∈ h.egress, b.due = cc from ⟨q, hq, hcc⟩]
  rw [hf] at this
  cases this

theorem length_freeReel (h : Channel) (n : Nat) : ∀ cc, (h.freeReel cc n).length = n := by
  induction n with
  | zero => exact fun cc => rfl
  | succ n ih => exact fun cc => congrArg (· + 1) (ih _)

theorem freeReel_free (h : Channel) (n : Nat) : ∀ cc, ∀ k ∈ h.freeReel cc n, cc ≤ k ∧ h.reelTaken k = false := by
  induction n with
  | zero => exact fun cc k hk => absurd hk List.not_mem_nil
  | succ n ih =>
    intro cc k hk
    obtain ⟨hle, hfree⟩ := nextReel_free h cc
    rcases List.mem_cons.mp hk with rfl | hk
    · exact ⟨hle, hfree⟩
    · obtain ⟨h1, h2⟩ := ih _ k hk
      exact ⟨by omega, h2⟩

theorem freeReel_sorted (h : Channel) (n : Nat) : ∀ cc, (h.freeReel cc n).Pairwise (· ≤ ·) := by
  induction n with
  | zero => exact fun cc => List.Pairwise.nil
  | succ n ih => exact fun cc => List.pairwise_cons.mpr ⟨fun k hk => by have := (freeReel_free h n _ k hk).1; omega, ih _⟩

/-! ### Beats in the egress buffer -/

theorem insertReel_split (b : ReelBeat) (l : List ReelBeat) :
    ∃ l₁ l₂, l = l₁ ++ l₂ ∧ insertReel b l = l₁ ++ b :: l₂ ∧ ∀ a ∈ l₁, a.due ≤ b.due := by
  induction l with
  | nil => exact ⟨[], [], rfl, rfl, by simp⟩
  | cons a l ih =>
    by_cases h : b.due < a.due
    · exact ⟨[], a :: l, rfl, if_pos h, by simp⟩
    · obtain ⟨l₁, l₂, rfl, hins, hle⟩ := ih
      refine ⟨a :: l₁, l₂, rfl, ?_, ?_⟩
      · rw [insertReel, if_neg h, hins]; rfl
      · exact List.forall_mem_cons.mpr ⟨Nat.le_of_not_lt h, hle⟩

theorem insertReel_append {b : ReelBeat} {pre : List ReelBeat} (h : ∀ a ∈ pre, a.due ≤ b.due) (l : List ReelBeat) :
    insertReel b (pre ++ l) = pre ++ insertReel b l := by
  induction pre with
  | nil => rfl
  | cons a pre ih =>
    obtain ⟨ha, hpre⟩ := List.forall_mem_cons.mp h
    rw [List.cons_append, insertReel, if_neg (Nat.not_lt.mpr ha), ih hpre, List.cons_append]

/-- Beats with a property, which those that stood there have not, inserted in ascending cycles: they stand in their order, and the others
stand as they did. -/
theorem foldl_insertReel_filter (P : ReelBeat → Bool) (bs : List ReelBeat) : ∀ pre post : List ReelBeat,
    (∀ b ∈ bs, P b = true) → (bs.Pairwise fun a b => a.due ≤ b.due) → (∀ a ∈ pre, ∀ b ∈ bs, a.due ≤ b.due) → (∀ a ∈ post, P a = false) →
    (bs.foldl (fun e b => insertReel b e) (pre ++ post)).filter P = pre.filter P ++ bs
      ∧ (bs.foldl (fun e b => insertReel b e) (pre ++ post)).filter (fun b => !P b) = (pre ++ post).filter fun b => !P b := by
  induction bs with
  | nil =>
    intro pre post _ _ _ hpost
    have h0 : post.filter P = [] := List.filter_eq_nil_iff.mpr fun a ha => by rw [hpost a ha]; decide
    exact ⟨by rw [List.foldl_nil, List.filter_append, h0], rfl⟩
  | cons b bs ih =>
    intro pre post hP hs hpre hpost
    obtain ⟨hPb, hPbs⟩ := List.forall_mem_cons.mp hP
    obtain ⟨hb, hbs⟩ := List.pairwise_cons.mp hs
    obtain ⟨l₁, l₂, rfl, hins, hle⟩ := insertReel_split b post
    have h1 : l₁.filter P = [] := List.filter_eq_nil_iff.mpr fun a ha => by rw [hpost a (List.mem_append_left _ ha)]; decide
    have hstep : insertReel b (pre ++ (l₁ ++ l₂)) = (pre ++ l₁ ++ [b]) ++ l₂ := by
      rw [insertReel_append (fun a ha => hpre a ha b (List.mem_cons_self ..)), hins]
      simp
    rw [List.foldl_cons, hstep]
    obtain ⟨ih1, ih2⟩ := ih (pre ++ l₁ ++ [b]) l₂ hPbs hbs (fun a ha c hc => by
        simp only [List.mem_append, List.mem_singleton] at ha
        rcases ha with (ha | ha) | rfl
        · exact hpre a ha c (List.mem_cons_of_mem _ hc)
        · exact (hle a ha).trans (hb c hc)
        · exact hb c hc) (fun a ha => hpost a (List.mem_append_right _ ha))
    rw [ih1, ih2]
    simp [List.filter_append, h1, hPb]

/-- Beats that a buffer does not hold, added in ascending cycles. -/
theorem addReel_filter {h : Channel} {bs : List ReelBeat} (hn : ∀ b ∈ bs, b ∉ h.egress) (hs : bs.Pairwise fun a b => a.due ≤ b.due) :
    newBeats h.egress (h.addReel bs).egress = bs
      ∧ (h.addReel bs).egress.filter (fun b => h.egress.contains b) = h.egress := by
  obtain ⟨h1, h2⟩ := foldl_insertReel_filter (fun b => !h.egress.contains b) bs [] h.egress (fun b hb => by simpa using hn b hb) hs
    (by simp) (fun a ha => by simpa using ha)
  refine ⟨h1, ?_⟩
  simp only [Bool.not_not, List.nil_append] at h2
  exact h2.trans (List.filter_eq_self.mpr fun a ha => by simpa using ha)

theorem addReel_frame (h : Channel) (bs : List ReelBeat) : { h.addReel bs with egress := h.egress } = h := rfl

/-! ### Changes at the ends of a list -/

section
variable {α : Type} (f : α → α)

theorem mapFirst_getElem? (l : List α) (j : Nat) : (mapFirst f l)[j]? = l[j]?.map fun a => if j = 0 then f a else a := by
  cases l with
  | nil => rfl
  | cons a l => cases j with
    | zero => rfl
    | succ j => simp [mapFirst]

theorem length_mapFirst (l : List α) : (mapFirst f l).length = l.length := by cases l <;> rfl

theorem length_mapLast (l : List α) : (mapLast f l).length = l.length := by
  induction l with
  | nil => rfl
  | cons a l ih => cases l with
    | nil => rfl
    | cons b l => exact congrArg (· + 1) ih

theorem mapLast_getElem? (l : List α) : ∀ j, (mapLast f l)[j]? = l[j]?.map fun a => if j + 1 = l.length then f a else a := by
  induction l with
  | nil => exact fun j => rfl
  | cons a l ih => cases l with
    | nil =>
      intro j
      cases j <;> rfl
    | cons b l =>
      intro j
      cases j with
      | zero => simp [mapLast]
      | succ j => simpa [mapLast] using ih j

end

/-! ### Lists in pieces -/

theorem chunks_flatten {α : Type} (n fuel : Nat) (hn : 0 < n) : ∀ l : List α, l.length ≤ fuel → (chunks n fuel l).flatten = l := by
  induction fuel with
  | zero => exact fun l hl => (List.length_eq_zero_iff.mp (Nat.le_zero.mp hl)) ▸ rfl
  | succ fuel ih =>
    intro l hl
    cases l with
    | nil => rfl
    | cons a l =>
      have hd : ((a :: l).drop n).length ≤ fuel := by simp only [List.length_drop, List.length_cons] at hl ⊢; omega
      rw [chunks, List.isEmpty_cons, if_neg Bool.false_ne_true, List.flatten_cons, ih _ hd, List.take_append_drop]

theorem chunks_getElem? {α : Type} (n fuel : Nat) (hn : 0 < n) : ∀ (l : List α) (j : Nat), l.length ≤ fuel →
    (chunks n fuel l)[j]? = if n * j < l.length then some ((l.drop (n * j)).take n) else none := by
  induction fuel with
  | zero =>
    intro l j hl
    rw [List.length_eq_zero_iff.mp (Nat.le_zero.mp hl)]
    simp [chunks]
  | succ fuel ih =>
    intro l j hl
    cases l with
    | nil => simp [chunks]
    | cons a l =>
      have hd : ((a :: l).drop n).length ≤ fuel := by simp only [List.length_drop, List.length_cons] at hl ⊢; omega
      rw [chunks, List.isEmpty_cons, if_neg Bool.false_ne_true]
      cases j with
      | zero => simp
      | succ j =>
        rw [List.getElem?_cons_succ, ih _ _ hd, List.drop_drop, List.length_drop, Nat.mul_succ, Nat.add_comm n]
        exact if_congr (by omega) rfl rfl

theorem length_chunks {α : Type} (n fuel : Nat) (hn : 0 < n) (l : List α) (hl : l.length ≤ fuel) :
    (chunks n fuel l).length = (l.length + (n - 1)) / n := by
  have hnone : ∀ j, (chunks n fuel l).length ≤ j ↔ l.length ≤ n * j := by
    intro j
    rw [← List.getElem?_eq_none_iff, chunks_getElem? n fuel hn l j hl]
    simp
  refine Nat.le_antisymm ((hnone _).mpr ?_) ?_
  · have := Nat.div_add_mod (l.length + (n - 1)) n
    have := Nat.mod_lt (l.length + (n - 1)) hn
    omega
  · rw [Nat.div_le_iff_le_mul_add_pred hn]
    have := (hnone _).mp (Nat.le_refl _)
    omega

theorem getElem_piece {α : Type} (a : Nat → α) (n m j i : Nat) (hi : i < ((((List.range n).map a).drop j).take m).length) :
    ((((List.range n).map a).drop j).take m)[i] = a (j + i) := by
  rw [List.getElem_take, List.getElem_drop, List.getElem_map, List.getElem_range]

/-! ### Beats of ream records -/

/-- A slot of a beat whose slots are a function of their place. -/
theorem slotOf_of_data {b : ReelBeat} {n : Nat} {f : Nat → Nat} (h : b.data = nonZero ((List.range n).map fun k => (k, f k))) {k : Nat}
    (hk : k < n) : slotOf b k = f k := by
  have hfind : b.data.find? (fun v => v.1 == k) = (if f k = 0 then none else some (k, f k)) := by
    rw [h, nonZero, List.find?_filter, List.find?_map]
    by_cases h0 : f k = 0
    · rw [if_pos h0, Option.map_eq_none_iff, List.find?_eq_none]
      intro i _ hi
      simp only [Function.comp_apply, bne_iff_ne, beq_iff_eq, decide_eq_true_eq] at hi
      exact hi.1 (hi.2 ▸ h0)
    · rw [if_neg h0]
      cases hf : (List.range n).find? ((fun v => decide ((v.2 != 0) = true ∧ (v.1 == k) = true)) ∘ fun k => (k, f k)) with
      | none => simpa [h0] using List.find?_eq_none.mp hf k (List.mem_range.mpr hk)
      | some i =>
        have hi := List.find?_some hf
        simp only [Function.comp_apply, bne_iff_ne, beq_iff_eq, decide_eq_true_eq] at hi
        rw [Option.map_some, hi.2]
  rw [slotOf, hfind]
  split_ifs with h0
  · exact h0.symm
  · rfl

theorem length_record (a : RPart) : a.record.length = 11 := rfl

theorem length_records (rs : List RPart) : (rs.flatMap RPart.record).length = 11 * rs.length := by
  induction rs with
  | nil => rfl
  | cons a rs ih => rw [List.flatMap_cons, List.length_append, ih, length_record, List.length_cons]; omega

theorem records_getD (rs : List RPart) (t : Nat) (ht : t < 11) : ∀ (i : Nat) (hi : i < rs.length),
    (rs.flatMap RPart.record).getD (11 * i + t) 0 = rs[i].record.getD t 0 := by
  induction rs with
  | nil => exact fun i hi => absurd hi (Nat.not_lt_zero i)
  | cons a rs ih =>
    intro i hi
    cases i with
    | zero => rw [List.flatMap_cons, Nat.mul_zero, Nat.zero_add, List.getD_append _ _ _ _ (by rw [length_record]; exact ht)]; rfl
    | succ i =>
      rw [List.flatMap_cons, List.getD_append_right _ _ _ _ (by rw [length_record]; omega), length_record,
        show 11 * (i + 1) + t - 11 = 11 * i + t by omega, ih i (Nat.lt_of_succ_lt_succ hi)]
      rfl

theorem record_getD (a : RPart) {t : Nat} (ht : t < 11) : a.record.getD t 0 = if t = 0 then a.desc else a.limb (10 - t) := by
  interval_cases t <;> rfl

/-- The slots of a beat of ream records (R351). -/
theorem slotOf_recordBeat (b : ReelBeat) (rs : List RPart) {i k : Nat} (hi : i < rs.length) (hk : k < 44) :
    slotOf (recordBeat b rs) (44 * i + k) = recordPiece rs[i] k := by
  have hlen := length_records rs
  rw [slotOf_of_data (n := 4 * (rs.flatMap RPart.record).length)
    (f := fun k => (((rs.flatMap RPart.record).getD (k / 4) 0).toNat >>> (16 * (k % 4))) % 65536) rfl (by omega)]
  rw [show (44 * i + k) / 4 = 11 * i + k / 4 by omega, show (44 * i + k) % 4 = k % 4 by omega, records_getD rs (k / 4) (by omega) i hi,
    record_getD _ (by omega), recordPiece]
  exact congrArg (fun v : Reg => (v.toNat >>> (16 * (k % 4))) % 65536) (if_congr (by omega) rfl rfl)

/-! ### A stream of ream records -/

section
variable {α β : Type} {f : α → α} {g : α → β} (hg : ∀ a, g (f a) = g a)
include hg

theorem map_mapFirst (l : List α) : (mapFirst f l).map g = l.map g := by
  cases l with
  | nil => rfl
  | cons a l => rw [mapFirst, List.map_cons, hg, List.map_cons]

theorem map_mapLast (l : List α) : (mapLast f l).map g = l.map g := by
  induction l with
  | nil => rfl
  | cons a l ih => cases l with
    | nil => exact congrArg (· :: []) (hg a)
    | cons b l => exact congrArg (g a :: ·) ih

end

theorem map_due_dated {bs : List ReelBeat} {ccs : List Nat} (h : bs.length = ccs.length) : (dated bs ccs).map (fun b => b.due) = ccs := by
  rw [dated, List.map_map]
  exact List.map_snd_zip (Nat.le_of_eq h.symm)

theorem map_nrec_dated {bs : List ReelBeat} {ccs : List Nat} (h : bs.length = ccs.length) :
    (dated bs ccs).map (fun b => b.nrec) = bs.map fun b => b.nrec := by
  rw [dated, List.map_map, ← List.map_fst_zip (Nat.le_of_eq h), List.map_map]
  rw [List.map_fst_zip (Nat.le_of_eq h)]
  rfl

theorem dated_getElem? {bs : List ReelBeat} {ccs : List Nat} {j : Nat} {b : ReelBeat} (h : (dated bs ccs)[j]? = some b) :
    ∃ a cc, bs[j]? = some a ∧ ccs[j]? = some cc ∧ b = { a with due := cc } := by
  rw [dated, List.getElem?_map, Option.map_eq_some_iff] at h
  obtain ⟨⟨a, cc⟩, hz, rfl⟩ := h
  obtain ⟨ha, hc⟩ := List.getElem?_zip_eq_some.mp hz
  exact ⟨a, cc, ha, hc, rfl⟩

theorem mark_sot (p : Prop) [Decidable p] {b : ReelBeat} (hb : b.sot = false) :
    (if p then { b with sot := true } else b) = { b with sot := decide p } := by
  split_ifs with h
  · rw [decide_eq_true h]
  · rw [decide_eq_false h, ← hb]

theorem mark_eot (p : Prop) [Decidable p] {b : ReelBeat} (hb : b.eot = false) :
    (if p then { b with eot := true } else b) = { b with eot := decide p } := by
  split_ifs with h
  · rw [decide_eq_true h]
  · rw [decide_eq_false h, ← hb]

/-- The beats of REXP for some committed parts, from the cc in which it acts (R101, R306, R350). -/
def Channel.recordStream (h : Channel) (c ten : Nat) (rs : List RPart) : List ReelBeat :=
  let gs := chunks 23 rs.length rs
  mapFirst (fun b => { b with sot := true }) (mapLast (fun b => { b with eot := true })
    (dated (gs.map fun g => recordBeat (blankBeat c ten 0 none) g) (h.freeReel (h.cyc + 4) gs.length)))

section
variable (h : Channel) (c ten : Nat) (rs : List RPart)

theorem recordStream_dues : (h.recordStream c ten rs).map (fun b => b.due) = h.freeReel (h.cyc + 4) (chunks 23 rs.length rs).length := by
  rw [Channel.recordStream, map_mapFirst (by exact fun _ => rfl), map_mapLast (by exact fun _ => rfl),
    map_due_dated (by rw [List.length_map, length_freeReel])]

theorem length_recordStream : (h.recordStream c ten rs).length = (rs.length + 22) / 23 := by
  rw [← List.length_map (f := fun b : ReelBeat => b.due), recordStream_dues, length_freeReel, length_chunks 23 _ (by decide) _ (Nat.le_refl _)]

theorem recordStream_nrec : ((h.recordStream c ten rs).map fun b => b.nrec).sum = rs.length := by
  rw [Channel.recordStream, map_mapFirst (by exact fun _ => rfl), map_mapLast (by exact fun _ => rfl),
    map_nrec_dated (by rw [List.length_map, length_freeReel]), List.map_map]
  conv_rhs => rw [← chunks_flatten 23 rs.length (by decide) rs (Nat.le_refl _), List.length_flatten]
  rfl

/-- A beat of the stream: its records, its cycle and its marks. -/
theorem recordStream_getElem? {j : Nat} {b : ReelBeat} (hb : (h.recordStream c ten rs)[j]? = some b) :
    23 * j < rs.length ∧ ∃ cc ∈ h.freeReel (h.cyc + 4) (chunks 23 rs.length rs).length,
      b = { recordBeat (blankBeat c ten 0 none) ((rs.drop (23 * j)).take 23) with
        due := cc, sot := decide (j = 0), eot := decide (j + 1 = (h.recordStream c ten rs).length) } := by
  have hlen : (h.recordStream c ten rs).length = (dated ((chunks 23 rs.length rs).map fun g => recordBeat (blankBeat c ten 0 none) g)
      (h.freeReel (h.cyc + 4) (chunks 23 rs.length rs).length)).length := by
    rw [Channel.recordStream, length_mapFirst, length_mapLast]
  rw [hlen]
  simp only [Channel.recordStream, mapFirst_getElem?, mapLast_getElem?, Option.map_eq_some_iff] at hb
  obtain ⟨_, ⟨b', hb', rfl⟩, rfl⟩ := hb
  obtain ⟨a, cc, ha, hc, rfl⟩ := dated_getElem? hb'
  rw [List.getElem?_map, chunks_getElem? 23 _ (by decide) _ _ (Nat.le_refl _)] at ha
  split at ha
  · rename_i hj
    obtain rfl := Option.some.inj ha
    refine ⟨hj, cc, List.mem_of_getElem? hc, ?_⟩
    rw [mark_eot _ rfl, mark_sot _ rfl]
  · cases ha

theorem recordStream_new : ∀ b ∈ h.recordStream c ten rs, h.cyc + 4 ≤ b.due ∧ ∀ q ∈ h.egress, q.due ≠ b.due := by
  intro b hb
  have hd : b.due ∈ h.freeReel (h.cyc + 4) (chunks 23 rs.length rs).length := recordStream_dues h c ten rs ▸ List.mem_map_of_mem hb
  obtain ⟨hle, hfree⟩ := freeReel_free _ _ _ _ hd
  exact ⟨hle, not_due_of_free hfree⟩

theorem addReel_recordStream_filter : newBeats h.egress (h.addReel (h.recordStream c ten rs)).egress = h.recordStream c ten rs
    ∧ (h.addReel (h.recordStream c ten rs)).egress.filter (fun b => h.egress.contains b) = h.egress := by
  refine addReel_filter (fun b hb hmem => (recordStream_new h c ten rs b hb).2 b hmem rfl) ?_
  have := freeReel_sorted h (chunks 23 rs.length rs).length (h.cyc + 4)
  rwa [← recordStream_dues h c ten rs, List.pairwise_map] at this

end

/-! ### REXP -/

section
variable (s : State) (c : Nat) (rn rcnt : BitVec 8)

theorem act_rexp (t : Site) : s.act c t (rexpWord rn rcnt) = s.actRexp c t (rexpWord rn rcnt) := by
  rw [State.act, opOf_rexpWord]

theorem siteFault_rexp : s.siteFault c Site.direct (rexpWord rn rcnt) 112 = s.fault c 0x02 (ifltWord true 0 0 0x91 112) := by
  rw [State.siteFault, State.ifault, (rexpWord_fields rn rcnt).1]; rfl

/-- The committed parts that an REXP names. -/
def State.rexpParts (s : State) (c rn n : Nat) : List RPart :=
  (List.range n).map fun i => ((s.ch (s.ctx c).chan).ream ((s.ctx c).reambase + rn + i)).com

theorem actRexp_eq {w : IWord} {r : ReamW} (hw : ReamW.ofWord w = r) (hb : r.rn + (r.rcnt + 1) ≤ 4 * (s.ctx c).reamreq) :
    s.actRexp c Site.direct w =
      if (s.rexpParts c r.rn (r.rcnt + 1)).any (fun p => p.kind == .unset) then s.siteFault c Site.direct w 112
      else
        let h := s.ch (s.ctx c).chan
        let gs := chunks 23 (s.rexpParts c r.rn (r.rcnt + 1)).length (s.rexpParts c r.rn (r.rcnt + 1))
        s.present c none (dated (gs.map fun g => recordBeat (blankBeat c (s.ctx c).ten 0 none) g) (h.freeReel (h.cyc + 4) gs.length)) := by
  simp only [State.actRexp, hw, block_of_le hb, List.map_map, State.rexpParts]
  rfl

/-- REXP outside the block, or of a ream that is UNSET. -/
theorem actRexp_illegal (h : 4 * (s.ctx c).reamreq < rn.toNat + (rcnt.toNat + 1)
      ∨ ∃ i ≤ rcnt.toNat, ((s.ch (s.ctx c).chan).ream ((s.ctx c).reambase + rn.toNat + i)).com.kind = .unset) :
    s.actRexp c Site.direct (rexpWord rn rcnt) = s.fault c 0x02 (ifltWord true 0 0 0x91 112) := by
  rw [← siteFault_rexp s c rn rcnt]
  by_cases hb : 4 * (s.ctx c).reamreq < rn.toNat + (rcnt.toNat + 1)
  · rw [State.actRexp]
    simp only [(rexpWord_fields rn rcnt).2.1, block_of_lt hb]
  · obtain ⟨i, hi, hu⟩ := h.resolve_left hb
    rw [actRexp_eq s c (rexpWord_fields rn rcnt).2.1 (by simp only; omega)]
    refine if_pos (List.any_eq_true.mpr ⟨_, List.mem_map_of_mem (List.mem_range.mpr (show i < rcnt.toNat + 1 by omega)), ?_⟩)
    rw [hu]; rfl

/-- REXP of reams that have kinds. -/
theorem actRexp_legal (hb : rn.toNat + (rcnt.toNat + 1) ≤ 4 * (s.ctx c).reamreq)
    (hk : ∀ i ≤ rcnt.toNat, ((s.ch (s.ctx c).chan).ream ((s.ctx c).reambase + rn.toNat + i)).com.kind ≠ .unset) :
    s.actRexp c Site.direct (rexpWord rn rcnt) = s.setCh (s.ctx c).chan ((s.ch (s.ctx c).chan).addReel
      ((s.ch (s.ctx c).chan).recordStream c (s.ctx c).ten (s.rexpParts c rn.toNat (rcnt.toNat + 1)))) := by
  have hany : (s.rexpParts c rn.toNat (rcnt.toNat + 1)).any (fun p => p.kind == .unset) = false := by
    refine List.any_eq_false.mpr fun p hp => ?_
    obtain ⟨i, hi, rfl⟩ := List.mem_map.mp hp
    simpa using hk i (Nat.lt_succ_iff.mp (List.mem_range.mp hi))
  have hne : (s.ch (s.ctx c).chan).recordStream c (s.ctx c).ten (s.rexpParts c rn.toNat (rcnt.toNat + 1)) ≠ [] := by
    rw [← List.length_pos_iff, length_recordStream, State.rexpParts, List.length_map, List.length_range]
    omega
  rw [actRexp_eq s c (rexpWord_fields rn rcnt).2.1 hb, hany, if_neg Bool.false_ne_true, State.present, if_neg ?_]
  · rfl
  · intro he
    refine hne ?_
    rw [Channel.recordStream, List.isEmpty_iff.mp he]
    rfl

end

theorem exec_rexp {s : State} {c : CtxId} {m : TenId} (h : ActsAtOnce s c.val m.val) (rn rcnt : BitVec 8) :
    exec (.rexp c m rn rcnt) s = .next ((((wordPoint s c.val).setCtx c.val ((wordPoint s c.val).ctx c.val)).actRexp c.val Site.direct
      (rexpWord rn rcnt)).settleState c.val) := by
  rw [exec, execRexp, port_reached h.1, direct_of_actsAtOnce h (directCheck_rexpWord rn rcnt) (.inr (opOf_rexpWord ..)), act_rexp]

end Sys2Proof.Machine

namespace Sys2Proof
open Sys2Proof.Machine Sys2Proof.Safety

/-- Settles O36, by the two ends of REXP. -/
theorem rexpEmitsOneRecordPerReam : Obligations.RexpEmitsOneRecordPerReam := by
  intro s c m rn rcnt h
  have hexec := exec_rexp h rn rcnt
  obtain ⟨-, -, -, hst, -⟩ := h
  intro p x a
  have hx : (p.setCtx c.val x).ctx c.val = x := State.setCtx_ctx_same ..
  refine ⟨fun hb hk => ?_, fun hbad => ?_⟩
  · rw [actRexp_legal _ _ _ _ (by rw [hx]; omega) (by rw [hx]; exact hk), hx] at hexec
    rw [settleState_of_not_running (by rw [State.setCh_ctx, hx, hst]; decide)] at hexec
    refine ⟨_, hexec, ?_⟩
    have hparts : (p.setCtx c.val x).rexpParts c.val rn.toNat (rcnt.toNat + 1) = (List.range (rcnt.toNat + 1)).map a := by
      rw [State.rexpParts, hx]; rfl
    have hlen : ((List.range (rcnt.toNat + 1)).map a).length = rcnt.toNat + 1 := by rw [List.length_map, List.length_range]
    rw [hparts, State.setCh_ch_same, State.setCtx_ch]
    obtain ⟨hnew, hold⟩ := addReel_recordStream_filter (p.ch x.chan) c.val x.ten ((List.range (rcnt.toNat + 1)).map a)
    refine ⟨hold, ?_, addReel_frame .., ?_, ?_⟩
    · rw [hnew]
      dsimp only
      rw [length_recordStream, recordStream_nrec, hlen]
      refine ⟨rfl, rfl, fun j b hj => ?_⟩
      have hlater := recordStream_new _ _ _ _ b (List.mem_of_getElem? hj)
      obtain ⟨hlt, cc, -, rfl⟩ := recordStream_getElem? _ _ _ _ hj
      rw [length_recordStream, hlen] at hlater ⊢
      have hnrec : (((List.range (rcnt.toNat + 1)).map a).drop (23 * j) |>.take 23).length = min 23 (rcnt.toNat + 1 - 23 * j) := by
        rw [List.length_take, List.length_drop, hlen]
      refine ⟨rfl, rfl, rfl, rfl, rfl, rfl, rfl, hnrec, rfl, decide_eq_true_iff, decide_eq_true_iff, hlater.1, hlater.2, fun i hi k hk => ?_⟩
      exact (slotOf_recordBeat (blankBeat c.val x.ten 0 none) _ hi hk).trans (congrArg (recordPiece · k) (getElem_piece a _ _ _ _ hi))
    · rw [State.setCh_ctx, hx]
    · exact setCh_setCtx_onlyCtxCh ..
  · rw [actRexp_illegal _ _ _ _ (by rw [hx]; exact hbad.imp (by omega) id)] at hexec
    have hf := fault_taken (s := p.setCtx c.val x) (c := c.val) 0x02 (ifltWord true 0 0 0x91 112) (.inl (by rw [hx]; exact hst))
    rw [settleState_of_not_running (by rw [hf.1]; decide)] at hexec
    exact ⟨_, hexec, operandFault_of_own (operandFault_of_faultTaken hf rfl rfl)⟩

end Sys2Proof
end

section
/-! SUPPORT. A DISCARD of an open first pass before an open second pass of the same units: with the first pass gone nothing adds to the reams
that the second closes again, and it keeps their committed parts (R159, log 102). -/
namespace Sys2Proof.Machine
open Sys2Proof.Safety

/-- A program of two passes: FLOW and ROW over one unit of two reams, from ream 0 on. -/
def twoPassProg : Prog := ⟨[mkWord 0xF0 [(2, 101)], mkWord 0x10 [], mkWord 0x40 []]⟩

/-- A pass of it that has started, with its rows counted from 0. -/
def openPass (ser pseq : Nat) (pass2 : Bool) : Run :=
  { newRun Ctx.reset ser 0 ⟨false, false, false, pseq, 0, 0, 0, pass2⟩ with phase := .started, base := some 0, prog := twoPassProg, holds := true }

/-- A context with the first pass and the second under way. -/
def twoPassCtx : Ctx := { Ctx.reset with st := .running, reamreq := 1, runs := [openPass 1 7 false, openPass 2 8 true] }

/-- That context alone, on channel 0. -/
def twoPassState : State :=
  { State.reset with
    chans := [(0, { Channel.reset with st := .ready, alloc := [⟨0, 0, 0, 4, 0⟩] })], ctxs := [(0, twoPassCtx)], seq := 3 }

theorem twoPassState_reached : Reached twoPassState := ⟨⟨rfl, rfl⟩, rfl⟩

theorem twoPassState_deliverable : Deliverable twoPassState 0 0 := by decide

theorem twoPassState_wordPoint_ctx : (wordPoint twoPassState 0).ctx 0 = twoPassCtx := rfl

theorem twoPassState_wordPoint_inv : Inv (wordPoint twoPassState 0) :=
  (keeps_takeWord _).inv ((keeps_seq _).inv (inv_of_tables (by decide)))

/-- How many ream parts the runs of context 0 keep, after a command. -/
def partsKept (o : Host.Outcome State Fault Refusal) : List Nat :=
  match o with
  | .next t => (t.ctx 0).runs.map fun r => r.parts.length
  | _ => []

/-- With the first pass discarded the second keeps both reams of its unit. -/
theorem partsKept_discard : partsKept (exec (.discard 0 0 7) twoPassState) = [2] := by decide

end Sys2Proof.Machine

namespace Sys2Proof
open Sys2Proof.Machine Sys2Proof.Safety

/-- Refutes O34: the runs that stay need not stay as they are. Where a first pass is discarded before a second pass of the same units that has
started, that second pass then keeps the committed parts of the reams that it closes again. -/
theorem not_discardRemovesTheSelectedRun : ¬ Obligations.DiscardRemovesTheSelectedRun := by
  intro h
  have hx := twoPassState_wordPoint_ctx
  obtain ⟨-, hsel⟩ := h twoPassState 0 0 7 twoPassState_reached twoPassState_deliverable twoPassState_wordPoint_inv
    (not_refused_of_open (congrArg Ctx.ten hx) (.inr (congrArg Ctx.st hx))) rfl rfl
    (show ∀ q ∈ twoPassCtx.runs, q.phase = .committed → q.after = [] by decide)
    (show ∀ q ∈ twoPassCtx.runs, q.phase = .started → q.base ≠ none by decide) rfl
  obtain ⟨t, ht, hruns, -⟩ := hsel [] (openPass 1 7 false) [openPass 2 8 true] rfl (by simp) rfl (.inr (.inl rfl))
  have hleft : (t.ctx 0).runs = [openPass 2 8 true] := hruns
  have hkept : partsKept (.next t) = [2] := ht ▸ partsKept_discard
  rw [partsKept, hleft] at hkept
  exact absurd hkept (by decide)

end Sys2Proof
end

section
/-! SUPPORT. A held row whose close lets a word of an earlier run act: an RCLOSE, after the ingest of a tile that has committed, waits for a
ream of the row (R87, R303), and the ream turns out to have no kind that it accepts (R304). -/
namespace Sys2Proof.Machine
open Sys2Proof.Safety

/-- FLOW and RCLOSE of ream 0: the position of a MAX or MIN record. -/
def positionProg : Prog := ⟨[mkWord 0xF0 [], mkWord 0x10 [], mkWord 0x92 [(3, 87)]]⟩

/-- FLOW and a softmax ROW that holds its rows in a slot of one row, over an EXP and a MAX ream from ream 0 on. -/
def softmaxProg : Prog := ⟨[mkWord 0xF0 [(1, 108)], mkWord 0xE0 [(1, 93)], mkWord 0x10 [], mkWord 0x40 []]⟩

/-- The earlier run: committed, its RCLOSE still to act. -/
def closingRun : Run :=
  { newRun Ctx.reset 1 0 ⟨false, false, false, 7, 0, 0, 0, false⟩ with phase := .committed, base := some 0, prog := positionProg, after := [2] }

/-- The later run: its tile has ended and holds one row. -/
def heldRun : Run :=
  { newRun Ctx.reset 2 0 ⟨false, false, false, 8, 0, 0, 0, false⟩ with
    phase := .ended, base := some 0, prog := softmaxProg, rows := 1, holds := true }

/-- The close of that row. -/
def heldClosing : Closing := ⟨0, 0, 0, 8⟩

/-- A ream of that row: its committed part and the shadow of the later run. -/
def heldReam (k : RKind) : ReamCell := ⟨RPart.clear k, some ⟨2, (RPart.clear k).openShadow, []⟩⟩

/-- Both runs on channel 0, in the cc before the row closes. -/
def heldRowState : State :=
  { State.reset with
    chans := [(0, { Channel.reset with
      st := .ready, alloc := [⟨0, 0, 0, 4, 0⟩], cyc := 9, reams := [(0, heldReam .exp), (1, heldReam .max)]
      due := [⟨10, 0, some 2, .close heldClosing⟩] })]
    ctxs := [(0, { Ctx.reset with st := .running, reamreq := 1, runs := [closingRun, heldRun] })]
    seq := 3 }

theorem heldRowState_inv : Inv heldRowState := inv_of_tables (by decide +kernel)

/-- The row takes reams 0 and 1. -/
theorem heldRun_closingReams {u : Units} (hu : heldRun.prog.units = some u) :
    (Env.mk (heldRowState.ctx 0) heldRun).closingReams u heldClosing = some [0, 1] := by
  have hunits : heldRun.prog.units = some ⟨0, 2, 1, 2, 0⟩ := by decide +kernel
  obtain rfl : (⟨0, 2, 1, 2, 0⟩ : Units) = u := Option.some.inj (hunits.symm.trans hu)
  decide +kernel

/-- The RCLOSE has an illegal operand: the context faults, and no run of it is left. -/
theorem heldRowState_pass_runs : ((heldRowState.pass 0 10).ctx 0).runs = [] := by decide +kernel

end Sys2Proof.Machine

namespace Sys2Proof
open Sys2Proof.Machine Sys2Proof.Safety

/-- Refutes O48: the run whose held row closes need not stay. With the shadow of the row's ream released an RCLOSE that waited for it acts, of
an earlier run of the context; where that ream has no kind that the RCLOSE accepts the context faults and its runs are abandoned. The
clause on held rows does not suppose, as that on TILE_COMMIT does, that no word waits. -/
theorem not_tilesCommitTheirShadows : ¬ Obligations.TilesCommitTheirShadows := by
  rintro ⟨-, hclose, -⟩
  have hunits : heldRun.prog.units ≠ none := by decide +kernel
  obtain ⟨-, -, z, hz, -⟩ := hclose heldRowState 0 0 heldRun heldClosing [0, 1] [] heldRowState_inv rfl (by decide) rfl (by simp) rfl rfl
    (by decide) (by decide +kernel) (fun u hu => heldRun_closingReams hu) hunits
  have hleft : z ∈ ((heldRowState.pass 0 10).ctx 0).runs := hz
  rw [heldRowState_pass_runs] at hleft
  exact List.not_mem_nil hleft

end Sys2Proof
end

section
/-! SUPPORT. Exact values as rationals (R18): their binade, rounding to the nearest integer, comparison. -/
namespace Sys2Proof.Machine
open Sys2Proof.Safety

/-! ### Integers nearest to a rational -/

section
variable {x y : ℚ} {k j : ℤ}

theorem nearestEven_neg (h : NearestEven x k) : NearestEven (-x) (-k) := by
  obtain ⟨hle, heven⟩ := h
  have e : -x - ((-k : ℤ) : ℚ) = -(x - k) := by push_cast; ring
  refine ⟨by rwa [e, abs_neg], fun h => ?_⟩
  rw [e, abs_neg] at h
  have := heven h
  omega

/-- An integer below a value is no greater than the nearest one. -/
theorem nearestEven_le_of_le (h : NearestEven x k) (hj : (j : ℚ) ≤ x) : j ≤ k := by
  have hd := (abs_le.mp h.1).2
  have : (j : ℚ) < k + 1 := by linarith
  have : j < k + 1 := by exact_mod_cast this
  omega

theorem nearestEven_unique (h : NearestEven x k) (h' : NearestEven x j) : k = j := by
  obtain ⟨hk, ek⟩ := h
  obtain ⟨hj, ej⟩ := h'
  rw [abs_le] at hk hj
  have h1 : (k : ℚ) ≤ j + 1 := by linarith
  have h2 : (j : ℚ) ≤ k + 1 := by linarith
  have h1 : k ≤ j + 1 := by exact_mod_cast h1
  have h2 : j ≤ k + 1 := by exact_mod_cast h2
  by_contra hne
  obtain rfl | rfl : k = j + 1 ∨ j = k + 1 := by omega
  · push_cast at hk ek
    have e1 : x - (j + 1) = -(1 / 2) := by linarith
    have e2 : x - j = 1 / 2 := by linarith
    have := ek (by rw [e1]; norm_num)
    have := ej (by rw [e2]; norm_num)
    omega
  · push_cast at hj ej
    have e1 : x - (k + 1) = -(1 / 2) := by linarith
    have e2 : x - k = 1 / 2 := by linarith
    have := ej (by rw [e1]; norm_num)
    have := ek (by rw [e2]; norm_num)
    omega

theorem nearestEven_self (k : ℤ) : NearestEven (k : ℚ) k := by
  rw [NearestEven, sub_self, abs_zero]
  exact ⟨by norm_num, fun h => absurd h (by norm_num)⟩

end

/-- nearest_even of a quotient. -/
theorem nearestEvenNat_spec (a : Nat) {d : Nat} (hd : 0 < d) : NearestEven ((a : ℚ) / d) (nearestEvenNat a d : ℤ) := by
  have hq : (0 : ℚ) < d := by exact_mod_cast hd
  have ha : (a : ℚ) = d * (a / d : Nat) + (a % d : Nat) := by exact_mod_cast (Nat.div_add_mod a d).symm
  have hr : a % d < d := Nat.mod_lt a hd
  have hdiff : (a : ℚ) / d - (a / d : Nat) = (a % d : Nat) / d := by rw [ha]; field_simp; ring
  have hlow : (0 : ℚ) ≤ (a % d : Nat) / d := by positivity
  unfold nearestEvenNat
  simp only
  split_ifs with h1 h2 h3
  · have hlt : ((a % d : Nat) : ℚ) / d < 1 / 2 := by
      rw [div_lt_div_iff₀ hq (by norm_num)]
      have : ((2 * (a % d) : Nat) : ℚ) < d := by exact_mod_cast h1
      push_cast at this; linarith
    rw [NearestEven, Int.cast_natCast, hdiff, abs_of_nonneg hlow]
    exact ⟨hlt.le, fun h => absurd h hlt.ne⟩
  · have hgt : 1 / 2 < ((a % d : Nat) : ℚ) / d := by
      rw [div_lt_div_iff₀ (by norm_num) hq]
      have : (d : ℚ) < ((2 * (a % d) : Nat) : ℚ) := by exact_mod_cast h2
      push_cast at this; linarith
    have hlt : ((a % d : Nat) : ℚ) / d < 1 := by
      rw [div_lt_one hq]
      exact_mod_cast hr
    have e : (a : ℚ) / d - ((a / d : Nat) + 1 : Nat) = (a % d : Nat) / d - 1 := by push_cast [← hdiff]; ring
    rw [NearestEven, Int.cast_natCast, e, abs_of_neg (by linarith)]
    exact ⟨by linarith, fun h => by linarith⟩
  all_goals
    have hhalf : ((a % d : Nat) : ℚ) / d = 1 / 2 := by
      rw [div_eq_div_iff hq.ne' (by norm_num)]
      have : ((2 * (a % d) : Nat) : ℚ) = d := by exact_mod_cast (by omega : 2 * (a % d) = d)
      push_cast at this; linarith
  · rw [NearestEven, Int.cast_natCast, hdiff, hhalf]
    exact ⟨by norm_num, fun _ => by omega⟩
  · have e : (a : ℚ) / d - ((a / d : Nat) + 1 : Nat) = -(1 / 2) := by
      have := hdiff.trans hhalf
      push_cast; linarith
    rw [NearestEven, Int.cast_natCast, e]
    exact ⟨by norm_num, fun _ => by omega⟩

/-! ### Values -/

theorem shiftFrac_spec (a : Nat) {d : Nat} (hd : 0 < d) (s : ℤ) :
    0 < (shiftFrac a d s).2 ∧ ((shiftFrac a d s).1 : ℚ) / (shiftFrac a d s).2 = (a : ℚ) / d * 2 ^ s := by
  cases s with
  | ofNat k =>
    refine ⟨hd, ?_⟩
    simp only [shiftFrac, Nat.shiftLeft_eq, Int.ofNat_eq_natCast, zpow_natCast]
    push_cast; ring
  | negSucc k =>
    refine ⟨by simp [shiftFrac, Nat.shiftLeft_eq, hd], ?_⟩
    simp only [shiftFrac, Nat.shiftLeft_eq, zpow_negSucc]
    push_cast
    field_simp

theorem ratOf_abs (x : XQ) : ratOf x.abs = |ratOf x| := by
  rw [ratOf, ratOf, abs_mul, abs_div, Nat.abs_cast, abs_of_pos (zpow_pos (by norm_num : (0 : ℚ) < 2) x.e)]
  simp only [XQ.abs]
  rw [← Int.cast_abs, Int.natCast_natAbs]

theorem abs_ratOf (x : XQ) : |ratOf x| = (x.n.natAbs : ℚ) / x.d * 2 ^ x.e := by
  rw [← ratOf_abs, ratOf, XQ.abs, Int.cast_natCast]

section
variable {x : XQ} (hd : 0 < x.d)
include hd

theorem ratOf_sign : 0 < ratOf x ↔ 0 < x.n := by
  have h1 : (0 : ℚ) < x.d := by exact_mod_cast hd
  rw [ratOf, mul_pos_iff_of_pos_right (zpow_pos (by norm_num) _), div_pos_iff_of_pos_right h1, Int.cast_pos]

theorem ratOf_neg_iff : ratOf x < 0 ↔ x.n < 0 := by
  have h1 : (0 : ℚ) < x.d := by exact_mod_cast hd
  rw [ratOf, mul_neg_iff, div_lt_iff₀ h1, zero_mul, Int.cast_lt_zero]
  have h2 : (0 : ℚ) < 2 ^ x.e := zpow_pos (by norm_num) _
  simp only [h2, not_lt_of_gt h2, and_true, and_false, false_or]

theorem ratOf_eq_zero_iff : ratOf x = 0 ↔ x.n = 0 := by
  have h1 : (x.d : ℚ) ≠ 0 := by exact_mod_cast hd.ne'
  have h2 : (2 : ℚ) ^ x.e ≠ 0 := zpow_ne_zero _ (by norm_num)
  simp [ratOf, h1, h2]

/-- floor_log2 names the binade. -/
theorem binade_floorLog2 (hn : x.n ≠ 0) : Binade (ratOf x) x.floorLog2 := by
  have ha : x.n.natAbs ≠ 0 := Int.natAbs_ne_zero.mpr hn
  have hq : (0 : ℚ) < x.d := by exact_mod_cast hd
  have a1 : (2 : ℚ) ^ (Nat.log2 x.n.natAbs : ℤ) ≤ x.n.natAbs := by exact_mod_cast Nat.log2_self_le ha
  have a2 : (x.n.natAbs : ℚ) < 2 ^ (Nat.log2 x.n.natAbs + 1 : ℤ) := by exact_mod_cast (Nat.lt_log2_self (n := x.n.natAbs))
  have d1 : (2 : ℚ) ^ (Nat.log2 x.d : ℤ) ≤ x.d := by exact_mod_cast Nat.log2_self_le hd.ne'
  have d2 : (x.d : ℚ) < 2 ^ (Nat.log2 x.d + 1 : ℤ) := by exact_mod_cast (Nat.lt_log2_self (n := x.d))
  obtain ⟨hs, hr⟩ := shiftFrac_spec x.n.natAbs hd (-((Nat.log2 x.n.natAbs : ℤ) - Nat.log2 x.d))
  have hs' : (0 : ℚ) < (shiftFrac x.n.natAbs x.d (-((Nat.log2 x.n.natAbs : ℤ) - Nat.log2 x.d))).2 := by exact_mod_cast hs
  unfold XQ.floorLog2
  simp only
  generalize hl : (Nat.log2 x.n.natAbs : ℤ) - Nat.log2 x.d = l at *
  have hlow : (2 : ℚ) ^ (l - 1) ≤ x.n.natAbs / x.d := by
    rw [le_div_iff₀ hq]
    calc (2 : ℚ) ^ (l - 1) * x.d ≤ 2 ^ (l - 1) * 2 ^ (Nat.log2 x.d + 1 : ℤ) := by gcongr
      _ = 2 ^ (Nat.log2 x.n.natAbs : ℤ) := by rw [← zpow_add₀ (by norm_num)]; congr 1; omega
      _ ≤ _ := a1
  have hhigh : (x.n.natAbs : ℚ) / x.d < 2 ^ (l + 1) := by
    rw [div_lt_iff₀ hq]
    calc (x.n.natAbs : ℚ) < 2 ^ (Nat.log2 x.n.natAbs + 1 : ℤ) := a2
      _ = 2 ^ (l + 1) * 2 ^ (Nat.log2 x.d : ℤ) := by rw [← zpow_add₀ (by norm_num)]; congr 1; omega
      _ ≤ _ := by gcongr
  have hcmp : (shiftFrac x.n.natAbs x.d (-l)).1 < (shiftFrac x.n.natAbs x.d (-l)).2 ↔ (x.n.natAbs : ℚ) / x.d < 2 ^ l := by
    rw [← Nat.cast_lt (α := ℚ), ← div_lt_one hs', hr, zpow_neg, mul_inv_lt_iff₀ (zpow_pos (by norm_num) _), one_mul]
  rw [Binade, abs_ratOf]
  split_ifs with h
  · rw [hcmp] at h
    constructor
    · rw [zpow_add₀ (by norm_num)]; gcongr
    · rw [show l - 1 + x.e + 1 = l + x.e by ring, zpow_add₀ (by norm_num)]; gcongr
  · rw [hcmp, not_lt] at h
    constructor
    · rw [zpow_add₀ (by norm_num)]; gcongr
    · rw [show l + x.e + 1 = (l + 1) + x.e by ring, zpow_add₀ (by norm_num)]; gcongr

end

theorem binade_exponent_le {x y : ℚ} {e e' : ℤ} (h : Binade x e) (h' : |y| < (2 : ℚ) ^ (e' + 1)) (hxy : |x| ≤ |y|) : e ≤ e' := by
  have : (2 : ℚ) ^ e < 2 ^ (e' + 1) := h.1.trans_lt (hxy.trans_lt h')
  rw [zpow_lt_zpow_iff_right₀ (by norm_num)] at this
  omega

theorem binade_unique {x : ℚ} {e e' : ℤ} (h : Binade x e) (h' : Binade x e') : e = e' :=
  le_antisymm (binade_exponent_le h h'.2 le_rfl) (binade_exponent_le h' h.2 le_rfl)

theorem binade_ne_zero {x : ℚ} {e : ℤ} (h : Binade x e) : x ≠ 0 := by
  rintro rfl
  have := h.1
  rw [abs_zero] at this
  exact absurd (zpow_pos (by norm_num : (0 : ℚ) < 2) e) (not_lt.mpr this)

theorem floorLog2_of_binade {x : XQ} {e : ℤ} (hd : 0 < x.d) (h : Binade (ratOf x) e) : x.floorLog2 = e :=
  binade_unique (binade_floorLog2 hd (mt (ratOf_eq_zero_iff hd).mpr (binade_ne_zero h))) h

/-- nearest_even(|x| × 2^s), and whether it is exact. -/
theorem near_spec {x : XQ} (hd : 0 < x.d) (s : ℤ) :
    NearestEven (|ratOf x| * 2 ^ s) ((x.near s).1 : ℤ) ∧ ((x.near s).2 = true ↔ ((x.near s).1 : ℚ) = |ratOf x| * 2 ^ s) := by
  unfold XQ.near
  split_ifs with h0 hs
  · rw [(ratOf_eq_zero_iff hd).mpr h0, abs_zero, zero_mul]
    exact ⟨nearestEven_self 0, by simp⟩
  · obtain ⟨hlow, hhigh⟩ := binade_floorLog2 hd h0
    have hpos : 0 < |ratOf x| * 2 ^ s := mul_pos ((zpow_pos (by norm_num) _).trans_le hlow) (zpow_pos (by norm_num) _)
    have hlt : |ratOf x| * 2 ^ s < 1 / 2 := by
      calc |ratOf x| * 2 ^ s < 2 ^ (x.floorLog2 + 1) * 2 ^ s := by gcongr
        _ = 2 ^ (x.floorLog2 + 1 + s) := (zpow_add₀ (by norm_num) _ _).symm
        _ ≤ 2 ^ (-1 : ℤ) := zpow_le_zpow_right₀ (by norm_num) (by omega)
        _ = 1 / 2 := by norm_num
    refine ⟨⟨?_, fun h => absurd h ?_⟩, ?_⟩
    · simp only [Nat.cast_zero, Int.cast_zero, sub_zero, abs_of_pos hpos]
      exact hlt.le
    · simp only [Nat.cast_zero, Int.cast_zero, sub_zero, abs_of_pos hpos]
      exact hlt.ne
    · simp only [Nat.cast_zero, false_iff]
      exact hpos.ne
  · obtain ⟨hq, hr⟩ := shiftFrac_spec x.n.natAbs hd (x.e + s)
    have hval : ((shiftFrac x.n.natAbs x.d (x.e + s)).1 : ℚ) / (shiftFrac x.n.natAbs x.d (x.e + s)).2 = |ratOf x| * 2 ^ s := by
      rw [hr, abs_ratOf, zpow_add₀ (by norm_num), mul_assoc]
    have hq' : ((shiftFrac x.n.natAbs x.d (x.e + s)).2 : ℚ) ≠ 0 := by exact_mod_cast hq.ne'
    simp only [decide_eq_true_eq]
    rw [← hval]
    refine ⟨nearestEvenNat_spec _ hq, ?_⟩
    rw [eq_div_iff hq']
    exact_mod_cast Iff.rfl

/-! ### Comparison -/

theorem ratOf_neg (x : XQ) : ratOf x.neg = -ratOf x := by
  simp only [ratOf, XQ.neg]
  push_cast; ring

theorem ratOf_addAligned {a b : XQ} (ha : 0 < a.d) (hb : 0 < b.d) : ratOf (a.addAligned b) = ratOf a + ratOf b := by
  have h1 : (a.d : ℚ) ≠ 0 := by exact_mod_cast ha.ne'
  have h2 : (b.d : ℚ) ≠ 0 := by exact_mod_cast hb.ne'
  have pow : ∀ e : ℤ, min a.e b.e ≤ e → ((2 : ℚ) ^ (e - min a.e b.e).toNat) * 2 ^ (min a.e b.e) = 2 ^ e := by
    intro e he
    rw [← zpow_natCast, Int.toNat_of_nonneg (by omega), ← zpow_add₀ (by norm_num)]
    congr 1; omega
  simp only [ratOf, XQ.addAligned]
  rw [← pow a.e (min_le_left _ _), ← pow b.e (min_le_right _ _)]
  push_cast
  field_simp

/-- A number that is small against another does not change the sign of a sum. -/
theorem sign_add_of_abs_lt {x y : ℚ} (h : |y| < |x|) : SignType.sign (x + y) = SignType.sign x := by
  rcases lt_trichotomy x 0 with hx | rfl | hx
  · rw [abs_of_neg hx] at h
    have := (abs_lt.mp h).2
    rw [sign_neg hx, sign_neg (by linarith)]
  · rw [abs_zero] at h
    exact absurd h (not_lt.mpr (abs_nonneg y))
  · rw [abs_of_pos hx] at h
    have := (abs_lt.mp h).1
    rw [sign_pos hx, sign_pos (by linarith)]

theorem sign_ratOf {x : XQ} (hd : 0 < x.d) : SignType.sign (ratOf x) = SignType.sign x.n := by
  rcases lt_trichotomy x.n 0 with h | h | h
  · rw [sign_neg h, sign_neg ((ratOf_neg_iff hd).mpr h)]
  · rw [h, (ratOf_eq_zero_iff hd).mpr h, sign_zero, sign_zero]
  · rw [sign_pos h, sign_pos ((ratOf_sign hd).mpr h)]

/-- The sum with a summand that is not above the first has the sign of the exact sum (log 8). -/
theorem sign_addFar {a b : XQ} (ha : 0 < a.d) (hb : 0 < b.d) (hna : a.n ≠ 0) (hnb : b.n ≠ 0) :
    SignType.sign (a.addFar b).n = SignType.sign (ratOf a + ratOf b) := by
  unfold XQ.addFar
  simp only
  split_ifs with h
  · rw [← ratOf_addAligned ha hb, sign_ratOf (Nat.mul_pos ha hb)]
  all_goals
    obtain ⟨alow, -⟩ := binade_floorLog2 ha hna
    obtain ⟨-, bhigh⟩ := binade_floorLog2 hb hnb
    have hgap : stickyGap = 16384 := rfl
    have hb' : |ratOf b| < |ratOf a| := bhigh.trans_le ((zpow_le_zpow_right₀ (by norm_num) (by omega)).trans alow)
    rw [sign_add_of_abs_lt hb', ← sign_ratOf (x := a.addAligned _) (Nat.mul_pos ha Nat.one_pos), ratOf_addAligned ha Nat.one_pos]
    refine sign_add_of_abs_lt (lt_of_lt_of_le ?_ alow)
    simp only [ratOf, Nat.cast_one, div_one, abs_mul, Int.cast_neg, Int.cast_one, abs_neg, abs_one, one_mul]
    rw [abs_of_pos (zpow_pos (by norm_num) _)]
    exact zpow_lt_zpow_right₀ (by norm_num) (by omega)

theorem sign_add {a b : XQ} (ha : 0 < a.d) (hb : 0 < b.d) : SignType.sign (a.add b).n = SignType.sign (ratOf a + ratOf b) := by
  unfold XQ.add
  split_ifs with h1 h2 h3
  · rw [(ratOf_eq_zero_iff ha).mpr h1, zero_add, sign_ratOf hb]
  · rw [(ratOf_eq_zero_iff hb).mpr h2, add_zero, sign_ratOf ha]
  · exact sign_addFar ha hb h1 h2
  · rw [sign_addFar hb ha h2 h1, add_comm]

theorem cmp_eq_sign {a b : XQ} (ha : 0 < a.d) (hb : 0 < b.d) : a.cmp b = (SignType.sign (ratOf a - ratOf b) : ℤ) := by
  have hb' : 0 < b.neg.d := hb
  rw [XQ.cmp, XQ.sub, Int.sign_eq_sign, sign_add ha hb', ratOf_neg, sub_eq_add_neg]

/-- Comparison of exact values is that of the rationals. -/
theorem lt_iff_ratOf {a b : XQ} (ha : 0 < a.d) (hb : 0 < b.d) : a.lt b = true ↔ ratOf a < ratOf b := by
  rw [XQ.lt, decide_eq_true_iff, cmp_eq_sign ha hb]
  rcases lt_trichotomy (ratOf a) (ratOf b) with h | h | h
  · rw [sign_neg (sub_neg.mpr h)]; simp [h]
  · rw [h, sub_self, sign_zero]; simp
  · rw [sign_pos (sub_pos.mpr h)]; simp [h.le]

theorem eqv_iff_ratOf {a b : XQ} (ha : 0 < a.d) (hb : 0 < b.d) : a.eqv b = true ↔ ratOf a = ratOf b := by
  rw [XQ.eqv, decide_eq_true_iff, cmp_eq_sign ha hb]
  rcases lt_trichotomy (ratOf a) (ratOf b) with h | h | h
  · rw [sign_neg (sub_neg.mpr h)]; simp [h.ne]
  · rw [h, sub_self, sign_zero]; simp
  · rw [sign_pos (sub_pos.mpr h)]; simp [h.ne']

end Sys2Proof.Machine
end

section
/-! SUPPORT. Sums of reams (R82, R99): what a term adds, and that neither order nor split counts. -/
namespace Sys2Proof.Machine

/-- What a term adds to the word of a SUM ream: its value in units of 2^−300, or nothing (R82). -/
def termWord : Val → BitVec 640
  | .fin q => if q.n ≠ 0 ∧ q.floorLog2 ≥ 308 then 0 else BitVec.ofInt 640 (if q.n < 0 then -((q.near 300).1 : Int) else (q.near 300).1)
  | _ => 0

/-- The infinity that a term counts as in a SUM ream: its own, or that of a value too large for the word (R82). -/
def termInf : Val → Option Bool
  | .fin q => if q.n ≠ 0 ∧ q.floorLog2 ≥ 308 then some (decide (q.n < 0)) else none
  | .inf b => some b
  | .nan => none

/-- A SUM ream after terms that number n, sum to w and hold the given special values. -/
def RPart.plus (d : RPart) (n : Nat) (w : BitVec 640) (nan pinf ninf : Bool) : RPart :=
  { d with
    tally := if n = 0 then d.tally else min (d.tally + n) (2 ^ 32 - 1)
    w := d.w + w
    nan := d.nan || nan
    pinf := d.pinf || pinf
    ninf := d.ninf || ninf }

theorem admitSum_eq_plus (d : RPart) (t : Val) :
    (d.admitSum t).1 = d.plus 1 (termWord t) t.isNan (termInf t == some false) (termInf t == some true) := by
  cases t with
  | nan => simp [RPart.admitSum, RPart.plus, termWord, termInf, Val.isNan]
  | inf b => cases b <;> simp [RPart.admitSum, RPart.plus, termWord, termInf, Val.isNan]
  | fin q =>
    by_cases h : q.n ≠ 0 ∧ q.floorLog2 ≥ 308
    · by_cases hn : q.n < 0 <;> simp [RPart.admitSum, RPart.plus, termWord, termInf, Val.isNan, h, hn]
    · simp [RPart.admitSum, RPart.plus, termWord, termInf, Val.isNan, h]

/-- A SUM ream after a list of terms. -/
theorem foldl_admitSum (d : RPart) (ts : List Val) :
    ts.foldl (fun e t => (e.admitSum t).1) d
      = d.plus ts.length (ts.map termWord).sum (ts.any Val.isNan) (ts.any (termInf · == some false)) (ts.any (termInf · == some true)) := by
  induction ts generalizing d with
  | nil => simp [RPart.plus]
  | cons t ts ih =>
    rw [List.foldl_cons, ih, admitSum_eq_plus]
    simp only [RPart.plus, List.length_cons, List.map_cons, List.sum_cons, List.any_cons, Bool.or_assoc, BitVec.add_assoc,
      Nat.succ_ne_zero, if_false, RPart.mk.injEq, true_and, and_true]
    split_ifs <;> omega

/-- R82: the order of the terms does not count. -/
theorem foldl_admitSum_perm (d : RPart) {ts us : List Val} (h : ts.Perm us) :
    ts.foldl (fun e t => (e.admitSum t).1) d = us.foldl (fun e t => (e.admitSum t).1) d := by
  rw [foldl_admitSum, foldl_admitSum, h.length_eq, (h.map termWord).sum_eq]
  simp only [h.any_eq]

/-- What a combination brings to a SUM ream (R99). -/
theorem combine_of_sum {a : RPart} (b : RPart) (hk : a.kind = .sum) : (a.combine b).1 = { a with
    tally := min (a.tally + b.tally) (2 ^ 32 - 1)
    csat := a.csat || b.csat || decide (min (a.tally + b.tally) (2 ^ 32 - 1) > 2 ^ 31)
    nan := a.nan || b.nan, pinf := a.pinf || b.pinf, ninf := a.ninf || b.ninf, trim := a.trim || b.trim, w := a.w + b.w } := by
  rw [RPart.combine, hk]

/-- R99: a shadow that took the later terms brings the same sum when it is combined. -/
theorem combine_foldl_admitSum (a : RPart) (ts us : List Val) (hk : a.kind = .sum) (ht : a.tally < 2 ^ 32) :
    let whole := (ts ++ us).foldl (fun e t => (e.admitSum t).1) a
    let split := ((ts.foldl (fun e t => (e.admitSum t).1) a).combine (us.foldl (fun e t => (e.admitSum t).1) a.openShadow)).1
    split.w = whole.w ∧ split.tally = whole.tally ∧ split.nan = whole.nan ∧ split.pinf = whole.pinf ∧ split.ninf = whole.ninf
      ∧ split.kind = .sum ∧ split.offset = a.offset := by
  have hopen : a.openShadow = { RPart.unset with kind := .sum, offset := a.offset } := by
    simp only [RPart.openShadow, RPart.clear, hk]
    rfl
  have hw (x : BitVec 640) : a.openShadow.w + x = x := by
    rw [hopen]
    exact BitVec.zero_add x
  obtain ⟨htally, hnan, hpinf, hninf⟩ : a.openShadow.tally = 0 ∧ a.openShadow.nan = false ∧ a.openShadow.pinf = false ∧ a.openShadow.ninf = false := by
    rw [hopen]
    exact ⟨rfl, rfl, rfl, rfl⟩
  dsimp only
  rw [foldl_admitSum, foldl_admitSum, foldl_admitSum, combine_of_sum _ (show (a.plus _ _ _ _ _).kind = .sum from hk)]
  simp only [RPart.plus, hnan, hpinf, hninf, htally, List.length_append, List.map_append, List.any_append, Bool.or_assoc, Bool.false_or]
  refine ⟨?_, ?_, trivial, trivial, trivial, hk, trivial⟩
  · rw [hw, List.sum_append, BitVec.add_assoc]
  · split_ifs <;> omega

end Sys2Proof.Machine
end

section
/-! SUPPORT. The sorter (R248, R250): its order, and that the records it keeps are the first of all those offered. -/
namespace Sys2Proof.Machine
open Sys2Proof.Safety

/-! ### The order of the records -/

theorem decode_den {b : Nat} {f : Fmt} {q : XQ} (h : decode b f = .fin q) : 0 < q.d := by
  unfold decode at h
  dsimp only at h
  split at h
  · cases h
    exact Nat.one_pos
  · split at h
    · cases h
    · split at h
      · cases h
      · injection h with h
        subst h
        split_ifs <;> exact Nat.one_pos

/-- The place of a value in the sorter's order: NaN below every number (R98). -/
def valKey : Val → ℕ ×ₗ ℚ
  | .nan => toLex (0, 0)
  | .inf true => toLex (1, 0)
  | .fin q => toLex (2, ratOf q)
  | .inf false => toLex (3, 0)

/-- The place of a record: by value, and of equal values the earlier position first. -/
def candKey (f : Fmt) (a : Nat × Nat) : (ℕ ×ₗ ℚ) ×ₗ ℕᵒᵈ := toLex (valKey (decode a.1 f), OrderDual.toDual a.2)

/-- Values whose finite ones are numbers. -/
def Val.Formed : Val → Prop
  | .fin q => 0 < q.d
  | _ => True

theorem decode_formed (b : Nat) (f : Fmt) : (decode b f).Formed := by
  cases h : decode b f with
  | fin q => exact decode_den h
  | _ => trivial

theorem lt_iff_valKey {x y : Val} (hx : x.Formed) (hy : y.Formed) (nx : x ≠ .nan) (ny : y ≠ .nan) :
    x.lt y = true ↔ valKey x < valKey y := by
  rcases x with _ | (_ | _) | p <;> rcases y with _ | (_ | _) | q <;>
    simp_all [Val.lt, valKey, Prod.Lex.toLex_lt_toLex, Val.Formed, lt_iff_ratOf]

theorem eqv_iff_valKey {x y : Val} (hx : x.Formed) (hy : y.Formed) (nx : x ≠ .nan) (ny : y ≠ .nan) :
    x.eqv y = true ↔ valKey x = valKey y := by
  rcases x with _ | (_ | _) | p <;> rcases y with _ | (_ | _) | q <;>
    simp_all [Val.eqv, valKey, Val.Formed, eqv_iff_ratOf]

theorem nan_valKey_lt {x : Val} (h : x ≠ .nan) : valKey .nan < valKey x := by
  rcases x with _ | (_ | _) | p <;> simp_all [valKey, Prod.Lex.toLex_lt_toLex]

/-- The order of two values at two positions, as candAbove has it for what it decodes. -/
theorem candAbove_of_decode {f : Fmt} {a b : Nat × Nat} :
    (decode a.1 f = .nan → decode b.1 f = .nan → candAbove f a b = decide (a.2 < b.2))
    ∧ (decode a.1 f = .nan → decode b.1 f ≠ .nan → candAbove f a b = false)
    ∧ (decode a.1 f ≠ .nan → decode b.1 f = .nan → candAbove f a b = true)
    ∧ (decode a.1 f ≠ .nan → decode b.1 f ≠ .nan →
        candAbove f a b = ((decode b.1 f).lt (decode a.1 f) || ((decode a.1 f).eqv (decode b.1 f) && decide (a.2 < b.2)))) := by
  unfold candAbove
  cases decode a.1 f <;> cases decode b.1 f <;> simp

theorem candAbove_iff (f : Fmt) (a b : Nat × Nat) : candAbove f a b = true ↔ candKey f b < candKey f a := by
  have ha := decode_formed a.1 f
  have hb := decode_formed b.1 f
  obtain ⟨hnn, hnv, hvn, hvv⟩ := candAbove_of_decode (f := f) (a := a) (b := b)
  rw [candKey, candKey, Prod.Lex.toLex_lt_toLex, OrderDual.toDual_lt_toDual]
  by_cases hx : decode a.1 f = .nan <;> by_cases hy : decode b.1 f = .nan
  · simp [hnn hx hy, hx, hy]
  · have := nan_valKey_lt hy
    simp [hnv hx hy, hx, this.ne', this.le]
  · simp [hvn hx hy, hy, nan_valKey_lt hx]
  · rw [hvv hx hy, Bool.or_eq_true, Bool.and_eq_true, lt_iff_valKey hb ha hy hx, eqv_iff_valKey ha hb hx hy, decide_eq_true_iff,
      eq_comm (a := valKey (decode a.1 f))]

theorem candAbove_trans {f : Fmt} {a b c : Nat × Nat} (h : candAbove f a b = true) (h' : candAbove f b c = true) : candAbove f a c = true := by
  rw [candAbove_iff] at *
  exact h'.trans h

theorem candAbove_asymm {f : Fmt} {a b : Nat × Nat} (h : candAbove f a b = true) : ¬ candAbove f b a = true := by
  rw [candAbove_iff] at *
  exact h.asymm

theorem candAbove_total {f : Fmt} {a b : Nat × Nat} (h : a.2 ≠ b.2) : candAbove f a b = true ∨ candAbove f b a = true := by
  rw [candAbove_iff, candAbove_iff]
  refine (lt_or_gt_of_ne fun e => h ?_)
  have := congrArg (fun k => (ofLex k).2) e
  exact (OrderDual.toDual.injective this).symm

/-! ### Insertion -/

/-- A record offered to an unbounded sorter. -/
def sortInsert (f : Fmt) (c : List (Nat × Nat)) (x : Nat × Nat) : List (Nat × Nat) := c.orderedInsert (candAbove f · · = true) x

theorem candInsert_eq_take (f : Fmt) (k : Nat) (x : Nat × Nat) (c : List (Nat × Nat)) : candInsert f k x c = (sortInsert f c x).take k := by
  induction c generalizing k with
  | nil => cases k <;> simp [candInsert, sortInsert]
  | cons y ys ih =>
    cases k with
    | zero => simp [candInsert]
    | succ k =>
      simp only [sortInsert] at ih
      simp only [candInsert, sortInsert, List.orderedInsert_cons, Nat.succ_ne_zero, if_false]
      split_ifs <;> simp [ih]

/-- Records past the bound do not count for what stands within it. -/
theorem sortInsert_take (f : Fmt) (k : Nat) (x : Nat × Nat) (c : List (Nat × Nat)) :
    (sortInsert f (c.take k) x).take k = (sortInsert f c x).take k := by
  induction c generalizing k with
  | nil => simp
  | cons y ys ih =>
    cases k with
    | zero => simp
    | succ k =>
      simp only [sortInsert] at ih
      simp only [sortInsert, List.take_succ_cons, List.orderedInsert_cons]
      split_ifs
      · cases k <;> simp [List.take_take]
      · simp [ih]

theorem foldl_candInsert (f : Fmt) (k : Nat) (l c : List (Nat × Nat)) :
    l.foldl (fun c x => candInsert f k x c) (c.take k) = (l.foldl (sortInsert f) c).take k := by
  induction l generalizing c with
  | nil => rfl
  | cons x l ih => rw [List.foldl_cons, List.foldl_cons, candInsert_eq_take, sortInsert_take, ih]

theorem foldl_sortInsert_perm (f : Fmt) (l c : List (Nat × Nat)) : (l.foldl (sortInsert f) c).Perm (l ++ c) := by
  induction l generalizing c with
  | nil => rfl
  | cons x l ih =>
    calc (l.foldl (sortInsert f) (sortInsert f c x)).Perm (l ++ sortInsert f c x) := ih _
      _ |>.Perm (l ++ x :: c) := (List.perm_orderedInsert _ _ _).append_left _
      _ |>.Perm (x :: l ++ c) := List.perm_middle

theorem sortInsert_pairwise {f : Fmt} {c : List (Nat × Nat)} {x : Nat × Nat} (hc : c.Pairwise (candAbove f · · = true))
    (hx : ∀ y ∈ c, x.2 ≠ y.2) : (sortInsert f c x).Pairwise (candAbove f · · = true) := by
  induction c with
  | nil => simp [sortInsert]
  | cons y ys ih =>
    obtain ⟨hy, hys⟩ := List.pairwise_cons.mp hc
    rw [sortInsert, List.orderedInsert_cons]
    split_ifs with h
    · refine List.pairwise_cons.mpr ⟨fun z hz => ?_, hc⟩
      rcases List.mem_cons.mp hz with rfl | hz
      · exact h
      · exact candAbove_trans h (hy z hz)
    · refine List.pairwise_cons.mpr ⟨fun z hz => ?_, ih hys fun z hz => hx z (List.mem_cons_of_mem _ hz)⟩
      rcases (List.mem_orderedInsert _).mp hz with rfl | hz
      · exact (candAbove_total (hx y List.mem_cons_self)).resolve_left h
      · exact hy z hz

theorem foldl_sortInsert_pairwise {f : Fmt} {l c : List (Nat × Nat)} (hc : c.Pairwise (candAbove f · · = true))
    (h : ((l ++ c).map Prod.snd).Nodup) : (l.foldl (sortInsert f) c).Pairwise (candAbove f · · = true) := by
  induction l generalizing c with
  | nil => exact hc
  | cons x l ih =>
    have hperm : ((x :: l ++ c).map Prod.snd).Perm ((l ++ sortInsert f c x).map Prod.snd) :=
      ((List.perm_middle.symm.trans ((List.perm_orderedInsert _ _ _).append_left _).symm)).map _
    refine ih (sortInsert_pairwise hc fun y hy e => ?_) (hperm.nodup_iff.mp h)
    rw [List.cons_append, List.map_cons, List.nodup_cons] at h
    exact h.1 (e ▸ List.mem_map_of_mem (List.mem_append_right _ hy))

/-- R248, R250: what a sorter of k records keeps of those offered to it. -/
theorem foldl_candInsert_spec (f : Fmt) (k : Nat) (xs ys : List (Nat × Nat)) (hp : xs.Perm ys) (hn : (xs.map Prod.snd).Nodup) :
    let kept (l : List (Nat × Nat)) := l.foldl (fun c x => candInsert f k x c) []
    kept ys = kept xs ∧ (kept xs).length = min k xs.length ∧ (kept xs).Pairwise (fun a b => candAbove f a b = true)
      ∧ (∀ x ∈ kept xs, x ∈ xs) ∧ ∀ x ∈ xs, x ∉ kept xs → ∀ y ∈ kept xs, candAbove f y x = true := by
  have hkept (l : List (Nat × Nat)) : l.foldl (fun c x => candInsert f k x c) [] = (l.foldl (sortInsert f) []).take k := by
    rw [← foldl_candInsert, List.take_nil]
  have hperm (l : List (Nat × Nat)) : (l.foldl (sortInsert f) []).Perm l := by
    simpa using foldl_sortInsert_perm f l []
  have hsorted {l : List (Nat × Nat)} (h : (l.map Prod.snd).Nodup) : (l.foldl (sortInsert f) []).Pairwise (candAbove f · · = true) :=
    foldl_sortInsert_pairwise List.Pairwise.nil (by simpa using h)
  have hall : ys.foldl (sortInsert f) [] = xs.foldl (sortInsert f) [] :=
    List.Perm.eq_of_pairwise (fun a b _ _ h h' => absurd h' (candAbove_asymm h)) (hsorted ((hp.map _).nodup_iff.mp hn)) (hsorted hn)
      ((hperm ys).trans (hp.symm.trans (hperm xs).symm))
  have hxs := hsorted hn
  have hx := hperm xs
  dsimp only
  rw [hkept, hkept, hall]
  generalize xs.foldl (sortInsert f) [] = S at *
  refine ⟨rfl, by rw [List.length_take, hx.length_eq], hxs.sublist (List.take_sublist _ _), fun x h => hx.mem_iff.mp (List.mem_of_mem_take h),
    fun x h hnot y hy => ?_⟩
  rw [← List.take_append_drop k S, List.pairwise_append] at hxs
  have hdrop : x ∈ S.drop k := by
    have := hx.mem_iff.mpr h
    rw [← List.take_append_drop k S, List.mem_append] at this
    exact this.resolve_left hnot
  exact hxs.2.2 y hy x hdrop

end Sys2Proof.Machine
end

section
/-! SUPPORT. Rounding to a format (R57) and to an integer (R58), over exact values. -/
namespace Sys2Proof.Machine
open Sys2Proof.Safety

/-! ### The integer that near gives, with its sign -/

/-- An integer with the sign of a value. -/
def XQ.signed (x : XQ) (k : Nat) : ℤ := if x.n < 0 then -(k : ℤ) else k

theorem abs_signed (x : XQ) (k : Nat) : |x.signed k| = k := by
  unfold XQ.signed
  split_ifs <;> simp

section
variable {x : XQ} (hd : 0 < x.d)
include hd

theorem ratOf_eq_signed_abs : ratOf x = if x.n < 0 then -|ratOf x| else |ratOf x| := by
  split_ifs with h
  · rw [abs_of_neg ((ratOf_neg_iff hd).mpr h), neg_neg]
  · rw [abs_of_nonneg (not_lt.mp (mt (ratOf_neg_iff hd).mp h))]

theorem nearestEven_signed (s : ℤ) : NearestEven (ratOf x * 2 ^ s) (x.signed (x.near s).1) := by
  obtain ⟨h, -⟩ := near_spec hd s
  rw [ratOf_eq_signed_abs hd, XQ.signed]
  split_ifs
  · rw [neg_mul]
    exact nearestEven_neg h
  · exact h

theorem near_exact_iff (s : ℤ) : (x.near s).2 = true ↔ (x.signed (x.near s).1 : ℚ) = ratOf x * 2 ^ s := by
  obtain ⟨-, h⟩ := near_spec hd s
  rw [h]
  conv_rhs => rw [ratOf_eq_signed_abs hd, XQ.signed]
  split_ifs
  · push_cast
    rw [neg_mul, neg_inj]
  · simp

end

/-! ### Integers -/

theorem ratOf_ofInt (i : ℤ) : ratOf (XQ.ofInt i) = i := by simp [ratOf, XQ.ofInt]

theorem ofInt_lt_abs {q : XQ} (hd : 0 < q.d) (i : ℤ) : (XQ.ofInt i).lt q.abs = true ↔ (i : ℚ) < |ratOf q| := by
  rw [lt_iff_ratOf (show 0 < (XQ.ofInt i).d from Nat.one_pos) (show 0 < q.abs.d from hd), ratOf_abs, ratOf_ofInt]

/-- An integer that rounds a value of at most a bound is above its negative. -/
theorem neg_le_of_nearestEven {x : ℚ} {n m : ℤ} (h : NearestEven x n) (hx : |x| ≤ m) : -m ≤ n :=
  nearestEven_le_of_le h (by rw [Int.cast_neg]; linarith [neg_abs_le x])

theorem pos_of_nearestEven_pos {x : ℚ} {n : ℤ} (h : NearestEven x n) (hn : 0 < n) : 0 < x := by
  have h1 := (abs_le.mp h.1).1
  have : (1 : ℚ) ≤ n := by exact_mod_cast hn
  linarith

/-- R58: to_int of a finite value. -/
theorem toIntRound_fin {q : XQ} {n : Int} (w : Nat) (hd : 0 < q.d) (hn : NearestEven (ratOf q) n) :
    let hi : Int := 2 ^ (w - 1) - 1
    toIntRound (.fin q) w = (if (hi + 1 : ℚ) < |ratOf q| ∨ hi < n then (Val.ofInt (if 0 < ratOf q then hi else -hi - 1), flInvalid)
        else (Val.ofInt n, flIf (n ≠ ratOf q) flInexact)) := by
  have hs := nearestEven_signed hd 0
  have he := near_exact_iff hd 0
  rw [zpow_zero, mul_one] at hs he
  obtain rfl := nearestEven_unique hn hs
  have hP : ((2 ^ (w - 1) : Nat) : ℤ) = 2 ^ (w - 1) := by push_cast; rfl
  have hpos : (0 : ℤ) < 2 ^ (w - 1) := by positivity
  dsimp only
  unfold toIntRound
  simp only [hP]
  generalize (2 : ℤ) ^ (w - 1) = P at *
  have hcast : ((P - 1 : ℤ) + 1 : ℚ) = P := by push_cast; ring
  have hlo : -(P - 1) - 1 = -P := by ring
  simp only [ofInt_lt_abs hd, hcast, hlo, sub_add_cancel]
  by_cases hfar : (P : ℚ) < |ratOf q|
  · have hne : ratOf q ≠ 0 := by
      rintro h
      rw [h, abs_zero] at hfar
      have : (0 : ℚ) < P := by exact_mod_cast hpos
      linarith
    have hsgn : q.n < 0 ↔ ¬ 0 < ratOf q := by rw [← ratOf_neg_iff hd, not_lt, le_iff_lt_or_eq, or_iff_left hne]
    rw [if_pos hfar, if_pos (Or.inl hfar)]
    by_cases h : 0 < ratOf q <;> simp [hsgn, h]
  · rw [if_neg hfar]
    change (if q.signed (q.near 0).1 > P - 1 then _ else if q.signed (q.near 0).1 < -P then _ else _) = _
    by_cases hbig : P - 1 < q.signed (q.near 0).1
    · rw [if_pos hbig, if_pos (Or.inr hbig), if_pos (pos_of_nearestEven_pos hn (by omega))]
    · rw [if_neg hbig, if_neg (not_or.mpr ⟨hfar, hbig⟩), if_neg (not_lt.mpr (neg_le_of_nearestEven hn (not_lt.mp hfar)))]
      congr 2
      rw [Bool.eq_iff_iff, Bool.not_eq_true', ← Bool.not_eq_true, he, decide_eq_true_iff]

/-! ### Formats of floating point -/

theorem maxFin_den (f : Fmt) : 0 < f.maxFin.d := by cases f <;> exact Nat.one_pos

/-- Every value of a format is far below the exponent at which the model no longer rounds. -/
theorem maxFin_lt {f : Fmt} (hf : f.isInt = false) : ratOf f.maxFin < 2 ^ (f.emin + 2 ^ f.ew) := by
  have hn : f.maxFin.n ≠ 0 := by cases f <;> decide
  have he : f.maxFin.floorLog2 + 1 ≤ f.emin + 2 ^ f.ew := by
    revert hf
    cases f <;> decide
  calc ratOf f.maxFin ≤ |ratOf f.maxFin| := le_abs_self _
    _ < 2 ^ (f.maxFin.floorLog2 + 1) := (binade_floorLog2 (maxFin_den f) hn).2
    _ ≤ 2 ^ (f.emin + 2 ^ f.ew) := zpow_le_zpow_right₀ (by norm_num) he

/-- A value rounds to at least the integers that its magnitude reaches. -/
theorem natCast_le_abs_of_nearestEven {x : ℚ} {k : ℤ} {n : Nat} (h : NearestEven x k) (hn : (n : ℚ) ≤ |x|) : (n : ℤ) ≤ |k| := by
  rcases le_total 0 x with hx | hx
  · rw [abs_of_nonneg hx] at hn
    exact (nearestEven_le_of_le h (by exact_mod_cast hn)).trans (le_abs_self k)
  · rw [abs_of_nonpos hx] at hn
    exact (nearestEven_le_of_le (nearestEven_neg h) (by exact_mod_cast hn)).trans (neg_le_abs k)

/-- What a value of the binade of e rounds to on the grid of m fraction bits is of at least 2^e. -/
theorem binade_le_rounded {x : ℚ} {e k : ℤ} {m : Nat} (h : Binade x e) (hk : NearestEven (x * (2 : ℚ) ^ (-(e - m : ℤ))) k) :
    (2 : ℚ) ^ e ≤ |k * (2 : ℚ) ^ (e - m : ℤ)| := by
  have hg : (0 : ℚ) < 2 ^ (e - m : ℤ) := zpow_pos (by norm_num) _
  have hx : ((2 ^ m : Nat) : ℚ) ≤ |x * (2 : ℚ) ^ (-(e - m : ℤ))| := by
    rw [abs_mul, abs_of_pos (zpow_pos (by norm_num : (0 : ℚ) < 2) _), zpow_neg, ← div_eq_mul_inv, le_div_iff₀ hg]
    refine le_of_eq_of_le ?_ h.1
    rw [Nat.cast_pow, Nat.cast_ofNat, ← zpow_natCast, ← zpow_add₀ (by norm_num)]
    congr 1; ring
  have hk' : ((2 ^ m : Nat) : ℚ) ≤ |(k : ℚ)| := by exact_mod_cast natCast_le_abs_of_nearestEven hk hx
  rw [abs_mul, abs_of_pos hg]
  calc (2 : ℚ) ^ e = (2 ^ m : Nat) * 2 ^ (e - m : ℤ) := by
        rw [Nat.cast_pow, Nat.cast_ofNat, ← zpow_natCast, ← zpow_add₀ (by norm_num)]
        congr 1; ring
    _ ≤ _ := by gcongr

/-- What a value rounds to on the grid of a format, were the format unbounded. -/
def XQ.onGrid (q : XQ) (f : Fmt) : XQ :=
  ⟨q.signed (q.near (-(max q.floorLog2 f.emin - f.mant))).1, 1, max q.floorLog2 f.emin - f.mant⟩

/-- What a value rounds to with the exponent unbounded below too: its magnitude tells whether it is tiny (R57). -/
def XQ.ofBinade (q : XQ) (f : Fmt) : XQ := ⟨(q.near (f.mant - q.floorLog2)).1, 1, q.floorLog2 - f.mant⟩

theorem roundFin_of_near {q : XQ} {f : Fmt} (h : ¬ q.floorLog2 > f.emin + 2 ^ f.ew) :
    let exact := (q.near (-(max q.floorLog2 f.emin - f.mant))).2
    let fl := flIf (!exact) flInexact ||| flIf ((q.ofBinade f).lt (XQ.pow2 f.emin) && !exact) flUnderflow
    roundFin q f = if f.maxFin.lt (q.onGrid f).abs then (if f = .e4m3 then .nan else .inf (q.n < 0), fl ||| flOverflow ||| flInexact)
      else (if (q.near (-(max q.floorLog2 f.emin - f.mant))).1 = 0 then Val.zero else .fin (q.onGrid f), fl) := by
  unfold roundFin
  simp only [if_neg h, XQ.onGrid, XQ.signed, XQ.ofBinade, decide_eq_true_iff]
  split_ifs <;> rfl

theorem ratOf_onGrid (q : XQ) (f : Fmt) :
    ratOf (q.onGrid f) = q.signed (q.near (-(max q.floorLog2 f.emin - f.mant))).1 * 2 ^ (max q.floorLog2 f.emin - f.mant) := by
  rw [ratOf, XQ.onGrid, Nat.cast_one, div_one]

theorem ratOf_pow2 (e : ℤ) : ratOf (XQ.pow2 e) = 2 ^ e := by simp [ratOf, XQ.pow2]

theorem ratOf_ofBinade (q : XQ) (f : Fmt) :
    ratOf (q.ofBinade f) = |(q.signed (q.near (-(q.floorLog2 - f.mant))).1 : ℚ) * 2 ^ (q.floorLog2 - f.mant)| := by
  rw [abs_mul, ← Int.cast_abs, abs_signed, abs_of_pos (zpow_pos (by norm_num : (0 : ℚ) < 2) _), neg_sub, ratOf, XQ.ofBinade, Nat.cast_one, div_one]

/-- R57: what a finite value other than zero rounds to, with its flags. -/
theorem roundFin_spec {f : Fmt} {q : XQ} {e : Int} (hf : f.isInt = false) (hd : 0 < q.d) (he : Binade (ratOf q) e) :
    let x := ratOf q
    let g := (2 : ℚ) ^ (max e f.emin - f.mant)
    ∃ k j : Int, NearestEven (x / g) k ∧ NearestEven (x / (2 : ℚ) ^ (e - f.mant)) j
      ∧ let big := ratOf f.maxFin < |k * g|
        let tiny := |j * (2 : ℚ) ^ (e - f.mant)| < (2 : ℚ) ^ f.emin
        (roundFin q f).2 = flIf (k * g ≠ x ∨ big) flInexact ||| flIf (tiny ∧ k * g ≠ x) flUnderflow ||| flIf big flOverflow
        ∧ (big → (roundFin q f).1 = if f = .e4m3 then .nan else .inf (q.n < 0))
        ∧ (¬ big → ∃ p : XQ, (roundFin q f).1 = .fin p ∧ ratOf p = k * g) := by
  obtain rfl : q.floorLog2 = e := floorLog2_of_binade hd he
  have hk := nearestEven_signed hd (-(max q.floorLog2 f.emin - f.mant))
  have hj := nearestEven_signed hd (-(q.floorLog2 - f.mant))
  have hexact := near_exact_iff hd (-(max q.floorLog2 f.emin - f.mant))
  have hinv (a : ℤ) : (2 : ℚ) ^ (-a) = ((2 : ℚ) ^ a)⁻¹ := zpow_neg _ _
  have hg : (2 : ℚ) ^ (max q.floorLog2 f.emin - f.mant) ≠ 0 := zpow_ne_zero _ (by norm_num)
  rw [hinv, ← div_eq_mul_inv, eq_div_iff hg, ← ratOf_onGrid] at hexact
  dsimp only
  refine ⟨_, _, by rw [div_eq_mul_inv, ← hinv]; exact hk, by rw [div_eq_mul_inv, ← hinv]; exact hj, ?_⟩
  rw [← ratOf_onGrid, ← ratOf_ofBinade]
  by_cases hfar : q.floorLog2 > f.emin + 2 ^ f.ew
  · have hpos : (0 : ℤ) < 2 ^ f.ew := pow_pos (by norm_num) _
    have hmax : max q.floorLog2 f.emin = q.floorLog2 := max_eq_left (by linarith)
    have hlow : (2 : ℚ) ^ q.floorLog2 ≤ |ratOf (q.onGrid f)| := by
      rw [ratOf_onGrid, hmax]
      exact binade_le_rounded he hj
    have hbig : ratOf f.maxFin < |ratOf (q.onGrid f)| :=
      (maxFin_lt hf).trans_le ((zpow_le_zpow_right₀ (by norm_num) hfar.le).trans hlow)
    have htiny : ¬ ratOf (q.ofBinade f) < 2 ^ f.emin := by
      rw [ratOf_ofBinade, not_lt]
      exact (zpow_le_zpow_right₀ (by norm_num) (by linarith)).trans (binade_le_rounded he hj)
    simp only [roundFin, if_pos hfar, hbig, htiny, or_true, false_and, not_true_eq_false, decide_true, decide_false]
    exact ⟨by decide, fun _ => trivial, fun h => h.elim⟩
  · have hbig : f.maxFin.lt (q.onGrid f).abs = true ↔ ratOf f.maxFin < |ratOf (q.onGrid f)| := by
      rw [lt_iff_ratOf (maxFin_den f) (show 0 < (q.onGrid f).abs.d from Nat.one_pos), ratOf_abs]
    have htiny : (q.ofBinade f).lt (XQ.pow2 f.emin) = true ↔ ratOf (q.ofBinade f) < 2 ^ f.emin := by
      rw [lt_iff_ratOf (show 0 < (q.ofBinade f).d from Nat.one_pos) (show 0 < (XQ.pow2 f.emin).d from Nat.one_pos), ratOf_pow2]
    rw [roundFin_of_near hfar]
    simp only [← hbig, ← htiny, ne_eq, ← hexact]
    refine ⟨?_, fun h => by rw [if_pos h], fun h => ?_⟩
    · generalize (q.near (-(max q.floorLog2 f.emin - f.mant))).2 = exact
      generalize (q.ofBinade f).lt (XQ.pow2 f.emin) = tiny
      cases f.maxFin.lt (q.onGrid f).abs <;> cases exact <;> cases tiny <;> rfl
    · rw [if_neg h]
      by_cases h0 : (q.near (-(max q.floorLog2 f.emin - f.mant))).1 = 0
      · exact ⟨XQ.zero, by rw [if_pos h0]; rfl, by rw [ratOf_onGrid, h0]; simp [ratOf, XQ.zero, XQ.signed]⟩
      · exact ⟨_, by rw [if_neg h0], rfl⟩

theorem roundRne_fin {f : Fmt} {q : XQ} (hf : f.isInt = false) (hn : q.n ≠ 0) : roundRne (.fin q) f = roundFin q f := by
  cases f <;> simp_all [roundRne, Fmt.isInt]

end Sys2Proof.Machine
end

section
/-! SUPPORT. Codes and saturation (R56, R59, R60): a code of a finite value converts to itself. -/
namespace Sys2Proof.Machine
open Sys2Proof.Safety

/-! ### Saturation -/

theorem convert_sat_other {f : Fmt} (v : Val) (h1 : f ≠ .e4m3) (h2 : f ≠ .e5m2) : convert v f true = convert v f false := by
  simp [convert, h1, h2]

/-- R60: a conversion that saturates, of a finite value: a finite result stays, and any other is the largest finite value. -/
theorem convert_sat_fin {f : Fmt} (q : XQ) (hf : f = .e4m3 ∨ f = .e5m2) :
    (∀ y, (convert (.fin q) f false).1 = .fin y → convert (.fin q) f true = (.fin y, (convert (.fin q) f false).2))
    ∧ ((∀ y, (convert (.fin q) f false).1 ≠ .fin y) →
        convert (.fin q) f true = (.fin (if decide (q.n < 0) = true then f.maxFin.neg else f.maxFin), (convert (.fin q) f false).2)) := by
  have hsat : (f == .e4m3 || f == .e5m2) = true := by simpa using hf
  simp only [convert, hsat, Bool.and_true, if_true, Bool.false_eq_true, if_false]
  generalize roundRne (.fin q) f = r
  obtain ⟨y, fl⟩ := r
  cases y <;> simp [Val.isInf, Val.isNan, Val.isNeg]

/-- A conversion that gives a finite value does not saturate. -/
theorem convert_of_fin {v : Val} {f : Fmt} {y : XQ} {fl : Flags} (sat : Bool) (hv : ∀ b, v ≠ .inf b) (h : roundRne v f = (.fin y, fl)) :
    convert v f sat = (.fin y, fl) := by
  unfold convert
  cases v <;> simp_all [Val.isInf, Val.isNan]

/-! ### The fields of a code -/

theorem sign_add_mag {b w : Nat} (hw : 0 < w) (hb : b < 2 ^ w) :
    b = (if b.testBit (w - 1) then 2 ^ (w - 1) else 0) + b % 2 ^ (w - 1) := by
  obtain ⟨w, rfl⟩ : ∃ k, w = k + 1 := ⟨w - 1, by omega⟩
  have h := Nat.mod_pow_succ (x := b) (b := 2) (k := w)
  rw [Nat.mod_eq_of_lt hb] at h
  rw [Nat.add_sub_cancel, Nat.testBit_eq_decide_div_mod_eq]
  obtain h0 | h1 := Nat.mod_two_eq_zero_or_one (b / 2 ^ w)
  · simpa [h0] using h
  · rw [h1, mul_one, add_comm] at h
    simpa [h1] using h

/-- The integer that the significand of a code stands for. -/
def significand (f : Fmt) (ef mf : Nat) : Nat := if ef = 0 then mf else 2 ^ f.mant + mf

/-- The value with a sign, an exponent field and a fraction field. -/
def fieldValue (f : Fmt) (s : Bool) (ef mf : Nat) : XQ :=
  ⟨if s then -(significand f ef mf : ℤ) else significand f ef mf, 1, (max ef 1 : Nat) - f.bias - f.mant⟩

/-- R56: a code of a finite value, by its fields. -/
theorem decode_fin {f : Fmt} {b : Nat} {q : XQ} (hf : f.isInt = false) (hb : b < 2 ^ f.width) (h : decode b f = .fin q) :
    ∃ (s : Bool) (ef mf : Nat), mf < 2 ^ f.mant ∧ ef * 2 ^ f.mant + mf ≤ f.maxCode
      ∧ b = (if s then 2 ^ (f.width - 1) else 0) + (ef * 2 ^ f.mant + mf) ∧ q = fieldValue f s ef mf := by
  have hw : 0 < f.width := by cases f <;> decide
  have hdiv : (b % 2 ^ (f.width - 1)) >>> f.mant * 2 ^ f.mant + b % 2 ^ (f.width - 1) % 2 ^ f.mant = b % 2 ^ (f.width - 1) := by
    rw [Nat.shiftRight_eq_div_pow, Nat.mul_comm, Nat.div_add_mod]
  have hlt : b % 2 ^ (f.width - 1) < 2 ^ (f.width - 1) := Nat.mod_lt _ (by positivity)
  unfold decode at h
  simp only [Nat.mod_eq_of_lt hb, hf, Bool.false_eq_true, if_false] at h
  generalize hmag : b % 2 ^ (f.width - 1) = mag at *
  refine ⟨b.testBit (f.width - 1), mag >>> f.mant, mag % 2 ^ f.mant, Nat.mod_lt _ (by positivity), ?_, ?_, ?_⟩
  · rw [hdiv]
    split at h
    · cases h
    · split at h
      · cases h
      · cases f <;> simp_all [Fmt.isNanMag, Fmt.infCode, Fmt.maxCode, Fmt.isInt, Fmt.width] <;> omega
  · rw [hdiv, ← hmag]
    exact sign_add_mag hw hb
  · split at h
    · cases h
    · split at h
      · cases h
      · injection h with h
        rw [← h, fieldValue, significand]
        by_cases h0 : mag >>> f.mant = 0
        · simp only [h0, if_true, Nat.zero_max]
          split_ifs <;> rfl
        · simp only [h0, if_false, max_eq_left (Nat.one_le_iff_ne_zero.mpr h0)]
          split_ifs <;> rfl

section
variable {f : Fmt} {s : Bool} {ef mf : Nat}

theorem fieldValue_n_eq_zero : (fieldValue f s ef mf).n = 0 ↔ significand f ef mf = 0 := by
  cases s <;> simp [fieldValue]

theorem fieldValue_sign (h : significand f ef mf ≠ 0) : (fieldValue f s ef mf).n < 0 ↔ s = true := by
  cases s <;> simp [fieldValue]
  omega

theorem abs_ratOf_fieldValue : |ratOf (fieldValue f s ef mf)| = significand f ef mf * 2 ^ ((max ef 1 : Nat) - f.bias - f.mant) := by
  rw [abs_ratOf]
  cases s <;> simp [fieldValue]

/-- A value rounds to itself on the grid of its own exponent. -/
theorem near_fieldValue : (fieldValue f s ef mf).near (-((max ef 1 : Nat) - f.bias - f.mant)) = (significand f ef mf, true) := by
  obtain ⟨hnear, hexact⟩ := near_spec (x := fieldValue f s ef mf) Nat.one_pos (-((max ef 1 : Nat) - f.bias - f.mant))
  have hval : |ratOf (fieldValue f s ef mf)| * 2 ^ (-((max ef 1 : Nat) - f.bias - f.mant)) = (significand f ef mf : ℤ) := by
    rw [abs_ratOf_fieldValue, mul_assoc, ← zpow_add₀ (by norm_num), add_neg_cancel, zpow_zero, mul_one, Int.cast_natCast]
  rw [hval] at hnear hexact
  have hk : (((fieldValue f s ef mf).near (-((max ef 1 : Nat) - f.bias - f.mant))).1 : ℤ) = significand f ef mf :=
    nearestEven_unique hnear (nearestEven_self _)
  exact Prod.ext (by exact_mod_cast hk) (hexact.mpr (by rw [← hk, Int.cast_natCast]))

theorem significand_lt (hm : mf < 2 ^ f.mant) : significand f ef mf < 2 ^ (f.mant + 1) := by
  rw [significand, pow_succ]
  split_ifs <;> omega

theorem floorLog2_fieldValue_of_normal (h0 : ef ≠ 0) (hm : mf < 2 ^ f.mant) : (fieldValue f s ef mf).floorLog2 = ef - f.bias := by
  refine floorLog2_of_binade Nat.one_pos ?_
  have hmax : max ef 1 = ef := max_eq_left (Nat.one_le_iff_ne_zero.mpr h0)
  have hpos : (0 : ℚ) < 2 ^ ((ef : ℤ) - f.bias - f.mant) := zpow_pos (by norm_num) _
  have hlow : ((2 ^ f.mant : Nat) : ℚ) ≤ significand f ef mf := by
    rw [significand, if_neg h0]
    exact_mod_cast Nat.le_add_right _ _
  have hhigh : (significand f ef mf : ℚ) < (2 ^ (f.mant + 1) : Nat) := by exact_mod_cast significand_lt hm
  have hpow (a : Nat) (b : ℤ) (hb : a + ((ef : ℤ) - f.bias - f.mant) = b) : ((2 ^ a : Nat) : ℚ) * 2 ^ ((ef : ℤ) - f.bias - f.mant) = 2 ^ b := by
    rw [Nat.cast_pow, Nat.cast_ofNat, ← zpow_natCast, ← zpow_add₀ (by norm_num), hb]
  rw [Binade, abs_ratOf_fieldValue, hmax, ← hpow f.mant (ef - f.bias) (by ring), ← hpow (f.mant + 1) (ef - f.bias + 1) (by push_cast; ring)]
  constructor <;> gcongr

theorem floorLog2_fieldValue_of_subnormal (hm : mf < 2 ^ f.mant) (hn : significand f 0 mf ≠ 0) :
    (fieldValue f s 0 mf).floorLog2 < 1 - f.bias := by
  have hlow := (binade_floorLog2 (x := fieldValue f s 0 mf) Nat.one_pos (mt fieldValue_n_eq_zero.mp hn)).1
  have hhigh : |ratOf (fieldValue f s 0 mf)| < 2 ^ (1 - f.bias) := by
    rw [abs_ratOf_fieldValue]
    calc (significand f 0 mf : ℚ) * 2 ^ (((max 0 1 : Nat) : ℤ) - f.bias - f.mant) < (2 ^ f.mant : Nat) * 2 ^ (((max 0 1 : Nat) : ℤ) - f.bias - f.mant) := by
          gcongr
          exact_mod_cast hm
      _ = 2 ^ (1 - f.bias) := by
          rw [Nat.cast_pow, Nat.cast_ofNat, ← zpow_natCast, ← zpow_add₀ (by norm_num)]
          congr 1
          simp
  exact (zpow_lt_zpow_iff_right₀ (by norm_num)).mp (hlow.trans_lt hhigh)

/-- The exponent field of a code gives the grid of its value. -/
theorem gridExp_fieldValue (hf : f.isInt = false) (hm : mf < 2 ^ f.mant) (hn : significand f ef mf ≠ 0) :
    max (fieldValue f s ef mf).floorLog2 f.emin = (max ef 1 : Nat) - f.bias := by
  have hemin : f.emin = 1 - f.bias := by cases f <;> simp_all [Fmt.emin, Fmt.bias, Fmt.isInt]
  rcases Nat.eq_zero_or_pos ef with rfl | h0
  · have := floorLog2_fieldValue_of_subnormal (s := s) hm hn
    simp only [Nat.zero_max, Nat.cast_one]
    omega
  · rw [floorLog2_fieldValue_of_normal h0.ne' hm]
    omega

/-- The largest finite value is that of the largest finite code. -/
theorem ratOf_maxFin (hf : f.isInt = false) :
    ratOf f.maxFin = (2 ^ f.mant + f.maxCode % 2 ^ f.mant : Nat) * 2 ^ (((f.maxCode / 2 ^ f.mant : Nat) : ℤ) - f.bias - f.mant) := by
  cases f <;> simp [ratOf, Fmt.maxFin, Fmt.maxCode, Fmt.mant, Fmt.bias, Fmt.isInt] at hf ⊢
  all_goals norm_num

/-- Codes order the values of one sign. -/
theorem abs_fieldValue_le_maxFin (hf : f.isInt = false) (hm : mf < 2 ^ f.mant) (hc : ef * 2 ^ f.mant + mf ≤ f.maxCode) :
    |ratOf (fieldValue f s ef mf)| ≤ ratOf f.maxFin := by
  have hx : 1 ≤ f.maxCode / 2 ^ f.mant := by cases f <;> simp_all [Fmt.maxCode, Fmt.mant, Fmt.isInt]
  have hle : ef ≤ f.maxCode / 2 ^ f.mant := (Nat.le_div_iff_mul_le (by positivity)).mpr (by omega)
  rw [abs_ratOf_fieldValue, ratOf_maxFin hf]
  have hdm := Nat.div_add_mod' f.maxCode (2 ^ f.mant)
  generalize f.maxCode / 2 ^ f.mant = efx at *
  generalize f.maxCode % 2 ^ f.mant = mfx at *
  by_cases htop : max ef 1 = efx
  · have hsig : significand f ef mf ≤ 2 ^ f.mant + mfx := by
      rw [significand]
      split_ifs with h0
      · omega
      · obtain rfl : ef = efx := by omega
        omega
    rw [htop]
    gcongr
  · have hsig : (significand f ef mf : ℚ) ≤ (2 ^ (f.mant + 1) : Nat) := by exact_mod_cast (significand_lt hm).le
    calc (significand f ef mf : ℚ) * 2 ^ (((max ef 1 : Nat) : ℤ) - f.bias - f.mant)
        ≤ (2 ^ (f.mant + 1) : Nat) * 2 ^ (((max ef 1 : Nat) : ℤ) - f.bias - f.mant) := by gcongr
      _ = (2 ^ f.mant : Nat) * 2 ^ ((((max ef 1 : Nat) : ℤ) + 1) - f.bias - f.mant) := by
          rw [show (((max ef 1 : Nat) : ℤ) + 1) - f.bias - f.mant = ((max ef 1 : Nat) : ℤ) - f.bias - f.mant + 1 by ring,
            zpow_add_one₀ (by norm_num), pow_succ]
          push_cast; ring
      _ ≤ (2 ^ f.mant + mfx : Nat) * 2 ^ ((efx : ℤ) - f.bias - f.mant) := by
          gcongr
          · omega
          · norm_num
          · omega

/-- The code of a value with given fields. -/
theorem encode_fieldValue (hf : f.isInt = false) (hm : mf < 2 ^ f.mant) (hn : significand f ef mf ≠ 0) :
    encode (.fin (fieldValue f s ef mf)) f = (if s then 2 ^ (f.width - 1) else 0) + (ef * 2 ^ f.mant + mf) := by
  have hemin : f.emin = 1 - f.bias := by cases f <;> simp_all [Fmt.emin, Fmt.bias, Fmt.isInt]
  have hsign := fieldValue_sign (s := s) hn
  have hnear := near_fieldValue (f := f) (s := s) (ef := ef) (mf := mf)
  have hneg (a : ℤ) : f.mant - a = -(a - f.mant) := by ring
  rw [encode]
  simp only [mt fieldValue_n_eq_zero.mp hn, hf, if_false, Bool.false_eq_true, hemin, decide_eq_true_iff, hsign]
  rcases Nat.eq_zero_or_pos ef with rfl | h0
  · rw [if_pos (floorLog2_fieldValue_of_subnormal hm hn), hneg, show (1 : ℤ) = (max 0 1 : Nat) from rfl, hnear]
    simp [significand]
  · rw [max_eq_left h0] at hnear
    rw [floorLog2_fieldValue_of_normal h0.ne' hm, if_neg (by omega), hneg, hnear, significand, if_neg h0.ne', sub_add_cancel, Int.toNat_natCast, Nat.add_sub_cancel_left, add_assoc]

theorem roundRne_fieldValue (hf : f.isInt = false) (hm : mf < 2 ^ f.mant) (hc : ef * 2 ^ f.mant + mf ≤ f.maxCode)
    (hn : significand f ef mf ≠ 0) : roundRne (.fin (fieldValue f s ef mf)) f = (.fin (fieldValue f s ef mf), flNone) := by
  have hgrid := gridExp_fieldValue (s := s) hf hm hn
  have hnear : (fieldValue f s ef mf).near (-(max (fieldValue f s ef mf).floorLog2 f.emin - f.mant)) = (significand f ef mf, true) := by
    rw [hgrid, near_fieldValue]
  have hself : (fieldValue f s ef mf).onGrid f = fieldValue f s ef mf := by
    rw [XQ.onGrid, hnear, hgrid, XQ.signed]
    simp only [fieldValue_sign hn]
    rfl
  have hle : ¬ f.maxFin.lt (fieldValue f s ef mf).abs = true := by
    rw [lt_iff_ratOf (maxFin_den f) Nat.one_pos, ratOf_abs, not_lt]
    exact abs_fieldValue_le_maxFin hf hm hc
  have hfar : ¬ (fieldValue f s ef mf).floorLog2 > f.emin + 2 ^ f.ew := by
    have hef : ef ≤ f.maxCode / 2 ^ f.mant := (Nat.le_div_iff_mul_le (by positivity)).mpr (by omega)
    have hew : f.maxCode / 2 ^ f.mant ≤ 2 ^ f.ew := by
      revert hf
      cases f <;> decide
    have hemin : f.emin = 1 - f.bias := by cases f <;> simp_all [Fmt.emin, Fmt.bias, Fmt.isInt]
    have hpow : ((2 ^ f.ew : Nat) : ℤ) = 2 ^ f.ew := by push_cast; rfl
    omega
  rw [roundRne_fin hf (mt fieldValue_n_eq_zero.mp hn), roundFin_of_near hfar]
  simp only [hself, hle, hnear, hn, if_false]
  simp [flIf, flNone]

end

/-! ### A code converts to itself -/

/-- R56, R59: the conversion of a floating-point code. -/
theorem convertCode_decode_float {f : Fmt} {b : Nat} {q : XQ} (sat : Bool) (hf : f.isInt = false) (hb : b < 2 ^ f.width)
    (h : decode b f = .fin q) (hn : q.n ≠ 0) : convertCode (decode b f) f sat = (b, flNone) := by
  obtain ⟨s, ef, mf, hm, hc, hcode, rfl⟩ := decode_fin hf hb h
  have hn' := mt fieldValue_n_eq_zero.mpr hn
  rw [h, convertCode, convert_of_fin sat (by simp) (roundRne_fieldValue hf hm hc hn')]
  simp only [encode_fieldValue hf hm hn', ← hcode]

/-- to_int keeps an integer that the width holds. -/
theorem toIntRound_ofInt {w : Nat} {i : ℤ} (hlo : -(2 ^ (w - 1)) ≤ i) (hhi : i < 2 ^ (w - 1)) :
    toIntRound (Val.ofInt i) w = (Val.ofInt i, flNone) := by
  have h := toIntRound_fin (q := XQ.ofInt i) (n := i) w Nat.one_pos (by rw [ratOf_ofInt]; exact nearestEven_self i)
  rw [Val.ofInt, h, if_neg, ratOf_ofInt]
  · simp [flIf, Val.ofInt]
  · rw [ratOf_ofInt, not_or, not_lt, not_lt]
    refine ⟨?_, by omega⟩
    rw [← Int.cast_abs]
    exact_mod_cast (by rw [sub_add_cancel]; exact abs_le.mpr ⟨hlo, hhi.le⟩ : |i| ≤ 2 ^ (w - 1) - 1 + 1)

theorem near_ofInt (i : ℤ) : ((XQ.ofInt i).near 0).1 = i.natAbs := by
  obtain ⟨h, -⟩ := near_spec (x := XQ.ofInt i) Nat.one_pos 0
  rw [ratOf_ofInt, zpow_zero, mul_one, ← Int.cast_abs, Int.abs_eq_natAbs] at h
  exact_mod_cast nearestEven_unique h (nearestEven_self _)

/-- The code of an integer that the format holds is its two's complement. -/
theorem encode_ofInt {f : Fmt} {i : ℤ} (hf : f.isInt = true) :
    encode (Val.ofInt i) f = if i < 0 then (2 ^ f.width - i.natAbs) % 2 ^ f.width else i.natAbs := by
  simp only [encode, Val.ofInt, hf, if_true, near_ofInt]
  by_cases h0 : i = 0
  · subst h0
    rfl
  · rw [if_neg (show ¬ (XQ.ofInt i).n = 0 from h0)]
    rfl

/-- R56, R58: the conversion of an integer code. -/
theorem convertCode_decode_int {f : Fmt} {b : Nat} (sat : Bool) (hf : f.isInt = true) (hb : b < 2 ^ f.width) :
    convertCode (decode b f) f sat = (b, flNone) := by
  have hw : 0 < f.width := by cases f <;> decide
  have hround (v : Val) : roundRne v f = toIntRound v f.width := by cases f <;> simp_all [roundRne, Fmt.width, Fmt.isInt]
  have hdec : decode b f = Val.ofInt (if b.testBit (f.width - 1) then (b : ℤ) - (2 ^ f.width : Nat) else b) := by
    rw [decode]
    simp only [Nat.mod_eq_of_lt hb, hf, if_true]
  have hcode := sign_add_mag hw hb
  have hlow : b % 2 ^ (f.width - 1) < 2 ^ (f.width - 1) := Nat.mod_lt _ (by positivity)
  have hP : ((2 ^ (f.width - 1) : Nat) : ℤ) = 2 ^ (f.width - 1) := by push_cast; rfl
  have htwo : 2 ^ f.width = 2 * 2 ^ (f.width - 1) := by rw [← pow_succ', Nat.sub_add_cancel hw]
  have hfix : toIntRound (decode b f) f.width = (decode b f, flNone) := by
    rw [hdec]
    refine toIntRound_ofInt ?_ ?_ <;> split_ifs at hcode ⊢ <;> omega
  have hconv : convert (decode b f) f sat = (decode b f, flNone) := by
    rw [hdec] at hfix ⊢
    exact convert_of_fin sat (by simp [Val.ofInt]) (by rw [hround]; exact hfix)
  rw [convertCode, hconv]
  simp only [hdec, encode_ofInt hf, Prod.mk.injEq, and_true]
  split_ifs at hcode ⊢ with h1 h2
  · rw [Nat.mod_eq_of_lt (by omega)]
    omega
  all_goals omega

end Sys2Proof.Machine
end

section
/-! SUPPORT. The scale of an MX block (R64). -/
namespace Sys2Proof.Machine
open Sys2Proof.Safety

/-- The largest floor_log2 so far of the finite elements other than zero. -/
def topStep (m : Option Int) (v : Val) : Option Int :=
  match v with
  | .fin q => if q.n = 0 then m else (match m with | none => some q.floorLog2 | some l => some (max l q.floorLog2))
  | _ => m

theorem mxScale_eq (vals : List Val) (elem : Fmt) :
    mxScale vals elem = mxScaleOf (vals.any Val.isNan) (vals.foldl topStep none) elem := rfl

theorem foldl_topStep_of_zero {vals : List Val} (m : Option Int) (h : ∀ q : XQ, .fin q ∈ vals → q.n = 0) : vals.foldl topStep m = m := by
  induction vals with
  | nil => rfl
  | cons v vals ih =>
    have hv : topStep m v = m := by
      cases v with
      | fin q => exact if_pos (h q List.mem_cons_self)
      | _ => rfl
    rw [List.foldl_cons, hv, ih fun q hq => h q (List.mem_cons_of_mem _ hq)]

/-- A bound that an element reaches is the largest floor_log2. -/
theorem foldl_topStep {vals : List Val} {e : Int} (m : Option Int) (hm : ∀ l ∈ m, l ≤ e)
    (h : ∀ q : XQ, .fin q ∈ vals → q.n ≠ 0 → q.floorLog2 ≤ e)
    (hit : m = some e ∨ ∃ q : XQ, .fin q ∈ vals ∧ q.n ≠ 0 ∧ q.floorLog2 = e) : vals.foldl topStep m = some e := by
  induction vals generalizing m with
  | nil => simpa using hit
  | cons v vals ih =>
    have hrest (q : XQ) (hq : .fin q ∈ vals) := h q (List.mem_cons_of_mem _ hq)
    rw [List.foldl_cons]
    by_cases hv : ∃ q : XQ, v = .fin q ∧ q.n ≠ 0
    · obtain ⟨q, rfl, hn⟩ := hv
      have hq := h q List.mem_cons_self hn
      obtain ⟨l, hl, hle, hreach⟩ : ∃ l, topStep m (.fin q) = some l ∧ l ≤ e ∧ (m = some e ∨ q.floorLog2 = e → l = e) := by
        rcases m with _ | l
        · exact ⟨_, if_neg hn, hq, by simp⟩
        · have := hm l rfl
          exact ⟨_, if_neg hn, max_le this hq, by simp; omega⟩
      rw [hl]
      refine ih _ (by simpa using hle) hrest ?_
      rcases hit with hit | ⟨r, hr, hr0, hre⟩
      · exact Or.inl (by rw [hreach (Or.inl hit)])
      · rcases List.mem_cons.mp hr with hr | hr
        · cases hr
          exact Or.inl (by rw [hreach (Or.inr hre)])
        · exact Or.inr ⟨r, hr, hr0, hre⟩
    · have hstep : topStep m v = m := by
        cases v with
        | fin q => exact if_pos (by_contra fun hn => hv ⟨q, rfl, hn⟩)
        | _ => rfl
      rw [hstep]
      refine ih m hm hrest (hit.imp_right ?_)
      rintro ⟨r, hr, hr0, hre⟩
      rcases List.mem_cons.mp hr with rfl | hr
      · exact absurd ⟨r, rfl, hr0⟩ hv
      · exact ⟨r, hr, hr0, hre⟩

theorem any_isNan {vals : List Val} : vals.any Val.isNan = true ↔ .nan ∈ vals := by
  rw [List.any_eq_true]
  constructor
  · rintro ⟨v, hv, hn⟩
    cases v <;> simp_all [Val.isNan]
  · exact fun h => ⟨_, h, rfl⟩

theorem mxScale_of_nan {vals : List Val} (elem : Fmt) (h : .nan ∈ vals) : mxScale vals elem = 0xFF := by
  rw [mxScale_eq, any_isNan.mpr h]
  rfl

section
variable {vals : List Val} (elem : Fmt) (h : .nan ∉ vals)
include h

theorem mxScale_of_top_none (ht : vals.foldl topStep none = none) : mxScale vals elem = 0x7F := by
  rw [mxScale_eq, Bool.eq_false_iff.mpr (mt any_isNan.mp h), ht]
  rfl

theorem mxScale_of_top_some {l : Int} (ht : vals.foldl topStep none = some l) :
    mxScale vals elem = (min (max (l - emaxOf elem) (-127)) 127 + 127).toNat := by
  rw [mxScale_eq, Bool.eq_false_iff.mpr (mt any_isNan.mp h), ht]
  rfl

theorem mxScale_ne_of_not_nan : mxScale vals elem ≠ 0xFF := by
  cases ht : vals.foldl topStep none with
  | none => rw [mxScale_of_top_none elem h ht]; decide
  | some l => rw [mxScale_of_top_some elem h ht]; omega

end

/-- R64: the scale, the codes and the flags of a block. -/
theorem mxQuantise_spec {elem : Fmt} {vals : List Val} (helem : elem = .e4m3 ∨ elem = .e5m2) (hd : ∀ q : XQ, .fin q ∈ vals → 0 < q.d) :
    let (c, codes, fl) := mxQuantise vals elem
    (.nan ∈ vals → c = 0xFF ∧ codes = vals.map (fun _ => elem.nanCode) ∧ fl = flNone)
    ∧ (.nan ∉ vals → codes = vals.map (fun v => (convertCode (v.scale (127 - (c : Int))) elem true).1)
        ∧ fl = vals.foldl (fun s v => s ||| (convertCode (v.scale (127 - (c : Int))) elem true).2) flNone
        ∧ ((∀ q : XQ, .fin q ∈ vals → q.n = 0) → c = 0x7F)
        ∧ ∀ (e : Int) (q : XQ), .fin q ∈ vals → Binade (ratOf q) e → (∀ r : XQ, .fin r ∈ vals → |ratOf r| < (2 : ℚ) ^ (e + 1)) →
            (c : Int) = min (max (e - if elem = .e4m3 then 8 else 15) (-127)) 127 + 127) := by
  by_cases hnan : .nan ∈ vals
  · simp [mxQuantise, mxScale_of_nan elem hnan, hnan]
  · simp only [mxQuantise, if_neg (mxScale_ne_of_not_nan elem hnan), List.map_map, List.foldl_map, Function.comp_def]
    refine ⟨fun h => absurd h hnan, fun _ => ⟨trivial, trivial, fun hz => ?_, fun e q hq he hall => ?_⟩⟩
    · exact mxScale_of_top_none elem hnan (foldl_topStep_of_zero none hz)
    · have hfl : q.floorLog2 = e := floorLog2_of_binade (hd q hq) he
      have hn : q.n ≠ 0 := mt (ratOf_eq_zero_iff (hd q hq)).mpr (binade_ne_zero he)
      have htop : vals.foldl topStep none = some e := by
        refine foldl_topStep none (by simp) (fun r hr hr0 => ?_) (Or.inr ⟨q, hq, hn, hfl⟩)
        exact binade_exponent_le (binade_floorLog2 (hd r hr) hr0) (hall r hr) le_rfl
      have hemax : emaxOf elem = if elem = .e4m3 then 8 else 15 := by rcases helem with rfl | rfl <;> rfl
      rw [mxScale_of_top_some elem hnan htop, ← hemax]
      omega

end Sys2Proof.Machine

namespace Sys2Proof
open Machine Safety

/-- Settles O58: each clause is one law of the exact values, the reams, the sorter or the formats. -/
theorem sumsDoNotDependOnOrderOrSplit : Obligations.SumsDoNotDependOnOrderOrSplit := by
  unfold Obligations.SumsDoNotDependOnOrderOrSplit
  refine ⟨fun d ts us h => foldl_admitSum_perm d h, combine_foldl_admitSum, foldl_candInsert_spec, fun f q e hf hd he => ?_,
    fun w q n _ hd hn => ⟨toIntRound_fin w hd hn, rfl, fun b => ?_⟩, fun f v => ⟨convert_sat_other v, fun hf => ⟨?_, ?_, fun q => ?_⟩⟩,
    fun f b q sat hb h hn => ?_, fun elem vals => mxQuantise_spec⟩
  · rw [roundRne_fin hf (mt (ratOf_eq_zero_iff hd).mpr (binade_ne_zero he))]
    exact roundFin_spec hf hd he
  · have hP : ((2 ^ (w - 1) : Nat) : ℤ) = 2 ^ (w - 1) := by push_cast; rfl
    simp only [toIntRound, hP, neg_sub, sub_sub_cancel_left]
  · intro b
    rcases hf with rfl | rfl <;> rfl
  · rcases hf with rfl | rfl <;> rfl
  · obtain ⟨hfin, htop⟩ := convert_sat_fin q hf
    cases h : (convert (.fin q) f false).1 with
    | fin y => exact hfin y h
    | _ => exact htop fun y hy => Val.noConfusion (h.symm.trans hy)
  · cases hf : f.isInt with
    | false => exact convertCode_decode_float sat hf hb h hn
    | true => exact convertCode_decode_int sat hf hb

end Sys2Proof
end

section
/-! SUPPORT. The lines of the Loft (R216, R219, R223): a record stored in one, the line of a context's space that is found, and a line index
that is free. -/
namespace Sys2Proof.Machine
open Sys2Proof.Safety

/-! ### A record of a line -/

theorem rec4_eq (l : LoftLine) (i : Nat) : l.rec4 i = l.data / 2 ^ (128 * (i % 4)) % 2 ^ 128 := by
  rw [LoftLine.rec4, Nat.shiftRight_eq_div_pow]

/-- The record stands above the records that are lower in the line, and below those that are higher. -/
theorem setRec_eq (data i : Nat) {v : Nat} (hv : v < 2 ^ 128) : setRec data i v =
    2 ^ (128 * (i % 4)) * (2 ^ 128 * (data / 2 ^ (128 * (i % 4) + 128)) + v) + data % 2 ^ (128 * (i % 4)) := by
  simp only [setRec, Nat.mod_eq_of_lt hv, Nat.shiftRight_eq_div_pow, Nat.pow_add]
  ring

theorem rec4_store (l : LoftLine) (i now : Nat) {v : Nat} (hv : v < 2 ^ 128) : (l.store i v now).rec4 i = v := by
  rw [rec4_eq, LoftLine.store, setRec_eq l.data i hv, Nat.mul_add_div (Nat.two_pow_pos _),
    Nat.div_eq_of_lt (Nat.mod_lt _ (Nat.two_pow_pos _)), Nat.add_zero, Nat.mul_add_mod, Nat.mod_eq_of_lt hv]

/-- The write data of a line that holds one record alone. -/
theorem setRec_zero (i : Nat) {v : Nat} (hv : v < 2 ^ 128) : setRec 0 i v = v * 2 ^ (128 * (i % 4)) := by
  rw [setRec_eq 0 i hv, Nat.zero_div, Nat.zero_mod, Nat.mul_zero, Nat.zero_add, Nat.add_zero, Nat.mul_comm]

/-- The byte enables of one record alone (Table 12-8). -/
theorem recEnables_single (i : Nat) : recEnables (2 ^ (i % 4)) = 0xFFFF * 2 ^ (16 * (i % 4)) := by
  have hi : i % 4 < 4 := Nat.mod_lt _ (by decide)
  interval_cases i % 4 <;> rfl

/-! ### The resident line that is found -/

/-- A change of lines that leaves each its place is seen by the search. -/
theorem findLine_modLine (h : Channel) (c line i : Nat) {f : LoftLine → LoftLine}
    (hf : ∀ l, (f l).owner = l.owner ∧ (f l).stash = l.stash ∧ (f l).line = l.line) :
    (h.modLine i f).findLine c line = (h.findLine c line).map fun l => if l.idx == i then f l else l := by
  rw [Channel.findLine, Channel.modLine, List.find?_map, Channel.findLine]
  congr 2
  funext l
  obtain ⟨ho, hs, hl⟩ := hf l
  rw [Function.comp_apply]
  split
  · rw [ho, hs, hl]
  · rfl

theorem findLine_modLine_found {h : Channel} {c line : Nat} {l : LoftLine} {f : LoftLine → LoftLine} (hl : h.findLine c line = some l)
    (hf : ∀ l, (f l).owner = l.owner ∧ (f l).stash = l.stash ∧ (f l).line = l.line) :
    (h.modLine l.idx f).findLine c line = some (f l) := by
  rw [findLine_modLine h c line l.idx hf, hl, Option.map_some, if_pos (beq_self_eq_true _)]

theorem length_modLine (h : Channel) (i : Nat) (f : LoftLine → LoftLine) : (h.modLine i f).loft.length = h.loft.length :=
  List.length_map ..

theorem freshen_of_none {h : Channel} {c i v : Nat} (hl : h.findLine c (i / 4) = none) : h.freshen c i v = h := by
  rw [Channel.freshen, hl]

theorem findLine_freshen {h : Channel} {c i v : Nat} {l : LoftLine} (hl : h.findLine c (i / 4) = some l) :
    (h.freshen c i v).findLine c (i / 4) = some { l.store i v h.cyc with dirty := l.dirty } := by
  rw [Channel.freshen, hl]
  exact findLine_modLine_found hl fun _ => ⟨rfl, rfl, rfl⟩

/-! ### A line index that is free -/

/-- Among more line indexes than there are lines one is free. -/
theorem freeIdx_free (h : Channel) : ∀ l ∈ h.loft ++ h.wb, l.idx ≠ h.freeIdx := by
  cases hi : (List.range ((h.loft ++ h.wb).length + 1)).find? fun i => (h.loft ++ h.wb).all fun l => l.idx != i with
  | some i =>
    have hfree := List.find?_some hi
    rw [Channel.freeIdx, hi]
    exact fun l hl => bne_iff_ne.mp (List.all_eq_true.mp hfree l hl)
  | none =>
    have hsub : List.range ((h.loft ++ h.wb).length + 1) ⊆ (h.loft ++ h.wb).map fun l => l.idx := fun i hmem => by
      obtain ⟨l, hl, htaken⟩ := List.all_eq_false.mp (Bool.eq_false_iff.mpr (List.find?_eq_none.mp hi i hmem))
      exact List.mem_map.mpr ⟨l, hl, by simpa using htaken⟩
    have hle := (List.nodup_range.subperm hsub).length_le
    rw [List.length_range, List.length_map] at hle
    omega

theorem insertLine_perm (l : LoftLine) (ls : List LoftLine) : (insertLine l ls).Perm (l :: ls) := by
  induction ls with
  | nil => exact .refl _
  | cons a ls ih =>
    rw [insertLine]
    split
    · exact .refl _
    · exact (ih.cons a).trans (.swap l a ls)

theorem mem_addLine {h : Channel} {l a : LoftLine} : a ∈ (h.addLine l).loft ↔ a = l ∨ a ∈ h.loft :=
  (insertLine_perm l h.loft).mem_iff.trans List.mem_cons

theorem length_addLine (h : Channel) (l : LoftLine) : (h.addLine l).loft.length = h.loft.length + 1 :=
  (insertLine_perm l h.loft).length_eq

theorem needLine_of_room {h : Channel} {c granted : Nat} (hr : h.lineCount c < granted) : h.needLine c granted = .free h h.freeIdx := by
  rw [Channel.needLine]
  exact if_pos hr

/-! ### An access that waits -/

section
variable (s : State) (sl : Nat) (a : FeltAcc)

theorem queueFelt_ch (n : Nat) : (s.queueFelt sl a).ch n = s.ch n := rfl

theorem queueFelt_ctx (c : Nat) : (s.queueFelt sl a).ctx c = s.ctx c := rfl

theorem queueFelt_wait : ((s.queueFelt sl a).slice sl).wait = (s.slice sl).wait ++ [a] := by
  rw [State.queueFelt, State.modSlice, State.setSlice_slice_same]

theorem queueFelt_slice_other {k : Nat} (hk : k ≠ sl) : (s.queueFelt sl a).slice k = s.slice k := State.setSlice_slice_other _ _ _ _ hk

theorem queueFelt_onlyCtxCh {p : State} {c n : Nat} (h : OnlyCtxCh c n p s) :
    OnlyCtxCh c n { p with slices := (s.queueFelt sl a).slices } (s.queueFelt sl a) := by
  obtain ⟨hframe, hctxs, hchans⟩ := h
  exact ⟨congrArg (fun q : State => { q with slices := (s.queueFelt sl a).slices }) hframe, hctxs, hchans⟩

end

end Sys2Proof.Machine
end

section
/-! SUPPORT. LOFT_RECORD_WRITE by its ends (R163, R216, R225, R227). -/
namespace Sys2Proof.Machine
open Sys2Proof.Safety

/-! ### The cc of the write -/

theorem settleDue_of_nothingDue {s : State} {n : Nat} (hd : NothingDue (s.ch n) (s.ch n).cyc) : s.settleDue n = s := by
  refine settleTo_of_later (fun e he => ?_) _
  have hlater := hd e he
  rw [before_rank_zero, decide_eq_false (by omega)]

theorem pass_of_past {s : State} {n cc : Nat} (hc : cc ≤ (s.ch n).cyc) (hd : NothingDue (s.ch n) (s.ch n).cyc) : s.pass n cc = s := by
  rw [State.pass, Nat.sub_eq_zero_of_le hc, State.passFor, settleDue_of_nothingDue hd, ite_self]

theorem toWrite_of_past {s : State} {c cc : Nat} (hc : cc ≤ (s.ch (s.ctx c).chan).cyc)
    (hd : NothingDue (s.ch (s.ctx c).chan) (s.ch (s.ctx c).chan).cyc) : s.toWrite c (some cc) = s := by
  rw [State.toWrite, pass_of_past hc hd, ite_self]

theorem toWrite_of_stopped {s : State} {c : Nat} (h : (s.ch (s.ctx c).chan).serves = false) (cc : Option Nat) : s.toWrite c cc = s := by
  cases cc with
  | none => rfl
  | some t => rw [State.toWrite, h, if_neg Bool.false_ne_true]

/-- The state in which the oldest waiting record of a context is written. -/
abbrev recordPoint (s : State) (c : Nat) : State := s.toWrite c ((s.ctx c).recQ.head?.map fun w => w.cc)

/-- The context in that state, and its channel. -/
abbrev recordCtx (s : State) (c : Nat) : Ctx := (recordPoint s c).ctx c
abbrev recordCh (s : State) (c : Nat) : Channel := (recordPoint s c).ch (recordCtx s c).chan

/-- The oldest waiting record of a context is gone, those behind it stay, and its channel is another. -/
def State.recordTaken (p : State) (c : Nat) (rest : List RecWrite) (g : Channel) : State :=
  (p.setCh (p.ctx c).chan g).setCtx c { p.ctx c with recQ := rest }

section
variable (p : State) (c : Nat) (rest : List RecWrite) (g : Channel)

theorem recordTaken_ctx_same : (p.recordTaken c rest g).ctx c = { p.ctx c with recQ := rest } := State.setCtx_ctx_same ..

theorem recordTaken_ch_same : (p.recordTaken c rest g).ch (p.ctx c).chan = g := State.setCh_ch_same ..

theorem recordTaken_slice (n : Nat) : (p.recordTaken c rest g).slice n = p.slice n := rfl

theorem recordTaken_onlyCtxCh : OnlyCtxCh c (p.ctx c).chan p (p.recordTaken c rest g) := setCh_setCtx_onlyCtxCh ..

end

theorem modCh_popRec (p : State) (c n : Nat) (f : Channel → Channel) : (p.popRec c).modCh n f = (p.popRec c).setCh n (f (p.ch n)) := rfl

/-! ### The ends of the command -/

theorem exec_loftRecordWrite {s : State} (hs : Inside s) (c : CtxId) : exec (.loftRecordWrite c) s = .next (s.writeRecord c.val) :=
  hw_inside hs fun s => s.writeRecord c.val

theorem writeRecord_of_none {s : State} {c : Nat} (hq : (s.ctx c).recQ = []) : s.writeRecord c = s := by
  simp only [State.writeRecord, hq, List.head?_nil, Option.map_none, State.toWrite]

theorem writeRecord_of_stopped {s : State} {c : Nat} (h : (s.ch (s.ctx c).chan).serves = false) : s.writeRecord c = s := by
  simp only [State.writeRecord, toWrite_of_stopped h, h, Bool.not_false, if_true]
  split <;> rfl

/-- The home write of a record that has no line of its own (R227). -/
def Ctx.straightWrite (x : Ctx) (c : Nat) (w : RecWrite) : FeltAcc :=
  ⟨.straight w.run, c, w.idx / 4, x.ten, x.stashwin, x.home (w.idx / 4), 64, true, setRec 0 w.idx w.rec4, recEnables (2 ^ (w.idx % 4))⟩

/-- The line that a record takes for itself. -/
def Channel.recordLine (h : Channel) (c : Nat) (w : RecWrite) : LoftLine :=
  (newLine h.freeIdx c (w.idx / 4) h.cyc).store w.idx w.rec4 h.cyc

section
variable {s : State} {c : Nat} {w : RecWrite} {rest : List RecWrite}
  (hq : (recordCtx s c).recQ = w :: rest) (hs : (recordCh s c).serves = true)
include hq

theorem popRec_recordPoint (g : Channel) :
    ((recordPoint s c).popRec c).setCh (recordCtx s c).chan g = (recordPoint s c).recordTaken c rest g := by
  rw [State.popRec, State.modCtx, hq]
  rfl

include hs

theorem writeRecord_resident {l : LoftLine} (ha : (recordCtx s c).algrant ≠ 0)
    (hl : (recordCh s c).findLine c (w.idx / 4) = some l) :
    s.writeRecord c = (recordPoint s c).recordTaken c rest ((recordCh s c).modLine l.idx fun l => l.store w.idx w.rec4 (recordCh s c).cyc) := by
  simp only [State.writeRecord, hq, hs, ha, hl, modCh_popRec, popRec_recordPoint hq, Bool.not_true, Bool.false_eq_true, if_false]

theorem writeRecord_room (hl : (recordCh s c).findLine c (w.idx / 4) = none)
    (hr : (recordCh s c).lineCount c < (recordCtx s c).algrant) :
    s.writeRecord c = (recordPoint s c).recordTaken c rest ((recordCh s c).addLine ((recordCh s c).recordLine c w)) := by
  have ha : (recordCtx s c).algrant ≠ 0 := Nat.ne_zero_of_lt hr
  simp only [State.writeRecord, hq, hs, ha, hl, needLine_of_room hr, popRec_recordPoint hq, Channel.recordLine, Bool.not_true,
    Bool.false_eq_true, if_false]

theorem writeRecord_straight (ha : (recordCtx s c).algrant = 0) (hp : (recordCtx s c).policy ≠ 2) :
    s.writeRecord c = ((recordPoint s c).recordTaken c rest ((recordCh s c).freshen c w.idx w.rec4)).queueFelt (recordCtx s c).chan
      ((recordCtx s c).straightWrite c w) := by
  simp only [State.writeRecord, hq, hs, ha, hp, modCh_popRec, popRec_recordPoint hq, Ctx.straightWrite, Bool.not_true, Bool.false_eq_true,
    if_false, if_true]

theorem writeRecord_overflow (ha : (recordCtx s c).algrant = 0) (hp : (recordCtx s c).policy = 2) :
    s.writeRecord c = (recordPoint s c).stashOverflow c := by
  simp only [State.writeRecord, hq, hs, ha, hp, Bool.not_true, Bool.false_eq_true, if_false, if_true]

end

/-! ### The flags of a context that faults -/

theorem OnlyMarks.flags {s t : State} (h : OnlyMarks s t) (c : Nat) : (t.ctx c).flags = (s.ctx c).flags :=
  (congrArg Ctx.flags (h.2 c) :)

theorem abandon_flags (s : State) (c : Nat) : ((s.abandon c).ctx c).flags = (s.ctx c).flags := by
  refine ((onlyMarks_cancelAll _ c).flags c).trans ?_
  rw [State.modCtx, State.setCtx_ctx_same]
  exact (congrArg Ctx.flags (settleRestarts_frame { (s.ctx c).emptyFilling with runs := [] }) :)

theorem settleSlots_flags (s : State) (c : Nat) : ((s.settleSlots c).ctx c).flags = (s.ctx c).flags := by
  rcases settleSlots_cases s c with h | h
  · rw [h]
  · rw [h, State.setCtx_ctx_same]
    exact (congrArg Ctx.flags (settleChanges_frame ..) :)

theorem fault_flags (s : State) (c code : Nat) (iflt : BitVec 64) : ((s.fault c code iflt).ctx c).flags = (s.ctx c).flags := by
  have hkept : ((if (s.ctx c).st == .faulted then s else (s.abandon c).settleSlots c).ctx c).flags = (s.ctx c).flags := by
    split
    · rfl
    · exact (settleSlots_flags ..).trans (abandon_flags s c)
  unfold State.fault
  dsimp only
  split
  · rfl
  · generalize (if (s.ctx c).st == .faulted then s else (s.abandon c).settleSlots c) = u at hkept ⊢
    split
    · rw [State.tev, State.modTenant, State.setTenant_ctx, State.modCtx, State.setCtx_ctx_same, hkept]
    · rw [State.modCtx, State.setCtx_ctx_same, hkept]

/-- A full stash under the fault policy (Table 7-4). -/
theorem stashOverflow_taken {p : State} {c : Nat} (h : (p.ctx c).st = .bound ∨ (p.ctx c).st = .running) :
    ((p.stashOverflow c).ctx c).st = .faulted
      ∧ ((p.stashOverflow c).ctx c).faultcode = (if (p.ctx c).faultcode = 0 then 0x08 else (p.ctx c).faultcode)
      ∧ ((p.stashOverflow c).ctx c).flags = (p.ctx c).flags ||| flStashOvf := by
  have hx := raise_ctx_same p c flStashOvf
  obtain ⟨hst, hcode, -⟩ := fault_taken (s := p.raise c flStashOvf) (c := c) fcStash 0 (by rw [hx]; exact h)
  rw [hx] at hcode
  exact ⟨hst, hcode, by rw [State.stashOverflow, fault_flags, hx]; rfl⟩

end Sys2Proof.Machine

namespace Sys2Proof
open Sys2Proof.Machine Sys2Proof.Safety

/-- Settles O44, by the ends of the command. -/
theorem loftRecordsFindALine : Obligations.LoftRecordsFindALine := by
  intro s c hin p x h
  rw [exec_loftRecordWrite hin c]
  refine ⟨?_, fun w rest hq hc hd => ?_, fun w rest hq hs hv => ⟨fun l ha hl => ?_, fun hl hr => ?_, fun ha hp => ?_, fun ha hp hst => ?_⟩⟩
  · rintro (hq | hstop)
    · rw [writeRecord_of_none hq]
    · rw [writeRecord_of_stopped hstop]
  · rw [show p = s.toWrite c.val (some w.cc) by simp only [p, hq]; rfl, toWrite_of_past hc hd]
  · refine ⟨_, l.store w.idx w.rec4 h.cyc, congrArg _ (writeRecord_resident hq hs ha hl), recordTaken_ctx_same .., ?_,
      rec4_store l w.idx h.cyc hv, rfl, rfl, rfl, ?_, recordTaken_onlyCtxCh ..⟩
    · rw [recordTaken_ch_same]
      exact findLine_modLine_found hl fun _ => ⟨rfl, rfl, rfl⟩
    · rw [recordTaken_ch_same, length_modLine]
  · refine ⟨_, h.recordLine c.val w, congrArg _ (writeRecord_room hq hs hl hr), recordTaken_ctx_same .., ?_, rfl, rfl, rfl,
      rec4_store _ w.idx h.cyc hv, rfl, Nat.zero_or _, ?_, fun l hmem => ⟨?_, freeIdx_free h l (List.mem_append_left _ hmem)⟩,
      recordTaken_onlyCtxCh ..⟩
    · rw [recordTaken_ch_same]
      exact mem_addLine.mpr (.inl rfl)
    · rw [recordTaken_ch_same, length_addLine]
    · rw [recordTaken_ch_same]
      exact mem_addLine.mpr (.inr hmem)
  · refine ⟨_, x.straightWrite c.val w, congrArg _ (writeRecord_straight hq hs ha hp), ?_, ?_, rfl, rfl, rfl, rfl, rfl, rfl,
      setRec_zero w.idx hv, recEnables_single w.idx, fun l hl => ?_, fun hl => ?_, queueFelt_onlyCtxCh _ _ _ (recordTaken_onlyCtxCh ..),
      fun k hk => ?_⟩
    · rw [queueFelt_ctx, recordTaken_ctx_same]
    · rw [queueFelt_wait, recordTaken_slice]
    · rw [queueFelt_ch, recordTaken_ch_same]
      exact ⟨_, findLine_freshen hl, rec4_store l w.idx h.cyc hv, rfl, rfl⟩
    · rw [queueFelt_ch, recordTaken_ch_same, freshen_of_none hl]
    · rw [queueFelt_slice_other _ _ _ hk, recordTaken_slice]
  · exact ⟨_, congrArg _ (writeRecord_overflow hq hs ha hp), stashOverflow_taken hst⟩

end Sys2Proof
end

section
/-! SUPPORT. A change of a context's program fields (R179, R180): what is checked, when the slots follow, and which copies they keep. -/
namespace Sys2Proof.Machine
open Sys2Proof.Safety

/-! ### The slots follow -/

/-- The slots stand for the declarations, one for each. -/
theorem reslot_decls (x : Ctx) (ds : List Decl) : (x.reslot ds).slots.map (fun sl => sl.decl) = ds := by
  rw [Ctx.reslot, List.map_map]
  refine List.map_id'' (fun d => ?_) ds
  rw [Function.comp_apply]
  split
  · rename_i sl h
    exact eq_of_beq (List.find?_some (p := fun sl : SlotSt => sl.decl == d) h)
  · rfl

/-- A slot that was declared alike stays, any other is EMPTY (R180). -/
theorem mem_reslot {x : Ctx} {ds : List Decl} {sl : SlotSt} (h : sl ∈ (x.reslot ds).slots) :
    sl ∈ x.slots ∨ (∀ k ∈ sl.copies, k.st = .empty) ∧ ∀ o ∈ x.slots, o.decl ≠ sl.decl := by
  obtain ⟨d, -, hd⟩ := List.mem_map.mp h
  split at hd
  · rename_i o ho
    exact .inl (hd ▸ List.mem_of_find?_eq_some ho)
  · rename_i hn
    subst hd
    refine .inr ⟨fun k hk => ?_, fun o ho e => ?_⟩
    · rw [List.eq_of_mem_replicate hk]; rfl
    · exact absurd (beq_of_eq e) (List.find?_eq_none.mp hn o ho)

/-- Changes wait while a run is open that the oldest of them found open. -/
theorem settleChanges_waits {x : Ctx} {q : SlotChange} {qs : List SlotChange} (hx : x.newSlots = q :: qs)
    (h : ∃ r ∈ x.runs, r.ser ∈ q.before) : x.settleChanges x.newSlots = x := by
  obtain ⟨r, hr, hq⟩ := h
  have hany : (x.runs.any fun r => q.before.contains r.ser) = true :=
    List.any_eq_true.mpr ⟨r, hr, List.contains_iff_mem.mpr hq⟩
  rw [hx, Ctx.settleChanges, if_pos hany, ← hx]

theorem onlyCtx_setCtx (s : State) (c : Nat) (x : Ctx) : OnlyCtx c s (s.setCtx c x) :=
  ⟨rfl, fun _ h => State.setCtx_ctx_other _ _ _ _ h⟩

theorem settleSlots_setCtx {s : State} {c : Nat} {x : Ctx} (h : x.newSlots ≠ []) :
    (s.setCtx c x).settleSlots c = s.setCtx c (x.settleChanges x.newSlots) := by
  rw [State.settleSlots, State.setCtx_ctx_same, if_neg (by simpa using h), State.modCtx, State.setCtx_ctx_same, setCtx_setCtx]

/-! ### The write of CTXRES -/

/-- Only a write of the fields that a context has leaves them as they are. -/
theorem withProgs_of_sameProgs {x : Ctx} {d : BitVec 64} (h : x.sameProgs (x.withProgs d) = true) : x.withProgs d = x := by
  simp only [Ctx.sameProgs, Bool.and_eq_true, beq_iff_eq] at h
  obtain ⟨⟨⟨ha, hav⟩, hb⟩, hbv⟩ := h
  calc x.withProgs d
    _ = { x with
          proga := (x.withProgs d).proga, progav := (x.withProgs d).progav
          progb := (x.withProgs d).progb, progbv := (x.withProgs d).progbv } := rfl
    _ = x := by rw [← ha, ← hav, ← hb, ← hbv]

theorem not_sameProgs {x : Ctx} {d : BitVec 64} (h : x ≠ x.withProgs d) : ¬ x.sameProgs (x.withProgs d) = true :=
  fun e => h (withProgs_of_sameProgs e).symm

/-- The entry with an accepted change of its program fields, which waits behind those that wait already (R180). -/
def Ctx.changed (x : Ctx) (s : State) (d : BitVec 64) : Ctx :=
  { x.withProgs d with
    binderr := 0, newSlots := x.newSlots ++ [⟨x.runs.map fun r => r.ser, progDecls s (x.withProgs d).starts⟩] }

/-- With no run open and no change before it the slots follow at once. -/
theorem changed_settled {x : Ctx} (s : State) (d : BitVec 64) (hn : x.newSlots = []) (hr : x.runs = []) :
    (x.changed s d).settleChanges (x.changed s d).newSlots
      = { x.withProgs d with binderr := 0, slots := (x.reslot (progDecls s (x.withProgs d).starts)).slots } := by
  have hq : (x.changed s d).newSlots = [⟨[], progDecls s (x.withProgs d).starts⟩] := by rw [Ctx.changed, hn, hr]; rfl
  have hruns : (x.changed s d).runs = [] := hr
  rw [hq, Ctx.settleChanges, hruns, List.any_nil, if_neg Bool.false_ne_true, Ctx.settleChanges]
  exact congrArg (fun l => { x.withProgs d with
    binderr := 0, slots := (x.reslot (progDecls s (x.withProgs d).starts)).slots, newSlots := l }) hn.symm

/-- While a run is open that the oldest change found open, the new one waits too. -/
theorem changed_waits {x : Ctx} (s : State) (d : BitVec 64)
    (h : (x.newSlots = [] ∧ x.runs ≠ []) ∨ ∃ q ∈ x.newSlots.head?, ∃ r ∈ x.runs, r.ser ∈ q.before) :
    (x.changed s d).settleChanges (x.changed s d).newSlots = x.changed s d := by
  rcases h with ⟨hn, hr⟩ | ⟨q, hq, hr⟩
  · obtain ⟨r, hr⟩ := List.exists_mem_of_ne_nil _ hr
    refine settleChanges_waits (x := x.changed s d) (qs := []) (by rw [Ctx.changed, hn]; rfl) ⟨r, hr, ?_⟩
    exact List.mem_map_of_mem (f := fun r : Run => r.ser) hr
  · obtain ⟨qs, hqs⟩ := List.head?_eq_some_iff.mp (Option.mem_def.mp hq)
    exact settleChanges_waits (x := x.changed s d) (by rw [Ctx.changed, hqs]; rfl) hr

section
variable {s : State} {c : Nat} {d : BitVec 64}

theorem writeCtxres_draining (h : (s.ctx c).st = .draining) : s.writeCtxres c d = s := by
  simp only [State.writeCtxres, h]

variable (hst : (s.ctx c).st = .bound ∨ (s.ctx c).st = .running ∨ (s.ctx c).st = .faulted)
  (hne : s.ctx c ≠ (s.ctx c).withProgs d)
include hst hne

/-- A change of the fields of a bound context is checked (R179). -/
theorem writeCtxres_refused {code : Nat} (h : progCheck s ((s.ctx c).withProgs d) = some code) :
    s.writeCtxres c d = s.setCtx c { s.ctx c with binderr := code } := by
  rcases hst with hx | hx | hx <;> simp only [State.writeCtxres, hx, if_neg (not_sameProgs hne), h]

theorem writeCtxres_accepted (h : progCheck s ((s.ctx c).withProgs d) = none) : s.writeCtxres c d
    = s.setCtx c (((s.ctx c).changed s d).settleChanges ((s.ctx c).changed s d).newSlots) := by
  have hnew : ((s.ctx c).changed s d).newSlots ≠ [] := by simp [Ctx.changed]
  rw [← settleSlots_setCtx hnew]
  rcases hst with hx | hx | hx <;> simp only [State.writeCtxres, hx, if_neg (not_sameProgs hne), h] <;> rfl

end

theorem exec_programChange {s : State} (hs : Commanded s) (c : CtxId) (d : BitVec 64) :
    exec (.programChange c d) s = .next (s.initDone.writeCtxres c.val d) := by
  rw [exec, execProgramChange, ctl_commanded hs]

end Sys2Proof.Machine

namespace Sys2Proof
open Sys2Proof.Machine Sys2Proof.Safety

/-- Settles O11: the change is refused by its check, or enters the entry and waits for the runs that the oldest waiting change found. -/
theorem programChangeIsCheckedAndDeferred : Obligations.ProgramChangeIsCheckedAndDeferred := by
  intro s c d x y hs hx hy
  subst hx
  replace hy : y = (s.ctx c.val).withProgs d := hy
  subst hy
  rw [exec_programChange hs]
  refine ⟨fun h => congrArg _ (writeCtxres_draining h),
    fun hst hne => ⟨fun code hc => ?_, fun hc => ⟨fun hn hr => ?_, fun hw => ?_⟩⟩⟩
  · exact congrArg _ (writeCtxres_refused (s := s.initDone) hst hne hc)
  · refine ⟨_, congrArg _ (writeCtxres_accepted (s := s.initDone) hst hne hc), onlyCtx_setCtx .., ?_⟩
    rw [State.setCtx_ctx_same, State.initDone_ctx, changed_settled s.initDone d hn hr]
    exact ⟨rfl, reslot_decls .., fun sl h => mem_reslot h⟩
  · refine ⟨_, congrArg _ (writeCtxres_accepted (s := s.initDone) hst hne hc), onlyCtx_setCtx .., ?_⟩
    rw [State.setCtx_ctx_same, State.initDone_ctx, changed_waits s.initDone d hw]
    rfl

end Sys2Proof
end

section
/-! SUPPORT. The furnish master (R173 to R175): what a committed word reaches, which slots are locked, and the registers of its map. -/
namespace Sys2Proof.Machine
open Sys2Proof.Safety

/-! ### A committed word -/

/-- Whether a channel takes furnish words (R173). -/
abbrev Channel.Furnished (h : Channel) : Prop := h.st = .ready ∨ h.st = .quiescing

theorem furnished_iff (h : Channel) : (h.st == .ready || h.st == .quiescing) = true ↔ h.Furnished := by simp

/-- What a committed word changes of a channel (R173, R404). -/
def Channel.commit (h : Channel) (slot : Nat) (w : IWord) : Channel :=
  if h.Furnished then
    (if h.clkStop then { h with storeWait := h.storeWait ++ [(slot, w)] } else { h with store := Tbl.put 0 h.store slot w })
  else h

/-- A step that changes one channel by f, folded over channels, changes each of them by f. -/
theorem foldl_ch {g : State → Nat → State} {f : Channel → Channel} (hsame : ∀ s n, (g s n).ch n = f (s.ch n))
    (hother : ∀ s n m, m ≠ n → (g s n).ch m = s.ch m) (m : Nat) {l : List Nat} (hl : l.Nodup) :
    ∀ s : State, (l.foldl g s).ch m = if m ∈ l then f (s.ch m) else s.ch m := by
  induction l with
  | nil => simp
  | cons a r ih =>
    intro s
    obtain ⟨ha, hr⟩ := List.nodup_cons.mp hl
    rw [List.foldl_cons, ih hr]
    by_cases e : m = a
    · subst e; simp [ha, hsame]
    · simp [e, hother s a m e]

/-- Nothing but the furnish master and the channels differs. -/
def OnlyFurnish (s t : State) : Prop := { t with master := s.master, chans := s.chans } = s

theorem OnlyFurnish.trans {s t u : State} (h : OnlyFurnish s t) (k : OnlyFurnish t u) : OnlyFurnish s u :=
  Eq.trans (congrArg (fun v : State => { v with master := s.master, chans := s.chans }) k) h

section
variable {s t : State} (h : OnlyFurnish s t)
include h

theorem OnlyFurnish.eq : { t with master := s.master, chans := s.chans } = s := h
theorem OnlyFurnish.uc : t.uc = s.uc := (congrArg State.uc h.eq :)
theorem OnlyFurnish.seq : t.seq = s.seq := (congrArg State.seq h.eq :)
theorem OnlyFurnish.mill : t.mill = s.mill := (congrArg State.mill h.eq :)
theorem OnlyFurnish.mailbox : t.mailbox = s.mailbox := (congrArg State.mailbox h.eq :)
theorem OnlyFurnish.ctxs : t.ctxs = s.ctxs := (congrArg State.ctxs h.eq :)
theorem OnlyFurnish.tenants : t.tenants = s.tenants := (congrArg State.tenants h.eq :)
theorem OnlyFurnish.slices : t.slices = s.slices := (congrArg State.slices h.eq :)
theorem OnlyFurnish.tenant (k : Nat) : t.tenant k = s.tenant k := by rw [State.tenant, h.tenants]; rfl
theorem OnlyFurnish.slice (k : Nat) : t.slice k = s.slice k := by rw [State.slice, h.slices]; rfl

end

section
variable (s : State) (slot : Nat) (w : IWord)

theorem commitWord_ch {n : Nat} (hn : n < 8) : (s.commitWord slot w).ch n = (s.ch n).commit slot w := by
  refine (foldl_ch (f := fun h => h.commit slot w) (fun s n => ?_) (fun s n m hm => ?_) n List.nodup_range _).trans
    (if_pos (List.mem_range.mpr hn))
  · simp only [furnished_iff, Channel.commit]
    split
    · exact State.setCh_ch_same ..
    · rfl
  · dsimp only
    split
    · exact State.setCh_ch_other _ _ _ _ hm
    · rfl

theorem commitWord_onlyFurnish : OnlyFurnish s (s.commitWord slot w) :=
  foldl_keeps (P := OnlyFurnish s) (fun t n h => by
    dsimp only
    split
    · exact h
    · exact h) _ { s with master := Tbl.put 0 s.master slot w } rfl

theorem commitWord_master : (s.commitWord slot w).master = Tbl.put 0 s.master slot w :=
  foldl_keeps (P := fun t : State => t.master = Tbl.put 0 s.master slot w) (fun t n h => by
    dsimp only
    split
    · exact h
    · exact h) _ { s with master := Tbl.put 0 s.master slot w } rfl

theorem commitWord_masterWord (k : Nat) : (s.commitWord slot w).masterWord k = if k = slot then w else s.masterWord k := by
  rw [State.masterWord, commitWord_master]
  split
  · rename_i e; rw [e, Tbl.look_put_same]
  · rename_i e; exact Tbl.look_put_other _ _ _ _ _ e

end

/-! ### A write of the high half -/

/-- The access waits for a channel that takes furnish words and whose clock has stopped (R404). -/
def Channel.awaitClock (h : Channel) : Channel :=
  if (h.st == .ready || h.st == .quiescing) && h.clkStop then { h with ctlHeld := true } else h

theorem commit_awaitClock_cases (h : Channel) (slot : Nat) (w : IWord) :
    h.Furnished ∧ h.clkStop = false ∧ (h.commit slot w).awaitClock = { h with store := Tbl.put 0 h.store slot w }
    ∨ h.Furnished ∧ h.clkStop = true
      ∧ (h.commit slot w).awaitClock = { h with storeWait := h.storeWait ++ [(slot, w)], ctlHeld := true }
    ∨ ¬ h.Furnished ∧ (h.commit slot w).awaitClock = h := by
  by_cases hf : h.Furnished
  · cases hc : h.clkStop with
    | false => exact .inl ⟨hf, rfl, by simp [Channel.commit, Channel.awaitClock, hf, hc]⟩
    | true =>
      have hb : (h.st == .ready || h.st == .quiescing) = true := (furnished_iff h).mpr hf
      exact .inr (.inl ⟨hf, rfl, by simp only [Channel.commit, Channel.awaitClock, hf, hc, hb, if_true, Bool.and_self]⟩)
  · have hb : (h.st == .ready || h.st == .quiescing) = false := Bool.eq_false_iff.mpr fun e => hf ((furnished_iff h).mp e)
    exact .inr (.inr ⟨hf, by simp [Channel.commit, Channel.awaitClock, hf, hb]⟩)

section
variable (h : Channel) (slot : Nat) (w : IWord)

theorem commit_awaitClock_word (k : Nat) : (h.commit slot w).awaitClock.word k =
    if k = slot ∧ h.Furnished ∧ h.clkStop = false then w else h.word k := by
  rcases commit_awaitClock_cases h slot w with ⟨hf, hc, e⟩ | ⟨hf, hc, e⟩ | ⟨hf, e⟩
  · by_cases hk : k = slot
    · subst hk; simp [e, Channel.word, hf, hc]
    · simp [e, Channel.word, hk]
  · simp [e, Channel.word, hc]
  · simp [e, hf]

theorem commit_awaitClock_storeWait : (h.commit slot w).awaitClock.storeWait =
    if h.Furnished ∧ h.clkStop = true then h.storeWait ++ [(slot, w)] else h.storeWait := by
  rcases commit_awaitClock_cases h slot w with ⟨hf, hc, e⟩ | ⟨hf, hc, e⟩ | ⟨hf, e⟩
  · simp [e, hc]
  · simp [e, hf, hc]
  · simp [e, hf]

theorem commit_awaitClock_ctlHeld : (h.commit slot w).awaitClock.ctlHeld =
    (h.ctlHeld || (h.st == .ready || h.st == .quiescing) && h.clkStop) := by
  rcases commit_awaitClock_cases h slot w with ⟨hf, hc, e⟩ | ⟨hf, hc, e⟩ | ⟨hf, e⟩
  · simp [e, hc]
  · simp [e, (furnished_iff h).mpr hf, hc]
  · simp [e, Bool.eq_false_iff.mpr fun b => hf ((furnished_iff h).mp b)]

theorem commit_awaitClock_frame :
    { (h.commit slot w).awaitClock with store := h.store, storeWait := h.storeWait, ctlHeld := h.ctlHeld } = h := by
  rcases commit_awaitClock_cases h slot w with ⟨-, -, e⟩ | ⟨-, -, e⟩ | ⟨-, e⟩ <;> rw [e]

end

section
variable {s : State} {slot : Nat}

theorem furnishLow_unlocked (h : s.locked slot = false) (d : BitVec 64) : s.furnishLow slot d = { s with staging := d } :=
  if_neg (ne_true_of_eq_false h)

theorem furnishHigh_unlocked (h : s.locked slot = false) (d : BitVec 64) : s.furnishHigh slot d =
    (List.range 8).foldl (fun s n => s.modCh n Channel.awaitClock) (s.commitWord slot (d ++ s.staging)) :=
  if_neg (ne_true_of_eq_false h)

theorem furnish_locked (h : s.locked slot = true) (d : BitVec 64) :
    s.furnishLow slot d = s.fsReject slot ∧ s.furnishHigh slot d = s.fsReject slot := ⟨if_pos h, if_pos h⟩

theorem furnishHigh_ch (h : s.locked slot = false) (d : BitVec 64) {n : Nat} (hn : n < 8) :
    (s.furnishHigh slot d).ch n = ((s.ch n).commit slot (d ++ s.staging)).awaitClock := by
  rw [furnishHigh_unlocked h, foldl_modCh_ch _ _ List.nodup_range, if_pos (List.mem_range.mpr hn), commitWord_ch _ _ _ hn]

theorem furnishHigh_onlyFurnish (h : s.locked slot = false) (d : BitVec 64) : OnlyFurnish s (s.furnishHigh slot d) := by
  rw [furnishHigh_unlocked h]
  refine foldl_keeps (P := OnlyFurnish s) (fun t n h => ?_) _ _ (commitWord_onlyFurnish ..)
  exact h

theorem furnishHigh_masterWord (h : s.locked slot = false) (d : BitVec 64) (k : Nat) :
    (s.furnishHigh slot d).masterWord k = if k = slot then d ++ s.staging else s.masterWord k := by
  rw [furnishHigh_unlocked h, ← commitWord_masterWord]
  refine foldl_keeps (P := fun t : State => t.masterWord k = (s.commitWord slot (d ++ s.staging)).masterWord k) (fun t n h => ?_) _ _ rfl
  exact h

end

/-! ### Locked slots -/

/-- A key whose value is not the default is listed. -/
theorem Tbl.mem_of_look_ne {α : Type} {d : α} {k : Nat} : ∀ {t : Tbl α}, Tbl.look d t k ≠ d → (k, Tbl.look d t k) ∈ t
  | [], h => absurd rfl h
  | (a, x) :: r, h => by
    by_cases e : a = k
    · subst e; simp [Tbl.look]
    · simp only [Tbl.look, if_neg e] at h ⊢
      exact List.mem_cons_of_mem _ (Tbl.mem_of_look_ne h)

/-- A slot of a program that a context not FREE names is locked (R175). -/
theorem locked_of_named {s : State} {c a slot : Nat} (hst : (s.ctx c).st ≠ .free) (ha : a ∈ (s.ctx c).starts)
    (hop : opc (s.masterWord a) = 0xF0) (hle : a ≤ slot) (hlt : slot < a + (Hdr.ofWord (s.masterWord a)).len) :
    s.locked slot = true := by
  refine List.any_eq_true.mpr ⟨(c, s.ctx c), Tbl.mem_of_look_ne fun e => hst (congrArg Ctx.st e), ?_⟩
  have hin : a ≤ slot ∧ slot < a + max (if opc (s.masterWord a) = 0xF0 then (Hdr.ofWord (s.masterWord a)).len else 0) 1 := by
    rw [if_pos hop]; omega
  rw [Ctx.locks, Bool.or_eq_true, Bool.and_eq_true]
  exact .inl ⟨bne_iff_ne.mpr hst, List.any_eq_true.mpr ⟨a, ha, decide_eq_true hin⟩⟩

/-! ### The map of the master -/

theorem writeReg_furnish (s : State) {o : Nat} (d : BitVec 64) (ho : o < 0x10000) (h8 : o % 8 = 0) : s.writeReg (0x200000 + o) d =
    if o % 0x10 = 0 then s.furnishLow (o / 0x10) d else s.furnishHigh (o / 0x10) d := by
  have e : (0x200000 + o) / 8 * 8 = 0x200000 + o := by omega
  have ed : (0x200000 + o - 0x200000) / 0x10 = o / 0x10 := by omega
  have em : (0x200000 + o) % 0x10 = o % 0x10 := by omega
  simp only [State.writeReg, e, ed, em]
  clear e ed em h8
  simp (disch := omega) only [if_neg, if_pos]

section
variable {slot : Nat} (hs : slot < 4096)
include hs

theorem readReg_furnishLow (s : State) : s.readReg (0x200000 + 16 * slot) = (s.masterWord slot).extractLsb' 0 64 := by
  have e : 16 * slot / 0x10 = slot := by omega
  rw [readReg_furnish s (by omega) (by omega), if_pos (by omega), e]

theorem readReg_furnishHigh (s : State) : s.readReg (0x200000 + 16 * slot + 8) = (s.masterWord slot).extractLsb' 64 64 := by
  have e : (16 * slot + 8) / 0x10 = slot := by omega
  rw [Nat.add_assoc, readReg_furnish s (by omega) (by omega), if_neg (by omega), e]

theorem writeReg_furnishLow (s : State) (d : BitVec 64) : s.writeReg (0x200000 + 16 * slot) d = s.furnishLow slot d := by
  have e : 16 * slot / 0x10 = slot := by omega
  rw [writeReg_furnish s d (by omega) (by omega), if_pos (by omega), e]

theorem writeReg_furnishHigh (s : State) (d : BitVec 64) : s.writeReg (0x200000 + 16 * slot + 8) d = s.furnishHigh slot d := by
  have e : (16 * slot + 8) / 0x10 = slot := by omega
  rw [Nat.add_assoc, writeReg_furnish s d (by omega) (by omega), if_neg (by omega), e]

end

theorem exec_furnishLowWrite {s : State} (hs : Commanded s) (slot : Fin 4096) (d : BitVec 64) :
    exec (.furnishLowWrite slot d) s = .next (s.initDone.furnishLow slot.val d) := by
  rw [exec, execFurnishLowWrite, ctl_commanded hs]

theorem exec_furnishHighWrite {s : State} (hs : Commanded s) (slot : Fin 4096) (d : BitVec 64) :
    exec (.furnishHighWrite slot d) s = .next (s.initDone.furnishHigh slot.val d) := by
  rw [exec, execFurnishHighWrite, ctl_commanded hs]

/-- A write at an offset, in every state. -/
theorem exec_registerWrite_eq {o : Nat} (ho : o < 2 ^ 24) (s : State) (d : BitVec 64) :
    exec (.registerWrite (BitVec.ofNat 24 o) d) s = ctl s fun s => s.writeReg o d := by
  have e : (BitVec.ofNat 24 o).toNat = o := Nat.mod_eq_of_lt ho
  rw [exec, execRegisterWrite, e]

end Sys2Proof.Machine

namespace Sys2Proof
open Sys2Proof.Machine Sys2Proof.Safety

/-- Settles O16: an unlocked write by what the commit reaches, a locked one by its rejection, and the map by its offsets. -/
theorem furnishWritesCommitUnlessLocked : Obligations.FurnishWritesCommitUnlessLocked := by
  refine ⟨fun s slot d hs hl => ?_, fun s slot d c a hs hst ha hop hle hlt k hk => ?_, fun s slot d => ⟨?_, ?_, ?_, ?_⟩⟩
  · have hl' : s.initDone.locked slot.val = false := hl
    refine ⟨by rw [exec_furnishLowWrite hs, furnishLow_unlocked hl'], _, exec_furnishHighWrite hs slot d,
      furnishHigh_masterWord hl' d, fun n k => ?_, fun n => ?_, fun n => ?_, fun n => ?_, ?_⟩
    · rw [furnishHigh_ch hl' d n.isLt, commit_awaitClock_word]; rfl
    · rw [furnishHigh_ch hl' d n.isLt, commit_awaitClock_storeWait]; rfl
    · rw [furnishHigh_ch hl' d n.isLt, commit_awaitClock_ctlHeld]; rfl
    · rw [furnishHigh_ch hl' d n.isLt]; exact commit_awaitClock_frame ..
    · exact furnishHigh_onlyFurnish hl' d
  · obtain ⟨hlow, hhigh⟩ := furnish_locked (s := s.initDone) (locked_of_named hst ha hop hle hlt) d
    rcases hk with rfl | rfl
    · rw [exec_furnishLowWrite hs, hlow]; rfl
    · rw [exec_furnishHighWrite hs, hhigh]; rfl
  · exact readReg_furnishLow slot.isLt s
  · exact readReg_furnishHigh slot.isLt s
  · rw [exec_registerWrite_eq (by omega), exec, execFurnishLowWrite]
    exact congrArg _ (funext fun s => writeReg_furnishLow slot.isLt s d)
  · rw [exec_registerWrite_eq (by omega), exec, execFurnishHighWrite]
    exact congrArg _ (funext fun s => writeReg_furnishHigh slot.isLt s d)

end Sys2Proof
end

section
/-! SUPPORT. Program loads (R176): the start of LOADPROG, and what a line that returns does. -/
namespace Sys2Proof.Machine
open Sys2Proof.Safety

/-! ### LOADPROG -/

/-- The mill core carries out the oldest entry. -/
theorem millTake_eq {s : State} {op : Nat} {e : MbEntry} {rest : List MbEntry} (h : MillTakes s op e rest)
    (f : State → MbEntry → State) : s.millTake op f = f (Safety.taken s rest) e := by
  obtain ⟨hrun, hcur, hbox, hroom, hlost, hform, hop, -⟩ := h
  have hfree : s.millFree = true := by rw [State.millFree, hrun, hcur]; rfl
  have htake : s.takeEntry = some (e, rest) := by
    rw [State.takeEntry, hbox, State.takeEntry.firstEntry, if_pos hroom]; rfl
  simp only [State.millTake, hfree, htake, hlost, hform, hop, Bool.not_true, Bool.false_eq_true, if_false, if_true]
  rfl

theorem exec_loadprog {s : State} {e : MbEntry} {rest : List MbEntry} (hs : Reached s) (h : MillTakes s 0x10 e rest) :
    exec .loadprog s = .next ((Safety.taken s rest).millLoad e) := by
  rw [exec, execLoadprog, hw_inside hs.1, millTake_eq h]

/-- The load that LOADPROG begins. -/
def State.newLoad (s : State) (e : MbEntry) : LoadSt :=
  ⟨s.seq, e.ten, mbTag e.cmd, mbSlot e.cmd, mbCount e.cmd, mbWin e.cmd, mbWoff e.cmd, 0, []⟩

/-- A load under way reads a line. -/
def State.reads (s : State) (m : Mill) (l : LoadSt) : State :=
  ({ s with mill := { m with cur := some l } }).queueFelt 0 (l.access l.lines)

section
variable {s : State} {e : MbEntry} (h2 : 2 ≤ mbCount e.cmd) (h64 : mbCount e.cmd ≤ 64)
include h2 h64

theorem millLoad_starts (hr : mbSlot e.cmd + mbCount e.cmd ≤ 4096) (hl : ∀ i < mbCount e.cmd, s.locked (mbSlot e.cmd + i) = false)
    (ho : mbWoff e.cmd % 64 = 0) :
    ∃ p, OnlyFurnish s p ∧ (∀ k, p.masterWord k = if k = mbSlot e.cmd then emptyHeader else s.masterWord k)
      ∧ s.millLoad e = ({ p with seq := s.seq + 1 }).reads s.mill (s.newLoad e) := by
  refine ⟨s.commitWord (mbSlot e.cmd) emptyHeader, commitWord_onlyFurnish .., commitWord_masterWord _ _ _, ?_⟩
  have hany : ¬ (mbSlot e.cmd + mbCount e.cmd > 4096
      ∨ (List.range (mbCount e.cmd)).any (fun i => s.locked (mbSlot e.cmd + i)) = true) := by
    rintro (h | h)
    · omega
    · obtain ⟨i, hi, h⟩ := List.any_eq_true.mp h
      exact ne_true_of_eq_false (hl i (List.mem_range.mp hi)) h
  have hfurn := commitWord_onlyFurnish s (mbSlot e.cmd) emptyHeader
  rw [State.millLoad, if_neg (by omega), if_neg hany, if_neg (by omega)]
  dsimp only
  generalize s.commitWord (mbSlot e.cmd) emptyHeader = p at hfurn
  rw [hfurn.mill]
  rfl

theorem millLoad_refused (h : mbSlot e.cmd + mbCount e.cmd > 4096 ∨ ∃ i < mbCount e.cmd, s.locked (mbSlot e.cmd + i) = true) :
    s.millLoad e = ({ s with freeCtr := s.freeCtr + 1 }).pushReport e.ten 1 ((Config.freeValue s.freeCtr).toNat % 256) (mbTag e.cmd) := by
  have hany : mbSlot e.cmd + mbCount e.cmd > 4096
      ∨ (List.range (mbCount e.cmd)).any (fun i => s.locked (mbSlot e.cmd + i)) = true :=
    h.imp_right fun ⟨i, hi, h⟩ => List.any_eq_true.mpr ⟨i, List.mem_range.mpr hi, h⟩
  rw [State.millLoad, if_neg (by omega), if_pos hany]
  rfl

end

theorem pushReport_reports (s : State) (t result detail : Nat) (tag : BitVec 16) :
    ((s.pushReport t result detail tag).tenant t).reports = (s.tenant t).reports ++ [⟨result, detail, tag⟩] := by
  rw [State.pushReport, State.modTenant, State.setTenant_tenant_same]

/-! ### The words of a line -/

/-- Words from a place on go to the slots of a program, but for its header. -/
def State.commitLine (s : State) (slot first : Nat) (ws : List IWord) : State :=
  ((List.range ws.length).zip ws).foldl (fun s iw => if first + iw.1 = 0 then s else s.commitWord (slot + (first + iw.1)) iw.2) s

theorem commitLine_append (s : State) (slot first : Nat) (ws : List IWord) (w : IWord) : s.commitLine slot first (ws ++ [w]) =
    if first + ws.length = 0 then s.commitLine slot first ws
    else (s.commitLine slot first ws).commitWord (slot + (first + ws.length)) w := by
  rw [State.commitLine, List.length_append, List.length_singleton, List.range_succ, List.zip_append (List.length_range ..),
    List.foldl_append]
  rfl

theorem commitLine_masterWord (s : State) (slot first : Nat) (ws : List IWord) (k : Nat) :
    (s.commitLine slot first ws).masterWord k =
      if slot + first ≤ k ∧ k < slot + first + ws.length ∧ k ≠ slot then ws.getD (k - slot - first) 0 else s.masterWord k := by
  induction ws using List.reverseRecOn with
  | nil => exact (if_neg (by simp; omega)).symm
  | append_singleton ws w ih =>
    have hlen : (ws ++ [w]).length = ws.length + 1 := by simp
    rw [commitLine_append, hlen]
    by_cases hk : k = slot + (first + ws.length)
    · by_cases h0 : first + ws.length = 0
      · rw [if_pos h0, ih, if_neg (by omega), if_neg (by omega)]
      · have e : k - slot - first = ws.length := by omega
        rw [if_neg h0, commitWord_masterWord, if_pos hk, if_pos (by omega), e]
        simp
    · have hsame : (if first + ws.length = 0 then s.commitLine slot first ws
          else (s.commitLine slot first ws).commitWord (slot + (first + ws.length)) w).masterWord k
          = (s.commitLine slot first ws).masterWord k := by
        split
        · rfl
        · rw [commitWord_masterWord, if_neg hk]
      rw [hsame, ih]
      by_cases hin : slot + first ≤ k ∧ k < slot + first + ws.length ∧ k ≠ slot
      · rw [if_pos hin, if_pos (by omega), List.getD_append _ _ _ _ (by omega)]
      · rw [if_neg hin, if_neg (by omega)]

theorem commitLine_onlyFurnish (s : State) (slot first : Nat) (ws : List IWord) : OnlyFurnish s (s.commitLine slot first ws) :=
  foldl_keeps (P := OnlyFurnish s) (fun t iw h => by
    split
    · exact h
    · exact h.trans (commitWord_onlyFurnish ..)) _ s rfl

/-! ### A line returns -/

/-- Word i of a line. -/
def wordAt (data i : Nat) : IWord := BitVec.ofNat 128 (data >>> (128 * i))

/-- The words that a line of a load brings. -/
def LoadSt.line (l : LoadSt) (data : Nat) : List IWord :=
  ((List.range 4).map (wordAt data)).take (l.count - 4 * l.lines)

/-- The load once a line has returned. -/
def LoadSt.next (l : LoadSt) (data : Nat) : LoadSt := { l with lines := l.lines + 1, words := l.words ++ l.line data }

/-- The header of the program that a load reads, as the words of a line and of those before it give it. -/
def LoadSt.header (l : LoadSt) (data : Nat) : IWord := if l.lines = 0 then wordAt data 0 else l.words.headD 0

theorem length_line (l : LoadSt) (data : Nat) : (l.line data).length = min (l.count - 4 * l.lines) 4 := by
  simp [LoadSt.line]

theorem line_getD {l : LoadSt} {i : Nat} (data : Nat) (hi : i < (l.line data).length) :
    (l.line data).getD i 0 = wordAt data i := by
  rw [List.getD_eq_getElem _ _ hi]
  simp [LoadSt.line]

section
variable {l : LoadSt} (data : Nat) (hlen : l.words.length = 4 * l.lines) (hlt : 4 * l.lines < l.count)
include hlt

theorem line_headD : (l.line data).headD 0 = wordAt data 0 := by
  rw [← line_getD (l := l) data (by rw [length_line]; omega), List.headD_eq_head?_getD, List.getD_eq_getElem?_getD,
    List.head?_eq_getElem?]

include hlen

theorem next_headD : (l.next data).words.headD 0 = l.header data := by
  rw [LoadSt.next, LoadSt.header]
  split
  · have hnil : l.words = [] := List.eq_nil_of_length_eq_zero (by omega)
    rw [hnil]
    exact line_headD data hlt
  · obtain ⟨w, ws, hws⟩ : ∃ w ws, l.words = w :: ws := List.exists_cons_of_length_pos (by omega)
    rw [hws]; rfl

end

theorem hdr_len (w : IWord) : (Hdr.ofWord w).len = w.toNat / 2 ^ 113 % 128 := fld_eq ..
theorem hdr_ndecl (w : IWord) : (Hdr.ofWord w).ndecl = w.toNat / 2 ^ 108 % 32 := fld_eq ..

section
variable {s : State} {l : LoadSt} {data : Nat} (hc : s.mill.cur = some l) (hlt : 4 * l.lines < l.count)
include hc hlt

/-- A header of too many declarations (R202). -/
theorem loadLine_refused (h0 : l.lines = 0) (hn : 16 < (wordAt data 0).toNat / 2 ^ 108 % 32) :
    s.loadLine data = s.refuseLoad l := by
  rw [← line_headD data hlt, ← hdr_ndecl] at hn
  have hd : (decide (l.lines = 0) && decide (16 < (Hdr.ofWord ((l.line data).headD 0)).ndecl)) = true := by
    rw [decide_eq_true h0, decide_eq_true hn]; rfl
  simp only [State.loadLine, hc]
  exact if_pos hd

/-- Any other line brings its words to their slots, and the load reads on or ends. -/
theorem loadLine_taken (hn : l.lines = 0 → (wordAt data 0).toNat / 2 ^ 108 % 32 ≤ 16) : s.loadLine data =
    if (l.next data).lines < loadLines l.count then
      ({ s.commitLine l.slot (4 * l.lines) (l.line data) with
        mill := { s.mill with cur := some (l.next data), lastBeat := s.uc } }).queueFelt 0 (l.access (l.lines + 1))
    else if (Hdr.ofWord ((l.next data).words.headD 0)).len = l.count then
      ((s.commitLine l.slot (4 * l.lines) (l.line data)).commitWord l.slot (ownedHeader ((l.next data).words.headD 0) l.ten)).endLoad
        (l.next data) rsDone
    else (s.commitLine l.slot (4 * l.lines) (l.line data)).endLoad (l.next data) rsFailed := by
  have hd : ¬ (decide (l.lines = 0) && decide (16 < (Hdr.ofWord ((l.line data).headD 0)).ndecl)) = true := by
    rw [Bool.and_eq_true, decide_eq_true_iff, decide_eq_true_iff, hdr_ndecl, line_headD data hlt]
    exact fun ⟨h0, h⟩ => Nat.not_le.mpr h (hn h0)
  have hfurn := commitLine_onlyFurnish s l.slot (4 * l.lines) (l.line data)
  rw [← hfurn.mill, ← hfurn.uc]
  simp only [State.loadLine, hc]
  exact if_neg hd

end

/-- What a slot of the master holds once a line has brought its words but the header (R176). -/
def LoadSt.written (l : LoadSt) (s : State) (data k : Nat) : IWord :=
  if l.slot + 4 * l.lines ≤ k ∧ k < l.slot + min (4 * l.lines + 4) l.count ∧ k ≠ l.slot
  then wordAt data (k - l.slot - 4 * l.lines) else s.masterWord k

theorem commitLine_line_masterWord (s : State) (l : LoadSt) (data k : Nat) :
    (s.commitLine l.slot (4 * l.lines) (l.line data)).masterWord k = l.written s data k := by
  have hlen := length_line l data
  rw [commitLine_masterWord, LoadSt.written]
  by_cases h : l.slot + 4 * l.lines ≤ k ∧ k < l.slot + min (4 * l.lines + 4) l.count ∧ k ≠ l.slot
  · rw [if_pos (by omega), if_pos h, line_getD data (by omega)]
  · rw [if_neg (by omega), if_neg h]

section
variable {s : State} {l : LoadSt} {data : Nat} (hc : s.mill.cur = some l) (hlt : 4 * l.lines < l.count)
  (hn : l.lines = 0 → (wordAt data 0).toNat / 2 ^ 108 % 32 ≤ 16)
include hc hlt hn

/-- A line before the last: the next one is read. -/
theorem loadLine_more (hm : 4 * l.lines + 4 < l.count) : ∃ u, OnlyFurnish s u ∧ (∀ k, u.masterWord k = l.written s data k)
    ∧ s.loadLine data = ({ u with
      mill := { s.mill with cur := some (l.next data), lastBeat := s.uc } }).queueFelt 0 (l.access (l.lines + 1)) := by
  refine ⟨_, commitLine_onlyFurnish .., commitLine_line_masterWord s l data, ?_⟩
  rw [loadLine_taken hc hlt hn, if_pos]
  show l.lines + 1 < (16 * l.count + 63) / 64
  omega

variable (hm : l.count ≤ 4 * l.lines + 4) (hlen : l.words.length = 4 * l.lines)
include hm hlen

/-- The last line ends the load by the length in the header (R176). -/
theorem loadLine_last : s.loadLine data = if (l.header data).toNat / 2 ^ 113 % 128 = l.count then
      ((s.commitLine l.slot (4 * l.lines) (l.line data)).commitWord l.slot (ownedHeader (l.header data) l.ten)).endLoad (l.next data) rsDone
    else (s.commitLine l.slot (4 * l.lines) (l.line data)).endLoad (l.next data) rsFailed := by
  rw [loadLine_taken hc hlt hn, next_headD data hlen hlt, hdr_len, if_neg]
  show ¬ l.lines + 1 < (16 * l.count + 63) / 64
  omega

theorem loadLine_done (he : (l.header data).toNat / 2 ^ 113 % 128 = l.count) : ∃ u, OnlyFurnish s u
    ∧ (∀ k, u.masterWord k = if k = l.slot then ownedHeader (l.header data) l.ten else l.written s data k)
    ∧ s.loadLine data = u.endLoad (l.next data) rsDone := by
  refine ⟨_, (commitLine_onlyFurnish ..).trans (commitWord_onlyFurnish ..), fun k => ?_,
    (loadLine_last hc hlt hn hm hlen).trans (if_pos he)⟩
  rw [commitWord_masterWord, commitLine_line_masterWord]

theorem loadLine_failed (he : (l.header data).toNat / 2 ^ 113 % 128 ≠ l.count) : ∃ u, OnlyFurnish s u
    ∧ (∀ k, u.masterWord k = l.written s data k) ∧ s.loadLine data = u.endLoad (l.next data) rsFailed :=
  ⟨_, commitLine_onlyFurnish .., commitLine_line_masterWord s l data, (loadLine_last hc hlt hn hm hlen).trans (if_neg he)⟩

end

/-- The end of a load: its report, and nothing of the master or the contexts. -/
theorem endLoad_spec (s : State) (l : LoadSt) (result : Nat) : (s.endLoad l result).mill.cur = none
    ∧ (s.endLoad l result).master = s.master ∧ (s.endLoad l result).ctxs = s.ctxs
    ∧ ((s.endLoad l result).tenant l.ten).reports = (s.tenant l.ten).reports ++ [⟨result, 0, l.tag⟩] :=
  ⟨rfl, rfl, rfl, pushReport_reports ..⟩

theorem refuseLoad_spec (s : State) (l : LoadSt) : (s.refuseLoad l).mill.cur = none ∧ (s.refuseLoad l).master = s.master
    ∧ (s.refuseLoad l).ctxs = s.ctxs ∧ ((s.refuseLoad l).tenant l.ten).reports = (s.tenant l.ten).reports ++ [⟨1, 1, l.tag⟩] :=
  ⟨rfl, rfl, rfl, pushReport_reports ..⟩

/-- The fields of a header as it is written: OWNER from the tenant, the others as they were read (R176). -/
theorem ownedHeader_fields (w : IWord) (ten : Nat) : (ownedHeader w ten).extractLsb' 104 4 = BitVec.ofNat 4 ten
    ∧ (ownedHeader w ten).extractLsb' 108 20 = w.extractLsb' 108 20
    ∧ (ownedHeader w ten).extractLsb' 0 104 = w.extractLsb' 0 104 := by
  have hw := w.isLt
  have hn : (ownedHeader w ten).toNat = w.toNat / 2 ^ 108 * 2 ^ 108 + ten % 16 * 2 ^ 104 + w.toNat % 2 ^ 104 := by
    rw [ownedHeader, BitVec.toNat_ofNat, Nat.shiftRight_eq_div_pow]
    exact Nat.mod_eq_of_lt (by omega)
  refine ⟨?_, ?_, ?_⟩ <;> apply BitVec.eq_of_toNat_eq
  · rw [BitVec.extractLsb'_toNat, hn, Nat.shiftRight_eq_div_pow, BitVec.toNat_ofNat]
    omega
  · rw [BitVec.extractLsb'_toNat, BitVec.extractLsb'_toNat, hn, Nat.shiftRight_eq_div_pow, Nat.shiftRight_eq_div_pow]
    omega
  · rw [BitVec.extractLsb'_toNat, BitVec.extractLsb'_toNat, hn, Nat.shiftRight_zero, Nat.shiftRight_zero]
    omega

/-! ### The response -/

section
variable {s : State} {l : LoadSt} {o : FeltOut}

theorem feltFail_load (hc : s.mill.cur = some l) (hk : o.acc.kind = .load) (hd : o.acc.data = l.ser) (code : Nat) :
    s.feltFail o.acc code = s.endLoad l rsFailed := by
  simp only [State.feltFail, hk, hc, hd, State.loadFailed, beq_self_eq_true, Bool.true_or, Bool.not_true, Bool.and_false,
    Bool.false_eq_true, if_false, if_true]

theorem feltDone_load (hc : s.mill.cur = some l) (hk : o.acc.kind = .load) (hd : o.acc.data = l.ser) :
    s.feltDone o = s.loadLine o.rdata := by
  simp only [State.feltDone, hk, hc, hd, beq_self_eq_true, Bool.true_or, Bool.not_true, Bool.and_false, Bool.false_eq_true,
    if_false, if_true]

/-- The taking of a response moves the uc and the slices alone, and no access that waits in its slice. -/
structure Answered (n : Nat) (s p : State) : Prop where
  others : { p with uc := s.uc, slices := s.slices } = s
  wait : (p.slice n).wait = (s.slice n).wait

section
variable {n : Nat} {s p : State} (h : Answered n s p)
include h

theorem Answered.mill : p.mill = s.mill := (congrArg State.mill h.others :)
theorem Answered.master : p.master = s.master := (congrArg State.master h.others :)
theorem Answered.ctxs : p.ctxs = s.ctxs := (congrArg State.ctxs h.others :)
theorem Answered.tenants : p.tenants = s.tenants := (congrArg State.tenants h.others :)
theorem Answered.masterWord (k : Nat) : p.masterWord k = s.masterWord k := by rw [State.masterWord, h.master]; rfl
theorem Answered.tenant (k : Nat) : p.tenant k = s.tenant k := by rw [State.tenant, h.tenants]; rfl

end

theorem answered_takeResponse (s : State) (n : Nat) {f : Slice → Slice} (hf : ∀ q, (f q).wait = q.wait) :
    Answered n s ((s.takeResponse n).modSlice n f) :=
  ⟨rfl, by
    rw [State.modSlice, State.setSlice_slice_same, hf, State.takeResponse, State.modSlice, State.setSlice_slice_same]; rfl⟩

theorem takeResponse_out (s : State) (n : Nat) : ((s.takeResponse n).slice n).out = (s.slice n).out := by
  rw [State.takeResponse, State.modSlice, State.setSlice_slice_same]; rfl

section
variable {r : FeltResp} (hc : s.mill.cur = some l) (hk : o.acc.kind = .load) (hd : o.acc.data = l.ser) (hf : o.failed = false)
  (ho : (s.slice 0).out.find? (fun p => p.tag == r.tag.val) = some o)
include hc hk hd hf ho

/-- A read of a load that fails ends it. -/
theorem feltResponse_load_failed (hr : r.err = true) : ∃ p f, Answered 0 s p
    ∧ s.feltResponse 0 r = (p.endLoad l rsFailed).modSlice 0 f := by
  rw [← takeResponse_out] at ho
  have hc' : ∀ g, ((s.takeResponse 0).modSlice 0 g).mill.cur = some l := fun _ => hc
  simp only [State.feltResponse, ho, hr, if_true, State.failOut, hf, Bool.false_eq_true, if_false, Bool.or_true,
    feltFail_load (hc' _) hk hd]
  split
  · refine ⟨_, _, ?_, rfl⟩
    exact answered_takeResponse s 0 fun _ => rfl
  · refine ⟨_, _, ?_, rfl⟩
    exact answered_takeResponse s 0 fun _ => rfl

/-- The last beat of a line brings it. -/
theorem feltResponse_load_last (hr : r.err = false) (hl : r.last = true) : ∃ p, Answered 0 s p ∧ s.feltResponse 0 r =
    p.loadLine (if r.wack then o.rdata else o.rdata + r.data.toNat * 2 ^ (256 * o.beats)) := by
  rw [← takeResponse_out] at ho
  have hc' : ∀ g, ((s.takeResponse 0).modSlice 0 g).mill.cur = some l := fun _ => hc
  simp only [State.feltResponse, ho, hr, hl, hf, Bool.or_false, Bool.false_eq_true, if_true, if_false]
  refine ⟨_, ?_, feltDone_load (hc' _) hk hd⟩
  exact answered_takeResponse s 0 fun _ => rfl

end

end

theorem exec_feltResponse {s : State} (hs : Reached s) (sl : SliceId) (r : FeltResp) :
    exec (.feltResponse sl r) s = .next (s.feltResponse sl.val r) := by
  rw [exec, execFeltResponse, port_reached hs]

end Sys2Proof.Machine

namespace Sys2Proof
open Sys2Proof.Machine Sys2Proof.Safety

/-- Settles O25: the start of a load, its refusal, and a line that returns, by what the line does to the load. -/
theorem loadprogStartsOrRefuses : Obligations.LoadprogStartsOrRefuses := by
  refine ⟨fun s e rest hs hm h2 h64 hr ho hl => ?_, fun s e rest hs hm h2 h64 h => ?_,
    fun s l o r hs hc hout hk hd hf hlen hlt => ⟨fun hr => ?_, fun hr hl => ?_⟩⟩
  · obtain ⟨p, hfurn, hword, e'⟩ := millLoad_starts (s := Safety.taken s rest) h2 h64 hr hl ho
    refine ⟨_, _, (exec_loadprog hs hm).trans (congrArg _ e'), rfl, rfl, rfl, rfl, rfl, rfl, hword, ?_, hfurn.mailbox, hfurn.ctxs,
      hfurn.tenants⟩
    rw [State.reads, queueFelt_wait]
    exact congrArg (fun q : Slice => q.wait ++ _) (hfurn.slice 0)
  · exact ⟨_, _, (exec_loadprog hs hm).trans (congrArg _ (millLoad_refused h2 h64 h)), rfl, rfl, rfl, rfl, hm.2.1,
      pushReport_reports ..⟩
  · obtain ⟨p, f, hp, e⟩ := feltResponse_load_failed hc hk hd hf hout hr
    obtain ⟨hcur, hmas, hctx, hrep⟩ := endLoad_spec p l rsFailed
    exact ⟨_, 0, (exec_feltResponse hs 0 r).trans (congrArg _ e), hcur, hmas.trans hp.master, hctx.trans hp.ctxs,
      hrep.trans (by rw [hp.tenant]; rfl)⟩
  · obtain ⟨p, hp, e⟩ := feltResponse_load_last hc hk hd hf hout hr hl
    have hx := (exec_feltResponse hs 0 r).trans (congrArg _ e)
    have hc' : p.mill.cur = some l := hp.mill ▸ hc
    generalize (if r.wack then o.rdata else o.rdata + r.data.toNat * 2 ^ (256 * o.beats)) = data at hx
    have hwr : l.written p data = l.written s data := funext fun k => by rw [LoadSt.written, hp.masterWord]; rfl
    refine ⟨fun h0 hn => ?_, fun hn => ⟨fun hm => ?_, fun hm he => ?_, fun hm he => ?_⟩⟩
    · rw [loadLine_refused hc' hlt h0 hn] at hx
      obtain ⟨hcur, hmas, hctx, hrep⟩ := refuseLoad_spec p l
      exact ⟨_, 1, hx, hcur, hmas.trans hp.master, hctx.trans hp.ctxs, hrep.trans (by rw [hp.tenant])⟩
    · obtain ⟨u, hu, hword, e⟩ := loadLine_more hc' hlt hn hm
      rw [hwr] at hword
      refine ⟨_, hx.trans (congrArg _ e), hword, ⟨l.next data, rfl, rfl, next_headD data hlen hlt, rfl, rfl, rfl, rfl⟩, ?_,
        hu.ctxs.trans hp.ctxs, hu.tenants.trans hp.tenants⟩
      rw [queueFelt_wait, ← hp.wait]
      exact congrArg (fun q : Slice => q.wait ++ _) (hu.slice 0)
    · obtain ⟨u, hu, hword, e⟩ := loadLine_done hc' hlt hn hm hlen he
      rw [hwr] at hword
      obtain ⟨hcur, hmas, hctx, hrep⟩ := endLoad_spec u (l.next data) rsDone
      obtain ⟨howner, hdecl, hrest⟩ := ownedHeader_fields (l.header data) l.ten
      have hslot : (u.endLoad (l.next data) rsDone).masterWord l.slot = ownedHeader (l.header data) l.ten :=
        (hword l.slot).trans (if_pos rfl)
      refine ⟨_, 0, hx.trans (congrArg _ e), hcur, hrep.trans ?_, fun k hk => (hword k).trans (if_neg hk), by rw [hslot, howner],
        by rw [hslot, hdecl]; rfl, by rw [hslot, hrest]; rfl, hctx.trans (hu.ctxs.trans hp.ctxs)⟩
      rw [hu.tenant, hp.tenant]; rfl
    · obtain ⟨u, hu, hword, e⟩ := loadLine_failed hc' hlt hn hm hlen he
      rw [hwr] at hword
      obtain ⟨hcur, hmas, hctx, hrep⟩ := endLoad_spec u (l.next data) rsFailed
      refine ⟨_, 0, hx.trans (congrArg _ e), hcur, hrep.trans ?_, hword, hctx.trans (hu.ctxs.trans hp.ctxs)⟩
      rw [hu.tenant, hp.tenant]; rfl

end Sys2Proof
end

section
/-! SUPPORT. STASH_WRITE and SAMPLE_RECORD_WRITE by their ends (R222, R224, R227, R253, R256). -/
namespace Sys2Proof.Machine
open Sys2Proof.Safety

/-! ### STASH_WRITE -/

/-- The line that a stash line takes for itself (R222). -/
def Channel.stashLine (h : Channel) (c : Nat) (w : StashWr) : LoftLine :=
  { newLine h.freeIdx c w.line h.cyc with
    stash := true, tag := w.tag, data := w.data, be := w.be, dirty := true, writing := true, run := w.run }

/-- The home write of a stash line that stands in the Loft. -/
def Ctx.stashHome (x : Ctx) (c : Nat) (w : StashWr) : FeltAcc :=
  ⟨.stash x.chan w.tag, c, w.line, x.ten, x.stashwin, x.home w.line, 64, true, 0, 0⟩

/-- The home write of a stash line that has no line of its own (R227). -/
def Ctx.stashStraight (x : Ctx) (c : Nat) (w : StashWr) : FeltAcc :=
  ⟨.stashStraight w.run w.tag, c, w.line, x.ten, x.stashwin, x.home w.line, 64, true, w.data, w.be⟩

theorem exec_stashWrite {s : State} (hs : Inside s) (c : CtxId) : exec (.stashWrite c) s = .next (s.writeStash c.val) :=
  hw_inside hs fun s => s.writeStash c.val

theorem writeStash_of_none {s : State} {c : Nat} (hq : (s.ctx c).stashQ = []) : s.writeStash c = s := by
  simp only [State.writeStash, hq, List.head?_nil, Option.map_none, State.toWrite]

theorem writeStash_of_stopped {s : State} {c : Nat} (h : (s.ch (s.ctx c).chan).serves = false) : s.writeStash c = s := by
  simp only [State.writeStash, toWrite_of_stopped h, h, Bool.not_false, if_true]
  split <;> rfl

section
variable {s p : State} {c : Nat} {w : StashWr} {rest : List StashWr}
  (hp : s.toWrite c ((s.ctx c).stashQ.head?.map fun w => w.cc) = p) (hq : (p.ctx c).stashQ = w :: rest)
  (hs : (p.ch (p.ctx c).chan).serves = true)

include hq in
theorem popStash_of_cons : p.popStash c = p.setCtx c { p.ctx c with stashQ := rest } := by
  rw [State.popStash, State.modCtx, hq]
  rfl

include hp hq hs

theorem writeStash_room (hr : (p.ch (p.ctx c).chan).lineCount c < (p.ctx c).algrant) :
    s.writeStash c = ((p.setCtx c { p.ctx c with stashQ := rest }).setCh (p.ctx c).chan
      ((p.ch (p.ctx c).chan).addLine ((p.ch (p.ctx c).chan).stashLine c w))).queueFelt (p.ctx c).chan ((p.ctx c).stashHome c w) := by
  have ha : (p.ctx c).algrant ≠ 0 := Nat.ne_zero_of_lt hr
  simp only [State.writeStash, hp, hq, hs, ha, needLine_of_room hr, popStash_of_cons hq, Channel.stashLine, Ctx.stashHome, Bool.not_true,
    Bool.false_eq_true, if_false]

theorem writeStash_straight (ha : (p.ctx c).algrant = 0) (hpol : (p.ctx c).policy = 0 ∨ (p.ctx c).policy = 3) :
    s.writeStash c = (p.setCtx c { p.ctx c with stashQ := rest }).queueFelt (p.ctx c).chan ((p.ctx c).stashStraight c w) := by
  simp only [State.writeStash, hp, hq, hs, ha, hpol, popStash_of_cons hq, Ctx.stashStraight, Bool.not_true, Bool.false_eq_true,
    Bool.or_eq_true, decide_eq_true_eq, if_false, if_true]

theorem writeStash_marked (ha : (p.ctx c).algrant = 0) (hpol : (p.ctx c).policy = 1) : s.writeStash c =
    p.setCtx c { p.ctx c with stashQ := rest, mark := (p.ctx c).mark ||| BitVec.ofNat 256 (2 ^ (w.tag % 256)) } := by
  have hmark : s.writeStash c = (p.popStash c).setMark c w.tag := by simp [State.writeStash, hp, hq, hs, ha, hpol]
  rw [hmark, popStash_of_cons hq, State.setMark, State.modCtx, State.setCtx_ctx_same, setCtx_setCtx]

theorem writeStash_overflow (ha : (p.ctx c).algrant = 0) (hpol : (p.ctx c).policy = 2) : s.writeStash c = p.stashOverflow c := by
  simp [State.writeStash, hp, hq, hs, ha, hpol]

end

/-- A layer's mark is set, and no other (R224). -/
theorem getLsbD_marked (m : BitVec 256) (tag : Nat) {i : Nat} (hi : i < 256) :
    (m ||| BitVec.ofNat 256 (2 ^ (tag % 256))).getLsbD i = (m.getLsbD i || decide (i = tag % 256)) := by
  rw [BitVec.getLsbD_or, BitVec.getLsbD_ofNat, Nat.testBit_two_pow, decide_eq_true hi, Bool.true_and]
  congr 1
  exact decide_eq_decide.mpr eq_comm

/-! ### SAMPLE_RECORD_WRITE -/

/-- The home write of a sampling record (R253, Table 12-8). -/
def Ctx.sampleHome (x : Ctx) (c : Nat) (w : SmpWr) : FeltAcc :=
  ⟨.sample w.run, c, 0, x.ten, w.win, w.off - w.off % 32, 32, true, w.data * 2 ^ (8 * (w.off % 32)), 0xFFFF * 2 ^ (w.off % 32)⟩

theorem exec_sampleRecordWrite {s : State} (hs : Inside s) (c : CtxId) :
    exec (.sampleRecordWrite c) s = .next (s.writeSample c.val) :=
  hw_inside hs fun s => s.writeSample c.val

theorem writeSample_of_none {s : State} {c : Nat} (hq : (s.ctx c).smpQ = []) : s.writeSample c = s := by
  simp only [State.writeSample, hq, List.head?_nil, Option.map_none, State.toWrite]

theorem writeSample_of_stopped {s : State} {c : Nat} (h : (s.ch (s.ctx c).chan).serves = false) : s.writeSample c = s := by
  simp only [State.writeSample, toWrite_of_stopped h, h, Bool.not_false, Bool.true_or, if_true]
  split <;> rfl

theorem handsFirst_iff (s : State) (n c : Nat) (w : SmpWr) : s.handsFirst n c w = true ↔
    ∃ a ∈ (s.ch n).alloc, a.ctx ≠ c ∧ ∃ v ∈ (s.ctx a.ctx).smpQ, v.cc = w.cc ∧ (v.w < w.w ∨ v.w = w.w ∧ a.ctx < c) := by
  simp only [State.handsFirst, List.any_eq_true, Bool.and_eq_true, bne_iff_ne, beq_iff_eq, decide_eq_true_iff]

section
variable {s p : State} {c : Nat} {w : SmpWr} {rest : List SmpWr}
  (hp : s.toWrite c ((s.ctx c).smpQ.head?.map fun w => w.cc) = p) (hq : (p.ctx c).smpQ = w :: rest)
include hp hq

theorem writeSample_waits (hf : p.handsFirst (p.ctx c).chan c w = true) : s.writeSample c = p := by
  simp only [State.writeSample, hp, hq, hf, Bool.or_true, if_true]

theorem writeSample_goes (hs : (p.ch (p.ctx c).chan).serves = true) (hf : p.handsFirst (p.ctx c).chan c w = false) :
    s.writeSample c = (p.setCtx c { p.ctx c with smpQ := rest }).queueFelt (p.ctx c).chan ((p.ctx c).sampleHome c w) := by
  simp only [State.writeSample, hp, hq, hs, hf, Ctx.sampleHome, Bool.not_true, Bool.or_false, Bool.false_eq_true, if_false]

end

end Sys2Proof.Machine

namespace Sys2Proof
open Sys2Proof.Machine Sys2Proof.Safety

/-- Settles O45, by the ends of the two commands. -/
theorem stashLinesAndSamplesGoHome : Obligations.StashLinesAndSamplesGoHome := by
  intro s c hin
  rw [exec_stashWrite hin c, exec_sampleRecordWrite hin c]
  refine ⟨?_, ?_, ?_, ?_⟩
  · rintro (hq | hstop)
    · rw [writeStash_of_none hq]
    · rw [writeStash_of_stopped hstop]
  · rintro (hq | hstop)
    · rw [writeSample_of_none hq]
    · rw [writeSample_of_stopped hstop]
  · generalize hp : s.toWrite c.val ((s.ctx c.val).stashQ.head?.map fun w => w.cc) = p
    intro _ x h w rest hq hs
    refine ⟨fun hr => ?_, fun ha hpol => ?_, fun ha hpol => ?_, fun ha hpol hst => ?_⟩
    · refine ⟨_, h.stashLine c.val w, congrArg _ (writeStash_room hp hq hs hr), ?_, ?_, rfl, rfl, rfl, rfl, rfl, rfl, rfl, rfl,
        fun l hmem => ⟨?_, freeIdx_free h l (List.mem_append_left _ hmem)⟩, ?_, rfl, fun d hd => ?_⟩
      · rw [queueFelt_ctx, State.setCh_ctx, State.setCtx_ctx_same]
      · rw [queueFelt_ch, State.setCh_ch_same]
        exact mem_addLine.mpr (.inl rfl)
      · rw [queueFelt_ch, State.setCh_ch_same]
        exact mem_addLine.mpr (.inr hmem)
      · rw [queueFelt_wait]; rfl
      · rw [queueFelt_ctx, State.setCh_ctx, State.setCtx_ctx_other _ _ _ _ hd]
    · refine ⟨_, congrArg _ (writeStash_straight hp hq hs ha hpol), ?_, ?_, rfl, rfl, fun d hd => ?_⟩
      · rw [queueFelt_ctx, State.setCtx_ctx_same]
      · rw [queueFelt_wait]; rfl
      · rw [queueFelt_ctx, State.setCtx_ctx_other _ _ _ _ hd]
    · refine ⟨_, congrArg _ (writeStash_marked hp hq hs ha hpol), ?_, fun i hi => ?_, onlyCtx_setCtx ..⟩
      · rw [State.setCtx_ctx_same]
      · rw [State.setCtx_ctx_same]
        exact getLsbD_marked x.mark w.tag hi
    · exact ⟨_, congrArg _ (writeStash_overflow hp hq hs ha hpol), stashOverflow_taken hst⟩
  · generalize hp : s.toWrite c.val ((s.ctx c.val).smpQ.head?.map fun w => w.cc) = p
    intro _ x w rest hq hs first
    refine ⟨fun hfirst => ?_, fun hfirst => ?_⟩
    · rw [writeSample_waits hp hq ((handsFirst_iff p x.chan c.val w).mpr hfirst)]
    · have hf : p.handsFirst x.chan c.val w = false := by
        rw [Bool.eq_false_iff, Ne, handsFirst_iff]
        rintro ⟨a, ha, hne, v, hv, hbefore⟩
        exact hfirst a ha hne v hv hbefore
      refine ⟨_, x.sampleHome c.val w, congrArg _ (writeSample_goes hp hq hs hf), ?_, ?_, ?_, rfl, rfl, rfl, rfl, rfl, rfl, rfl, rfl, rfl,
        fun d hd => ?_⟩
      · rw [queueFelt_ctx, State.setCtx_ctx_same]
      · rw [queueFelt_wait]; rfl
      · change w.off - w.off % 32 = w.off / 32 * 32
        omega
      · rw [queueFelt_ctx, State.setCtx_ctx_other _ _ _ _ hd]

end Sys2Proof
end

section
/-! SUPPORT. The words LREL and LFLUSH where they act, and the next cc, in which what they leave due takes place (R221, R305, R306). -/
namespace Sys2Proof.Machine
open Sys2Proof.Safety

/-! ### The words -/

section
variable {op : Nat} (hop : op < 256) (i n : BitVec 32)
include hop

theorem loftWord_fields : opc (loftWord op i n) = op ∧ LoftW.ofWord (loftWord op i n) = ⟨i.toNat, n.toNat⟩
    ∧ IWord.fld (loftWord op i n) 55 0 = 0 := by
  have hi := i.isLt
  have hn := n.isLt
  have hw : (loftWord op i n).toNat = op * 2 ^ 120 + i.toNat * 2 ^ 88 + n.toNat * 2 ^ 56 := by
    rw [loftWord, mkWord_toNat, fieldSum_cons, fieldSum_cons, fieldSum_nil, Nat.mod_eq_of_lt (by omega)]
  simp only [opc, LoftW.ofWord, fld_eq, hw, LoftW.mk.injEq]
  omega

theorem loftRange_direct : loftRange Site.direct (loftWord op i n) = (i.toNat, n.toNat + 1) := by
  simp only [loftRange, (loftWord_fields hop i n).2.1, Site.direct, Nat.add_zero, Nat.mod_eq_of_lt i.isLt]

theorem siteFault_loftWord (s : State) (c : Nat) :
    s.siteFault c Site.direct (loftWord op i n) 88 = s.fault c 0x02 (ifltWord true 0 0 op 88) := by
  rw [State.siteFault, State.ifault, (loftWord_fields hop i n).1]; rfl

end

theorem opOf_loftWord (i n : BitVec 32) :
    opOf (loftWord 0xA0 i n) = some .lrel ∧ opOf (loftWord 0xA1 i n) = some .lflush := by
  constructor
  · rw [opOf, (loftWord_fields (by decide) i n).1]; rfl
  · rw [opOf, (loftWord_fields (by decide) i n).1]; rfl

/-- A Loft word: its command, its opcode and the effect that it leaves due. -/
def LoftCommand (c : CtxId) (m : TenId) (i n : BitVec 32) (k : Instr) (op : Nat) (eff : Effect) : Prop :=
  k = .lrel c m i n ∧ op = 0xA0 ∧ eff = .release i.toNat (n.toNat + 1)
    ∨ k = .lflush c m i n ∧ op = 0xA1 ∧ eff = .flush i.toNat (n.toNat + 1)

/-- A Loft word acts: an illegal operand, or an effect of the next cc. -/
def State.actLoft (s : State) (c : Nat) (i n : BitVec 32) (op : Nat) (eff : Effect) : State :=
  if (s.ctx c).outside i.toNat (n.toNat + 1) then s.fault c 0x02 (ifltWord true 0 0 op 88)
  else s.modCh (s.ctx c).chan fun h => h.defer [⟨h.cyc + 1, c, none, eff⟩]

section
variable {c : CtxId} {m : TenId} {i n : BitVec 32} {k : Instr} {op : Nat} {eff : Effect} (hk : LoftCommand c m i n k op eff)
include hk

theorem LoftCommand.op_lt : op < 256 := by
  rcases hk with ⟨-, rfl, -⟩ | ⟨-, rfl, -⟩ <;> decide

theorem LoftCommand.opOf : opOf (loftWord op i n) = some .lrel ∨ opOf (loftWord op i n) = some .lflush := by
  rcases hk with ⟨-, rfl, -⟩ | ⟨-, rfl, -⟩
  · exact .inl (opOf_loftWord i n).1
  · exact .inr (opOf_loftWord i n).2

theorem LoftCommand.directCheck : directCheck (loftWord op i n) = none := by
  have hlow : (IWord.fld (loftWord op i n) 55 0 != 0) = false := by rw [(loftWord_fields hk.op_lt i n).2.2]; rfl
  rcases hk.opOf with ho | ho
  · rw [Machine.directCheck, ho, loftChecks, hlow]; rfl
  · rw [Machine.directCheck, ho, loftChecks, hlow]; rfl

theorem LoftCommand.act (s : State) : s.act c.val Site.direct (loftWord op i n) = s.actLoft c.val i n op eff := by
  rw [State.actLoft, ← siteFault_loftWord hk.op_lt i n]
  rcases hk with ⟨-, rfl, rfl⟩ | ⟨-, rfl, rfl⟩
  · rw [State.act, (opOf_loftWord i n).1]
    simp only [State.actLrel, loftRange_direct (show 0xA0 < 256 by decide)]
    rfl
  · rw [State.act, (opOf_loftWord i n).2]
    simp only [State.actLflush, loftRange_direct (show 0xA1 < 256 by decide)]
    rfl

end

/-- An accepted Loft word, of a context that nothing keeps busy, acts. -/
theorem accept_loft_of_quiet {p : State} {c ser : Nat} {w : IWord} (hq : Quiet (p.ctx c)) (hc : directCheck w = none)
    (ho : opOf w = some .lrel ∨ opOf w = some .lflush) :
    p.accept c ser w = ((p.setCtx c (p.ctx c)).act c Site.direct w).settleState c := by
  obtain ⟨hst, hruns, hdir, hnew, hres⟩ := hq
  have hwait : ∀ u : State, u.closeWaits c ser w = false := by
    intro u
    rcases ho with h | h <;> rw [State.closeWaits, h] <;> rfl
  let x : Ctx := { p.ctx c with directs := [⟨ser, w⟩] }
  have hacc : p.accept c ser w = (p.setCtx c x).settle c := by
    rcases ho with h | h
    all_goals
      rw [State.accept, hc, h]
      simp only [State.modCtx, hdir, List.nil_append, x]
  have hx : (p.setCtx c x).ctx c = x := State.setCtx_ctx_same ..
  have hidle : (p.setCtx c x).settle c = ((p.setCtx c x).settleDirects c 1).settleState c := by
    rw [settle_of_idle (by rw [hx]; exact hruns) (by rw [hx]; exact hnew) (by rw [hx]; exact hres), hx, setCtx_setCtx]
    rfl
  have hacts : (p.setCtx c x).settleDirects c 1 = (p.setCtx c (p.ctx c)).act c Site.direct w := by
    rw [settleDirects_cons (ds := []) (congrArg Ctx.directs hx) ((congrArg Ctx.st hx).trans hst) ((congrArg Ctx.runs hx).trans hruns)
      (hwait _), State.settleDirects, State.modCtx, hx, setCtx_setCtx, ← hdir]
  rw [hacc, hidle, hacts]

theorem exec_loft {s : State} {c : CtxId} {m : TenId} {i n : BitVec 32} {k : Instr} {op : Nat} {eff : Effect}
    (h : ActsAtOnce s c.val m.val) (hk : LoftCommand c m i n k op eff) : exec k s
      = .next ((((wordPoint s c.val).setCtx c.val ((wordPoint s c.val).ctx c.val)).actLoft c.val i n op eff).settleState c.val) := by
  obtain ⟨hr, hd, ht, hq⟩ := h
  have hdirect : s.direct c.val m.val (loftWord op i n)
      = (((wordPoint s c.val).setCtx c.val ((wordPoint s c.val).ctx c.val)).actLoft c.val i n op eff).settleState c.val := by
    rw [direct_of_deliverable _ hd (not_refused_of_open ht (.inl hq.1)), accept_loft_of_quiet hq hk.directCheck hk.opOf, hk.act]
  rw [← hdirect]
  rcases hk with ⟨rfl, rfl, -⟩ | ⟨rfl, rfl, -⟩
  · rw [exec, execLrel, port_reached hr]
  · rw [exec, execLflush, port_reached hr]

/-! ### The ends of a Loft word -/

/-- The state in which a Loft word has left its effect due in the next cc. -/
def State.loftDue (p : State) (c : Nat) (eff : Effect) : State :=
  let h := p.ch (p.ctx c).chan
  (p.setCh (p.ctx c).chan (h.defer [⟨h.cyc + 1, c, none, eff⟩])).setCtx c (p.ctx c)

theorem defer_frame (h : Channel) (es : List Later) : { h.defer es with due := h.due } = h := rfl

section
variable (p : State) (c : Nat) (eff : Effect)

theorem loftDue_ctx : (p.loftDue c eff).ctx c = p.ctx c := State.setCtx_ctx_same ..

theorem loftDue_ch : (p.loftDue c eff).ch (p.ctx c).chan
    = (p.ch (p.ctx c).chan).defer [⟨(p.ch (p.ctx c).chan).cyc + 1, c, none, eff⟩] := State.setCh_ch_same ..

theorem loftDue_frame : { (p.loftDue c eff).ch (p.ctx c).chan with due := (p.ch (p.ctx c).chan).due } = p.ch (p.ctx c).chan := by
  rw [loftDue_ch]
  exact defer_frame _ _

theorem loftDue_onlyCtxCh : OnlyCtxCh c (p.ctx c).chan p (p.loftDue c eff) := setCh_setCtx_onlyCtxCh ..

end

section
variable {s : State} {c : CtxId} {m : TenId} {i n : BitVec 32} {k : Instr} {op : Nat} {eff : Effect}
  (h : ActsAtOnce s c.val m.val) (hk : LoftCommand c m i n k op eff)
include h hk

theorem exec_loft_outside (hx : 4 * ((wordPoint s c.val).ctx c.val).extent < i.toNat + n.toNat + 1) :
    ∃ t, exec k s = .next t ∧ OperandFault c.val op 88 (wordPoint s c.val) t := by
  have hexec := exec_loft h hk
  obtain ⟨-, -, -, hst, -⟩ := h
  generalize wordPoint s c.val = p at hx hst hexec ⊢
  have hsame : (p.setCtx c.val (p.ctx c.val)).ctx c.val = p.ctx c.val := State.setCtx_ctx_same ..
  have hf := fault_taken (s := p.setCtx c.val (p.ctx c.val)) (c := c.val) 0x02 (ifltWord true 0 0 op 88) (.inl (by rw [hsame]; exact hst))
  rw [State.actLoft, if_pos (by rw [hsame, Ctx.outside]; exact decide_eq_true (by omega)),
    settleState_of_not_running (by rw [hf.1]; decide)] at hexec
  exact ⟨_, hexec, operandFault_of_own (operandFault_of_faultTaken hf rfl rfl)⟩

theorem exec_loft_inside (hx : i.toNat + n.toNat + 1 ≤ 4 * ((wordPoint s c.val).ctx c.val).extent) :
    exec k s = .next ((wordPoint s c.val).loftDue c.val eff) := by
  have hexec := exec_loft h hk
  obtain ⟨-, -, -, hst, -⟩ := h
  generalize wordPoint s c.val = p at hx hst hexec ⊢
  have hsame : (p.setCtx c.val (p.ctx c.val)).ctx c.val = p.ctx c.val := State.setCtx_ctx_same ..
  have hin : ¬ (p.ctx c.val).outside i.toNat (n.toNat + 1) = true := by
    rw [Ctx.outside, decide_eq_true_iff]
    omega
  rw [State.actLoft, hsame, if_neg hin, settleState_of_not_running (by rw [State.modCh, State.setCh_ctx, hsame, hst]; decide)] at hexec
  exact hexec

end

/-! ### The next cc -/

/-- Slices, tenants and the furnish master stay. -/
def OutsideStays (s t : State) : Prop := t.slices = s.slices ∧ t.tenants = s.tenants ∧ t.master = s.master

theorem OutsideStays.refl (s : State) : OutsideStays s s := ⟨rfl, rfl, rfl⟩

/-- The last of two operations first, so that it says what the first one is. -/
theorem OutsideStays.after {s t u : State} (k : OutsideStays t u) (h : OutsideStays s t) : OutsideStays s u :=
  ⟨k.1.trans h.1, k.2.1.trans h.2.1, k.2.2.trans h.2.2⟩

theorem OutsideStays.foldl {α : Type} {f : State → α → State} (hf : ∀ s a, OutsideStays s (f s a)) (l : List α) (s : State) :
    OutsideStays s (l.foldl f s) :=
  foldl_keeps (P := OutsideStays s) (fun t a h => (hf t a).after h) l s (OutsideStays.refl s)

theorem outsideStays_setCh (s : State) (n : Nat) (h : Channel) : OutsideStays s (s.setCh n h) := ⟨rfl, rfl, rfl⟩

theorem outsideStays_modCh (s : State) (n : Nat) (f : Channel → Channel) : OutsideStays s (s.modCh n f) := ⟨rfl, rfl, rfl⟩

theorem outsideStays_modCtx (s : State) (c : Nat) (f : Ctx → Ctx) : OutsideStays s (s.modCtx c f) := ⟨rfl, rfl, rfl⟩

theorem outsideStays_stalls (s : State) (n : Nat) (p q : Bool) (ks : List (Nat × Cause)) (j : Nat) :
    OutsideStays s (s.stalls n p q ks j) :=
  (outsideStays_modCh ..).after (OutsideStays.foldl (fun _ _ => outsideStays_modCtx ..) _ _)

theorem outsideStays_charge (s : State) (n : Nat) : OutsideStays s (s.charge n) :=
  (OutsideStays.foldl (fun _ _ => outsideStays_modCtx ..) _ _).after (outsideStays_setCh ..)

theorem outsideStays_endCc (s : State) (n j : Nat) : OutsideStays s (s.endCc n j) := by
  unfold State.endCc
  dsimp only
  refine (outsideStays_modCh ..).after ((outsideStays_charge ..).after ((outsideStays_modCh ..).after ?_))
  split
  · exact outsideStays_stalls ..
  · exact OutsideStays.refl s

theorem endCc_loft (s : State) (n j : Nat) : ((s.endCc n j).ch n).loft = (s.ch n).loft := by
  simp only [State.endCc, State.modCh, State.setCh_ch_same, charge_ch, Channel.pruneTree]
  split
  · simp only [stalls_ch]
  · rfl

/-- The next cc of a channel in which one effect falls due, which leaves what falls due later: the effect takes place in a state that
the end of the cc has left. -/
theorem pass_next_one {s : State} {n : Nat} {e : Later} {rest : List Later} (ht : (s.ch n).ticking = true)
    (hc : (s.ch n).cyc + 1 < 2 ^ 64) (hd : (s.ch n).due = e :: rest) (he : e.cc = (s.ch n).cyc + 1)
    (hrest : ∀ q ∈ rest, (s.ch n).cyc + 1 < q.cc)
    (hkept : ∀ u : State, OnlyWaits s u → ((u.later n e).ch n).due = (u.ch n).due) :
    ∃ u, OutsideStays s u ∧ OnlyWaits s u ∧ (u.ch n).loft = (s.ch n).loft ∧ s.pass n ((s.ch n).cyc + 1) = u.later n e := by
  have hlate : ∀ q ∈ (s.ch n).due, (s.ch n).cyc < q.cc := by
    intro q hq
    rcases List.mem_cons.mp (hd ▸ hq) with rfl | hq
    · omega
    · exact Nat.lt_of_succ_lt (hrest q hq)
  have hout := outsideStays_endCc s n 1
  have hwaits := onlyWaits_endCc s n 1
  have hloft := endCc_loft s n 1
  rw [pass_next ht hc hlate, show settleFuel = 65535 + 1 from rfl,
    settleTo_cons ((endCc_ch s n 1).1.trans hd) (by rw [before_rank_zero, decide_eq_true_iff]; omega)]
  generalize s.endCc n 1 = v at hout hwaits hloft ⊢
  have hu : OnlyWaits s (v.modCh n fun h => { h with due := rest }) := hwaits.trans (onlyWaits_modCh _ _ _)
  refine ⟨v.modCh n fun h => { h with due := rest }, (outsideStays_modCh ..).after hout, hu, ?_, settleTo_of_later (fun q hq => ?_) _⟩
  · rw [State.modCh, State.setCh_ch_same]
    exact hloft
  · rw [hkept _ hu, State.modCh, State.setCh_ch_same] at hq
    have := hrest q hq
    rw [before_rank_zero, decide_eq_false_iff_not]
    omega

theorem defer_of_nothingDue {h : Channel} {e : Later} (hd : NothingDue h e.cc) : (h.defer [e]).due = e :: h.due := by
  change insertLater e h.due = e :: h.due
  cases hq : h.due with
  | nil => rfl
  | cons q rest =>
    have := hd q (hq ▸ List.mem_cons_self)
    rw [insertLater, if_pos (by simp [Later.before, this])]

/-- The effect of a Loft word takes place in the next cc (R306). -/
theorem pass_loftDue {p : State} {c n : Nat} {eff : Effect} (hn : (p.ctx c).chan = n) (ht : (p.ch n).ticking = true)
    (hc : (p.ch n).cyc + 1 < 2 ^ 64) (hd : NothingDue (p.ch n) ((p.ch n).cyc + 1))
    (hkept : ∀ (u : State) (e : Later), (u.ctx c).chan = n → e.what = eff → e.ctx = c → ((u.later n e).ch n).due = (u.ch n).due) :
    ∃ u, OutsideStays p u ∧ (p.ctx c).Waits (u.ctx c) ∧ (u.ch n).loft = (p.ch n).loft
      ∧ (p.loftDue c eff).pass n ((p.ch n).cyc + 1) = u.later n ⟨(p.ch n).cyc + 1, c, none, eff⟩ := by
  subst hn
  have hout : OutsideStays p (p.loftDue c eff) := ⟨rfl, rfl, rfl⟩
  have hctx := loftDue_ctx p c eff
  have hch := loftDue_ch p c eff
  generalize p.loftDue c eff = t at hout hctx hch ⊢
  have hcyc : (t.ch (p.ctx c).chan).cyc = (p.ch (p.ctx c).chan).cyc := (congrArg Channel.cyc hch :)
  obtain ⟨u, huout, huwaits, hloft, hpass⟩ := pass_next_one (s := t) (by rw [hch]; exact ht) (by rw [hcyc]; exact hc)
    ((congrArg Channel.due hch).trans (defer_of_nothingDue hd)) (by rw [hcyc]) (by rw [hcyc]; exact hd)
    (fun u hu => hkept u _ (by rw [(hu c).chan, hctx]) rfl rfl)
  refine ⟨u, huout.after hout, hctx ▸ huwaits c, hloft.trans (congrArg Channel.loft hch :), ?_⟩
  rw [← hpass, hcyc]

/-! ### Records released (R221) -/

/-- The lines that are left when some records of a context are released. -/
def releasedLines (c i n : Nat) (ls : List LoftLine) : List LoftLine :=
  (ls.map fun l => if l.owner == c && !l.stash then l.release (l.within i n) else l).filter fun l => !(l.owner == c && l.gone)

theorem mem_releasedLines {c i n : Nat} {ls : List LoftLine} {a : LoftLine} : a ∈ releasedLines c i n ls ↔
    ∃ l ∈ ls, (if l.owner == c && !l.stash then l.release (l.within i n) else l) = a ∧ (a.owner == c && a.gone) = false := by
  simp only [releasedLines, List.mem_filter, List.mem_map, Bool.not_eq_true']
  exact ⟨fun ⟨⟨l, hl, ha⟩, hg⟩ => ⟨l, hl, ha, hg⟩, fun ⟨l, hl, ha, hg⟩ => ⟨⟨l, hl, ha⟩, hg⟩⟩

/-- The bits that a test sets. -/
theorem testBit_setBits (b : Nat → Bool) (j n : Nat) :
    ((List.range n).foldl (fun m i => if b i then m ||| 2 ^ i else m) 0).testBit j = (decide (j < n) && b j) := by
  induction n with
  | zero => simp
  | succ n ih =>
    rw [List.range_succ, List.foldl_append, List.foldl_cons, List.foldl_nil]
    rcases Nat.lt_trichotomy j n with hj | rfl | hj
    · cases hb : b n <;> simp [ih, hj, Nat.lt_succ_of_lt hj, Nat.ne_of_gt hj]
    · cases hb : b j <;> simp [ih, hb]
    · cases hb : b n <;> simp [ih, Nat.not_lt.mpr hj.le, Nat.ne_of_lt hj, show ¬ j < n + 1 by omega]

theorem within_testBit (l : LoftLine) (i n : Nat) {j : Nat} (hj : j < 4) :
    (l.within i (n + 1)).testBit j = decide (i ≤ 4 * l.line + j ∧ 4 * l.line + j ≤ i + n) := by
  rw [LoftLine.within, testBit_setBits (fun j => i ≤ 4 * l.line + j && 4 * l.line + j < i + (n + 1)), decide_eq_true hj, Bool.true_and,
    ← Bool.decide_and]
  exact decide_eq_decide.mpr (by omega)

theorem within_lt (l : LoftLine) (i n : Nat) : l.within i n < 2 ^ 4 := by
  refine Nat.lt_pow_two_of_testBit _ fun j hj => ?_
  rw [LoftLine.within, testBit_setBits (fun j => i ≤ 4 * l.line + j && 4 * l.line + j < i + n), decide_eq_false (Nat.not_lt.mpr hj),
    Bool.false_and]

/-- Four bits are all set. -/
theorem eq_fifteen_iff {m : Nat} (hm : m < 2 ^ 4) : m = 15 ↔ ∀ j < 4, m.testBit j = true := by
  change m = 2 ^ 4 - 1 ↔ _
  refine ⟨fun h j hj => by rw [h, Nat.testBit_two_pow_sub_one, decide_eq_true hj], fun h => Nat.eq_of_testBit_eq fun j => ?_⟩
  rw [Nat.testBit_two_pow_sub_one]
  by_cases hj : j < 4
  · rw [h j hj, decide_eq_true hj]
  · rw [Nat.testBit_lt_two_pow (hm.trans_le (Nat.pow_le_pow_right Nat.two_pos (Nat.le_of_not_lt hj))), decide_eq_false hj]

theorem testBit_fifteen_sub : ∀ m < 16, ∀ j < 4, (15 - m).testBit j = !m.testBit j := by decide

/-- A line is freed by the release of a range: all its records are released then, and no fetch is under way. -/
theorem release_gone_iff {l : LoftLine} {i n : Nat} (hs : l.stash = false) (hr : l.released < 16) :
    (l.release (l.within i (n + 1))).gone = true ↔ l.fetching = false
      ∧ ∀ j < 4, l.released.testBit j = true ∨ decide (i ≤ 4 * l.line + j ∧ 4 * l.line + j ≤ i + n) = true := by
  have hall := eq_fifteen_iff (m := l.released ||| l.within i (n + 1)) (Nat.or_lt_two_pow (n := 4) hr (within_lt ..))
  have hbits : (∀ j < 4, (l.released ||| l.within i (n + 1)).testBit j = true)
      ↔ ∀ j < 4, l.released.testBit j = true ∨ decide (i ≤ 4 * l.line + j ∧ 4 * l.line + j ≤ i + n) = true :=
    forall₂_congr fun j hj => by rw [Nat.testBit_or, Bool.or_eq_true, within_testBit l i n hj]
  rw [← hbits, ← hall]
  simp only [LoftLine.gone, LoftLine.release, hs, Bool.not_false, Bool.true_and, Bool.and_eq_true, beq_iff_eq, Bool.not_eq_true']
  exact and_comm

/-- The lines of other contexts, and stash lines, stay. -/
theorem mem_releasedLines_of_other {c i n : Nat} {ls : List LoftLine} {l : LoftLine} (hl : l ∈ ls)
    (ho : l.owner ≠ c ∨ l.stash = true) :
    l ∈ releasedLines c i n ls := by
  refine mem_releasedLines.mpr ⟨l, hl, ?_, ?_⟩
  · rcases ho with ho | ho <;> simp [ho]
  · rcases ho with ho | ho <;> simp [ho, LoftLine.gone]

/-- What is left of a line of the context that is not freed stays. -/
theorem release_mem_releasedLines {c i n : Nat} {ls : List LoftLine} {l : LoftLine} (hl : l ∈ ls) (ho : l.owner = c)
    (hs : l.stash = false) (hg : (l.release (l.within i n)).gone = false) : l.release (l.within i n) ∈ releasedLines c i n ls :=
  mem_releasedLines.mpr ⟨l, hl, if_pos (by simp [ho, hs]), by rw [hg, Bool.and_false]⟩

/-- Each line that is left is one that stood there and is not freed. -/
theorem of_mem_releasedLines {c i n : Nat} {ls : List LoftLine} {a : LoftLine} (ha : a ∈ releasedLines c i n ls) :
    ∃ l ∈ ls, { a with released := l.released, valid := l.valid, dirty := l.dirty, writing := l.writing } = l
      ∧ (l.owner = c → l.stash = false → (l.release (l.within i n)).gone = false) := by
  obtain ⟨l, hl, rfl, hg⟩ := mem_releasedLines.mp ha
  refine ⟨l, hl, ?_, fun ho hs => ?_⟩
  · split <;> rfl
  · rw [if_pos (by simp [ho, hs])] at hg
    exact (Bool.and_eq_false_iff.mp hg).resolve_left (by simpa [LoftLine.release] using ho)

/-- What is left of a line has the release bits of the range and holds none of its records. -/
theorem release_bits (l : LoftLine) (i n : Nat) {j : Nat} (hj : j < 4) :
    (l.release (l.within i (n + 1))).released.testBit j
        = (l.released.testBit j || decide (i ≤ 4 * l.line + j ∧ 4 * l.line + j ≤ i + n))
      ∧ (l.release (l.within i (n + 1))).valid.testBit j
          = (l.valid.testBit j && !decide (i ≤ 4 * l.line + j ∧ 4 * l.line + j ≤ i + n)) := by
  simp only [LoftLine.release, Nat.testBit_or, Nat.testBit_and, testBit_fifteen_sub _ (within_lt l i (n + 1)) j hj, within_testBit l i n hj,
    and_self]

theorem release_loft (h : Channel) (c i n : Nat) : (h.release c i n).loft = releasedLines c i n h.loft := rfl

theorem pass_release {p : State} {c n i k : Nat} (hn : (p.ctx c).chan = n) (ht : (p.ch n).ticking = true)
    (hc : (p.ch n).cyc + 1 < 2 ^ 64) (hd : NothingDue (p.ch n) ((p.ch n).cyc + 1)) :
    (((p.loftDue c (.release i k)).pass n ((p.ch n).cyc + 1)).ch n).loft = releasedLines c i k (p.ch n).loft := by
  have hlater : ∀ (u : State) (cc : Nat), (u.later n ⟨cc, c, none, .release i k⟩).ch n = (u.ch n).release c i k :=
    fun _ _ => State.setCh_ch_same ..
  obtain ⟨u, -, -, hloft, hpass⟩ := pass_loftDue (eff := .release i k) hn ht hc hd (by
    rintro u ⟨cc, _, run, _⟩ - rfl rfl
    exact (congrArg Channel.due (State.setCh_ch_same ..) :))
  rw [hpass, hlater, release_loft, hloft]

/-! ### Home writes asked for (R305) -/

/-- The lines of a context for which an LFLUSH asks for a home write. -/
def State.flushed (s : State) (c n i k : Nat) : List LoftLine :=
  (s.ch n).loft.filter fun l => l.owner == c && !l.stash && l.dirty && !s.asked n l && decide (4 * l.line < i + k ∧ i < 4 * l.line + 4)

theorem map_homeWrite_flushed (s : State) (x : Ctx) (c n i k : Nat) : (s.flushed c n i k).map (x.homeWrite c)
    = (s.flushed c n i k).map fun l =>
      ⟨.home x.chan, c, l.line, x.ten, x.stashwin, x.stashbase * 64 + 64 * l.line, 64, true, 0, 0⟩ := by
  refine List.map_congr_left fun l hl => ?_
  have hs : l.stash = false := by simp_all [State.flushed]
  rw [Ctx.homeWrite, if_neg (by rw [hs]; decide), Ctx.home]

theorem flush_homesQueued {s : State} {c n : Nat} (hn : (s.ctx c).chan = n) (i k : Nat) :
    HomesQueued n ((s.flushed c n i k).map ((s.ctx c).homeWrite c)) s (s.flush c i k) :=
  hn ▸ foldl_queueHome_homesQueued c _ s

theorem flushed_congr {p u : State} {n : Nat} (hs : u.slices = p.slices) (hl : (u.ch n).loft = (p.ch n).loft) (c i k : Nat) :
    u.flushed c n i k = p.flushed c n i k := by
  have hask : ∀ l, u.asked n l = p.asked n l := fun l => by simp only [State.asked, State.slice, hs]
  simp only [State.flushed, hl, hask]

theorem Ctx.Waits.homeWrite {x y : Ctx} (h : x.Waits y) (c : Nat) : y.homeWrite c = x.homeWrite c :=
  (congrArg (fun z : Ctx => z.homeWrite c) h.eq :)

theorem HomesQueued.tenants_master {n : Nat} {as : List FeltAcc} {s t : State} (h : HomesQueued n as s t) :
    t.tenants = s.tenants ∧ t.master = s.master :=
  ⟨(congrArg State.tenants h.others :), (congrArg State.master h.others :)⟩

theorem pass_flush {p : State} {c n i k : Nat} (hn : (p.ctx c).chan = n) (ht : (p.ch n).ticking = true)
    (hc : (p.ch n).cyc + 1 < 2 ^ 64) (hd : NothingDue (p.ch n) ((p.ch n).cyc + 1)) :
    let u := (p.loftDue c (.flush i k)).pass n ((p.ch n).cyc + 1)
    (u.slice n).wait = (p.slice n).wait ++ (p.flushed c n i k).map ((p.ctx c).homeWrite c)
      ∧ (u.ch n).loft.map (fun l => { l with writing := false }) = (p.ch n).loft.map (fun l => { l with writing := false })
      ∧ u.tenants = p.tenants ∧ u.master = p.master := by
  obtain ⟨u, ⟨hslices, htenants, hmaster⟩, hwaits, hloft, hpass⟩ := pass_loftDue (eff := .flush i k) hn ht hc hd (by
    rintro u ⟨cc, _, run, _⟩ hu rfl rfl
    exact (congrArg Channel.due (flush_homesQueued hu i k).chan :))
  have hq := flush_homesQueued (hwaits.chan.trans hn) i k
  rw [flushed_congr hslices hloft, hwaits.homeWrite] at hq
  intro v
  have hv : v = u.flush c i k := hpass
  rw [hv]
  refine ⟨?_, hq.lines.trans (by rw [hloft]), hq.tenants_master.1.trans htenants, hq.tenants_master.2.trans hmaster⟩
  rw [hq.wait, State.slice, hslices]
  rfl

end Sys2Proof.Machine

namespace Sys2Proof
open Sys2Proof.Machine Sys2Proof.Safety

/-- Settles O38, by the two ends of a Loft word and the cc after it. -/
theorem loftWordsReleaseAndFlush : Obligations.LoftWordsReleaseAndFlush := by
  intro s c m i n hacts p x h
  refine ⟨fun k opcode hk hout => ?_, fun hin => ⟨?_, ?_⟩⟩
  · obtain ⟨eff, hk⟩ : ∃ eff, LoftCommand c m i n k opcode eff := by
      rcases hk with ⟨hk, ho⟩ | ⟨hk, ho⟩
      · exact ⟨_, .inl ⟨hk, ho, rfl⟩⟩
      · exact ⟨_, .inr ⟨hk, ho, rfl⟩⟩
    exact exec_loft_outside hacts hk hout
  · refine ⟨_, exec_loft_inside hacts (.inl ⟨rfl, rfl, rfl⟩) hin, loftDue_frame .., loftDue_ctx .., loftDue_onlyCtxCh ..,
      fun ht hc hd => ?_⟩
    intro bit gone ls
    have hls : ls = releasedLines c.val i.toNat (n.toNat + 1) h.loft := pass_release rfl ht hc hd
    rw [hls]
    refine ⟨fun l hl => mem_releasedLines_of_other hl, fun l hl ho hs hr hstays => ?_, fun l hl => ?_⟩
    · have hgone : (l.release (l.within i.toNat (n.toNat + 1))).gone = false :=
        Bool.eq_false_iff.mpr fun hg => hstays ⟨ho, hs, ((release_gone_iff hs hr).mp hg).1, hr, ((release_gone_iff hs hr).mp hg).2⟩
      exact ⟨_, _, _, _, release_mem_releasedLines hl ho hs hgone, fun j hj => release_bits l i.toNat n.toNat hj, by simp, by simp⟩
    · obtain ⟨l', hl', heq, hstays⟩ := of_mem_releasedLines hl
      refine ⟨l', hl', heq, fun ⟨ho, hs, hf, hr, hbits⟩ => ?_⟩
      exact absurd ((release_gone_iff hs hr).mpr ⟨hf, hbits⟩) (by rw [hstays ho hs]; exact Bool.false_ne_true)
  · refine ⟨_, exec_loft_inside hacts (.inr ⟨rfl, rfl, rfl⟩) hin, loftDue_frame .., loftDue_ctx .., loftDue_onlyCtxCh ..,
      fun ht hc hd => ?_⟩
    obtain ⟨hwait, hlines, hkept⟩ := pass_flush (i := i.toNat) (k := n.toNat + 1) rfl ht hc hd
    exact ⟨hwait.trans (by rw [map_homeWrite_flushed]; rfl), hlines, hkept⟩

end Sys2Proof
end

section
/-! SUPPORT. What passing time never does: by what falls due on a channel no context begins to drain (R258, R261). -/
namespace Sys2Proof.Machine
open Sys2Proof.Safety

/-- Every context that drains drained before. -/
structure NoDrainBegins (s t : State) : Prop where
  before : ∀ d, (t.ctx d).st = .draining → (s.ctx d).st = .draining

theorem NoDrainBegins.refl (s : State) : NoDrainBegins s s := ⟨fun _ h => h⟩

/-- The last of two operations first, so that it says what the first one is. -/
theorem NoDrainBegins.after {s t u : State} (k : NoDrainBegins t u) (h : NoDrainBegins s t) : NoDrainBegins s u :=
  ⟨fun d hd => h.before d (k.before d hd)⟩

theorem NoDrainBegins.ite {p : Prop} [Decidable p] {s a b : State} (ha : NoDrainBegins s a) (hb : NoDrainBegins s b) :
    NoDrainBegins s (if p then a else b) := by
  split
  · exact ha
  · exact hb

theorem NoDrainBegins.foldl {α : Type} {f : State → α → State} (hf : ∀ s a, NoDrainBegins s (f s a)) (l : List α) (s : State) :
    NoDrainBegins s (l.foldl f s) :=
  foldl_keeps (P := NoDrainBegins s) (fun t a h => (hf t a).after h) l s (NoDrainBegins.refl s)

theorem NoDrainBegins.setCtx {s : State} {c : Nat} {x : Ctx} (hx : x.st = .draining → (s.ctx c).st = .draining) :
    NoDrainBegins s (s.setCtx c x) := by
  refine ⟨fun d hd => ?_⟩
  by_cases h : d = c
  · subst h
    exact hx (by rwa [State.setCtx_ctx_same] at hd)
  · rwa [State.setCtx_ctx_other _ _ _ _ h] at hd

theorem NoDrainBegins.modCtx {s : State} {c : Nat} {f : Ctx → Ctx} (hf : ∀ x, (f x).st = x.st) : NoDrainBegins s (s.modCtx c f) :=
  NoDrainBegins.setCtx (fun h => (hf _).symm.trans h)

theorem NoDrainBegins.setCh {s : State} {n : Nat} {h : Channel} : NoDrainBegins s (s.setCh n h) := ⟨fun _ hd => hd⟩

theorem NoDrainBegins.modCh {s : State} {n : Nat} {f : Channel → Channel} : NoDrainBegins s (s.modCh n f) := ⟨fun _ hd => hd⟩

theorem OnlyMarks.noDrainBegins {s t : State} (h : OnlyMarks s t) : NoDrainBegins s t := ⟨fun d hd => (h.same d).st.symm.trans hd⟩

theorem OnlyWaits.noDrainBegins {s t : State} (h : OnlyWaits s t) : NoDrainBegins s t :=
  ⟨fun d hd => (congrArg Ctx.st (h d).eq.symm :).trans hd⟩

section
variable {s : State}

/-! ### Flags, faults and slots -/

theorem noDrainBegins_raise (c : Nat) (f : Flags) : NoDrainBegins s (s.raise c f) := .after .modCh (.modCtx fun _ => rfl)

theorem noDrainBegins_offend (c p : Nat) (os : List Off) : NoDrainBegins s (s.offend c p os) := by
  unfold State.offend
  dsimp only
  split
  · exact .after (.modCtx fun _ => rfl) (noDrainBegins_raise ..)
  · exact noDrainBegins_raise ..

theorem noDrainBegins_abandon (c : Nat) : NoDrainBegins s (s.abandon c) :=
  (onlyMarks_cancelAll _ c).noDrainBegins.after
    (.after (.modCtx fun x => (settleRestarts_same { x.emptyFilling with runs := [] }).st) .modCh)

theorem noDrainBegins_settleSlots (c : Nat) : NoDrainBegins s (s.settleSlots c) :=
  .ite (.refl s) (.modCtx fun x => (settleChanges_same x x.newSlots).st)

theorem noDrainBegins_tev (t b : Nat) : NoDrainBegins s (s.tev t b) := ⟨fun _ hd => hd⟩

theorem noDrainBegins_fault (c code : Nat) (iflt : BitVec 64) : NoDrainBegins s (s.fault c code iflt) := by
  unfold State.fault
  extract_lets x enters cc u v
  have hu : NoDrainBegins s u := .ite (.refl s) ((noDrainBegins_settleSlots c).after (noDrainBegins_abandon c))
  have hv : NoDrainBegins u v := NoDrainBegins.setCtx fun h => by
    dsimp only at h
    split at h
    · cases h
    · exact h
  exact .ite (.refl s) (.ite ((noDrainBegins_tev ..).after (hv.after hu)) (hv.after hu))

theorem noDrainBegins_ifault (c : Nat) (o : Bool) (src word opcode flsb : Nat) : NoDrainBegins s (s.ifault c o src word opcode flsb) :=
  noDrainBegins_fault ..
theorem noDrainBegins_operand (c : Nat) (r : Run) (word flsb : Nat) : NoDrainBegins s (s.operand c r word flsb) := noDrainBegins_ifault ..
theorem noDrainBegins_siteFault (c : Nat) (t : Site) (w : IWord) (flsb : Nat) : NoDrainBegins s (s.siteFault c t w flsb) :=
  noDrainBegins_ifault ..

theorem noDrainBegins_settleState (c : Nat) : NoDrainBegins s (s.settleState c) :=
  .ite (.setCtx fun h => by cases h) (.refl s)

theorem noDrainBegins_modRun (c ser : Nat) (f : Run → Run) : NoDrainBegins s (s.modRun c ser f) := .modCtx fun _ => rfl

theorem noDrainBegins_releaseGroups (c cc : Nat) : NoDrainBegins s (s.releaseGroups c cc) := .ite (.refl s) .modCh

theorem noDrainBegins_present (c : Nat) (run : Option Nat) (bs : List ReelBeat) : NoDrainBegins s (s.present c run bs) :=
  .ite (.refl s) .modCh

theorem HomesQueued.noDrainBegins {n : Nat} {as : List FeltAcc} {s t : State} (h : HomesQueued n as s t) : NoDrainBegins s t :=
  ⟨fun d hd => by rwa [h.ctx d] at hd⟩

/-! ### Ream and Loft words -/

theorem noDrainBegins_actRclr (c : Nat) (t : Site) (w : IWord) : NoDrainBegins s (s.actRclr c t w) := by
  unfold State.actRclr
  dsimp only
  split
  · exact .ite (noDrainBegins_siteFault ..) .setCh
  · exact noDrainBegins_siteFault ..

theorem noDrainBegins_actRexp (c : Nat) (t : Site) (w : IWord) : NoDrainBegins s (s.actRexp c t w) := by
  unfold State.actRexp
  dsimp only
  split
  · exact noDrainBegins_siteFault ..
  · exact .ite (noDrainBegins_siteFault ..) (noDrainBegins_present ..)

theorem noDrainBegins_actRclose (c : Nat) (t : Site) (w : IWord) : NoDrainBegins s (s.actRclose c t w) := by
  unfold State.actRclose
  dsimp only
  split
  · exact noDrainBegins_siteFault ..
  · refine .ite (noDrainBegins_siteFault ..) (.ite (noDrainBegins_siteFault ..) (.ite ?_ ?_))
    · exact .after .modCh (.after (.modCtx fun _ => rfl) .modCh)
    · exact (noDrainBegins_present ..).after .modCh

theorem noDrainBegins_act (c : Nat) (t : Site) (w : IWord) : NoDrainBegins s (s.act c t w) := by
  unfold State.act
  split
  · exact noDrainBegins_actRclr ..
  · exact noDrainBegins_actRexp ..
  · exact noDrainBegins_actRclose ..
  · exact .ite (noDrainBegins_siteFault ..) .modCh
  · exact .ite (noDrainBegins_siteFault ..) .modCh
  · exact .refl s

theorem noDrainBegins_actWords (c : Nat) (r : Run) (l : List Nat) : ∀ s : State, NoDrainBegins s (s.actWords c r l).1 := by
  induction l with
  | nil => exact fun s => .refl s
  | cons i is ih =>
    intro s
    unfold State.actWords
    dsimp only
    split
    · exact .refl s
    · split
      · exact .refl s
      · exact (ih _).after (noDrainBegins_act ..)

/-! ### Work that goes on -/

theorem noDrainBegins_markDone (c ser : Nat) : NoDrainBegins s (s.markDone c ser) := by
  unfold State.markDone
  dsimp only
  split
  · exact .ite .modCh (.refl s)
  · exact .refl s

theorem noDrainBegins_settleAfter (c : Nat) : NoDrainBegins s (s.settleAfter c) :=
  .foldl (fun s r => (noDrainBegins_markDone ..).after ((noDrainBegins_modRun ..).after (noDrainBegins_actWords c r r.after s))) _ _

theorem noDrainBegins_recallRuns (c : Nat) : NoDrainBegins s (s.recallRuns c) := .modCtx fun _ => rfl

theorem noDrainBegins_fixCounts (c : Nat) : NoDrainBegins s (s.fixCounts c) := by
  refine (noDrainBegins_recallRuns c).after (.after (.foldl (fun s q => ?_) _ _) (.modCtx fun x => (settleRestarts_same x).st))
  dsimp only
  split
  · exact .refl s
  · refine .ite ?_ (.refl s)
    split
    · exact (noDrainBegins_operand ..).after (noDrainBegins_modRun ..)
    · exact noDrainBegins_modRun ..

theorem noDrainBegins_settleDirects (c fuel : Nat) : ∀ s : State, NoDrainBegins s (s.settleDirects c fuel) := by
  induction fuel with
  | zero => exact fun s => .refl s
  | succ n ih =>
    intro s
    unfold State.settleDirects
    dsimp only
    split
    · exact .refl s
    · exact .ite ((ih _).after ((noDrainBegins_act ..).after (.modCtx fun _ => rfl))) (.refl s)

theorem noDrainBegins_settle (c : Nat) : NoDrainBegins s (s.settle c) := by
  unfold State.settle
  exact (noDrainBegins_settleState c).after ((noDrainBegins_settleDirects ..).after ((noDrainBegins_fixCounts c).after
    ((noDrainBegins_settleSlots c).after ((noDrainBegins_settleAfter c).after (noDrainBegins_recallRuns c)))))

theorem noDrainBegins_reelEnds (c ser cc : Nat) : NoDrainBegins s (s.reelEnds c ser cc) := by
  unfold State.reelEnds
  dsimp only
  split
  · exact .ite ((noDrainBegins_releaseGroups ..).after (noDrainBegins_modRun ..)) (.refl s)
  · exact .refl s

/-! ### A tile -/

theorem noDrainBegins_feed (n c : Nat) (r : Run) (els : List HElem) : NoDrainBegins s (s.feed n c r els) := by
  unfold State.feed
  dsimp only
  split
  · exact (noDrainBegins_offend ..).after .setCh
  · exact noDrainBegins_operand ..

theorem noDrainBegins_imports (n c : Nat) (r : Run) (b : CouchBeat) (first : Nat) : NoDrainBegins s (s.imports n c r b first) := by
  unfold State.imports
  split
  · exact .refl s
  · split
    · exact .setCh
    · exact noDrainBegins_operand ..

theorem noDrainBegins_endTile (n c ser : Nat) : NoDrainBegins s (s.endTile n c ser) := by
  unfold State.endTile
  extract_lets x h
  split
  · exact .refl s
  · extract_lets r rel h1 turn u v
    exact (noDrainBegins_markDone ..).after ((noDrainBegins_fixCounts c).after (.after (.modCtx fun _ => rfl) .setCh))

theorem noDrainBegins_tileCheck (n c ser pseq : Nat) : NoDrainBegins s (s.tileCheck n c ser pseq) := by
  unfold State.tileCheck
  split
  · exact .ite (noDrainBegins_endTile ..) ((noDrainBegins_fault ..).after (noDrainBegins_raise ..))
  · exact .refl s

theorem noDrainBegins_commitShadows (n c ser : Nat) (p : Nat → Bool) : NoDrainBegins s (s.commitShadows n c ser p) :=
  (noDrainBegins_raise ..).after .setCh

theorem commitReads_st (x : Ctx) (r : Run) : (x.commitReads r).st = x.st :=
  foldl_keeps (P := fun y : Ctx => y.st = x.st) (fun y t h => by
    split
    · exact h
    · exact h) r.takes x rfl

theorem noDrainBegins_readsEnd (n c ser : Nat) : NoDrainBegins s (s.readsEnd n c ser) := by
  unfold State.readsEnd
  split
  · exact .ite (.modCtx fun x => commitReads_st x _) (.refl s)
  · exact .refl s

theorem openStat_st (x : Ctx) (ser sl k : Nat) : (x.openStat ser sl k).st = x.st := by
  unfold Ctx.openStat
  split
  · rfl
  · rfl

theorem noDrainBegins_closed (n c : Nat) (r : Run) (k : Closes) : NoDrainBegins s (s.closed n c r k) := by
  unfold State.closed
  dsimp only
  refine .after .modCh (.modCtx fun x => ?_)
  exact foldl_keeps (P := fun y : Ctx => y.st = x.st) (fun y e h => (openStat_st ..).trans h) (r.statEntries k.cs) x rfl

theorem noDrainBegins_addLoss (n c p v row pseq : Nat) (iflt : BitVec 64) : NoDrainBegins s (s.addLoss n c p v row pseq iflt) := by
  unfold State.addLoss
  dsimp only
  exact .ite (noDrainBegins_fault ..) ((noDrainBegins_offend ..).after .modCh)

theorem noDrainBegins_sampleClose (n c : Nat) (r : Run) (k : Closing) : NoDrainBegins s (s.sampleClose n c r k) := by
  unfold State.sampleClose
  dsimp only
  exact .after (.modCtx fun _ => rfl) .modCh

theorem noDrainBegins_commitSample (n c : Nat) (r : Run) (k : Closing) : NoDrainBegins s (s.commitSample n c r k) := by
  unfold State.commitSample
  extract_lets w u
  have hu : NoDrainBegins s u := .modCh
  exact .ite ((noDrainBegins_sampleClose ..).after hu) hu

theorem noDrainBegins_closeUnit (n c ser : Nat) (k : Closing) : NoDrainBegins s (s.closeUnit n c ser k) := by
  unfold State.closeUnit
  split
  · exact .refl s
  · exact .ite (noDrainBegins_commitSample ..)
      ((noDrainBegins_settle c).after ((noDrainBegins_closed ..).after (noDrainBegins_commitShadows ..)))

theorem noDrainBegins_turn (n c ser q : Nat) : NoDrainBegins s (s.turn n c ser q) := by
  unfold State.turn
  split
  · exact .refl s
  · exact .ite (noDrainBegins_operand ..) (.foldl (fun s row => (noDrainBegins_offend ..).after .setCh) _ _)

theorem noDrainBegins_turnClose (n c ser q : Nat) : NoDrainBegins s (s.turnClose n c ser q) := by
  unfold State.turnClose
  split
  · exact .refl s
  · exact (noDrainBegins_closed ..).after .setCh

theorem noDrainBegins_reserve (n c ser j : Nat) : NoDrainBegins s (s.reserve n c ser j) := by
  unfold State.reserve
  split
  · exact .refl s
  · split
    · exact .refl s
    · refine .ite ?_ ?_
      · unfold State.putOff
        exact .modCh
      · exact .after (.modCtx fun _ => rfl) (.after .modCh (.after .modCh .setCh))

theorem noDrainBegins_carryLeaves (n c : Nat) (r : Run) (held rows : Nat) (ccs : List Nat) :
    NoDrainBegins s (s.carryLeaves n c r held rows ccs) := by
  unfold State.carryLeaves
  dsimp only
  exact .after (.modCtx fun _ => rfl) ((noDrainBegins_present ..).after .modCh)

theorem noDrainBegins_emitHeld (n c ser j : Nat) : NoDrainBegins s (s.emitHeld n c ser j) := by
  unfold State.emitHeld
  split
  · exact .refl s
  · split
    · exact .refl s
    · dsimp only
      refine (noDrainBegins_reelEnds ..).after ((noDrainBegins_markDone ..).after ((noDrainBegins_readsEnd ..).after ?_))
      generalize hs : State.present _ c (some ser) _ = u
      have hu : NoDrainBegins s u := by
        rw [← hs]
        exact (noDrainBegins_present ..).after (.after (.modCtx fun _ => rfl) .modCh)
      split
      · exact (noDrainBegins_carryLeaves ..).after hu
      · exact hu

theorem commitLanding_st (x : Ctx) (r : Run) : (x.commitLanding r).st = x.st := by
  unfold Ctx.commitLanding
  split
  · rfl
  · split
    · rfl
    · rfl

theorem noDrainBegins_commit (n c ser : Nat) : NoDrainBegins s (s.commit n c ser) := by
  unfold State.commit
  split
  · exact .refl s
  · rename_i r _
    split
    · exact .refl s
    · extract_lets u v w z
      have hu : NoDrainBegins s u := noDrainBegins_commitShadows ..
      have hv : NoDrainBegins u v := .ite (noDrainBegins_closed ..) (.refl u)
      have hw : NoDrainBegins v w := .modCtx fun x => commitLanding_st x r
      have hz : NoDrainBegins w z := .ite (noDrainBegins_carryLeaves ..) (.refl w)
      exact (noDrainBegins_reelEnds ..).after ((noDrainBegins_settle c).after ((noDrainBegins_markDone ..).after
        ((noDrainBegins_readsEnd ..).after (hz.after (hw.after (hv.after hu))))))

/-! ### Time -/

theorem putStat_st (x : Ctx) (sl k v : Nat) : (x.putStat sl k v).st = x.st := by
  unfold Ctx.putStat
  split
  · rfl
  · rfl

theorem noDrainBegins_later (n : Nat) (e : Later) : NoDrainBegins s (s.later n e) := by
  unfold State.later
  dsimp only
  split
  · exact noDrainBegins_offend ..
  · exact noDrainBegins_fault ..
  · exact noDrainBegins_tileCheck ..
  · split
    · exact noDrainBegins_feed ..
    · exact .refl s
  · split
    · exact noDrainBegins_imports ..
    · exact .refl s
  · exact noDrainBegins_commit ..
  · exact noDrainBegins_closeUnit ..
  · exact noDrainBegins_reserve ..
  · exact noDrainBegins_emitHeld ..
  · exact noDrainBegins_turn ..
  · exact noDrainBegins_turnClose ..
  · exact .modCtx fun x => putStat_st x ..
  · exact noDrainBegins_addLoss ..
  · exact (noDrainBegins_settle _).after (.modCtx fun _ => rfl)
  · exact .modCh
  · exact (foldl_queueHome_homesQueued _ _ s).noDrainBegins
  · exact (noDrainBegins_settle _).after .modCh
  · exact (noDrainBegins_reelEnds ..).after (noDrainBegins_settle _)

theorem noDrainBegins_settleTo (n cc rank fuel : Nat) : ∀ s : State, NoDrainBegins s (s.settleTo n cc rank fuel) := by
  induction fuel with
  | zero => exact fun s => .refl s
  | succ k ih =>
    intro s
    unfold State.settleTo
    split
    · exact .refl s
    · exact .ite ((ih _).after ((noDrainBegins_later ..).after .modCh)) (.refl s)

theorem noDrainBegins_passFor (n cc rank fuel : Nat) : ∀ s : State, NoDrainBegins s (s.passFor n cc rank fuel) := by
  induction fuel with
  | zero => exact fun s => .refl s
  | succ k ih =>
    intro s
    unfold State.passFor
    split
    · exact .refl s
    · extract_lets t u
      have hu : NoDrainBegins s u := (onlyWaits_endCc _ _ _).noDrainBegins
      exact (ih _).after (.ite ((noDrainBegins_settleTo ..).after hu) ((noDrainBegins_settleTo ..).after hu))

theorem noDrainBegins_pass (n cc : Nat) : NoDrainBegins s (s.pass n cc) :=
  .ite ((noDrainBegins_settleTo ..).after (noDrainBegins_passFor ..)) (.refl s)

theorem noDrainBegins_directsEnd (n c : Nat) : NoDrainBegins s (s.directsEnd n c) :=
  .ite (noDrainBegins_pass ..) (.after (.foldl (fun _ _ => noDrainBegins_later ..) _ _) .modCh)

end

end Sys2Proof.Machine
end

section
/-! SUPPORT. The write-back of a context's lines (R226), and MIGRATE by its two ends (R264). -/
namespace Sys2Proof.Machine
open Sys2Proof.Safety

/-! ### The lines that a channel writes home -/

/-- A dirty line of a context that does not drain is among those that its channel writes home. -/
theorem mem_linesHome {s : State} {n c : Nat} {l : LoftLine} (hst : (s.ctx c).st ≠ .draining) (hl : l ∈ (s.ch n).loft)
    (ho : l.owner = c) (hd : l.dirty = true) :
    ∃ k ∈ s.linesHome n c, { k with fetching := l.fetching } = l ∧ (l.fetching = false → k.fetching = false) := by
  refine ⟨{ l with fetching := l.fetching && s.issued fun a => a.ctx == c && a.line == l.line && a.kind == .fetch n }, ?_, rfl,
    fun hf => by simp [hf]⟩
  rw [State.linesHome, if_neg (by simp [hst])]
  exact List.mem_map.mpr ⟨l, List.mem_filter.mpr ⟨hl, by simp [ho, hd]⟩, rfl⟩

theorem foldl_queueFelt_wait (n : Nat) (f : LoftLine → FeltAcc) (ls : List LoftLine) : ∀ s : State,
    ((ls.foldl (fun s l => s.queueFelt n (f l)) s).slice n).wait = (s.slice n).wait ++ ls.map f := by
  induction ls with
  | nil => exact fun s => (List.append_nil _).symm
  | cons l ls ih =>
    intro s
    rw [List.foldl_cons, ih, queueFelt_wait, List.map_cons, List.append_assoc, List.singleton_append]

/-- Nothing of the contexts and of the channels differs. -/
def OnlyOutside (s t : State) : Prop := t.ctxs = s.ctxs ∧ t.chans = s.chans

theorem OnlyOutside.after {s t u : State} (k : OnlyOutside t u) (h : OnlyOutside s t) : OnlyOutside s u :=
  ⟨k.1.trans h.1, k.2.trans h.2⟩

theorem OnlyOutside.foldl {α : Type} {f : State → α → State} (hf : ∀ s a, OnlyOutside s (f s a)) (l : List α) (s : State) :
    OnlyOutside s (l.foldl f s) :=
  foldl_keeps (P := OnlyOutside s) (fun t a h => (hf t a).after h) l s ⟨rfl, rfl⟩

theorem OnlyOutside.ctx {s t : State} (h : OnlyOutside s t) (c : Nat) : t.ctx c = s.ctx c := by rw [State.ctx, h.1]; rfl

theorem OnlyOutside.ch {s t : State} (h : OnlyOutside s t) (n : Nat) : t.ch n = s.ch n := by rw [State.ch, h.2]; rfl

theorem onlyOutside_modSlice (s : State) (n : Nat) (f : Slice → Slice) : OnlyOutside s (s.modSlice n f) := ⟨rfl, rfl⟩

/-- The home write of a line that a context leaves behind on a channel. -/
def Ctx.leftWrite (x : Ctx) (n c : Nat) (l : LoftLine) : FeltAcc :=
  ⟨.homeWb n, c, l.line, x.ten, x.stashwin, x.home l.line, 64, true, 0, 0⟩

/-- The accesses of a context that are not issued leave the slices. -/
def State.withoutWaits (s : State) (c : Nat) : State :=
  (List.range 8).foldl (fun s m => s.modSlice m fun q => { q with wait := q.wait.filter fun a => !a.ownedBy c }) s

theorem onlyOutside_withoutWaits (s : State) (c : Nat) : OnlyOutside s (s.withoutWaits c) :=
  .foldl (fun _ _ => onlyOutside_modSlice ..) _ s

/-- A channel gives up the lines of a context, and keeps some of them for their write-back. -/
def Channel.giveLines (h : Channel) (c : Nat) (mine : List LoftLine) : Channel :=
  { h with loft := h.loft.filter fun l => l.owner != c, wb := h.wb ++ mine }

theorem writeBack_eq (s : State) (n c : Nat) : s.writeBack n c =
    let mine := (s.withoutWaits c).linesHome n c
    (mine.filter fun l => l.dirty && !l.fetching).foldl (fun t l => t.queueFelt n ((s.ctx c).leftWrite n c l))
      (mine.foldl (fun t l => t.adoptHome n l) ((s.withoutWaits c).modCh n fun h => h.giveLines c mine)) := rfl

/-- The write-back leaves the contexts and the other channels, gives up the context's lines, and writes home, of those that it keeps
for that, each dirty one with no fetch outstanding. -/
theorem writeBack_spec (s : State) (n c : Nat) : let mine := (s.withoutWaits c).linesHome n c
    (∀ d, (s.writeBack n c).ctx d = s.ctx d) ∧ (∀ k, k ≠ n → (s.writeBack n c).ch k = s.ch k)
    ∧ (s.writeBack n c).ch n = (s.ch n).giveLines c mine
    ∧ ∀ l ∈ mine, l.dirty = true → l.fetching = false → (s.ctx c).leftWrite n c l ∈ ((s.writeBack n c).slice n).wait := by
  intro mine
  have hu := onlyOutside_withoutWaits s c
  have hw := OnlyOutside.foldl (f := fun t l => t.adoptHome n l) (fun t l => .foldl (fun _ _ => onlyOutside_modSlice ..) _ t) mine
    ((s.withoutWaits c).modCh n fun h => h.giveLines c mine)
  rw [writeBack_eq]
  dsimp only
  generalize mine.foldl (fun t l => t.adoptHome n l) ((s.withoutWaits c).modCh n fun h => h.giveLines c mine) = w at hw ⊢
  have hz := OnlyOutside.foldl (f := fun t l => t.queueFelt n ((s.ctx c).leftWrite n c l)) (fun _ _ => onlyOutside_modSlice ..)
    (mine.filter fun l => l.dirty && !l.fetching) w
  have hwait := foldl_queueFelt_wait n ((s.ctx c).leftWrite n c) (mine.filter fun l => l.dirty && !l.fetching) w
  generalize (mine.filter fun l => l.dirty && !l.fetching).foldl (fun t l => t.queueFelt n ((s.ctx c).leftWrite n c l)) w = z
    at hz hwait ⊢
  refine ⟨fun d => ?_, fun k hk => ?_, ?_, fun l hl hd hf => ?_⟩
  · rw [hz.ctx, hw.ctx, State.modCh, State.setCh_ctx, hu.ctx]
  · rw [hz.ch, hw.ch, State.modCh, State.setCh_ch_other _ _ _ _ hk, hu.ch]
  · rw [hz.ch, hw.ch, State.modCh, State.setCh_ch_same, hu.ch]
  · rw [hwait]
    exact List.mem_append_right _ (List.mem_map.mpr ⟨l, List.mem_filter.mpr ⟨hl, by simp [hd, hf]⟩, rfl⟩)

/-! ### What a channel gives back -/

theorem give_gone (h : Channel) (c : Nat) : (h.give c).record c = none ∧ ∀ l ∈ (h.give c).loft, l.owner ≠ c := by
  refine ⟨List.find?_eq_none.mpr fun a ha => ?_, fun l hl => ?_⟩
  · simpa using (List.mem_filter.mp ha).2
  · simpa using (List.mem_filter.mp hl).2

theorem give_wb (h : Channel) (c : Nat) : (h.give c).wb = h.wb := by
  unfold Channel.give
  cases h.record c with
  | none => rfl
  | some a => exact (congrArg Channel.wb (unsetBlock_frame h a.ream a.reams h.reams) :)

/-! ### MIGRATE -/

/-- A context that has moved to a channel, where it has a ream block from a base and slots. -/
def Ctx.moved (x : Ctx) (target base : Nat) (slots : List SlotSt) : Ctx :=
  { x.sealCap.clearWork with
    chan := target, binderr := 0, reambase := base, algrant := x.alreq, budForce := x.budget, balance := satBal x.budget, slots := slots }

/-- The state in which a context has moved. -/
def State.moved (p : State) (c target base : Nat) : State :=
  let x := p.ctx c
  let t := ((p.writeBack x.chan c).modCh x.chan fun h => h.give c).modCh target fun h => h.take c x.vatreq base (4 * x.reamreq) x.alreq
  t.setCtx c (x.moved target base (freshSlots (progDecls t x.starts)))

section
variable {p : State} {c target base : Nat}

theorem moved_ctx_same : ∃ slots, (p.moved c target base).ctx c = (p.ctx c).moved target base slots
    ∧ ∀ sl ∈ slots, ∀ k ∈ sl.copies, k.st = .empty :=
  ⟨_, State.setCtx_ctx_same .., freshSlots_empty _⟩

theorem moved_ctx_other {d : Nat} (hd : d ≠ c) : (p.moved c target base).ctx d = p.ctx d := by
  rw [State.moved, State.setCtx_ctx_other _ _ _ _ hd, State.modCh, State.setCh_ctx, State.modCh, State.setCh_ctx,
    (writeBack_spec p (p.ctx c).chan c).1]

theorem moved_slice (k : Nat) : (p.moved c target base).slice k = (p.writeBack (p.ctx c).chan c).slice k := by
  rw [State.moved, State.setCtx_slice, State.modCh, State.setCh_slice, State.modCh, State.setCh_slice]

variable (ht : (p.ctx c).chan ≠ target)
include ht

theorem moved_target : (p.moved c target base).ch target
    = (p.ch target).take c (p.ctx c).vatreq base (4 * (p.ctx c).reamreq) (p.ctx c).alreq := by
  rw [State.moved, State.setCtx_ch, State.modCh, State.setCh_ch_same, State.modCh, State.setCh_ch_other _ _ _ _ ht.symm,
    (writeBack_spec p (p.ctx c).chan c).2.1 _ ht.symm]

theorem moved_source : (p.moved c target base).ch (p.ctx c).chan
    = ((p.ch (p.ctx c).chan).giveLines c ((p.withoutWaits c).linesHome (p.ctx c).chan c)).give c := by
  rw [State.moved, State.setCtx_ch, State.modCh, State.setCh_ch_other _ _ _ _ ht, State.modCh, State.setCh_ch_same,
    (writeBack_spec p (p.ctx c).chan c).2.2.1]

/-- The dirty lines of a context that moves go home from the channel that it leaves. -/
theorem moved_writesHome {l : LoftLine} (hst : (p.ctx c).st ≠ .draining) (hl : l ∈ (p.ch (p.ctx c).chan).loft) (ho : l.owner = c)
    (hd : l.dirty = true) : (∃ k ∈ ((p.moved c target base).ch (p.ctx c).chan).wb, { k with fetching := l.fetching } = l)
      ∧ (l.fetching = false → (p.ctx c).leftWrite (p.ctx c).chan c l ∈ ((p.moved c target base).slice (p.ctx c).chan).wait) := by
  have hu := onlyOutside_withoutWaits p c
  obtain ⟨k, hk, hkl, hf⟩ := mem_linesHome (s := p.withoutWaits c) (by rwa [hu.ctx]) (by rwa [hu.ch]) ho hd
  refine ⟨⟨k, ?_, hkl⟩, fun hl => ?_⟩
  · rw [moved_source ht, give_wb]
    exact List.mem_append_right _ hk
  · have hkd : k.dirty = true := (congrArg LoftLine.dirty hkl :).trans hd
    have hline : (p.ctx c).leftWrite (p.ctx c).chan c l = (p.ctx c).leftWrite (p.ctx c).chan c k :=
      (congrArg ((p.ctx c).leftWrite (p.ctx c).chan c) hkl.symm :)
    rw [moved_slice, hline]
    exact (writeBack_spec p (p.ctx c).chan c).2.2.2 k hk hkd (hf hl)

end

/-- MIGRATE follows the checks in the order of R264. -/
theorem migrate_cases (s : State) (c target : Nat) :
    (∃ code, migrateCode s c target = some code ∧ (s.migrate c target).1 = s.bindRefused c code)
      ∨ ∃ base, migrateCode s c target = none ∧ (s.ctx c).st = .bound ∧ (s.ch target).placeReams (s.ctx c).reamreq = some base
        ∧ (s.migrate c target).1 = (s.directsEnd (s.ctx c).chan c).moved c target base := by
  simp only [migrateCode, State.migrate, roomCheck]
  by_cases hst : (s.ctx c).st ≠ .bound ∨ (s.ctx c).runs ≠ [] ∨ (s.ctx c).directs ≠ []
  · exact .inl ⟨0x8, if_pos hst, by rw [if_pos (by simpa [or_assoc] using hst)]⟩
  obtain ⟨hbound, hruns, hdir⟩ : (s.ctx c).st = .bound ∧ (s.ctx c).runs = [] ∧ (s.ctx c).directs = [] := by
    simpa only [not_or, ne_eq, not_not] using hst
  by_cases hre : (s.ctx c).rebound = some s.uc
  · exact .inl ⟨0x9, by simp [hbound, hruns, hdir, hre]⟩
  by_cases hch : (s.ch target).st ≠ .ready ∨ target = (s.ctx c).chan
  · exact .inl ⟨0x9, by simp [hbound, hruns, hdir, hre, hch]⟩
  by_cases hv : (s.ctx c).vatreq > 96 ∨ (s.ctx c).vatreq > (s.ch target).freeVat
  · exact .inl ⟨0xB, by simp [hbound, hruns, hdir, hre, hch, hv]⟩
  cases hp : (s.ch target).placeReams (s.ctx c).reamreq with
  | none => exact .inl ⟨0xC, by simp [hbound, hruns, hdir, hre, hch, hv]⟩
  | some base =>
    by_cases hl : (s.ctx c).alreq > (s.ch target).freeLoft
    · exact .inl ⟨0xD, by simp [hbound, hruns, hdir, hre, hch, hv, hl]⟩
    cases progCheck s (s.ctx c) with
    | some code => exact .inl ⟨code, by simp [hbound, hruns, hdir, hre, hch, hv, hl]⟩
    | none => exact .inr ⟨base, by simp [hbound, hruns, hdir, hre, hch, hv, hl, State.moved, Ctx.moved]⟩

theorem exec_migrate {s : State} (hs : Commanded s) (c : CtxId) (n : ChanId) :
    exec (.migrate c n) s = .next (s.initDone.migrate c.val n.val).1 := by
  rw [exec, execMigrate, ctl_commanded hs]

/-- A channel without a clock, on which nothing of a context is due, stays as it is. -/
theorem directsEnd_of_idle {s : State} {n c : Nat} (ht : (s.ch n).ticking = false) (hd : ∀ e ∈ (s.ch n).due, e.ctx ≠ c) :
    (s.directsEnd n c).ctxs = s.ctxs ∧ ∀ k, (s.directsEnd n c).ch k = s.ch k := by
  have hnone : (s.ch n).due.filter (fun e => e.ctx == c) = [] := List.filter_eq_nil_iff.mpr fun e he => by simpa using hd e he
  have hall : (s.ch n).due.filter (fun e => e.ctx != c) = (s.ch n).due := List.filter_eq_self.mpr fun e he => by simpa using hd e he
  rw [State.directsEnd, if_neg (by rw [ht]; exact Bool.false_ne_true)]
  dsimp only
  rw [hnone, List.foldl_nil, State.modCh, hall]
  refine ⟨rfl, fun k => ?_⟩
  by_cases hk : k = n
  · rw [hk, State.setCh_ch_same]
  · rw [State.setCh_ch_other _ _ _ _ hk]

end Sys2Proof.Machine

namespace Sys2Proof
open Sys2Proof.Machine Sys2Proof.Safety

/-- Settles O20, by the two ends of MIGRATE. -/
theorem migrateMovesABoundContext : Obligations.MigrateMovesABoundContext := by
  intro s c n hs h p
  refine ⟨fun ht => if_pos ht, fun ht hd => directsEnd_of_idle (s := s.initDone) ht hd, fun hcode _ hne => ?_, fun code hcode => ?_⟩
  · obtain ⟨_, h', -⟩ | ⟨base, -, hbound, hbase, hm⟩ := migrate_cases s.initDone c.val n.val
    · rw [hcode] at h'; cases h'
    have hst : (p.ctx c.val).st ≠ .draining := fun hd => by
      have hdrain := (noDrainBegins_directsEnd (s := s.initDone) (s.ctx c.val).chan c.val).before _ hd
      rw [hbound] at hdrain
      cases hdrain
    have hexec : exec (.migrate c n) s = .next (p.moved c.val n.val base) := (exec_migrate hs c n).trans (congrArg _ hm)
    clear_value p
    obtain ⟨slots, hctx, hslots⟩ := moved_ctx_same (p := p) (c := c.val) (target := n.val) (base := base)
    have htarget := moved_target (base := base) hne
    have hsource := moved_source (base := base) hne
    refine ⟨_, base, hexec, hbase, ?_⟩
    intro x y
    have hy : y = x.moved n.val base slots := hctx
    clear_value y
    subst hy
    have hreams (i : Nat) (hlo : base ≤ i) (hhi : i < base + 4 * x.reamreq) :
        ((p.ch n.val).take c.val x.vatreq base (4 * x.reamreq) x.alreq).ream i = ReamCell.reset :=
      (take_ream ..).trans (if_pos ⟨hlo, hhi⟩)
    rw [htarget]
    refine ⟨rfl, rfl, rfl, rfl, rfl, rfl, rfl, rfl, rfl, rfl, rfl, rfl, rfl, rfl, hslots, take_alloc .., hreams, ?_, ?_,
      fun l hl ho hd => moved_writesHome hne hst hl ho hd, fun d hd => moved_ctx_other hd⟩
    · rw [hsource]
      exact (give_gone ..).1
    · rw [hsource]
      exact (give_gone ..).2
  · obtain ⟨_, h', hm⟩ | ⟨_, h', -⟩ := migrate_cases s.initDone c.val n.val
    · rw [hcode] at h'; cases h'
      exact (exec_migrate hs c n).trans (congrArg _ hm)
    · rw [hcode] at h'; cases h'

end Sys2Proof
end

section
/-! SUPPORT. The command registers CTXCMD, CHCMD, CHPCMD and MNTCMD as the commands of their codes (R259, R373, R375, R385). -/
namespace Sys2Proof.Machine
open Sys2Proof.Safety

/-- Bits [lo + n − 1:lo] of written data, by their width. -/
theorem fld_eq_extract (d : BitVec 64) (hi lo : Nat) : fld d hi lo = (d.extractLsb' lo (hi + 1 - lo)).toNat := by
  rw [fld, BitVec.extractLsb'_toNat]

theorem fin_ofNat_val {n m : Nat} [NeZero m] (h : n < m) : (Fin.ofNat m n).val = n := Nat.mod_eq_of_lt h

theorem writeReg_ctxcmd (s : State) (d : BitVec 64) : s.writeReg 0x1000 d = s.ctxcmd d := by
  rw [writeReg_global s d (by decide) (by decide)]; rfl

theorem writeReg_mntcmd (s : State) (d : BitVec 64) :
    s.writeReg 0x1208 d = s.mntCommand (fld d 1 0) (if fld d 1 0 = 1 then 0 else fld d 6 4) := by
  rw [writeReg_global s d (by decide) (by decide)]; rfl

theorem writeReg_chcmd (s : State) (n : ChanId) (d : BitVec 64) : s.writeReg (chBase n.val + 0x500) d = s.chcmd n.val d := by
  rw [writeReg_channel s d n.isLt (by decide) (by decide)]; rfl

theorem writeReg_chpcmd (s : State) (n : ChanId) (d : BitVec 64) : s.writeReg (chBase n.val + 0x608) d = s.chpcmd n.val d := by
  rw [writeReg_channel s d n.isLt (by decide) (by decide)]; rfl

theorem chBase_lt (n : ChanId) {o : Nat} (ho : o < 0x1000) : chBase n.val + o < 2 ^ 24 := by
  have := n.isLt
  unfold chBase
  omega

/-- A command register's write is accepted as any Control access is. -/
theorem exec_registerWrite_ofNat {s : State} (hs : Commanded s) {o : Nat} (ho : o < 2 ^ 24) (d : BitVec 64) :
    exec (.registerWrite (BitVec.ofNat 24 o) d) s = .next (s.initDone.writeReg o d) :=
  exec_registerWrite_of_eq hs ho rfl

section
variable {s : State} (hs : Commanded s) (d : BitVec 64)
include hs

theorem exec_mntcmd : exec (.registerWrite 0x1208 d) s =
    (match (d.extractLsb' 0 2).toNat with
     | 1 => exec .millFirmwareLoad s
     | 2 => exec (.microcodeLoad (Fin.ofNat 8 (d.extractLsb' 4 3).toNat)) s
     | 3 => exec (.functionTableLoad (Fin.ofNat 8 (d.extractLsb' 4 3).toNat)) s
     | _ => .next s.initDone) := by
  have hch : (Fin.ofNat 8 (d.extractLsb' 4 3).toNat).val = (d.extractLsb' 4 3).toNat := fin_ofNat_val (d.extractLsb' 4 3).isLt
  have hcode : (d.extractLsb' 0 2).toNat < 4 := (d.extractLsb' 0 2).isLt
  have hexec : exec (.registerWrite 0x1208 d) s = .next (s.initDone.writeReg 0x1208 d) := exec_registerWrite_ofNat hs (by decide) d
  rw [hexec, writeReg_mntcmd, fld_eq_extract, fld_eq_extract]
  simp only [exec, execMillFirmwareLoad, execMicrocodeLoad, execFunctionTableLoad, ctl_commanded hs, hch]
  interval_cases (d.extractLsb' 0 2).toNat <;> rfl

theorem exec_ctxcmd (c : CtxId) (hc : (d.extractLsb' 0 10).toNat = c.val) : exec (.registerWrite 0x1000 d) s =
    (match (d.extractLsb' 16 3).toNat with
     | 1 => exec (.bind c) s
     | 2 => exec (.unbind c) s
     | 3 => exec (.teardown c) s
     | 4 => exec (.restore c) s
     | 5 => exec (.migrate c (Fin.ofNat 8 (d.extractLsb' 24 3).toNat)) s
     | _ => .next s.initDone) := by
  have hch : (Fin.ofNat 8 (d.extractLsb' 24 3).toNat).val = (d.extractLsb' 24 3).toNat := fin_ofNat_val (d.extractLsb' 24 3).isLt
  have hcode : (d.extractLsb' 16 3).toNat < 8 := (d.extractLsb' 16 3).isLt
  have hexec : exec (.registerWrite 0x1000 d) s = .next (s.initDone.writeReg 0x1000 d) := exec_registerWrite_ofNat hs (by decide) d
  rw [hexec, writeReg_ctxcmd, State.ctxcmd, fld_eq_extract, fld_eq_extract, fld_eq_extract]
  simp only [exec, execBind, execUnbind, execTeardown, execRestore, execMigrate, ctl_commanded hs, hch, hc]
  interval_cases (d.extractLsb' 16 3).toNat <;> rfl

theorem exec_chcmd (n : ChanId) : exec (.registerWrite (BitVec.ofNat 24 (chBase n.val + 0x500)) d) s =
    (match (d.extractLsb' 0 3).toNat with
     | 1 => exec (.quiesce n) s
     | 2 => exec (.test n) s
     | 3 => exec (.rejoin n) s
     | 4 => exec (.fence n) s
     | 5 => exec (.release n) s
     | _ => .next s.initDone) := by
  have hcode : (d.extractLsb' 0 3).toNat < 8 := (d.extractLsb' 0 3).isLt
  rw [exec_registerWrite_ofNat hs (chBase_lt n (by decide)), writeReg_chcmd, State.chcmd, fld_eq_extract]
  simp only [exec, execQuiesce, execTest, execRejoin, execFence, execRelease, ctl_commanded hs]
  interval_cases (d.extractLsb' 0 3).toNat <;> rfl

theorem exec_chpcmd (n : ChanId) : exec (.registerWrite (BitVec.ofNat 24 (chBase n.val + 0x608)) d) s =
    (match (d.extractLsb' 0 2).toNat with
     | 1 => exec (.power n) s
     | 2 => exec (.off n) s
     | _ => .next s.initDone) := by
  have hcode : (d.extractLsb' 0 2).toNat < 4 := (d.extractLsb' 0 2).isLt
  rw [exec_registerWrite_ofNat hs (chBase_lt n (by decide)), writeReg_chpcmd, State.chpcmd, fld_eq_extract]
  simp only [exec, execPower, execOff, ctl_commanded hs]
  interval_cases (d.extractLsb' 0 2).toNat <;> rfl

end

end Sys2Proof.Machine

namespace Sys2Proof
open Sys2Proof.Machine Sys2Proof.Safety

/-- Settles O15, register by register. -/
theorem commandRegistersActAsTheirCommands : Obligations.CommandRegistersActAsTheirCommands := by
  intro s d hs
  refine ⟨?_, ?_, exec_mntcmd hs d, fun c hc => exec_ctxcmd hs d c hc, fun n => exec_chcmd hs d n, fun n => exec_chpcmd hs d n⟩
  · rw [readReg_global s (by decide) (by decide)]; rfl
  · rw [readReg_global s (by decide) (by decide)]; rfl

end Sys2Proof
end

section
/-! SUPPORT. Writes of a context's entry, register by register (R257, R401). -/
namespace Sys2Proof.Machine
open Sys2Proof.Safety

section
variable (s : State) (c : Nat) (d : BitVec 64)

theorem writeCtxst_free (h : (s.ctx c).st = .free) : s.writeCtxst c d = s.setCtx c { s.ctx c with
    ten := (d.extractLsb' 4 4).toNat, chan := (d.extractLsb' 8 3).toNat, lgmask := d.extractLsb' 16 16, rbmask := d.extractLsb' 32 8 } := by
  simp only [State.writeCtxst, State.modCtx, h, beq_self_eq_true, if_true, fld_eq_extract]

theorem writeCtxst_bound (h : (s.ctx c).st ≠ .free) :
    s.writeCtxst c d = s.setCtx c { s.ctx c with rbmask := d.extractLsb' 32 8 } := by
  simp only [State.writeCtxst, State.modCtx, beq_iff_eq, h, if_false]

theorem writeCtxres_free (h : (s.ctx c).st = .free) : s.writeCtxres c d = s.setCtx c { s.ctx c with
    vatreq := (d.extractLsb' 0 7).toNat, reamreq := (d.extractLsb' 8 7).toNat
    proga := (d.extractLsb' 24 12).toNat, progav := d.getLsbD 36, progb := (d.extractLsb' 37 12).toNat, progbv := d.getLsbD 49 } := by
  simp only [State.writeCtxres, h, Ctx.withProgs, fld_eq_extract]

theorem writeCtxloft_free (h : (s.ctx c).st = .free) : s.writeCtxloft c d = s.setCtx c { s.ctx c with
    alreq := (d.extractLsb' 0 15).toNat, stashwin := (d.extractLsb' 32 2).toNat, policy := (d.extractLsb' 34 2).toNat } := by
  simp only [State.writeCtxloft, State.modCtx, h, beq_self_eq_true, if_true, fld_eq_extract]

theorem writeCtxloft_bound (h : (s.ctx c).st ≠ .free) : s.writeCtxloft c d = s.setCtx c (s.ctx c) := by
  simp only [State.writeCtxloft, State.modCtx, beq_iff_eq, h, if_false]

theorem writeCtxstash_free (h : (s.ctx c).st = .free) : s.writeCtxstash c d = s.setCtx c { s.ctx c with
    stashbase := (d.extractLsb' 0 30).toNat, extent := (d.extractLsb' 30 31).toNat } := by
  simp only [State.writeCtxstash, State.modCtx, h, beq_self_eq_true, if_true, fld_eq_extract]

theorem writeCtxstash_bound (h : (s.ctx c).st ≠ .free) : s.writeCtxstash c d = s.setCtx c (s.ctx c) := by
  simp only [State.writeCtxstash, State.modCtx, beq_iff_eq, h, if_false]

theorem writeCtxbud_eq : s.writeCtxbud c d = s.setCtx c { s.ctx c with budget := (d.extractLsb' 0 32).toNat } := by
  simp only [State.writeCtxbud, State.modCtx, fld_eq_extract]

end

section
variable {s : State} (hs : Commanded s) (c : CtxId) (d : BitVec 64)
include hs

theorem exec_ctxstWrite : exec (.contextFieldWrite c .ctxst d) s = .next (s.initDone.writeCtxst c.val d) := by
  rw [exec, execContextFieldWrite, ctl_commanded hs]

theorem exec_ctxresWrite {k : Instr} (hk : k = .contextFieldWrite c .ctxres d ∨ k = .programChange c d) :
    exec k s = .next (s.initDone.writeCtxres c.val d) := by
  rcases hk with rfl | rfl
  · rw [exec, execContextFieldWrite, ctl_commanded hs]
  · rw [exec_programChange hs]

theorem exec_ctxloftWrite : exec (.contextFieldWrite c .ctxloft d) s = .next (s.initDone.writeCtxloft c.val d) := by
  rw [exec, execContextFieldWrite, ctl_commanded hs]

theorem exec_ctxstashWrite : exec (.contextFieldWrite c .ctxstash d) s = .next (s.initDone.writeCtxstash c.val d) := by
  rw [exec, execContextFieldWrite, ctl_commanded hs]

theorem exec_ctxkeyWrite : exec (.ctxkeyWrite c d) s = .next (s.initDone.setCtx c.val { s.ctx c.val with key := d }) := by
  rw [exec, execCtxkeyWrite, ctl_commanded hs]; rfl

theorem exec_ctxbudWrite : exec (.ctxbudWrite c d) s = .next (s.initDone.writeCtxbud c.val d) := by
  rw [exec, execCtxbudWrite, ctl_commanded hs]

end

end Sys2Proof.Machine

namespace Sys2Proof
open Sys2Proof.Machine Sys2Proof.Safety

/-- Settles O10: the entry of a FREE context, and that of any other. -/
theorem contextFieldsTakeWritesWhereTheyMay : Obligations.ContextFieldsTakeWritesWhereTheyMay := by
  refine ⟨fun s c d hs hf => ⟨?_, fun k hk => ?_, ?_, ?_⟩, fun s c d hs => ⟨fun hb => ⟨?_, ?_, ?_⟩, exec_ctxkeyWrite hs c d, ?_, ?_⟩⟩
  · exact (exec_ctxstWrite hs c d).trans (congrArg _ (writeCtxst_free s.initDone c.val d hf))
  · exact (exec_ctxresWrite hs c d hk).trans (congrArg _ (writeCtxres_free s.initDone c.val d hf))
  · exact (exec_ctxloftWrite hs c d).trans (congrArg _ (writeCtxloft_free s.initDone c.val d hf))
  · exact (exec_ctxstashWrite hs c d).trans (congrArg _ (writeCtxstash_free s.initDone c.val d hf))
  · exact (exec_ctxstWrite hs c d).trans (congrArg _ (writeCtxst_bound s.initDone c.val d hb))
  · exact (exec_ctxloftWrite hs c d).trans (congrArg _ (writeCtxloft_bound s.initDone c.val d hb))
  · exact (exec_ctxstashWrite hs c d).trans (congrArg _ (writeCtxstash_bound s.initDone c.val d hb))
  · exact (exec_ctxbudWrite hs c d).trans (congrArg _ (writeCtxbud_eq s.initDone c.val d))
  · rw [readReg_entry s c.isLt (by decide) (by decide)]; rfl

end Sys2Proof
end

section
/-! SUPPORT. The words NOP, RUN, DISCARD and RCLOSE, and a word that R265 refuses (R265, R282, R285, R313; Table 10-3). -/
namespace Sys2Proof.Machine
open Sys2Proof.Safety

/-! ### The words -/

theorem fieldSum_eq_add (a : Nat) (fs : List (Nat × Nat)) : fieldSum a fs = a + fieldSum 0 fs := by
  induction fs generalizing a with
  | nil => rfl
  | cons f fs ih =>
    obtain ⟨v, i⟩ := f
    rw [fieldSum_cons, fieldSum_cons, ih, ih (0 + v * 2 ^ i)]
    omega

theorem opc_mkWord {op : Nat} {fs : List (Nat × Nat)} (hop : op < 256) (hs : fieldSum 0 fs < 2 ^ 120) : opc (mkWord op fs) = op := by
  rw [opc, fld_eq, mkWord_toNat, fieldSum_eq_add]
  omega

theorem runWord_toNat (w : RunFields) : (runWord w).toNat = 2 ^ 120 + w.psel.toNat * 2 ^ 119 + w.evt.toNat * 2 ^ 118
    + w.rrst.toNat * 2 ^ 117 + w.pseq.toNat * 2 ^ 101 + w.cbase.toNat * 2 ^ 87 + w.rbias.toNat * 2 ^ 55 + w.sbias.toNat * 2 ^ 25
    + w.pass2.toNat * 2 ^ 24 := by
  have h1 := w.psel.toNat_lt
  have h2 := w.evt.toNat_lt
  have h3 := w.rrst.toNat_lt
  have h4 := w.pass2.toNat_lt
  rw [runWord, mkWord_toNat, fieldSum_cons, fieldSum_cons, fieldSum_cons, fieldSum_cons, fieldSum_cons, fieldSum_cons, fieldSum_cons,
    fieldSum_cons, fieldSum_nil, Nat.mod_eq_of_lt (by omega), Nat.one_mul]

theorem opc_runWord (w : RunFields) : opc (runWord w) = 0x01 := by
  have h1 := w.psel.toNat_lt
  have h2 := w.evt.toNat_lt
  have h3 := w.rrst.toNat_lt
  have h4 := w.pass2.toNat_lt
  rw [opc, fld_eq, runWord_toNat]
  omega

theorem opOf_runWord (w : RunFields) : opOf (runWord w) = some .run := by rw [opOf, opc_runWord]; rfl

theorem directCheck_of_run {w : IWord} (hop : opOf w = some .run) (hlow : IWord.fld w 23 0 = 0) : directCheck w = none := by
  simp [directCheck, controlChecks, hop, hlow, topFail]

/-- The bits below the fields of a RUN are zero, so R282 has nothing to refuse. -/
theorem directCheck_runWord (w : RunFields) : directCheck (runWord w) = none := by
  refine directCheck_of_run (opOf_runWord w) ?_
  rw [fld_eq, runWord_toNat]
  omega

theorem decide_toNat_eq_one (b : Bool) : decide (b.toNat = 1) = b := by cases b <;> rfl

theorem ofWord_runWord (w : RunFields) : RunW.ofWord (runWord w)
    = ⟨w.psel, w.evt, w.rrst, w.pseq.toNat, w.cbase.toNat, w.rbias.toNat, w.sbias.toNat, w.pass2⟩ := by
  have h1 := w.psel.toNat_lt
  have h2 := w.evt.toNat_lt
  have h3 := w.rrst.toNat_lt
  have h4 := w.pass2.toNat_lt
  have hbit : ∀ i (b : Bool), (runWord w).toNat / 2 ^ i % 2 = b.toNat → IWord.bit (runWord w) i = b := by
    intro i b h
    rw [bit_eq, h, decide_toNat_eq_one]
  simp only [RunW.ofWord, RunW.mk.injEq, fld_eq]
  refine ⟨hbit _ _ ?_, hbit _ _ ?_, hbit _ _ ?_, ?_, ?_, ?_, ?_, hbit _ _ ?_⟩ <;> rw [runWord_toNat] <;> omega

theorem opOf_nopWord : opOf nopWord = some .nop := by decide

theorem directCheck_nopWord : directCheck nopWord = none := by decide

theorem opOf_discardWord (p : BitVec 16) : opOf (discardWord p) = some .discard := by
  rw [opOf, discardWord, opc_mkWord (by decide) (by rw [fieldSum_cons, fieldSum_nil]; omega)]; rfl

theorem opOf_rcloseWord (w : RcloseFields) : opOf (rcloseWord w) = some .rclose := by
  have h1 := w.route.toNat_lt
  have h2 := w.stats.toNat_lt
  have h3 := w.dest.toNat_lt
  have h4 := w.ddof.toNat_lt
  have hs : fieldSum 0 [(w.rn.toNat, 112), (w.rcnt.toNat, 104), (w.ofmt.toNat, 97), (w.route.toNat, 96), (w.ddof.toNat, 95),
      (w.stats.toNat, 94), (w.dest.toNat, 93), (w.dslot.toNat, 89), (w.sel.toNat, 87)] < 2 ^ 120 := by
    rw [fieldSum_cons, fieldSum_cons, fieldSum_cons, fieldSum_cons, fieldSum_cons, fieldSum_cons, fieldSum_cons, fieldSum_cons,
      fieldSum_cons, fieldSum_nil]
    omega
  rw [opOf, rcloseWord, opc_mkWord (by decide) hs]; rfl

/-! ### A word that R265 refuses -/

theorem refuses_of_refused {s : State} {c ten : Nat} (h : Refused s c ten) : (s.ctx c).refuses ten = true := by
  rcases h with h | h | h | h <;> simp [Ctx.refuses, h]

/-- The command that brings a word, from the word and its operation. -/
theorem exec_of_directOf {k : Instr} {c : CtxId} {m : TenId} {s : State} (h : directOf k = some (c, m)) (hs : Reached s) :
    ∃ w, exec k s = .next (s.direct c.val m.val w) ∧ (opOf w = some .discard ↔ ∃ q, k = .discard c m q) := by
  have hport : ∀ w, port s (fun s => s.direct c.val m.val w) = .next (s.direct c.val m.val w) := fun w => port_reached hs _
  cases k <;> cases h
  case nop => exact ⟨nopWord, hport _, by simp [opOf_nopWord]⟩
  case run w => exact ⟨runWord w, hport _, by simp [opOf_runWord]⟩
  case discard p => exact ⟨discardWord p, hport _, by simp [opOf_discardWord]⟩
  case rclr rn rcnt kind => exact ⟨rclrWord rn rcnt kind, hport _, by simp [opOf_rclrWord]⟩
  case rexp rn rcnt => exact ⟨rexpWord rn rcnt, hport _, by simp [opOf_rexpWord]⟩
  case rclose w => exact ⟨rcloseWord w, hport _, by simp [opOf_rcloseWord]⟩
  case lrel i n => exact ⟨loftWord 0xA0 i n, hport _, by simp [(opOf_loftWord i n).1]⟩
  case lflush i n => exact ⟨loftWord 0xA1 i n, hport _, by simp [(opOf_loftWord i n).2]⟩

/-- A refused word leaves the receiver at once, with nothing but the count of its refusal. -/
theorem direct_of_refused {s : State} {c ten : Nat} (w : IWord) (h : Refused s c ten)
    (hq : ∀ n < 8, ∀ v ∈ s.rxq n, v.ctx = c → s.seq ≤ v.ser) :
    s.direct c ten w = ({ s with seq := s.seq + 1 }).refuseWord c ten w := by
  have hr := refuses_of_refused h
  have hmay : s.mayDeliver ⟨w, c, ten, s.seq⟩ = true := by
    simp only [State.mayDeliver, hr, Bool.true_or, Bool.true_and, List.all_eq_true, List.mem_range]
    intro n hn v hv
    by_cases hc : v.ctx = c
    · simp [hq n hn v hv hc]
    · simp [hc]
  rw [State.direct, if_pos hmay, State.deliver]
  exact if_pos hr

theorem meetsFault_iff (s : State) (c ten : Nat) (w : IWord) : s.meetsFault c ten w = true ↔ opOf w = some .discard
    ∧ (s.ctx c).ten = ten ∧ (s.ctx c).st = .faulted ∧ (s.ctx c).abandonAt = some (s.ch (s.chanOf c)).cyc := by
  simp [State.meetsFault, and_assoc]

theorem refuse_tenant (s : State) (m : Nat) : (s.refuse m).tenant m = { s.tenant m with
    trefcnt := sat32 ((s.tenant m).trefcnt + 1), tevpend := (s.tenant m).tevpend ||| 0x8 } := by
  rw [State.refuse, State.tev, State.modTenant, State.modTenant, State.setTenant_tenant_same, State.setTenant_tenant_same]; rfl

theorem refuse_tenant_other (s : State) {m j : Nat} (h : j ≠ m) : (s.refuse m).tenant j = s.tenant j := by
  rw [State.refuse, State.tev, State.modTenant, State.modTenant, State.setTenant_tenant_other _ _ _ _ h,
    State.setTenant_tenant_other _ _ _ _ h]

/-! ### NOP and RUN where they are taken -/

theorem wordPoint_of_past {s : State} {c : Nat} (hw : (s.ch (s.ctx c).chan).wordAt ≤ (s.ch (s.ctx c).chan).cyc)
    (hd : NothingDue (s.ch (s.ctx c).chan) (s.ch (s.ctx c).chan).cyc) :
    wordPoint s c = { s with seq := s.seq + 1 }.setCh (s.ctx c).chan
      { s.ch (s.ctx c).chan with wordAt := (s.ch (s.ctx c).chan).cyc + 1 } := by
  have hp : State.pass { s with seq := s.seq + 1 } (s.ctx c).chan (s.ch (s.ctx c).chan).wordAt = { s with seq := s.seq + 1 } :=
    pass_of_past hw hd
  rw [wordPoint, State.takeWord]
  exact congrArg (fun t : State => t.modCh (s.ctx c).chan fun h => { h with wordAt := h.cyc + 1 }) hp

theorem accept_nop (s : State) (c ser : Nat) : s.accept c ser nopWord = s := by
  rw [State.accept, directCheck_nopWord]; simp only [opOf_nopWord]

theorem accept_of_run {w : IWord} (s : State) (c ser : Nat) (hc : directCheck w = none) (hop : opOf w = some .run) :
    s.accept c ser w = s.setCtx c { s.ctx c with
      runs := (s.ctx c).runs ++ [newRun (s.ctx c) ser (s.ch (s.ctx c).chan).cyc (RunW.ofWord w)] } := by
  rw [State.accept, hc]; simp only [hop]; rfl

end Sys2Proof.Machine

namespace Sys2Proof
open Sys2Proof.Machine Sys2Proof.Safety

/-- Settles O31, for any word that a command brings: the first check of R265 already refuses it, and DISCARD alone may meet a fault. -/
theorem refusedWordsOnlyCount : Obligations.RefusedWordsOnlyCount := by
  unfold Obligations.RefusedWordsOnlyCount
  intro s k c m hs hk href hq
  obtain ⟨w, hexec, hop⟩ := exec_of_directOf hk hs
  have hmeets := meetsFault_iff { s with seq := s.seq + 1 } c.val m.val w
  rw [hop] at hmeets
  rw [direct_of_refused w href hq, State.refuseWord] at hexec
  refine ⟨fun h => ?_, fun h => ?_⟩
  · rw [hexec, if_pos (hmeets.mpr h)]
  · rw [if_neg (fun hw => h (hmeets.mp hw))] at hexec
    refine ⟨_, hexec, ?_, ?_, fun j hj => refuse_tenant_other _ hj, rfl⟩
    · rw [refuse_tenant]; rfl
    · rw [refuse_tenant]; rfl

/-- Settles O33, by the rules of a word that its channel can take and the field layout of Table 10-3. -/
theorem nopDoesNothingAndRunIsQueued : Obligations.NopDoesNothingAndRunIsQueued := by
  unfold Obligations.NopDoesNothingAndRunIsQueued
  intro s c m w hs hd
  refine ⟨wordPoint_of_past, fun href => ⟨?_, ?_⟩⟩
  · rw [exec, execNop, port_reached hs, direct_of_deliverable _ hd href, accept_nop]
  · refine ⟨_, by rw [exec, execRun, port_reached hs, direct_of_deliverable _ hd href,
      accept_of_run _ _ _ (directCheck_runWord w) (opOf_runWord w)], rfl, rfl, rfl, rfl, rfl, rfl,
      ofWord_runWord w, ?_, rfl, rfl, rfl⟩
    rw [newRun, ofWord_runWord]; rfl

end Sys2Proof
end

section
/-! SUPPORT. The context commands of the mailbox: BINDERR tells the outcome of each, and the mill core acts on the taken entry as Control
does (R260, R261, R378). -/
namespace Sys2Proof.Machine
open Sys2Proof.Safety

/-! ### The outcome of a context command -/

/-- BINDERR of context c tells the outcome of a command: zero when it is accepted, and otherwise its code. -/
def Tells (c : Nat) (r : State × Option Nat) : Prop := (r.1.ctx c).binderr = r.2.getD 0 ∧ r.2 ≠ some 0

theorem tells_bindRefused (s : State) (c : Nat) {code : Nat} (h : code ≠ 0) : Tells c (s.bindRefused c code, some code) :=
  ⟨by rw [State.bindRefused, State.modCtx, State.setCtx_ctx_same]; rfl, by simpa using h⟩

theorem tells_setCtx (s : State) {c : Nat} {x : Ctx} (h : x.binderr = 0) : Tells c (s.setCtx c x, none) :=
  ⟨by rw [State.setCtx_ctx_same]; exact h, by simp⟩

theorem bindCheck_ne_zero {image : Nat → IWord} {starts : List Nat} {tenant vat reams held code : Nat}
    (h : bindCheck image starts tenant vat reams held = some code) : code ≠ 0 := by
  rintro rfl
  simp only [bindCheck] at h
  repeat' split at h
  all_goals cases h

theorem progCheck_ne_zero {s : State} {x : Ctx} {code : Nat} (h : progCheck s x = some code) : code ≠ 0 := bindCheck_ne_zero h

theorem roomCheck_ne_zero {h : Channel} {x : Ctx} {code base : Nat} (hr : roomCheck h x = (some code, base)) : code ≠ 0 := by
  rintro rfl
  simp only [roomCheck] at hr
  repeat' split at hr
  all_goals cases hr

variable (s : State) (c : Nat)

theorem tells_bind : Tells c (s.bind c) := by
  unfold State.bind
  extract_lets x h no
  have hno : ∀ code, code ≠ 0 → Tells c (no code) := fun _ => tells_bindRefused s c
  split
  · exact hno _ (by decide)
  split
  · exact hno _ (by decide)
  split
  · exact hno _ (by decide)
  split
  · exact hno _ (roomCheck_ne_zero ‹_›)
  split
  · exact hno _ (by decide)
  split
  · exact hno _ (progCheck_ne_zero ‹_›)
  · exact tells_setCtx _ rfl

theorem tells_unbind : Tells c (s.unbind c) := by
  unfold State.unbind
  extract_lets x
  split
  · exact tells_setCtx _ rfl
  · exact tells_bindRefused s c (by decide)

theorem tells_teardown : Tells c (s.teardown c) := by
  unfold State.teardown
  extract_lets x cc t u
  split
  · exact tells_setCtx _ rfl
  · exact tells_bindRefused s c (by decide)

theorem tells_restore : Tells c (s.restore c) := by
  unfold State.restore
  extract_lets x
  split
  · exact tells_bindRefused s c (by decide)
  split
  · exact tells_setCtx _ rfl
  · have hq := restored_requeueStash s c
    exact ⟨(congrArg Ctx.binderr ((hq.ctx c).trans (restored_ctx_same s c))), by simp⟩

theorem tells_migrate (target : Nat) : Tells c (s.migrate c target) := by
  unfold State.migrate
  extract_lets x h no
  have hno : ∀ code, code ≠ 0 → Tells c (no code) := fun _ => tells_bindRefused s c
  split
  · exact hno _ (by decide)
  split
  · exact hno _ (by decide)
  split
  · exact hno _ (by decide)
  split
  · exact hno _ (roomCheck_ne_zero ‹_›)
  split
  · exact hno _ (progCheck_ne_zero ‹_›)
  · exact tells_setCtx _ rfl

/-- The report of a command whose outcome BINDERR tells. -/
theorem reportCode_of_tells {e : MbEntry} {r : State × Option Nat} (h : Tells (mbCtx e.cmd) r) :
    r.1.reportCode e r.2 = reported r.1 e := by
  obtain ⟨t, code⟩ := r
  obtain ⟨hb, hne⟩ := h
  cases code with
  | none =>
    have h0 : (t.ctx (mbCtx e.cmd)).binderr = 0 := hb
    rw [reported, h0]; rfl
  | some k =>
    have hk : (t.ctx (mbCtx e.cmd)).binderr = k := hb
    rw [reported, hk, if_neg (fun h0 => hne (by rw [h0]))]; rfl

/-! ### The mill core -/

theorem millContext_own {s : State} {e : MbEntry} {f : State → Nat → State × Option Nat} (ho : (s.ctx (mbCtx e.cmd)).ten = e.ten)
    (hf : Tells (mbCtx e.cmd) (f s (mbCtx e.cmd))) : s.millContext e f = reported (f s (mbCtx e.cmd)).1 e := by
  rw [State.millContext, if_neg (not_not_intro ho)]
  exact reportCode_of_tells hf

theorem millContext_foreign {s : State} {e : MbEntry} (f : State → Nat → State × Option Nat) (ho : (s.ctx (mbCtx e.cmd)).ten ≠ e.ten) :
    s.millContext e f = ({ s with freeCtr := s.freeCtr + 1 }).pushReport e.ten 1 ((Config.freeValue s.freeCtr).toNat % 256)
      (e.cmd.extractLsb' 104 16) := by
  rw [State.millContext, if_pos ho]; rfl

theorem millBind_free {s : State} {e : MbEntry} (h : (s.ctx (mbCtx e.cmd)).st = .free) : s.millBind e
    = (s.setCtx (mbCtx e.cmd) { s.ctx (mbCtx e.cmd) with ten := e.ten }).millContext e State.bind := by
  rw [State.millBind]
  exact congrArg (State.millContext · e State.bind) (if_pos (by rw [h]; rfl))

theorem millBind_not_free {s : State} {e : MbEntry} (h : (s.ctx (mbCtx e.cmd)).st ≠ .free) :
    s.millBind e = s.millContext e State.bind := by
  rw [State.millBind]
  exact congrArg (State.millContext · e State.bind) (if_neg (by simpa using h))

/-- A Control command in a state whose initialisation is complete. -/
theorem ctl_ready {s : State} (hs : Reached s) (hb : s.ctlBusy = false) (hu : s.ucrdy = true) (f : State → State) : ctl s f = .next (f s) := by
  have hi : s.initDone = s := by
    rw [State.initDone, ← hu]
  rw [ctl_commanded ⟨hs, hb⟩, hi]

theorem mbChan_lt (w : IWord) : mbChan w < 8 := Nat.mod_lt _ (by decide)

end Sys2Proof.Machine

namespace Sys2Proof
open Sys2Proof.Machine Sys2Proof.Safety

/-- Settles O24, by the taken entry: the mill core runs the same command as CTXCMD, and BINDERR tells what it reports. -/
theorem mailboxCommandsActForTheirTenant : Obligations.MailboxCommandsActForTheirTenant := by
  unfold Obligations.MailboxCommandsActForTheirTenant
  refine ⟨fun s e rest c hs hc hfree h => ?_, fun s e rest c hs hc ho => ?_, fun s e rest op k hs h ho hbind hk => ?_⟩
  · obtain ⟨-, -, -, -, -, -, -, hu⟩ := id h
    intro p
    have hp : ((taken s rest).setCtx c.val { s.ctx c.val with ten := e.ten }).millContext e State.bind = reported (p.bind c.val).1 e := by
      rw [millContext_own (by rw [hc, State.setCtx_ctx_same]) (tells_bind ..), hc]
    refine ⟨?_, fun hb => by rw [exec, execBind, ctl_ready (s := p) hs hb hu]⟩
    rw [exec, execMbBind, hw_inside hs.1, millTake_eq h, millBind_free (by rw [hc]; exact hfree), hc]
    exact congrArg _ hp
  · intro p
    have hp : (p.ctx (mbCtx e.cmd)).ten = e.ten := by rw [hc]; exact ho
    refine ⟨fun h => ?_, fun h => ?_, fun h => ?_, fun h => ?_⟩ <;> obtain ⟨-, -, -, -, -, -, -, hu⟩ := id h
    · refine ⟨?_, fun hb => by rw [exec, execUnbind, ctl_ready (s := p) hs hb hu]⟩
      rw [exec, execMbUnbind, hw_inside hs.1, millTake_eq h, millContext_own hp (tells_unbind ..), hc]
    · refine ⟨?_, fun hb => by rw [exec, execTeardown, ctl_ready (s := p) hs hb hu]⟩
      rw [exec, execMbTeardown, hw_inside hs.1, millTake_eq h, millContext_own hp (tells_teardown ..), hc]
    · refine ⟨?_, fun hb => by rw [exec, execRestore, ctl_ready (s := p) hs hb hu]⟩
      rw [exec, execMbRestore, hw_inside hs.1, millTake_eq h, millContext_own hp (tells_restore ..), hc]
    · refine ⟨?_, fun hb => by rw [exec, execMigrate, ctl_ready (s := p) hs hb hu]⟩
      rw [exec, execMbMigrate, hw_inside hs.1, millTake_eq h, millContext_own hp (tells_migrate ..), hc, Fin.val_ofNat,
        Nat.mod_eq_of_lt (mbChan_lt _)]
  · have hforeign := fun f => millContext_foreign (s := taken s rest) (e := e) f ho
    obtain ⟨rfl, rfl⟩ | ⟨rfl, rfl⟩ | ⟨rfl, rfl⟩ | ⟨rfl, rfl⟩ | ⟨rfl, rfl⟩ := hk
    · rw [exec, execMbBind, hw_inside hs.1, millTake_eq h, millBind_not_free (s := taken s rest) (hbind rfl), hforeign]; rfl
    · rw [exec, execMbUnbind, hw_inside hs.1, millTake_eq h, hforeign]; rfl
    · rw [exec, execMbTeardown, hw_inside hs.1, millTake_eq h, hforeign]; rfl
    · rw [exec, execMbRestore, hw_inside hs.1, millTake_eq h, hforeign]; rfl
    · rw [exec, execMbMigrate, hw_inside hs.1, millTake_eq h, hforeign]; rfl

end Sys2Proof
end

section
/-! SUPPORT. The end of a drain: what a channel gives back, and FREE (R258, R261, R316; Table 14-3). -/
namespace Sys2Proof.Machine
open Sys2Proof.Safety

/-! ### What a channel gives back, and what is left of it when it goes OFF -/

section
variable (h : Channel) (c : Nat)

theorem give_alloc : (h.give c).alloc = h.alloc.filter fun a => a.ctx != c := by
  unfold Channel.give
  cases h.record c with
  | none => rfl
  | some a => exact congrArg (fun g : Channel => g.alloc.filter fun a => a.ctx != c) (unsetBlock_frame h a.ream a.reams h.reams)

theorem give_couch {b : BufBeat} (hb : b ∈ (h.give c).couch) : b.beat.ctx.val ≠ c := by
  simpa using (List.mem_filter.mp hb).2

theorem give_credit : (h.give c).credit c = 0 := Tbl.look_of_ne _ _ _ (Tbl.drop_ne _ c)

theorem give_ream {a : Alloc} (ha : h.record c = some a) {i : Nat} (h1 : a.ream ≤ i) (h2 : i < a.ream + a.reams) :
    (h.give c).ream i = ReamCell.reset := by
  unfold Channel.give
  rw [ha]
  exact (unsetBlock_ream h a.ream a.reams i).trans (if_pos ⟨h1, h2⟩)

theorem goOff_alloc : h.goOff.alloc = h.alloc := by
  simp only [Channel.goOff, Channel.wipe, Channel.lastReport]
  split <;> rfl

/-- What a channel holds of a context: nothing, and the reams of the block that it gave back are UNSET. -/
def Rid (h : Channel) (c : Nat) (g : Channel) : Prop :=
  g.record c = none ∧ g.alloc = h.alloc.filter (fun a => a.ctx != c)
    ∧ (∀ a, h.record c = some a → ∀ i, a.ream ≤ i → i < a.ream + a.reams → g.ream i = ReamCell.reset)
    ∧ (∀ l ∈ g.loft, l.owner ≠ c) ∧ g.credit c = 0 ∧ ∀ b ∈ g.couch, b.beat.ctx.val ≠ c

theorem rid_give : Rid h c (h.give c) :=
  ⟨(give_gone h c).1, give_alloc h c, fun _ ha _ => give_ream h c ha, (give_gone h c).2, give_credit h c, fun _ => give_couch h c⟩

/-- A channel that goes OFF keeps its allocation records, and no ream, line, credit or beat. -/
theorem rid_goOff : Rid h c (h.give c).goOff :=
  ⟨(congrArg (List.find? fun a : Alloc => a.ctx == c) (goOff_alloc _)).trans (give_gone h c).1, (goOff_alloc _).trans (give_alloc h c),
    fun _ _ _ _ _ => rfl, fun _ hl => (List.not_mem_nil hl).elim, rfl, fun _ hb => (List.not_mem_nil hb).elim⟩

end

/-! ### FREE -/

/-- A context that has entered FREE. -/
def Ctx.freed (x : Ctx) : Ctx :=
  { x.clearWork with st := .free, key := 0, smpctr := 0, strm := 0, balance := 0, algrant := 0, reambase := 0, drain := .none
                     cap := x.sealCap.cap }

theorem honourOff_cases (s : State) (n : Nat) : s.honourOff n = s ∨ s.honourOff n = s.setCh n (s.ch n).goOff := by
  rw [State.honourOff]
  exact (ite_eq_or_eq ..).symm

theorem enterFree_spec (s : State) (c : Nat) : (s.enterFree c).ctx c = (s.ctx c).freed
    ∧ (∀ d, d ≠ c → (s.enterFree c).ctx d = s.ctx d)
    ∧ ((s.enterFree c).tenant (s.ctx c).ten).tevpend = (s.tenant (s.ctx c).ten).tevpend ||| 0x10
    ∧ Rid (s.ch (s.chanOf c)) c ((s.enterFree c).ch (s.chanOf c)) := by
  let u := (((s.modCh (s.chanOf c) fun h => h.give c).setCtx c (s.ctx c).freed).tev (s.ctx c).ten tevDrained)
  have hu : s.enterFree c = u.honourOff (s.chanOf c) := rfl
  have hch : u.ch (s.chanOf c) = (s.ch (s.chanOf c)).give c := State.setCh_ch_same ..
  have hctx : u.ctx c = (s.ctx c).freed := State.setCtx_ctx_same ..
  have hother : ∀ d, d ≠ c → u.ctx d = s.ctx d := fun d hd => State.setCtx_ctx_other _ _ _ _ hd
  have hten : (u.tenant (s.ctx c).ten).tevpend = (s.tenant (s.ctx c).ten).tevpend ||| 0x10 :=
    congrArg Tenant.tevpend (State.setTenant_tenant_same ..)
  rw [hu]
  rcases honourOff_cases u (s.chanOf c) with h | h <;> rw [h]
  · exact ⟨hctx, hother, hten, by rw [hch]; exact rid_give ..⟩
  · exact ⟨hctx, hother, hten, by rw [State.setCh_ch_same, hch]; exact rid_goOff ..⟩

/-! ### The lines of a write-back that a torn-down context leaves -/

/-- Nothing but the lines of write-backs differs. -/
def OnlyWb (s t : State) : Prop :=
  t.ctxs = s.ctxs ∧ t.tenants = s.tenants ∧ ∀ n, { t.ch n with wb := (s.ch n).wb } = s.ch n

theorem OnlyWb.refl (s : State) : OnlyWb s s := ⟨rfl, rfl, fun _ => rfl⟩

/-- The lines of a context leave the write-back of every channel. -/
def State.dropWb (s : State) (c : Nat) : State :=
  (List.range 8).foldl (fun s m => s.modCh m fun h => { h with wb := h.wb.filter fun l => l.owner != c }) s

theorem onlyWb_dropWb (s : State) (c : Nat) : OnlyWb s (s.dropWb c) := by
  refine foldl_keeps (P := OnlyWb s) (fun t m h => ?_) _ s (OnlyWb.refl s)
  obtain ⟨hctx, hten, hch⟩ := h
  refine ⟨hctx, hten, fun n => ?_⟩
  by_cases hn : n = m
  · subst hn
    rw [State.modCh, State.setCh_ch_same]
    exact hch n
  · rw [State.modCh, State.setCh_ch_other _ _ _ _ hn]
    exact hch n

section
variable {s t : State} (h : OnlyWb s t)
include h

theorem OnlyWb.ctx (c : Nat) : t.ctx c = s.ctx c := by rw [State.ctx, h.1]; rfl

theorem OnlyWb.tenant (m : Nat) : t.tenant m = s.tenant m := by rw [State.tenant, h.2.1]; rfl

theorem OnlyWb.alloc (n : Nat) : (t.ch n).alloc = (s.ch n).alloc := (congrArg Channel.alloc (h.2.2 n) :)

theorem OnlyWb.record (n c : Nat) : (t.ch n).record c = (s.ch n).record c := by rw [Channel.record, h.alloc]; rfl

theorem OnlyWb.chanOf (c : Nat) : t.chanOf c = s.chanOf c := by
  simp only [State.chanOf, State.homeOf, h.record, h.ctx]

theorem OnlyWb.rid {n c : Nat} {g : Channel} (hr : Rid (t.ch n) c g) : Rid (s.ch n) c g := by
  rw [Rid, h.alloc, h.record] at hr
  exact hr

end

/-! ### The two ways in which a drain ends -/

section
variable {s : State} {c : Nat}

theorem drained_of_teardown (hst : (s.ctx c).st = .draining) (hf : (s.ch (s.chanOf c)).frozen = false)
    (hd : (s.ctx c).drain = .teardown) (ho : s.outstanding c = false) : s.drained c = ((s.abandoned c).dropWb c).enterFree c := by
  simp [State.drained, State.dropWb, hst, hf, hd, ho]

/-- A context whose lines are all clean and not under way leaves under UNBIND once its direct words have ended. -/
theorem drained_of_unbind (hst : (s.ctx c).st = .draining) (hf : (s.ch (s.chanOf c)).frozen = false)
    (hd : (s.ctx c).drain ≠ .teardown) (hr : (s.ctx c).runs = []) :
    let p := s.pass (s.chanOf c) ((s.ch (s.chanOf c)).lastDue c)
    p.outstanding c = false →
    (∀ l ∈ (p.ch (s.chanOf c)).loft, l.owner = c → l.dirty = false ∧ l.fetching = false ∧ l.writing = false) →
    (∀ m < 8, ∀ l ∈ (p.ch m).wb, l.owner ≠ c) → s.drained c = (p.abandoned c).enterFree c := by
  intro p ho hl hw
  have hmine : ∀ l ∈ (p.ch (s.chanOf c)).loft.filter fun l => l.owner == c, l.dirty = false ∧ l.fetching = false ∧ l.writing = false :=
    fun l hm => hl l (List.mem_filter.mp hm).1 (by simpa using (List.mem_filter.mp hm).2)
  have hnone : (((p.ch (s.chanOf c)).loft.filter fun l => l.owner == c).filter fun l => l.dirty && !p.asked (s.chanOf c) l) = [] :=
    List.filter_eq_nil_iff.mpr fun l hm => by simp [(hmine l hm).1]
  have hclean : (((p.ch (s.chanOf c)).loft.filter fun l => l.owner == c).any fun l => l.dirty || !l.still) = false :=
    List.any_eq_false.mpr fun l hm => by
      obtain ⟨hdirty, hfetch, hwrite⟩ := hmine l hm
      simp [LoftLine.still, hdirty, hfetch, hwrite]
  have hwb : ((List.range 8).any fun m => (p.ch m).wb.any fun l => l.owner == c) = false :=
    List.any_eq_false.mpr fun m hm => by
      rw [Bool.not_eq_true, List.any_eq_false]
      exact fun l hlm => by simpa using hw m (List.mem_range.mp hm) l hlm
  have hcond : ((s.ctx c).st != .draining || (s.ch (s.chanOf c)).frozen) = false := by simp [hst, hf]
  have htear : ((s.ctx c).drain == .teardown) = false := by simp [hd]
  have hruns : (!(s.ctx c).runs.isEmpty) = false := by simp [hr]
  simp only [State.drained, hcond, htear, hruns, Bool.false_eq_true, if_false]
  change (if ((_ : Bool) || State.outstanding _ c || _) = true then _ else _) = _
  rw [show (s.pass (s.chanOf c) ((s.ch (s.chanOf c)).lastDue c)) = p from rfl, hnone, List.foldl_nil, hclean, ho, hwb]
  rfl

theorem drained_of_outstanding (hd : (s.ctx c).drain = .teardown) (ho : s.outstanding c = true) : s.drained c = s := by
  simp [State.drained, hd, ho]

theorem drained_of_runs (hd : (s.ctx c).drain ≠ .teardown) (hr : (s.ctx c).runs ≠ []) : s.drained c = s := by
  simp [State.drained, hd, hr]

end

end Sys2Proof.Machine

namespace Sys2Proof
open Sys2Proof.Machine Sys2Proof.Safety

/-- Settles O22, by the two ways in which a drain ends and what FREE clears. -/
theorem drainEndsInFree : Obligations.DrainEndsInFree := by
  unfold Obligations.DrainEndsInFree
  intro s c hs hst n p q
  have hexec : exec (.drainComplete c) s = .next (s.drained c.val) := by rw [exec, execDrainComplete, hw_inside hs]
  refine ⟨?_, fun ho hd => by rw [hexec, drained_of_outstanding hd ho],
    fun hr hd => by rw [hexec, drained_of_runs hd hr]⟩
  intro hclk ho hdr k
  have hf : (s.ch n).frozen = false := by
    rcases hclk with h | h <;> simp [Channel.frozen, h]
  have hend : ∃ u, OnlyWb q u ∧ s.drained c.val = u.enterFree c.val := by
    by_cases hd : (s.ctx c.val).drain = .teardown
    · have hp : p = s := if_pos hd
      rw [hp] at ho
      refine ⟨_, ?_, drained_of_teardown hst hf hd ho⟩
      have hq : q = s.abandoned c.val := congrArg (State.abandoned · c.val) hp
      rw [hq]
      exact onlyWb_dropWb ..
    · have hp : p = s.pass n ((s.ch n).lastDue c.val) := if_neg hd
      obtain ⟨hr, hl, hw⟩ := hdr.resolve_left hd
      have hq : q = (s.pass n ((s.ch n).lastDue c.val)).abandoned c.val := congrArg (State.abandoned · c.val) hp
      rw [hp] at ho hl hw
      exact ⟨q, OnlyWb.refl q, hq ▸ drained_of_unbind hst hf hd hr ho hl hw⟩
  obtain ⟨u, hu, hend⟩ := hend
  obtain ⟨hctx, hother, hten, hrid⟩ := enterFree_spec u c.val
  rw [hu.ctx] at hctx
  rw [hu.ctx, hu.tenant] at hten
  rw [hu.chanOf] at hrid
  obtain ⟨hrec, halloc, hream, hloft, hcred, hcouch⟩ := hu.rid hrid
  refine ⟨_, hexec.trans (congrArg _ hend), ?_⟩
  rw [hctx]
  exact ⟨rfl, rfl, rfl, rfl, rfl, rfl, rfl, rfl, rfl, rfl, rfl, hten, hrec, halloc, hream, hloft, hcred, hcouch,
    fun d hd => (hother d hd).trans (hu.ctx d)⟩

end Sys2Proof
end

section
/-! SUPPORT. The refill of a budget window (R271, R272, R409), and a channel's report (R405). -/
namespace Sys2Proof.Machine
open Sys2Proof.Safety

/-! ### The contexts bound to a channel -/

theorem insertNat_perm (a : Nat) (l : List Nat) : (insertNat a l).Perm (a :: l) := by
  induction l with
  | nil => exact List.Perm.refl _
  | cons b l ih =>
    rw [insertNat]
    split
    · exact List.Perm.refl _
    · exact (ih.cons b).trans (List.Perm.swap a b l)

theorem sortNat_perm (l : List Nat) : (sortNat l).Perm l := by
  induction l with
  | nil => exact List.Perm.refl _
  | cons a l ih => exact (insertNat_perm a (sortNat l)).trans (ih.cons a)

theorem mem_bound {h : Channel} {c : Nat} : c ∈ h.bound ↔ ∃ a ∈ h.alloc, a.ctx = c :=
  (sortNat_perm _).mem_iff.trans List.mem_map

theorem nodup_bound {h : Channel} (hn : (h.alloc.map fun a => a.ctx).Nodup) : h.bound.Nodup := (sortNat_perm _).nodup_iff.mpr hn

/-! ### A change of every context of a list -/

/-- A context takes a change as often as it stands in the list. -/
theorem foldl_modCtx_ctx (f : Ctx → Ctx) (c : Nat) (l : List Nat) (s : State) :
    (l.foldl (fun s c => s.modCtx c f) s).ctx c = f^[l.count c] (s.ctx c) := by
  induction l generalizing s with
  | nil => rfl
  | cons a l ih =>
    rw [List.foldl_cons, ih, State.modCtx, List.count_cons]
    by_cases h : a = c
    · subst h
      rw [State.setCtx_ctx_same, if_pos (beq_self_eq_true a), Function.iterate_succ_apply]
    · rw [State.setCtx_ctx_other _ _ _ _ (Ne.symm h), if_neg (by simpa using h), Nat.add_zero]

theorem foldl_modCtx_frame (f : Ctx → Ctx) (l : List Nat) (s : State) :
    { l.foldl (fun s c => s.modCtx c f) s with ctxs := s.ctxs } = s :=
  foldl_keeps (f := fun s c => s.modCtx c f) (P := fun t => { t with ctxs := s.ctxs } = s) (fun _ _ h => h) l s rfl

/-! ### The refill -/

/-- A refill, however often, changes the budget in force and BALANCE alone. -/
theorem refill_iterate_frame (x : Ctx) (k : Nat) :
    { Ctx.refill^[k] x with budForce := x.budForce, balance := x.balance } = x := by
  induction k with
  | zero => rfl
  | succ k ih => rw [Function.iterate_succ_apply']; exact ih

theorem refill_iterate_budget (x : Ctx) (k : Nat) : (Ctx.refill^[k] x).budget = x.budget :=
  (congrArg Ctx.budget (refill_iterate_frame x k) :)

theorem refill_iterate_budForce (x : Ctx) (k : Nat) : (Ctx.refill^[k + 1] x).budForce = x.budget := by
  rw [Function.iterate_succ_apply']
  exact refill_iterate_budget x k

theorem refill_iterate_balance_of_zero {x : Ctx} (h : x.budget = 0) (k : Nat) : (Ctx.refill^[k] x).balance = x.balance := by
  induction k with
  | zero => rfl
  | succ k ih =>
    rw [Function.iterate_succ_apply']
    exact (if_pos ((refill_iterate_budget x k).trans h)).trans ih

theorem refill_balance {x : Ctx} (h : x.budget ≠ 0) : x.refill.balance = satBal (min x.balance 0 + x.budget) := if_neg h

theorem nextMultiple_mod (now served period : Nat) : nextMultiple now served period % period = 0 := by
  simp only [nextMultiple]
  split
  · rw [Nat.add_mod_right, Nat.mul_mod_left]
  · rw [Nat.mul_mod_left]

/-- The state in which the window's exponent has come into force, and the balances have not. -/
def State.windowAt (s : State) (n : Nat) : State :=
  let h := s.ch n
  let cc := nextMultiple h.cyc h.refilled (2 ^ h.wexp)
  let force := decide (h.wexpAt ≤ cc) && decide (cc % 2 ^ max h.wexp h.wexpStored = 0)
  (s.pass n cc).modCh n fun h => { h with refilled := cc + 1, wexp := if force then h.wexpStored else h.wexp }

theorem budgetRefill_of_ticking {s : State} {n : Nat} (h : (s.ch n).ticking = true) :
    s.budgetRefill n = (s.ch n).bound.foldl (fun s c => s.modCtx c Ctx.refill) (s.windowAt n) := by
  rw [State.budgetRefill]
  exact if_neg (by rw [h]; decide)

end Sys2Proof.Machine

namespace Sys2Proof
open Sys2Proof.Machine Sys2Proof.Safety

/-- Settles O56: a context takes the refill once for each record that names it, so the statement on BALANCE needs the records distinct. -/
theorem windowsRefillTheBalances : Obligations.WindowsRefillTheBalances := by
  unfold Obligations.WindowsRefillTheBalances
  intro s n hs htick cc p
  have hexec : exec (.budgetRefill n) s = .next (s.budgetRefill n.val) := by rw [exec, execBudgetRefill, hw_inside hs]
  rw [budgetRefill_of_ticking htick] at hexec
  have hch : (((s.ch n.val).bound.foldl (fun s c => s.modCtx c Ctx.refill) (s.windowAt n.val)).ch n.val) = { p.ch n.val with
      refilled := cc + 1
      wexp := if decide ((s.ch n.val).wexpAt ≤ cc) && decide (cc % 2 ^ max (s.ch n.val).wexp (s.ch n.val).wexpStored = 0)
        then (p.ch n.val).wexpStored else (p.ch n.val).wexp } := by
    rw [foldl_modCtx_ch]
    exact State.setCh_ch_same ..
  have hctx := fun c => foldl_modCtx_ctx Ctx.refill c (s.ch n.val).bound (s.windowAt n.val)
  have hp : ∀ c, (s.windowAt n.val).ctx c = p.ctx c := fun _ => rfl
  refine ⟨⟨nextMultiple_mod .., _, hexec, ?_, ?_, fun hst => ?_, fun c hc => ?_, fun c hc => ?_, ?_⟩, ?_⟩
  · rw [hch]
  · rw [hch]
  · rw [hch, ← hst]
    simp only [Bool.and_eq_true, decide_eq_true_eq]
  · obtain ⟨k, hk⟩ : ∃ k, (s.ch n.val).bound.count c = k + 1 :=
      Nat.exists_eq_add_one.mpr (List.count_pos_iff.mpr (mem_bound.mpr hc))
    rw [hctx, hp, hk]
    refine ⟨refill_iterate_budForce .., fun h0 => refill_iterate_balance_of_zero h0 _, fun h0 hnd => ?_, refill_iterate_frame ..⟩
    have h1 := List.count_eq_one_of_mem (nodup_bound hnd) (mem_bound.mpr hc)
    rw [← hk, h1, Function.iterate_one, refill_balance h0]
  · rw [hctx, hp, List.count_eq_zero.mpr fun hm => (mem_bound.mp hm).elim fun a ha => hc a ha.1 ha.2]; rfl
  · exact congrArg (fun t : State => { t with ctxs := p.ctxs, chans := p.chans }) (foldl_modCtx_frame Ctx.refill (s.ch n.val).bound _)
  · refine ⟨s.setCh n.val (s.ch n.val).report, ?_, ⟨rfl, fun m hm => State.setCh_ch_other _ _ _ _ hm⟩, ?_⟩
    · rw [exec, execChannelReport, hw_inside hs, State.modCh, if_pos htick]
    · rw [State.setCh_ch_same]
      exact ⟨rfl, rfl, rfl, rfl, rfl, rfl, rfl, rfl, rfl, rfl, rfl, rfl⟩

end Sys2Proof
end

section
/-! SUPPORT. The abandonment of a context's work (R273), and UNBIND and TEARDOWN (R228, R261). -/
namespace Sys2Proof.Machine
open Sys2Proof.Safety

/-! ### The accesses of a context that leave the slices -/

/-- Nothing but the waiting accesses, the Loft lines that they mark and LOFTMARK of context c differs, and no access is new. -/
structure Cancels (c : Nat) (s t : State) : Prop where
  frame : { t with chans := s.chans, ctxs := s.ctxs, slices := s.slices } = s
  own : { t.ctx c with mark := (s.ctx c).mark } = s.ctx c
  others : ∀ d, d ≠ c → t.ctx d = s.ctx d
  ch : ∀ n, { t.ch n with loft := (s.ch n).loft } = s.ch n
  slice : ∀ n, { t.slice n with wait := (s.slice n).wait } = s.slice n
  wait : ∀ n, ∀ a ∈ (t.slice n).wait, a ∈ (s.slice n).wait

theorem Cancels.refl (c : Nat) (s : State) : Cancels c s s := ⟨rfl, rfl, fun _ _ => rfl, fun _ => rfl, fun _ => rfl, fun _ _ h => h⟩

theorem Cancels.trans {c : Nat} {s t u : State} (h : Cancels c s t) (k : Cancels c t u) : Cancels c s u where
  frame := (congrArg (fun v : State => { v with chans := s.chans, ctxs := s.ctxs, slices := s.slices }) k.frame).trans h.frame
  own := (congrArg (fun x : Ctx => { x with mark := (s.ctx c).mark }) k.own).trans h.own
  others := fun d hd => (k.others d hd).trans (h.others d hd)
  ch := fun n => (congrArg (fun g : Channel => { g with loft := (s.ch n).loft }) (k.ch n)).trans (h.ch n)
  slice := fun n => (congrArg (fun q : Slice => { q with wait := (s.slice n).wait }) (k.slice n)).trans (h.slice n)
  wait := fun n a ha => h.wait n a (k.wait n a ha)

theorem Cancels.foldl {α : Type} {c : Nat} {f : State → α → State} (l : List α) (hf : ∀ s, ∀ a ∈ l, Cancels c s (f s a)) (s : State) :
    Cancels c s (l.foldl f s) := by
  induction l generalizing s with
  | nil => exact Cancels.refl c s
  | cons a l ih =>
    exact (hf s a List.mem_cons_self).trans (ih (fun t b hb => hf t b (List.mem_cons_of_mem a hb)) _)

theorem cancels_modLoft (c n : Nat) (s : State) (f : List LoftLine → List LoftLine) :
    Cancels c s (s.modCh n fun h => { h with loft := f h.loft }) := by
  refine ⟨rfl, rfl, fun _ _ => rfl, fun m => ?_, fun _ => rfl, fun _ _ h => h⟩
  by_cases hm : m = n
  · rw [hm, State.modCh, State.setCh_ch_same]
  · rw [State.modCh, State.setCh_ch_other _ _ _ _ hm]

theorem cancels_setMark (s : State) (c tag : Nat) : Cancels c s (s.setMark c tag) :=
  ⟨rfl, (onlyMarks_setMark s c tag).2 c, fun _ hd => State.setCtx_ctx_other _ _ _ _ hd, fun _ => rfl, fun _ => rfl, fun _ _ h => h⟩

theorem cancels_cancelFelt {s : State} {c : Nat} {a : FeltAcc} (ha : a.ctx = c) : Cancels c s (s.cancelFelt a) := by
  unfold State.cancelFelt
  split
  · exact cancels_modLoft ..
  · exact cancels_modLoft c _ s fun ls => (ls.map fun l =>
      if l.owner == a.ctx && !l.stash && l.line == a.line then { l with fetching := false } else l).filter fun l =>
        !(l.owner == a.ctx && !l.stash && l.line == a.line && l.valid == 0)
  · exact cancels_modLoft ..
  · exact ha ▸ cancels_setMark ..
  · exact Cancels.refl c s

theorem cancels_filterWait (c n : Nat) (s : State) (p : FeltAcc → Bool) :
    Cancels c s (s.modSlice n fun q => { q with wait := q.wait.filter p }) := by
  refine ⟨rfl, rfl, fun _ _ => rfl, fun _ => rfl, fun m => ?_, fun m a ha => ?_⟩
  · by_cases hm : m = n
    · rw [hm, State.modSlice, State.setSlice_slice_same]
    · rw [State.modSlice, State.setSlice_slice_other _ _ _ _ hm]
  · by_cases hm : m = n
    · rw [hm, State.modSlice, State.setSlice_slice_same] at ha
      exact hm ▸ (List.mem_filter.mp ha).1
    · rwa [State.modSlice, State.setSlice_slice_other _ _ _ _ hm] at ha

theorem cancels_cancelAll (s : State) (c : Nat) : Cancels c s (s.cancelAll c) := by
  refine Cancels.foldl _ (fun t n _ => (cancels_filterWait c n t fun a => !a.ownedBy c).trans ?_) s
  refine Cancels.foldl _ (fun u a ha => cancels_cancelFelt ?_) _
  have ho := (List.mem_filter.mp ha).2
  simp only [FeltAcc.ownedBy, Bool.and_eq_true, beq_iff_eq] at ho
  exact ho.1

/-! ### The channel's part -/

theorem Tbl.look_of_mem {α : Type} [DecidableEq α] {d : α} {k : Nat} {v : α} {t : Tbl α} (hw : Tbl.wf d t = true) (h : (k, v) ∈ t) :
    Tbl.look d t k = v := by
  have key : ∀ t : Tbl α, ∀ lo, Tbl.wfFrom d lo t = true → ∀ e ∈ t, (∀ b, lo = some b → b < e.1) ∧ Tbl.look d t e.1 = e.2 := by
    intro t
    induction t with
    | nil => exact fun _ _ _ he => (List.not_mem_nil he).elim
    | cons p r ih =>
      obtain ⟨a, x⟩ := p
      intro lo hr e he
      simp only [Tbl.wfFrom, Bool.and_eq_true, decide_eq_true_eq] at hr
      obtain ⟨⟨hlo, -⟩, hr⟩ := hr
      have hfirst : ∀ b, lo = some b → b < a := by
        rintro b rfl
        exact of_decide_eq_true hlo
      rcases List.mem_cons.mp he with rfl | hmem
      · exact ⟨hfirst, by rw [Tbl.look, if_pos rfl]⟩
      · obtain ⟨hgt, hlook⟩ := ih (some a) hr e hmem
        have ha := hgt a rfl
        exact ⟨fun b hb => Nat.lt_trans (hfirst b hb) ha, by rw [Tbl.look, if_neg (by omega), hlook]⟩
  exact (key t none hw (k, v) h).2

/-- Releasing a shadow without a commit changes the ream file alone. -/
theorem dropShadows_frame (h : Channel) (p : Nat → Bool) : { h.dropShadows p with reams := h.reams } = h := by
  refine foldl_keeps (P := fun g : Channel => { g with reams := h.reams } = h) (fun g e hg => ?_) h.reams h rfl
  dsimp only
  split
  · split
    · exact hg
    · exact hg
  · exact hg

/-- Releasing a shadow without a commit leaves the committed part of every ream (R91). -/
theorem dropShadows_com {h : Channel} (hw : Tbl.wf ReamCell.reset h.reams = true) (p : Nat → Bool) (i : Nat) :
    ((h.dropShadows p).ream i).com = (h.ream i).com := by
  have key : ∀ l : List (Nat × ReamCell), (∀ e ∈ l, e.2.com = (h.ream e.1).com) → ∀ g : Channel,
      (∀ i, (g.ream i).com = (h.ream i).com) → ∀ i, ((l.foldl (fun h e => match e.2.sh with
        | some d => if p d.run then h.setReam e.1 { e.2 with sh := none } else h
        | none => h) g).ream i).com = (h.ream i).com := by
    intro l
    induction l with
    | nil => exact fun _ _ hg => hg
    | cons e l ih =>
      intro he g hg
      refine ih (fun e' h' => he e' (List.mem_cons_of_mem e h')) _ ?_
      dsimp only
      split
      · split
        · intro j
          rw [Channel.setReam, Channel.ream]
          by_cases hj : j = e.1
          · rw [hj, Tbl.look_put_same, ← he e List.mem_cons_self]
          · rw [Tbl.look_put_other _ _ _ _ _ hj]
            exact hg j
        · exact hg
      · exact hg
  exact key h.reams (fun e he => by rw [Channel.ream, Tbl.look_of_mem hw he]) h (fun _ => rfl) i

/-- A channel on which the work of a context is abandoned, with the runs whose shadows are released. -/
def Channel.abandoned (h : Channel) (c : Nat) (sers : List Nat) : Channel :=
  let g := (h.dropShadows fun r => sers.contains r).dropRuns fun r => sers.contains r
  { g with
    due := g.due.filter fun e => e.ctx != c
    egress := g.egress.filter fun b => b.ctx != c
    couch := g.couch.filter fun b => b.beat.ctx.val != c
    lapsed := Tbl.put 0 g.lapsed c (Tbl.look 0 g.lapsed c + g.credit c)
    credits := Tbl.drop c g.credits
    sorter := g.sorter.filter fun r => r.ctx != c
    laneRes := g.laneRes.filter fun r => !(r.ctx == c && decide (r.cc > g.cyc))
    treeRes := g.treeRes.filterMap fun r => r.cut g.cyc (r.ctx == c)
    scanRes := g.scanRes.filter fun r => r.ctx != c }

theorem abandonedCh_frame (h : Channel) (c : Nat) (sers : List Nat) :
    { h.abandoned c sers with
      reams := h.reams, due := h.due, egress := h.egress, couch := h.couch, lapsed := h.lapsed, credits := h.credits, sorter := h.sorter
      laneRes := h.laneRes, treeRes := h.treeRes, scanRes := h.scanRes, reelRes := h.reelRes } = h :=
  (congrArg (fun g : Channel => { g with
      reams := h.reams, due := h.due, egress := h.egress, couch := h.couch, lapsed := h.lapsed, credits := h.credits, sorter := h.sorter
      laneRes := h.laneRes, treeRes := h.treeRes, scanRes := h.scanRes, reelRes := h.reelRes }) (dropShadows_frame h _) :)

/-- A context whose work is abandoned. -/
def Ctx.abandoned (x : Ctx) : Ctx :=
  { { x.emptyFilling with runs := [] }.settleRestarts with
    directs := [], held := [], carries := [], rows := [], groupEnds := [], recQ := [], stashQ := [], smpQ := [], dropSot := false }

theorem abandonedCtx_frame (x : Ctx) : { x.abandoned with
    cnts := x.cnts, restarts := x.restarts, slots := x.slots, runs := x.runs, directs := x.directs, held := x.held
    carries := x.carries, rows := x.rows, groupEnds := x.groupEnds, recQ := x.recQ, stashQ := x.stashQ, smpQ := x.smpQ
    dropSot := x.dropSot } = x :=
  (congrArg (fun y : Ctx => { y with
    cnts := x.cnts, restarts := x.restarts, slots := x.slots, runs := x.runs, directs := x.directs, held := x.held
    carries := x.carries, rows := x.rows, groupEnds := x.groupEnds, recQ := x.recQ, stashQ := x.stashQ, smpQ := x.smpQ
    dropSot := x.dropSot }) (settleRestarts_frame { x.emptyFilling with runs := [] }) :)

theorem abandonedCtx_faultcode (x : Ctx) : x.abandoned.faultcode = x.faultcode := (congrArg Ctx.faultcode (abandonedCtx_frame x) :)

theorem abandonedCtx_runs (x : Ctx) : x.abandoned.runs = [] := settleRestarts_runs { x.emptyFilling with runs := [] }

/-- The work of a context has left its entry and its channel, and its accesses still wait. -/
def State.withoutWork (s : State) (c : Nat) : State :=
  (s.setCh (s.chanOf c) ((s.ch (s.chanOf c)).abandoned c ((s.ch (s.chanOf c)).shadowRuns c (s.ctx c)))).setCtx c (s.ctx c).abandoned

theorem cancels_abandon (s : State) (c : Nat) : Cancels c (s.withoutWork c) (s.abandon c) := cancels_cancelAll ..

theorem withoutWork_com {s : State} (hi : Inv s) (c n i : Nat) :
    (((s.withoutWork c).ch n).ream i).com = ((s.ch n).ream i).com := by
  obtain ⟨-, -, -, -, -, -, hb, -⟩ := hi
  by_cases hn : n = s.chanOf c
  · rw [hn, State.withoutWork, State.setCtx_ch, State.setCh_ch_same]
    exact dropShadows_com (hb (s.chanOf c)).1 _ i
  · rw [State.withoutWork, State.setCtx_ch, State.setCh_ch_other _ _ _ _ hn]

theorem Cancels.ream {c : Nat} {s t : State} (h : Cancels c s t) (n i : Nat) : (t.ch n).ream i = (s.ch n).ream i :=
  (congrArg (fun g : Channel => g.ream i) (h.ch n) :)

/-! ### UNBIND and TEARDOWN by their ends -/

section
variable {s : State} {c : Nat}

theorem unbind_accepted (h : (s.ctx c).st = .bound ∨ (s.ctx c).st = .running) :
    (s.unbind c).1 = s.setCtx c { s.ctx c with st := .draining, drain := .unbind, directs := [], binderr := 0 } := by
  rcases h with h | h <;> simp [State.unbind, h]

theorem unbind_refused (h : (s.ctx c).st = .free ∨ (s.ctx c).st = .faulted ∨ (s.ctx c).st = .draining) :
    (s.unbind c).1 = s.setCtx c { s.ctx c with binderr := 0x8 } := by
  have hno : ((s.ctx c).st == .bound || (s.ctx c).st == .running) = false := by
    rcases h with h | h | h <;> rw [h] <;> rfl
  rw [State.unbind]
  simp only [hno, Bool.false_eq_true, if_false]
  rfl

theorem teardown_refused (h : (s.ctx c).st = .free ∨ (s.ctx c).st = .draining) :
    (s.teardown c).1 = s.setCtx c { s.ctx c with binderr := 0x8 } := by
  have hno : ((s.ctx c).st == .bound || (s.ctx c).st == .running || (s.ctx c).st == .faulted) = false := by
    rcases h with h | h <;> rw [h] <;> rfl
  rw [State.teardown]
  simp only [hno, Bool.false_eq_true, if_false]
  rfl

/-- What TEARDOWN makes of a context whose work has been abandoned in a cc. -/
def Ctx.tornDown (y : Ctx) (faulted : Bool) (cc : Nat) : Ctx :=
  { y with st := .draining, drain := .teardown, binderr := 0, restoreWait := false, newSlots := []
           abandonAt := if faulted then y.abandonAt else some cc }

/-- The write-backs of a context that are not issued leave the slices. -/
def State.dropHomeWb (s : State) (c : Nat) : State :=
  (List.range 8).foldl (fun s n => s.modSlice n fun q =>
    { q with wait := q.wait.filter fun a => !(a.ctx == c && (match a.kind with | .homeWb _ => true | _ => false)) }) s

theorem cancels_dropHomeWb (s : State) (c : Nat) : Cancels c s (s.dropHomeWb c) :=
  Cancels.foldl _ (fun t n _ => cancels_filterWait c n t _) s

/-- TEARDOWN abandons the work, and then removes the write-backs that are not issued. -/
theorem teardown_accepted (h : (s.ctx c).st = .bound ∨ (s.ctx c).st = .running ∨ (s.ctx c).st = .faulted) :
    ∃ u, Cancels c (s.withoutWork c) u
      ∧ (s.teardown c).1 = u.setCtx c ((u.ctx c).tornDown ((s.ctx c).st == .faulted) (s.ch (s.chanOf c)).cyc) := by
  have hopen : ((s.ctx c).st == .bound || (s.ctx c).st == .running || (s.ctx c).st == .faulted) = true := by
    rcases h with h | h | h <;> rw [h] <;> rfl
  refine ⟨(s.abandon c).dropHomeWb c, (cancels_abandon s c).trans (cancels_dropHomeWb ..), ?_⟩
  rw [State.teardown]
  simp only [hopen, if_true]
  rfl

end

end Sys2Proof.Machine

namespace Sys2Proof
open Sys2Proof.Machine Sys2Proof.Safety

/-- Settles O18: the abandonment leaves the committed parts, and what it removes from the slices changes no other context. -/
theorem unbindAndTeardownDrain : Obligations.UnbindAndTeardownDrain := by
  unfold Obligations.UnbindAndTeardownDrain
  have hunbind : ∀ {s : State} (_ : Commanded s) (c : CtxId), exec (.unbind c) s = .next (s.initDone.unbind c.val).1 :=
    fun hs c => by rw [exec, execUnbind, ctl_commanded hs]
  have hteardown : ∀ {s : State} (_ : Commanded s) (c : CtxId), exec (.teardown c) s = .next (s.initDone.teardown c.val).1 :=
    fun hs c => by rw [exec, execTeardown, ctl_commanded hs]
  refine ⟨fun s c hs => ⟨fun h => ?_, fun h => ?_⟩, fun s c hs hi => ⟨fun h => ?_, fun h => ?_⟩⟩
  · exact (hunbind hs c).trans (congrArg _ (unbind_accepted (s := s.initDone) (c := c.val) h))
  · exact (hunbind hs c).trans (congrArg _ (unbind_refused (s := s.initDone) (c := c.val) h))
  · obtain ⟨u, hu, ht⟩ := teardown_accepted (s := s.initDone) (c := c.val) h
    have hx : ((s.initDone.withoutWork c.val).ctx c.val) = (s.ctx c.val).abandoned := State.setCtx_ctx_same ..
    have hown := hu.own
    rw [hx] at hown
    have hframe := hu.frame
    refine ⟨_, (hteardown hs c).trans (congrArg _ ht), ?_⟩
    rw [State.setCtx_ctx_same]
    refine ⟨rfl, rfl, rfl, ((congrArg Ctx.runs hown).trans (abandonedCtx_runs _) :), (congrArg Ctx.directs hown :),
      (congrArg Ctx.held hown :), (congrArg Ctx.recQ hown :), (congrArg Ctx.stashQ hown :), (congrArg Ctx.smpQ hown :),
      ((congrArg Ctx.faultcode hown).trans (abandonedCtx_faultcode _) :), fun d hd => ?_, fun n i => ?_,
      (congrArg State.tenants hframe :), (congrArg State.master hframe :), (congrArg State.rx hframe :),
      (congrArg State.mailbox hframe :)⟩
    · rw [State.setCtx_ctx_other _ _ _ _ hd, hu.others d hd]
      exact State.setCtx_ctx_other _ _ _ _ hd
    · rw [State.setCtx_ch, hu.ream, withoutWork_com (s := s.initDone) hi]; rfl
  · exact (hteardown hs c).trans (congrArg _ (teardown_refused (s := s.initDone) (c := c.val) h))

end Sys2Proof
end

section
/-! SUPPORT. The placement of a context that leaves a fenced channel (R276, R367, R369). -/
namespace Sys2Proof.Machine
open Sys2Proof.Safety

/-! ### What the write-back leaves -/

/-- What is neither a channel nor a slice. -/
def State.uncore (s : State) : State := { s with chans := [], slices := [] }

theorem uncore_modCh (s : State) (n : Nat) (f : Channel → Channel) : (s.modCh n f).uncore = s.uncore := rfl

theorem uncore_modSlice (s : State) (n : Nat) (f : Slice → Slice) : (s.modSlice n f).uncore = s.uncore := rfl

theorem uncore_foldl {α : Type} {f : State → α → State} (hf : ∀ s a, (f s a).uncore = s.uncore) (l : List α) (s : State) :
    (l.foldl f s).uncore = s.uncore :=
  foldl_keeps (P := fun t : State => t.uncore = s.uncore) (fun t a h => (hf t a).trans h) l s rfl

theorem uncore_adoptHome (s : State) (n : Nat) (l : LoftLine) : (s.adoptHome n l).uncore = s.uncore :=
  uncore_foldl (fun _ _ => uncore_modSlice ..) _ s

theorem uncore_writeBack (s : State) (n c : Nat) : (s.writeBack n c).uncore = s.uncore := by
  rw [writeBack_eq]
  refine (uncore_foldl (fun _ _ => uncore_modSlice ..) _ _).trans ?_
  refine (uncore_foldl (fun t l => uncore_adoptHome t n l) _ _).trans ?_
  refine (uncore_modCh ..).trans ?_
  exact uncore_foldl (fun _ _ => uncore_modSlice ..) _ s

section
variable {s t : State} (h : t.uncore = s.uncore)
include h

theorem uc_of_uncore : t.uc = s.uc := (congrArg State.uc h :)

theorem master_of_uncore : t.master = s.master := (congrArg State.master h :)

theorem ifstat_of_uncore : t.ifstat = s.ifstat := (congrArg State.ifstat h :)

theorem tenants_of_uncore : t.tenants = s.tenants := (congrArg State.tenants h :)

end

/-- A context has left a channel, with its lines and its resources. -/
def State.emptied (s : State) (n c : Nat) : State := (s.writeBack n c).modCh n fun h => h.give c

section
variable (s : State) (n c : Nat)

theorem uncore_emptied : (s.emptied n c).uncore = s.uncore := (uncore_modCh ..).trans (uncore_writeBack s n c)

theorem emptied_ctx (d : Nat) : (s.emptied n c).ctx d = s.ctx d := (writeBack_spec s n c).1 d

theorem emptied_ch_same : (s.emptied n c).ch n = ((s.ch n).giveLines c ((s.withoutWaits c).linesHome n c)).give c := by
  rw [State.emptied, State.modCh, State.setCh_ch_same, (writeBack_spec s n c).2.2.1]

theorem emptied_ch_other {k : Nat} (hk : k ≠ n) : (s.emptied n c).ch k = s.ch k := by
  rw [State.emptied, State.modCh, State.setCh_ch_other _ _ _ _ hk, (writeBack_spec s n c).2.1 k hk]

theorem emptied_uc : (s.emptied n c).uc = s.uc := uc_of_uncore (uncore_emptied s n c)

end

/-! ### The channel that takes a context -/

/-- The choice between the channels seen so far and the next one (R276). -/
def State.better (s : State) (n : Nat) (x : Ctx) (b : Option Nat) (m : Nat) : Option Nat :=
  if m = n || !s.takes x m then b
  else match b with
    | none => some m
    | some k => if (s.ch m).freeVat > (s.ch k).freeVat then some m else some k

theorem rebindTarget_eq (s : State) (n : Nat) (x : Ctx) : s.rebindTarget n x = (List.range 8).foldl (s.better n x) none := rfl

theorem better_cases (s : State) (n : Nat) (x : Ctx) (b : Option Nat) (m : Nat) :
    s.better n x b m = b ∨ s.better n x b m = some m ∧ m ≠ n ∧ s.takes x m = true := by
  unfold State.better
  split
  · exact .inl rfl
  · rename_i h
    simp only [Bool.or_eq_true, decide_eq_true_eq, Bool.not_eq_true', not_or, Bool.not_eq_false] at h
    cases b with
    | none => exact .inr ⟨rfl, h⟩
    | some k =>
      dsimp only
      split
      · exact .inr ⟨rfl, h⟩
      · exact .inl rfl

/-- The target is another channel, of RBMASK, READY and with room. -/
theorem rebindTarget_takes {s : State} {n m : Nat} {x : Ctx} (h : s.rebindTarget n x = some m) : m ≠ n ∧ s.takes x m = true := by
  rw [rebindTarget_eq] at h
  refine foldl_keeps (P := fun b : Option Nat => ∀ m, b = some m → m ≠ n ∧ s.takes x m = true) (fun b k hb m hm => ?_) (List.range 8) none
    (fun _ h => nomatch h) m h
  rcases better_cases s n x b k with hk | ⟨hk, ht⟩
  · exact hb m (hk ▸ hm)
  · rw [hk] at hm
    cases hm
    exact ht

/-- The choice does not look at the channel that the context leaves. -/
theorem rebindTarget_congr {s t : State} {n : Nat} (h : ∀ m, m ≠ n → t.ch m = s.ch m) (x : Ctx) : t.rebindTarget n x = s.rebindTarget n x := by
  have htakes : ∀ m, m ≠ n → t.takes x m = s.takes x m := fun m hm => by rw [State.takes, State.takes, h m hm]
  have hbetter : ∀ b m, (∀ k, b = some k → k ≠ n) → t.better n x b m = s.better n x b m := by
    intro b m hb
    by_cases hm : m = n
    · simp only [State.better, decide_eq_true hm, Bool.true_or, if_true]
    · simp only [State.better, htakes m hm]
      cases b with
      | none => rfl
      | some k => simp only [h m hm, h k (hb k rfl)]
  have hother : ∀ b m, (∀ k, b = some k → k ≠ n) → ∀ k, s.better n x b m = some k → k ≠ n := by
    intro b m hb k hk
    rcases better_cases s n x b m with h' | ⟨h', hm, -⟩
    · exact hb k (h' ▸ hk)
    · rw [h'] at hk
      cases hk
      exact hm
  have key : ∀ (l : List Nat) (b : Option Nat), (∀ k, b = some k → k ≠ n) → l.foldl (t.better n x) b = l.foldl (s.better n x) b := by
    intro l
    induction l with
    | nil => exact fun _ _ => rfl
    | cons m l ih =>
      intro b hb
      rw [List.foldl_cons, List.foldl_cons, hbetter b m hb]
      exact ih _ (hother b m hb)
  exact key _ none (fun _ h => nomatch h)

theorem takes_ready {s : State} {x : Ctx} {m : Nat} (h : s.takes x m = true) :
    (s.ch m).st = .ready ∧ ∃ base, (s.ch m).placeReams x.reamreq = some base := by
  simp only [State.takes, Bool.and_eq_true, beq_iff_eq] at h
  obtain ⟨⟨⟨-, hst⟩, -⟩, hroom⟩ := h
  exact ⟨hst, Option.isSome_iff_exists.mp hroom⟩

/-! ### Events -/

/-- No event of a tenant is taken away. -/
def EventsStay (s t : State) : Prop := ∀ m i, (s.tenant m).tevpend.getLsbD i = true → (t.tenant m).tevpend.getLsbD i = true

theorem EventsStay.trans {s t u : State} (h : EventsStay s t) (k : EventsStay t u) : EventsStay s u := fun m i hi => k m i (h m i hi)

theorem eventsStay_tev (s : State) (m b : Nat) : EventsStay s (s.tev m b) := by
  intro k i hi
  rw [State.tev, State.modTenant]
  by_cases hk : k = m
  · subst hk
    rw [State.setTenant_tenant_same, BitVec.getLsbD_or, hi, Bool.true_or]
  · rwa [State.setTenant_tenant_other _ _ _ _ hk]

theorem tev_rebind (s : State) (m : Nat) : ((s.tev m tevRebind).tenant m).tevpend.getLsbD 2 = true := by
  rw [State.tev, State.modTenant, State.setTenant_tenant_same, BitVec.getLsbD_or]
  exact Bool.or_true _

theorem ite_eq_ite_not {α : Type} (b : Bool) (x y : α) : (if b then x else y) = if !b then y else x := by cases b <;> rfl

/-- A context is written and its tenant told of it: REBIND, and FAULT where it enters FAULTED. -/
def State.settled (b : State) (c : Nat) (x : Ctx) (ten : Nat) (fault : Bool) : State :=
  (if fault then (b.setCtx c x).tev ten tevFault else b.setCtx c x).tev ten tevRebind

section
variable (b : State) (c : Nat) (x : Ctx) (ten : Nat) (fault : Bool)

theorem settled_ctxs : (b.settled c x ten fault).ctxs = (b.setCtx c x).ctxs := by cases fault <;> rfl

theorem settled_ctx_same : (b.settled c x ten fault).ctx c = x := by
  rw [State.ctx, settled_ctxs]
  exact State.setCtx_ctx_same ..

theorem settled_ctx_other {d : Nat} (hd : d ≠ c) : (b.settled c x ten fault).ctx d = b.ctx d := by
  rw [State.ctx, settled_ctxs]
  exact State.setCtx_ctx_other _ _ _ _ hd

theorem settled_ch (n : Nat) : (b.settled c x ten fault).ch n = b.ch n := by cases fault <;> rfl

theorem settled_master : (b.settled c x ten fault).master = b.master := by cases fault <;> rfl

theorem settled_ifstat : (b.settled c x ten fault).ifstat = b.ifstat := by cases fault <;> rfl

theorem eventsStay_settled : EventsStay b (b.settled c x ten fault) := by
  cases fault
  · exact eventsStay_tev (b.setCtx c x) ten tevRebind
  · exact (eventsStay_tev (b.setCtx c x) ten tevFault).trans (eventsStay_tev _ ten tevRebind)

theorem settled_rebind : ((b.settled c x ten fault).tenant ten).tevpend.getLsbD 2 = true := tev_rebind _ _

end

/-! ### The context that is placed -/

section
variable (s : State) (n c : Nat) (a : Alloc)

/-- What a context keeps when it leaves a fenced channel. -/
def State.leftCtx : Ctx :=
  let x := s.ctx c
  { x.sealCap.clearWork with
    lost := lostRecord (s.ch n) a x ||| (x.lost &&& 8)
    lostNow := some (s.uc, lostRecord (s.ch n) a { x with lost := madeIn x.lostNow s.uc })
    binderr := if x.restoreWait && x.st == .faulted && x.faultcode == fcEntryLost then 0x8 else x.binderr }

/-- A context that has found room on a channel, with its slots there. -/
def State.reboundCtx (m : Nat) (slots : List SlotSt) : Ctx :=
  let x := s.ctx c
  { s.leftCtx n c a with
    st := if x.st == .running then .bound else x.st
    chan := m, rebound := some s.uc, reambase := ((s.ch m).placeReams x.reamreq).getD 0, algrant := min x.alreq (s.ch m).freeLoft
    budForce := x.budget, balance := satBal x.budget, slots := slots }

/-- A context that has found none. -/
def State.stuckCtx : Ctx :=
  let x := s.ctx c
  { s.leftCtx n c a with
    st := .faulted, faultcode := if x.faultcode = 0 then fcNoRoom else x.faultcode, algrant := 0, drain := .none }

/-- Whether a RESTORE that waits takes effect with the placement (R362). -/
def Ctx.restores (x : Ctx) : Bool := x.restoreWait && x.st == .faulted && x.faultcode != fcEntryLost

variable {s n c a}

theorem place_moved (h : (s.ch n).record c = some a) {m : Nat} (hm : s.rebindTarget n (s.ctx c) = some m) :
    ∃ slots, (∀ sl ∈ slots, ∀ k ∈ sl.copies, k.st = .empty) ∧ s.place n c =
      ((s.emptied n c).setCh m ((s.ch m).take c (s.ctx c).vatreq (((s.ch m).placeReams (s.ctx c).reamreq).getD 0)
          (4 * (s.ctx c).reamreq) (min (s.ctx c).alreq (s.ch m).freeLoft))).settled c
        (if (s.ctx c).restores then (s.reboundCtx n c a m slots).restore else s.reboundCtx n c a m slots) (s.ctx c).ten false := by
  have hmn := (rebindTarget_takes hm).1
  have hb : (s.emptied n c).rebindTarget n (s.ctx c) = some m :=
    (rebindTarget_congr (fun _ hk => emptied_ch_other s n c hk) _).trans hm
  have hch := emptied_ch_other s n c hmn
  have hctx : (s.writeBack n c).ctx c = s.ctx c := (writeBack_spec s n c).1 c
  have huc := emptied_uc s n c
  rw [State.place, h]
  simp only [hctx]
  rw [show (s.writeBack n c).modCh n (fun h => h.give c) = s.emptied n c from rfl, hb]
  simp only [hch, State.setCh_uc, huc]
  exact ⟨_, freshSlots_empty _, rfl⟩

theorem place_stuck (h : (s.ch n).record c = some a) (hm : s.rebindTarget n (s.ctx c) = none) :
    s.place n c = (s.emptied n c).settled c (s.stuckCtx n c a) (s.ctx c).ten ((s.ctx c).st != .faulted) := by
  have hb : (s.emptied n c).rebindTarget n (s.ctx c) = none :=
    (rebindTarget_congr (fun _ hk => emptied_ch_other s n c hk) _).trans hm
  have hctx : (s.writeBack n c).ctx c = s.ctx c := (writeBack_spec s n c).1 c
  have huc := emptied_uc s n c
  rw [State.place, h]
  simp only [hctx]
  rw [show (s.writeBack n c).modCh n (fun h => h.give c) = s.emptied n c from rfl, hb]
  simp only [huc]
  exact congrArg (fun t : State => t.tev (s.ctx c).ten tevRebind) (ite_eq_ite_not ((s.ctx c).st == .faulted) _ _)

end

/-! ### The placement -/

/-- A context has left channel n for a channel that took it, or is FAULTED. -/
structure Placed (n c : Nat) (a : Alloc) (s t : State) : Prop where
  master : t.master = s.master
  ifstat : t.ifstat = s.ifstat
  others : ∀ d, d ≠ c → t.ctx d = s.ctx d
  source : ∃ mine, t.ch n = ((s.ch n).giveLines c mine).give c
  events : EventsStay s t
  rebind : (t.tenant (s.ctx c).ten).tevpend.getLsbD 2 = true
  moved : ∀ m, s.rebindTarget n (s.ctx c) = some m →
    (∃ slots, (∀ sl ∈ slots, ∀ k ∈ sl.copies, k.st = .empty)
      ∧ t.ctx c = if (s.ctx c).restores then (s.reboundCtx n c a m slots).restore else s.reboundCtx n c a m slots)
    ∧ t.ch m = (s.ch m).take c (s.ctx c).vatreq (((s.ch m).placeReams (s.ctx c).reamreq).getD 0) (4 * (s.ctx c).reamreq)
        (min (s.ctx c).alreq (s.ch m).freeLoft)
    ∧ ∀ k, k ≠ n → k ≠ m → t.ch k = s.ch k
  stuck : s.rebindTarget n (s.ctx c) = none → t.ctx c = s.stuckCtx n c a ∧ ∀ k, k ≠ n → t.ch k = s.ch k

theorem placed_place {s : State} {n c : Nat} {a : Alloc} (h : (s.ch n).record c = some a) : Placed n c a s (s.place n c) := by
  have hcore := uncore_emptied s n c
  have hmaster := master_of_uncore hcore
  have hifstat := ifstat_of_uncore hcore
  have hctx := emptied_ctx s n c
  have hsame := emptied_ch_same s n c
  have hother := fun k => emptied_ch_other s n c (k := k)
  have hevents : EventsStay s (s.emptied n c) := fun m i hi => by
    rwa [State.tenant, tenants_of_uncore hcore]
  cases hm : s.rebindTarget n (s.ctx c) with
  | some m =>
    obtain ⟨slots, hslots, ht⟩ := place_moved h hm
    have hmn := (rebindTarget_takes hm).1
    rw [ht]
    generalize s.emptied n c = b at *
    generalize hg : (s.ch m).take c (s.ctx c).vatreq (((s.ch m).placeReams (s.ctx c).reamreq).getD 0)
          (4 * (s.ctx c).reamreq) (min (s.ctx c).alreq (s.ch m).freeLoft) = g
    generalize hx : (if (s.ctx c).restores then (s.reboundCtx n c a m slots).restore else s.reboundCtx n c a m slots) = x
    refine ⟨(settled_master ..).trans hmaster, (settled_ifstat ..).trans hifstat,
      fun d hd => (settled_ctx_other _ _ _ _ _ hd).trans (hctx d),
      ⟨_, (settled_ch ..).trans ((State.setCh_ch_other _ _ _ _ hmn.symm).trans hsame)⟩, hevents.trans (eventsStay_settled (b.setCh m g) _ _ _ _),
      settled_rebind .., fun k hk => ?_, fun h' => ?_⟩
    · cases hk.symm.trans hm
      refine ⟨⟨slots, hslots, ?_⟩, ?_, fun k hkn hkm => ?_⟩
      · rw [settled_ctx_same, hx]
      · rw [settled_ch, State.setCh_ch_same, hg]
      · rw [settled_ch, State.setCh_ch_other _ _ _ _ hkm, hother k hkn]
    · cases h'.symm.trans hm
  | none =>
    rw [place_stuck h hm]
    generalize s.emptied n c = b at *
    refine ⟨(settled_master ..).trans hmaster, (settled_ifstat ..).trans hifstat,
      fun d hd => (settled_ctx_other _ _ _ _ _ hd).trans (hctx d), ⟨_, (settled_ch ..).trans hsame⟩,
      hevents.trans (eventsStay_settled b _ _ _ _), settled_rebind .., fun k hk => ?_,
      fun _ => ⟨settled_ctx_same .., fun k hk => (settled_ch ..).trans (hother k hk)⟩⟩
    cases hk.symm.trans hm

end Sys2Proof.Machine
end

section
/-! SUPPORT. CTXLOST, and the start of a fence (R366, R369, R381). -/
namespace Sys2Proof.Machine
open Sys2Proof.Safety

/-! ### CTXLOST -/

section
variable (h : Channel) (a : Alloc) (x : Ctx)

/-- Whether a committed ream of the context's block is lost. -/
def lostReams : Bool := (List.range a.reams).any fun i => (h.ream (a.ream + i)).com.kind != .unset

/-- Whether a copy of the context's slots is lost. -/
def lostSlots : Bool := x.slots.any fun sl => sl.copies.any fun c => c.st != .empty

/-- The first of the runs lost, the last of them and the latest completed run, each as CTXLOST names it. -/
def lostFirst : Nat := if fld x.lost 15 8 ≠ 0 then fld x.lost 31 16 else (x.runs.head?.map fun r => r.w.pseq).getD 0
def lostLast : Nat := match x.runs.getLast? with | some r => r.w.pseq | none => fld x.lost 47 32
def lostSeen : Nat × Nat := match x.cpseq with | some e => (1, e.2) | none => (fld x.lost 4 4, fld x.lost 63 48)

theorem lostSeen_lt : (lostSeen x).1 < 2 := by
  unfold lostSeen
  split
  · exact Nat.one_lt_two
  · exact Nat.mod_lt _ (by decide)

end

/-- What the fields of a register add to a number. -/
def regSum (a : Nat) (fs : List (Nat × Nat × Nat)) : Nat := fs.foldl (fun a f => a + (f.1 % 2 ^ f.2.1) * 2 ^ f.2.2) a

theorem regSum_nil (a : Nat) : regSum a [] = a := rfl

theorem regSum_cons (a v w i : Nat) (fs : List (Nat × Nat × Nat)) :
    regSum a ((v, w, i) :: fs) = regSum (a + v % 2 ^ w * 2 ^ i) fs := rfl

theorem regOf_toNat (fs : List (Nat × Nat × Nat)) : (regOf fs).toNat = regSum 0 fs % 2 ^ 64 := BitVec.toNat_ofNat ..

section
variable (h : Channel) (a : Alloc) (x : Ctx)

/-- CTXLOST as the sum of its fields. -/
theorem lostRecord_toNat : (lostRecord h a x).toNat = 1 + (lostReams h a || x.lost.getLsbD 1).toNat * 2
    + (lostSlots x || x.lost.getLsbD 2).toNat * 2 ^ 2 + fld x.lost 3 3 * 2 ^ 3 + (lostSeen x).1 * 2 ^ 4
    + min 255 (fld x.lost 15 8 + x.runs.length) * 2 ^ 8 + lostFirst x % 65536 * 2 ^ 16 + lostLast x % 65536 * 2 ^ 32
    + (lostSeen x).2 % 65536 * 2 ^ 48 := by
  have hreg : lostRecord h a x = regOf [(1, 1, 0), ((lostReams h a || x.lost.getLsbD 1).toNat, 1, 1),
      ((lostSlots x || x.lost.getLsbD 2).toNat, 1, 2), (fld x.lost 3 3, 1, 3), ((lostSeen x).1, 1, 4),
      (min 255 (fld x.lost 15 8 + x.runs.length), 8, 8), (lostFirst x, 16, 16), (lostLast x, 16, 32), ((lostSeen x).2, 16, 48)] := by
    unfold lostRecord lostSeen lostLast
    cases x.cpseq <;> rfl
  have h1 := (lostReams h a || x.lost.getLsbD 1).toNat_lt
  have h2 := (lostSlots x || x.lost.getLsbD 2).toNat_lt
  have h3 : fld x.lost 3 3 < 2 := Nat.mod_lt _ (by decide)
  have h4 := lostSeen_lt x
  rw [hreg, regOf_toNat, regSum_cons, regSum_cons, regSum_cons, regSum_cons, regSum_cons, regSum_cons, regSum_cons, regSum_cons,
    regSum_cons, regSum_nil]
  omega

end

/-- What CTXLOST tells of a loss, from a channel's reams, the record of its block there and the context before. -/
def LostTells (h : Channel) (a : Alloc) (x : Ctx) (lost : BitVec 64) : Prop :=
  let was := (x.lost.extractLsb' 8 8).toNat
  lost.getLsbD 0 = true
  ∧ (lost.getLsbD 1 = true ↔ x.lost.getLsbD 1 = true ∨ ∃ i < a.reams, (h.ream (a.ream + i)).com.kind ≠ .unset)
  ∧ (lost.getLsbD 2 = true ↔ x.lost.getLsbD 2 = true ∨ ∃ sl ∈ x.slots, ∃ k ∈ sl.copies, k.st ≠ .empty)
  ∧ lost.getLsbD 3 = x.lost.getLsbD 3
  ∧ (lost.extractLsb' 8 8).toNat = min 255 (was + x.runs.length)
  ∧ (was ≠ 0 → lost.extractLsb' 16 16 = x.lost.extractLsb' 16 16)
  ∧ (∀ r rest, was = 0 → x.runs = r :: rest → (lost.extractLsb' 16 16).toNat = r.w.pseq % 65536)
  ∧ (∀ r rest, x.runs = rest ++ [r] → (lost.extractLsb' 32 16).toNat = r.w.pseq % 65536)
  ∧ (x.runs = [] → lost.extractLsb' 32 16 = x.lost.extractLsb' 32 16)
  ∧ (∀ e, x.cpseq = some e → lost.getLsbD 4 = true ∧ (lost.extractLsb' 48 16).toNat = e.2 % 65536)
  ∧ (x.cpseq = none → lost.getLsbD 4 = x.lost.getLsbD 4 ∧ lost.extractLsb' 48 16 = x.lost.extractLsb' 48 16)

theorem getLsbD_eq_div (v : BitVec 64) (i : Nat) : v.getLsbD i = decide (v.toNat / 2 ^ i % 2 = 1) := Nat.testBit_eq_decide_div_mod_eq

theorem extract_toNat (v : BitVec 64) (lo len : Nat) : (v.extractLsb' lo len).toNat = v.toNat / 2 ^ lo % 2 ^ len := by
  rw [BitVec.extractLsb'_toNat, Nat.shiftRight_eq_div_pow]

theorem fld_eq_div (v : BitVec 64) (hi lo : Nat) : fld v hi lo = v.toNat / 2 ^ lo % 2 ^ (hi + 1 - lo) := by
  rw [fld, Nat.shiftRight_eq_div_pow]

theorem toNat_eq_one_iff (b : Bool) : b.toNat = 1 ↔ b = true := by cases b <;> decide

theorem lostTells_lostRecord (h : Channel) (a : Alloc) (x : Ctx) : LostTells h a x (lostRecord h a x) := by
  have hv := lostRecord_toNat h a x
  have h1 := (lostReams h a || x.lost.getLsbD 1).toNat_lt
  have h2 := (lostSlots x || x.lost.getLsbD 2).toNat_lt
  have h3 : fld x.lost 3 3 < 2 := Nat.mod_lt _ (by decide)
  have h4 := lostSeen_lt x
  have hreams : (lostReams h a || x.lost.getLsbD 1) = true ↔
      x.lost.getLsbD 1 = true ∨ ∃ i < a.reams, (h.ream (a.ream + i)).com.kind ≠ .unset := by
    simp [lostReams, or_comm]
  have hslots : (lostSlots x || x.lost.getLsbD 2) = true ↔
      x.lost.getLsbD 2 = true ∨ ∃ sl ∈ x.slots, ∃ k ∈ sl.copies, k.st ≠ .empty := by
    simp [lostSlots, or_comm]
  have hwas : fld x.lost 15 8 = (x.lost.extractLsb' 8 8).toNat := by rw [extract_toNat, fld_eq_div]
  rw [hwas] at hv
  generalize (lostReams h a || x.lost.getLsbD 1) = br at hv h1 hreams
  generalize (lostSlots x || x.lost.getLsbD 2) = bs at hv h2 hslots
  generalize lostRecord h a x = v at hv ⊢
  unfold LostTells
  intro was
  refine ⟨?_, ?_, ?_, ?_, ?_, fun hw => BitVec.eq_of_toNat_eq ?_, fun r rest hw hr => ?_, fun r rest hr => ?_,
    fun hr => BitVec.eq_of_toNat_eq ?_, fun e he => ⟨?_, ?_⟩, fun hn => ⟨?_, BitVec.eq_of_toNat_eq ?_⟩⟩
  · rw [getLsbD_eq_div, decide_eq_true_eq]; omega
  · rw [← hreams, getLsbD_eq_div, decide_eq_true_eq, ← toNat_eq_one_iff]; omega
  · rw [← hslots, getLsbD_eq_div, decide_eq_true_eq, ← toNat_eq_one_iff]; omega
  · rw [getLsbD_eq_div, getLsbD_eq_div]
    rw [fld_eq_div] at hv
    refine decide_eq_decide.mpr ?_
    omega
  · rw [extract_toNat]; omega
  · have hf : lostFirst x = fld x.lost 31 16 := if_pos (by rwa [hwas])
    rw [extract_toNat, extract_toNat]
    rw [hf, fld_eq_div x.lost 31] at hv
    omega
  · have hf : lostFirst x = r.w.pseq := by rw [lostFirst, if_neg (by rw [hwas]; exact not_not_intro hw), hr]; rfl
    rw [extract_toNat]
    omega
  · have hl : lostLast x = r.w.pseq := by rw [lostLast, hr, List.getLast?_append_cons]; rfl
    rw [extract_toNat]
    omega
  · have hl : lostLast x = fld x.lost 47 32 := by rw [lostLast, hr]; rfl
    rw [extract_toNat, extract_toNat]
    rw [hl, fld_eq_div x.lost 47] at hv
    omega
  · have hs : lostSeen x = (1, e.2) := by rw [lostSeen, he]
    rw [hs] at hv
    rw [getLsbD_eq_div, decide_eq_true_eq]
    omega
  · have hs : lostSeen x = (1, e.2) := by rw [lostSeen, he]
    rw [hs] at hv
    rw [extract_toNat]
    omega
  · have hs : lostSeen x = (fld x.lost 4 4, fld x.lost 63 48) := by rw [lostSeen, hn]
    rw [hs] at hv h4
    rw [getLsbD_eq_div, getLsbD_eq_div]
    simp only [fld_eq_div x.lost 4] at hv h4
    refine decide_eq_decide.mpr ?_
    omega
  · have hs : lostSeen x = (fld x.lost 4 4, fld x.lost 63 48) := by rw [lostSeen, hn]
    rw [hs] at hv h4
    rw [extract_toNat, extract_toNat]
    simp only [fld_eq_div x.lost 63] at hv
    omega

/-- LOFTLOST, which may be set meanwhile, stands in CTXLOST already. -/
theorem lostRecord_or (h : Channel) (a : Alloc) (x : Ctx) : lostRecord h a x ||| (x.lost &&& 8) = lostRecord h a x := by
  obtain ⟨-, -, -, h3, -⟩ := lostTells_lostRecord h a x
  have h8 : ∀ i, (8 : BitVec 64).getLsbD i = true → i = 3 := by
    intro i hi
    have hi' : (2 ^ 3).testBit i = true := hi
    rw [Nat.testBit_two_pow] at hi'
    exact (of_decide_eq_true hi').symm
  refine BitVec.eq_of_getLsbD_eq fun i _ => ?_
  rw [BitVec.getLsbD_or, BitVec.getLsbD_and]
  cases hi : (8 : BitVec 64).getLsbD i with
  | false => rw [Bool.and_false, Bool.or_false]
  | true => rw [h8 i hi, h3, Bool.and_true, Bool.or_self]

theorem lostRecord_congr {g h : Channel} (hr : g.reams = h.reams) (a : Alloc) (x : Ctx) : lostRecord g a x = lostRecord h a x := by
  have : ∀ i, g.ream i = h.ream i := fun i => by rw [Channel.ream, hr]; rfl
  simp only [lostRecord, this]

end Sys2Proof.Machine
end

section
/-! SUPPORT. The start of a fence, and the fence of a channel that holds one context (R276, R366, R369, R381). -/
namespace Sys2Proof.Machine
open Sys2Proof.Safety

/-! ### The start of a fence -/

/-- Of the state nothing but a maintenance load and its image on channel n differs, and no interrupt flag is taken away. -/
structure LoadEnds (n : Nat) (s t : State) : Prop where
  ctxs : t.ctxs = s.ctxs
  tenants : t.tenants = s.tenants
  master : t.master = s.master
  uc : t.uc = s.uc
  other : ∀ m, m ≠ n → t.ch m = s.ch m
  same : { t.ch n with imgbadMc := (s.ch n).imgbadMc, imgbadTb := (s.ch n).imgbadTb } = s.ch n
  ifstat : ∀ i, s.ifstat.getLsbD i = true → t.ifstat.getLsbD i = true

theorem spoil_frame (h : Channel) (kind : Nat) : { h.spoil kind with imgbadMc := h.imgbadMc, imgbadTb := h.imgbadTb } = h := by
  rw [Channel.spoil]
  split <;> rfl

theorem raiseIf_ifstat (s : State) (bit i : Nat) (h : s.ifstat.getLsbD i = true) : (s.raiseIf bit).ifstat.getLsbD i = true := by
  rw [State.raiseIf, BitVec.getLsbD_or, h, Bool.true_or]

theorem raiseIf_ch (s : State) (bit k : Nat) : (s.raiseIf bit).ch k = s.ch k := rfl

theorem loadEnds_fenceLoad (s : State) (n : Nat) : LoadEnds n s (s.fenceLoad n) := by
  have hkeep : LoadEnds n s s := ⟨rfl, rfl, rfl, rfl, fun _ _ => rfl, rfl, fun _ h => h⟩
  unfold State.fenceLoad
  split
  · rename_i m _
    split
    · rename_i hm
      simp only [ne_eq, Bool.and_eq_true, decide_eq_true_eq, beq_iff_eq] at hm
      obtain ⟨hk, rfl⟩ := hm
      simp only [State.endMntErr, hk, if_false, Bool.true_or, if_true]
      refine ⟨rfl, rfl, rfl, rfl, fun k hk' => State.setCh_ch_other _ _ _ _ hk', ?_, fun i hi => raiseIf_ifstat _ 20 i hi⟩
      rw [State.modSlice, State.setSlice_ch, State.modCh, State.setCh_ch_same]
      exact spoil_frame ..
    · exact hkeep
  · exact hkeep

/-- A channel as its fence begins. -/
def Channel.fencedAt (h : Channel) (src index : Nat) : Channel :=
  { h with
    st := .fenced, err := some ⟨src, index, h.cyc % 2 ^ 32⟩, fcount := min 255 (h.fcount + 1), fencing := true
    copying := false, testLatch := false, wtest := none }

/-- The state in which the contexts of a fenced channel are placed. -/
def State.fenceStart (s : State) (n src index : Nat) : State :=
  ((s.setCh n ((s.ch n).fencedAt src index)).raiseIf n).fenceLoad n

/-- What the start of a fence changes. -/
structure FenceBegins (n src index : Nat) (s u : State) : Prop where
  ctxs : u.ctxs = s.ctxs
  tenants : u.tenants = s.tenants
  master : u.master = s.master
  other : ∀ m, m ≠ n → u.ch m = s.ch m
  same : { u.ch n with imgbadMc := (s.ch n).imgbadMc, imgbadTb := (s.ch n).imgbadTb } = (s.ch n).fencedAt src index
  line : u.ifstat.getLsbD n = true

theorem fenceBegins_fenceStart (s : State) {n : Nat} (hn : n < 8) (src index : Nat) :
    FenceBegins n src index s (s.fenceStart n src index) := by
  have h := loadEnds_fenceLoad ((s.setCh n ((s.ch n).fencedAt src index)).raiseIf n) n
  have hch : ((s.setCh n ((s.ch n).fencedAt src index)).raiseIf n).ch n = (s.ch n).fencedAt src index := by
    rw [raiseIf_ch, State.setCh_ch_same]
  have hsame := h.same
  rw [hch] at hsame
  refine ⟨h.ctxs, h.tenants, h.master, fun m hm => ?_, hsame, h.ifstat n ?_⟩
  · rw [State.fenceStart, h.other m hm, raiseIf_ch, State.setCh_ch_other _ _ _ _ hm]
  · rw [State.raiseIf, BitVec.getLsbD_or, BitVec.getLsbD_ofNat, Nat.testBit_two_pow_self, decide_eq_true (by omega : n < 21)]
    exact Bool.or_true _

/-- A channel that is READY or QUIESCING and whose clock runs is fenced at once. -/
theorem fence_eq {s : State} {n : Nat} (hst : (s.ch n).st = .ready ∨ (s.ch n).st = .quiescing) (hclk : (s.ch n).clkStop = false)
    (src index : Nat) : s.fence n src index
      = ((s.ch n).bound.foldl (fun t c => t.place n c) (s.fenceStart n src index)).modCh n Channel.fenceWipe := by
  have ho : (!((s.ch n).st == .ready || (s.ch n).st == .quiescing)) = false := by rcases hst with h | h <;> rw [h] <;> rfl
  rw [State.fence]
  exact (if_neg (by rw [ho]; decide)).trans (if_neg (by rw [hclk]; decide))

section
variable {n src index : Nat} {s u : State} (h : FenceBegins n src index s u)
include h

theorem FenceBegins.ctx (c : Nat) : u.ctx c = s.ctx c := by rw [State.ctx, h.ctxs]; rfl

theorem FenceBegins.alloc : (u.ch n).alloc = (s.ch n).alloc := (congrArg Channel.alloc h.same :)

theorem FenceBegins.reams : (u.ch n).reams = (s.ch n).reams := (congrArg Channel.reams h.same :)

theorem FenceBegins.rebindTarget (x : Ctx) : u.rebindTarget n x = s.rebindTarget n x := rebindTarget_congr h.other x

end

/-! ### A channel that holds one context -/

section
variable {s : State} {n : Nat} {a : Alloc}

/-- The fence of a channel that holds one context places that context. -/
theorem fence_one (hn : n < 8) (hst : (s.ch n).st = .ready ∨ (s.ch n).st = .quiescing) (hclk : (s.ch n).clkStop = false)
    (ha : (s.ch n).alloc = [a]) (src index : Nat) : ∃ u t, FenceBegins n src index s u ∧ Placed n a.ctx a u t
      ∧ s.fence n src index = t.modCh n Channel.fenceWipe := by
  have hu := fenceBegins_fenceStart s hn src index
  have hrec : ((s.fenceStart n src index).ch n).record a.ctx = some a := by
    rw [Channel.record, hu.alloc, ha]
    exact List.find?_cons_of_pos (beq_self_eq_true a.ctx)
  have hb : (s.ch n).bound = [a.ctx] := by rw [Channel.bound, ha]; rfl
  exact ⟨_, _, hu, placed_place hrec, by rw [fence_eq hst hclk, hb]; rfl⟩

end

/-- A context that leaves a channel keeps what is not its work. -/
theorem leftCtx_frame {s : State} {x : Ctx} (n c : Nat) (a : Alloc) (hx : s.ctx c = x) : ∃ lost note binderr,
    s.leftCtx n c a = { x.sealCap.clearWork with lost := lost, lostNow := note, binderr := binderr } := by
  subst hx
  exact ⟨_, _, _, rfl⟩

/-- A context that leaves a channel carries CTXLOST with what was lost there. -/
theorem leftCtx_lost (s : State) (n c : Nat) (a : Alloc) : (s.leftCtx n c a).lost = lostRecord (s.ch n) a (s.ctx c) :=
  lostRecord_or ..

end Sys2Proof.Machine

namespace Sys2Proof
open Sys2Proof.Machine Sys2Proof.Safety

/-- Settles O53, by the placement of the one context and the fields of CTXLOST. -/
theorem fenceMovesOrFaultsAContext : Obligations.FenceMovesOrFaultsAContext := by
  unfold Obligations.FenceMovesOrFaultsAContext
  intro s n a hs hst hclk ha hwait x LostTo
  have hexec : exec (.fence n) s = .next (s.initDone.fence n.val 0x8 0) := by rw [exec, execFence, ctl_commanded hs]
  obtain ⟨u, t, hu, ht, hf⟩ := fence_one (s := s.initDone) n.isLt hst hclk ha 0x8 0
  have hx : u.ctx a.ctx = x := hu.ctx a.ctx
  have hctx : ∀ d, (t.modCh n.val Channel.fenceWipe).ctx d = t.ctx d := fun _ => rfl
  have hlost : (u.leftCtx n.val a.ctx a).lost = lostRecord (s.ch n.val) a x := by
    rw [leftCtx_lost, hx]
    exact lostRecord_congr hu.reams a x
  have htells : ∀ y : Ctx, (t.modCh n.val Channel.fenceWipe).ctx a.ctx = y → y.lost = (u.leftCtx n.val a.ctx a).lost →
      LostTo (t.modCh n.val Channel.fenceWipe) := by
    intro y hy hl
    have := lostTells_lostRecord (s.ch n.val) a x
    rw [← hlost, ← hl, ← hy] at this
    exact this
  obtain ⟨lost, note, binderr, hleft⟩ := leftCtx_frame n.val a.ctx a hx
  have hmoved := ht.moved
  have hstuck := ht.stuck
  rw [hx, hu.rebindTarget] at hmoved hstuck
  have hno : x.restores = false := by rw [Ctx.restores, hwait]; rfl
  refine ⟨fun m hm => ?_, fun hm => ?_⟩
  · obtain ⟨hmn, htakes⟩ := rebindTarget_takes hm
    obtain ⟨base, hbase⟩ := (takes_ready htakes).2
    obtain ⟨⟨slots, hslots, hy⟩, hch, -⟩ := hmoved m hm
    have hum : u.ch m = s.ch m := hu.other m hmn
    rw [hno, if_neg Bool.false_ne_true, State.reboundCtx, hleft, hx, hum, hbase, Option.getD_some] at hy
    rw [hum, hbase, Option.getD_some] at hch
    refine ⟨_, base, hexec.trans (congrArg _ hf), hbase, ?_⟩
    rw [hctx, hy]
    refine ⟨rfl, ?_, rfl, rfl, rfl, rfl, rfl, rfl, rfl, rfl, hslots, fun i h1 h2 => ?_, htells _ ((hctx _).trans hy) (by rw [hleft])⟩
    · simp only [beq_iff_eq]
    · rw [State.modCh, State.setCh_ch_other _ _ _ _ hmn, hch, take_ream, if_pos ⟨h1, h2⟩]
  · obtain ⟨hy, -⟩ := hstuck hm
    rw [State.stuckCtx, hleft, hx] at hy
    refine ⟨_, hexec.trans (congrArg _ hf), ?_⟩
    rw [hctx, hy]
    exact ⟨rfl, rfl, rfl, rfl, htells _ ((hctx _).trans hy) (by rw [hleft])⟩

end Sys2Proof
end

section
/-! SUPPORT. A fence whatever its cause: every context leaves its channel (R276, R360, R362, R365 to R369). -/
namespace Sys2Proof.Machine
open Sys2Proof.Safety

/-! ### The contexts of a fenced channel -/

/-- A channel holds an allocation record of a context. -/
def Holds (h : Channel) (c : Nat) : Prop := ∃ a ∈ h.alloc, a.ctx = c

/-- A context has no run and stands on another channel that is READY, or is FAULTED; its tenant is told of it. One that was FAULTED stays so
unless a RESTORE waits. -/
structure Rehomed (n c : Nat) (s t : State) : Prop where
  runs : (t.ctx c).runs = []
  home : (t.ctx c).chan ≠ n ∧ (s.ch (t.ctx c).chan).st = .ready ∨ (t.ctx c).st = .faulted
  rebind : (t.tenant (s.ctx c).ten).tevpend.getLsbD 2 = true
  faulted : (s.ctx c).st = .faulted → (s.ctx c).restoreWait = false → (t.ctx c).st = .faulted
    ∧ ((s.ctx c).faultcode ≠ 0 → (t.ctx c).faultcode = (s.ctx c).faultcode)

/-- Some contexts of channel n have left it, and nothing else of what a fence tells differs. -/
structure Empties (n : Nat) (s t : State) : Prop where
  master : t.master = s.master
  ifstat : t.ifstat = s.ifstat
  st : ∀ m, (t.ch m).st = (s.ch m).st
  err : (t.ch n).err = (s.ch n).err
  fencing : (t.ch n).fencing = (s.ch n).fencing
  fcount : (t.ch n).fcount = (s.ch n).fcount
  cyc : (t.ch n).cyc = (s.ch n).cyc
  alloc : ∀ a ∈ (t.ch n).alloc, a ∈ (s.ch n).alloc
  events : EventsStay s t
  ctx : ∀ c, t.ctx c = s.ctx c ∧ (Holds (s.ch n) c → Holds (t.ch n) c)
    ∨ Holds (s.ch n) c ∧ ¬ Holds (t.ch n) c ∧ Rehomed n c s t

theorem Empties.refl (n : Nat) (s : State) : Empties n s s :=
  ⟨rfl, rfl, fun _ => rfl, rfl, rfl, rfl, rfl, fun _ h => h, fun _ _ h => h, fun _ => .inl ⟨rfl, id⟩⟩

theorem Empties.holds {n c : Nat} {s t : State} (h : Empties n s t) (hc : Holds (t.ch n) c) : Holds (s.ch n) c := by
  obtain ⟨a, ha, hac⟩ := hc
  exact ⟨a, h.alloc a ha, hac⟩

theorem Empties.trans {n : Nat} {s t u : State} (h : Empties n s t) (k : Empties n t u) : Empties n s u where
  master := k.master.trans h.master
  ifstat := k.ifstat.trans h.ifstat
  st := fun m => (k.st m).trans (h.st m)
  err := k.err.trans h.err
  fencing := k.fencing.trans h.fencing
  fcount := k.fcount.trans h.fcount
  cyc := k.cyc.trans h.cyc
  alloc := fun a ha => h.alloc a (k.alloc a ha)
  events := h.events.trans k.events
  ctx := fun c => by
    rcases h.ctx c with ⟨hctx, hstay⟩ | ⟨hs, ht, hr⟩
    · rcases k.ctx c with ⟨kctx, kstay⟩ | ⟨ks, kt, kr⟩
      · exact .inl ⟨kctx.trans hctx, fun hc => kstay (hstay hc)⟩
      · obtain ⟨runs, home, rebind, faulted⟩ := kr
        rw [hctx] at rebind faulted
        rw [h.st] at home
        exact .inr ⟨h.holds ks, kt, runs, home, rebind, faulted⟩
    · rcases k.ctx c with ⟨kctx, -⟩ | ⟨ks, -, -⟩
      · obtain ⟨runs, home, rebind, faulted⟩ := hr
        rw [← kctx] at runs home faulted
        exact .inr ⟨hs, fun hu => ht (k.holds hu), runs, home, k.events _ _ rebind, faulted⟩
      · exact (ht ks).elim

/-- Giving a context's resources back leaves what a fence tells of a channel. -/
theorem give_frame (h : Channel) (c : Nat) : { h.give c with
    alloc := h.alloc, reams := h.reams, loft := h.loft, credits := h.credits, couch := h.couch, sorter := h.sorter, scanRes := h.scanRes
    due := h.due, laneRes := h.laneRes, treeRes := h.treeRes, holders := h.holders } = h := by
  unfold Channel.give
  cases h.record c with
  | none => rfl
  | some a => exact (congrArg (fun g : Channel => { g with
      alloc := h.alloc, reams := h.reams, loft := h.loft, credits := h.credits, couch := h.couch, sorter := h.sorter
      scanRes := h.scanRes, due := h.due, laneRes := h.laneRes, treeRes := h.treeRes, holders := h.holders })
    (unsetBlock_frame h a.ream a.reams h.reams) :)

theorem take_st (h : Channel) (c vat base reams loft : Nat) : (h.take c vat base reams loft).st = h.st :=
  (congrArg Channel.st (take_rest h c vat base reams loft []) :)

theorem holds_give {h : Channel} {c d : Nat} : Holds (h.give c) d ↔ Holds h d ∧ d ≠ c := by
  rw [Holds, give_alloc]
  constructor
  · rintro ⟨a, ha, rfl⟩
    obtain ⟨hm, hne⟩ := List.mem_filter.mp ha
    exact ⟨⟨a, hm, rfl⟩, by simpa using hne⟩
  · rintro ⟨⟨a, hm, rfl⟩, hne⟩
    exact ⟨a, List.mem_filter.mpr ⟨hm, by simpa using hne⟩, rfl⟩

/-- A context that is placed has left the channel. -/
theorem empties_of_placed {s t : State} {n c : Nat} {a : Alloc} (hrec : (s.ch n).record c = some a) (h : Placed n c a s t) :
    Empties n s t ∧ ¬ Holds (t.ch n) c := by
  obtain ⟨mine, hn⟩ := h.source
  have hg := give_frame ((s.ch n).giveLines c mine) c
  rw [← hn] at hg
  have hstn : (t.ch n).st = (s.ch n).st := (congrArg Channel.st hg :)
  have hholds : ∀ d, Holds (t.ch n) d ↔ Holds (s.ch n) d ∧ d ≠ c := fun d => by
    rw [hn]
    exact holds_give
  have hc : Holds (s.ch n) c := ⟨a, List.mem_of_find?_eq_some hrec, by simpa using List.find?_some hrec⟩
  have hother : ∀ d, d ≠ c → t.ctx d = s.ctx d ∧ (Holds (s.ch n) d → Holds (t.ch n) d) := fun d hd =>
    ⟨h.others d hd, fun hh => (hholds d).mpr ⟨hh, hd⟩⟩
  have hgone : ¬ Holds (t.ch n) c := fun hh => ((hholds c).mp hh).2 rfl
  have hst : (∀ m, (t.ch m).st = (s.ch m).st) ∧ Rehomed n c s t := by
    cases hm : s.rebindTarget n (s.ctx c) with
    | some m =>
      obtain ⟨hmn, htakes⟩ := rebindTarget_takes hm
      obtain ⟨⟨slots, -, hctx⟩, hch, hrest⟩ := h.moved m hm
      refine ⟨fun k => ?_, ?_⟩
      · by_cases hkn : k = n
        · rw [hkn, hstn]
        by_cases hkm : k = m
        · rw [hkm, hch, take_st]
        · rw [hrest k hkn hkm]
      · have hchan : (t.ctx c).chan = m := by rw [hctx]; split <;> rfl
        refine ⟨by rw [hctx]; split <;> rfl, .inl ⟨by rw [hchan]; exact hmn, by rw [hchan]; exact (takes_ready htakes).1⟩, h.rebind,
          fun hf hw => ?_⟩
        have hno : (s.ctx c).restores = false := by rw [Ctx.restores, hw]; rfl
        rw [hctx, hno, if_neg Bool.false_ne_true]
        refine ⟨?_, fun _ => rfl⟩
        rw [State.reboundCtx, hf]; rfl
    | none =>
      obtain ⟨hctx, hrest⟩ := h.stuck hm
      refine ⟨fun k => ?_, by rw [hctx]; rfl, .inr (by rw [hctx]; rfl), h.rebind, fun _ _ => by rw [hctx]; exact ⟨rfl, fun h0 => if_neg h0⟩⟩
      by_cases hkn : k = n
      · rw [hkn, hstn]
      · rw [hrest k hkn]
  refine ⟨⟨h.master, h.ifstat, hst.1, (congrArg Channel.err hg :), (congrArg Channel.fencing hg :), (congrArg Channel.fcount hg :),
    (congrArg Channel.cyc hg :), fun b hb => ?_, h.events, fun d => ?_⟩, hgone⟩
  · rw [hn, give_alloc] at hb
    exact (List.mem_filter.mp hb).1
  · by_cases hd : d = c
    · exact .inr (hd ▸ ⟨hc, hgone, hst.2⟩)
    · exact .inl (hother d hd)

theorem empties_place (s : State) (n c : Nat) : Empties n s (s.place n c) ∧ ¬ Holds ((s.place n c).ch n) c := by
  cases hrec : (s.ch n).record c with
  | some a => exact empties_of_placed hrec (placed_place hrec)
  | none =>
    have hs : s.place n c = s := by rw [State.place, hrec]
    rw [hs]
    refine ⟨Empties.refl n s, ?_⟩
    rintro ⟨a, ha, rfl⟩
    simpa using List.find?_eq_none.mp hrec a ha

theorem empties_foldl_place (n : Nat) (l : List Nat) (s : State) : Empties n s (l.foldl (fun t c => t.place n c) s)
    ∧ ∀ c ∈ l, ¬ Holds ((l.foldl (fun t c => t.place n c) s).ch n) c := by
  induction l generalizing s with
  | nil => exact ⟨Empties.refl n s, fun _ hc => (List.not_mem_nil hc).elim⟩
  | cons d l ih =>
    obtain ⟨h1, hgone⟩ := empties_place s n d
    obtain ⟨h2, hall⟩ := ih (s.place n d)
    refine ⟨h1.trans h2, fun c hc => ?_⟩
    rcases List.mem_cons.mp hc with rfl | hc
    · exact fun hh => hgone (h2.holds hh)
    · exact hall c hc

/-! ### The fence -/

/-- What a fence leaves of contexts: those that the channel does not hold stay, and a FAULTED one without a RESTORE that waits stays
FAULTED. -/
structure FenceKeeps (n : Nat) (s t : State) : Prop where
  other : ∀ c, ¬ Holds (s.ch n) c → t.ctx c = s.ctx c
  faulted : ∀ c, (s.ctx c).st = .faulted → (s.ctx c).restoreWait = false → (t.ctx c).st = .faulted
    ∧ ((s.ctx c).faultcode ≠ 0 → (t.ctx c).faultcode = (s.ctx c).faultcode)

theorem fenceWipe_kept (h : Channel) : h.fenceWipe.st = h.st ∧ h.fenceWipe.err = h.err ∧ h.fenceWipe.fencing = h.fencing
    ∧ h.fenceWipe.fcount = h.fcount ∧ h.fenceWipe.alloc = h.alloc ∧ h.fenceWipe.cyc = h.cyc := ⟨rfl, rfl, rfl, rfl, rfl, rfl⟩

/-- A channel that is READY or QUIESCING and whose clock runs is fenced. -/
theorem fenced_fence {s : State} {n : Nat} (hn : n < 8) (hst : (s.ch n).st = .ready ∨ (s.ch n).st = .quiescing)
    (hclk : (s.ch n).clkStop = false) (src index : Nat) :
    Fenced n src index s (s.fence n src index) ∧ FenceKeeps n s (s.fence n src index) := by
  have hu := fenceBegins_fenceStart s hn src index
  have hbegin := hu.same
  rw [fence_eq hst hclk]
  generalize s.fenceStart n src index = u at hu hbegin ⊢
  obtain ⟨hw, hgone⟩ := empties_foldl_place n (s.ch n).bound u
  generalize (s.ch n).bound.foldl (fun t c => t.place n c) u = w at hw hgone ⊢
  have hctx : ∀ c, (w.modCh n Channel.fenceWipe).ctx c = w.ctx c := fun _ => rfl
  have hch : (w.modCh n Channel.fenceWipe).ch n = (w.ch n).fenceWipe := State.setCh_ch_same ..
  have hother : ∀ m, m ≠ n → (w.modCh n Channel.fenceWipe).ch m = w.ch m := fun m hm => State.setCh_ch_other _ _ _ _ hm
  obtain ⟨kst, kerr, kfencing, kfcount, kalloc, kcyc⟩ := fenceWipe_kept (w.ch n)
  have hold : ∀ c, Holds (u.ch n) c ↔ Holds (s.ch n) c := fun c => by rw [Holds, hu.alloc]; rfl
  have hempty : (w.ch n).alloc = [] := by
    refine List.eq_nil_iff_forall_not_mem.mpr fun a ha => ?_
    have hb : a.ctx ∈ (s.ch n).bound := mem_bound.mpr ((hold a.ctx).mp ⟨a, hw.alloc a ha, rfl⟩)
    exact hgone a.ctx hb ⟨a, ha, rfl⟩
  refine ⟨⟨?_, ?_, ?_, ?_, ?_, ?_, ?_, ?_, ?_, ?_, ?_, ?_, fun a ha => ?_, ?_⟩, fun c hc => ?_, fun c hf hr => ?_⟩
  · rw [hch, kst, hw.st]
    exact (congrArg Channel.st hbegin :)
  · rw [hch, kerr, hw.err]
    exact (congrArg Channel.err hbegin :)
  · rw [hch, kfencing, hw.fencing]
    exact (congrArg Channel.fencing hbegin :)
  · rw [hch, kfcount, hw.fcount]
    exact (congrArg Channel.fcount hbegin :)
  · exact (congrArg (BitVec.getLsbD · n) hw.ifstat).trans hu.line
  · rw [hch, kalloc, hempty]
  · rw [hch]; rfl
  · rw [hch]; rfl
  · rw [hch]; rfl
  · rw [hch]; rfl
  · rw [hch]; rfl
  · rw [hch, kcyc, hw.cyc]
    exact (congrArg Channel.cyc hbegin :)
  · rcases hw.ctx a.ctx with ⟨-, hstay⟩ | ⟨-, -, runs, home, rebind, -⟩
    · obtain ⟨b, hb, -⟩ := hstay ((hold _).mpr ⟨a, ha, rfl⟩)
      rw [hempty] at hb
      exact (List.not_mem_nil hb).elim
    · rw [hctx]
      rw [hu.ctx] at rebind
      refine ⟨runs, home.imp (fun ⟨hne, hr⟩ => ⟨hne, ?_⟩) id, rebind⟩
      rw [hother _ hne, hw.st]
      exact hr
  · exact hw.master.trans hu.master
  · rcases hw.ctx c with ⟨h, -⟩ | ⟨hc', -, -⟩
    · rw [hctx, h, hu.ctx]
    · exact (hc ((hold c).mp hc')).elim
  · rw [hctx]
    rcases hw.ctx c with ⟨h, -⟩ | ⟨-, -, -, -, -, faulted⟩
    · rw [h, hu.ctx]
      exact ⟨hf, fun _ => rfl⟩
    · rw [hu.ctx] at faulted
      exact faulted hf hr

theorem fence_ignored {s : State} {n : Nat} (h1 : (s.ch n).st ≠ .ready) (h2 : (s.ch n).st ≠ .quiescing) (src index : Nat) :
    s.fence n src index = s := by
  simp [State.fence, h1, h2]

/-- A fence of a channel whose clock has stopped waits for the clock (R383). -/
theorem fence_waits {s : State} {n : Nat} (hst : (s.ch n).st = .ready ∨ (s.ch n).st = .quiescing) (hclk : (s.ch n).clkStop = true)
    (src index : Nat) :
    s.fence n src index = s.setCh n { s.ch n with fenceLatch := some ((s.ch n).fenceLatch.getD (src, index)) } := by
  have ho : (!((s.ch n).st == .ready || (s.ch n).st == .quiescing)) = false := by rcases hst with h | h <;> rw [h] <;> rfl
  rw [State.fence]
  exact (if_neg (by rw [ho]; decide)).trans (if_pos hclk)

/-! ### What precedes a fence -/

/-- What a fence tells does not depend on the rest of the state in which it is made. -/
theorem fenced_of_same {n src index : Nat} {s u t : State} (hcyc : (u.ch n).cyc = (s.ch n).cyc) (hcount : (u.ch n).fcount = (s.ch n).fcount)
    (halloc : (u.ch n).alloc = (s.ch n).alloc) (hten : ∀ c, (u.ctx c).ten = (s.ctx c).ten) (hmaster : u.master = s.master)
    (h : Fenced n src index u t) : Fenced n src index s t := by
  simpa only [Fenced, hcyc, hcount, halloc, hten, hmaster] using h

/-- Nothing but the loss bits and marks of one context, and the Loft lines of a channel, differs. -/
structure LineLost (n c : Nat) (s t : State) : Prop where
  master : t.master = s.master
  others : ∀ d, d ≠ c → t.ctx d = s.ctx d
  ten : ∀ d, (t.ctx d).ten = (s.ctx d).ten
  ch : { t.ch n with loft := (s.ch n).loft } = s.ch n

theorem LineLost.modCtx {n c : Nat} {s t : State} (h : LineLost n c s t) (f : Ctx → Ctx) (hf : ∀ x, (f x).ten = x.ten) :
    LineLost n c s (t.modCtx c f) := by
  refine ⟨h.master, fun d hd => (State.setCtx_ctx_other _ _ _ _ hd).trans (h.others d hd), fun d => ?_, h.ch⟩
  by_cases hd : d = c
  · rw [hd, State.modCtx, State.setCtx_ctx_same, hf, h.ten]
  · rw [State.modCtx, State.setCtx_ctx_other _ _ _ _ hd, h.ten]

theorem lineLost_loseLine (s : State) (n : Nat) (l : LoftLine) : LineLost n l.owner s (s.loseLine n l) := by
  have hdrop : LineLost n l.owner s (s.modCh n fun h => h.dropLine l.idx) := by
    refine ⟨rfl, fun _ _ => rfl, fun _ => rfl, ?_⟩
    rw [State.modCh, State.setCh_ch_same]
    rfl
  have hloss := hdrop.modCtx (fun x => { x with
    lost := x.lost ||| 8
    lostNow := some (s.uc, madeIn x.lostNow s.uc ||| 8) }) fun _ => rfl
  unfold State.loseLine
  extract_lets reported t u
  split
  · exact hdrop
  · split
    · exact hloss.modCtx _ fun _ => rfl
    · exact hloss

/-! ### A context fault -/

/-- What a fault leaves of a channel: all but the work on it. -/
def Channel.lasting (h : Channel) : Channel :=
  { h with reams := [], due := [], egress := [], couch := [], lapsed := [], credits := [], sorter := [], laneRes := [], treeRes := []
           scanRes := [], reelRes := [], loft := [] }

theorem lasting_abandoned (h : Channel) (c : Nat) (sers : List Nat) : (h.abandoned c sers).lasting = h.lasting :=
  (congrArg Channel.lasting (abandonedCh_frame h c sers) :)

theorem lasting_of_loft {g h : Channel} (e : { g with loft := h.loft } = h) : g.lasting = h.lasting := (congrArg Channel.lasting e :)

/-- What the counting of an error and a fence read. -/
theorem lasting_kept {g h : Channel} (e : g.lasting = h.lasting) : g.st = h.st ∧ g.clkStop = h.clkStop ∧ g.cyc = h.cyc
    ∧ g.fcount = h.fcount ∧ g.alloc = h.alloc ∧ g.fcfg = h.fcfg ∧ g.resWin = h.resWin ∧ g.resCnt = h.resCnt :=
  ⟨(congrArg Channel.st e :), (congrArg Channel.clkStop e :), (congrArg Channel.cyc e :), (congrArg Channel.fcount e :),
    (congrArg Channel.alloc e :), (congrArg Channel.fcfg e :), (congrArg Channel.resWin e :), (congrArg Channel.resCnt e :)⟩

/-- A fault changes its context, the work on the channels, and the waiting accesses of its context. -/
structure FaultKeeps (c : Nat) (s t : State) : Prop where
  master : t.master = s.master
  others : ∀ d, d ≠ c → t.ctx d = s.ctx d
  restoreWait : (t.ctx c).restoreWait = (s.ctx c).restoreWait
  ten : (t.ctx c).ten = (s.ctx c).ten
  ch : ∀ n, (t.ch n).lasting = (s.ch n).lasting
  slice : ∀ n, { t.slice n with wait := (s.slice n).wait } = s.slice n
  wait : ∀ n, ∀ a ∈ (t.slice n).wait, a ∈ (s.slice n).wait

theorem abandonedCtx_restoreWait (x : Ctx) : x.abandoned.restoreWait = x.restoreWait :=
  (congrArg Ctx.restoreWait (abandonedCtx_frame x) :)

theorem withoutWork_lasting (s : State) (c n : Nat) : ((s.withoutWork c).ch n).lasting = (s.ch n).lasting := by
  rw [State.withoutWork, State.setCtx_ch]
  by_cases hn : n = s.chanOf c
  · rw [hn, State.setCh_ch_same, lasting_abandoned]
  · rw [State.setCh_ch_other _ _ _ _ hn]

theorem Cancels.master {c : Nat} {s t : State} (h : Cancels c s t) : t.master = s.master := (congrArg State.master h.frame :)

theorem Cancels.restoreWait {c : Nat} {s t : State} (h : Cancels c s t) : (t.ctx c).restoreWait = (s.ctx c).restoreWait :=
  (congrArg Ctx.restoreWait h.own :)

theorem faultKeeps_abandon (s : State) (c : Nat) : FaultKeeps c s (s.abandon c) := by
  have h := cancels_abandon s c
  have hw := withoutWork_lasting s c
  have hten := (abandon_same s c).ten
  have hmaster : (s.withoutWork c).master = s.master := by rw [State.withoutWork, State.setCtx_master, State.setCh_master]
  have hwait : ((s.withoutWork c).ctx c).restoreWait = (s.ctx c).restoreWait := by
    rw [State.withoutWork, State.setCtx_ctx_same, abandonedCtx_restoreWait]
  have hother : ∀ d, d ≠ c → (s.withoutWork c).ctx d = s.ctx d := fun d hd => State.setCtx_ctx_other _ _ _ _ hd
  have hslice : ∀ n, (s.withoutWork c).slice n = s.slice n := fun _ => rfl
  generalize s.withoutWork c = w at h hw hmaster hwait hother hslice
  generalize s.abandon c = t at h hten ⊢
  refine ⟨h.master.trans hmaster, fun d hd => (h.others d hd).trans (hother d hd), h.restoreWait.trans hwait, hten,
    fun n => (lasting_of_loft (h.ch n)).trans (hw n), fun n => ?_, fun n => ?_⟩
  · rw [← hslice]
    exact h.slice n
  · rw [← hslice]
    exact h.wait n

/-- A change of the context's entry is one that a fault may make. -/
theorem FaultKeeps.setCtx {c : Nat} {s t : State} (h : FaultKeeps c s t) {x : Ctx} (hx : x.restoreWait = (t.ctx c).restoreWait)
    (ht : x.ten = (t.ctx c).ten) : FaultKeeps c s (t.setCtx c x) :=
  ⟨h.master, fun d hd => (State.setCtx_ctx_other _ _ _ _ hd).trans (h.others d hd),
    by rw [State.setCtx_ctx_same, hx, h.restoreWait], by rw [State.setCtx_ctx_same, ht, h.ten], h.ch, h.slice, h.wait⟩

theorem FaultKeeps.tev {c : Nat} {s t : State} (h : FaultKeeps c s t) (m b : Nat) : FaultKeeps c s (t.tev m b) :=
  ⟨h.master, h.others, h.restoreWait, h.ten, h.ch, h.slice, h.wait⟩

theorem settleChanges_restoreWait (x : Ctx) (qs : List SlotChange) : (x.settleChanges qs).restoreWait = x.restoreWait :=
  (congrArg Ctx.restoreWait (settleChanges_frame qs x) :)

theorem faultKeeps_fault {s : State} {c : Nat} (hst : (s.ctx c).st = .bound ∨ (s.ctx c).st = .running) (code : Nat) (iflt : BitVec 64) :
    FaultKeeps c s (s.fault c code iflt) := by
  have hfree : ((s.ctx c).st == .free) = false := by rcases hst with h | h <;> rw [h] <;> rfl
  have hflt : ((s.ctx c).st == .faulted) = false := by rcases hst with h | h <;> rw [h] <;> rfl
  have hopen : ((s.ctx c).st == .bound || (s.ctx c).st == .running) = true := by rcases hst with h | h <;> rw [h] <;> rfl
  have hslots : FaultKeeps c s ((s.abandon c).settleSlots c) := by
    have h := faultKeeps_abandon s c
    rcases settleSlots_cases (s.abandon c) c with he | he <;> rw [he]
    · exact h
    · exact h.setCtx (settleChanges_restoreWait ..) (settleChanges_same ..).ten
  simp only [State.fault, hfree, hflt, hopen, Bool.false_eq_true, if_false, if_true]
  generalize (s.abandon c).settleSlots c = u at hslots ⊢
  refine FaultKeeps.tev (FaultKeeps.setCtx hslots ?_ ?_) _ _
  · rfl
  · rfl

theorem FaultKeeps.tens {c : Nat} {s t : State} (h : FaultKeeps c s t) (d : Nat) : (t.ctx d).ten = (s.ctx d).ten := by
  by_cases hd : d = c
  · rw [hd, h.ten]
  · rw [h.others d hd]

/-- An error of a context that is counted as the last of its window: the context faults, and its channel is fenced (R365). -/
theorem ownerError_fences {s u : State} {c code n : Nat} (hu : u = s.fault c code 0) (hn : s.chanOf c = n) (hh : s.hosted c = true)
    (hst : (s.ctx c).st = .bound ∨ (s.ctx c).st = .running) (hlim : (s.ch n).fcfg.extractLsb' 11 4 ≠ 0#4)
    (hcnt : (if (s.ch n).resWin = (s.ch n).cyc / 2 ^ 24 then (s.ch n).resCnt else 0) + 1
      = ((s.ch n).fcfg.extractLsb' 11 4).toNat) :
    ∃ win cnt, s.ownerError c code = (u.setCh n { u.ch n with resWin := win, resCnt := cnt }).fence n 0x7 0 := by
  have hopen : (s.hosted c && ((s.ctx c).st == .bound || (s.ctx c).st == .running || (s.ctx c).st == .draining)) = true := by
    rcases hst with h | h <;> rw [hh, h] <;> rfl
  obtain ⟨-, -, hcyc, -, -, hcfg, hwin, hrc⟩ := lasting_kept ((faultKeeps_fault hst code 0).ch n)
  rw [← hu] at hcyc hcfg hwin hrc
  have hne : ((s.ch n).fcfg.extractLsb' 11 4).toNat ≠ 0 := fun h0 => hlim (BitVec.eq_of_toNat_eq h0)
  refine ⟨(s.ch n).cyc / 2 ^ 24, ((s.ch n).fcfg.extractLsb' 11 4).toNat, ?_⟩
  rw [State.ownerError]
  refine (if_pos hopen).trans ?_
  rw [← hu, hn]
  simp only [State.countError, hwin, hrc, hcyc, hcfg, hcnt]
  exact if_pos (by rw [Bool.and_eq_true]; exact ⟨decide_eq_true hne, beq_self_eq_true _⟩)

end Sys2Proof.Machine

namespace Sys2Proof
open Sys2Proof.Machine Sys2Proof.Safety

/-- Settles O52: a fence is the same whatever its cause, and what precedes it leaves what it tells of. -/
theorem fenceEmptiesItsChannel : Obligations.FenceEmptiesItsChannel := by
  unfold Obligations.FenceEmptiesItsChannel
  refine ⟨?_, ?_⟩
  · intro s n k src i hs hu hk h
    have hplain : exec k s = .next (s.fence n.val src i.toNat) →
        (h.st ≠ .ready → h.st ≠ .quiescing → exec k s = .next s)
        ∧ (h.st = .ready ∨ h.st = .quiescing → h.clkStop = true → src ≠ 2 →
          exec k s = .next (s.setCh n.val { h with fenceLatch := some (h.fenceLatch.getD (src, i.toNat)) }))
        ∧ (h.st = .ready ∨ h.st = .quiescing → h.clkStop = false → ∃ t, exec k s = .next t ∧ Fenced n.val src i.toNat s t
          ∧ (∀ c, (∀ a ∈ h.alloc, a.ctx ≠ c) → t.ctx c = s.ctx c)) := by
      intro hexec
      rw [hexec]
      refine ⟨fun h1 h2 => by rw [fence_ignored h1 h2], fun h1 h2 _ => by rw [fence_waits h1 h2], fun h1 h2 => ?_⟩
      obtain ⟨hf, hkeep⟩ := fenced_fence n.isLt h1 h2 src i.toNat
      exact ⟨_, rfl, hf, fun c hc => hkeep.other c fun ⟨a, ha, hac⟩ => hc a ha hac⟩
    have herr : ∀ u i, exec (.uncorrectableError u i) s = .next (s.uncorrectable u i.toNat) := fun u i => by
      rw [exec, execUncorrectableError, hw_inside hs.1]
    rcases hk with ⟨rfl, rfl, rfl, hb⟩ | ⟨⟨c, rfl⟩, rfl⟩ | ⟨⟨c, line, rfl, hwb, hown⟩, rfl⟩ | ⟨⟨c, r, rfl⟩, rfl⟩ | ⟨rfl, rfl⟩ | ⟨rfl, rfl⟩
      | ⟨rfl, rfl⟩
    · exact hplain (by rw [exec, execFence, ctl_ready hs hb hu]; rfl)
    · exact hplain (herr ..)
    · have hnowb : (s.ch n.val).wb.find? (fun l => l.idx == line) = none := List.find?_eq_none.mpr fun l hl => by simpa using hwb l hl
      cases hl : (s.ch n.val).loft.find? fun l => l.idx == line with
      | none =>
        refine hplain ((herr ..).trans (congrArg _ ?_))
        simp only [State.uncorrectable, hnowb, hl]
        rfl
      | some l =>
        have hexec : exec (.uncorrectableError (.loft n (some c) line) i) s = .next
            (if (s.ch n.val).st == .ready || (s.ch n.val).st == .quiescing then (s.loseLine n.val l).fence n.val 0x2 i.toNat else s) := by
          rw [herr, State.uncorrectable, hnowb, hl]
        have hloss := lineLost_loseLine s n.val l
        obtain ⟨hst, hclk, hcyc, hcount, halloc, -⟩ := lasting_kept (lasting_of_loft hloss.ch)
        rw [hexec]
        refine ⟨fun h1 h2 => by simp [h, h1, h2], fun _ _ h2 => (h2 rfl).elim, fun h1 h2 => ?_⟩
        rw [if_pos (by rcases h1 with h1 | h1 <;> rw [h1] <;> rfl)]
        obtain ⟨hf, hkeep⟩ := fenced_fence n.isLt (hst.symm ▸ h1) (hclk.trans h2) 0x2 i.toNat
        refine ⟨_, rfl, fenced_of_same hcyc hcount halloc hloss.ten hloss.master hf, fun d hd => ?_⟩
        rw [hkeep.other d fun ⟨a, ha, had⟩ => hd a (halloc ▸ ha) had]
        refine hloss.others d fun heq => ?_
        obtain ⟨a, ha, hao⟩ := hown l (List.mem_of_find?_eq_some hl) (by simpa using List.find?_some hl)
        exact hd a ha (hao.trans heq.symm)
    · exact hplain (herr ..)
    · exact hplain (herr ..)
    · exact hplain (herr ..)
    · exact hplain (by rw [exec, execParityError, hw_inside hs.1]; rfl)
  · intro s n k c code hs hk h x hh hn hst hw hsn hclk hlim hcnt
    have hexec : exec k s = .next (s.ownerError c.val code) := by
      rcases hk with ⟨rfl, rfl⟩ | ⟨⟨i, rfl⟩, rfl⟩
      · rw [exec, execResidueError, hw_inside hs]; rfl
      · rw [exec, execParityError, hw_inside hs]
        simp only [State.parity, hn, beq_self_eq_true, if_true]
        rfl
    have hcode : code ≠ 0 := by rcases hk with ⟨-, rfl⟩ | ⟨-, rfl⟩ <;> decide
    have hkeep := faultKeeps_fault hst code 0
    obtain ⟨hfst, hfcode, -⟩ := fault_taken (s := s) (c := c.val) code 0 hst
    obtain ⟨u, hu⟩ : ∃ u, u = s.fault c.val code 0 := ⟨_, rfl⟩
    rw [← hu] at hkeep hfst hfcode
    obtain ⟨win, cnt, hown⟩ := ownerError_fences hu hn hh hst hlim hcnt
    obtain ⟨kst, kclk, kcyc, kcount, kalloc, -⟩ := lasting_kept (hkeep.ch n.val)
    let v := u.setCh n.val { u.ch n.val with resWin := win, resCnt := cnt }
    have hv : v.ch n.val = { u.ch n.val with resWin := win, resCnt := cnt } := State.setCh_ch_same ..
    obtain ⟨hf, hfk⟩ := fenced_fence (s := v) n.isLt (by rw [hv]; exact kst ▸ hsn) (by rw [hv]; exact kclk.trans hclk) 0x7 0
    obtain ⟨hst', hcode'⟩ := hfk.faulted c.val hfst (hkeep.restoreWait.trans hw)
    refine ⟨_, hexec.trans (congrArg _ hown), fenced_of_same (u := v) (by rw [hv]; exact kcyc) (by rw [hv]; exact kcount)
      (by rw [hv]; exact kalloc) hkeep.tens hkeep.master hf, hst', ?_⟩
    have hfc : (v.ctx c.val).faultcode = if (s.ctx c.val).faultcode = 0 then code else (s.ctx c.val).faultcode := hfcode
    rw [hcode' ?_, hfc]
    rw [hfc]
    split
    · exact hcode
    · assumption

end Sys2Proof
end

section
/-! SUPPORT. The issue of a Felt access: which access is judged, the tag that it takes, and the failure of a window check (R267, R356 to
R358). -/
namespace Sys2Proof.Machine
open Sys2Proof.Safety

/-! ### Whether an access may leave -/

/-- A sampling record leaves after those of its context before it (R254). -/
def State.sampleTurn (s : State) (q : Slice) (a : FeltAcc) : Bool :=
  (q.wait.find? fun b => b.ctx == a.ctx && b.isSample) == some a && !s.issued fun b => b.ctx == a.ctx && b.isSample

section
variable {s : State} {q : Slice} {a : FeltAcc}

theorem ready_of_sample {r : Nat} (h : a.kind = .sample r) : s.ready q a = (!s.blockBusy (s.address a) && s.sampleTurn q a) := by
  simp [State.ready, FeltAcc.isSample, h, State.sampleTurn]

theorem ready_of_home {k : Nat} (h : a.kind = .home k ∨ a.kind = .straight k) :
    s.ready q a = (!s.blockBusy (s.address a) && !s.writingBack a.ctx a.line) := by
  rcases h with h | h <;> simp [State.ready, FeltAcc.isSample, h]

theorem ready_of_other (h : ∀ k, a.kind ≠ .sample k ∧ a.kind ≠ .home k ∧ a.kind ≠ .straight k) :
    s.ready q a = !s.blockBusy (s.address a) := by
  cases hk : a.kind with
  | sample k => exact ((h k).1 hk).elim
  | home k => exact ((h k).2.1 hk).elim
  | straight k => exact ((h k).2.2 hk).elim
  | _ => simp [State.ready, FeltAcc.isSample, hk]

theorem not_ready_of_busy (h : s.blockBusy (s.address a) = true) : s.ready q a = false := by simp [State.ready, h]

theorem issued_of_mem {p : FeltAcc → Bool} {m : Nat} {o : FeltOut} (hm : m < 8) (ho : o ∈ (s.slice m).out) (hp : p o.acc = true) :
    s.issued p = true :=
  List.any_eq_true.mpr ⟨m, List.mem_range.mpr hm, List.any_eq_true.mpr ⟨o, ho, hp⟩⟩

/-- A sampling record does not leave before one of its context that stands before it. -/
theorem not_sampleTurn_of_before {v : FeltAcc} {pre post : List FeltAcc} (hw : q.wait = pre ++ a :: post) (ha : a ∉ pre) (hv : v ∈ pre)
    (hc : v.ctx = a.ctx) (hs : v.isSample = true) : s.sampleTurn q a = false := by
  obtain ⟨w, hfind⟩ : ∃ w, pre.find? (fun b => b.ctx == a.ctx && b.isSample) = some w :=
    Option.isSome_iff_exists.mp (List.find?_isSome.mpr ⟨v, hv, by simp [hc, hs]⟩)
  have hne : w ≠ a := fun h => ha (h ▸ List.mem_of_find?_eq_some hfind)
  rw [State.sampleTurn, hw, List.find?_append, hfind]
  simp [hne]

end

/-! ### The access that is judged -/

theorem firstAt_of_first {α : Type} {p : α → Bool} {a : α} {post : List α} (ha : p a = true) : ∀ {pre : List α},
    (∀ b ∈ pre, p b = false) → firstAt p (pre ++ a :: post) = some (pre, a, post)
  | [], _ => by rw [List.nil_append, firstAt, if_pos ha]
  | b :: pre, h => by
    rw [List.cons_append, firstAt, h b List.mem_cons_self, if_neg Bool.false_ne_true,
      firstAt_of_first ha fun c hc => h c (List.mem_cons_of_mem b hc)]
    rfl

theorem firstAt_of_none {α : Type} {p : α → Bool} : ∀ {l : List α}, (∀ b ∈ l, p b = false) → firstAt p l = none
  | [], _ => rfl
  | b :: l, h => by
    rw [firstAt, h b List.mem_cons_self, if_neg Bool.false_ne_true, firstAt_of_none fun c hc => h c (List.mem_cons_of_mem b hc)]
    rfl

/-! ### The tag that it takes -/

/-- No outstanding access holds a tag. -/
def Slice.vacant (q : Slice) (i : Nat) : Prop := ∀ o ∈ q.out, o.tag ≠ i

theorem vacant_iff (q : Slice) (i : Nat) : (q.out.all fun o => o.tag != i) = true ↔ q.vacant i := by
  simp [Slice.vacant, List.all_eq_true]

/-- A tag that a slice may use in a uc. -/
def Slice.usable (q : Slice) (uc i : Nat) : Prop := Tbl.look 0 q.tagAt i ≤ uc ∧ q.vacant i

theorem usable_iff (q : Slice) (uc i : Nat) :
    (decide (Tbl.look 0 q.tagAt i ≤ uc) && q.out.all fun o => o.tag != i) = true ↔ q.usable uc i := by
  rw [Bool.and_eq_true, decide_eq_true_eq, vacant_iff]; rfl

theorem freeTag_some {q : Slice} {uc t : Nat} (h : q.freeTag uc = some t) : t < 64 ∧ q.usable uc t ∧ ∀ i < t, ¬ q.usable uc i := by
  obtain ⟨ht, hmem, hleast⟩ := List.find?_range_eq_some.mp h
  exact ⟨List.mem_range.mp hmem, (usable_iff ..).mp ht, fun i hi hu => by simpa [(usable_iff ..).mpr hu] using hleast i hi⟩

theorem freeTag_none {q : Slice} {uc : Nat} (h : q.freeTag uc = none) : ∀ i < 64, ¬ q.usable uc i := fun i hi hu =>
  absurd ((usable_iff ..).mpr hu) (List.find?_eq_none.mp h i (List.mem_range.mpr hi))

/-- The uc in which each vacant tag may be used again. -/
def Slice.tagTimes (q : Slice) : List Nat :=
  ((List.range 64).filter fun t => q.out.all fun o => o.tag != t).map fun t => Tbl.look 0 q.tagAt t

theorem mem_tagTimes {q : Slice} {u : Nat} : u ∈ q.tagTimes ↔ ∃ i < 64, q.vacant i ∧ Tbl.look 0 q.tagAt i = u := by
  simp only [Slice.tagTimes, List.mem_map, List.mem_filter, List.mem_range, vacant_iff, and_assoc]

/-- The next tag: the lowest one that may be used in the first uc, from a given one on, in which one may. -/
theorem nextTag_spec {q : Slice} (lo : Nat) (h : ∃ i < 64, q.vacant i) : ∃ u tag, q.nextTag lo = some (u, tag) ∧ tag < 64 ∧ lo ≤ u
    ∧ q.usable u tag ∧ (∀ i < tag, ¬ q.usable u i) ∧ ∀ i < 64, q.vacant i → u ≤ max lo (Tbl.look 0 q.tagAt i) := by
  cases hf : q.freeTag lo with
  | some t =>
    obtain ⟨h64, hu, hleast⟩ := freeTag_some hf
    exact ⟨lo, t, by rw [Slice.nextTag, hf], h64, Nat.le_refl lo, hu, hleast, fun _ _ _ => Nat.le_max_left ..⟩
  | none =>
    have hlate := freeTag_none hf
    cases ht : q.tagTimes with
    | nil =>
      obtain ⟨i, hi, hv⟩ := h
      have hmem := mem_tagTimes.mpr ⟨i, hi, hv, rfl⟩
      rw [ht] at hmem
      exact (List.not_mem_nil hmem).elim
    | cons a as =>
      obtain ⟨hmem, hmin⟩ := List.min?_eq_some_iff.mp (List.min?_cons' (x := a) (xs := as))
      generalize hu : as.foldl min a = u at hmem hmin
      rw [← ht] at hmem hmin
      obtain ⟨i, hi, hv, hiu⟩ := mem_tagTimes.mp hmem
      have hlo : lo < u := Nat.lt_of_not_le fun hle => hlate i hi ⟨by omega, hv⟩
      have hnext : q.nextTag lo = (q.freeTag u).map fun t => (u, t) := by
        rw [Slice.nextTag, hf]
        simp only [Slice.tagTimes] at ht
        simp only [ht, hu]
      cases hf' : q.freeTag u with
      | none => exact (freeTag_none hf' i hi ⟨by omega, hv⟩).elim
      | some t =>
        obtain ⟨h64, hus, hleast⟩ := freeTag_some hf'
        refine ⟨u, t, by rw [hnext, hf']; rfl, h64, Nat.le_of_lt hlo, hus, hleast, fun j hj hvj => ?_⟩
        exact (hmin _ (mem_tagTimes.mpr ⟨j, hj, hvj, rfl⟩)).trans (Nat.le_max_right ..)

theorem nextTag_of_taken {q : Slice} (h : ∀ i < 64, ∃ o ∈ q.out, o.tag = i) (lo : Nat) : q.nextTag lo = none := by
  have hno : ∀ i < 64, ¬ q.vacant i := fun i hi hv => by
    obtain ⟨o, ho, hoi⟩ := h i hi
    exact hv o ho hoi
  have hf : ∀ u, q.freeTag u = none := fun u => List.find?_eq_none.mpr fun i hi hu =>
    hno i (List.mem_range.mp hi) ((usable_iff ..).mp hu).2
  have ht : q.tagTimes = [] := List.eq_nil_iff_forall_not_mem.mpr fun u hu => by
    obtain ⟨i, hi, hv, -⟩ := mem_tagTimes.mp hu
    exact hno i hi hv
  rw [Slice.nextTag, hf]
  simp only [Slice.tagTimes] at ht
  simp only [ht]

/-! ### The slice as it is judged -/

/-- A slice written with its own value. -/
def State.same (s : State) (n : Nat) : State := s.setSlice n (s.slice n)

section
variable (s : State) (n : Nat)

theorem same_slice (k : Nat) : (s.same n).slice k = s.slice k := by
  by_cases h : k = n
  · rw [h, State.same, State.setSlice_slice_same]
  · rw [State.same, State.setSlice_slice_other _ _ _ _ h]

theorem same_ready (q : Slice) (a : FeltAcc) : (s.same n).ready q a = s.ready q a := by
  have hbusy : ∀ x, (s.same n).blockBusy x = s.blockBusy x := fun x => by simp only [State.blockBusy, same_slice]
  have hissued : ∀ p, (s.same n).issued p = s.issued p := fun p => by simp only [State.issued, same_slice]
  simp only [State.ready, hbusy, hissued]
  rfl

theorem onlySlice_same : OnlySlice n s (s.same n) := ⟨rfl, fun k _ => same_slice s n k⟩

end

theorem toFlush_of_wait {s : State} {n : Nat} (h : (s.slice n).wait ≠ []) : s.toFlush n = s := by
  rw [State.toFlush, if_pos (by simpa using h)]

/-- Whether an effect queues the lines of an LFLUSH. -/
def Effect.isFlush : Effect → Bool
  | .flush _ _ => true
  | _ => false

theorem toFlush_of_empty {s : State} {n : Nat} (h : (s.slice n).wait = []) :
    s.toFlush n = match (s.ch n).due.find? fun e => e.what.isFlush with | some e => s.pass n e.cc | none => s := by
  rw [State.toFlush, h]
  rfl

theorem toFlush_of_none {s : State} {n : Nat} (h : ∀ e ∈ (s.ch n).due, ∀ i k, e.what ≠ .flush i k) : s.toFlush n = s := by
  by_cases hw : (s.slice n).wait = []
  · have hnone : (s.ch n).due.find? (fun e => e.what.isFlush) = none := List.find?_eq_none.mpr fun e he hf => by
      cases hk : e.what with
      | flush i k => exact h e he i k hk
      | _ => rw [hk] at hf; cases hf
    rw [toFlush_of_empty hw, hnone]
  · exact toFlush_of_wait hw

theorem toFlush_of_flush {s : State} {n i k : Nat} {pre post : List Later} {e : Later} (hw : (s.slice n).wait = [])
    (hd : (s.ch n).due = pre ++ e :: post) (he : e.what = .flush i k) (hpre : ∀ d ∈ pre, ∀ i k, d.what ≠ .flush i k) :
    s.toFlush n = s.pass n e.cc := by
  have hfind : (s.ch n).due.find? (fun e => e.what.isFlush) = some e := by
    rw [hd, List.find?_append, List.find?_eq_none.mpr fun d hmem hf => ?_, List.find?_cons_of_pos (by rw [he]; rfl)]
    · rfl
    · cases hk : d.what with
      | flush i k => exact hpre d hmem i k hk
      | _ => rw [hk] at hf; cases hf
  rw [toFlush_of_empty hw, hfind]

/-- A line that is written home is clean from then on (R219). -/
def LoftLine.sentHome (l : LoftLine) : LoftLine := { l with dirty := false, writing := true }

/-- A slice that issues an access in a uc under a tag, with the beats that it puts on FWD. -/
def Slice.issues (q : Slice) (rest : List FeltAcc) (a : FeltAcc) (u tag addr : Nat) (fwd : List FwdBeat) : Slice :=
  { q with
    wait := rest, out := q.out ++ [⟨tag, a, addr, 0, false, 0⟩], freq := some tag, fwd := q.fwd ++ fwd, reqAt := u + 1
    wrAt := if a.wr then u + a.len / 32 else q.wrAt, fwdAt := if q.fwd.isEmpty then max q.fwdAt (u + 1) else q.fwdAt }

theorem issues_freqAddr {q : Slice} {tag : Nat} (hv : q.vacant tag) (rest : List FeltAcc) (a : FeltAcc) (u addr : Nat)
    (fwd : List FwdBeat) : (q.issues rest a u tag addr fwd).freqAddr = some (addr / 32) := by
  have hnone : q.out.find? (fun o => o.tag == tag) = none := List.find?_eq_none.mpr fun o ho => by simpa using hv o ho
  have hfind : (q.out ++ [(⟨tag, a, addr, 0, false, 0⟩ : FeltOut)]).find? (fun o => o.tag == tag) = some ⟨tag, a, addr, 0, false, 0⟩ := by
    rw [List.find?_append, hnone, Option.none_or]
    exact List.find?_cons_of_pos (beq_self_eq_true tag)
  exact congrArg (Option.map fun o : FeltOut => o.addr / 32) hfind

/-- The state in which a slice has been written in a uc. -/
def State.issuing (s : State) (n u : Nat) (q : Slice) : State := ({ s.same n with uc := u }).setSlice n q

section
variable (s : State) (n u : Nat) (q : Slice)

theorem issuing_slice_same : (s.issuing n u q).slice n = q := State.setSlice_slice_same ..

theorem issuing_slice_other {k : Nat} (hk : k ≠ n) : (s.issuing n u q).slice k = s.slice k :=
  (State.setSlice_slice_other _ _ _ _ hk).trans (same_slice s n k)

theorem issuing_frame : { s.issuing n u q with slices := s.slices, uc := s.uc } = s := rfl

end

section
variable {s : State} {n : Nat}

/-- A slice whose accesses all keep their reason is judged as it stands. -/
theorem feltIssue_eq (hf : s.toFlush n = s) (hst : ∀ b ∈ (s.slice n).wait, s.stale b = false) :
    s.feltIssue n = match firstAt (s.ready (s.slice n)) (s.slice n).wait, (s.slice n).freq with
      | some (pre, a, post), none =>
        match (s.slice n).nextTag ((s.slice n).issueAt a s.uc) with
        | none => s.same n
        | some (u, tag) =>
          match s.window a with
          | none => (s.issuing n u { s.slice n with wait := pre ++ post }).feltFail a fcWindow
          | some addr => (s.issuing n u ((s.slice n).issues (pre ++ post) a u tag addr
              (if a.wr then (List.range (a.len / 32)).map fun i => FwdBeat.mk tag (((s.payload a).1 >>> (256 * i)) % 2 ^ 256)
                (((s.payload a).2 >>> (32 * i)) % 2 ^ 32) (decide (i + 1 = a.len / 32)) else []))).markLine a LoftLine.sentHome
      | _, _ => s.same n := by
  have hmod : s.modSlice n (fun q => { q with wait := q.wait.filter fun a => !s.stale a }) = s.same n := by
    rw [State.modSlice, List.filter_eq_self.mpr fun b hb => by rw [hst b hb]; rfl]
    rfl
  have hready : (s.same n).ready (s.slice n) = s.ready (s.slice n) := funext fun a => same_ready s n _ a
  rw [State.feltIssue, hf]
  simp only [hmod, same_slice, hready]
  rfl

/-- Nothing is issued where the port is taken, no tag is free or no access may leave. -/
theorem feltIssue_nothing (hf : s.toFlush n = s) (hst : ∀ b ∈ (s.slice n).wait, s.stale b = false)
    (h : (s.slice n).freq ≠ none ∨ (∀ i < 64, ∃ o ∈ (s.slice n).out, o.tag = i)
      ∨ ∀ b ∈ (s.slice n).wait, s.ready (s.slice n) b = false) : s.feltIssue n = s.same n := by
  rw [feltIssue_eq hf hst]
  rcases h with hbusy | htaken | hready
  · split
    · exact (hbusy ‹_›).elim
    · rfl
  · split
    · rw [nextTag_of_taken htaken]
    · rfl
  · rw [firstAt_of_none hready]

section
variable {pre post : List FeltAcc} {a : FeltAcc} (hw : (s.slice n).wait = pre ++ a :: post)
  (hst : ∀ b ∈ pre ++ a :: post, s.stale b = false) (hpre : ∀ b ∈ pre, s.ready (s.slice n) b = false)
  (ha : s.ready (s.slice n) a = true) (hfree : (s.slice n).freq = none) {u tag : Nat}
  (hnext : (s.slice n).nextTag ((s.slice n).issueAt a s.uc) = some (u, tag))
include hw hst hpre ha hfree hnext

/-- The first access that may leave is issued where its window permits it. -/
theorem feltIssue_inside {addr : Nat} (hwin : s.window a = some addr) : ∃ fwd : List FwdBeat,
    fwd.length = (if a.wr then a.len / 32 else 0)
    ∧ s.feltIssue n = (s.issuing n u ((s.slice n).issues (pre ++ post) a u tag addr fwd)).markLine a LoftLine.sentHome := by
  have hf : s.toFlush n = s := toFlush_of_wait (by rw [hw]; simp)
  rw [feltIssue_eq hf (hw ▸ hst), hw, firstAt_of_first ha hpre, hfree]
  simp only [hnext, hwin]
  refine ⟨_, ?_, rfl⟩
  split
  · rw [List.length_map, List.length_range]
  · rfl

/-- It fails where its window does not. -/
theorem feltIssue_outside (hwin : s.window a = none) :
    s.feltIssue n = (s.issuing n u { s.slice n with wait := pre ++ post }).feltFail a fcWindow := by
  have hf : s.toFlush n = s := toFlush_of_wait (by rw [hw]; simp)
  rw [feltIssue_eq hf (hw ▸ hst), hw, firstAt_of_first ha hpre, hfree]
  simp only [hnext, hwin]

end

end

/-! ### What an issued access changes -/

/-- Marking the line of an access changes the channels alone. -/
theorem markLine_uncore (s : State) (a : FeltAcc) (f : LoftLine → LoftLine) :
    (s.markLine a f).slices = s.slices ∧ { s.markLine a f with chans := s.chans } = s := by
  unfold State.markLine
  split <;> exact ⟨rfl, rfl⟩

theorem markLine_home {s : State} {a : FeltAcc} {k : Nat} {l : LoftLine} (f : LoftLine → LoftLine) (hk : a.kind = .home k)
    (hl : (s.ch k).findLine a.ctx a.line = some l) : f l ∈ ((s.markLine a f).ch k).loft := by
  have hline : s.lineOf a = some l := by rw [State.lineOf, hk]; exact hl
  have hmark : s.markLine a f = s.modCh k fun h => h.modLine l.idx f := by rw [State.markLine, hk, hline]
  rw [hmark, State.modCh, State.setCh_ch_same]
  exact List.mem_map.mpr ⟨l, List.mem_of_find?_eq_some hl, if_pos (beq_self_eq_true l.idx)⟩

theorem markLine_other {s : State} {a : FeltAcc} (f : LoftLine → LoftLine)
    (h : ∀ m i, a.kind ≠ .home m ∧ a.kind ≠ .homeWb m ∧ a.kind ≠ .stash m i) : s.markLine a f = s := by
  unfold State.markLine
  split
  · exact ((h _ 0).1 ‹_›).elim
  · exact ((h _ _).2.2 ‹_›).elim
  · exact ((h _ 0).2.1 ‹_›).elim
  · rfl

/-! ### An access that fails -/

/-- What precedes the fault of an access that fails: the lines and marks of its context, and what waits in the slices, may differ. -/
structure Unwinds (c : Nat) (s t : State) : Prop where
  st : (t.ctx c).st = (s.ctx c).st
  faultcode : (t.ctx c).faultcode = (s.ctx c).faultcode
  slice : ∀ n, { t.slice n with wait := (s.slice n).wait } = s.slice n

theorem Unwinds.refl (c : Nat) (s : State) : Unwinds c s s := ⟨rfl, rfl, fun _ => rfl⟩

theorem Unwinds.trans {c : Nat} {s t u : State} (h : Unwinds c s t) (k : Unwinds c t u) : Unwinds c s u :=
  ⟨k.st.trans h.st, k.faultcode.trans h.faultcode,
    fun n => (congrArg (fun q : Slice => { q with wait := (s.slice n).wait }) (k.slice n)).trans (h.slice n)⟩

theorem unwinds_modCh (c : Nat) (s : State) (n : Nat) (f : Channel → Channel) : Unwinds c s (s.modCh n f) := ⟨rfl, rfl, fun _ => rfl⟩

theorem unwinds_modCtx (s : State) (c : Nat) {f : Ctx → Ctx} (hst : ∀ x, (f x).st = x.st) (hf : ∀ x, (f x).faultcode = x.faultcode) :
    Unwinds c s (s.modCtx c f) := by
  refine ⟨?_, ?_, fun _ => rfl⟩ <;> rw [State.modCtx, State.setCtx_ctx_same]
  · exact hst _
  · exact hf _

theorem unwinds_setMark (s : State) (c tag : Nat) : Unwinds c s (s.setMark c tag) := unwinds_modCtx s c (fun _ => rfl) fun _ => rfl

theorem unwinds_loseWb (s : State) (ch c line : Nat) : Unwinds c s (s.loseWb ch c line) ∧ (s.loseWb ch c line).slices = s.slices := by
  refine foldl_keeps (P := fun t : State => Unwinds c s t ∧ t.slices = s.slices) (fun t l h => ?_) _ _ ⟨unwinds_modCh .., rfl⟩
  have hloss : Unwinds c t (t.noteLoss c) := unwinds_modCtx t c (fun _ => rfl) fun _ => rfl
  dsimp only
  split
  · exact ⟨(h.1.trans hloss).trans (unwinds_modCtx _ c (fun _ => rfl) fun _ => rfl), h.2⟩
  · exact ⟨h.1.trans hloss, h.2⟩

theorem unwinds_queueFelt (c : Nat) (s : State) (n : Nat) (a : FeltAcc) : Unwinds c s (s.queueFelt n a) := by
  refine ⟨rfl, rfl, fun m => ?_⟩
  rw [State.queueFelt, State.modSlice]
  by_cases hm : m = n
  · rw [hm, State.setSlice_slice_same]
  · rw [State.setSlice_slice_other _ _ _ _ hm]

/-- A fetch that fails queues the home write of the line of a write-back that waited for it, and nothing where there is none. -/
theorem unwinds_wbFetched (s : State) (ch : Nat) (a : FeltAcc) (f : LoftLine → LoftLine) : Unwinds a.ctx s (s.wbFetched ch a f)
    ∧ ((∀ l ∈ (s.ch ch).wb, l.owner = a.ctx → l.line ≠ a.line) → (s.wbFetched ch a f).slices = s.slices) := by
  unfold State.wbFetched
  extract_lets is ls t
  split
  · exact ⟨unwinds_modCh .., fun _ => rfl⟩
  · rename_i hls
    refine ⟨(unwinds_modCh ..).trans (unwinds_queueFelt ..), fun hno => (hls ?_).elim⟩
    rw [List.isEmpty_iff]
    refine List.filter_eq_nil_iff.mpr fun l hl his => ?_
    simp only [is, Bool.and_eq_true, beq_iff_eq] at his
    exact hno l hl his.1.1.1 his.1.2

/-- An access of a context that is still its own fails with a fault of that context. -/
theorem feltFail_faults {s : State} {a : FeltAcc} (code : Nat) (ho : s.owned a = true) (h1 : a.kind ≠ .load) (h2 : a.kind ≠ .maint) :
    ∃ t, Unwinds a.ctx s t ∧ s.feltFail a code = t.fault a.ctx code 0
      ∧ ((∀ k, a.kind = .fetch k → ∀ l ∈ (s.ch k).wb, l.owner = a.ctx → l.line ≠ a.line) → t.slices = s.slices) := by
  have hown : (!s.owned a && !(a.kind == AccKind.load || a.kind == AccKind.maint)) = false := by rw [ho]; rfl
  rw [State.feltFail]
  simp only [hown, Bool.false_eq_true, if_false]
  cases hk : a.kind with
  | load => exact (h1 hk).elim
  | maint => exact (h2 hk).elim
  | home ch => exact ⟨_, unwinds_modCh .., rfl, fun _ => rfl⟩
  | homeWb ch =>
    refine ⟨_, ?_, rfl, fun _ => ?_⟩
    · split
      · exact Unwinds.refl ..
      · exact (unwinds_loseWb ..).1
    · split
      · rfl
      · exact (unwinds_loseWb ..).2
  | straight ch => exact ⟨_, Unwinds.refl .., rfl, fun _ => rfl⟩
  | fetch ch =>
    refine ⟨_, (unwinds_modCh ..).trans (unwinds_wbFetched ..).1, rfl, fun hno => ?_⟩
    refine ((unwinds_wbFetched ..).2 fun l hl => hno ch rfl l ?_).trans rfl
    rwa [State.modCh, State.setCh_ch_same] at hl
  | stash ch tag => exact ⟨_, (unwinds_modCh ..).trans (unwinds_setMark _ a.ctx tag), rfl, fun _ => rfl⟩
  | stashStraight ch tag => exact ⟨_, unwinds_setMark s a.ctx tag, rfl, fun _ => rfl⟩
  | sample r => exact ⟨_, Unwinds.refl .., rfl, fun _ => rfl⟩

end Sys2Proof.Machine

namespace Sys2Proof
open Sys2Proof.Machine Sys2Proof.Safety

/-- Settles O42, by the access that is judged, the tag that is free first, and the two outcomes of the window check. -/
theorem feltAccessesIssueWithinTheirWindow : Obligations.FeltAccessesIssueWithinTheirWindow := by
  unfold Obligations.FeltAccessesIssueWithinTheirWindow
  intro s sl q
  have hexec : ∀ {t : State}, Inside t → exec (.feltAccessIssue sl) t = .next (t.feltIssue sl.val) := fun h => by
    rw [exec, execFeltAccessIssue, hw_inside h]
  refine ⟨fun a ha => ⟨fun hb => not_ready_of_busy hb, ?_, ?_, ?_, ?_⟩, ?_, ?_, ?_, ?_, ?_⟩
  · intro r m o hk hm ho hc hs
    rw [ready_of_sample hk, State.sampleTurn, issued_of_mem hm ho (by simp [hc, hs])]
    simp
  · intro r v pre post hk hw hnot hv hc hs
    rw [ready_of_sample hk, not_sampleTurn_of_before hw hnot hv hc hs, Bool.and_false]
  · intro k hk hwb
    rw [ready_of_home hk, hwb, Bool.not_true, Bool.and_false]
  · intro hb hk
    rw [ready_of_other hk, hb]; rfl
  · intro pre post a hs hw hstale hpre ha hfree htag lo
    obtain ⟨u, tag, hnext, h64, hlo, ⟨husable, hvacant⟩, hleast, hearly⟩ := nextTag_spec (q := q) lo htag
    refine ⟨fun addr hwin => ?_, fun hwin h1 h2 hst => ?_⟩
    · obtain ⟨fwd, hfwd, hissue⟩ := feltIssue_inside hw hstale hpre ha hfree hnext hwin
      have hsame := issuing_slice_same s sl.val u (q.issues (pre ++ post) a u tag addr fwd)
      have hother := fun k => issuing_slice_other s sl.val u (q.issues (pre ++ post) a u tag addr fwd) (k := k)
      have hframe := issuing_frame s sl.val u (q.issues (pre ++ post) a u tag addr fwd)
      have hch : ∀ k, (s.issuing sl.val u (q.issues (pre ++ post) a u tag addr fwd)).ch k = s.ch k := fun _ => rfl
      have huc : (s.issuing sl.val u (q.issues (pre ++ post) a u tag addr fwd)).uc = u := rfl
      rw [show s.slice sl.val = q from rfl] at hissue
      generalize s.issuing sl.val u (q.issues (pre ++ post) a u tag addr fwd) = b at hissue hsame hother hframe hch huc
      obtain ⟨hmark, hrest⟩ := markLine_uncore b a LoftLine.sentHome
      have hslice : ∀ k, (b.markLine a LoftLine.sentHome).slice k = b.slice k := fun k => by rw [State.slice, hmark]; rfl
      have htuc : (b.markLine a LoftLine.sentHome).uc = u := (congrArg State.uc hrest :).trans huc
      refine ⟨_, tag, (hexec hs).trans (congrArg _ hissue), h64, ?_⟩
      rw [hslice, hsame, htuc]
      refine ⟨husable, hlo, hearly, rfl, rfl, rfl, rfl, ?_, ?_, hvacant, fun i hi => ?_, rfl, fun h0 => ?_, rfl, fun k l hk hl => ?_,
        fun hk k => ?_, fun k hk => (hslice k).trans (hother k hk), ?_⟩
      · exact issues_freqAddr hvacant ..
      · exact (List.length_append ..).trans (congrArg _ hfwd)
      · by_cases hv : q.vacant i
        · exact .inl (Nat.lt_of_not_le fun hle => hleast i hi ⟨hle, hv⟩)
        · simpa [Slice.vacant] using Or.inr (a := u < Tbl.look 0 q.tagAt i) hv
      · have hat : (q.issues (pre ++ post) a u tag addr fwd).fwdAt = max q.fwdAt (u + 1) := if_pos (by rw [h0]; rfl)
        rw [hat]
        exact Nat.le_max_right ..
      · exact ⟨_, markLine_home LoftLine.sentHome hk (by rw [hch]; exact hl), rfl⟩
      · rw [markLine_other _ hk, hch]
      · exact ((congrArg (fun v : State => { v with chans := s.chans, slices := s.slices, uc := s.uc }) hrest).trans
          (congrArg (fun v : State => { v with chans := s.chans }) hframe) :)
    · have hfail := feltIssue_outside hw hstale hpre ha hfree hnext hwin
      have hsame := issuing_slice_same s sl.val u { s.slice sl.val with wait := pre ++ post }
      have hctx : ∀ d, (s.issuing sl.val u { s.slice sl.val with wait := pre ++ post }).ctx d = s.ctx d := fun _ => rfl
      have hch : ∀ k, (s.issuing sl.val u { s.slice sl.val with wait := pre ++ post }).ch k = s.ch k := fun _ => rfl
      generalize s.issuing sl.val u { s.slice sl.val with wait := pre ++ post } = b at hfail hsame hctx hch
      have hown : b.owned a = true := by rcases hst with h | h <;> simp [State.owned, hctx, h]
      obtain ⟨t, ht, hfault, hwait⟩ := feltFail_faults fcWindow hown h1 h2
      have hst' : (t.ctx a.ctx).st = .bound ∨ (t.ctx a.ctx).st = .running := by rw [ht.st, hctx]; exact hst
      obtain ⟨hfst, hfcode, -⟩ := fault_taken (s := t) (c := a.ctx) fcWindow 0 hst'
      have hkeep := faultKeeps_fault hst' fcWindow 0
      rw [ht.faultcode, hctx] at hfcode
      refine ⟨_, (hexec hs).trans (congrArg _ (hfail.trans hfault)), ?_⟩
      generalize t.fault a.ctx fcWindow 0 = v at hkeep hfst hfcode
      have hslice := (congrArg (fun p : Slice => { p with wait := q.wait }) (hkeep.slice sl.val) :).trans
        (congrArg (fun p : Slice => { p with wait := q.wait }) (ht.slice sl.val) :)
      rw [hsame] at hslice
      refine ⟨(congrArg Slice.out hslice :), (congrArg Slice.freq hslice :).trans hfree, (congrArg Slice.fwd hslice :), fun hno b' hb' => ?_,
        hfst, hfcode⟩
      have ha' : a ∈ (s.slice sl.val).wait := by
        rw [hw]
        exact List.mem_append_right _ List.mem_cons_self
      have hslices : t.slices = b.slices := hwait fun k hk l hl hlo => hno sl.val a ha' k l hk (by rwa [hch] at hl) hlo
      have hb : (t.slice sl.val).wait = pre ++ post := by rw [State.slice, hslices]; exact congrArg Slice.wait hsame
      exact hb ▸ hkeep.wait sl.val b' hb'
  · intro hs hflush hstale hno
    have hf : s.toFlush sl.val = s := hflush.elim toFlush_of_wait toFlush_of_none
    exact ⟨s.same sl.val, (hexec hs).trans (congrArg _ (feltIssue_nothing hf hstale hno)), same_slice s sl.val sl.val,
      onlySlice_same s sl.val⟩
  · intro pre e post i k hs hw hd he hpre p hp
    obtain ⟨-, hjrst, hundef, -⟩ := keeps_pass (s := s) sl.val e.cc
    have hi : Inside p := ⟨hundef.trans hs.1, hjrst.trans hs.2⟩
    rw [hexec hs, hexec hi, State.feltIssue, State.feltIssue, toFlush_of_flush hw hd he hpre, toFlush_of_wait hp]
  · intro hs
    refine ⟨s.setSlice sl.val _, by rw [exec, execFeltRequestAccept, port_reached hs]; rfl,
      ⟨rfl, fun m hm => State.setSlice_slice_other _ _ _ _ hm⟩, ?_⟩
    rw [State.setSlice_slice_same]
    cases hf : q.freq <;> simp [show s.slice sl.val = q from rfl, hf]
  · intro hs
    have hacc : exec (.feltWriteDataAccept sl) s = .next (s.acceptData sl.val) := by rw [exec, execFeltWriteDataAccept, port_reached hs]
    refine ⟨fun h0 => ?_, fun h0 => ?_⟩
    · rw [hacc, State.acceptData]
      exact congrArg _ (if_pos (by rw [List.isEmpty_iff]; exact h0))
    · rw [hacc, State.acceptData]
      exact congrArg _ (if_neg (by rw [List.isEmpty_iff]; exact h0))

end Sys2Proof
end

section
/-! SUPPORT. The clocks under what falls due: uc and CHCYC count only where time passes (R271, R383). -/
namespace Sys2Proof.Machine
open Sys2Proof.Safety

/-- uc and every CHCYC stand still. -/
structure ClocksStay (s t : State) : Prop where
  uc : t.uc = s.uc
  cyc : ∀ n, (t.ch n).cyc = (s.ch n).cyc

theorem ClocksStay.refl (s : State) : ClocksStay s s := ⟨rfl, fun _ => rfl⟩

/-- The last of two operations first, so that it says what the first one is. -/
theorem ClocksStay.after {s t u : State} (k : ClocksStay t u) (h : ClocksStay s t) : ClocksStay s u :=
  ⟨k.uc.trans h.uc, fun n => (k.cyc n).trans (h.cyc n)⟩

theorem ClocksStay.ite {p : Prop} [Decidable p] {s a b : State} (ha : ClocksStay s a) (hb : ClocksStay s b) :
    ClocksStay s (if p then a else b) := by
  split
  · exact ha
  · exact hb

theorem ClocksStay.foldl {α : Type} {f : State → α → State} (hf : ∀ s a, ClocksStay s (f s a)) (l : List α) (s : State) :
    ClocksStay s (l.foldl f s) :=
  foldl_keeps (P := ClocksStay s) (fun t a h => (hf t a).after h) l s (ClocksStay.refl s)

theorem ClocksStay.setCtx {s : State} {c : Nat} {x : Ctx} : ClocksStay s (s.setCtx c x) := ⟨rfl, fun _ => rfl⟩

theorem ClocksStay.modCtx {s : State} {c : Nat} {f : Ctx → Ctx} : ClocksStay s (s.modCtx c f) := ⟨rfl, fun _ => rfl⟩

theorem ClocksStay.setCh {s : State} {n : Nat} {h : Channel} (hh : h.cyc = (s.ch n).cyc := by rfl) : ClocksStay s (s.setCh n h) := by
  refine ⟨rfl, fun m => ?_⟩
  by_cases e : m = n
  · rw [e, State.setCh_ch_same, hh]
  · rw [State.setCh_ch_other _ _ _ _ e]

theorem ClocksStay.modCh {s : State} {n : Nat} {f : Channel → Channel} (hf : ∀ h, (f h).cyc = h.cyc := by exact fun _ => rfl) :
    ClocksStay s (s.modCh n f) := .setCh (hf _)

theorem Cancels.clocksStay {c : Nat} {s t : State} (h : Cancels c s t) : ClocksStay s t :=
  ⟨(congrArg State.uc h.frame :), fun n => (congrArg Channel.cyc (h.ch n) :)⟩

theorem HomesQueued.clocksStay {n : Nat} {as : List FeltAcc} {s t : State} (h : HomesQueued n as s t) : ClocksStay s t := by
  refine ⟨(congrArg State.uc h.others :), fun m => ?_⟩
  by_cases e : m = n
  · subst e
    exact (congrArg Channel.cyc h.chan :)
  · rw [h.chans m e]

/-! ### Channels -/

section
variable (h : Channel)

theorem abandonedCh_cyc (c : Nat) (sers : List Nat) : (h.abandoned c sers).cyc = h.cyc :=
  (congrArg Channel.cyc (abandonedCh_frame h c sers) :)

theorem dropShadows_cyc (p : Nat → Bool) : (h.dropShadows p).cyc = h.cyc := (congrArg Channel.cyc (dropShadows_frame h p) :)

/-- Steps that each leave CHCYC leave it together. -/
theorem foldl_cyc {α : Type} {f : Channel → α → Channel} (hf : ∀ g a, (f g a).cyc = g.cyc) (l : List α) : (l.foldl f h).cyc = h.cyc :=
  foldl_keeps (P := fun g : Channel => g.cyc = h.cyc) (fun g a e => (hf g a).trans e) l h rfl

theorem setReam_cyc (p : Nat) (r : ReamCell) : (h.setReam p r).cyc = h.cyc := rfl

theorem setShadow_cyc (p run u : Nat) (d : RPart) : (h.setShadow p run u d).cyc = h.cyc := rfl

theorem feedRow_cyc (e : Env) (w : IWord) (n : Units) (u : Nat) (xs : List Arr) {q : Channel × List Off}
    (hq : feedRow e h w n u xs = some q) : q.1.cyc = h.cyc := by
  unfold feedRow at hq
  extract_lets p base at hq
  split at hq
  · cases hq
  · extract_lets ds put at hq
    clear_value ds
    split at hq
    · split at hq
      · split at hq
        · cases hq
          exact (setShadow_cyc ..).trans ((setShadow_cyc ..).trans (setShadow_cyc ..))
        · cases hq
      · split at hq
        · cases hq
          exact (setShadow_cyc ..).trans (setShadow_cyc ..)
        · cases hq
          exact (setShadow_cyc ..).trans (setShadow_cyc ..)
    · cases hq

theorem feedAll_cyc (e : Env) (u : Nat) (xs : List Arr) {q : Channel × List Off} (hq : feedAll e h u xs = some q) : q.1.cyc = h.cyc := by
  unfold feedAll at hq
  split at hq
  · refine foldl_keeps (P := fun acc : Option (Channel × List Off) => ∀ q, acc = some q → q.1.cyc = h.cyc) (fun acc rg k => ?_) _
      (some (h, [])) (fun q e => by cases e; rfl) q hq
    intro q hq
    split at hq
    · cases hq
    · rename_i g os
      obtain ⟨r, hr, e⟩ := Option.map_eq_some_iff.mp hq
      subst e
      exact (feedRow_cyc g _ _ _ _ _ hr).trans (k (g, os) rfl)
  · cases hq
    rfl

theorem importRecord_cyc (e : Env) (g : IngW) (q : CouchBeat) (first u : Nat) (k : Channel × Option Nat) (j : Nat) :
    (importRecord e g q first u k j).1.cyc = k.1.cyc := by
  unfold importRecord
  split
  · split
    · rfl
    · split
      · split
        · rfl
        · split
          · rfl
          · rfl
      · rfl
  · rfl

theorem commitShadows_cyc (ser : Nat) (p : Nat → Bool) : (h.commitShadows ser p).1.cyc = h.cyc := by
  unfold Channel.commitShadows
  refine foldl_keeps (P := fun acc : Channel × Flags => acc.1.cyc = h.cyc) (fun acc e k => ?_) _ (h, flNone) rfl
  dsimp only
  split
  · split
    · exact k
    · exact k
  · exact k

end

section
variable {s : State}

/-! ### Flags, faults and slots -/

theorem clocksStay_raise (c : Nat) (f : Flags) : ClocksStay s (s.raise c f) := .after .modCh .modCtx

theorem clocksStay_offend (c p : Nat) (os : List Off) : ClocksStay s (s.offend c p os) := by
  unfold State.offend
  dsimp only
  split
  · exact .after .modCtx (clocksStay_raise ..)
  · exact clocksStay_raise ..

theorem clocksStay_abandon (c : Nat) : ClocksStay s (s.abandon c) :=
  (cancels_abandon s c).clocksStay.after (.after .setCtx (.setCh (abandonedCh_cyc ..)))

theorem clocksStay_settleSlots (c : Nat) : ClocksStay s (s.settleSlots c) :=
  .ite (.refl s) .modCtx

theorem clocksStay_tev (t b : Nat) : ClocksStay s (s.tev t b) := ⟨rfl, fun _ => rfl⟩

theorem clocksStay_fault (c code : Nat) (iflt : BitVec 64) : ClocksStay s (s.fault c code iflt) := by
  unfold State.fault
  extract_lets x enters cc u v
  have hu : ClocksStay s u := .ite (.refl s) ((clocksStay_settleSlots c).after (clocksStay_abandon c))
  have hv : ClocksStay u v := .setCtx
  exact .ite (.refl s) (.ite ((clocksStay_tev ..).after (hv.after hu)) (hv.after hu))

theorem clocksStay_ifault (c : Nat) (o : Bool) (src word opcode flsb : Nat) : ClocksStay s (s.ifault c o src word opcode flsb) :=
  clocksStay_fault ..
theorem clocksStay_operand (c : Nat) (r : Run) (word flsb : Nat) : ClocksStay s (s.operand c r word flsb) := clocksStay_ifault ..
theorem clocksStay_siteFault (c : Nat) (t : Site) (w : IWord) (flsb : Nat) : ClocksStay s (s.siteFault c t w flsb) :=
  clocksStay_ifault ..

theorem clocksStay_settleState (c : Nat) : ClocksStay s (s.settleState c) :=
  .ite .setCtx (.refl s)

theorem clocksStay_modRun (c ser : Nat) (f : Run → Run) : ClocksStay s (s.modRun c ser f) := .modCtx

theorem clocksStay_releaseGroups (c cc : Nat) : ClocksStay s (s.releaseGroups c cc) := .ite (.refl s) .modCh

theorem clocksStay_present (c : Nat) (run : Option Nat) (bs : List ReelBeat) : ClocksStay s (s.present c run bs) :=
  .ite (.refl s) .modCh

/-! ### Ream and Loft words -/

theorem clocksStay_actRclr (c : Nat) (t : Site) (w : IWord) : ClocksStay s (s.actRclr c t w) := by
  unfold State.actRclr
  dsimp only
  split
  · exact .ite (clocksStay_siteFault ..) (.setCh (foldl_cyc _ (by exact fun _ _ => rfl) _))
  · exact clocksStay_siteFault ..

theorem clocksStay_actRexp (c : Nat) (t : Site) (w : IWord) : ClocksStay s (s.actRexp c t w) := by
  unfold State.actRexp
  dsimp only
  split
  · exact clocksStay_siteFault ..
  · exact .ite (clocksStay_siteFault ..) (clocksStay_present ..)

theorem clocksStay_actRclose (c : Nat) (t : Site) (w : IWord) : ClocksStay s (s.actRclose c t w) := by
  unfold State.actRclose
  dsimp only
  split
  · exact clocksStay_siteFault ..
  · refine .ite (clocksStay_siteFault ..) (.ite (clocksStay_siteFault ..) (.ite ?_ ?_))
    · exact .after .modCh (.after .modCtx .modCh)
    · exact (clocksStay_present ..).after .modCh

theorem clocksStay_act (c : Nat) (t : Site) (w : IWord) : ClocksStay s (s.act c t w) := by
  unfold State.act
  split
  · exact clocksStay_actRclr ..
  · exact clocksStay_actRexp ..
  · exact clocksStay_actRclose ..
  · exact .ite (clocksStay_siteFault ..) .modCh
  · exact .ite (clocksStay_siteFault ..) .modCh
  · exact .refl s

theorem clocksStay_actWords (c : Nat) (r : Run) (l : List Nat) : ∀ s : State, ClocksStay s (s.actWords c r l).1 := by
  induction l with
  | nil => exact fun s => .refl s
  | cons i is ih =>
    intro s
    unfold State.actWords
    dsimp only
    split
    · exact .refl s
    · split
      · exact .refl s
      · exact (ih _).after (clocksStay_act ..)

/-! ### Work that goes on -/

theorem clocksStay_markDone (c ser : Nat) : ClocksStay s (s.markDone c ser) := by
  unfold State.markDone
  dsimp only
  split
  · exact .ite .modCh (.refl s)
  · exact .refl s

theorem clocksStay_settleAfter (c : Nat) : ClocksStay s (s.settleAfter c) :=
  .foldl (fun s r => (clocksStay_markDone ..).after ((clocksStay_modRun ..).after (clocksStay_actWords c r r.after s))) _ _

theorem clocksStay_recallRuns (c : Nat) : ClocksStay s (s.recallRuns c) := .modCtx

theorem clocksStay_fixCounts (c : Nat) : ClocksStay s (s.fixCounts c) := by
  refine (clocksStay_recallRuns c).after (.after (.foldl (fun s q => ?_) _ _) .modCtx)
  dsimp only
  split
  · exact .refl s
  · refine .ite ?_ (.refl s)
    split
    · exact (clocksStay_operand ..).after (clocksStay_modRun ..)
    · exact clocksStay_modRun ..

theorem clocksStay_settleDirects (c fuel : Nat) : ∀ s : State, ClocksStay s (s.settleDirects c fuel) := by
  induction fuel with
  | zero => exact fun s => .refl s
  | succ n ih =>
    intro s
    unfold State.settleDirects
    dsimp only
    split
    · exact .refl s
    · exact .ite ((ih _).after ((clocksStay_act ..).after .modCtx)) (.refl s)

theorem clocksStay_settle (c : Nat) : ClocksStay s (s.settle c) := by
  unfold State.settle
  exact (clocksStay_settleState c).after ((clocksStay_settleDirects ..).after ((clocksStay_fixCounts c).after
    ((clocksStay_settleSlots c).after ((clocksStay_settleAfter c).after (clocksStay_recallRuns c)))))

theorem clocksStay_reelEnds (c ser cc : Nat) : ClocksStay s (s.reelEnds c ser cc) := by
  unfold State.reelEnds
  dsimp only
  split
  · exact .ite ((clocksStay_releaseGroups ..).after (clocksStay_modRun ..)) (.refl s)
  · exact .refl s

/-! ### A tile -/

theorem clocksStay_feed (n c : Nat) (r : Run) (els : List HElem) : ClocksStay s (s.feed n c r els) := by
  unfold State.feed
  dsimp only
  split
  · rename_i hq
    exact (clocksStay_offend ..).after (.setCh (feedAll_cyc _ _ _ _ hq))
  · exact clocksStay_operand ..

theorem clocksStay_imports (n c : Nat) (r : Run) (b : CouchBeat) (first : Nat) : ClocksStay s (s.imports n c r b first) := by
  unfold State.imports
  split
  · exact .refl s
  · rename_i i w _
    have k : ((List.range b.nrec.toNat).foldl (importRecord ⟨s.ctx c, r⟩ (IngW.ofWord w) b first (s.ch n).cyc) (s.ch n, none)).1.cyc
        = (s.ch n).cyc :=
      foldl_keeps (P := fun acc : Channel × Option Nat => acc.1.cyc = (s.ch n).cyc)
        (fun acc j e => (importRecord_cyc _ _ _ _ _ acc j).trans e) _ _ rfl
    split
    · rename_i hq
      rw [hq] at k
      exact .setCh k
    · exact clocksStay_operand ..

theorem clocksStay_endTile (n c ser : Nat) : ClocksStay s (s.endTile n c ser) := by
  unfold State.endTile
  extract_lets x h
  split
  · exact .refl s
  · extract_lets r rel h1 turn u v
    have h1cyc : h1.cyc = (s.ch n).cyc := by
      show (if rel then r.readIdx.foldl (fun h i => h.release c i 1) h else h).cyc = _
      split
      · exact foldl_cyc h (by exact fun _ _ => rfl) _
      · rfl
    exact (clocksStay_markDone ..).after ((clocksStay_fixCounts c).after (.after .modCtx (.setCh h1cyc)))

theorem clocksStay_tileCheck (n c ser pseq : Nat) : ClocksStay s (s.tileCheck n c ser pseq) := by
  unfold State.tileCheck
  split
  · exact .ite (clocksStay_endTile ..) ((clocksStay_fault ..).after (clocksStay_raise ..))
  · exact .refl s

theorem clocksStay_commitShadows (n c ser : Nat) (p : Nat → Bool) : ClocksStay s (s.commitShadows n c ser p) :=
  (clocksStay_raise ..).after (.setCh (commitShadows_cyc ..))

theorem clocksStay_readsEnd (n c ser : Nat) : ClocksStay s (s.readsEnd n c ser) := by
  unfold State.readsEnd
  split
  · exact .ite .modCtx (.refl s)
  · exact .refl s

theorem clocksStay_closed (n c : Nat) (r : Run) (k : Closes) : ClocksStay s (s.closed n c r k) := by
  unfold State.closed
  dsimp only
  exact .after .modCh .modCtx

theorem clocksStay_addLoss (n c p v row pseq : Nat) (iflt : BitVec 64) : ClocksStay s (s.addLoss n c p v row pseq iflt) := by
  unfold State.addLoss
  dsimp only
  exact .ite (clocksStay_fault ..) ((clocksStay_offend ..).after .modCh)

theorem clocksStay_sampleClose (n c : Nat) (r : Run) (k : Closing) : ClocksStay s (s.sampleClose n c r k) := by
  unfold State.sampleClose
  dsimp only
  exact .after .modCtx .modCh

theorem clocksStay_commitSample (n c : Nat) (r : Run) (k : Closing) : ClocksStay s (s.commitSample n c r k) := by
  unfold State.commitSample
  extract_lets w u
  have hu : ClocksStay s u := .modCh
  exact .ite ((clocksStay_sampleClose ..).after hu) hu

theorem clocksStay_closeUnit (n c ser : Nat) (k : Closing) : ClocksStay s (s.closeUnit n c ser k) := by
  unfold State.closeUnit
  split
  · exact .refl s
  · exact .ite (clocksStay_commitSample ..)
      ((clocksStay_settle c).after ((clocksStay_closed ..).after (clocksStay_commitShadows ..)))

theorem clocksStay_turn (n c ser q : Nat) : ClocksStay s (s.turn n c ser q) := by
  unfold State.turn
  split
  · exact .refl s
  · exact .ite (clocksStay_operand ..) (.foldl (fun s row => (clocksStay_offend ..).after .setCh) _ _)

theorem clocksStay_turnClose (n c ser q : Nat) : ClocksStay s (s.turnClose n c ser q) := by
  unfold State.turnClose
  split
  · exact .refl s
  · exact (clocksStay_closed ..).after (.setCh (foldl_cyc _ (fun _ _ => (setReam_cyc ..).trans (setReam_cyc ..)) _))

theorem clocksStay_reserve (n c ser j : Nat) : ClocksStay s (s.reserve n c ser j) := by
  unfold State.reserve
  split
  · exact .refl s
  · split
    · exact .refl s
    · refine .ite ?_ ?_
      · unfold State.putOff
        exact .modCh
      · exact .after .modCtx (.after .modCh (.after .modCh .setCh))

theorem clocksStay_carryLeaves (n c : Nat) (r : Run) (held rows : Nat) (ccs : List Nat) :
    ClocksStay s (s.carryLeaves n c r held rows ccs) := by
  unfold State.carryLeaves
  dsimp only
  exact .after .modCtx ((clocksStay_present ..).after .modCh)

theorem clocksStay_emitHeld (n c ser j : Nat) : ClocksStay s (s.emitHeld n c ser j) := by
  unfold State.emitHeld
  split
  · exact .refl s
  · split
    · exact .refl s
    · dsimp only
      refine (clocksStay_reelEnds ..).after ((clocksStay_markDone ..).after ((clocksStay_readsEnd ..).after ?_))
      generalize hs : State.present _ c (some ser) _ = u
      have hu : ClocksStay s u := by
        rw [← hs]
        exact (clocksStay_present ..).after (.after .modCtx .modCh)
      split
      · exact (clocksStay_carryLeaves ..).after hu
      · exact hu

theorem clocksStay_commit (n c ser : Nat) : ClocksStay s (s.commit n c ser) := by
  unfold State.commit
  split
  · exact .refl s
  · rename_i r _
    split
    · exact .refl s
    · extract_lets u v w z
      have hu : ClocksStay s u := clocksStay_commitShadows ..
      have hv : ClocksStay u v := .ite (clocksStay_closed ..) (.refl u)
      have hw : ClocksStay v w := .modCtx
      have hz : ClocksStay w z := .ite (clocksStay_carryLeaves ..) (.refl w)
      exact (clocksStay_reelEnds ..).after ((clocksStay_settle c).after ((clocksStay_markDone ..).after
        ((clocksStay_readsEnd ..).after (hz.after (hw.after (hv.after hu))))))

/-! ### Time -/

theorem clocksStay_later (n : Nat) (e : Later) : ClocksStay s (s.later n e) := by
  unfold State.later
  dsimp only
  split
  · exact clocksStay_offend ..
  · exact clocksStay_fault ..
  · exact clocksStay_tileCheck ..
  · split
    · exact clocksStay_feed ..
    · exact .refl s
  · split
    · exact clocksStay_imports ..
    · exact .refl s
  · exact clocksStay_commit ..
  · exact clocksStay_closeUnit ..
  · exact clocksStay_reserve ..
  · exact clocksStay_emitHeld ..
  · exact clocksStay_turn ..
  · exact clocksStay_turnClose ..
  · exact .modCtx
  · exact clocksStay_addLoss ..
  · exact (clocksStay_settle _).after .modCtx
  · exact .modCh
  · exact (foldl_queueHome_homesQueued _ _ s).clocksStay
  · exact (clocksStay_settle _).after (.modCh (dropShadows_cyc · _))
  · exact (clocksStay_reelEnds ..).after (clocksStay_settle _)

theorem clocksStay_settleTo (n cc rank fuel : Nat) : ∀ s : State, ClocksStay s (s.settleTo n cc rank fuel) := by
  induction fuel with
  | zero => exact fun s => .refl s
  | succ k ih =>
    intro s
    unfold State.settleTo
    split
    · exact .refl s
    · exact .ite ((ih _).after ((clocksStay_later ..).after .modCh)) (.refl s)

end

end Sys2Proof.Machine
end

section
/-! SUPPORT. Passing time reaches its cc, and the end of an abandonment (R261, R269, R273). -/
namespace Sys2Proof.Machine
open Sys2Proof.Safety

/-! ### The cc that passing time reaches -/

section
variable {n cc : Nat} (hcc : cc < 2 ^ 64)
include hcc

/-- Each turn of passing time counts a cc at least, and none past the one it goes to. -/
theorem le_passFor (rank fuel : Nat) : ∀ s : State, cc ≤ (s.ch n).cyc + fuel → cc ≤ ((s.passFor n cc rank fuel).ch n).cyc := by
  induction fuel with
  | zero => exact fun s h => h
  | succ k ih =>
    intro s hfuel
    unfold State.passFor
    split
    · assumption
    · have hnext := le_nextCc s n cc
      extract_lets t u
      have ht : (s.ch n).cyc + 1 ≤ t ∧ t ≤ cc := by omega
      have hu : (u.ch n).cyc = t := by
        refine (endCc_ch s n (t - (s.ch n).cyc)).2.2.trans ?_
        unfold sat64
        omega
      have hstay : ∀ v, ClocksStay u v → cc ≤ (v.ch n).cyc + k := fun v hv => by
        rw [hv.cyc, hu]
        omega
      refine ih _ ?_
      split
      · exact hstay _ (clocksStay_settleTo ..)
      · exact hstay _ (clocksStay_settleTo ..)

theorem le_pass {s : State} (ht : (s.ch n).ticking = true) : cc ≤ ((s.pass n cc).ch n).cyc := by
  rw [State.pass, if_pos ht, State.settleDue, (clocksStay_settleTo ..).cyc]
  exact le_passFor hcc _ _ s (by omega)

end

/-! ### The end of an abandonment -/

/-- The abandonment of a context is complete: the lane groups it still held are free from a cc. -/
def State.abandonEnds (p : State) (n c cc : Nat) : State :=
  (p.setCh n { p.ch n with holders := (p.ch n).holders.map fun g => if g.now = some c then ⟨none, some c, cc⟩ else g }).setCtx c
    { p.ctx c with abandonAt := none }

/-- A RESTORE that waited: the context no longer waits for the abandonment. -/
def State.restoreCalled (p : State) (c : Nat) : State := p.modCtx c fun x => { x with restoreWait := false }

section
variable {p : State} {n c cc : Nat}

theorem releaseGroups_eq_abandonEnds (hruns : (p.ctx c).runs = []) (hhome : p.chanOf c = n) :
    (p.modCtx c fun x => { x with abandonAt := none }).releaseGroups c cc = p.abandonEnds n c cc := by
  have hx : (p.modCtx c fun x => { x with abandonAt := none }).ctx c = { p.ctx c with abandonAt := none } := State.setCtx_ctx_same ..
  have hn : (p.modCtx c fun x => { x with abandonAt := none }).chanOf c = n := by
    rw [← hhome, State.chanOf, State.chanOf, hx]
    rfl
  rw [State.releaseGroups, hx, hn, if_neg (by simp [hruns])]
  simp only [beq_iff_eq]
  rfl

theorem abandonEnds_ctx_same : (p.abandonEnds n c cc).ctx c = { p.ctx c with abandonAt := none } := State.setCtx_ctx_same ..

theorem abandonEnds_ch_same : (p.abandonEnds n c cc).ch n
    = { p.ch n with holders := (p.ch n).holders.map fun g => if g.now = some c then ⟨none, some c, cc⟩ else g } :=
  State.setCh_ch_same ..

theorem abandonEnds_onlyCtxCh : OnlyCtxCh c n p (p.abandonEnds n c cc) := setCh_setCtx_onlyCtxCh ..

end

/-- What a RESTORE that waited may do once the abandonment is complete. -/
structure RestoreTaken (c n : Nat) (s t : State) : Prop where
  frame : OnlyCtxCh c n s { t with slices := s.slices }
  cyc : (t.ch n).cyc = (s.ch n).cyc
  holders : (t.ch n).holders = (s.ch n).holders
  complete : (t.ctx c).abandonAt = none
  bound : (s.ctx c).st = .faulted → (s.ctx c).faultcode ≠ 0x0A → s.hosted c = true →
    (t.ctx c).st = .bound ∧ (t.ctx c).faultcode = 0 ∧ (t.ctx c).iflt = 0

section
variable {s : State} {n c : Nat}

theorem setCtx_onlyCtxCh (s : State) (n c : Nat) (x : Ctx) : OnlyCtxCh c n s (s.setCtx c x) :=
  ⟨by simp only [State.setCtx], fun _ hd => State.setCtx_ctx_other _ _ _ _ hd, fun _ _ => rfl⟩

theorem onlyCtxCh_trans {s t u : State} (h : OnlyCtxCh c n s t) (k : OnlyCtxCh c n t u) : OnlyCtxCh c n s u := by
  obtain ⟨hframe, hctxs, hchans⟩ := h
  obtain ⟨kframe, kctxs, kchans⟩ := k
  refine ⟨?_, fun d hd => (kctxs d hd).trans (hctxs d hd), fun m hm => (kchans m hm).trans (hchans m hm)⟩
  rw [← hframe, ← kframe]

theorem onlyCtxCh_slices {s t : State} (h : OnlyCtxCh c n s t) : t.slices = s.slices := (congrArg State.slices h.1 :)

theorem restoreTaken_restore (ha : (s.ctx c).abandonAt = none) (hn : (s.ctx c).chan = n) : RestoreTaken c n s (s.restore c).1 := by
  subst hn
  by_cases hok : (s.ctx c).st = .faulted ∧ (s.ctx c).faultcode ≠ 0x0A ∧ s.hosted c = true
  · obtain ⟨hst, hcode, hhost⟩ := hok
    rw [restore_of_complete s c hst hcode hhost ha]
    have hq := restored_requeueStash s c
    have hch := hq.channel (restored_ch_frame s c)
    have hx := (hq.ctx c).trans (restored_ctx_same s c)
    exact ⟨hq.onlyCtxCh (restored_onlyCtxCh s c) rfl, (congrArg Channel.cyc hch :), (congrArg Channel.holders hch :), by rw [hx]; exact ha,
      fun _ _ _ => by rw [hx]; exact ⟨rfl, rfl, rfl⟩⟩
  · rw [restore_of_refused s c (by by_contra h; simp_all)]
    have hx : (s.setCtx c { s.ctx c with binderr := 0x8 }).ctx c = { s.ctx c with binderr := 0x8 } := State.setCtx_ctx_same ..
    exact ⟨setCtx_onlyCtxCh .., rfl, rfl, by rw [hx]; exact ha, fun hst hcode hhost => (hok ⟨hst, hcode, hhost⟩).elim⟩

end

/-! ### ABANDON_COMPLETE by its ends -/

theorem exec_abandonComplete {s : State} (hs : Inside s) (c : CtxId) : exec (.abandonComplete c) s = .next (s.abandoned c.val) := by
  rw [exec, execAbandonComplete, hw_inside hs]

section
variable {s : State} {c f n : Nat} (hf : (s.ctx c).abandonAt = some f)
include hf

theorem abandoned_of_frozen (h : (s.ch (s.chanOf c)).frozen = true) : s.abandoned c = s := by
  simp only [State.abandoned, hf, h, if_true]

theorem abandoned_eq (hn : s.chanOf c = n) (h : (s.ch n).frozen = false) {p : State} (hp : s.pass n (f + 40) = p)
    (hruns : (p.ctx c).runs = []) (hhome : p.chanOf c = n) :
    s.abandoned c = if (p.ctx c).restoreWait && (p.ctx c).st == .faulted then (((p.abandonEnds n c (f + 40)).restoreCalled c).restore c).1
      else p.abandonEnds n c (f + 40) := by
  subst hn
  rw [State.abandoned]
  simp only [hf, h, hp, Bool.false_eq_true, if_false, releaseGroups_eq_abandonEnds hruns hhome]
  rfl

end

end Sys2Proof.Machine

namespace Sys2Proof
open Sys2Proof.Machine Sys2Proof.Safety

/-- Settles O21: the end of an abandonment by what the passing of time to cc f + 40 leaves. -/
theorem abandonmentFreesTheLaneGroups : Obligations.AbandonmentFreesTheLaneGroups := by
  intro s c f hs hf
  extract_lets n p
  refine ⟨fun hst hclk => ?_, fun hclk hruns hhome hchan => ?_⟩
  · rw [exec_abandonComplete hs, abandoned_of_frozen hf (by simp [Channel.frozen, hst, hclk, n])]
  · have hfrozen : (s.ch n).frozen = false := by
      rcases hclk with h | h
      · simp [Channel.frozen, h]
      · simp [Channel.frozen, h]
    have heq := abandoned_eq (n := n) hf rfl hfrozen (p := p) rfl hruns hhome
    have hcyc : (s.ch n).ticking = true → f + 40 < 2 ^ 64 → f + 40 ≤ (p.ch n).cyc := fun ht hcc => le_pass hcc ht
    clear_value p
    have hx := abandonEnds_ctx_same (p := p) (n := n) (c := c.val) (cc := f + 40)
    have hch := abandonEnds_ch_same (p := p) (n := n) (c := c.val) (cc := f + 40)
    have honly := abandonEnds_onlyCtxCh (p := p) (n := n) (c := c.val) (cc := f + 40)
    refine ⟨_, exec_abandonComplete hs c, ?_⟩
    rw [heq]
    generalize p.abandonEnds n c.val (f + 40) = q at hx hch honly ⊢
    have hqcyc : (q.ch n).cyc = (p.ch n).cyc := by rw [hch]
    split
    · have hy : (q.restoreCalled c.val).ctx c.val = { p.ctx c.val with abandonAt := none, restoreWait := false } := by
        rw [State.restoreCalled, State.modCtx, State.setCtx_ctx_same, hx]
      have hhosted : (q.restoreCalled c.val).hosted c.val = p.hosted c.val := by
        rw [State.hosted, State.hosted, hy]
        show (((q.restoreCalled c.val).ch (p.ctx c.val).chan).record c.val).isSome = _
        rw [hchan]
        exact (congrArg (fun h : Channel => (h.record c.val).isSome) hch :)
      have hrestore := restoreTaken_restore (s := q.restoreCalled c.val) (c := c.val) (n := n) (by rw [hy]) (by rw [hy]; exact hchan)
      have hframe : OnlyCtxCh c.val n p { ((q.restoreCalled c.val).restore c.val).1 with slices := p.slices } := by
        rw [← onlyCtxCh_slices honly]
        exact onlyCtxCh_trans honly (onlyCtxCh_trans (setCtx_onlyCtxCh ..) hrestore.frame)
      refine ⟨fun ht hcc => ?_, ?_, hrestore.complete, fun hno => ?_, fun _ hst hcode hhost => ?_, hframe⟩
      · rw [hrestore.cyc]
        exact (hcyc ht hcc).trans_eq hqcyc.symm
      · rw [hrestore.holders]
        exact (congrArg Channel.holders hch :)
      · rename_i hwait
        rw [hno] at hwait
        cases hwait
      · exact hrestore.bound (by rw [hy]; exact hst) (by rw [hy]; exact hcode) (hhosted.trans hhost)
    · rename_i hwait
      refine ⟨fun ht hcc => (hcyc ht hcc).trans_eq hqcyc.symm, by rw [hch], by rw [hx], fun _ => ⟨hx, honly⟩,
        fun hyes hst => (hwait (by rw [hyes, hst]; rfl)).elim, ?_⟩
      rw [← onlyCtxCh_slices honly]
      exact honly

end Sys2Proof
end

section
/-! SUPPORT. A tick of the clocks by what it leaves (R271, R272, R321, R322, R383). -/
namespace Sys2Proof.Machine
open Sys2Proof.Safety

/-! ### What a cc touches -/

/-- A state without its channels and contexts. -/
def State.apart (s : State) : State := { s with chans := [], ctxs := [] }

theorem uc_of_apart {s t : State} (h : t.apart = s.apart) : t.uc = s.uc := (congrArg State.uc h :)

theorem apart_modCtx (s : State) (c : Nat) (f : Ctx → Ctx) : (s.modCtx c f).apart = s.apart := rfl

theorem apart_setCh (s : State) (n : Nat) (h : Channel) : (s.setCh n h).apart = s.apart := rfl

theorem apart_modCh (s : State) (n : Nat) (f : Channel → Channel) : (s.modCh n f).apart = s.apart := rfl

theorem apart_foldl {α : Type} {f : State → α → State} (hf : ∀ s a, (f s a).apart = s.apart) (l : List α) (s : State) :
    (l.foldl f s).apart = s.apart :=
  foldl_keeps (P := fun t : State => t.apart = s.apart) (fun t a h => (hf t a).trans h) l s rfl

section
variable (s : State) (n : Nat)

theorem apart_stalls (p q : Bool) (ks : List (Nat × Cause)) (j : Nat) : (s.stalls n p q ks j).apart = s.apart :=
  (apart_modCh ..).trans (apart_foldl (fun _ _ => apart_modCtx ..) _ _)

theorem apart_charge : (s.charge n).apart = s.apart := (apart_foldl (fun _ _ => apart_modCtx ..) _ _).trans (apart_setCh ..)

theorem apart_endCc (j : Nat) : (s.endCc n j).apart = s.apart := by
  unfold State.endCc
  dsimp only
  refine (apart_modCh ..).trans ((apart_charge ..).trans ((apart_modCh ..).trans ?_))
  split
  · exact apart_stalls ..
  · rfl

variable {s n} {m : Nat} (hm : m ≠ n)
include hm

theorem stalls_ch_other (p q : Bool) (ks : List (Nat × Cause)) (j : Nat) : (s.stalls n p q ks j).ch m = s.ch m := by
  rw [State.stalls, State.modCh, State.setCh_ch_other _ _ _ _ hm, foldl_modCtx_ch]

theorem charge_ch_other : (s.charge n).ch m = s.ch m := by
  rw [State.charge]
  exact (foldl_modCtx_ch ..).trans (State.setCh_ch_other _ _ _ _ hm)

theorem endCc_ch_other (j : Nat) : (s.endCc n j).ch m = s.ch m := by
  unfold State.endCc
  dsimp only
  rw [State.modCh, State.setCh_ch_other _ _ _ _ hm, charge_ch_other hm, State.modCh, State.setCh_ch_other _ _ _ _ hm]
  split
  · exact stalls_ch_other hm ..
  · rfl

end

/-! ### The channel whose cc ends -/

/-- A channel but for what counts a cc, and for the cycles that have passed in it. -/
def Channel.still (h : Channel) : Channel :=
  { h with cyc := 0, dStarve := 0, dPstall := 0, dPcause := [], polled := none, laneRes := [], treeRes := [], treeTgt := [], scanRes := [] }

/-- The end of j like cc on their channel but for its stalls. -/
def Channel.ccEnded (h : Channel) (j : Nat) : Channel :=
  let g := { h with cyc := sat64 (h.cyc + j), polled := none }
  let g := { g with laneRes := g.laneRes.filter fun r => g.cyc ≤ r.cc }.pruneTree
  { g with scanRes := g.scanRes.filter fun e => g.cyc < e.lo + e.n }

theorem ccEnded_still (h : Channel) (j : Nat) : (h.ccEnded j).still = h.still := rfl

theorem ccEnded_dStarve (h : Channel) (j : Nat) : (h.ccEnded j).dStarve = h.dStarve := rfl

/-- The stalls of j like cc, counted where the channel serves contexts. -/
def State.stalled (s : State) (n j : Nat) : State :=
  if (s.ch n).serves then
    s.stalls n (match (s.ch n).polled with | some p => p.presented | none => false) (s.ccStarved n) (s.ccStalls n) j
  else s

theorem endCc_ch_same (s : State) (n j : Nat) : (s.endCc n j).ch n = ((s.stalled n j).ch n).ccEnded j := by
  have heq : s.endCc n j = (((s.stalled n j).modCh n fun h => { h with cyc := sat64 (h.cyc + j), polled := none }).charge n).modCh n fun h =>
      { h.pruneTree with scanRes := h.pruneTree.scanRes.filter fun e => h.pruneTree.cyc < e.lo + e.n } := rfl
  rw [heq, State.modCh, State.setCh_ch_same, charge_ch, State.modCh, State.setCh_ch_same]
  rfl

theorem stalled_still (s : State) (n j : Nat) : ((s.stalled n j).ch n).still = (s.ch n).still := by
  unfold State.stalled
  split
  · rw [stalls_ch]
    rfl
  · rfl

/-- CHSTARVE counts the cc where the channel serves contexts and a started run waits for the host (R322). -/
theorem stalled_dStarve (s : State) (n j : Nat) : ((s.stalled n j).ch n).dStarve
    = (s.ch n).dStarve + if (s.ch n).serves = true ∧ s.ccStarved n = true then j else 0 := by
  rw [State.stalled]
  by_cases hv : (s.ch n).serves = true
  · rw [if_pos hv, stalls_ch]
    by_cases hw : s.ccStarved n = true
    · simp only [hv, hw, if_true, and_self]
    · simp only [hv, hw, and_false, if_false, Bool.false_eq_true, Nat.add_zero]
  · simp only [hv, false_and, if_false, Bool.false_eq_true, Nat.add_zero]

theorem endCc_still (s : State) (n j : Nat) : ((s.endCc n j).ch n).still = (s.ch n).still := by
  rw [endCc_ch_same, ccEnded_still, stalled_still]

theorem endCc_dStarve (s : State) (n j : Nat) : ((s.endCc n j).ch n).dStarve
    = (s.ch n).dStarve + if (s.ch n).serves = true ∧ s.ccStarved n = true then j else 0 := by
  rw [endCc_ch_same, ccEnded_dStarve, stalled_dStarve]

/-! ### One tick -/

/-- Whether a started run waits for the host does not depend on what the slots and stalls of other channels moved. -/
theorem ccStarved_of_onlyWaits {s t : State} {n : Nat} (hw : OnlyWaits s t) (hn : t.ch n = s.ch n) : t.ccStarved n = s.ccStarved n := by
  have hruns : ∀ c, (t.ctx c).runs = (s.ctx c).runs := fun c => (congrArg Ctx.runs (hw c).eq :)
  simp only [State.ccStarved, State.starved, hn, hruns]

/-- What one cc in which nothing falls due makes of a channel. -/
structure ChTicks (s : State) (n : Nat) (h : Channel) : Prop where
  stands : (s.ch n).st = .off ∨ (s.ch n).clkStop = true → h = s.ch n
  cyc : (s.ch n).ticking = true → h.cyc = sat64 ((s.ch n).cyc + 1)
  dStarve : (s.ch n).ticking = true →
    h.dStarve = (s.ch n).dStarve + if (s.ch n).serves = true ∧ s.ccStarved n = true then 1 else 0
  still : h.still = (s.ch n).still

theorem tickCh_of_nothingDue {s : State} {n : Nat} (ht : (s.ch n).ticking = true) (hd : NothingDue (s.ch n) ((s.ch n).cyc + 1)) :
    s.tickCh n = s.endCc n 1 := by
  obtain ⟨edue, -, ecyc⟩ := endCc_ch s n 1
  rw [State.tickCh, if_pos ht, settleDue_of_nothingDue]
  intro e he
  rw [edue] at he
  rw [ecyc]
  exact Nat.lt_of_le_of_lt (Nat.min_le_left ..) (hd e he)

theorem tickCh_of_standing {s : State} {n : Nat} (ht : (s.ch n).ticking = false) : s.tickCh n = s := by
  rw [State.tickCh, ht, if_neg Bool.false_ne_true]

theorem ticking_eq_false_iff {h : Channel} : h.ticking = false ↔ h.st = .off ∨ h.clkStop = true := by
  simp [Channel.ticking, Decidable.or_iff_not_imp_left]

section
variable {s t : State} {n : Nat} (hd : NothingDue (t.ch n) ((t.ch n).cyc + 1))
include hd

/-- With nothing due, a channel's cc leaves the other channels, what is outside both, and most of each context. -/
theorem tickCh_frame : OnlyWaits t (t.tickCh n) ∧ (t.tickCh n).apart = t.apart ∧ ∀ m, m ≠ n → (t.tickCh n).ch m = t.ch m := by
  cases ht : (t.ch n).ticking with
  | false =>
    rw [tickCh_of_standing ht]
    exact ⟨OnlyWaits.refl t, rfl, fun _ _ => rfl⟩
  | true =>
    rw [tickCh_of_nothingDue ht hd]
    exact ⟨onlyWaits_endCc t n 1, apart_endCc .., fun _ hm => endCc_ch_other hm 1⟩

theorem chTicks_tickCh (hw : OnlyWaits s t) (hn : t.ch n = s.ch n) : ChTicks s n ((t.tickCh n).ch n) := by
  have hstarved := ccStarved_of_onlyWaits hw hn
  cases ht : (t.ch n).ticking with
  | false =>
    rw [tickCh_of_standing ht]
    rw [hn] at ht
    exact ⟨fun _ => hn, fun h => absurd (h.symm.trans ht) (by decide), fun h => absurd (h.symm.trans ht) (by decide), by rw [hn]⟩
  | true =>
    rw [tickCh_of_nothingDue ht hd]
    refine ⟨fun hstand => ?_, fun _ => ?_, fun _ => ?_, ?_⟩
    · rw [hn, ticking_eq_false_iff.mpr hstand] at ht
      cases ht
    · rw [← hn]
      exact (endCc_ch t n 1).2.2
    · rw [← hn, ← hstarved]
      exact endCc_dStarve t n 1
    · rw [← hn]
      exact endCc_still t n 1

end

/-! ### All channels -/

/-- The channels of a list tick one after another: each as it was before the first, as none touches what the others read. -/
theorem foldl_tickCh {s : State} : ∀ {l : List Nat} (t : State), l.Nodup → OnlyWaits s t →
    (∀ n ∈ l, t.ch n = s.ch n ∧ NothingDue (s.ch n) ((s.ch n).cyc + 1)) →
    let r := l.foldl (fun s n => s.tickCh n) t
    OnlyWaits s r ∧ r.apart = t.apart ∧ (∀ n ∈ l, ChTicks s n (r.ch n)) ∧ ∀ m, m ∉ l → r.ch m = t.ch m
  | [], t, _, hw, _ => ⟨hw, rfl, fun _ h => (List.not_mem_nil h).elim, fun _ _ => rfl⟩
  | a :: l, t, hnodup, hw, hl => by
    obtain ⟨ha, hrest⟩ := List.nodup_cons.mp hnodup
    obtain ⟨hch, hdue⟩ := hl a List.mem_cons_self
    have hdue : NothingDue (t.ch a) ((t.ch a).cyc + 1) := by rwa [hch]
    obtain ⟨kw, kapart, kch⟩ := tickCh_frame hdue
    have hticks := chTicks_tickCh hdue hw hch
    have hlater : ∀ n ∈ l, (t.tickCh a).ch n = s.ch n ∧ NothingDue (s.ch n) ((s.ch n).cyc + 1) := fun n hn => by
      obtain ⟨e, hd⟩ := hl n (List.mem_cons_of_mem _ hn)
      exact ⟨(kch n fun h => ha (h ▸ hn)).trans e, hd⟩
    obtain ⟨hall, rapart, rticks, rch⟩ := foldl_tickCh (t.tickCh a) hrest (kw.after hw) hlater
    refine ⟨hall, rapart.trans kapart, fun n hn => ?_, fun m hm => ?_⟩
    · rcases List.mem_cons.mp hn with e | e
      · rw [e, List.foldl_cons, rch a ha]
        exact hticks
      · exact rticks n e
    · rw [List.mem_cons, not_or] at hm
      exact (rch m hm.2).trans (kch m hm.1)

theorem tick_eq {s : State} (hs : Inside s) : s.tick = (List.range 8).foldl (fun s n => s.tickCh n) { s with uc := s.uc + 1 } := by
  obtain ⟨hundef, hjrst⟩ := hs
  rw [State.tick, hjrst, hundef, Bool.or_false, if_neg Bool.false_ne_true]

theorem tickCh_uc (s : State) (n : Nat) : (s.tickCh n).uc = s.uc := by
  unfold State.tickCh
  split
  · exact (clocksStay_settleTo ..).uc.trans (uc_of_apart (apart_endCc s n 1))
  · rfl

theorem tick_uc {s : State} (hs : Inside s) : s.tick.uc = s.uc + 1 := by
  rw [tick_eq hs]
  exact foldl_keeps (P := fun t : State => t.uc = s.uc + 1) (fun t n e => (tickCh_uc t n).trans e) (List.range 8) _ rfl

/-- A tick in which nothing falls due. -/
theorem tick_of_nothingDue {s : State} (hs : Inside s) (hd : ∀ n < 8, NothingDue (s.ch n) ((s.ch n).cyc + 1)) :
    OnlyWaits s s.tick ∧ s.tick.apart = { s with uc := s.uc + 1 }.apart ∧ ∀ n < 8, ChTicks s n (s.tick.ch n) := by
  obtain ⟨hw, hapart, hticks, -⟩ := foldl_tickCh (s := s) (l := List.range 8) { s with uc := s.uc + 1 } List.nodup_range
    (OnlyWaits.refl s) (fun n hn => ⟨rfl, hd n (List.mem_range.mp hn)⟩)
  rw [tick_eq hs]
  exact ⟨hw, hapart, fun n hn => hticks n (List.mem_range.mpr hn)⟩

end Sys2Proof.Machine

namespace Sys2Proof
open Sys2Proof.Machine Sys2Proof.Safety

/-- Settles O2: a tick, channel by channel. -/
theorem idleStepTicksClocks : Obligations.IdleStepTicksClocks := by
  intro s hnone hs
  refine ⟨by rw [Machine.step, hnone], tick_uc hs, fun hd => ?_⟩
  obtain ⟨hw, hapart, hticks⟩ := tick_of_nothingDue hs hd
  refine ⟨fun n => ?_, hw, ?_⟩
  · obtain ⟨hstands, hcyc, hstarve, hstill⟩ := hticks n.val n.isLt
    generalize s.tick.ch n.val = h at hstands hcyc hstarve hstill ⊢
    refine ⟨hstands, fun hon hrun => ?_⟩
    have hticking : (s.ch n.val).ticking = true := by simp [Channel.ticking, hon, hrun]
    refine ⟨hcyc hticking, hstarve hticking, ?_⟩
    generalize s.ch n.val = g at hstill ⊢
    exact (congrArg (fun k : Channel => { k with
      cyc := g.cyc, dStarve := g.dStarve, dPstall := g.dPstall, dPcause := g.dPcause, polled := g.polled, laneRes := g.laneRes
      treeRes := g.treeRes, treeTgt := g.treeTgt, scanRes := g.scanRes }) hstill :)
  · generalize s.tick = t at hapart ⊢
    exact (congrArg (fun q : State => { q with uc := s.uc, chans := s.chans, ctxs := s.ctxs }) hapart :)

end Sys2Proof
end

section
/-! SUPPORT. The fields of DISCARD and RCLOSE words and the checks that they pass (R282, R284, R304; Tables 10-3, 10-14, 10-14a). -/
namespace Sys2Proof.Machine

/-! ### Checks of fields -/

theorem topFail_concat_eq_none_iff (ks : List Chk) (k : Chk) : topFail (ks ++ [k]) = none ↔ topFail ks = none ∧ k.2 = false := by
  simp only [topFail, List.foldl_append, List.foldl_cons, List.foldl_nil]
  generalize ks.foldl _ none = m
  cases k.2 <;> cases m <;> simp

/-- A list of checks names no field exactly where none of them fails. -/
theorem topFail_eq_none_iff (ks : List Chk) : topFail ks = none ↔ ∀ k ∈ ks, k.2 = false := by
  induction ks using List.reverseRecOn with
  | nil => simp [topFail]
  | append_singleton ks k ih => rw [topFail_concat_eq_none_iff, ih, List.forall_mem_append, List.forall_mem_singleton]

theorem bit_eq_of_mod {w : IWord} {i : Nat} {b : Bool} (h : w.toNat / 2 ^ i % 2 = b.toNat) : IWord.bit w i = b := by
  rw [bit_eq, h, decide_toNat_eq_one]

/-! ### DISCARD -/

theorem discardWord_toNat (p : BitVec 16) : (discardWord p).toNat = p.toNat * 2 ^ 101 + 2 * 2 ^ 120 := by
  have hp := p.isLt
  rw [discardWord, mkWord_toNat, fieldSum_cons, fieldSum_nil, Nat.mod_eq_of_lt (by omega), Nat.add_comm]

theorem fld_discardWord (p : BitVec 16) : IWord.fld (discardWord p) 116 101 = p.toNat := by
  have hp := p.isLt
  rw [fld_eq, discardWord_toNat]
  omega

/-- The reserved fields of Table 10-3 in a DISCARD. -/
def discardZeros : List (Nat × Nat) := [(119, 119), (118, 118), (117, 117), (100, 87), (86, 55), (54, 25), (24, 24), (23, 0)]

theorem discardWord_zeros (p : BitVec 16) : ∀ f ∈ discardZeros, IWord.fld (discardWord p) f.1 f.2 = 0 := by
  have hp := p.isLt
  simp only [discardZeros, List.forall_mem_cons, fld_eq, discardWord_toNat]
  refine ⟨?_, ?_, ?_, ?_, ?_, ?_, ?_, ?_, by simp⟩ <;> omega

theorem topFail_zeros {w : IWord} {fs : List (Nat × Nat)} (hz : ∀ f ∈ fs, IWord.fld w f.1 f.2 = 0) :
    topFail (controlChecks.zeros w fs) = none := by
  rw [controlChecks.zeros, topFail_eq_none_iff, List.forall_mem_map]
  intro f hf
  rw [hz f hf]; rfl

theorem directCheck_of_discard {w : IWord} (hop : opOf w = some .discard) (hz : ∀ f ∈ discardZeros, IWord.fld w f.1 f.2 = 0) :
    directCheck w = none := by
  have hw : directCheck w = topFail (controlChecks w) := by rw [directCheck, hop]
  have hc : controlChecks w = controlChecks.zeros w discardZeros := by rw [controlChecks, hop, discardZeros]
  rw [hw, hc, topFail_zeros hz]

/-! ### RCLR and RCLOSE -/

theorem directCheck_of_kind_gt {w : IWord} {rn rcnt kind : Nat} (hw : ReamW.ofWord w = ⟨rn, rcnt, kind, 0, false, 0, false, false, 0, 0⟩)
    (hlow : IWord.fld w 86 0 = 0) (hop : opc w = 0x90) (hk : 4 < kind) : directCheck w = some 101 := by
  have hr : opOf w = some .rclr := by rw [opOf, hop]; rfl
  simp [directCheck, hr, reamChecks, hop, hw, hlow, topFail, hk]

/-- Of the kinds that an RCLR names R304 excludes those above 4. -/
theorem directCheck_rclrWord_eq (rn rcnt : BitVec 8) (kind : BitVec 3) :
    directCheck (rclrWord rn rcnt kind) = if kind.toNat ≤ 4 then none else some 101 := by
  by_cases hk : kind.toNat ≤ 4
  · rw [if_pos hk, directCheck_rclrWord rn rcnt hk]
  · obtain ⟨hop, hw, hlow⟩ := rclrWord_fields rn rcnt kind
    rw [if_neg hk, directCheck_of_kind_gt hw hlow hop (Nat.not_le.mp hk)]

theorem rcloseWord_toNat (w : RcloseFields) : (rcloseWord w).toNat = 0x92 * 2 ^ 120 + w.rn.toNat * 2 ^ 112 + w.rcnt.toNat * 2 ^ 104
    + w.ofmt.toNat * 2 ^ 97 + w.route.toNat * 2 ^ 96 + w.ddof.toNat * 2 ^ 95 + w.stats.toNat * 2 ^ 94 + w.dest.toNat * 2 ^ 93
    + w.dslot.toNat * 2 ^ 89 + w.sel.toNat * 2 ^ 87 := by
  have h1 := w.route.toNat_lt
  have h2 := w.ddof.toNat_lt
  have h3 := w.stats.toNat_lt
  have h4 := w.dest.toNat_lt
  rw [rcloseWord, mkWord_toNat, fieldSum_cons, fieldSum_cons, fieldSum_cons, fieldSum_cons, fieldSum_cons, fieldSum_cons, fieldSum_cons,
    fieldSum_cons, fieldSum_cons, fieldSum_nil, Nat.mod_eq_of_lt (by omega)]

theorem rcloseWord_fields (w : RcloseFields) : opc (rcloseWord w) = 0x92
    ∧ ReamW.ofWord (rcloseWord w) = ⟨w.rn.toNat, w.rcnt.toNat, 0, w.ofmt.toNat, w.route, w.ddof.toNat, w.stats, w.dest,
        w.dslot.toNat, w.sel.toNat⟩
    ∧ IWord.fld (rcloseWord w) 86 0 = 0 := by
  have h1 := w.route.toNat_lt
  have h2 := w.ddof.toNat_lt
  have h3 := w.stats.toNat_lt
  have h4 := w.dest.toNat_lt
  simp only [opc, ReamW.ofWord, ReamW.mk.injEq, fld_eq]
  refine ⟨?_, ⟨?_, ?_, ?_, ?_, bit_eq_of_mod ?_, ?_, bit_eq_of_mod ?_, bit_eq_of_mod ?_, ?_, ?_⟩, ?_⟩ <;> rw [rcloseWord_toNat] <;> omega

/-- What R304 and Table 10-14a ask of the fields of an RCLOSE. -/
theorem directCheck_rcloseWord_eq_none_iff (w : RcloseFields) : directCheck (rcloseWord w) = none ↔
    (w.ofmt.toNat ≤ 4 ∨ w.ofmt.toNat = 10) ∧ (w.dest = true → w.route = false) ∧ (w.dest = false → w.dslot = 0)
    ∧ (w.stats = false → w.ddof = 0)
    ∧ (w.stats = true → w.rn.toNat % 2 = 0 ∧ w.rcnt.toNat % 2 = 1 ∧ w.ofmt.toNat ≤ 4 ∧ w.sel = 0)
    ∧ (w.stats = false → w.sel = 0 → w.ofmt.toNat ≤ 4)
    ∧ (w.stats = false → w.sel = 1 ∨ w.sel = 2 → w.ofmt.toNat = 0)
    ∧ (w.stats = false → w.sel = 3 → w.ofmt.toNat = 10 ∧ w.route = false) := by
  obtain ⟨hop, hw, hlow⟩ := rcloseWord_fields w
  have hdslot : w.dslot = 0 ↔ w.dslot.toNat = 0 := BitVec.toNat_inj.symm
  have hsel : ∀ k : BitVec 2, w.sel = k ↔ w.sel.toNat = k.toNat := fun k => BitVec.toNat_inj.symm
  have hddof : w.ddof = 0 ↔ w.ddof.toNat = 0 := by cases w.ddof <;> decide
  rw [directCheck, opOf_rcloseWord]
  simp only [topFail_eq_none_iff, reamChecks, hop, hw, hlow, hdslot, hsel, hddof]
  cases w.stats <;> cases w.dest <;> simp <;> grind

end Sys2Proof.Machine

namespace Sys2Proof
open Sys2Proof.Machine

/-- Settles O32, word by word: each field is what the word's number leaves between two powers of two. -/
theorem directWordsCarryTheirFields : Obligations.DirectWordsCarryTheirFields := by
  unfold Obligations.DirectWordsCarryTheirFields
  refine ⟨⟨opOf_nopWord, directCheck_nopWord⟩, fun w => ⟨opOf_runWord w, directCheck_runWord w, ofWord_runWord w⟩,
    fun p => ⟨opOf_discardWord p, directCheck_of_discard (opOf_discardWord p) (discardWord_zeros p), fld_discardWord p⟩, fun rn rcnt k => ?_, fun rn rcnt => ?_, fun w => ?_,
    fun i n => ?_⟩
  · have hw := (rclrWord_fields rn rcnt k).2.1
    exact ⟨opOf_rclrWord rn rcnt k, directCheck_rclrWord_eq rn rcnt k, congrArg ReamW.rn hw, congrArg ReamW.rcnt hw, congrArg ReamW.kind hw⟩
  · have hw := (rexpWord_fields rn rcnt).2.1
    exact ⟨opOf_rexpWord rn rcnt, directCheck_rexpWord rn rcnt, congrArg ReamW.rn hw, congrArg ReamW.rcnt hw⟩
  · exact ⟨opOf_rcloseWord w, directCheck_rcloseWord_eq_none_iff w, (rcloseWord_fields w).2.1⟩
  · have hrel : LoftCommand 0 0 i n (.lrel 0 0 i n) 0xA0 (.release i.toNat (n.toNat + 1)) := .inl ⟨rfl, rfl, rfl⟩
    have hflush : LoftCommand 0 0 i n (.lflush 0 0 i n) 0xA1 (.flush i.toNat (n.toNat + 1)) := .inr ⟨rfl, rfl, rfl⟩
    exact ⟨(opOf_loftWord i n).1, (opOf_loftWord i n).2, hrel.directCheck, hflush.directCheck,
      (loftWord_fields (by decide) i n).2.1, (loftWord_fields (by decide) i n).2.1⟩

end Sys2Proof
end

section
/-! SUPPORT. An RCLOSE of an EXP ream whose OFFSET needs more bits than its descriptor has (Table 3-2): the entry of that offset is no FP32
code, and the upper half of the close result is no slot of 16 bits (R304, R347; Table 10-14a). -/
namespace Sys2Proof.Machine
open Sys2Proof.Safety

/-- RCLOSE of ream 0 in FP32 under SEL 1: the rounded sum and the offset. -/
def offsetClose : RcloseFields := ⟨0, 0, 0, false, false, false, false, 0, 1⟩

/-- An EXP ream, cleared but for an OFFSET of 2^385. -/
def wideOffset : RPart := { RPart.clear .exp with offset := 2 ^ 385 }

/-- A bound context, with that ream as the first of its block on channel 0. -/
def wideOffsetState : State :=
  { State.reset with
    chans := [(0, { Channel.reset with st := .ready, alloc := [⟨0, 0, 0, 4, 0⟩], reams := [(0, ⟨wideOffset, none⟩)] })]
    ctxs := [(0, { Ctx.reset with st := .bound, reamreq := 1 })] }

theorem wideOffsetState_actsAtOnce : ActsAtOnce wideOffsetState 0 0 := by decide

theorem wideOffsetState_wordPoint_ch : ((wordPoint wideOffsetState 0).ch 0).egress = []
    ∧ ((wordPoint wideOffsetState 0).ch 0).ream 0 = ⟨wideOffset, none⟩ := by decide +kernel

theorem closeTakes_offsetClose : closeTakes offsetClose .exp := by simp [closeTakes, offsetClose]

/-- Slot 1, that of the offset, in each beat that channel 0 is to send after a command. -/
def offsetSlots (o : Host.Outcome State Fault Refusal) : List Nat :=
  match o with
  | .next t => (newBeats [] (t.ch 0).egress).map fun b => slotOf b 1
  | _ => []

/-- The entry is 2^32: its upper half has 17 bits. -/
theorem offsetSlots_offsetClose : offsetSlots (exec (.rclose 0 0 offsetClose) wideOffsetState) = [0, 65536] := by decide +kernel

end Sys2Proof.Machine

namespace Sys2Proof
open Sys2Proof.Machine Sys2Proof.Safety

/-- Refutes O37: with DEST 0 an entry need not fit the two halves of a 32-bit format. No premise keeps the OFFSET of an EXP ream within the 24
bits of its descriptor (Table 3-2); of an OFFSET of 2^385 the entry under SEL 1 is 2^32, and slot 1 of the upper half holds 65,536, not the
upper 16 bits of a code. -/
theorem not_rcloseEmitsOrFillsItsSlot : ¬ Obligations.RcloseEmitsOrFillsItsSlot := by
  intro h
  obtain ⟨hegress, hream⟩ := wideOffsetState_wordPoint_ch
  obtain ⟨-, -, -, hclose, -⟩ := h wideOffsetState 0 0 offsetClose wideOffsetState_actsAtOnce (by decide)
  have hkinds : ∀ i ≤ 0, closeTakes offsetClose (((wordPoint wideOffsetState 0).ch 0).ream (0 + 0 + i)).com.kind := by
    intro i hi
    obtain rfl := Nat.le_zero.mp hi
    rw [hream]
    exact closeTakes_offsetClose
  obtain ⟨t, ht, -, ⟨-, hnew⟩, -⟩ := (hclose (by decide) (by decide) hkinds).1 rfl
  have hslots : offsetSlots (.next t) = [0, 65536] := ht ▸ offsetSlots_offsetClose
  have hbeats : (newBeats [] (t.ch 0).egress).map (fun b => slotOf b 1) = [0, 65536] := hslots
  have hsecond : ((newBeats [] (t.ch 0).egress)[1]?).map (fun b => slotOf b 1) = some 65536 := by rw [← List.getElem?_map, hbeats]; rfl
  obtain ⟨b, hb, hslot⟩ := Option.map_eq_some_iff.mp hsecond
  obtain ⟨-, -, -, -, -, -, -, -, -, -, -, -, -, hentries⟩ := hnew 1 b (hegress.symm ▸ hb)
  have hupper := hentries 1 (2 ^ 32, flNone) (by decide +kernel)
  rw [hslot] at hupper
  exact absurd hupper (by decide)

end Sys2Proof
end

section
/-! SUPPORT. The stall of a run that waits to start (R321): its cause comes before every cause of a beat in the order of Table 11-3, and the
cc counts it once. -/
namespace Sys2Proof.Machine
open Sys2Proof.Safety

/-! ### Causes of beats (R318) -/

/-- A verdict that is no stall under GROUP or BUDGET. -/
def Verdict.OfBeat (v : Verdict) : Prop := ∀ k, v = .stall k → 2 < k.code

theorem Verdict.ofBeat_stall {k : Cause} (h : 2 < k.code) : Verdict.OfBeat (.stall k) := fun _ e => by cases e; exact h

theorem Verdict.ofBeat_go (r : Run) : Verdict.OfBeat (.go r) := nofun

theorem Verdict.ofBeat_operand (w f : Nat) : Verdict.OfBeat (.operand w f) := nofun

theorem Verdict.ofBeat_bind {v : Verdict} {f : Run → Verdict} (hv : v.OfBeat) (hf : ∀ r, (f r).OfBeat) : (v.bind f).OfBeat := by
  cases v with
  | stall k => exact hv
  | operand w g => exact hv
  | go r => exact hf r

theorem ofBeat_takeCopy (x : Ctx) (r : Run) (q : SlotRead) : (x.takeCopy r q).OfBeat := by
  unfold Ctx.takeCopy
  dsimp only
  split
  · exact Verdict.ofBeat_go _
  · split
    · exact Verdict.ofBeat_operand _ _
    · split
      · split
        · exact Verdict.ofBeat_go _
        · split
          · exact Verdict.ofBeat_stall (by decide)
          · exact Verdict.ofBeat_operand _ _
      · split
        · exact Verdict.ofBeat_stall (by decide)
        · split
          · exact Verdict.ofBeat_go _
          · exact Verdict.ofBeat_operand _ _

theorem ofBeat_fillCopy (x : Ctx) (r : Run) : (x.fillCopy r).OfBeat := by
  unfold Ctx.fillCopy
  dsimp only
  split
  · exact Verdict.ofBeat_go _
  · split
    · exact Verdict.ofBeat_go _
    · split
      · exact Verdict.ofBeat_operand _ _
      · split
        · split
          · exact Verdict.ofBeat_go _
          · split
            · exact Verdict.ofBeat_stall (by decide)
            · exact Verdict.ofBeat_operand _ _
        · split
          · exact Verdict.ofBeat_stall (by decide)
          · exact Verdict.ofBeat_go _

theorem ofBeat_statVerdict (s : State) (c : Nat) (r : Run) (ks : List Nat) : (s.statVerdict c r ks).OfBeat := by
  unfold State.statVerdict
  dsimp only
  split
  · rename_i v hv
    obtain ⟨q, -, hq⟩ := List.mem_flatMap.mp (List.mem_of_find?_eq_some hv)
    obtain ⟨k, -, hk⟩ := List.mem_map.mp hq
    split at hk
    · cases hk
      exact Verdict.ofBeat_stall (by decide)
    · split at hk
      · cases hk
      · cases hk
        exact Verdict.ofBeat_operand _ _
  · exact Verdict.ofBeat_go _

theorem ofBeat_statWrites (x : Ctx) (r : Run) (ks : List Nat) : (x.statWrites r ks).OfBeat := by
  unfold Ctx.statWrites
  dsimp only
  split
  · split
    · exact Verdict.ofBeat_stall (by decide)
    · exact Verdict.ofBeat_go _
  · exact Verdict.ofBeat_go _

/-- Loft records keep a beat back under SLOT or FELT. -/
theorem readRecords_code (s : State) (c ser : Nat) (is : List Nat) : ∀ k, (s.readRecords c ser is).2 = some k → 2 < k.code := by
  refine foldl_keeps (P := fun acc : State × Option Cause => ∀ k, acc.2 = some k → 2 < k.code) (fun acc i h => ?_) is (s, none) (by simp)
  dsimp only
  split
  · exact h
  · split
    · intro k e; cases e; decide
    · split
      · intro k e; cases e; decide
      · split
        · intro k e; cases e; decide
        · split
          · exact h
          · intro k e; cases e; decide
          · intro k e
            cases e
            cases h2 : acc.2 with
            | none => decide
            | some k => exact h k h2

/-- A condition that keeps a beat back under its own cause, and what the later ones answer. -/
theorem ofBeat_condition {p : Prop} [Decidable p] {s : State} {k : Cause} {o : State × Verdict} (hk : 2 < k.code) (h : o.2.OfBeat) :
    (if p then (s, Verdict.stall k) else o).2.OfBeat := by
  split
  · exact Verdict.ofBeat_stall hk
  · exact h

/-- No condition of R318 keeps a beat back under GROUP or BUDGET. -/
theorem ofBeat_verdict (s : State) (n c : Nat) (r : Run) (b : CouchBeat) (t : Nat) : (s.verdict n c r b t).2.OfBeat := by
  unfold State.verdict
  extract_lets x cells cs ks v
  have hv : v.OfBeat := by
    refine Verdict.ofBeat_bind (Verdict.ofBeat_bind (Verdict.ofBeat_bind ?_ (ofBeat_fillCopy _)) (ofBeat_statVerdict s c · _))
      (ofBeat_statWrites _ · _)
    exact foldl_keeps (P := Verdict.OfBeat) (fun w q h => Verdict.ofBeat_bind h (ofBeat_takeCopy _ · q)) _ _ (Verdict.ofBeat_go r)
  clear_value v
  refine ofBeat_condition (by decide) ?_
  cases v with
  | stall k => exact hv
  | operand w f => exact hv
  | go r' =>
    refine ofBeat_condition (by decide) ?_
    extract_lets needs
    split
    · exact Verdict.ofBeat_operand _ _
    · split
      · rename_i s' k hk
        exact Verdict.ofBeat_stall (readRecords_code s c r'.ser _ k (by rw [hk]))
      · refine ofBeat_condition (by decide) (ofBeat_condition (by decide) (ofBeat_condition (by decide) (ofBeat_condition (by decide)
          (ofBeat_condition (by decide) (ofBeat_condition (by decide) (ofBeat_condition (by decide) (ofBeat_condition (by decide) ?_)))))))
        exact Verdict.ofBeat_go _

theorem beatStalls_code {s : State} {n t : Nat} {e : Nat × Cause} (h : e ∈ s.beatStalls n t) : 2 < e.2.code := by
  obtain ⟨q, -, hq⟩ := List.mem_filterMap.mp h
  split at hq
  · rename_i k hk
    cases hq
    exact ofBeat_verdict s n q.ctx q.run q.beat.beat t k hk
  · cases hq

/-! ### Causes of a run that waits to start (R270, R272, R180) -/

theorem startWait_code {s : State} {c : Nat} {k : Cause} (h : s.startWait c = some k) : k.code ≤ 3 := by
  unfold State.startWait at h
  dsimp only at h
  split at h
  · cases h
  · split at h
    · cases h; decide
    · split at h
      · cases h; decide
      · split at h
        · cases h; decide
        · cases h

theorem cause_code_injective {k l : Cause} (h : k.code = l.code) : k = l := by
  revert h
  cases k <;> cases l <;> decide

/-! ### One stall for each context -/

/-- What merging keeps of some stalls: one for each context, of those that there are, under the first of the context's causes. -/
structure Merged (ks l : List (Nat × Cause)) : Prop where
  nodup : (l.map fun e => e.1).Nodup
  mem : ∀ e ∈ l, e ∈ ks
  first : ∀ e ∈ ks, ∃ f ∈ l, f.1 = e.1 ∧ f.2.code ≤ e.2.code

theorem mergeStalls_concat (ks : List (Nat × Cause)) (e : Nat × Cause) :
    ((∀ q ∈ mergeStalls ks, q.1 ≠ e.1) ∧ mergeStalls (ks ++ [e]) = mergeStalls ks ++ [e])
      ∨ ∃ q ∈ mergeStalls ks, q.1 = e.1 ∧ (e.2.code < q.2.code ∧ mergeStalls (ks ++ [e]) = (mergeStalls ks).map (fun p => if p.1 = e.1 then e else p)
        ∨ q.2.code ≤ e.2.code ∧ mergeStalls (ks ++ [e]) = mergeStalls ks) := by
  have hlast : mergeStalls (ks ++ [e]) = List.foldl _ (mergeStalls ks) [e] := List.foldl_append ..
  rw [List.foldl_cons, List.foldl_nil] at hlast
  rw [hlast]
  cases hf : (mergeStalls ks).find? fun q => q.1 == e.1 with
  | none => exact .inl ⟨fun q hq => by simpa using List.find?_eq_none.mp hf q hq, rfl⟩
  | some q =>
    refine .inr ⟨q, List.mem_of_find?_eq_some hf, by simpa using List.find?_some hf, ?_⟩
    by_cases hc : e.2.code < q.2.code
    · exact .inl ⟨hc, by simp [hc]⟩
    · exact .inr ⟨Nat.le_of_not_lt hc, if_neg hc⟩

theorem Merged.add {ks l : List (Nat × Cause)} (h : Merged ks l) {e : Nat × Cause} (he : ∀ q ∈ l, q.1 ≠ e.1) :
    Merged (ks ++ [e]) (l ++ [e]) where
  nodup := by
    rw [List.map_append, List.nodup_append]
    refine ⟨h.nodup, List.nodup_singleton _, ?_⟩
    rintro _ hk _ hj rfl
    obtain ⟨q, hq, rfl⟩ := List.mem_map.mp hk
    exact he q hq (List.mem_singleton.mp hj)
  mem := fun q hq => by
    rw [List.mem_append] at hq ⊢
    exact hq.imp_left (h.mem q)
  first := by
    rw [List.forall_mem_append, List.forall_mem_singleton]
    refine ⟨fun q hq => ?_, e, List.mem_append_right _ (List.mem_singleton_self e), rfl, Nat.le_refl _⟩
    obtain ⟨f, hf, hk⟩ := h.first q hq
    exact ⟨f, List.mem_append_left _ hf, hk⟩

theorem Merged.lower {ks l : List (Nat × Cause)} (h : Merged ks l) {e q : Nat × Cause} (hq : q ∈ l) (hk : q.1 = e.1) (hc : e.2.code < q.2.code) :
    Merged (ks ++ [e]) (l.map fun p => if p.1 = e.1 then e else p) where
  nodup := by
    have hkeys : ∀ p : Nat × Cause, (if p.1 = e.1 then e else p).1 = p.1 := fun p => by split <;> simp_all
    rw [List.map_map, show (fun e => e.1) ∘ (fun p => if p.1 = e.1 then e else p) = fun p : Nat × Cause => p.1 from funext hkeys]
    exact h.nodup
  mem := fun p hp => by
    obtain ⟨p', hp', rfl⟩ := List.mem_map.mp hp
    rw [List.mem_append]
    split
    · exact .inr (List.mem_singleton_self e)
    · exact .inl (h.mem p' hp')
  first := by
    have hmem : e ∈ l.map fun p => if p.1 = e.1 then e else p := List.mem_map.mpr ⟨q, hq, if_pos hk⟩
    rw [List.forall_mem_append, List.forall_mem_singleton]
    refine ⟨fun p hp => ?_, e, hmem, rfl, Nat.le_refl _⟩
    obtain ⟨f, hf, hfk, hfc⟩ := h.first p hp
    by_cases hfe : f.1 = e.1
    · have hfq : f = q := List.inj_on_of_nodup_map h.nodup hf hq (hfe.trans hk.symm)
      exact ⟨e, hmem, hfe.symm.trans hfk, by rw [hfq] at hfc; omega⟩
    · exact ⟨f, List.mem_map.mpr ⟨f, hf, if_neg hfe⟩, hfk, hfc⟩

theorem Merged.keep {ks l : List (Nat × Cause)} (h : Merged ks l) {e q : Nat × Cause} (hq : q ∈ l) (hk : q.1 = e.1) (hc : q.2.code ≤ e.2.code) :
    Merged (ks ++ [e]) l where
  nodup := h.nodup
  mem := fun p hp => List.mem_append_left _ (h.mem p hp)
  first := by
    rw [List.forall_mem_append, List.forall_mem_singleton]
    exact ⟨h.first, q, hq, hk, hc⟩

theorem merged_mergeStalls (ks : List (Nat × Cause)) : Merged ks (mergeStalls ks) := by
  induction ks using List.reverseRecOn with
  | nil => exact ⟨List.nodup_nil, nofun, nofun⟩
  | append_singleton ks e ih =>
    obtain ⟨hnone, hm⟩ | ⟨q, hq, hk, ⟨hc, hm⟩ | ⟨hc, hm⟩⟩ := mergeStalls_concat ks e
    · rw [hm]; exact ih.add hnone
    · rw [hm]; exact ih.lower hq hk hc
    · rw [hm]; exact ih.keep hq hk hc

/-- A context's only stall of a cc. -/
theorem Merged.of_least {ks l : List (Nat × Cause)} (h : Merged ks l) {c : Nat} {k : Cause} (hk : (c, k) ∈ ks)
    (hleast : ∀ e ∈ ks, e.1 = c → e.2 ≠ k → k.code < e.2.code) : l.filter (fun e => e.1 == c) = [(c, k)] := by
  obtain ⟨f, hf, hfc, hfk⟩ := h.first _ hk
  have hfe : f = (c, k) := by
    refine Prod.ext hfc (by_contra fun hne => ?_)
    have := hleast f (h.mem f hf) hfc hne
    simp only at hfk
    omega
  subst hfe
  obtain ⟨pre, post, rfl⟩ := List.append_of_mem hf
  have hnodup := h.nodup
  rw [List.map_append, List.map_cons, List.nodup_middle, List.nodup_cons, List.mem_append] at hnodup
  have hother : ∀ {q : List (Nat × Cause)}, c ∉ q.map (fun e => e.1) → q.filter (fun e => e.1 == c) = [] := fun hc =>
    List.filter_eq_nil_iff.mpr fun e he hec => hc (List.mem_map.mpr ⟨e, he, beq_iff_eq.mp hec⟩)
  rw [List.filter_append, List.filter_cons_of_pos (by exact beq_self_eq_true c), hother fun hc => hnodup.1 (.inl hc),
    hother fun hc => hnodup.1 (.inr hc)]
  rfl

/-! ### The cc of the stall -/

theorem foldl_stall_ctx (ks : List (Nat × Cause)) (j c : Nat) : ∀ s : State,
    (ks.foldl (fun s e => s.modCtx e.1 fun x => x.stall e.2 j) s).ctx c
      = (ks.filter fun e => e.1 == c).foldl (fun x e => x.stall e.2 j) (s.ctx c) := by
  induction ks with
  | nil => exact fun s => rfl
  | cons e ks ih =>
    intro s
    rw [List.foldl_cons, ih]
    by_cases he : e.1 = c
    · rw [List.filter_cons_of_pos (by exact beq_iff_eq.mpr he), List.foldl_cons, State.modCtx, he, State.setCtx_ctx_same]
    · rw [List.filter_cons_of_neg (by simpa using he), State.modCtx, State.setCtx_ctx_other _ _ _ _ (Ne.symm he)]

/-- A run that waits to start on a channel that serves its context is stalled once in the cc, under the cause that keeps it. -/
theorem ccStalls_filter {p : State} {n c : Nat} {k : Cause} (ha : ∃ a ∈ (p.ch n).alloc, a.ctx = c)
    (hpolled : ∀ q, (p.ch n).polled = some q → ∀ e ∈ q.stalls, 2 < e.2.code) (hk : p.startWait c = some k) :
    (p.ccStalls n).filter (fun e => e.1 == c) = [(c, k)] := by
  obtain ⟨a, ha, rfl⟩ := ha
  refine (merged_mergeStalls _).of_least (List.mem_append_left _ (List.mem_filterMap.mpr ⟨a, ha, by rw [hk]; rfl⟩)) fun e he hec hne => ?_
  rcases List.mem_append.mp he with he | he
  · obtain ⟨b, -, hb⟩ := List.mem_filterMap.mp he
    obtain ⟨l, hl, rfl⟩ := Option.map_eq_some_iff.mp hb
    rw [show b.ctx = a.ctx from hec, hk] at hl
    exact absurd (Option.some.inj hl).symm hne
  · have hbeat : 2 < e.2.code := by
      cases hq : (p.ch n).polled with
      | none =>
        rw [hq] at he
        exact beatStalls_code he
      | some q =>
        rw [hq] at he
        exact hpolled q hq e he
    have hwait := startWait_code hk
    have : k.code ≠ e.2.code := fun h => hne (cause_code_injective h).symm
    omega

/-- What the charge of issued slots keeps of a context's stalls (R272). -/
theorem charge_stalls (s : State) (n c : Nat) :
    ((s.charge n).ctx c).stallPace = (s.ctx c).stallPace ∧ ((s.charge n).ctx c).stallBudget = (s.ctx c).stallBudget := by
  refine foldl_keeps (P := fun t : State => (t.ctx c).stallPace = (s.ctx c).stallPace ∧ (t.ctx c).stallBudget = (s.ctx c).stallBudget)
    (fun t d h => ?_) _ _ ⟨rfl, rfl⟩
  by_cases hd : c = d
  · subst hd
    rw [State.modCtx, State.setCtx_ctx_same]
    exact h
  · rw [State.modCtx, State.setCtx_ctx_other _ _ _ _ hd]
    exact h

/-- The counts of a context's stalls when a cc ends (R321). -/
theorem endCc_stalls (s : State) (n c j : Nat) : ((s.endCc n j).ctx c).stallPace = ((s.stalled n j).ctx c).stallPace
    ∧ ((s.endCc n j).ctx c).stallBudget = ((s.stalled n j).ctx c).stallBudget := by
  have heq : s.endCc n j = (((s.stalled n j).modCh n fun h => { h with cyc := sat64 (h.cyc + j), polled := none }).charge n).modCh n fun h =>
      { h.pruneTree with scanRes := h.pruneTree.scanRes.filter fun e => h.pruneTree.cyc < e.lo + e.n } := rfl
  obtain ⟨hpace, hbudget⟩ := charge_stalls ((s.stalled n j).modCh n fun h => { h with cyc := sat64 (h.cyc + j), polled := none }) n c
  rw [State.modCh, State.setCh_ctx] at hpace hbudget
  rw [heq, State.modCh, State.setCh_ctx]
  exact ⟨hpace, hbudget⟩

/-- Time passes to the next cc, in which nothing falls due; CHCYC stays at its last value. -/
theorem pass_next_of_nothingDue {p : State} {n : Nat} (ht : (p.ch n).ticking = true) (hd : NothingDue (p.ch n) ((p.ch n).cyc + 1)) :
    p.pass n ((p.ch n).cyc + 1) = p.endCc n 1 := by
  obtain ⟨edue, -, ecyc⟩ := endCc_ch p n 1
  have hmin : min ((p.ch n).cyc + 1) (p.nextCc n ((p.ch n).cyc + 1)) = (p.ch n).cyc + 1 := Nat.min_eq_left (le_nextCc ..)
  have hfuel : (p.ch n).cyc + 1 - (p.ch n).cyc = 1 := by omega
  have hstay : (p.endCc n 1).settleTo n ((p.ch n).cyc + 1) 0 settleFuel = p.endCc n 1 :=
    settleTo_of_later (fun e he => by rw [before_rank_zero]; have := hd e (edue ▸ he); simp; omega) _
  have hone : p.passFor n ((p.ch n).cyc + 1) 0 1 = p.endCc n 1 := by
    simp only [State.passFor, hmin, hfuel, if_neg (Nat.not_succ_le_self _), if_true, hstay]
  rw [State.pass, if_pos ht, hfuel, hone]
  refine settleDue_of_nothingDue fun e he => ?_
  rw [edue] at he
  rw [ecyc]
  exact Nat.lt_of_le_of_lt (Nat.min_le_left ..) (hd e he)

theorem ticking_of_serves {h : Channel} (hs : h.serves = true) : h.ticking = true := by
  simp only [Channel.serves, Bool.and_eq_true, Bool.or_eq_true, beq_iff_eq, Bool.not_eq_true'] at hs
  obtain ⟨hst, hclk⟩ := hs
  rcases hst with h | h <;> simp [Channel.ticking, h, hclk]

end Sys2Proof.Machine
end

section
/-! SUPPORT. What falls due on a channel stays later than its present cc while a run starts (log 4): faults remove what was to come, and words
bring about what comes in a later cc (R273, R304, R305, R306). -/
namespace Sys2Proof.Machine
open Sys2Proof.Safety

/-- A channel on which nothing falls due by its present cc has nothing due in it afterwards either. -/
structure KeepsAhead (s t : State) : Prop where
  nothingDue : ∀ m, NothingDue (s.ch m) (s.ch m).cyc → NothingDue (t.ch m) (t.ch m).cyc

theorem KeepsAhead.refl (s : State) : KeepsAhead s s := ⟨fun _ h => h⟩

/-- The last of two operations first, so that it says what the first one is. -/
theorem KeepsAhead.after {s t u : State} (k : KeepsAhead t u) (h : KeepsAhead s t) : KeepsAhead s u :=
  ⟨fun m hm => k.nothingDue m (h.nothingDue m hm)⟩

theorem KeepsAhead.ite {p : Prop} [Decidable p] {s a b : State} (ha : KeepsAhead s a) (hb : KeepsAhead s b) :
    KeepsAhead s (if p then a else b) := by
  split
  · exact ha
  · exact hb

theorem KeepsAhead.foldl {α : Type} {f : State → α → State} (hf : ∀ s a, KeepsAhead s (f s a)) (l : List α) (s : State) :
    KeepsAhead s (l.foldl f s) :=
  foldl_keeps (P := KeepsAhead s) (fun t a h => (hf t a).after h) l s (KeepsAhead.refl s)

theorem KeepsAhead.setCtx {s : State} {c : Nat} {x : Ctx} : KeepsAhead s (s.setCtx c x) := ⟨fun _ h => h⟩

theorem KeepsAhead.modCtx {s : State} {c : Nat} {f : Ctx → Ctx} : KeepsAhead s (s.modCtx c f) := ⟨fun _ h => h⟩

theorem KeepsAhead.setCh {s : State} {n : Nat} {h : Channel} (hh : NothingDue (s.ch n) (s.ch n).cyc → NothingDue h h.cyc) :
    KeepsAhead s (s.setCh n h) := by
  refine ⟨fun m hm => ?_⟩
  by_cases e : m = n
  · subst e
    rw [State.setCh_ch_same]
    exact hh hm
  · rw [State.setCh_ch_other _ _ _ _ e]
    exact hm

theorem KeepsAhead.modCh {s : State} {n : Nat} {f : Channel → Channel} (hf : ∀ h : Channel, NothingDue h h.cyc → NothingDue (f h) (f h).cyc) :
    KeepsAhead s (s.modCh n f) := .setCh (hf _)

/-! ### What is deferred -/

theorem mem_insertLater {e q : Later} {l : List Later} : q ∈ insertLater e l ↔ q = e ∨ q ∈ l := by
  induction l with
  | nil => simp [insertLater]
  | cons a l ih =>
    rw [insertLater]
    split
    · exact List.mem_cons
    · rw [List.mem_cons, ih, List.mem_cons]
      exact or_left_comm

theorem mem_defer {h : Channel} {es : List Later} {q : Later} : q ∈ (h.defer es).due ↔ q ∈ es ∨ q ∈ h.due := by
  rw [Channel.defer]
  induction es generalizing h with
  | nil => simp
  | cons e es ih =>
    have := ih (h := { h with due := insertLater e h.due })
    rw [List.foldl_cons, this, mem_insertLater, List.mem_cons]
    tauto

/-- Work that is deferred to later cc. -/
theorem nothingDue_defer {h : Channel} {es : List Later} (hd : NothingDue h h.cyc) (he : ∀ e ∈ es, h.cyc < e.cc) :
    NothingDue (h.defer es) (h.defer es).cyc := fun q hq => (mem_defer.mp hq).elim (he q) (hd q)

theorem laterOffs_cc {c : Nat} {run : Option Nat} {p cc : Nat} {os : List Off} (ho : ∀ o ∈ os, o.cc = cc) :
    ∀ e ∈ laterOffs c run p os, e.cc = cc := by
  intro e he
  obtain ⟨t, ht, rfl⟩ := List.mem_map.mp he
  obtain ⟨o, hmem, rfl⟩ := List.mem_map.mp (List.mem_eraseDups.mp ht)
  exact ho o hmem

/-! ### Faults -/

theorem abandonedCh_nothingDue {h : Channel} (c : Nat) (sers : List Nat) (hd : NothingDue h h.cyc) :
    NothingDue (h.abandoned c sers) (h.abandoned c sers).cyc := by
  have hdue : (h.dropShadows fun r => sers.contains r).due = h.due := (congrArg Channel.due (dropShadows_frame h fun r => sers.contains r) :)
  intro e he
  rw [abandonedCh_cyc]
  refine hd e ?_
  rw [← hdue]
  exact List.mem_of_mem_filter (List.mem_of_mem_filter he)

theorem keepsAhead_withoutWork (s : State) (c : Nat) : KeepsAhead s (s.withoutWork c) :=
  KeepsAhead.setCtx.after (.setCh (abandonedCh_nothingDue _ _))

theorem Cancels.keepsAhead {c : Nat} {s t : State} (h : Cancels c s t) : KeepsAhead s t := by
  refine ⟨fun m hm => ?_⟩
  have hdue : (t.ch m).due = (s.ch m).due := (congrArg Channel.due (h.ch m) :)
  have hcyc : (t.ch m).cyc = (s.ch m).cyc := (congrArg Channel.cyc (h.ch m) :)
  rw [NothingDue, hdue, hcyc]
  exact hm

section
variable {s : State}

theorem keepsAhead_abandon (c : Nat) : KeepsAhead s (s.abandon c) := (cancels_abandon s c).keepsAhead.after (keepsAhead_withoutWork s c)

theorem keepsAhead_fault (c code : Nat) (iflt : BitVec 64) : KeepsAhead s (s.fault c code iflt) := by
  unfold State.fault
  extract_lets x enters cc u v
  have hslots : ∀ t : State, KeepsAhead t (t.settleSlots c) := fun t => .ite (.refl t) .modCtx
  have hu : KeepsAhead s u := .ite (.refl s) ((hslots _).after (keepsAhead_abandon c))
  have hv : KeepsAhead u v := .setCtx
  exact .ite (.refl s) (.ite (KeepsAhead.after (t := v) ⟨fun _ h => h⟩ (hv.after hu)) (hv.after hu))

theorem keepsAhead_siteFault (c : Nat) (t : Site) (w : IWord) (flsb : Nat) : KeepsAhead s (s.siteFault c t w flsb) := keepsAhead_fault ..

theorem keepsAhead_operand (c : Nat) (r : Run) (word flsb : Nat) : KeepsAhead s (s.operand c r word flsb) := keepsAhead_fault ..

/-! ### Ream and Loft words -/

theorem keepsAhead_present (c : Nat) (run : Option Nat) (bs : List ReelBeat) : KeepsAhead s (s.present c run bs) :=
  .ite (.refl s) (.modCh fun _ h => h)

theorem keepsAhead_actRclr (c : Nat) (t : Site) (w : IWord) : KeepsAhead s (s.actRclr c t w) := by
  unfold State.actRclr
  dsimp only
  split
  · refine .ite (keepsAhead_siteFault ..) (.setCh fun hd => ?_)
    rename_i k _ _
    exact foldl_keeps (P := fun h : Channel => NothingDue h h.cyc) (f := fun h p => h.setReam p ⟨RPart.clear k, none⟩) (fun h p hh => hh) _ _ hd
  · exact keepsAhead_siteFault ..

theorem keepsAhead_actRexp (c : Nat) (t : Site) (w : IWord) : KeepsAhead s (s.actRexp c t w) := by
  unfold State.actRexp
  dsimp only
  split
  · exact keepsAhead_siteFault ..
  · exact .ite (keepsAhead_siteFault ..) (keepsAhead_present ..)

/-- The latency of an RCLOSE counts from its cc or from two cc before it. -/
theorem le_closeBase (s : State) (c : Nat) (t : Site) (ps : List Nat) : (s.ch (s.ctx c).chan).cyc ≤ s.closeBase c t ps + 2 := by
  unfold State.closeBase
  extract_lets x h waited
  split
  · change h.cyc ≤ _
    omega
  · exact Nat.le_add_right ..

theorem keepsAhead_actRclose (c : Nat) (t : Site) (w : IWord) : KeepsAhead s (s.actRclose c t w) := by
  unfold State.actRclose
  extract_lets r x h
  split
  · exact keepsAhead_siteFault ..
  · rename_i ps _
    extract_lets parts es vals a os u
    have hbase : h.cyc ≤ a + 2 := le_closeBase s c t ps
    have hoffs : ∀ e ∈ laterOffs c t.run t.pseq os, e.cc = a + 14 := by
      refine laterOffs_cc fun o ho => ?_
      obtain ⟨ie, -, rfl⟩ := List.mem_map.mp (List.mem_of_mem_filter ho)
      rfl
    have hu : KeepsAhead s u := .setCh fun hd => nothingDue_defer hd fun e he => by
      have := hoffs e he
      change h.cyc < _
      omega
    refine .ite (keepsAhead_siteFault ..) (.ite (keepsAhead_siteFault ..) (.ite ?_ ((keepsAhead_present ..).after hu)))
    refine KeepsAhead.after (.setCh fun hd => nothingDue_defer hd fun e he => ?_) (KeepsAhead.modCtx.after hu)
    have hcyc : (u.ch x.chan).cyc = h.cyc := (congrArg Channel.cyc (State.setCh_ch_same ..) :)
    obtain rfl := List.mem_singleton.mp he
    change (u.ch x.chan).cyc < a + 15
    omega

theorem keepsAhead_act (c : Nat) (t : Site) (w : IWord) : KeepsAhead s (s.act c t w) := by
  have hnext : ∀ eff : Effect, KeepsAhead s (s.modCh (s.ctx c).chan fun h => h.defer [⟨h.cyc + 1, c, t.run, eff⟩]) := fun eff =>
    .modCh fun h hd => nothingDue_defer hd fun e he => by
      obtain rfl := List.mem_singleton.mp he
      exact Nat.lt_succ_self _
  unfold State.act
  split
  · exact keepsAhead_actRclr ..
  · exact keepsAhead_actRexp ..
  · exact keepsAhead_actRclose ..
  · exact .ite (keepsAhead_siteFault ..) (hnext _)
  · exact .ite (keepsAhead_siteFault ..) (hnext _)
  · exact .refl s

theorem keepsAhead_actWords (c : Nat) (r : Run) (l : List Nat) : ∀ s : State, KeepsAhead s (s.actWords c r l).1 := by
  induction l with
  | nil => exact fun s => .refl s
  | cons i is ih =>
    intro s
    unfold State.actWords
    dsimp only
    split
    · exact .refl s
    · split
      · exact .refl s
      · exact (ih _).after (keepsAhead_act ..)

/-! ### The start of a run -/

theorem keepsAhead_recallRuns (c : Nat) : KeepsAhead s (s.recallRuns c) := .modCtx

theorem keepsAhead_fixCounts (c : Nat) : KeepsAhead s (s.fixCounts c) := by
  refine (keepsAhead_recallRuns c).after (.after (.foldl (fun s q => ?_) _ _) .modCtx)
  dsimp only
  split
  · exact .refl s
  · refine .ite ?_ (.refl s)
    split
    · exact (keepsAhead_operand ..).after .modCtx
    · exact .modCtx

theorem keepsAhead_start (c : Nat) (r : Run) : KeepsAhead s (s.start c r) := by
  have hhold : KeepsAhead s (s.setCh (s.ctx c).chan ((s.ch (s.ctx c).chan).hold c (s.ctx c).lgmask)) := .setCh fun h => h
  have hfault : ∀ (t : State) (o : Bool) (src word opcode flsb : Nat), KeepsAhead t (t.ifault c o src word opcode flsb) :=
    fun t o src word opcode flsb => keepsAhead_fault ..
  unfold State.start
  extract_lets x h u v
  have hv : KeepsAhead s v := KeepsAhead.modCtx.after hhold
  split
  · exact (hfault ..).after hv
  · split
    · exact (hfault ..).after hv
    · extract_lets p
      split
      · exact (hfault ..).after hv
      · split
        · exact (hfault ..).after hv
        · exact (keepsAhead_fixCounts c).after ((keepsAhead_actWords ..).after (.after (.ite .modCtx (.refl _)) (KeepsAhead.modCtx.after hv)))

end

end Sys2Proof.Machine
end

section
/-! SUPPORT. The row counts that are fixed when a run starts (R287): of the started runs only one may still be without its first row, and the
statistics that its rows read are provided, or fault its context (R282). -/
namespace Sys2Proof.Machine
open Sys2Proof.Safety

/-! ### A run of a context, by its serial -/

section
variable {x : Ctx} {k : Nat} {f : Run → Run} (hf : ∀ r, (f r).ser = r.ser)
include hf

theorem modRun_ser (r : Run) : (if r.ser == k then f r else r).ser = r.ser := by
  split
  · exact hf r
  · rfl

theorem map_ser_modRun : (x.modRun k f).runs.map (fun r => r.ser) = x.runs.map fun r => r.ser := by
  rw [Ctx.modRun, List.map_map]
  exact List.map_congr_left fun r _ => modRun_ser hf r

theorem run_modRun (ser : Nat) : (x.modRun k f).run ser = (x.run ser).map fun r => if r.ser == k then f r else r := by
  rw [Ctx.run, Ctx.modRun, List.find?_map, Ctx.run]
  exact congrArg (fun p => Option.map _ (x.runs.find? p)) (funext fun r => by rw [Function.comp_apply, modRun_ser hf r])

/-- The runs delivered before one that changes. -/
theorem filter_lt_modRun : (x.modRun k f).runs.filter (fun r => r.ser < k) = x.runs.filter fun r => r.ser < k := by
  rw [Ctx.modRun, List.filter_map]
  have hp : (fun r : Run => decide (r.ser < k)) ∘ (fun r => if r.ser == k then f r else r) = fun r => decide (r.ser < k) :=
    funext fun r => by rw [Function.comp_apply, modRun_ser hf r]
  rw [hp]
  conv_rhs => rw [← List.map_id (x.runs.filter _)]
  refine List.map_congr_left fun r hr => if_neg ?_
  have : r.ser < k := by simpa using (List.mem_filter.mp hr).2
  simp only [beq_iff_eq]
  omega

end

theorem any_lt (l : List Run) (k : Nat) (P : Run → Bool) :
    l.any (fun q => decide (q.ser < k) && P q) = (l.filter fun q => q.ser < k).any P := List.any_filter.symm

theorem ser_of_run {x : Ctx} {k : Nat} {r : Run} (h : x.run k = some r) : r.ser = k := by simpa using List.find?_some h

theorem mem_of_run {x : Ctx} {k : Nat} {r : Run} (h : x.run k = some r) : r ∈ x.runs := List.mem_of_find?_eq_some h

theorem run_of_mem {x : Ctx} {r : Run} (hn : (x.runs.map fun q => q.ser).Nodup) (h : r ∈ x.runs) : x.run r.ser = some r := by
  cases hr : x.run r.ser with
  | none => simpa using List.find?_eq_none.mp hr r h
  | some q => rw [List.inj_on_of_nodup_map hn (mem_of_run hr) h (ser_of_run hr)]

/-! ### Statistics reads -/

theorem unchecked_congr {x y : Ctx} {k : Nat} (h : y.runs.filter (fun r => r.ser < k) = x.runs.filter fun r => r.ser < k) (count : Nat) :
    y.unchecked count k = x.unchecked count k := by
  simp only [Ctx.unchecked, Bool.and_assoc, any_lt, h]

/-- Which statistics reads are not provided depends on the slots, on what falls due and on the runs delivered earlier. -/
theorem statMissing_congr {s t : State} {c : Nat} {r q : Run} (hprog : q.prog = r.prog) (hser : q.ser = r.ser)
    (hslots : (t.ctx c).slots = (s.ctx c).slots) (hdue : (t.ch (t.ctx c).chan).due = (s.ch (s.ctx c).chan).due)
    (hruns : (t.ctx c).runs.filter (fun e => e.ser < r.ser) = (s.ctx c).runs.filter fun e => e.ser < r.ser) (ks : List Nat) :
    t.statMissing c q ks = s.statMissing c r ks := by
  have hentry : ∀ slot k, (t.ctx c).statEntry slot k = (s.ctx c).statEntry slot k := fun slot k => by
    simp only [Ctx.statEntry, Ctx.slot, hslots]
  have hcoming : ∀ slot k, t.statComing c r.ser slot k = s.statComing c r.ser slot k := fun slot k => by
    simp only [State.statComing, any_lt, hruns, hdue]
  simp only [State.statMissing, hprog, hser, hentry, hcoming]

theorem statMissing_of_no_reads {s : State} {c : Nat} {r : Run} (h : r.prog.statReads = []) (ks : List Nat) : s.statMissing c r ks = none := by
  rw [State.statMissing, h, List.find?_nil]

/-! ### One run's count -/

/-- The row count of a run is fixed where it has started and its predecessors of the same count have passed their check or are gone. -/
def State.fixCount (s : State) (c ser : Nat) : State :=
  let x := s.ctx c
  match x.run ser with
  | none => s
  | some r =>
    if r.phase == .started && r.base.isNone && !x.unchecked r.count r.ser then
      let b := x.cnts.getD r.count 0
      let s := s.modRun c r.ser fun r => { r with base := some b }
      match s.statMissing c r ((List.range (r.knownRows x)).map fun i => b + i) with
      | some q => s.operand c r q.word q.flsb
      | none => s
    else s

theorem fixCounts_eq (s : State) (c : Nat) : s.fixCounts c
    = (((s.modCtx c Ctx.settleRestarts).ctx c).runs.foldl (fun t q => t.fixCount c q.ser) (s.modCtx c Ctx.settleRestarts)).recallRuns c := rfl

/-- No run of a serial has started and is without its first row. -/
def Ctx.CountFixed (x : Ctx) (ser : Nat) : Prop := ∀ r, x.run ser = some r → r.phase = .started → r.base ≠ none

/-- The first row of a run is fixed. -/
def Ctx.withBase (x : Ctx) (ser b : Nat) : Ctx := x.modRun ser fun r => { r with base := some b }

section
variable {s : State} {c ser : Nat} {r : Run}

theorem fixCount_of_fixed (h : (s.ctx c).CountFixed ser) : s.fixCount c ser = s := by
  rw [State.fixCount]
  cases hr : (s.ctx c).run ser with
  | none => rfl
  | some r =>
    refine if_neg fun hp => ?_
    simp only [Bool.and_eq_true, beq_iff_eq, Option.isNone_iff_eq_none] at hp
    exact h r hr hp.1.1 hp.1.2

theorem fixCount_of_unchecked (hr : (s.ctx c).run ser = some r) (hu : (s.ctx c).unchecked r.count r.ser = true) : s.fixCount c ser = s := by
  simp only [State.fixCount, hr, hu, Bool.not_true, Bool.and_false, Bool.false_eq_true, if_false]

variable (hr : (s.ctx c).run ser = some r) (hp : r.phase = .started) (hb : r.base = none) (hu : (s.ctx c).unchecked r.count r.ser = false)
include hr hp hb hu

/-- What the rows read that the run has for certain is there, or comes. -/
theorem fixCount_of_provided (hm : (s.setCtx c ((s.ctx c).withBase ser ((s.ctx c).cnts.getD r.count 0))).statMissing c r
      ((List.range (r.knownRows (s.ctx c))).map fun i => (s.ctx c).cnts.getD r.count 0 + i) = none) :
    s.fixCount c ser = s.setCtx c ((s.ctx c).withBase ser ((s.ctx c).cnts.getD r.count 0)) := by
  obtain rfl := ser_of_run hr
  have hm' : (s.modRun c r.ser fun q => { q with base := some ((s.ctx c).cnts.getD r.count 0) }).statMissing c r
      ((List.range (r.knownRows (s.ctx c))).map fun i => (s.ctx c).cnts.getD r.count 0 + i) = none := hm
  simp only [State.fixCount, hr, hp, hb, hu, hm', beq_self_eq_true, Option.isNone_none, Bool.not_false, Bool.and_self, if_true]
  rfl

/-- Nothing provides a statistics entry that they read. -/
theorem fixCount_of_missing {q : SlotRead} (hm : (s.setCtx c ((s.ctx c).withBase ser ((s.ctx c).cnts.getD r.count 0))).statMissing c r
      ((List.range (r.knownRows (s.ctx c))).map fun i => (s.ctx c).cnts.getD r.count 0 + i) = some q) :
    s.fixCount c ser = (s.setCtx c ((s.ctx c).withBase ser ((s.ctx c).cnts.getD r.count 0))).operand c r q.word q.flsb := by
  obtain rfl := ser_of_run hr
  have hm' : (s.modRun c r.ser fun q => { q with base := some ((s.ctx c).cnts.getD r.count 0) }).statMissing c r
      ((List.range (r.knownRows (s.ctx c))).map fun i => (s.ctx c).cnts.getD r.count 0 + i) = some q := hm
  simp only [State.fixCount, hr, hp, hb, hu, hm', beq_self_eq_true, Option.isNone_none, Bool.not_false, Bool.and_self, if_true]
  rfl

end

/-! ### All runs, where one alone may be without its count -/

theorem countFixed_withBase {x : Ctx} {k ser b : Nat} (hk : ser ≠ k) (h : x.CountFixed ser) : (x.withBase k b).CountFixed ser := by
  intro r hr
  rw [Ctx.withBase, run_modRun (by exact fun _ => rfl), Option.map_eq_some_iff] at hr
  obtain ⟨q, hq, rfl⟩ := hr
  have hne : q.ser ≠ k := ser_of_run hq ▸ hk
  rw [if_neg (by simpa using hne)]
  exact h q hq

theorem fault_runs (s : State) (c code : Nat) (iflt : BitVec 64) :
    ((s.fault c code iflt).ctx c).runs = [] ∨ ((s.fault c code iflt).ctx c).runs = (s.ctx c).runs := by
  unfold State.fault
  extract_lets x enters cc u v
  have hu : (u.ctx c).runs = [] ∨ (u.ctx c).runs = (s.ctx c).runs := by
    by_cases hx : (x.st == .faulted) = true
    · exact .inr (congrArg (fun t : State => (t.ctx c).runs) (if_pos hx))
    · exact .inl ((congrArg (fun t : State => (t.ctx c).runs) (if_neg hx)).trans ((settleSlots_runs _ c).trans (abandon_runs s c)))
  have hv : (v.ctx c).runs = (u.ctx c).runs := (congrArg Ctx.runs (State.setCtx_ctx_same ..) :)
  split
  · exact .inr rfl
  · split
    · exact hv ▸ hu
    · exact hv ▸ hu

theorem countFixed_of_runs {x y : Ctx} {ser : Nat} (h : y.runs = [] ∨ y.runs = x.runs) (hx : x.CountFixed ser) : y.CountFixed ser := by
  intro r hr
  rcases h with h | h
  · rw [Ctx.run, h] at hr
    cases hr
  · rw [Ctx.run, h] at hr
    exact hx r hr

/-- Fixing a count leaves those of other runs. -/
theorem countFixed_fixCount {s : State} {c k ser : Nat} (hk : ser ≠ k) (h : (s.ctx c).CountFixed ser) :
    ((s.fixCount c k).ctx c).CountFixed ser := by
  unfold State.fixCount
  dsimp only
  split
  · exact h
  · rename_i r hr
    obtain rfl := ser_of_run hr
    have hbase : ((s.modRun c r.ser fun q => { q with base := some ((s.ctx c).cnts.getD r.count 0) }).ctx c).CountFixed ser := by
      rw [State.modRun, State.modCtx, State.setCtx_ctx_same]
      exact countFixed_withBase hk h
    split
    · split
      · exact countFixed_of_runs (fault_runs ..) hbase
      · exact hbase
    · exact h

/-- Where every other run has its count, or has not started, only one run's is fixed. -/
theorem foldl_fixCount {s : State} {c k : Nat} {l : List Run} (hn : (l.map fun q => q.ser).Nodup) (hk : ∃ q ∈ l, q.ser = k)
    (hother : ∀ ser, ser ≠ k → (s.ctx c).CountFixed ser) : l.foldl (fun t q => t.fixCount c q.ser) s = s.fixCount c k := by
  have hstay : ∀ (l : List Run) (t : State), (∀ ser, ser ≠ k → (t.ctx c).CountFixed ser) → (∀ q ∈ l, q.ser ≠ k) →
      l.foldl (fun t q => t.fixCount c q.ser) t = t := by
    intro l t ht hl
    induction l with
    | nil => rfl
    | cons q l ih =>
      rw [List.foldl_cons, fixCount_of_fixed (ht _ (hl q List.mem_cons_self))]
      exact ih fun q hq => hl q (List.mem_cons_of_mem _ hq)
  obtain ⟨v, hv, rfl⟩ := hk
  obtain ⟨pre, post, rfl⟩ := List.append_of_mem hv
  rw [List.map_append, List.map_cons, List.nodup_middle, List.nodup_cons, List.mem_append, not_or] at hn
  obtain ⟨⟨hpre, hpost⟩, -⟩ := hn
  have hne : ∀ {m : List Run}, v.ser ∉ m.map (fun q => q.ser) → ∀ q ∈ m, q.ser ≠ v.ser := fun hm q hq e =>
    hm (List.mem_map.mpr ⟨q, hq, e⟩)
  rw [List.foldl_append, List.foldl_cons, hstay pre s hother (hne hpre),
    hstay post _ (fun ser hser => countFixed_fixCount hser (hother ser hser)) (hne hpost)]

/-! ### What the counts change of a state -/

/-- A run but for its first row and the reams that a second pass keeps. -/
def Run.uncounted (r : Run) : Run := { r with base := none, parts := [] }

/-- Row counts have been fixed for a context: of the state nothing but its counts, and of its runs nothing but the first rows and the parts
that second passes keep, has changed. -/
structure CountsFixed (c : Nat) (s t : State) : Prop where
  frame : s.setCtx c (t.ctx c) = t
  ctx : { t.ctx c with cnts := (s.ctx c).cnts, restarts := (s.ctx c).restarts, runs := (s.ctx c).runs } = s.ctx c
  runs : (t.ctx c).runs.map Run.uncounted = (s.ctx c).runs.map Run.uncounted

theorem countsFixed_setCtx {s : State} {c : Nat} {y : Ctx}
    (hy : { y with cnts := (s.ctx c).cnts, restarts := (s.ctx c).restarts, runs := (s.ctx c).runs } = s.ctx c)
    (hr : y.runs.map Run.uncounted = (s.ctx c).runs.map Run.uncounted) : CountsFixed c s (s.setCtx c y) := by
  constructor <;> rw [State.setCtx_ctx_same]
  · exact hy
  · exact hr

theorem CountsFixed.trans {c : Nat} {s t u : State} (h : CountsFixed c s t) (k : CountsFixed c t u) : CountsFixed c s u where
  frame := by rw [← k.frame, ← h.frame, setCtx_setCtx, State.setCtx_ctx_same]
  ctx := (congrArg (fun y : Ctx => { y with cnts := (s.ctx c).cnts, restarts := (s.ctx c).restarts, runs := (s.ctx c).runs }) k.ctx).trans h.ctx
  runs := k.runs.trans h.runs

theorem CountsFixed.mem {c : Nat} {s t : State} (h : CountsFixed c s t) {r : Run} (hr : r ∈ (s.ctx c).runs) :
    ∃ q ∈ (t.ctx c).runs, q.uncounted = r.uncounted :=
  List.mem_map.mp (h.runs ▸ List.mem_map_of_mem hr)

theorem recall_keeps (r : Run) (x : Ctx) (h : Channel) : (r.recall x h).uncounted = r.uncounted ∧ (r.recall x h).base = r.base := by
  unfold Run.recall
  split
  · exact ⟨rfl, rfl⟩
  · exact ⟨rfl, rfl⟩

theorem recallRuns_countsFixed (s : State) (c : Nat) : CountsFixed c s (s.recallRuns c) := by
  refine countsFixed_setCtx rfl ?_
  rw [List.map_map]
  refine List.map_congr_left fun r _ => ?_
  rw [Function.comp_apply]
  split
  · exact (recall_keeps ..).1
  · rfl

/-- A second pass that keeps reams has the first row that it had. -/
theorem recallRuns_mem {s : State} {c : Nat} {r : Run} (hr : r ∈ (s.ctx c).runs) :
    ∃ q ∈ ((s.recallRuns c).ctx c).runs, q.uncounted = r.uncounted ∧ q.base = r.base := by
  rw [State.recallRuns, State.modCtx, State.setCtx_ctx_same]
  refine ⟨_, List.mem_map_of_mem hr, ?_⟩
  split
  · exact recall_keeps ..
  · exact ⟨rfl, rfl⟩

theorem settleRestarts_countsFixed (s : State) (c : Nat) : CountsFixed c s (s.modCtx c Ctx.settleRestarts) :=
  countsFixed_setCtx (congrArg (fun y : Ctx => { y with runs := (s.ctx c).runs }) (settleRestarts_frame (s.ctx c)))
    (congrArg (List.map Run.uncounted) (settleRestarts_runs (s.ctx c)))

theorem withBase_countsFixed (s : State) (c k b : Nat) : CountsFixed c s (s.setCtx c ((s.ctx c).withBase k b)) := by
  refine countsFixed_setCtx rfl ?_
  rw [Ctx.withBase, Ctx.modRun, List.map_map]
  refine List.map_congr_left fun r _ => ?_
  rw [Function.comp_apply]
  split <;> rfl

theorem fixCounts_of_no_runs {s : State} {c : Nat} (h : (s.ctx c).runs = []) : CountsFixed c s (s.fixCounts c) := by
  have hrest := settleRestarts_countsFixed s c
  have hruns : ((s.modCtx c Ctx.settleRestarts).ctx c).runs = [] := by
    rw [State.modCtx, State.setCtx_ctx_same, settleRestarts_runs, h]
  rw [fixCounts_eq, hruns]
  exact hrest.trans (recallRuns_countsFixed ..)

section
variable {s : State} {c : Nat} {v : Run} (hn : ((s.ctx c).runs.map fun q => q.ser).Nodup) (hv : v ∈ (s.ctx c).runs) (hp : v.phase = .started)
  (hother : ∀ q ∈ (s.ctx c).runs, q.ser ≠ v.ser → q.phase = .started → q.base ≠ none)
include hn hv hother

/-- The counts of a context of whose started runs one alone may be without its first row. -/
theorem fixCounts_eq_fixCount : s.fixCounts c = ((s.modCtx c Ctx.settleRestarts).fixCount c v.ser).recallRuns c := by
  have hruns : ((s.modCtx c Ctx.settleRestarts).ctx c).runs = (s.ctx c).runs := by rw [State.modCtx, State.setCtx_ctx_same, settleRestarts_runs]
  rw [fixCounts_eq, foldl_fixCount (k := v.ser) (by rw [hruns]; exact hn) ⟨v, by rw [hruns]; exact hv, rfl⟩]
  intro ser hser r hr
  rw [Ctx.run, hruns] at hr
  exact hother r (mem_of_run (x := s.ctx c) hr) (ser_of_run (x := s.ctx c) hr ▸ hser)

/-- The first row that the run has when its count is fixed. -/
def State.firstRow (s : State) (c : Nat) (v : Run) : Nat := (s.ctx c).settleRestarts.cnts.getD v.count 0

theorem fixCounts_of_fixed (h : v.base ≠ none ∨ (s.ctx c).unchecked v.count v.ser = true) : CountsFixed c s (s.fixCounts c) := by
  have hrest := settleRestarts_countsFixed s c
  have hx : (s.modCtx c Ctx.settleRestarts).ctx c = (s.ctx c).settleRestarts := State.setCtx_ctx_same ..
  have hrun : ((s.modCtx c Ctx.settleRestarts).ctx c).run v.ser = some v := by
    rw [hx, Ctx.run, settleRestarts_runs]
    exact run_of_mem hn hv
  have hstay : (s.modCtx c Ctx.settleRestarts).fixCount c v.ser = s.modCtx c Ctx.settleRestarts := by
    rcases h with h | h
    · refine fixCount_of_fixed fun r hr _ => ?_
      rw [hrun] at hr
      exact Option.some.inj hr ▸ h
    · refine fixCount_of_unchecked hrun ?_
      rw [hx, Ctx.unchecked, settleRestarts_runs]
      exact h
  rw [fixCounts_eq_fixCount hn hv hother, hstay]
  exact hrest.trans (recallRuns_countsFixed ..)

variable (hb : v.base = none) (hu : (s.ctx c).unchecked v.count v.ser = false)
include hp hb hu

/-- What the rows that the run has for certain read decides. -/
theorem fixCounts_of_counted : let t := s.setCtx c ((s.ctx c).settleRestarts.withBase v.ser (s.firstRow c v))
    let missing := s.statMissing c v ((List.range (v.knownRows (s.ctx c))).map fun i => s.firstRow c v + i)
    (missing = none → s.fixCounts c = t.recallRuns c)
      ∧ ∀ q, missing = some q → s.fixCounts c = (t.operand c v q.word q.flsb).recallRuns c := by
  have hx : (s.modCtx c Ctx.settleRestarts).ctx c = (s.ctx c).settleRestarts := State.setCtx_ctx_same ..
  have hframe := settleRestarts_frame (s.ctx c)
  have hruns := settleRestarts_runs (s.ctx c)
  have hrun : ((s.modCtx c Ctx.settleRestarts).ctx c).run v.ser = some v := by
    rw [hx, Ctx.run, hruns]
    exact run_of_mem hn hv
  have hunch : ((s.modCtx c Ctx.settleRestarts).ctx c).unchecked v.count v.ser = false := by
    rw [hx, Ctx.unchecked, hruns]
    exact hu
  have hknown : v.knownRows (s.ctx c).settleRestarts = v.knownRows (s.ctx c) := by
    rw [Run.knownRows, Run.knownRows, show (s.ctx c).settleRestarts.lgmask = (s.ctx c).lgmask from (congrArg Ctx.lgmask hframe :)]
  intro t
  have hmissing : ∀ ks, t.statMissing c v ks = s.statMissing c v ks := by
    refine statMissing_congr rfl rfl ?_ ?_ ?_
    · rw [State.setCtx_ctx_same]
      exact (congrArg Ctx.slots hframe :)
    · rw [State.setCtx_ctx_same]
      exact (congrArg (fun y : Ctx => (s.ch y.chan).due) hframe :)
    · rw [State.setCtx_ctx_same, Ctx.withBase, filter_lt_modRun (by exact fun _ => rfl), hruns]
  have ht : (s.modCtx c Ctx.settleRestarts).setCtx c (((s.modCtx c Ctx.settleRestarts).ctx c).withBase v.ser
      (((s.modCtx c Ctx.settleRestarts).ctx c).cnts.getD v.count 0)) = t := by
    rw [hx, State.modCtx, setCtx_setCtx]
    rfl
  rw [fixCounts_eq_fixCount hn hv hother]
  refine ⟨fun hm => ?_, fun q hm => ?_⟩
  · rw [fixCount_of_provided hrun hp hb hunch (by rw [ht, hmissing, hx, hknown]; exact hm), ht]
  · rw [fixCount_of_missing hrun hp hb hunch (by rw [ht, hmissing, hx, hknown]; exact hm), ht]

theorem fixCounts_of_provided (hm : s.statMissing c v ((List.range (v.knownRows (s.ctx c))).map fun i => s.firstRow c v + i) = none) :
    CountsFixed c s (s.fixCounts c)
      ∧ ∃ q ∈ ((s.fixCounts c).ctx c).runs, q.uncounted = v.uncounted ∧ q.base = some (s.firstRow c v) := by
  have hx : (s.modCtx c Ctx.settleRestarts).ctx c = (s.ctx c).settleRestarts := State.setCtx_ctx_same ..
  rw [(fixCounts_of_counted hn hv hp hother hb hu).1 hm]
  refine ⟨?_, ?_⟩
  · refine CountsFixed.trans ?_ (recallRuns_countsFixed ..)
    have h := (settleRestarts_countsFixed s c).trans (withBase_countsFixed (s.modCtx c Ctx.settleRestarts) c v.ser (s.firstRow c v))
    rw [hx, State.modCtx, setCtx_setCtx] at h
    exact h
  · have hmem : { v with base := some (s.firstRow c v) } ∈ ((s.ctx c).settleRestarts.withBase v.ser (s.firstRow c v)).runs := by
      rw [Ctx.withBase, Ctx.modRun, settleRestarts_runs]
      exact List.mem_map.mpr ⟨v, hv, if_pos (beq_self_eq_true _)⟩
    obtain ⟨q, hq, hsame, hbase⟩ := recallRuns_mem (s := s.setCtx c _) (c := c) (by rw [State.setCtx_ctx_same]; exact hmem)
    exact ⟨q, hq, hsame, hbase⟩

end

end Sys2Proof.Machine
end

section
/-! SUPPORT. Words of a run act (R303, R304, R305): a word faults its context, or changes of the context nothing but a slot that it writes. -/
namespace Sys2Proof.Machine
open Sys2Proof.Safety

/-- Nothing of a context but its slots differs. -/
def OnlySlots (c : Nat) (s t : State) : Prop := { t.ctx c with slots := (s.ctx c).slots } = s.ctx c

theorem OnlySlots.of_eq {c : Nat} {s t : State} (h : t.ctx c = s.ctx c) : OnlySlots c s t := by rw [OnlySlots, h]

theorem OnlySlots.trans {c : Nat} {s t u : State} (h : OnlySlots c s t) (k : OnlySlots c t u) : OnlySlots c s u :=
  Eq.trans (congrArg (fun y : Ctx => { y with slots := (s.ctx c).slots }) k) h

section
variable {c : Nat} {s t : State} (h : OnlySlots c s t)
include h

theorem OnlySlots.runs : (t.ctx c).runs = (s.ctx c).runs := (congrArg Ctx.runs h :)
theorem OnlySlots.st : (t.ctx c).st = (s.ctx c).st := (congrArg Ctx.st h :)
theorem OnlySlots.faultcode : (t.ctx c).faultcode = (s.ctx c).faultcode := (congrArg Ctx.faultcode h :)
theorem OnlySlots.flags : (t.ctx c).flags = (s.ctx c).flags := (congrArg Ctx.flags h :)

end

/-- A word acts: an illegal operand, or a change of nothing but slots in its context. -/
def Acts (c : Nat) (place : Site) (w : IWord) (s t : State) : Prop := (∃ flsb, t = s.siteFault c place w flsb) ∨ OnlySlots c s t

section
variable {s : State} {c : Nat} {place : Site} {w : IWord}

theorem Acts.fault {flsb : Nat} : Acts c place w s (s.siteFault c place w flsb) := .inl ⟨flsb, rfl⟩

theorem Acts.same {t : State} (h : t.ctx c = s.ctx c) : Acts c place w s t := .inr (.of_eq h)

theorem Acts.ite {p : Prop} [Decidable p] {a b : State} (ha : Acts c place w s a) (hb : Acts c place w s b) :
    Acts c place w s (if p then a else b) := by
  split
  · exact ha
  · exact hb

theorem present_ctx (s : State) (c d : Nat) (run : Option Nat) (bs : List ReelBeat) : (s.present c run bs).ctx d = s.ctx d := by
  unfold State.present
  split <;> rfl

theorem acts_actRclr : Acts c place w s (s.actRclr c place w) := by
  unfold State.actRclr
  dsimp only
  split
  · exact .ite .fault (.same (State.setCh_ctx ..))
  · exact .fault

theorem acts_actRexp : Acts c place w s (s.actRexp c place w) := by
  unfold State.actRexp
  dsimp only
  split
  · exact .fault
  · exact .ite .fault (.same (present_ctx ..))

theorem acts_actRclose : Acts c place w s (s.actRclose c place w) := by
  unfold State.actRclose
  extract_lets r x h
  split
  · exact .fault
  · extract_lets parts es vals a os u
    have hu : u.ctx c = s.ctx c := State.setCh_ctx ..
    refine .ite .fault (.ite .fault (.ite (.inr ?_) (.same ((present_ctx ..).trans hu))))
    rw [OnlySlots, State.modCh, State.setCh_ctx, State.modCtx, State.setCtx_ctx_same, hu]
    rfl

theorem acts_act (s : State) (c : Nat) (place : Site) (w : IWord) : Acts c place w s (s.act c place w) := by
  unfold State.act
  split
  · exact acts_actRclr
  · exact acts_actRexp
  · exact acts_actRclose
  · exact .ite .fault (.same (State.setCh_ctx ..))
  · exact .ite .fault (.same (State.setCh_ctx ..))
  · exact .same rfl

/-- A context has faulted at an operand since a state in which it was open. -/
structure OperandTaken (c : Nat) (s t : State) : Prop where
  st : (t.ctx c).st = .faulted
  runs : (t.ctx c).runs = []
  faultcode : (t.ctx c).faultcode = if (s.ctx c).faultcode = 0 then 0x02 else (s.ctx c).faultcode

theorem operandTaken_of_faultTaken {c : Nat} {iflt : BitVec 64} {s t : State} (h : FaultTaken c 0x02 iflt s t) : OperandTaken c s t :=
  ⟨h.1, h.2.2.2.1, h.2.1⟩

theorem actWords_of_no_runs (h : (s.ctx c).runs = []) (r : Run) (l : List Nat) : (s.actWords c r l).1 = s := by
  cases l with
  | nil => rfl
  | cons i is => simp only [State.actWords, h, List.all_nil, if_true]

/-- The words of a run leave its context open, with nothing but slots changed, or one of them faults it. -/
theorem actWords_cases (r : Run) (l : List Nat) : ∀ s : State, (s.ctx c).st = .bound ∨ (s.ctx c).st = .running →
    OnlySlots c s (s.actWords c r l).1 ∨ OperandTaken c s (s.actWords c r l).1 := by
  induction l with
  | nil => exact fun s _ => .inl (.of_eq rfl)
  | cons i is ih =>
    intro s hst
    unfold State.actWords
    dsimp only
    split
    · exact .inl (.of_eq rfl)
    · split
      · exact .inl (.of_eq rfl)
      · generalize hw : r.prog.words.getD i 0 = w
        rcases acts_act s c (Site.ofRun r i) w with ⟨flsb, hf⟩ | hslots
        · have htaken := fault_taken (c := c) 0x02 (ifltWord true (Site.ofRun r i).src (Site.ofRun r i).index (opc w) flsb) hst
          rw [hf, actWords_of_no_runs (by exact htaken.2.2.2.1)]
          exact .inr (operandTaken_of_faultTaken htaken)
        · rcases ih _ (by rw [hslots.st]; exact hst) with h | ⟨h1, h2, h3⟩
          · exact .inl (hslots.trans h)
          · exact .inr ⟨h1, h2, by rw [h3, hslots.faultcode]⟩

end

end Sys2Proof.Machine
end

section
/-! SUPPORT. The start of a run by its steps: its lane groups and its own fields, the checks of its words, and its words before the ingest
(R269, R282, R286, R287, R303). -/
namespace Sys2Proof.Machine
open Sys2Proof.Safety

/-- A run that changes twice, and keeps its serial the first time. -/
theorem modRun_modRun {x : Ctx} {k : Nat} {f g : Run → Run} (hf : ∀ r, (f r).ser = r.ser) :
    (x.modRun k f).modRun k g = x.modRun k fun r => g (f r) := by
  rw [Ctx.modRun, Ctx.modRun, Ctx.modRun, List.map_map]
  refine congrArg (fun l => { x with runs := l }) (List.map_congr_left fun r _ => ?_)
  rw [Function.comp_apply]
  by_cases h : (r.ser == k) = true
  · rw [if_pos h, if_pos (by rw [hf]; exact h), if_pos h]
  · rw [if_neg h, if_neg h, if_neg h]

/-! ### What a start makes of a run, its context and its channel -/

/-- A run that has started in a cc, with its program and the words that act after its ingest. -/
def Run.begun (r : Run) (g : Prog) (cc : Nat) : Run :=
  { r with phase := .started, start := cc, holds := true, prog := g, after := g.after.map fun w => w.1 }

/-- A context of which a run has taken its lane groups. -/
def Ctx.taking (x : Ctx) (ser cc : Nat) : Ctx :=
  { x.modRun ser fun r => { r with phase := .started, start := cc, holds := true } with st := if x.st == .bound then .running else x.st }

/-- A context of which a run has started: RRST restarts the count that the run uses. -/
def Ctx.begun (x : Ctx) (v : Run) (g : Prog) (cc : Nat) : Ctx :=
  { x.modRun v.ser fun r => r.begun g cc with
    st := if x.st == .bound then .running else x.st
    restarts := if v.w.rrst then x.restarts ++ [(v.count, v.ser)] else x.restarts }

/-- The program that a run reads. -/
def State.runProg (u : State) (c : Nat) (v : Run) : Prog := (u.ch (u.ctx c).chan).program (v.slot.getD 0)

/-- The channel's part of a start. -/
def State.holding (u : State) (c : Nat) : State := u.setCh (u.ctx c).chan ((u.ch (u.ctx c).chan).hold c (u.ctx c).lgmask)

/-- The state in which the words of a run are read. -/
def State.taking (u : State) (c : Nat) (v : Run) : State :=
  (u.holding c).setCtx c ((u.ctx c).taking v.ser (u.ch (u.ctx c).chan).cyc)

/-- The state in which its words before the ingest act. -/
def State.begun (u : State) (c : Nat) (v : Run) : State :=
  (u.holding c).setCtx c ((u.ctx c).begun v (u.runProg c v) (u.ch (u.ctx c).chan).cyc)

section
variable {u : State} {c : Nat} {v : Run}

theorem start_of_no_slot (h : v.slot = none) : u.start c v = (u.taking c v).ifault c true 0 0 0x01 119 := by
  simp only [State.start, h]
  rfl

variable {a : Nat} (ha : v.slot = some a)
include ha

theorem start_of_header {f : PFault} (hf : headerFault ((u.ch (u.ctx c).chan).word a) = some f) :
    u.start c v = (u.taking c v).ifault c false (srcOf v.w.psel) 0 (opc ((u.ch (u.ctx c).chan).word a)) f.flsb := by
  simp only [State.start, ha, hf]
  rfl

variable (hh : headerFault ((u.ch (u.ctx c).chan).word a) = none)
include hh

theorem start_of_word {f : Nat} (hf : v.wordFault (u.runProg c v) = some f) : u.start c v = (u.taking c v).ifault c true 0 0 0x01 f := by
  rw [State.runProg, ha, Option.getD_some] at hf
  simp only [State.start, ha, hh, hf]
  rfl

variable (hw : v.wordFault (u.runProg c v) = none)
include hw

theorem start_of_program {f : PFault} (hf : firstFault ((u.ctx c).startFaults (u.runProg c v) v.ser) = some f) : u.start c v
    = (u.taking c v).ifault c f.operand (srcOf v.w.psel) f.word (opc ((u.runProg c v).words.getD f.word 0)) f.flsb := by
  rw [State.runProg, ha, Option.getD_some] at hf hw ⊢
  simp only [State.start, ha, hh, hw, hf]
  rfl

theorem start_of_checked (hf : firstFault ((u.ctx c).startFaults (u.runProg c v) v.ser) = none) : u.start c v
    = ((u.begun c v).actWords c { v with prog := u.runProg c v } ((u.runProg c v).before.map fun w => w.1)).1.fixCounts c := by
  have hprog : u.runProg c v = (u.ch (u.ctx c).chan).program a := by rw [State.runProg, ha, Option.getD_some]
  have htaking : ∀ g : Prog, ((u.ctx c).taking v.ser (u.ch (u.ctx c).chan).cyc).modRun v.ser
      (fun r => { r with prog := g, after := g.after.map fun w => w.1 }) = { (u.ctx c).begun v g (u.ch (u.ctx c).chan).cyc with
        restarts := (u.ctx c).restarts } := fun g => by
    have hmap := modRun_modRun (x := u.ctx c) (k := v.ser)
      (f := fun r => { r with phase := .started, start := (u.ch (u.ctx c).chan).cyc, holds := true })
      (g := fun r => { r with prog := g, after := g.after.map fun w => w.1 }) (by exact fun _ => rfl)
    exact (congrArg (fun y : Ctx => { y with st := if (u.ctx c).st == CtxSt.bound then CtxSt.running else (u.ctx c).st }) hmap :)
  have hbegun : (if v.w.rrst then ((u.taking c v).modRun c v.ser fun r => { r with
          prog := u.runProg c v, after := (u.runProg c v).after.map fun w => w.1 }).modCtx c
        fun x => { x with restarts := x.restarts ++ [(v.count, v.ser)] }
      else (u.taking c v).modRun c v.ser fun r => { r with prog := u.runProg c v, after := (u.runProg c v).after.map fun w => w.1 })
      = u.begun c v := by
    have hone : ((u.taking c v).modRun c v.ser fun r => { r with prog := u.runProg c v, after := (u.runProg c v).after.map fun w => w.1 })
        = (u.holding c).setCtx c { (u.ctx c).begun v (u.runProg c v) (u.ch (u.ctx c).chan).cyc with restarts := (u.ctx c).restarts } := by
      rw [State.modRun, State.modCtx, State.taking, State.setCtx_ctx_same, setCtx_setCtx, htaking]
    rw [hone, State.begun, Ctx.begun]
    cases v.w.rrst
    · rfl
    · rw [if_pos rfl, State.modCtx, State.setCtx_ctx_same, setCtx_setCtx]
      rfl
  rw [← hbegun, hprog] 
  rw [hprog] at hw hf
  simp only [State.start, ha, hh, hw, hf]
  rfl

end

end Sys2Proof.Machine
end

section
/-! SUPPORT. What a run that has started is and has taken (R269, R286, R287), and the faults that it may meet in its first cc (R282, R283). -/
namespace Sys2Proof.Machine
open Sys2Proof.Safety

/-- Lane group k of a channel of which a context takes the groups of a mask. -/
theorem hold_now {h : Channel} (hl : h.holders.length = 16) (c : Nat) (m : BitVec 16) {k : Nat} (hk : k < 16) :
    ((h.hold c m).holders.getD k Holder.reset).now = if m.getLsbD k then some c else (h.holders.getD k Holder.reset).now := by
  have hk' : k < h.holders.length := by omega
  rw [Channel.hold, List.getD_eq_getElem _ _ (by simpa [hl] using hk), List.getD_eq_getElem _ _ hk', List.getElem_map,
    List.getElem_zip, List.getElem_range]
  split <;> rfl

/-- A run of a context has started in a cc with its program and its lane groups. -/
def Run.StartedAs (v : Run) (g : Prog) (cc : Nat) (q : Run) : Prop :=
  q.ser = v.ser ∧ q.phase = .started ∧ q.start = cc ∧ q.holds = true ∧ q.prog = g

/-- The context of a run that starts holds its lane groups and is RUNNING, and nothing else of its registers and its channel changes. -/
def RunTaken (c n : Nat) (u t : State) : Prop :=
  (t.ctx c).st = (if (u.ctx c).st = .bound then .running else (u.ctx c).st)
    ∧ (t.ctx c).runs.length = (u.ctx c).runs.length
    ∧ (∀ k < 16, ((t.ch n).holders.getD k Holder.reset).now =
        if (u.ctx c).lgmask.getLsbD k then some c else ((u.ch n).holders.getD k Holder.reset).now)
    ∧ (∀ i, (t.ch n).ream i = (u.ch n).ream i) ∧ (t.ctx c).flags = (u.ctx c).flags ∧ (t.ctx c).balance = (u.ctx c).balance
    ∧ OnlyCtxCh c n u t

theorem startedAs_begun (v : Run) (g : Prog) (cc : Nat) : v.StartedAs g cc (v.begun g cc) := ⟨rfl, rfl, rfl, rfl, rfl⟩

theorem startedAs_of_uncounted {v q r : Run} {g : Prog} {cc : Nat} (h : q.uncounted = r.uncounted) (hr : v.StartedAs g cc r) :
    v.StartedAs g cc q := by
  obtain ⟨hser, hphase, hstart, hholds, hprog⟩ := hr
  exact ⟨(congrArg Run.ser h :).trans hser, (congrArg Run.phase h :).trans hphase, (congrArg Run.start h :).trans hstart,
    (congrArg Run.holds h :).trans hholds, (congrArg Run.prog h :).trans hprog⟩

/-! ### The state in which its words act -/

section
variable {u : State} {c : Nat} {v : Run}

theorem begun_ctx (u : State) (c : Nat) (v : Run) :
    (u.begun c v).ctx c = (u.ctx c).begun v (u.runProg c v) (u.ch (u.ctx c).chan).cyc := State.setCtx_ctx_same ..

theorem begun_ch (u : State) (c : Nat) (v : Run) :
    (u.begun c v).ch (u.ctx c).chan = (u.ch (u.ctx c).chan).hold c (u.ctx c).lgmask := State.setCh_ch_same ..

theorem taking_ctx (u : State) (c : Nat) (v : Run) :
    (u.taking c v).ctx c = (u.ctx c).taking v.ser (u.ch (u.ctx c).chan).cyc := State.setCtx_ctx_same ..

theorem begun_st (u : State) (c : Nat) (v : Run) :
    ((u.begun c v).ctx c).st = if (u.ctx c).st = .bound then .running else (u.ctx c).st := by
  rw [begun_ctx, Ctx.begun]
  cases (u.ctx c).st <;> rfl

theorem begun_running (h : (u.ctx c).st = .bound ∨ (u.ctx c).st = .running) : ((u.begun c v).ctx c).st = .running := by
  rw [begun_st]
  rcases h with h | h <;> rw [h] <;> rfl

theorem taking_running (h : (u.ctx c).st = .bound ∨ (u.ctx c).st = .running) : ((u.taking c v).ctx c).st = .running := by
  rw [taking_ctx, Ctx.taking]
  rcases h with h | h <;> rw [h] <;> rfl

theorem begun_runs (u : State) (c : Nat) (v : Run) : ((u.begun c v).ctx c).runs
    = ((u.ctx c).modRun v.ser fun r => r.begun (u.runProg c v) (u.ch (u.ctx c).chan).cyc).runs := by rw [begun_ctx]; rfl

theorem begun_nodup (h : ((u.ctx c).runs.map fun q => q.ser).Nodup) : (((u.begun c v).ctx c).runs.map fun q => q.ser).Nodup := by
  rw [begun_runs, map_ser_modRun (by exact fun _ => rfl)]
  exact h

theorem begun_mem (h : v ∈ (u.ctx c).runs) : v.begun (u.runProg c v) (u.ch (u.ctx c).chan).cyc ∈ ((u.begun c v).ctx c).runs := by
  rw [begun_runs]
  exact List.mem_map.mpr ⟨v, h, if_pos (beq_self_eq_true _)⟩

/-- Other runs are as they were. -/
theorem begun_other (h : ∀ q ∈ (u.ctx c).runs, q.phase = .started → q.base ≠ none) :
    ∀ q ∈ ((u.begun c v).ctx c).runs, q.ser ≠ v.ser → q.phase = .started → q.base ≠ none := by
  rw [begun_runs]
  intro q hq hser hp
  obtain ⟨r, hr, rfl⟩ := List.mem_map.mp hq
  split at hser
  · rename_i hk
    exact absurd (beq_iff_eq.mp hk) hser
  · rename_i hk
    rw [if_neg hk] at hp ⊢
    exact h r hr hp

theorem begun_earlier (u : State) (c : Nat) (v : Run) :
    ((u.begun c v).ctx c).runs.filter (fun r => r.ser < v.ser) = (u.ctx c).runs.filter fun r => r.ser < v.ser := by
  rw [begun_runs]
  exact filter_lt_modRun (by exact fun _ => rfl)

/-- What a start has taken, whatever the counts that it fixes. -/
theorem runTaken_of_countsFixed (hl : (u.ch (u.ctx c).chan).holders.length = 16) {t : State} (h : CountsFixed c (u.begun c v) t) :
    RunTaken c (u.ctx c).chan u t := by
  obtain ⟨hframe, hctx, hruns⟩ := h
  have hx : ∀ {α : Type} (f : Ctx → α), f { t.ctx c with
      cnts := ((u.begun c v).ctx c).cnts, restarts := ((u.begun c v).ctx c).restarts, runs := ((u.begun c v).ctx c).runs }
      = f ((u.begun c v).ctx c) := fun f => congrArg f hctx
  have hch : t.ch (u.ctx c).chan = (u.ch (u.ctx c).chan).hold c (u.ctx c).lgmask := by
    rw [← hframe, State.setCtx_ch, begun_ch]
  have hlen := congrArg List.length hruns
  rw [List.length_map, List.length_map, begun_runs, Ctx.modRun, List.length_map] at hlen
  refine ⟨(hx Ctx.st).trans (begun_st u c v), hlen, fun k hk => ?_, fun i => ?_, (hx Ctx.flags).trans ?_, (hx Ctx.balance).trans ?_, ?_⟩
  · rw [hch, hold_now hl c _ hk]
  · rw [hch]
    rfl
  · rw [begun_ctx]
    rfl
  · rw [begun_ctx]
    rfl
  · rw [← hframe, State.begun, setCtx_setCtx]
    exact setCh_setCtx_onlyCtxCh ..

/-! ### Faults in the first cc -/

theorem faultTaken_congr {p q t : State} {code : Nat} {iflt : BitVec 64} (hcode : (q.ctx c).faultcode = (p.ctx c).faultcode)
    (hiflt : (q.ctx c).iflt = (p.ctx c).iflt) (hten : (q.ctx c).ten = (p.ctx c).ten) (htens : q.tenants = p.tenants)
    (h : FaultTaken c code iflt q t) : FaultTaken c code iflt p t := by
  have htenant : q.tenant (p.ctx c).ten = p.tenant (p.ctx c).ten := by rw [State.tenant, htens, State.tenant]
  rw [FaultTaken, hcode, hiflt, hten, htenant] at h
  exact h

/-- A fault at the words of a run that starts. -/
theorem ifault_taking (hst : (u.ctx c).st = .bound ∨ (u.ctx c).st = .running) (operand : Bool) (src word opcode flsb : Nat) :
    FaultTaken c (if operand then 0x02 else 0x01) (ifltWord operand src word opcode flsb) u
      ((u.taking c v).ifault c operand src word opcode flsb) := by
  refine faultTaken_congr (q := u.taking c v) ?_ ?_ ?_ rfl (fault_taken _ _ (.inr (taking_running hst)))
  all_goals
    rw [taking_ctx]
    rfl

theorem recallRuns_faultTaken {p t : State} {code : Nat} {iflt : BitVec 64} (h : FaultTaken c code iflt p t) :
    FaultTaken c code iflt p (t.recallRuns c) := by
  obtain ⟨hst, hcode, hiflt, hruns, htev⟩ := h
  have hx : (t.recallRuns c).ctx c = { t.ctx c with runs := [] } := by
    rw [State.recallRuns, State.modCtx, State.setCtx_ctx_same, hruns, List.map_nil]
  refine ⟨?_, ?_, ?_, ?_, htev⟩
  all_goals rw [hx]
  · exact hst
  · exact hcode
  · exact hiflt

/-- A fault at what the rows of a run read, whose count is fixed. -/
theorem operand_withBase {w : State} {k b : Nat} {r : Run} (word flsb : Nat) (hst : (w.ctx c).st = .bound ∨ (w.ctx c).st = .running) :
    FaultTaken c 0x02 (ifltWord true (srcOf r.w.psel) word (opc (r.prog.words.getD word 0)) flsb) w
      (((w.setCtx c ((w.ctx c).settleRestarts.withBase k b)).operand c r word flsb).recallRuns c) := by
  have hframe := settleRestarts_frame (w.ctx c)
  have hx : (w.setCtx c ((w.ctx c).settleRestarts.withBase k b)).ctx c = (w.ctx c).settleRestarts.withBase k b := State.setCtx_ctx_same ..
  refine recallRuns_faultTaken (faultTaken_congr (q := w.setCtx c ((w.ctx c).settleRestarts.withBase k b)) ?_ ?_ ?_ rfl (fault_taken _ _ ?_))
  all_goals rw [hx]
  · exact (congrArg Ctx.faultcode hframe :)
  · exact (congrArg Ctx.iflt hframe :)
  · exact (congrArg Ctx.ten hframe :)
  · rw [show ((w.ctx c).settleRestarts.withBase k b).st = (w.ctx c).st from (congrArg Ctx.st hframe :)]
    exact hst

/-! ### The counts of a context whose run starts -/

/-- Where the words before the ingest have left a context open, its counts are fixed, or what the rows of the run read faults it. -/
theorem fixCounts_cases {w : State} (hn : ((w.ctx c).runs.map fun q => q.ser).Nodup) (hv : v ∈ (w.ctx c).runs) (hp : v.phase = .started)
    (hother : ∀ q ∈ (w.ctx c).runs, q.ser ≠ v.ser → q.phase = .started → q.base ≠ none) :
    CountsFixed c w (w.fixCounts c) ∨ v.prog.statReads ≠ [] ∧ ∃ k b word flsb,
      w.fixCounts c = ((w.setCtx c ((w.ctx c).settleRestarts.withBase k b)).operand c v word flsb).recallRuns c := by
  by_cases hb : v.base = none
  · cases hu : (w.ctx c).unchecked v.count v.ser with
    | true => exact .inl (fixCounts_of_fixed hn hv hother (.inr hu))
    | false =>
      cases hm : w.statMissing c v ((List.range (v.knownRows (w.ctx c))).map fun i => w.firstRow c v + i) with
      | none => exact .inl (fixCounts_of_provided hn hv hp hother hb hu hm).1
      | some q =>
        refine .inr ⟨fun hreads => ?_, _, _, _, _, (fixCounts_of_counted hn hv hp hother hb hu).2 q hm⟩
        rw [statMissing_of_no_reads hreads] at hm
        cases hm
  · exact .inl (fixCounts_of_fixed hn hv hother (.inl hb))

end

end Sys2Proof.Machine
end

section
/-! SUPPORT. The outcomes of a run that passes the checks of its words (R282, R286, R287, R303): it has started with its first row, or with
the first row to come, or its context has faulted. -/
namespace Sys2Proof.Machine
open Sys2Proof.Safety

theorem unchecked_eq_false_iff {x : Ctx} {count ser : Nat} : x.unchecked count ser = false ↔ ∀ e ∈ x.runs,
    ¬ (e.ser < ser ∧ e.count = count ∧ (e.phase = .waiting ∨ e.phase = .started ∨ e.phase = .checking)) := by
  simp only [Ctx.unchecked, List.any_eq_false, Bool.and_eq_true, Bool.or_eq_true, decide_eq_true_eq, beq_iff_eq, and_assoc, or_assoc]

section
variable {c : Nat} {s t : State} (h : CountsFixed c s t)
include h

theorem CountsFixed.st : (t.ctx c).st = (s.ctx c).st := (congrArg Ctx.st h.ctx :)
theorem CountsFixed.faultcode : (t.ctx c).faultcode = (s.ctx c).faultcode := (congrArg Ctx.faultcode h.ctx :)
theorem CountsFixed.iflt : (t.ctx c).iflt = (s.ctx c).iflt := (congrArg Ctx.iflt h.ctx :)
theorem CountsFixed.flags : (t.ctx c).flags = (s.ctx c).flags := (congrArg Ctx.flags h.ctx :)
theorem CountsFixed.slots : (t.ctx c).slots = (s.ctx c).slots := (congrArg Ctx.slots h.ctx :)
theorem CountsFixed.no_runs (hs : (s.ctx c).runs = []) : (t.ctx c).runs = [] := by
  have hruns := h.runs
  rw [hs] at hruns
  exact List.map_eq_nil_iff.mp hruns

end

theorem knownRows_congr {r q : Run} {x y : Ctx} (hprog : r.prog = q.prog) (hlg : x.lgmask = y.lgmask) : r.knownRows x = q.knownRows y := by
  rw [Run.knownRows, Run.knownRows, hprog, hlg]

/-- The first row of a run of a program whose predecessors of the same count have passed their check. -/
def Ctx.nextRow (x : Ctx) (v : Run) : Nat := if v.w.rrst then 0 else x.cnts.getD v.count 0

/-- The statistics entry of the rows that a run has for certain that nothing provides. -/
def State.missing (u : State) (c : Nat) (v : Run) : Option SlotRead :=
  u.statMissing c { v with prog := u.runProg c v }
    ((List.range (({ v with prog := u.runProg c v } : Run).knownRows (u.ctx c))).map fun i => (u.ctx c).nextRow v + i)

/-- The row count of a run that starts is known: no earlier run of its count is open, none restarts a count, and it has no first row yet. -/
structure Counted (x : Ctx) (v : Run) : Prop where
  unchecked : x.unchecked v.count v.ser = false
  restarts : x.restarts = []
  base : v.base = none

section
variable {u : State} {c : Nat} {v : Run}

theorem begun_unchecked (u : State) (c : Nat) (v : Run) :
    ((u.begun c v).ctx c).unchecked v.count v.ser = (u.ctx c).unchecked v.count v.ser := unchecked_congr (begun_earlier u c v) v.count

/-- The run that has started is v with the program that it reads. -/
structure BegunAs (u : State) (c : Nat) (v b : Run) : Prop where
  mem : b ∈ ((u.begun c v).ctx c).runs
  started : v.StartedAs (u.runProg c v) (u.ch (u.ctx c).chan).cyc b
  word : b.w = v.w
  base : b.base = v.base

theorem exists_begunAs (h : v ∈ (u.ctx c).runs) : ∃ b, BegunAs u c v b :=
  ⟨v.begun (u.runProg c v) (u.ch (u.ctx c).chan).cyc, begun_mem h, startedAs_begun .., rfl, rfl⟩

section
variable {b : Run} (hb : BegunAs u c v b)
include hb

theorem BegunAs.ser : b.ser = v.ser := hb.started.1
theorem BegunAs.phase : b.phase = .started := hb.started.2.1
theorem BegunAs.prog : b.prog = u.runProg c v := hb.started.2.2.2.2
theorem BegunAs.count : b.count = v.count := by rw [Run.count, hb.word, Run.count]

theorem BegunAs.unchecked : ((u.begun c v).ctx c).unchecked b.count b.ser = (u.ctx c).unchecked v.count v.ser := by
  rw [hb.count, hb.ser, begun_unchecked]

theorem BegunAs.others (h : ∀ q ∈ (u.ctx c).runs, q.phase = .started → q.base ≠ none) :
    ∀ q ∈ ((u.begun c v).ctx c).runs, q.ser ≠ b.ser → q.phase = .started → q.base ≠ none := by
  rw [hb.ser]
  exact begun_other h

/-- RRST restarts the count at the start, where nothing holds it back. -/
theorem begun_firstRow (h : Counted (u.ctx c) v) : (u.begun c v).firstRow c b = (u.ctx c).nextRow v := by
  have hu : ((u.begun c v).ctx c).unchecked v.count v.ser = false := (begun_unchecked u c v).trans h.unchecked
  have hcnts : ((u.begun c v).ctx c).cnts = (u.ctx c).cnts := by rw [begun_ctx]; rfl
  have hrest : ((u.begun c v).ctx c).restarts = if v.w.rrst then [(v.count, v.ser)] else [] := by
    rw [begun_ctx, Ctx.begun, h.restarts, List.nil_append]
  rw [State.firstRow, hb.count, Ctx.nextRow, ← hcnts]
  generalize (u.begun c v).ctx c = x at hu hrest
  generalize v.count = k at hu hrest ⊢
  rw [Ctx.settleRestarts, hrest]
  cases v.w.rrst with
  | false => rfl
  | true =>
    rw [if_pos rfl, if_pos rfl, List.foldl_cons, List.foldl_nil, hu, if_neg Bool.false_ne_true]
    change (x.cnts.set k 0).getD k 0 = 0
    rw [List.getD_eq_getElem?_getD, List.getElem?_set_self']
    cases x.cnts[k]? <;> rfl

theorem begun_statMissing (h : Counted (u.ctx c) v) : (u.begun c v).statMissing c b
    ((List.range (b.knownRows ((u.begun c v).ctx c))).map fun i => (u.begun c v).firstRow c b + i) = u.missing c v := by
  have hlgmask : ((u.begun c v).ctx c).lgmask = (u.ctx c).lgmask := by rw [begun_ctx]; rfl
  have hknown : b.knownRows ((u.begun c v).ctx c) = ({ v with prog := u.runProg c v } : Run).knownRows (u.ctx c) :=
    knownRows_congr hb.prog hlgmask
  have hchan : ((u.begun c v).ctx c).chan = (u.ctx c).chan := by rw [begun_ctx]; rfl
  have hser : ({ v with prog := u.runProg c v } : Run).ser = v.ser := rfl
  have hprog : ({ v with prog := u.runProg c v } : Run).prog = u.runProg c v := rfl
  rw [begun_firstRow hb h, hknown, State.missing]
  generalize ({ v with prog := u.runProg c v } : Run) = r at hser hprog ⊢
  refine statMissing_congr (hb.prog.trans hprog.symm) (hb.ser.trans hser.symm) ?_ ?_ (by rw [hser]; exact begun_earlier u c v) _
  · rw [begun_ctx]
    rfl
  · rw [hchan, begun_ch]
    rfl

end

section
variable (hmem : v ∈ (u.ctx c).runs) (hn : ((u.ctx c).runs.map fun q => q.ser).Nodup)
  (hother : ∀ q ∈ (u.ctx c).runs, q.phase = .started → q.base ≠ none)
include hmem hn hother

/-- A run without words before its ingest has started, whose rows read no statistics, or whose count is not known, or whose statistics
are provided. -/
theorem fixCounts_begun_started (hl : (u.ch (u.ctx c).chan).holders.length = 16)
    (h : (u.runProg c v).statReads = [] ∨ (u.ctx c).unchecked v.count v.ser = true ∨ Counted (u.ctx c) v ∧ u.missing c v = none) :
    RunTaken c (u.ctx c).chan u ((u.begun c v).fixCounts c)
      ∧ ∃ q ∈ (((u.begun c v).fixCounts c).ctx c).runs, v.StartedAs (u.runProg c v) (u.ch (u.ctx c).chan).cyc q
        ∧ (Counted (u.ctx c) v → q.base = some ((u.ctx c).nextRow v)) := by
  obtain ⟨b, hb⟩ := exists_begunAs hmem
  have hn' := begun_nodup (c := c) (v := v) hn
  by_cases hcount : v.base = none ∧ (u.ctx c).unchecked v.count v.ser = false
  · obtain ⟨hnone, hunch⟩ := hcount
    have hm : (u.begun c v).statMissing c b
        ((List.range (b.knownRows ((u.begun c v).ctx c))).map fun i => (u.begun c v).firstRow c b + i) = none := by
      rcases h with hreads | hunch' | ⟨hc, hm⟩
      · exact statMissing_of_no_reads (by rw [hb.prog, hreads]) _
      · rw [hunch] at hunch'
        cases hunch'
      · rw [begun_statMissing hb hc, hm]
    obtain ⟨hfixed, q, hq, hsame, hbase⟩ :=
      fixCounts_of_provided hn' hb.mem hb.phase (hb.others hother) (hb.base.trans hnone) (hb.unchecked.trans hunch) hm
    exact ⟨runTaken_of_countsFixed hl hfixed, q, hq, startedAs_of_uncounted hsame hb.started, fun hc => by rw [hbase, begun_firstRow hb hc]⟩
  · have hfix : b.base ≠ none ∨ ((u.begun c v).ctx c).unchecked b.count b.ser = true := by
      rw [hb.base, hb.unchecked]
      exact (not_and_or.mp hcount).imp_right Bool.eq_true_of_not_eq_false
    have hfixed := fixCounts_of_fixed hn' hb.mem (hb.others hother) hfix
    obtain ⟨q, hq, hsame⟩ := hfixed.mem hb.mem
    exact ⟨runTaken_of_countsFixed hl hfixed, q, hq, startedAs_of_uncounted hsame hb.started, fun hc => absurd ⟨hc.base, hc.unchecked⟩ hcount⟩

/-- A statistics entry that nothing provides faults the context at its word and field. -/
theorem fixCounts_begun_missing (hst : (u.ctx c).st = .bound ∨ (u.ctx c).st = .running) (hc : Counted (u.ctx c) v) {q : SlotRead}
    (hm : u.missing c v = some q) : FaultTaken c 0x02
      (ifltWord true (srcOf v.w.psel) q.word (opc ((u.runProg c v).words.getD q.word 0)) q.flsb) u ((u.begun c v).fixCounts c) := by
  obtain ⟨b, hb⟩ := exists_begunAs hmem
  rw [(fixCounts_of_counted (begun_nodup hn) hb.mem hb.phase (hb.others hother) (hb.base.trans hc.base)
    (hb.unchecked.trans hc.unchecked)).2 q ((begun_statMissing hb hc).trans hm), ← hb.word, ← hb.prog]
  refine faultTaken_congr (q := u.begun c v) ?_ ?_ ?_ rfl (operand_withBase q.word q.flsb (.inr (begun_running hst)))
  all_goals
    rw [begun_ctx]
    rfl

variable (hst : (u.ctx c).st = .bound ∨ (u.ctx c).st = .running)
include hst

/-- The words of the run that act before its ingest leave it started in its RUNNING context, or fault the context. -/
theorem actWords_fixCounts_cases (r : Run) (l : List Nat) : let t := ((u.begun c v).actWords c r l).1.fixCounts c
    (∃ q ∈ (t.ctx c).runs, v.StartedAs (u.runProg c v) (u.ch (u.ctx c).chan).cyc q) ∧ (t.ctx c).st = .running ∨ OperandTaken c u t := by
  intro t
  obtain ⟨b, hb⟩ := exists_begunAs hmem
  have hrun := begun_running (v := v) hst
  have hcode : ((u.begun c v).ctx c).faultcode = (u.ctx c).faultcode := by rw [begun_ctx]; rfl
  rcases actWords_cases (c := c) r l (u.begun c v) (.inr hrun) with hslots | ⟨hflt, hnone, hfc⟩
  · have hruns := hslots.runs
    have hst' := hslots.st.trans hrun
    have hb' : b ∈ (((u.begun c v).actWords c r l).1.ctx c).runs := by rw [hruns]; exact hb.mem
    rcases fixCounts_cases (w := ((u.begun c v).actWords c r l).1) (by rw [hruns]; exact begun_nodup hn) hb' hb.phase
      (by rw [hruns]; exact hb.others hother) with hfixed | ⟨-, k, a, word, flsb, hfault⟩
    · obtain ⟨q, hq, hsame⟩ := hfixed.mem hb'
      exact .inl ⟨⟨q, hq, startedAs_of_uncounted hsame hb.started⟩, hfixed.st.trans hst'⟩
    · have htaken := operand_withBase (k := k) (b := a) (r := b) word flsb (.inr hst')
      rw [← hfault] at htaken
      obtain ⟨h1, h2, h3⟩ := operandTaken_of_faultTaken htaken
      exact .inr ⟨h1, h2, by rw [h3, hslots.faultcode, hcode]⟩
  · have hfixed := fixCounts_of_no_runs hnone
    exact .inr ⟨hfixed.st.trans hflt, hfixed.no_runs hnone, by rw [hfixed.faultcode, hfc, hcode]⟩

/-- One word acts before the ingest of a run that reads no statistics: the row counts alone change after it. -/
theorem act_fixCounts (place : Site) (w : IWord) (hreads : (u.runProg c v).statReads = []) :
    let p := (u.begun c v).act c place w
    CountsFixed c p (p.fixCounts c) ∧ (p.ctx c).flags = (u.ctx c).flags
      ∧ ((p.ctx c).st ≠ .faulted →
        ∃ q ∈ ((p.fixCounts c).ctx c).runs, v.StartedAs (u.runProg c v) (u.ch (u.ctx c).chan).cyc q) := by
  intro p
  obtain ⟨b, hb⟩ := exists_begunAs hmem
  have hrun := begun_running (v := v) hst
  have hflags : ((u.begun c v).ctx c).flags = (u.ctx c).flags := by rw [begun_ctx]; rfl
  rcases acts_act (u.begun c v) c place w with ⟨flsb, hfault⟩ | hslots
  · have htaken := fault_taken (c := c) 0x02 (ifltWord true place.src place.index (opc w) flsb) (.inr hrun)
    have hp : p = (u.begun c v).fault c 0x02 (ifltWord true place.src place.index (opc w) flsb) := hfault
    rw [← hp] at htaken
    obtain ⟨hst', -, -, hnone, -⟩ := htaken
    exact ⟨fixCounts_of_no_runs hnone, by rw [hp, fault_flags, hflags], fun h => absurd hst' h⟩
  · have hruns : (p.ctx c).runs = ((u.begun c v).ctx c).runs := hslots.runs
    have hb' : b ∈ (p.ctx c).runs := by rw [hruns]; exact hb.mem
    have hfixed : CountsFixed c p (p.fixCounts c) := by
      rcases fixCounts_cases (w := p) (by rw [hruns]; exact begun_nodup hn) hb' hb.phase (by rw [hruns]; exact hb.others hother)
        with h | ⟨h, -⟩
      · exact h
      · exact absurd (by rw [hb.prog, hreads]) h
    obtain ⟨q, hq, hsame⟩ := hfixed.mem hb'
    exact ⟨hfixed, hslots.flags.trans hflags, fun _ => ⟨q, hq, startedAs_of_uncounted hsame hb.started⟩⟩

end
end

end Sys2Proof.Machine
end

section
/-! SUPPORT. RUN_START by its outcomes (R270, R272, R321): the next run of a context starts in the cc that the handover of its lane groups
leaves it, or one cc passes. -/
namespace Sys2Proof.Machine
open Sys2Proof.Safety

/-! ### The words of a run that wait -/

/-- What an RCLOSE waits for depends on the block, the slots, the reams, what falls due and the runs delivered earlier. -/
theorem closeWaits_congr {s t : State} {c ser : Nat} (hbase : (t.ctx c).reambase = (s.ctx c).reambase)
    (hreq : (t.ctx c).reamreq = (s.ctx c).reamreq) (hslots : (t.ctx c).slots = (s.ctx c).slots)
    (hreams : (t.ch (t.ctx c).chan).reams = (s.ch (s.ctx c).chan).reams) (hdue : (t.ch (t.ctx c).chan).due = (s.ch (s.ctx c).chan).due)
    (hruns : (t.ctx c).runs.filter (fun e => e.ser < ser) = (s.ctx c).runs.filter fun e => e.ser < ser) (w : IWord) :
    t.closeWaits c ser w = s.closeWaits c ser w := by
  have hblock : (t.ctx c).block = (s.ctx c).block := by
    funext rn n
    rw [Ctx.block, Ctx.block, hbase, hreq]
  have hshadowed : (t.ch (t.ctx c).chan).shadowed = (s.ch (s.ctx c).chan).shadowed := by
    funext p
    rw [Channel.shadowed, Channel.shadowed, Channel.ream, Channel.ream, hreams, hdue]
  have hbroke : (t.ch (t.ctx c).chan).brokeLeft = (s.ch (s.ctx c).chan).brokeLeft := by
    funext q
    rw [Channel.brokeLeft, Channel.brokeLeft, hdue]
  have hbusy : (t.ctx c).slotBusy ser = (s.ctx c).slotBusy ser := by
    funext slot
    rw [Ctx.slotBusy, Ctx.slotBusy, Ctx.slot, Ctx.slot, hslots, any_lt, any_lt, hruns]
  simp only [State.closeWaits, hblock, hshadowed, hbroke, hbusy, any_lt, hruns]

theorem begun_closeWaits (u : State) (c : Nat) (v : Run) (w : IWord) :
    (u.begun c v).closeWaits c v.ser w = u.closeWaits c v.ser w := by
  have hchan : ((u.begun c v).ctx c).chan = (u.ctx c).chan := by rw [begun_ctx]; rfl
  refine closeWaits_congr ?_ ?_ ?_ ?_ ?_ (begun_earlier u c v) w
  · rw [begun_ctx]; rfl
  · rw [begun_ctx]; rfl
  · rw [begun_ctx]; rfl
  · rw [hchan, begun_ch]; rfl
  · rw [hchan, begun_ch]; rfl

theorem word_of_before {g : Prog} {i : Nat} {w : IWord} (h : (i, w) ∈ g.before) : g.words.getD i 0 = w := by
  have hindexed : (i, w) ∈ (List.range g.words.length).zip g.words :=
    List.mem_of_mem_drop ((List.takeWhile_sublist _).subset (List.mem_of_mem_filter h))
  obtain ⟨j, hj, hij⟩ := List.mem_iff_getElem.mp hindexed
  rw [List.getElem_zip, List.getElem_range] at hij
  obtain ⟨rfl, rfl⟩ := Prod.mk.inj hij
  exact List.getD_eq_getElem _ _ (by simp at hj; exact hj)

/-- No word before the ingest of a run waits that nothing holds back. -/
theorem closeWaits_of_heldBack {u : State} {c a : Nat} {v : Run} (h : u.heldBack c v = false) (ha : v.slot = some a) {iw : Nat × IWord}
    (hw : iw ∈ ((u.ch (u.ctx c).chan).program a).before) : u.closeWaits c v.ser iw.2 = false := by
  simp only [State.heldBack, ha, Bool.or_eq_false_iff] at h
  exact (Bool.or_eq_false_iff.mp (Bool.eq_false_of_not_eq_true (List.any_eq_false.mp h.2 iw hw))).1

theorem actWords_singleton {s : State} {c i : Nat} {r q : Run} {w : IWord} (hq : q ∈ (s.ctx c).runs) (hser : q.ser = r.ser)
    (hword : r.prog.words.getD i 0 = w) (hw : s.closeWaits c r.ser w = false) :
    (s.actWords c r [i]).1 = s.act c (Site.ofRun r i) w := by
  subst hword
  have hsome : ((s.ctx c).runs.all fun e => e.ser != r.ser) = false :=
    List.all_eq_false.mpr ⟨q, hq, by simp [hser]⟩
  simp only [State.actWords, hsome, hw, Bool.false_eq_true, if_false]

/-- The one word before the ingest of a run that starts acts at once. -/
theorem begun_actWords {u : State} {c a i : Nat} {v : Run} {w : IWord} (hmem : v ∈ (u.ctx c).runs) (ha : v.slot = some a)
    (hheld : u.heldBack c v = false) (hg : (u.runProg c v).before = [(i, w)]) :
    ((u.begun c v).actWords c { v with prog := u.runProg c v } ((u.runProg c v).before.map fun w => w.1)).1
      = (u.begun c v).act c (Site.ofRun { v with prog := u.runProg c v } i) w := by
  have hin : (i, w) ∈ (u.runProg c v).before := hg ▸ List.mem_singleton_self _
  have hword : (u.runProg c v).words.getD i 0 = w := word_of_before hin
  have hwaits : (u.begun c v).closeWaits c v.ser w = false := by
    rw [begun_closeWaits]
    rw [State.runProg, ha, Option.getD_some] at hin
    exact closeWaits_of_heldBack (iw := (i, w)) hheld ha hin
  rw [hg, List.map_singleton]
  exact actWords_singleton (begun_mem hmem) rfl hword hwaits

/-! ### The next run -/

section
variable {s : State} {c : Nat} {v : Run}

theorem nextRun_waiting (h : s.nextRun c = some v) : v ∈ (s.ctx c).runs ∧ s.heldBack c v = false := by
  unfold State.nextRun at h
  dsimp only at h
  split at h
  · rename_i r hr
    split at h
    · rename_i hp
      cases h
      simp only [Bool.and_eq_true, Bool.not_eq_true'] at hp
      exact ⟨List.mem_of_find?_eq_some hr, hp.2⟩
    · cases h
  · cases h

variable (h : s.nextRun c = some v)
include h

theorem couldStart_of_nextRun : s.couldStart c
    = if (s.ctx c).permits && (s.ch (s.ctx c).chan).groupsFree c (s.ctx c).lgmask.toNat (s.ch (s.ctx c).chan).cyc
        && !(s.ctx c).waitsSlots (s.ch (s.ctx c).chan) v then some v else none := by
  simp only [State.couldStart, h]

/-- A run that could start is the next one, and its lane groups are free. -/
theorem couldStart_next {q : Run} (hq : s.couldStart c = some q) :
    q = v ∧ (s.ch (s.ctx c).chan).groupsFree c (s.ctx c).lgmask.toNat (s.ch (s.ctx c).chan).cyc = true := by
  rw [couldStart_of_nextRun h, Option.ite_none_right_eq_some] at hq
  obtain ⟨hfree, hq⟩ := hq
  simp only [Bool.and_eq_true] at hfree
  exact ⟨(Option.some.inj hq).symm, hfree.1.2⟩

theorem startWait_of_group (hg : (s.ch (s.ctx c).chan).groupsFree c (s.ctx c).lgmask.toNat (s.ch (s.ctx c).chan).cyc = false
    ∨ s.outrun c v.ser = true) : s.startWait c = some .group := by
  rcases hg with hg | hg <;> simp [State.startWait, h, hg]

end

/-! ### The command -/

section
variable {s : State} {c : Nat} {r : Run} (hwait : (s.ctx c).waiting = some r) (hhost : s.hosted c = true)
  (hserves : (s.ch (s.ctx c).chan).serves = true) (hheld : s.heldBack c r = false)
include hwait hhost hserves hheld

/-- A run that an earlier-delivered run of another context could outrun waits for one cc. -/
theorem runStart_of_outrun {w : Run} (hw : (startPoint s c r).couldStart c = some w) (ho : (startPoint s c r).outrun c w.ser = true) :
    s.runStart c = (startPoint s c r).pass (s.ctx c).chan (((startPoint s c r).ch (s.ctx c).chan).cyc + 1) := by
  rw [startPoint] at hw ho ⊢
  simp only [State.runStart, hwait, hhost, hserves, hheld, hw, ho, Bool.not_true, Bool.or_self, Bool.false_eq_true, if_false, if_true]

/-- A run that is chosen starts once its lane groups are handed over. -/
theorem runStart_of_chosen {w v : Run} {u : State} (hw : (startPoint s c r).couldStart c = some w)
    (ho : (startPoint s c r).outrun c w.ser = false)
    (hu : u = (startPoint s c r).pass (s.ctx c).chan
      (((startPoint s c r).ch (s.ctx c).chan).handover c ((startPoint s c r).ctx c).lgmask.toNat))
    (hv : u.nextRun c = some v) : s.runStart c = (u.start c v).settleDue (s.ctx c).chan := by
  subst hu
  rw [startPoint] at hw ho hv ⊢
  simp only [State.runStart, hwait, hhost, hserves, hheld, hw, ho, hv, Bool.not_true, Bool.or_self, Bool.false_eq_true, if_false]

theorem runStart_of_startWait (hw : (startPoint s c r).couldStart c = none) (hk : ((startPoint s c r).startWait c).isSome = true) :
    s.runStart c = (startPoint s c r).pass (s.ctx c).chan (((startPoint s c r).ch (s.ctx c).chan).cyc + 1) := by
  rw [startPoint] at hw hk ⊢
  simp only [State.runStart, hwait, hhost, hserves, hheld, hw, hk, Bool.not_true, Bool.or_self, Bool.false_eq_true, if_false, if_true]

end

end Sys2Proof.Machine
end

section
/-! SUPPORT. What RUN_START comes to in the terms in which it is stated (R269, R270, R282, R286, R287, R321): the words of a run that passes
its checks, the fault of a run that does not, and a cc in which a run waits. -/
namespace Sys2Proof.Machine
open Sys2Proof.Safety

/-! ### A run that passes its checks -/

/-- The words of a run are valid, and nothing that its program reads is missing. -/
structure Checked (u : State) (c : Nat) (v : Run) : Prop where
  slot : v.slot ≠ none
  header : headerFault ((u.ch (u.ctx c).chan).word (v.slot.getD 0)) = none
  word : v.wordFault (u.runProg c v) = none
  program : (u.ctx c).startFaults (u.runProg c v) v.ser = []

section
variable {u : State} {c : Nat} {v : Run} (hv : Checked u c v)
include hv

theorem Checked.start : u.start c v
    = ((u.begun c v).actWords c { v with prog := u.runProg c v } ((u.runProg c v).before.map fun w => w.1)).1.fixCounts c := by
  obtain ⟨a, ha⟩ := Option.ne_none_iff_exists'.mp hv.slot
  have hheader := hv.header
  rw [ha, Option.getD_some] at hheader
  exact start_of_checked ha hheader hv.word (by rw [hv.program]; rfl)

theorem Checked.start_of_no_words (h : (u.runProg c v).before = []) : u.start c v = (u.begun c v).fixCounts c := by
  rw [hv.start, h, List.map_nil]
  rfl

theorem Checked.start_of_one_word {i : Nat} {w : IWord} (hmem : v ∈ (u.ctx c).runs) (hheld : u.heldBack c v = false)
    (h : (u.runProg c v).before = [(i, w)]) :
    u.start c v = ((u.begun c v).act c (Site.ofRun { v with prog := u.runProg c v } i) w).fixCounts c := by
  obtain ⟨a, ha⟩ := Option.ne_none_iff_exists'.mp hv.slot
  rw [hv.start, begun_actWords hmem ha hheld h]

end

/-- The counts of a run that has just started are those of its start. -/
theorem begun_countsFixed (u : State) (c : Nat) (v : Run) : CountsFixed c (u.begun c v) (u.begun c v) where
  frame := by rw [State.begun, setCtx_setCtx, State.setCtx_ctx_same]
  ctx := rfl
  runs := rfl

/-- Fixing counts leaves everything but its context. -/
theorem CountsFixed.outside {c : Nat} {s t : State} (h : CountsFixed c s t) :
    t.chans = s.chans ∧ t.tenants = s.tenants ∧ t.slices = s.slices ∧ ∀ d, d ≠ c → t.ctx d = s.ctx d := by
  rw [← h.frame]
  exact ⟨rfl, rfl, rfl, fun d hd => State.setCtx_ctx_other _ _ _ _ hd⟩

/-- The words before its ingest leave the run started in its RUNNING context, or fault the context. -/
theorem Checked.start_cases {u : State} {c : Nat} {v : Run} (hv : Checked u c v) (hmem : v ∈ (u.ctx c).runs)
    (hn : ((u.ctx c).runs.map fun q => q.ser).Nodup) (hother : ∀ q ∈ (u.ctx c).runs, q.phase = .started → q.base ≠ none)
    (hst : (u.ctx c).st = .bound ∨ (u.ctx c).st = .running) :
    (∃ q ∈ ((u.start c v).ctx c).runs, v.StartedAs (u.runProg c v) (u.ch (u.ctx c).chan).cyc q) ∧ ((u.start c v).ctx c).st = .running
      ∨ ((u.start c v).ctx c).st = .faulted ∧ ((u.start c v).ctx c).runs = []
        ∧ ((u.start c v).ctx c).faultcode = if (u.ctx c).faultcode = 0 then 0x02 else (u.ctx c).faultcode := by
  rw [hv.start]
  exact (actWords_fixCounts_cases hmem hn hother hst _ _).imp_right fun h => ⟨h.st, h.runs, h.faultcode⟩

/-! ### A run that fails them -/

theorem wordFault_cbase {v : Run} {g : Prog} (h : v.w.cbase % max g.hdr.c 1 ≠ 0 ∨ g.hdr.w ≤ v.w.cbase ∨
    g.scan.isSome = true ∧ v.w.cbase % 64 ≠ 0) : v.wordFault g = some 87 := by
  rw [Run.wordFault]
  refine if_pos ?_
  simpa [or_assoc] using h

theorem wordFault_pass2 {v : Run} {g : Prog} (hc : v.w.cbase % max g.hdr.c 1 = 0) (hw : v.w.cbase < g.hdr.w)
    (hscan : g.scan = none ∨ v.w.cbase % 64 = 0) (hpass : v.w.pass2 = true) (hstrat : g.hdr.strat ≠ 2) : v.wordFault g = some 24 := by
  have hscan' : g.scan.isSome = true → v.w.cbase % 64 = 0 := fun h => hscan.resolve_left (Option.isSome_iff_ne_none.mp h)
  rw [Run.wordFault, if_neg (by simpa using ⟨⟨hc, hw⟩, hscan'⟩), hpass, if_pos (by simpa using hstrat)]

section
variable {u : State} {c : Nat} {v : Run} (hst : (u.ctx c).st = .bound ∨ (u.ctx c).st = .running)
include hst

theorem start_faults_of_no_slot (h : v.slot = none) : FaultTaken c 0x02 (ifltWord true 0 0 0x01 119) u (u.start c v) := by
  rw [start_of_no_slot h]
  exact ifault_taking hst true ..

variable {a : Nat} (ha : v.slot = some a)
include ha

theorem start_faults_at_header {f : PFault} (hf : headerFault ((u.ch (u.ctx c).chan).word a) = some f) : FaultTaken c 0x01
    (ifltWord false (srcOf v.w.psel) 0 (opc ((u.ch (u.ctx c).chan).word a)) f.flsb) u (u.start c v) := by
  rw [start_of_header ha hf]
  exact ifault_taking hst false ..

variable (hh : headerFault ((u.ch (u.ctx c).chan).word a) = none)
include hh

theorem start_faults_at_word {f : Nat} (hf : v.wordFault (u.runProg c v) = some f) :
    FaultTaken c 0x02 (ifltWord true 0 0 0x01 f) u (u.start c v) := by
  rw [start_of_word ha hh hf]
  exact ifault_taking hst true ..

theorem start_faults_at_program {f : PFault} (hw : v.wordFault (u.runProg c v) = none)
    (hf : firstFault ((u.ctx c).startFaults (u.runProg c v) v.ser) = some f) : FaultTaken c (if f.operand then 0x02 else 0x01)
      (ifltWord f.operand (srcOf v.w.psel) f.word (opc ((u.runProg c v).words.getD f.word 0)) f.flsb) u (u.start c v) := by
  rw [start_of_program ha hh hw hf]
  exact ifault_taking hst f.operand ..

end

/-! ### A run that waits -/

section
variable {p : State} {n c : Nat} {k : Cause} (hs : (p.ch n).serves = true) (ha : ∃ a ∈ (p.ch n).alloc, a.ctx = c)
  (hpolled : ∀ q, (p.ch n).polled = some q → ∀ e ∈ q.stalls, 2 < e.2.code) (hk : p.startWait c = some k)
include hs ha hpolled hk

/-- The cc counts one stall of the context, under the cause that keeps its run. -/
theorem stalled_ctx_of_startWait : (p.stalled n 1).ctx c = (p.ctx c).stall k 1 := by
  rw [State.stalled, if_pos hs, State.stalls, State.modCh, State.setCh_ctx, foldl_stall_ctx, ccStalls_filter ha hpolled hk]
  rfl

theorem endCc_waits : let t := p.endCc n 1
    (t.ctx c).stallPace = min ((p.ctx c).stallPace + 1) 0xFFFFFFFF
      ∧ (t.ctx c).stallBudget = if k = .budget then min ((p.ctx c).stallBudget + 1) 0xFFFFFFFF else (p.ctx c).stallBudget := by
  intro t
  obtain ⟨hpace, hbudget⟩ := endCc_stalls p n c 1
  rw [stalled_ctx_of_startWait hs ha hpolled hk] at hpace hbudget
  refine ⟨hpace, hbudget.trans ?_⟩
  cases k <;> rfl

end

section
variable {s : State} {c : Nat} {r w : Run} {k : Cause} (hnext : (startPoint s c r).nextRun c = some w)
  (hchan : ((startPoint s c r).ctx c).chan = (s.ctx c).chan)
  (hk : k = .group ∧ (((startPoint s c r).ch (s.ctx c).chan).groupsFree c ((startPoint s c r).ctx c).lgmask.toNat
        ((startPoint s c r).ch (s.ctx c).chan).cyc = false ∨ (startPoint s c r).outrun c w.ser = true)
      ∨ (startPoint s c r).startWait c = some k ∧ (startPoint s c r).couldStart c = none)
include hnext hchan hk

theorem startWait_of_kept : (startPoint s c r).startWait c = some k := by
  rcases hk with ⟨rfl, hgroup⟩ | ⟨hk, -⟩
  · exact startWait_of_group hnext (by rw [hchan]; exact hgroup)
  · exact hk

/-- A run that its lane groups, an earlier run or another cause keeps lets one cc pass. -/
theorem runStart_of_kept (hwait : (s.ctx c).waiting = some r) (hhost : s.hosted c = true) (hserves : (s.ch (s.ctx c).chan).serves = true)
    (hheld : s.heldBack c r = false) :
    s.runStart c = (startPoint s c r).pass (s.ctx c).chan (((startPoint s c r).ch (s.ctx c).chan).cyc + 1) := by
  cases hcould : (startPoint s c r).couldStart c with
  | none => exact runStart_of_startWait hwait hhost hserves hheld hcould (by rw [startWait_of_kept hnext hchan hk]; rfl)
  | some q =>
    obtain ⟨rfl, hfree⟩ := couldStart_next hnext hcould
    rw [hchan] at hfree
    rcases hk with ⟨-, hgroup | hout⟩ | ⟨-, hnone⟩
    · rw [hfree] at hgroup
      cases hgroup
    · exact runStart_of_outrun hwait hhost hserves hheld hcould hout
    · rw [hcould] at hnone
      cases hnone

end

/-- What the end of a cc leaves: the runs of a context, the channel's lane groups, reams and buffer, and the other contexts but for what they
pay and wait. -/
theorem endCc_leaves (p : State) (n c : Nat) : let t := p.endCc n 1
    (t.ctx c).runs = (p.ctx c).runs ∧ (t.ctx c).st = (p.ctx c).st ∧ (t.ch n).cyc = min ((p.ch n).cyc + 1) (2 ^ 64 - 1)
      ∧ (t.ch n).holders = (p.ch n).holders ∧ (∀ i, (t.ch n).ream i = (p.ch n).ream i) ∧ (t.ch n).couch = (p.ch n).couch
      ∧ OthersOnlyWait c p t := by
  have hctx := onlyWaits_endCc p n 1
  have hstill := endCc_still p n 1
  obtain ⟨-, -, hcyc⟩ := endCc_ch p n 1
  rw [sat64] at hcyc
  generalize p.endCc n 1 = t at hctx hstill hcyc ⊢
  have hreams : (t.ch n).reams = (p.ch n).reams := (congrArg Channel.reams hstill :)
  refine ⟨(congrArg Ctx.runs (hctx c).eq :), (congrArg Ctx.st (hctx c).eq :), hcyc, (congrArg Channel.holders hstill :), fun i => ?_,
    (congrArg Channel.couch hstill :), fun d _ => (hctx d).eq⟩
  rw [Channel.ream, Channel.ream, hreams]

end Sys2Proof.Machine
end

section
/-! The start of runs (R269, R270, R272, R282, R286, R287, R303, R321). -/
namespace Sys2Proof
open Sys2Proof.Machine Sys2Proof.Safety

/-- Settles O46, by the steps of a start: the state in which its words act, their outcomes, and the row counts that are fixed after them; a
run that waits is charged its one stall. -/
theorem runsStartWhenTheirGroupsAreFree : Obligations.RunsStartWhenTheirGroupsAreFree := by
  unfold Obligations.RunsStartWhenTheirGroupsAreFree
  intro s c r hin hwait hhost n p u x h hserves hheld hpn hxn
  have hexec : exec (.runStart c) s = .next (s.runStart c.val) :=
    hw_inside hin fun t => t.runStart c.val
  constructor
  · intro w v hnext hgroups hpermits hslots hout hv hdue
    have hcould : p.couldStart c.val = some w := by
      rw [couldStart_of_nextRun hnext, hpn, hgroups, hpermits, hslots]
      rfl
    have hstart : exec (.runStart c) s = .next (u.start c.val v) := by
      rw [hexec, runStart_of_chosen hwait hhost hserves hheld hcould hout rfl hv]
      exact congrArg _ (settleDue_of_nothingDue ((keepsAhead_start c.val v).nothingDue n hdue))
    rw [hstart]
    obtain ⟨hmem, hheldv⟩ := nextRun_waiting hv
    clear hcould hnext hgroups hpermits hslots hout hdue hexec hstart hpn
    clear_value u n
    change (u.ctx c.val).chan = n at hxn
    subst hxn
    intro g r' first Before Counted' missing Started Taken
    have hcounted : Counted' → Counted x v := fun ⟨hb, hr, hn⟩ => ⟨unchecked_eq_false_iff.mpr hb, hr, hn⟩
    constructor
    · intro hslot hheader hword hprogram hl hother hnodup
      have hchecked : Checked u c.val v := ⟨hslot, hheader, hword, hprogram⟩
      refine ⟨fun hbefore hstat => ?_, fun q hbefore hcount hmissing hst => ?_, fun i w hbefore hreads hst => ?_, fun hst => ?_⟩
      · have hstat' : g.statReads = [] ∨ x.unchecked v.count v.ser = true ∨ Counted x v ∧ u.missing c.val v = none := by
          refine hstat.imp_right (Or.imp (fun ⟨e, he, hb⟩ => ?_) fun ⟨hc, hm⟩ => ⟨hcounted hc, hm⟩)
          exact Bool.eq_true_of_not_eq_false fun hu => unchecked_eq_false_iff.mp hu e he hb
        rw [hchecked.start_of_no_words hbefore]
        obtain ⟨htaken, q, hq, hstarted, hbase⟩ := fixCounts_begun_started hmem hnodup hother hl hstat'
        exact ⟨_, rfl, htaken, q, hq, hstarted, fun hc => hbase (hcounted hc)⟩
      · rw [hchecked.start_of_no_words hbefore]
        exact ⟨_, rfl, fixCounts_begun_missing hmem hnodup hother hst (hcounted hcount) hmissing⟩
      · obtain ⟨hfixed, hflags, hstarted⟩ := act_fixCounts hmem hnodup hother hst (Site.ofRun r' i) w hreads
        obtain ⟨hchans, htenants, hslices, hctxs⟩ := hfixed.outside
        obtain ⟨b, hb⟩ := exists_begunAs hmem
        rw [hchecked.start_of_one_word hmem hheldv hbefore]
        refine ⟨u.begun c.val v, _, rfl, runTaken_of_countsFixed hl (begun_countsFixed u c.val v), ⟨b, hb.mem, hb.started⟩, ?_,
          hchans, htenants, hslices, hctxs, hfixed.st, hfixed.faultcode, hfixed.iflt, hfixed.flags.trans hflags, hfixed.slots, hstarted⟩
        rw [begun_ch]
        rfl
      · exact ⟨_, rfl, hchecked.start_cases hmem hnodup hother hst⟩
    · intro hst
      refine ⟨fun hslot => ⟨_, rfl, start_faults_of_no_slot hst hslot⟩,
        fun a f ha hf => ⟨_, rfl, start_faults_at_header hst ha hf⟩, fun a ha hheader => ⟨fun hcbase => ?_, ?_, ?_⟩⟩
      · exact ⟨_, rfl, start_faults_at_word hst ha hheader (wordFault_cbase hcbase)⟩
      · intro hc hw hscan hpass hstrat
        exact ⟨_, rfl, start_faults_at_word hst ha hheader (wordFault_pass2 hc hw hscan hpass hstrat)⟩
      · exact fun f hword hf => ⟨_, rfl, start_faults_at_program hst ha hheader hword hf⟩
  · intro w k hnext hserve hdue halloc hpolled hk
    have hwaits : p.startWait c.val = some k := startWait_of_kept hnext hpn hk
    rw [hexec, runStart_of_kept hnext hpn hk hwait hhost hserves hheld]
    rw [pass_next_of_nothingDue (ticking_of_serves hserve) hdue]
    obtain ⟨hruns, hst, hcyc, hholders, hreams, hcouch, hothers⟩ := endCc_leaves p n c.val
    obtain ⟨hpace, hbudget⟩ := endCc_waits hserve halloc hpolled hwaits
    exact ⟨_, rfl, hruns, hst, hpace, hbudget, hcyc, hholders, hreams, hcouch, hothers⟩

end Sys2Proof
end

section
/-! SUPPORT. What every command and every tick keeps: the queue, JRST_N and the mark of an undefined state, but for the three commands that
set one of these, and the invariant without exception. -/
namespace Sys2Proof.Machine
open Sys2Proof.Safety

section
variable {s t : State}

/-- The commands that set JRST_N or the mark of an undefined state (R392, R393, R433). -/
def setsLevel : Instr → Bool
  | .resetAssert | .resetRelease | .wsExtest _ => true
  | _ => false

/-! ### Commands whose meaning is more than one operation -/

/-- A test that the wrapper asks for, of one of the eight channels (R427). -/
theorem keeps_wrapperTest (w : Wrapper) (seg : BitVec 4) (l : Bool) :
    Keeps s (if seg.toNat < 8 then ({ s with wrap := w } : State).bistRequest seg.toNat l else { s with wrap := w }) :=
  .ite ((keeps_bistRequest ..).after ((Keeps.refl s).wrap w)) ((Keeps.refl s).wrap w)

theorem bounded_nextGrant {h : Channel} (b : Bounded h) : Bounded h.nextGrant := by
  unfold Channel.nextGrant
  split
  · exact b
  · exact b

/-- A report of a channel whose clock runs (R405). -/
theorem bounded_reported {h : Channel} (b : Bounded h) : Bounded (if h.ticking then h.report else h) := by
  split
  · exact bounded_report b
  · exact b

theorem keeps_clearCe (n : Nat) : Keeps s (s.modCh n fun h => { h with ce := 0 }) := Keeps.modCh n fun _ b => b
theorem keeps_clearUcce : Keeps s { s with ucce := 0 } := ⟨rfl, rfl, rfl, id⟩
theorem keeps_clearFsstat : Keeps s { s with fsRej := 0, fsLslot := 0 } := ⟨rfl, rfl, rfl, id⟩

/-! ### Guarded commands, the answer first, so that it says what the command does -/

theorem Keeps.of_hw {f : State → State} (e : hw s f = .next t) (hf : Keeps s (f s)) : Keeps s t := hw_keeps hf e
theorem Keeps.of_port {f : State → State} (e : port s f = .next t) (hf : Keeps s (f s)) : Keeps s t := port_keeps hf e
theorem Keeps.of_ctl {f : State → State} (e : ctl s f = .next t) (hf : ∀ u : State, Keeps u (f u)) : Keeps s t := ctl_keeps hf e
theorem Keeps.of_level {f : State → State} (e : level s f = .next t) (hf : Keeps s (f s)) : Keeps s t := level_keeps hf e

/-! ### Every command -/

theorem exec_keeps {k : Instr} (hk : setsLevel k = false) (e : exec k s = .next t) : Keeps s t := by
  unfold exec at e
  cases k with
  | resetAssert | resetRelease | wsExtest => cases hk
  -- Headbox, runs, Couch and Reel
  | nop | run | discard | rclr | rexp | rclose | lrel | lflush => exact .of_port e (keeps_direct ..)
  | headboxWord => exact .of_port e (keeps_headboxWord ..)
  | headboxDeliver => exact .of_hw e (keeps_headboxDeliver _)
  | runStart => exact .of_hw e (keeps_runStart _)
  | creditGrant => exact .of_hw e (keeps_creditGrant _)
  | creditGrantAccept => exact .of_port e (Keeps.modCh _ fun _ b => bounded_nextGrant b)
  | couchBeat => exact .of_port e (keeps_couchBeat ..)
  | couchPresent => exact .of_hw e (keeps_couchPresent _)
  | tileCommit => exact .of_hw e (keeps_tileCommit _)
  | sampleRecordWrite => exact .of_hw e (keeps_writeSample _)
  | loftRecordWrite => exact .of_hw e (keeps_writeRecord _)
  | stashWrite => exact .of_hw e (keeps_writeStash _)
  | reelPresent => exact .of_hw e (keeps_reelPresent _)
  | reelAccept => exact .of_port e (Keeps.modCh _ fun _ b => b)
  | runComplete => exact .of_hw e (keeps_runComplete _)
  -- Felt
  | feltAccessIssue => exact .of_hw e (keeps_feltIssue _)
  | feltResponse => exact .of_port e (keeps_feltResponse ..)
  | feltRequestAccept => exact .of_port e (Keeps.modSlice ..)
  | feltWriteDataAccept => exact .of_port e (keeps_acceptData _)
  -- contexts
  | abandonComplete => exact .of_hw e (keeps_abandoned _)
  | drainComplete => exact .of_hw e (keeps_drained _)
  | bind => exact .of_ctl e (fun _ => keeps_bind _)
  | unbind => exact .of_ctl e (fun _ => keeps_unbind _)
  | teardown => exact .of_ctl e (fun _ => keeps_teardown _)
  | restore => exact .of_ctl e (fun _ => keeps_restore _)
  | migrate => exact .of_ctl e (fun _ => keeps_migrate ..)
  -- the mailbox and the mill core
  | mbplWrite => exact .of_ctl e (fun _ => keeps_mbplWrite ..)
  | mbphWrite => exact .of_ctl e (fun _ => keeps_mbphWrite ..)
  | mbrptRead => exact .of_ctl e (fun _ => keeps_mbrptRead _)
  | mbBind => exact .of_hw e (keeps_millTake _ _ fun _ => keeps_millBind)
  | mbUnbind => exact .of_hw e (keeps_millTake _ _ fun _ e => keeps_millContext e _ fun _ => keeps_unbind)
  | mbTeardown => exact .of_hw e (keeps_millTake _ _ fun _ e => keeps_millContext e _ fun _ => keeps_teardown)
  | mbRestore => exact .of_hw e (keeps_millTake _ _ fun _ e => keeps_millContext e _ fun _ => keeps_restore)
  | mbMigrate => exact .of_hw e (keeps_millTake _ _ fun _ e => keeps_millContext e _ fun _ c => keeps_migrate c _)
  | loadprog => exact .of_hw e (keeps_millTake _ _ fun _ => keeps_millLoad)
  | watchdogExpiry => exact .of_hw e keeps_watchdog
  | millCoreFault => exact .of_hw e keeps_millFault
  | millRestartDone => exact .of_hw e (keeps_millRestart _)
  | millFirmwareLoad | microcodeLoad | functionTableLoad => exact .of_ctl e (fun _ => keeps_mntCommand ..)
  | maintenanceLoadDone => exact .of_hw e (keeps_mntEnd _)
  -- channels: fence, test, drain, power, throttle and clocks
  | quiesce => exact .of_ctl e (fun _ => keeps_quiesce _)
  | test => exact .of_ctl e (fun _ => keeps_testCommand _)
  | rejoin => exact .of_ctl e (fun _ => Keeps.modCh _ fun _ => bounded_rejoin)
  | fence => exact .of_ctl e (fun _ => keeps_fence ..)
  | release => exact .of_ctl e (fun _ => Keeps.modCh _ fun _ => bounded_unquiesce)
  | drainTimeout => exact .of_hw e (keeps_drainTimeout _)
  | fenceWritebackDone => exact .of_hw e (keeps_fenceDone _)
  | selfTestDone => exact .of_hw e (keeps_selfTestDone ..)
  | furnishCopyDone => exact .of_hw e (keeps_copyDone _)
  | power => exact .of_ctl e (fun _ => Keeps.modCh _ fun _ => bounded_power)
  | off => exact .of_ctl e (fun _ => keeps_turnOff _)
  | switchesOpen => exact .of_hw e (Keeps.modCh _ fun _ => bounded_switchesOpen)
  | powerUpDone => exact .of_hw e (keeps_powerUpDone _)
  | throttleDecision => exact .of_hw e (keeps_throttleDecision ..)
  | throttleStepEffect => exact .of_hw e (keeps_stepEffect _)
  | powerEstimate => exact .of_hw e (keeps_powerEstimate _)
  | budgetRefill => exact .of_hw e (keeps_budgetRefill _)
  | channelClockStop => exact .of_level e (Keeps.modCh _ fun _ b => b)
  | channelClockResume => exact .of_level e (keeps_clockResume _)
  | clockFrequencyChange clk =>
    cases clk with
    | chan => exact .of_level e ⟨rfl, rfl, rfl, id⟩
    | uncore => exact .of_level e ⟨rfl, rfl, rfl, id⟩
  | channelReport => exact .of_hw e (Keeps.modCh _ fun _ => bounded_reported)
  | uncoreInitDone => exact .of_hw e keeps_initDone
  -- errors
  | uncorrectableError => exact .of_hw e (keeps_uncorrectable ..)
  | correctedError => exact .of_hw e (keeps_corrected _)
  | residueError => exact .of_hw e (keeps_ownerError ..)
  | parityError => exact .of_hw e (keeps_parity ..)
  | duplicateCopyError => exact .of_hw e (keeps_duplicateError ..)
  | scrub => exact .of_hw e (Keeps.refl s)
  -- Control registers
  | furnishLowWrite => exact .of_ctl e (fun _ => keeps_furnishLow ..)
  | furnishHighWrite => exact .of_ctl e (fun _ => keeps_furnishHigh ..)
  | programChange => exact .of_ctl e (fun _ => keeps_writeCtxres ..)
  | contextFieldWrite _ reg =>
    cases reg with
    | ctxst => exact .of_ctl e (fun _ => keeps_writeCtxst ..)
    | ctxres => exact .of_ctl e (fun _ => keeps_writeCtxres ..)
    | ctxloft => exact .of_ctl e (fun _ => keeps_writeCtxloft ..)
    | ctxstash => exact .of_ctl e (fun _ => keeps_writeCtxstash ..)
  | ctxkeyWrite => exact .of_ctl e (fun _ => keeps_writeCtxkey ..)
  | ctxbudWrite => exact .of_ctl e (fun _ => keeps_writeCtxbud ..)
  | chwinWrite => exact .of_ctl e (fun _ => keeps_writeChwin ..)
  | ctxflagClear => exact .of_ctl e (fun _ => keeps_clearCtxflag ..)
  | chflagClear => exact .of_ctl e (fun _ => keeps_clearChflag ..)
  | ctxcapClear => exact .of_ctl e (fun _ => keeps_clearCap ..)
  | ctxifltClear => exact .of_ctl e (fun _ => keeps_clearIflt ..)
  | ctxlostClear => exact .of_ctl e (fun _ => keeps_clearLost ..)
  | ifstatClear => exact .of_ctl e (fun _ => keeps_clearIfstat _)
  | tevpendClear => exact .of_ctl e (fun _ => keeps_clearTevpend ..)
  | loftmarkClear => exact .of_ctl e (fun _ => keeps_clearMark ..)
  | dbgrselWrite => exact .of_ctl e (fun _ => keeps_writeDbgrsel _)
  | dbgrdescRead => exact .of_ctl e (fun _ => keeps_readDbgrdesc)
  | pacingCounterRead n p => exact .of_ctl e (fun _ => (Keeps.modCh _ fun _ b => bounded_clearPacing b p).after (keeps_readOut _))
  | ctxstallRead => exact .of_ctl e (fun _ => (Keeps.modCtx ..).after (keeps_readOut _))
  | chceRead => exact .of_ctl e (fun _ => (keeps_clearCe _).after (keeps_readOut _))
  | trefcntRead => exact .of_ctl e (fun _ => (Keeps.modTenant ..).after (keeps_readOut _))
  | ucceRead => exact .of_ctl e (fun _ => keeps_clearUcce.after (keeps_readOut _))
  | fsstatRead => exact .of_ctl e (fun _ => keeps_clearFsstat.after (keeps_readOut _))
  | registerWrite => exact .of_ctl e (fun _ => keeps_writeReg ..)
  -- the test wrapper
  | wsBypass | wsPreload | wsClamp | wsSafe | jwIdcode | jwVendor | vendorUnlock | wrapperReset | boundaryRegisterUpdate => exact wrapDo_keeps e
  | jwMbist seg => exact .of_level e (keeps_wrapperTest _ seg false)
  | jwLbist seg => exact .of_level e (keeps_wrapperTest _ seg true)
  | wrapperBistDone => exact .of_hw e (keeps_bistDone ..)
  | wrapperCapture => cases e; exact keeps_capture _

/-! ### The invariant -/

/-- A write of a channel within its bounds leaves every channel of a table so. -/
theorem bounded_put {l : Tbl Channel} (hl : ∀ k, Bounded (Tbl.look Channel.reset l k)) (n : Nat) {h : Channel} (hh : Bounded h) (k : Nat) :
    Bounded (Tbl.look Channel.reset (Tbl.put Channel.reset l n h) k) := by
  by_cases e : k = n
  · rw [e, Tbl.look_put_same]
    exact hh
  · rw [Tbl.look_put_other _ _ _ _ _ e]
    exact hl k

theorem assertReset_chans (s : State) : s.assertReset.chans = (List.range 8).foldl (fun l n =>
    Tbl.put Channel.reset l n { Channel.reset with clkStop := (s.ch n).clkStop }) [] := rfl

/-- Channels written one after another. -/
theorem bounded_puts {f : Nat → Channel} (hf : ∀ n, Bounded (f n)) (ns : List Nat) :
    Tbl.wf Channel.reset (ns.foldl (fun l n => Tbl.put Channel.reset l n (f n)) []) = true
      ∧ ∀ k, Bounded (Tbl.look Channel.reset (ns.foldl (fun l n => Tbl.put Channel.reset l n (f n)) []) k) :=
  foldl_keeps (P := fun l : Tbl Channel => Tbl.wf Channel.reset l = true ∧ ∀ k, Bounded (Tbl.look Channel.reset l k))
    (fun _ n hl => ⟨Tbl.wf_put _ _ _ _ hl.1, bounded_put hl.2 n (hf n)⟩) ns [] ⟨rfl, fun _ => bounded_reset⟩

/-- Reset puts the invariant in place whatever the state was: a channel keeps nothing but whether its clock runs (R392). -/
theorem inv_assertReset (s : State) : Inv s.assertReset := by
  obtain ⟨hwf, hch⟩ := bounded_puts (f := fun n => { Channel.reset with clkStop := (s.ch n).clkStop }) (fun _ => bounded_reset) (List.range 8)
  rw [← assertReset_chans] at hwf hch
  exact ⟨hwf, rfl, rfl, rfl, rfl, rfl, hch, fun _ => Nat.zero_le _, Nat.zero_le _, Nat.zero_le _⟩

/-- Whatever commands wait. -/
theorem inv_withPending (hs : Inv s) (q : List Instr) : Inv { s with pending := q } := hs

theorem inv_exec {k : Instr} (hs : Inv s) (e : exec k s = .next t) : Inv t := by
  cases hk : setsLevel k with
  | false => exact (exec_keeps hk e).inv hs
  | true =>
    cases k with
    | resetAssert => cases e; exact inv_assertReset s
    | resetRelease =>
      rw [exec, execResetRelease, level] at e
      split at e
      · cases e
      · cases e; exact hs
    | wsExtest => cases e; exact hs
    | _ => cases hk

end

end Sys2Proof.Machine

namespace Sys2Proof
open Sys2Proof.Machine Sys2Proof.Safety

/-- Settles O60: a command keeps the invariant, and so does a tick. -/
theorem everyStepKeepsTheInvariant : Obligations.EveryStepKeepsTheInvariant := by
  intro s t hs e
  rw [Machine.step] at e
  split at e
  · cases e
    exact keeps_tick.inv hs
  · exact inv_exec (inv_withPending hs _) e

/-- Settles O59: every table is empty. -/
theorem resetHasTheInvariant : Obligations.ResetHasTheInvariant := by
  refine inv_of_tables ⟨?_, ?_, ?_, ?_, ?_⟩
  · exact ⟨rfl, rfl, rfl, rfl, rfl, rfl⟩
  · exact List.forall_mem_nil _
  · exact List.forall_mem_nil _
  · exact Nat.zero_le _
  · exact Nat.zero_le _

end Sys2Proof
end

section
/-! SUPPORT. The receivers of Headbox (R313, R353): a word that one accepts, and the first word of it that may be delivered (R265, R284). -/
namespace Sys2Proof.Machine
open Sys2Proof.Safety

/-- The first word of a receiver that may be delivered, behind words that may not. -/
theorem find_mayDeliver {s : State} {q pre post : List HbWord} {v : HbWord} (hq : q = pre ++ v :: post)
    (hpre : ∀ u ∈ pre, s.mayDeliver u = false) (hv : s.mayDeliver v = true) : q.find? s.mayDeliver = some v := by
  have hnone : pre.find? s.mayDeliver = none := List.find?_eq_none.mpr fun u hu => ne_true_of_eq_false (hpre u hu)
  rw [hq, List.find?_append, hnone, Option.none_or, List.find?_cons_of_pos hv]

/-- The state without the word that leaves a receiver. -/
def State.wordLeft (s : State) (rx : Nat) (v : HbWord) : State := s.setRxq rx ((s.rxq rx).filter fun u => u.ser != v.ser)

theorem wordLeft_refuse_frame (s : State) (rx m : Nat) (v : HbWord) :
    { (s.wordLeft rx v).refuse m with rx := s.rx, tenants := s.tenants } = s := by
  simp only [State.wordLeft, State.refuse, State.tev, State.modTenant, State.setTenant, State.setRxq]

section
variable {s : State} {rx : Nat} {pre post : List HbWord} {v : HbWord} (hq : s.rxq rx = pre ++ v :: post)
  (hpre : ∀ u ∈ pre, s.mayDeliver u = false) (hv : s.mayDeliver v = true)
include hq hpre hv

theorem headboxDeliver_eq_deliver : s.headboxDeliver rx = (s.wordLeft rx v).deliver v.ctx v.ten v.ser v.word := by
  rw [State.headboxDeliver, find_mayDeliver hq hpre hv]
  rfl

theorem headboxDeliver_of_refused (hr : Refused s v.ctx v.ten) :
    s.headboxDeliver rx = if s.meetsFault v.ctx v.ten v.word then s.wordLeft rx v else (s.wordLeft rx v).refuse v.ten := by
  have hleft : ((s.wordLeft rx v).ctx v.ctx).refuses v.ten = true := refuses_of_refused hr
  rw [headboxDeliver_eq_deliver hq hpre hv, State.deliver, if_pos hleft]
  rfl

/-- The channel takes the word in a cc of its own, in which R265 does not refuse it either. -/
theorem headboxDeliver_of_taken (hr : ¬ Refused s v.ctx v.ten)
    (hp : ¬ Refused ((s.wordLeft rx v).takeWord (s.ctx v.ctx).chan) v.ctx v.ten) :
    s.headboxDeliver rx = ((s.wordLeft rx v).takeWord (s.ctx v.ctx).chan).accept v.ctx v.ser v.word := by
  have hleft : ((s.wordLeft rx v).ctx v.ctx).refuses v.ten = false := refuses_of_not_refused hr
  rw [headboxDeliver_eq_deliver hq hpre hv, State.deliver, if_neg (ne_true_of_eq_false hleft)]
  exact if_neg (ne_true_of_eq_false (refuses_of_not_refused hp))

end

end Sys2Proof.Machine

namespace Sys2Proof
open Sys2Proof.Machine Sys2Proof.Safety

/-- Settles O29, by the two cases of R313. -/
theorem headboxAcceptsUpTo64Words : Obligations.HeadboxAcceptsUpTo64Words := by
  unfold Obligations.HeadboxAcceptsUpTo64Words
  intro s rx c m w hs
  rw [exec, execHeadboxWord, port_reached hs, State.headboxWord]
  exact ⟨fun h => by rw [if_pos h], fun h => by rw [if_neg (by omega)]⟩

/-- Settles O30, by the rules of a refused word and of a word that its channel takes. -/
theorem headboxDeliversTheFirstWordItMay : Obligations.HeadboxDeliversTheFirstWordItMay := by
  unfold Obligations.HeadboxDeliversTheFirstWordItMay
  intro s rx pre post v hs hq hpre hv left p
  have hexec : exec (.headboxDeliver rx) s = .next (s.headboxDeliver rx.val) := by rw [exec, execHeadboxDeliver, hw_inside hs]
  refine ⟨fun hr => ⟨fun hm => ?_, fun hm => ?_⟩, fun hr hp h0 => ?_, fun w hr hp hw => ?_⟩
  · rw [hexec, headboxDeliver_of_refused hq hpre hv hr, if_pos hm]
    rfl
  · rw [headboxDeliver_of_refused hq hpre hv hr, if_neg (ne_true_of_eq_false hm)] at hexec
    refine ⟨_, hexec, ?_, ?_, ?_, fun k hk => refuse_tenant_other _ hk, fun k hk => ?_, ?_⟩
    · exact State.setRxq_rxq_same ..
    · rw [refuse_tenant]; rfl
    · rw [refuse_tenant]; rfl
    · exact State.setRxq_rxq_other _ _ _ _ hk
    · exact wordLeft_refuse_frame ..
  · have hnop : v.word = nopWord := h0.trans (by decide)
    rw [hexec, headboxDeliver_of_taken hq hpre hv hr hp, hnop, accept_nop]
    rfl
  · rw [headboxDeliver_of_taken hq hpre hv hr hp, hw,
      accept_of_run _ _ _ (directCheck_runWord w) (opOf_runWord w)] at hexec
    exact ⟨_, hexec, rfl, rfl, rfl, by rw [newRun, ofWord_runWord]; rfl⟩

end Sys2Proof
end

section
/-! SUPPORT. The credits that a channel grants (R316, R341): each grant is what brings its context to 16 within the free entries of the
buffer, so that a context left below 16 leaves none for those behind it. -/
namespace Sys2Proof.Machine
open Sys2Proof.Safety

/-! ### Sums of tables in canonical form -/

theorem Tbl.look_of_le_bound {α : Type} [DecidableEq α] {d : α} {k b : Nat} (hk : k ≤ b) : ∀ {t : Tbl α},
    Tbl.wfFrom d (some b) t = true → Tbl.look d t k = d
  | [], _ => rfl
  | (a, x) :: r, h => by
    simp only [Tbl.wfFrom, Bool.and_eq_true, decide_eq_true_eq] at h
    have hak : b < a := h.1.1
    rw [Tbl.look, if_neg (by omega)]
    exact Tbl.look_of_le_bound (Nat.le_trans hk (Nat.le_of_lt hak)) h.2

theorem Tbl.sum_drop_of_wf {k : Nat} : ∀ {t : Tbl Nat} {lo : Option Nat}, Tbl.wfFrom 0 lo t = true →
    ((Tbl.drop k t).map fun e => e.2).sum + Tbl.look 0 t k = (t.map fun e => e.2).sum
  | [], _, _ => rfl
  | (a, x) :: r, lo, h => by
    simp only [Tbl.wfFrom, Bool.and_eq_true] at h
    have ih := Tbl.sum_drop_of_wf (k := k) h.2
    rw [Tbl.drop, Tbl.look]
    by_cases e : a = k
    · rw [if_pos e, if_pos e]
      have hnone := Tbl.look_of_le_bound (k := k) (Nat.le_of_eq e.symm) h.2
      simp only [List.map_cons, List.sum_cons]
      omega
    · rw [if_neg e, if_neg e]
      simp only [List.map_cons, List.sum_cons]
      omega

/-- A write changes the sum by what it changes its entry. -/
theorem Tbl.sum_put_of_wf {t : Tbl Nat} (h : Tbl.wf 0 t = true) (k v : Nat) :
    ((Tbl.put 0 t k v).map fun e => e.2).sum + Tbl.look 0 t k = (t.map fun e => e.2).sum + v := by
  have hdrop := Tbl.sum_drop_of_wf (k := k) h
  unfold Tbl.put
  split
  · omega
  · rw [Tbl.sum_ins]; omega

/-! ### One grant -/

/-- Entries of the buffer that a beat or a credit takes. -/
def Channel.entriesTaken (h : Channel) : Nat := h.couch.length + (h.credits.map fun e => e.2).sum

/-- The credits that a context is granted. -/
def Channel.dueCredits (h : Channel) (c : Nat) : Nat := min (16 - h.credit c) h.freeBuffer

theorem freeBuffer_eq (h : Channel) : h.freeBuffer = 32 - h.entriesTaken := by
  rw [Channel.freeBuffer, foldl_add, Nat.zero_add, Nat.sub_sub, Channel.entriesTaken]

section
variable (h : Channel) (c : Nat)

theorem grant_eq : h.grant c = if h.dueCredits c = 0 then h
    else { h.setCredit c (h.credit c + h.dueCredits c) with grants := h.grants ++ [(c, h.dueCredits c)] } := rfl

theorem grant_frame : { h.grant c with credits := h.credits, grants := h.grants } = h := by
  rw [grant_eq]
  split
  · rfl
  · rfl

theorem grant_credit_same : (h.grant c).credit c = h.credit c + h.dueCredits c := by
  rw [grant_eq]
  split
  · omega
  · exact Tbl.look_put_same ..

theorem grant_credit_other {d : Nat} (hd : d ≠ c) : (h.grant c).credit d = h.credit d := by
  rw [grant_eq]
  split
  · rfl
  · exact Tbl.look_put_other _ _ _ _ _ hd

theorem grant_grants : (h.grant c).grants = h.grants ++ (if h.dueCredits c = 0 then [] else [(c, h.dueCredits c)]) := by
  rw [grant_eq]
  split
  · rw [List.append_nil]
  · rfl

variable {h}

theorem wf_grant (hw : Tbl.wf 0 h.credits = true) : Tbl.wf 0 (h.grant c).credits = true := by
  rw [grant_eq]
  split
  · exact hw
  · exact Tbl.wf_put _ _ _ _ hw

theorem entriesTaken_grant (hw : Tbl.wf 0 h.credits = true) : (h.grant c).entriesTaken = h.entriesTaken + h.dueCredits c := by
  rw [grant_eq]
  split
  · omega
  · have hsum := Tbl.sum_put_of_wf hw c (h.credit c + h.dueCredits c)
    have hlook : Tbl.look 0 h.credits c = h.credit c := rfl
    change h.couch.length + ((Tbl.put 0 h.credits c (h.credit c + h.dueCredits c)).map fun e => e.2).sum = _
    rw [Channel.entriesTaken]
    omega

theorem grant_of_full (hfull : 32 ≤ h.entriesTaken) : h.grant c = h := by
  have hfree := freeBuffer_eq h
  rw [grant_eq, if_pos (by unfold Channel.dueCredits; omega)]

/-- A context that is left below 16 has taken the last free entries. -/
theorem full_of_credit_lt (hw : Tbl.wf 0 h.credits = true) (hlt : (h.grant c).credit c < 16) : 32 ≤ (h.grant c).entriesTaken := by
  have hfree := freeBuffer_eq h
  rw [grant_credit_same] at hlt
  rw [entriesTaken_grant c hw]
  unfold Channel.dueCredits at *
  omega

end

/-! ### The grants of a cc -/

/-- The contexts of a list are served in turn. -/
def Channel.grantAll (h : Channel) (cs : List Nat) : Channel := cs.foldl Channel.grant h

/-- What they are granted. -/
def Channel.newGrants (h : Channel) : List Nat → List (Nat × Nat)
  | [] => []
  | c :: cs => (if h.dueCredits c = 0 then [] else [(c, h.dueCredits c)]) ++ (h.grant c).newGrants cs

theorem grantAll_append (h : Channel) (cs ds : List Nat) : h.grantAll (cs ++ ds) = (h.grantAll cs).grantAll ds := List.foldl_append ..

theorem grantAll_frame (h : Channel) (cs : List Nat) : { h.grantAll cs with credits := h.credits, grants := h.grants } = h :=
  foldl_keeps (P := fun g : Channel => { g with credits := h.credits, grants := h.grants } = h)
    (fun g c hg => (congrArg (fun k : Channel => { k with credits := h.credits, grants := h.grants }) (grant_frame g c)).trans hg) cs h rfl

theorem wf_grantAll {h : Channel} (hw : Tbl.wf 0 h.credits = true) (cs : List Nat) : Tbl.wf 0 (h.grantAll cs).credits = true :=
  foldl_keeps (P := fun g : Channel => Tbl.wf 0 g.credits = true) (fun _ c hg => wf_grant c hg) cs h hw

theorem grantAll_of_full {h : Channel} (hfull : 32 ≤ h.entriesTaken) (cs : List Nat) : h.grantAll cs = h :=
  foldl_keeps (P := fun g : Channel => g = h) (fun g c hg => by rw [hg, grant_of_full c hfull]) cs h rfl

theorem grantAll_grants (cs : List Nat) : ∀ h : Channel, (h.grantAll cs).grants = h.grants ++ h.newGrants cs := by
  induction cs with
  | nil => exact fun h => (List.append_nil _).symm
  | cons c cs ih =>
    intro h
    rw [Channel.newGrants, ← List.append_assoc, ← grant_grants]
    exact ih (h.grant c)

theorem newGrants_bound (cs : List Nat) : ∀ h : Channel, ∀ g ∈ h.newGrants cs, 1 ≤ g.2 ∧ g.2 ≤ 16 ∧ g.1 ∈ cs := by
  induction cs with
  | nil => exact fun h g hg => nomatch hg
  | cons c cs ih =>
    intro h g hg
    rcases List.mem_append.mp hg with hg | hg
    · split at hg
      · cases hg
      · rename_i hpos
        cases List.mem_singleton.mp hg
        have hle : h.dueCredits c ≤ 16 - h.credit c := Nat.min_le_left ..
        exact ⟨Nat.pos_of_ne_zero hpos, by omega, List.mem_cons_self⟩
    · obtain ⟨hlo, hhi, hc⟩ := ih (h.grant c) g hg
      exact ⟨hlo, hhi, List.mem_cons_of_mem _ hc⟩

theorem grantAll_credit (d : Nat) (cs : List Nat) : ∀ h : Channel,
    (h.grantAll cs).credit d = h.credit d + (((h.newGrants cs).filter fun g => g.1 == d).map fun g => g.2).sum := by
  induction cs with
  | nil => exact fun h => rfl
  | cons c cs ih =>
    intro h
    have hone : (h.grant c).credit d
        = h.credit d + (((if h.dueCredits c = 0 then [] else [(c, h.dueCredits c)]).filter fun g => g.1 == d).map fun g => g.2).sum := by
      by_cases hd : d = c
      · subst hd
        rw [grant_credit_same]
        split
        · simp [*]
        · simp
      · rw [grant_credit_other h c hd]
        split
        · simp
        · simp [Ne.symm hd]
    rw [Channel.newGrants, List.filter_append, List.map_append, List.sum_append, ← Nat.add_assoc, ← hone]
    exact ih (h.grant c)

theorem le_grantAll_credit (h : Channel) (cs : List Nat) (d : Nat) : h.credit d ≤ (h.grantAll cs).credit d := by
  rw [grantAll_credit]
  exact Nat.le_add_right ..

theorem grantAll_credit_other {d : Nat} (cs : List Nat) (hd : d ∉ cs) (h : Channel) : (h.grantAll cs).credit d = h.credit d := by
  rw [grantAll_credit, List.filter_eq_nil_iff.mpr fun g hg he => hd (by
    rw [← beq_iff_eq.mp he]
    exact (newGrants_bound cs h g hg).2.2)]
  rfl

theorem grantAll_credit_le (cs : List Nat) (h : Channel) (d : Nat) : (h.grantAll cs).credit d ≤ max 16 (h.credit d) := by
  refine foldl_keeps (P := fun g : Channel => g.credit d ≤ max 16 (h.credit d)) (fun g c hg => ?_) cs h (Nat.le_max_right ..)
  by_cases hd : d = c
  · subst hd
    rw [grant_credit_same]
    have hle : g.dueCredits d ≤ 16 - g.credit d := Nat.min_le_left ..
    omega
  · rw [grant_credit_other g c hd]
    exact hg

theorem entriesTaken_grantAll_le {h : Channel} (hw : Tbl.wf 0 h.credits = true) (hb : h.entriesTaken ≤ 32) (cs : List Nat) :
    (h.grantAll cs).entriesTaken ≤ 32 := by
  refine (foldl_keeps (P := fun g : Channel => Tbl.wf 0 g.credits = true ∧ g.entriesTaken ≤ 32) (fun g c hg => ?_) cs h ⟨hw, hb⟩).2
  refine ⟨wf_grant c hg.1, ?_⟩
  have hle : g.dueCredits c ≤ g.freeBuffer := Nat.min_le_right ..
  have hfree := freeBuffer_eq g
  have htaken := hg.2
  rw [entriesTaken_grant c hg.1]
  omega

/-- Once a context is left below 16 the buffer is full, and those behind it receive nothing. -/
theorem grantAll_full {h : Channel} (hw : Tbl.wf 0 h.credits = true) {pre post : List Nat} {c : Nat}
    (hlt : (h.grantAll (pre ++ c :: post)).credit c < 16) :
    32 ≤ (h.grantAll (pre ++ c :: post)).entriesTaken ∧ h.grantAll (pre ++ c :: post) = (h.grantAll pre).grant c := by
  have hsplit : h.grantAll (pre ++ c :: post) = ((h.grantAll pre).grant c).grantAll post := grantAll_append h pre (c :: post)
  rw [hsplit] at hlt ⊢
  have hfull := full_of_credit_lt c (wf_grantAll hw pre) (Nat.lt_of_le_of_lt (le_grantAll_credit _ post c) hlt)
  rw [grantAll_of_full hfull post]
  exact ⟨hfull, rfl⟩

theorem onlyCh_setCh (s : State) (n : Nat) (g : Channel) : OnlyCh n s (s.setCh n g) := by
  refine ⟨?_, fun m hm => State.setCh_ch_other _ _ _ _ hm⟩
  unfold State.setCh
  cases s
  rfl

theorem frozen_eq (h : Channel) : h.frozen = (decide (h.st ≠ .off) && h.clkStop) := by
  unfold Channel.frozen
  cases h.st with
  | off => rfl
  | _ => rfl

theorem creditGrant_of_serves {s : State} {n : Nat} (h : (s.ch n).serves = true) :
    s.creditGrant n = s.setCh n ((s.ch n).grantAll ((s.served n).map fun e => e.2)) := by
  rw [State.creditGrant, if_pos h, State.modCh, Channel.grantAll, List.foldl_map]

end Sys2Proof.Machine

namespace Sys2Proof
open Sys2Proof.Machine Sys2Proof.Safety

/-- Settles O39, by induction on the contexts that are served. -/
theorem creditsStayWithinTheBuffer : Obligations.CreditsStayWithinTheBuffer := by
  unfold Obligations.CreditsStayWithinTheBuffer
  intro s n
  have honly := onlyCh_setCh s n.val
  refine ⟨fun hs hstop => ?_, fun hs hserve hw => ?_, fun hs => ⟨fun hhold => ?_, fun hhold => ?_⟩⟩
  · rw [exec, execCreditGrant, hw_inside hs, State.creditGrant, hstop]
    rfl
  · refine ⟨_, (s.ch n.val).newGrants ((s.served n.val).map fun e => e.2),
      by rw [exec, execCreditGrant, hw_inside hs, creditGrant_of_serves hserve], ?_⟩
    rw [State.setCh_ch_same]
    have hframe := grantAll_frame (s.ch n.val) ((s.served n.val).map fun e => e.2)
    have hgrants := grantAll_grants ((s.served n.val).map fun e => e.2) (s.ch n.val)
    have hcredit := fun c => grantAll_credit c ((s.served n.val).map fun e => e.2) (s.ch n.val)
    have hbound := newGrants_bound ((s.served n.val).map fun e => e.2) (s.ch n.val)
    refine ⟨hgrants, hbound, hcredit, fun e _ => grantAll_credit_le _ _ _, fun hb => ?_, hframe, honly _⟩
    have hle := entriesTaken_grantAll_le hw hb ((s.served n.val).map fun e => e.2)
    refine ⟨hle, fun pre e post hserved hlt => ?_⟩
    rw [hserved, List.map_append, List.map_cons] at hle hlt ⊢
    obtain ⟨hfull, hlast⟩ := grantAll_full hw hlt
    refine ⟨Nat.le_antisymm hle hfull, fun q _ hpre he => ?_⟩
    rw [hlast, grant_credit_other _ _ he, grantAll_credit_other _ hpre]
  · rw [exec, execCreditGrantAccept, port_reached hs, State.modCh, Channel.nextGrant, if_neg (by rw [hhold]; exact Bool.false_ne_true),
      frozen_eq]
  · refine ⟨_, (by rw [exec, execCreditGrantAccept, port_reached hs, State.modCh]), ?_, honly _⟩
    rw [State.setCh_ch_same, Channel.nextGrant, if_pos hhold]

end Sys2Proof
end

section
/-! SUPPORT. What the conditions of R318 change while they judge a beat: Loft lines and accesses that wait, and the records that have been
read; of the run, the copies that it takes and fills. -/
namespace Sys2Proof.Machine
open Sys2Proof.Safety

/-! ### The state -/

/-- What the judging of a beat of a context changes: Loft lines, what waits in slices, and the records that the context has read. -/
structure Judged (c : Nat) (s t : State) : Prop where
  same : { t.ctx c with rows := (s.ctx c).rows } = s.ctx c
  others : ∀ d, d ≠ c → t.ctx d = s.ctx d
  ch : ∀ n, { t.ch n with loft := (s.ch n).loft } = s.ch n
  tenants : t.tenants = s.tenants

theorem Judged.refl (c : Nat) (s : State) : Judged c s s := ⟨rfl, fun _ _ => rfl, fun _ => rfl, rfl⟩

/-- The last of two operations first, so that it says what the first one is. -/
theorem Judged.after {c : Nat} {s t u : State} (k : Judged c t u) (h : Judged c s t) : Judged c s u where
  same := (congrArg (fun x : Ctx => { x with rows := (s.ctx c).rows }) k.same).trans h.same
  others := fun d hd => (k.others d hd).trans (h.others d hd)
  ch := fun n => (congrArg (fun g : Channel => { g with loft := (s.ch n).loft }) (k.ch n)).trans (h.ch n)
  tenants := k.tenants.trans h.tenants

/-- Nothing of the contexts and the channels differs. -/
theorem Judged.of_eq {c : Nat} {s t : State} (hctx : ∀ d, t.ctx d = s.ctx d) (hch : ∀ n, t.ch n = s.ch n) (hten : t.tenants = s.tenants) :
    Judged c s t :=
  ⟨by rw [hctx], fun d _ => hctx d, fun n => by rw [hch], hten⟩

theorem judged_setCh {c n : Nat} {s : State} {g : Channel} (hg : { g with loft := (s.ch n).loft } = s.ch n) : Judged c s (s.setCh n g) where
  same := by rw [State.setCh_ctx]
  others := fun _ _ => rfl
  ch := fun m => by
    by_cases e : m = n
    · subst e
      rw [State.setCh_ch_same]
      exact hg
    · rw [State.setCh_ch_other _ _ _ _ e]
  tenants := rfl

theorem judged_modLine (c n i : Nat) (s : State) (f : LoftLine → LoftLine) : Judged c s (s.modCh n fun h => h.modLine i f) := judged_setCh rfl

theorem judged_queueFelt (c sl : Nat) (s : State) (a : FeltAcc) : Judged c s (s.queueFelt sl a) :=
  .of_eq (fun _ => rfl) (fun _ => rfl) rfl

theorem judged_queueHome (c : Nat) (s : State) (l : LoftLine) : Judged c s (s.queueHome c l) :=
  (judged_queueFelt ..).after (judged_modLine ..)

theorem judged_queueFetch (c line : Nat) (s : State) : Judged c s (s.queueFetch c line) := judged_queueFelt ..

theorem judged_rows (c : Nat) (s : State) (f : Ctx → List RowRec) : Judged c s (s.modCtx c fun x => { x with rows := f x }) where
  same := by rw [State.modCtx, State.setCtx_ctx_same]
  others := fun d hd => State.setCtx_ctx_other _ _ _ _ hd
  ch := fun n => by rw [State.modCtx, State.setCtx_ch]
  tenants := rfl

theorem needLine_frame {h g : Channel} {c granted i : Nat} (hg : h.needLine c granted = .free g i) : { g with loft := h.loft } = h := by
  unfold Channel.needLine at hg
  dsimp only at hg
  split at hg
  · cases hg; rfl
  · split at hg
    · cases hg; rfl
    · split at hg
      · cases hg
      · split at hg
        · cases hg
        · cases hg

theorem judged_readRecord (c ser i : Nat) (s : State) : Judged c s (s.readRecord c ser i).2 := by
  unfold State.readRecord
  dsimp only
  split
  · exact .refl ..
  · split
    · exact .refl ..
    · split
      · split
        · exact judged_modLine ..
        · split
          · exact .refl ..
          · exact (judged_queueFetch ..).after (judged_modLine ..)
      · split
        · rename_i hg
          have hframe := needLine_frame hg
          exact (judged_queueFetch ..).after (judged_setCh hframe)
        · exact judged_queueHome ..
        · exact .refl ..
        · exact .refl ..

theorem judged_readRecords (c ser : Nat) (is : List Nat) (s : State) : Judged c s (s.readRecords c ser is).1 := by
  refine foldl_keeps (P := fun acc : State × Option Cause => Judged c s acc.1) (fun acc i h => ?_) is (s, none) (.refl ..)
  have hread := judged_readRecord c ser i acc.1
  dsimp only
  split
  · exact h
  · split
    · exact h
    · split
      · exact h
      · split
        · exact h
        · split
          · rename_i v u hu
            rw [hu] at hread
            exact (judged_rows c u fun x => x.rows ++ [⟨i, ser, v⟩]).after (hread.after h)
          · rename_i hu
            rw [hu] at hread
            exact hread.after h
          · rename_i hu
            rw [hu] at hread
            exact hread.after h

theorem judged_lineWait (c : Nat) (r : Run) (ks : List Nat) (s : State) : Judged c s (s.lineWait c r ks).1 := by
  unfold State.lineWait
  extract_lets x h stash fresh own total spare mine
  split
  · exact .refl c s
  · split
    · exact .refl c s
    · split
      · exact judged_queueHome c s _
      · exact .refl c s

/-- A condition that keeps a beat back, and what the later ones leave. -/
theorem judged_condition {c : Nat} {p : Prop} [Decidable p] {s t : State} {v : Verdict} {o : State × Verdict} (hs : Judged c s t)
    (h : Judged c s o.1) : Judged c s (if p then (t, v) else o).1 := by
  split
  · exact hs
  · exact h

theorem judged_verdict (s : State) (n c : Nat) (r : Run) (b : CouchBeat) (t : Nat) : Judged c s (s.verdict n c r b t).1 := by
  unfold State.verdict
  extract_lets x cells cs ks v
  clear_value v
  refine judged_condition (.refl ..) ?_
  cases v with
  | stall k => exact .refl ..
  | operand w f => exact .refl ..
  | go r' =>
    refine judged_condition (.refl ..) ?_
    extract_lets needs
    have hread := judged_readRecords c r'.ser needs s
    split
    · exact .refl ..
    · split
      · rename_i hu
        rw [hu] at hread
        exact hread
      · rename_i u hu
        rw [hu] at hread
        have hline := (judged_lineWait c r' ks u).after hread
        exact judged_condition hline (judged_condition hline (judged_condition hline (judged_condition hline (judged_condition hline
          (judged_condition hline (judged_condition hline (judged_condition hline hline)))))))

/-! ### The run -/

/-- Of a run that may go on nothing but the copies that it takes and fills differs. -/
structure Run.Picks (q r : Run) : Prop where
  same : { r with takes := q.takes, fills := q.fills } = q

theorem Run.Picks.after {q r v : Run} (k : r.Picks v) (h : q.Picks r) : q.Picks v :=
  ⟨(congrArg (fun p : Run => { p with takes := q.takes, fills := q.fills }) k.same).trans h.same⟩

/-- A verdict that lets nothing go but a run that picks copies. -/
structure Verdict.GoesAs (q : Run) (v : Verdict) : Prop where
  go : ∀ r, v = .go r → q.Picks r

theorem goesAs_stall (q : Run) (k : Cause) : Verdict.GoesAs q (.stall k) := ⟨fun _ e => Verdict.noConfusion e⟩

theorem goesAs_operand (q : Run) (w f : Nat) : Verdict.GoesAs q (.operand w f) := ⟨fun _ e => Verdict.noConfusion e⟩

theorem goesAs_go {q r : Run} (h : q.Picks r) : Verdict.GoesAs q (.go r) := ⟨fun _ e => by cases e; exact h⟩

theorem Verdict.GoesAs.bind {q : Run} {v : Verdict} {f : Run → Verdict} (hv : v.GoesAs q) (hf : ∀ r, (f r).GoesAs r) : (v.bind f).GoesAs q := by
  cases v with
  | stall k => exact goesAs_stall q k
  | operand w g => exact goesAs_operand q w g
  | go r => exact ⟨fun u hu => ((hf r).go u hu).after (hv.go r rfl)⟩

theorem goesAs_takeCopy (x : Ctx) (q : SlotRead) (r : Run) : (x.takeCopy r q).GoesAs r := by
  unfold Ctx.takeCopy
  dsimp only
  split
  · exact goesAs_go ⟨rfl⟩
  · split
    · exact goesAs_operand ..
    · split
      · split
        · exact goesAs_go ⟨rfl⟩
        · split
          · exact goesAs_stall ..
          · exact goesAs_operand ..
      · split
        · exact goesAs_stall ..
        · split
          · exact goesAs_go ⟨rfl⟩
          · exact goesAs_operand ..

theorem goesAs_fillCopy (x : Ctx) (r : Run) : (x.fillCopy r).GoesAs r := by
  unfold Ctx.fillCopy
  dsimp only
  split
  · exact goesAs_go ⟨rfl⟩
  · split
    · exact goesAs_go ⟨rfl⟩
    · split
      · exact goesAs_operand ..
      · split
        · split
          · exact goesAs_go ⟨rfl⟩
          · split
            · exact goesAs_stall ..
            · exact goesAs_operand ..
        · split
          · exact goesAs_stall ..
          · exact goesAs_go ⟨rfl⟩

theorem goesAs_statVerdict (s : State) (c : Nat) (ks : List Nat) (r : Run) : (s.statVerdict c r ks).GoesAs r := by
  unfold State.statVerdict
  dsimp only
  split
  · rename_i v hv
    obtain ⟨q, -, hq⟩ := List.mem_flatMap.mp (List.mem_of_find?_eq_some hv)
    obtain ⟨k, -, hk⟩ := List.mem_map.mp hq
    split at hk
    · cases hk
      exact goesAs_stall ..
    · split at hk
      · cases hk
      · cases hk
        exact goesAs_operand ..
  · exact goesAs_go ⟨rfl⟩

theorem goesAs_statWrites (x : Ctx) (ks : List Nat) (r : Run) : (x.statWrites r ks).GoesAs r := by
  unfold Ctx.statWrites
  dsimp only
  split
  · split
    · exact goesAs_stall ..
    · exact goesAs_go ⟨rfl⟩
  · exact goesAs_go ⟨rfl⟩

/-- A condition that keeps a beat back, and what the later ones answer. -/
theorem goesAs_condition {p : Prop} [Decidable p] {q : Run} {s : State} {k : Cause} {o : State × Verdict} (h : o.2.GoesAs q) :
    (if p then (s, Verdict.stall k) else o).2.GoesAs q := by
  split
  · exact goesAs_stall ..
  · exact h

theorem goesAs_verdict (s : State) (n c : Nat) (r : Run) (b : CouchBeat) (t : Nat) : (s.verdict n c r b t).2.GoesAs r := by
  unfold State.verdict
  extract_lets x cells cs ks v
  have hv : v.GoesAs r := by
    refine Verdict.GoesAs.bind (Verdict.GoesAs.bind (Verdict.GoesAs.bind ?_ (goesAs_fillCopy _)) (goesAs_statVerdict s c ks))
      (goesAs_statWrites _ ks)
    exact foldl_keeps (P := Verdict.GoesAs r) (fun w q h => h.bind (goesAs_takeCopy _ q)) _ _ (goesAs_go ⟨rfl⟩)
  clear_value v
  refine goesAs_condition ?_
  cases v with
  | stall k => exact goesAs_stall ..
  | operand w f => exact goesAs_operand ..
  | go r' =>
    have hr := goesAs_go (hv.go r' rfl)
    refine goesAs_condition ?_
    extract_lets needs
    split
    · exact goesAs_operand ..
    · split
      · exact goesAs_stall ..
      · iterate 8 refine goesAs_condition ?_
        exact hr

end Sys2Proof.Machine
end

section
/-! SUPPORT. Couch where the beat of one context may be presented (R318, R321): what it comes to by the verdict on that beat. -/
namespace Sys2Proof.Machine
open Sys2Proof.Safety

/-! ### The point of Couch and what it notes -/

/-- What Couch came to in the cc is noted. -/
def State.shown (s : State) (n : Nat) (presented : Bool) (ks : List (Nat × Cause)) : State :=
  s.modCh n fun h => { h with polled := some ⟨presented, ks⟩ }

section
variable (s : State) (n : Nat) (presented : Bool) (ks : List (Nat × Cause))

theorem shown_ctx (c : Nat) : (s.shown n presented ks).ctx c = s.ctx c := rfl

theorem shown_tenants : (s.shown n presented ks).tenants = s.tenants := rfl

theorem shown_ch : (s.shown n presented ks).ch n = { s.ch n with polled := some ⟨presented, ks⟩ } := State.setCh_ch_same ..

theorem shown_couch : ((s.shown n presented ks).ch n).couch = (s.ch n).couch := by rw [shown_ch]
theorem shown_cyc : ((s.shown n presented ks).ch n).cyc = (s.ch n).cyc := by rw [shown_ch]
theorem shown_polled : ((s.shown n presented ks).ch n).polled = some ⟨presented, ks⟩ := by rw [shown_ch]
theorem shown_due : ((s.shown n presented ks).ch n).due = (s.ch n).due := by rw [shown_ch]
theorem shown_egress : ((s.shown n presented ks).ch n).egress = (s.ch n).egress := by rw [shown_ch]

theorem shown_keepsAhead : KeepsAhead s (s.shown n presented ks) := .modCh fun _ h => h

end

theorem settleDue_shown {s : State} {n : Nat} (hd : NothingDue (s.ch n) (s.ch n).cyc) (presented : Bool) (ks : List (Nat × Cause)) :
    (s.shown n presented ks).settleDue n = s.shown n presented ks :=
  settleDue_of_nothingDue ((shown_keepsAhead s n presented ks).nothingDue n hd)

/-- COUCH_PRESENT is Couch at its point. -/
theorem exec_couchPresent {s : State} {n : ChanId} (hs : Inside s) :
    exec (.couchPresent n) s = .next (if (s.ch n.val).serves then (couchPoint s n.val).couch n.val else s) := by
  rw [exec, execCouchPresent, hw_inside hs, State.couchPresent]
  cases (s.ch n.val).serves with
  | false => rfl
  | true => rfl

theorem couch_of_none {p : State} {n : Nat} (h : ∀ q ∈ p.cands n, (p.ch n).cyc < q.ready) : p.couch n = p := by
  have hnone : (p.cands n).filter (fun q => decide (q.ready ≤ (p.ch n).cyc)) = [] := List.filter_eq_nil_iff.mpr fun q hq => by
    have := h q hq
    simp only [decide_eq_true_eq]
    omega
  rw [State.couch, hnone]

section
variable {p p' : State} {n : Nat} {q : Cand}
  (hone : (p.cands n).filter (fun q => decide (q.ready ≤ (p.ch n).cyc)) = [q])
include hone

theorem couch_stall {k : Cause} (hv : p.verdict n q.ctx q.run q.beat.beat (p.ch n).cyc = (p', .stall k)) :
    p.couch n = (p'.shown n false [(q.ctx, k)]).settleDue n := by
  simp only [State.couch, hone, List.foldl_cons, List.foldl_nil, Poll.step, hv]
  rfl

theorem couch_operand {w f : Nat} (hv : p.verdict n q.ctx q.run q.beat.beat (p.ch n).cyc = (p', .operand w f)) :
    p.couch n = ((p'.operand q.ctx q.run w f).shown n false []).settleDue n := by
  simp only [State.couch, hone, List.foldl_cons, List.foldl_nil, Poll.step, hv]
  rfl

variable {r : Run} (hv : p.verdict n q.ctx q.run q.beat.beat (p.ch n).cyc = (p', .go r))
include hv

theorem couch_go (hsot : q.beat.beat.sot = (decide (r.beats = 0) && decide (r.records = 0))) :
    p.couch n = (((p'.modCh n fun h => h.takeBeat q.beat.ser).presentBeat n q.ctx r q.beat.beat (p.ch n).cyc).shown n true []).settleDue n := by
  have hno : (q.beat.beat.sot != (decide (r.beats = 0) && decide (r.records = 0))) = false := by simpa using hsot
  simp only [State.couch, hone, List.foldl_cons, List.foldl_nil, Poll.step, hv, hno, Bool.false_eq_true, if_false]
  rfl

theorem couch_sequence (hsot : q.beat.beat.sot ≠ (decide (r.beats = 0) && decide (r.records = 0))) :
    p.couch n = (((p'.modCh n fun h => h.takeBeat q.beat.ser).seqError q.ctx).shown n false []).settleDue n := by
  have hno : (q.beat.beat.sot != (decide (r.beats = 0) && decide (r.records = 0))) = true := by simpa using hsot
  simp only [State.couch, hone, List.foldl_cons, List.foldl_nil, Poll.step, hv, hno, if_true]
  rfl

end

/-! ### What the judging leaves -/

section
variable {c : Nat} {s t : State} (h : Judged c s t)
include h

theorem Judged.runs : (t.ctx c).runs = (s.ctx c).runs := (congrArg Ctx.runs h.same :)
theorem Judged.st : (t.ctx c).st = (s.ctx c).st := (congrArg Ctx.st h.same :)
theorem Judged.chan : (t.ctx c).chan = (s.ctx c).chan := (congrArg Ctx.chan h.same :)
theorem Judged.due (n : Nat) : (t.ch n).due = (s.ch n).due := (congrArg Channel.due (h.ch n) :)
theorem Judged.cyc (n : Nat) : (t.ch n).cyc = (s.ch n).cyc := (congrArg Channel.cyc (h.ch n) :)
theorem Judged.couch (n : Nat) : (t.ch n).couch = (s.ch n).couch := (congrArg Channel.couch (h.ch n) :)

theorem Judged.nothingDue {n cc : Nat} (hd : NothingDue (s.ch n) cc) : NothingDue (t.ch n) cc := by
  rw [NothingDue, h.due]
  exact hd

theorem Judged.keepsAhead : KeepsAhead s t := ⟨fun m hd => by
  rw [h.cyc]
  exact h.nothingDue hd⟩

/-- A fault after the judging of a beat. -/
theorem Judged.faultTaken {code : Nat} {iflt : BitVec 64} {u : State} (hf : FaultTaken c code iflt t u) : FaultTaken c code iflt s u :=
  faultTaken_congr (congrArg Ctx.faultcode h.same :) (congrArg Ctx.iflt h.same :) (congrArg Ctx.ten h.same :) h.tenants hf

end

/-! ### A beat that faults its context -/

theorem seqError_taken {s : State} {c : Nat} (h : (s.ctx c).st = .bound ∨ (s.ctx c).st = .running) :
    FaultTaken c 0x03 0 s (s.seqError c) ∧ ((s.seqError c).ctx c).flags = (s.ctx c).flags ||| flSequence := by
  have hctx := raise_ctx_same s c flSequence
  have htaken := fault_taken fcSequence 0 (s := s.raise c flSequence) (c := c) (by rw [hctx]; exact h)
  have hten : (s.raise c flSequence).tenants = s.tenants := rfl
  refine ⟨faultTaken_congr (q := s.raise c flSequence) ?_ ?_ ?_ hten htaken, ?_⟩
  · rw [hctx]
  · rw [hctx]
  · rw [hctx]
  · rw [State.seqError, fault_flags, hctx]
    rfl

theorem keepsAhead_seqError {s : State} (c : Nat) : KeepsAhead s (s.seqError c) :=
  (keepsAhead_fault ..).after (KeepsAhead.after (.modCh fun _ h => h) .modCtx)

/-! ### Stalls of a cc -/

/-- A context that is kept back has one stall. -/
theorem Merged.one {ks l : List (Nat × Cause)} (h : Merged ks l) {c : Nat} {k : Cause} (hk : (c, k) ∈ ks) :
    ∃ j, l.filter (fun e => e.1 == c) = [(c, j)] := by
  obtain ⟨f, hf, hfc, -⟩ := h.first _ hk
  obtain ⟨d, j⟩ := f
  obtain rfl : d = c := hfc
  have hown : Merged l l := ⟨h.nodup, fun _ he => he, fun e he => ⟨e, he, rfl, Nat.le_refl _⟩⟩
  refine ⟨j, hown.of_least hf fun e he hec hne => absurd ?_ hne⟩
  rw [List.inj_on_of_nodup_map h.nodup he hf hec]

theorem ccEnded_dPstall (h : Channel) (j : Nat) : (h.ccEnded j).dPstall = h.dPstall := rfl

/-- The cc in which Couch kept one beat back ends: one stall of its context, and one of the channel (R321). -/
theorem endCc_of_kept {s : State} {n c : Nat} {k : Cause} (hs : (s.ch n).serves = true) (hp : (s.ch n).polled = some ⟨false, [(c, k)]⟩) :
    ((s.endCc n 1).ctx c).stallPace = min ((s.ctx c).stallPace + 1) 0xFFFFFFFF
      ∧ ((s.endCc n 1).ch n).dPstall = (s.ch n).dPstall + 1 := by
  obtain ⟨j, hj⟩ : ∃ j, (s.ccStalls n).filter (fun e => e.1 == c) = [(c, j)] := by
    rw [State.ccStalls, hp]
    exact (merged_mergeStalls _).one (List.mem_append_right _ (List.mem_singleton_self _))
  have hstalled : s.stalled n 1 = s.stalls n false (s.ccStarved n) (s.ccStalls n) 1 := by
    rw [State.stalled, if_pos hs, hp]
  constructor
  · rw [(endCc_stalls s n c 1).1, hstalled, State.stalls, State.modCh, State.setCh_ctx, foldl_stall_ctx, hj]
    rfl
  · have hne : (s.ccStalls n).isEmpty = false := by
      cases he : s.ccStalls n with
      | nil => rw [he] at hj; cases hj
      | cons e l => rfl
    rw [endCc_ch_same, ccEnded_dPstall, hstalled, stalls_ch, hne]
    rfl

end Sys2Proof.Machine
end

section
/-! SUPPORT. The presentation of a beat (R318, R185, R309, R330) by what it makes of its context, of its run and of its channel. -/
namespace Sys2Proof.Machine
open Sys2Proof.Safety

/-! ### Cycles that a beat reserves -/

/-- Of a channel nothing but tree cycles and the sorter differs. -/
structure Channel.Reserves (h g : Channel) : Prop where
  same : { g with treeRes := h.treeRes, sorter := h.sorter } = h

theorem Channel.Reserves.refl (h : Channel) : h.Reserves h := ⟨rfl⟩

/-- The last of two operations first, so that it says what the first one is. -/
theorem Channel.Reserves.after {h g k : Channel} (e : g.Reserves k) (d : h.Reserves g) : h.Reserves k :=
  ⟨(congrArg (fun f : Channel => { f with treeRes := h.treeRes, sorter := h.sorter }) e.same).trans d.same⟩

theorem reserves_addTree (h : Channel) (qs : List TreeSlot) : h.Reserves (h.addTree qs) := ⟨rfl⟩

theorem reserves_offer (h : Channel) (c key run k : Nat) (f : Fmt) (xs : List (Nat × Nat)) : h.Reserves (h.offer c key run k f xs) := ⟨rfl⟩

theorem reserves_offerAll (e : Env) (c : Nat) (h : Channel) (fl : Flow) : h.Reserves (offerAll e c h fl) :=
  foldl_keeps (P := h.Reserves) (fun g _ k => (reserves_offer g _ _ _ _ _ _).after k) _ h (.refl h)

theorem reserves_treePlan (l : List (List (Nat × Nat))) : ∀ {h g : Channel} {c run u : Nat} {us : List Nat},
    h.treePlan c run u l = some (g, us) → h.Reserves g := by
  induction l with
  | nil =>
    intro h g c run u us e
    cases e
    exact .refl h
  | cons a l ih =>
    intro h g c run u us e
    rw [Channel.treePlan] at e
    dsimp only at e
    split at e
    · cases e
    · split at e
      · rename_i hrest
        cases e
        exact (ih hrest).after (reserves_addTree h _)
      · cases e

theorem reserves_treeTakes {h g : Channel} {x : Ctx} {c t : Nat} {r : Run} {eot : Bool} {us : List Nat}
    (e : h.treeTakes x c r eot t = some (g, us)) : h.Reserves g := by
  unfold Channel.treeTakes at e
  split at e
  · cases e
  · rename_i k vs hplan
    have hk := reserves_treePlan _ hplan
    generalize (if eot = true then r.turnSlots x c t else []) = qs at e
    dsimp only at e
    split at e
    · cases e
      exact hk
    · split at e
      · cases e
        exact (reserves_addTree k qs).after hk
      · cases e

theorem reserves_laneWork (e : Env) (c : Nat) (h : Channel) (b : CouchBeat) (half t u : Nat) (cs : List Cell) :
    h.Reserves (laneWork e c h b half t u cs).h := by
  unfold laneWork
  dsimp only
  split
  · exact .refl h
  · exact .refl h
  · exact .refl h
  · exact reserves_offerAll e c h _
  · split
    all_goals exact .refl h

theorem reserves_laneWorks (e : Env) (c : Nat) (b : CouchBeat) (l : List (Nat × Nat × Nat × List Cell)) :
    ∀ k : Work, k.h.Reserves (laneWorks e c b l k).1.h := by
  induction l with
  | nil => exact fun k => .refl k.h
  | cons a l ih =>
    intro k
    rw [laneWorks]
    exact (ih _).after (reserves_laneWork _ c k.h b _ _ _ _)

theorem reserves_beatWork (s : State) (n c : Nat) (r : Run) (b : CouchBeat) (t : Nat) : (s.ch n).Reserves (s.beatWork n c r b t).k.h := by
  unfold State.beatWork
  dsimp only
  have htree : (s.ch n).Reserves (((s.ch n).treeTakes (s.ctx c) c (r.recall (s.ctx c) (s.ch n)) b.eot t).getD (s.ch n, [])).1 := by
    cases e : (s.ch n).treeTakes (s.ctx c) c (r.recall (s.ctx c) (s.ch n)) b.eot t with
    | none => exact .refl _
    | some p => exact reserves_treeTakes (g := p.1) (us := p.2) e
  split
  · rw [importWork_h]
    exact htree
  · exact (reserves_laneWorks _ c b _ _).after htree

/-! ### The run of the beat -/

theorem recall_frame (r : Run) (x : Ctx) (h : Channel) : { r.recall x h with parts := r.parts } = r := by
  unfold Run.recall
  split
  · rfl
  · rfl

section
variable (s : State) (n c : Nat) (r : Run) (b : CouchBeat) (t : Nat)

theorem beatWork_run_ser : (s.beatWork n c r b t).run.ser = r.ser := (congrArg Run.ser (recall_frame r (s.ctx c) (s.ch n)) :)

theorem beatWork_run_beats : (s.beatWork n c r b t).run.beats = r.beats + r.prog.halves :=
  (congrArg (fun q : Run => q.beats + q.prog.halves) (recall_frame r (s.ctx c) (s.ch n)) :)

end

/-! ### Copies that are filled -/

/-- The copies of a slot that a run fills are FILLING. -/
def Ctx.Filling (x : Ctx) (f : Nat × Nat) : Prop :=
  ∀ sl ∈ x.slots, sl.decl.slot = f.1 → ∀ k, sl.copies[f.2]? = some k → k.st = .filling

theorem filling_modCopy_same (x : Ctx) (f : Nat × Nat) (ser : Nat) :
    (x.modCopy f.1 f.2 fun k => { k with st := .filling, writer := ser }).Filling f := by
  intro sl hsl hslot k hk
  obtain ⟨o, -, rfl⟩ := List.mem_map.mp hsl
  split at hslot
  · rename_i ho
    rw [if_pos ho, List.getElem?_set_self'] at hk
    obtain ⟨-, -, rfl⟩ := Option.map_eq_some_iff.mp hk
    rfl
  · rename_i ho
    exact absurd (beq_iff_eq.mpr hslot) ho

theorem filling_modCopy_keeps {x : Ctx} {f : Nat × Nat} (h : x.Filling f) (g : Nat × Nat) (ser : Nat) :
    (x.modCopy g.1 g.2 fun k => { k with st := .filling, writer := ser }).Filling f := by
  intro sl hsl hslot k hk
  obtain ⟨o, ho, rfl⟩ := List.mem_map.mp hsl
  split at hk
  · rename_i hg
    rw [if_pos hg] at hslot
    by_cases hi : g.2 = f.2
    · rw [hi, List.getElem?_set_self'] at hk
      obtain ⟨-, -, rfl⟩ := Option.map_eq_some_iff.mp hk
      rfl
    · rw [List.getElem?_set_ne hi] at hk
      exact h o ho hslot k hk
  · rename_i hg
    rw [if_neg hg] at hslot
    exact h o ho hslot k hk

theorem filling_beginFill (r : Run) : ∀ x : Ctx, ∀ f ∈ r.fills, (x.beginFill r).Filling f := by
  unfold Ctx.beginFill
  induction r.fills with
  | nil => exact fun _ _ hf => nomatch hf
  | cons g fs ih =>
    intro x f hf
    rcases List.mem_cons.mp hf with rfl | hf
    · exact foldl_keeps (P := fun y : Ctx => y.Filling f) (fun y e h => filling_modCopy_keeps h e r.ser) fs _
        (filling_modCopy_same x f r.ser)
    · exact ih _ f hf

theorem beginFill_frame (x : Ctx) (r : Run) : { x.beginFill r with slots := x.slots } = x :=
  foldl_keeps (P := fun y : Ctx => { y with slots := x.slots } = x)
    (fun y f h => by rw [Ctx.modCopy]; exact h) r.fills x rfl

/-! ### The state after a presentation -/

/-- The cycles that a presented beat takes of lanes, scan chain and sorter. -/
def Run.book (r : Run) (x : Ctx) (c t : Nat) (h : Channel) : Channel :=
  { h with
    laneRes := h.laneRes ++ (r.laneCycles t).map fun cc => LaneSlot.mk c r.ser cc t false
    scanRes := match r.scanAt with
      | some a => h.scanRes ++ [ScanSlot.mk c r.ser (t + a) (r.prog.scanGap * r.prog.halves) (r.rowsAbreast x)]
      | none => h.scanRes
    sortFree := if r.mode == Mode.sample then t + 7 + r.prog.lpre + r.prog.sortStep * r.prog.halves else h.sortFree }

/-- A context whose beat has been presented. -/
def Ctx.presented (x : Ctx) (r : Run) (b : CouchBeat) (t : Nat) (d : BeatDone) : Ctx :=
  { (if r.beats = 0 then x.beginFill d.run else x).modRun r.ser fun _ =>
      { d.run with phase := if b.eot then .checking else .started } with
    held := if d.k.els.isEmpty then x.held else x.held ++ [⟨r.ser, r.w.psel, r.base.getD 0, r.w.pseq, d.k.els, r.prog.stashNeed⟩]
    stashQ := x.stashQ ++ d.stash
    lastEnd := if b.eot then t else x.lastEnd }

/-- The beats that the results of a beat leave by. -/
def BeatDone.results (d : BeatDone) (c ten ser t : Nat) : List ReelBeat :=
  (d.leaves.filter fun l => !l.stash).flatMap fun l => l.beats c ten ser (t + 7)

/-- The beats of its results and, at the end of a tile, of its scan carry, each in its Reel cycle. -/
def Run.reelBeatsOf (r : Run) (x : Ctx) (c : Nat) (b : CouchBeat) (t : Nat) (d : BeatDone) : List ReelBeat :=
  dated (d.results c x.ten r.ser t ++ (if b.eot && r.carriesNow then carryOut r c x.ten d.run.rows d.run.carryIn else []))
    (r.reelCycles x b.eot t)

section
variable {s : State} {n c : Nat} {r : Run} {b : CouchBeat} {t : Nat}

theorem presentBeat_eq : s.presentBeat n c r b t = ((s.setCh n ((r.book (s.ctx c) c t (s.beatWork n c r b t).k.h).defer
      (r.beatEvents c b t (s.beatWork n c r b t)))).modCtx c fun x => x.presented r b t (s.beatWork n c r b t)).present c (some r.ser)
      (r.reelBeatsOf (s.ctx c) c b t (s.beatWork n c r b t)) := rfl

theorem presentBeat_ctx_same : (s.presentBeat n c r b t).ctx c = (s.ctx c).presented r b t (s.beatWork n c r b t) := by
  rw [presentBeat_eq, present_ctx, State.modCtx, State.setCtx_ctx_same, State.setCh_ctx]

theorem presentBeat_ctx_other {d : Nat} (h : d ≠ c) : (s.presentBeat n c r b t).ctx d = s.ctx d := by
  rw [presentBeat_eq, present_ctx, State.modCtx, State.setCtx_ctx_other _ _ _ _ h, State.setCh_ctx]

theorem present_tenants (u : State) (k : Nat) (run : Option Nat) (bs : List ReelBeat) : (u.present k run bs).tenants = u.tenants := by
  unfold State.present
  split <;> rfl

theorem presentBeat_tenants : (s.presentBeat n c r b t).tenants = s.tenants := by
  rw [presentBeat_eq, present_tenants, State.modCtx, State.setCtx_tenants, State.setCh_tenants]

theorem present_ch_run {u : State} {k ser : Nat} {bs : List ReelBeat} (h : (u.ctx k).chan = n) :
    (u.present k (some ser) bs).ch n = (u.ch n).addReel bs := by
  unfold State.present
  split
  · rename_i hb
    rw [List.isEmpty_iff.mp hb]
    rfl
  · rw [h]
    exact State.setCh_ch_same ..

theorem beginFill_if_frame (x : Ctx) (q : Run) : { (if r.beats = 0 then x.beginFill q else x) with slots := x.slots } = x := by
  split
  · exact beginFill_frame x q
  · rfl

theorem presented_chan (x : Ctx) (d : BeatDone) : (x.presented r b t d).chan = x.chan := (congrArg Ctx.chan (beginFill_if_frame x d.run) :)

theorem presented_st (x : Ctx) (d : BeatDone) : (x.presented r b t d).st = x.st := (congrArg Ctx.st (beginFill_if_frame x d.run) :)

theorem presented_flags (x : Ctx) (d : BeatDone) : (x.presented r b t d).flags = x.flags :=
  (congrArg Ctx.flags (beginFill_if_frame x d.run) :)

theorem presented_runs (x : Ctx) (d : BeatDone) : (x.presented r b t d).runs
    = (x.modRun r.ser fun _ => { d.run with phase := if b.eot then .checking else .started }).runs :=
  (congrArg (fun y : Ctx => (y.modRun r.ser fun _ => { d.run with phase := if b.eot then .checking else .started }).runs)
    (beginFill_if_frame x d.run) :)

theorem presentBeat_ch (h : (s.ctx c).chan = n) : (s.presentBeat n c r b t).ch n
    = ((r.book (s.ctx c) c t (s.beatWork n c r b t).k.h).defer (r.beatEvents c b t (s.beatWork n c r b t))).addReel
        (r.reelBeatsOf (s.ctx c) c b t (s.beatWork n c r b t)) := by
  have hchan := (presented_chan (r := r) (b := b) (t := t) (s.ctx c) (s.beatWork n c r b t)).trans h
  rw [presentBeat_eq, present_ch_run (n := n)]
  · rw [State.modCtx, State.setCtx_ch, State.setCh_ch_same]
  · rw [State.modCtx, State.setCtx_ctx_same, State.setCh_ctx]
    exact hchan

end

end Sys2Proof.Machine
end

section
/-! SUPPORT. What a presented beat leaves, field by field (R318, R185, R309, R330, R347). -/
namespace Sys2Proof.Machine
open Sys2Proof.Safety

/-! ### Beats in the egress buffer -/

theorem mem_insertReel {b q : ReelBeat} {l : List ReelBeat} : q ∈ insertReel b l ↔ q = b ∨ q ∈ l := by
  obtain ⟨l₁, l₂, rfl, hins, -⟩ := insertReel_split b l
  rw [hins, List.mem_append, List.mem_append, List.mem_cons]
  tauto

theorem mem_addReel {h : Channel} {bs : List ReelBeat} {q : ReelBeat} : q ∈ (h.addReel bs).egress ↔ q ∈ bs ∨ q ∈ h.egress := by
  rw [Channel.addReel]
  induction bs generalizing h with
  | nil => simp
  | cons b bs ih =>
    have hrest := ih (h := { h with egress := insertReel b h.egress })
    rw [List.foldl_cons, hrest, mem_insertReel, List.mem_cons]
    tauto

theorem mem_dated_append {q : ReelBeat} {bs cs : List ReelBeat} {ccs : List Nat} (h : q ∈ dated bs ccs) : q ∈ dated (bs ++ cs) ccs := by
  obtain ⟨e, he, rfl⟩ := List.mem_map.mp h
  refine List.mem_map.mpr ⟨e, ?_, rfl⟩
  obtain ⟨i, hi, hget⟩ := List.mem_iff_getElem.mp he
  rw [List.length_zip] at hi
  have hb : i < bs.length := by omega
  have hc : i < ccs.length := by omega
  refine List.mem_iff_getElem.mpr ⟨i, by rw [List.length_zip, List.length_append]; omega, ?_⟩
  rw [← hget, List.getElem_zip, List.getElem_zip, List.getElem_append_left hb]

/-! ### Candidates -/

theorem mem_insertCand {e q : Cand} {l : List Cand} : q ∈ insertCand e l ↔ q = e ∨ q ∈ l := by
  induction l with
  | nil => exact List.mem_cons
  | cons a l ih =>
    rw [insertCand]
    split
    · exact List.mem_cons
    · rw [List.mem_cons, ih, List.mem_cons]
      exact or_left_comm

theorem exists_cand {s : State} {n : Nat} {q : Cand} (h : q ∈ s.cands n) : s.cand n q.ctx = some q := by
  have hmem : ∃ a ∈ (s.ch n).alloc, s.cand n a.ctx = some q := by
    rw [State.cands] at h
    rw [← List.mem_filterMap]
    generalize (s.ch n).alloc.filterMap (fun a => s.cand n a.ctx) = l at h ⊢
    induction l with
    | nil => exact h
    | cons a l ih => exact (mem_insertCand.mp h).elim (fun e => e ▸ List.mem_cons_self) fun e => List.mem_cons_of_mem _ (ih e)
  obtain ⟨a, -, ha⟩ := hmem
  have hctx : q.ctx = a.ctx := by
    unfold State.cand at ha
    dsimp only at ha
    split at ha
    · cases ha; rfl
    · cases ha
  rw [hctx]
  exact ha

/-- The run of a candidate is one of its context. -/
theorem run_mem_of_cand {s : State} {n : Nat} {q : Cand} (h : q ∈ s.cands n) : q.run ∈ (s.ctx q.ctx).runs := by
  have hq := exists_cand h
  unfold State.cand at hq
  dsimp only at hq
  split at hq
  · rename_i hrun
    have hr := congrArg Cand.run (Option.some.inj hq)
    rw [← hr]
    exact List.mem_of_find?_eq_some hrun
  · cases hq

/-! ### The context -/

section
variable (x : Ctx) (r : Run) (b : CouchBeat) (t : Nat) (d : BeatDone)

theorem presented_stashQ : (x.presented r b t d).stashQ = x.stashQ ++ d.stash := rfl

theorem presented_lastEnd : (x.presented r b t d).lastEnd = if b.eot then t else x.lastEnd := rfl

theorem presented_held_keeps : ∀ g ∈ x.held, g ∈ (x.presented r b t d).held := by
  intro g hg
  change g ∈ if d.k.els.isEmpty then x.held else x.held ++ [_]
  split
  · exact hg
  · exact List.mem_append_left _ hg

theorem presented_holds : ∀ a ∈ d.k.els, ∃ g ∈ (x.presented r b t d).held, g.run = r.ser ∧ g.base = r.base.getD 0 ∧ a ∈ g.els := by
  intro a ha
  refine ⟨⟨r.ser, r.w.psel, r.base.getD 0, r.w.pseq, d.k.els, r.prog.stashNeed⟩, ?_, rfl, rfl, ha⟩
  change _ ∈ if d.k.els.isEmpty then x.held else x.held ++ [_]
  rw [if_neg fun he => by rw [List.isEmpty_iff.mp he] at ha; cases ha]
  exact List.mem_append_right _ (List.mem_singleton_self _)

theorem presented_filling (h : r.beats = 0) : ∀ f ∈ d.run.fills, (x.presented r b t d).Filling f := by
  intro f hf
  have hslots : (x.presented r b t d).slots = (x.beginFill d.run).slots := by
    unfold Ctx.presented
    rw [if_pos h]
    rfl
  rw [Ctx.Filling, hslots]
  exact filling_beginFill d.run x f hf

variable {x r b t d}

/-- The run of the beat after it. -/
theorem presented_run {q : Run} (hq : q ∈ x.runs) (hser : q.ser = r.ser) (hd : d.run.ser = r.ser) :
    ∃ v ∈ (x.presented r b t d).runs, v.ser = q.ser ∧ v.beats = d.run.beats ∧ v.phase = if b.eot then .checking else .started := by
  rw [presented_runs]
  refine ⟨{ d.run with phase := if b.eot then .checking else .started }, List.mem_map.mpr ⟨q, hq, ?_⟩, ?_, rfl, rfl⟩
  · rw [if_pos (beq_iff_eq.mpr hser)]
  · exact hd.trans hser.symm

end

/-! ### The channel -/

section
variable {h g : Channel} (e : h.Reserves g)
include e

theorem Channel.Reserves.couch : g.couch = h.couch := (congrArg Channel.couch e.same :)
theorem Channel.Reserves.cyc : g.cyc = h.cyc := (congrArg Channel.cyc e.same :)
theorem Channel.Reserves.due : g.due = h.due := (congrArg Channel.due e.same :)

end

section
variable (h : Channel) (es : List Later) (bs : List ReelBeat) (r : Run) (x : Ctx) (c t : Nat)

theorem defer_couch : (h.defer es).couch = h.couch := rfl
theorem defer_cyc : (h.defer es).cyc = h.cyc := rfl
theorem addReel_couch : (h.addReel bs).couch = h.couch := rfl
theorem addReel_cyc : (h.addReel bs).cyc = h.cyc := rfl
theorem addReel_due : (h.addReel bs).due = h.due := rfl
theorem book_couch : (r.book x c t h).couch = h.couch := rfl
theorem book_cyc : (r.book x c t h).cyc = h.cyc := rfl
theorem book_due : (r.book x c t h).due = h.due := rfl

end

section
variable {s : State} {n c : Nat} {r : Run} {b : CouchBeat} {t : Nat} (h : (s.ctx c).chan = n)
include h

theorem presentBeat_couch : ((s.presentBeat n c r b t).ch n).couch = (s.ch n).couch := by
  rw [presentBeat_ch h, addReel_couch, defer_couch, book_couch, (reserves_beatWork s n c r b t).couch]

theorem presentBeat_cyc : ((s.presentBeat n c r b t).ch n).cyc = (s.ch n).cyc := by
  rw [presentBeat_ch h, addReel_cyc, defer_cyc, book_cyc, (reserves_beatWork s n c r b t).cyc]

theorem mem_presentBeat_due {e : Later} : e ∈ ((s.presentBeat n c r b t).ch n).due
    ↔ e ∈ r.beatEvents c b t (s.beatWork n c r b t) ∨ e ∈ (s.ch n).due := by
  rw [presentBeat_ch h, addReel_due, mem_defer, book_due, (reserves_beatWork s n c r b t).due]

theorem mem_presentBeat_egress {q : ReelBeat} (hq : q ∈ r.reelBeatsOf (s.ctx c) c b t (s.beatWork n c r b t)) :
    q ∈ ((s.presentBeat n c r b t).ch n).egress := by
  rw [presentBeat_ch h]
  exact mem_addReel.mpr (.inl hq)

theorem presentBeat_nothingDue (hd : NothingDue (s.ch n) t) (he : ∀ e ∈ r.beatEvents c b t (s.beatWork n c r b t), t < e.cc) :
    NothingDue ((s.presentBeat n c r b t).ch n) t := fun e hmem => ((mem_presentBeat_due h).mp hmem).elim (he e) (hd e)

end

theorem check_mem_beatEvents {r : Run} {c : Nat} {b : CouchBeat} {t : Nat} {d : BeatDone} (h : b.eot = true) :
    ⟨t + 1, c, some r.ser, .check b.pseq.toNat⟩ ∈ r.beatEvents c b t d := by
  unfold Run.beatEvents
  refine List.mem_append_right _ ?_
  rw [if_pos h]
  exact List.mem_singleton_self _

theorem reelCycles_congr {x y : Ctx} (h : y.lgmask = x.lgmask) (r : Run) (eot : Bool) (t : Nat) :
    r.reelCycles y eot t = r.reelCycles x eot t := by
  rw [Run.reelCycles, Run.reelCycles, Run.carryBeats, Run.carryBeats, h]

/-- The results of a beat are among the beats that it adds. -/
theorem results_mem_reelBeatsOf {r : Run} {x : Ctx} {c : Nat} {b : CouchBeat} {t : Nat} {d : BeatDone} {q : ReelBeat}
    (h : q ∈ dated (d.results c x.ten r.ser t) (r.reelCycles x b.eot t)) : q ∈ r.reelBeatsOf x c b t d := mem_dated_append h

end Sys2Proof.Machine
end

section
/-! SUPPORT. What conversion (R57 to R60) gives: a code that the slots of one result hold, by the value alone. -/
namespace Sys2Proof.Machine
open Sys2Proof.Safety

/-! ### The size of a code -/

/-- What a result slot of a format, or the two of a 32-bit format, can hold (R347). -/
def Fmt.room (f : Fmt) : Nat := if f.width = 32 then 2 ^ 32 else 2 ^ 16

theorem le_of_nearestEven {x : ℚ} {k j : ℤ} (h : NearestEven x k) (hj : x ≤ j) : k ≤ j := by
  have hneg := nearestEven_le_of_le (j := -j) (nearestEven_neg h) (by push_cast; linarith)
  omega

theorem near_le_pow {q : XQ} (hd : 0 < q.d) {a s : ℤ} {m : Nat} (hq : |ratOf q| < 2 ^ a) (hm : a + s = m) : (q.near s).1 ≤ 2 ^ m := by
  obtain ⟨hnear, -⟩ := near_spec hd s
  have hbound : |ratOf q| * 2 ^ s ≤ ((2 ^ m : Nat) : ℤ) := by
    push_cast
    rw [← zpow_natCast, ← hm, zpow_add₀ (by norm_num)]
    exact mul_le_mul_of_nonneg_right hq.le (by positivity)
  exact_mod_cast le_of_nearestEven hnear hbound

/-- A value that is no greater than the largest finite one of a floating-point format. -/
def Val.Fits (f : Fmt) (v : Val) : Prop := ∀ q, v = .fin q → 0 < q.d ∧ |ratOf q| ≤ ratOf f.maxFin

theorem floorLog2_le_of_fits {f : Fmt} {q : XQ} (hd : 0 < q.d) (hn : q.n ≠ 0) (h : |ratOf q| ≤ ratOf f.maxFin) :
    q.floorLog2 ≤ f.maxFin.floorLog2 := by
  have hmax : f.maxFin.n ≠ 0 := by cases f <;> decide
  have hlow := (binade_floorLog2 hd hn).1
  have hhigh := (binade_floorLog2 (maxFin_den f) hmax).2
  have hlt : (2 : ℚ) ^ q.floorLog2 < 2 ^ (f.maxFin.floorLog2 + 1) := (hlow.trans h).trans_lt ((le_abs_self _).trans_lt hhigh)
  have := (zpow_lt_zpow_iff_right₀ (by norm_num : (1 : ℚ) < 2)).mp hlt
  omega

theorem encode_lt_room {f : Fmt} {v : Val} (hf : f.isInt = false) (h : v.Fits f) : encode v f < f.room := by
  cases v with
  | nan => cases f <;> decide
  | inf b => cases b <;> cases f <;> decide
  | fin q =>
    obtain ⟨hd, hle⟩ := h q rfl
    rw [encode]
    simp only [hf, Bool.false_eq_true, if_false]
    by_cases hn : q.n = 0
    · rw [if_pos hn]
      cases f <;> decide
    · rw [if_neg hn]
      have hsign : (if decide (q.n < 0) = true then 2 ^ (f.width - 1) else 0) ≤ 2 ^ (f.width - 1) := by
        split
        · exact Nat.le_refl _
        · exact Nat.zero_le _
      have hq := (binade_floorLog2 hd hn).2
      split
      · rename_i hlow
        have hlt : |ratOf q| < 2 ^ f.emin := hq.trans_le (zpow_le_zpow_right₀ (by norm_num) (by omega))
        have hnear := near_le_pow hd hlt (s := (f.mant : ℤ) - f.emin) (m := f.mant) (by ring)
        have hroom : 2 ^ (f.width - 1) + 2 ^ f.mant < f.room := by cases f <;> decide
        omega
      · have htop := floorLog2_le_of_fits hd hn hle
        have hnear := near_le_pow hd hq (s := (f.mant : ℤ) - q.floorLog2) (m := f.mant + 1) (by push_cast; ring)
        have hexp : (q.floorLog2 + f.bias).toNat * 2 ^ f.mant ≤ (f.maxFin.floorLog2 + f.bias).toNat * 2 ^ f.mant :=
          Nat.mul_le_mul_right _ (by omega)
        have hroom : 2 ^ (f.width - 1) + (f.maxFin.floorLog2 + f.bias).toNat * 2 ^ f.mant + 2 ^ f.mant < f.room := by
          revert hf
          cases f <;> decide
        rw [pow_succ] at hnear
        omega

/-! ### What conversion gives -/

theorem fits_of_n_eq_zero {f : Fmt} {q : XQ} (hd : 0 < q.d) (hn : q.n = 0) : |ratOf q| ≤ ratOf f.maxFin := by
  rw [(ratOf_eq_zero_iff hd).mpr hn, abs_zero]
  have hn : (0 : ℚ) ≤ f.maxFin.n := by cases f <;> decide
  rw [ratOf]
  positivity

theorem fits_nan (f : Fmt) : Val.Fits f .nan := nofun

theorem fits_inf (f : Fmt) (b : Bool) : Val.Fits f (.inf b) := nofun

theorem fits_fin {f : Fmt} {q : XQ} (hd : 0 < q.d) (h : |ratOf q| ≤ ratOf f.maxFin) : Val.Fits f (.fin q) := fun p e => by
  cases e
  exact ⟨hd, h⟩

theorem fits_zero (f : Fmt) : Val.Fits f Val.zero := fits_fin Nat.one_pos (fits_of_n_eq_zero Nat.one_pos rfl)

theorem fits_maxFin (f : Fmt) : Val.Fits f (.fin f.maxFin) := fits_fin (maxFin_den f) (by
  have hn : (0 : ℚ) ≤ f.maxFin.n := by cases f <;> decide
  rw [abs_of_nonneg]
  rw [ratOf]
  positivity)

theorem fits_neg_maxFin (f : Fmt) : Val.Fits f (.fin f.maxFin.neg) := by
  obtain ⟨hd, h⟩ := fits_maxFin f _ rfl
  refine fits_fin hd ?_
  have hneg : ratOf f.maxFin.neg = -ratOf f.maxFin := by
    rw [ratOf, ratOf, XQ.neg]
    push_cast
    ring
  rw [hneg, abs_neg]
  exact h

theorem fits_roundFin (q : XQ) (f : Fmt) : (roundFin q f).1.Fits f := by
  by_cases hfar : q.floorLog2 > f.emin + 2 ^ f.ew
  · unfold roundFin
    simp only [if_pos hfar]
    split
    · exact fits_nan f
    · exact fits_inf f _
  · have hround := roundFin_of_near hfar
    dsimp only at hround
    rw [hround]
    split
    · dsimp only
      split
      · exact fits_nan f
      · exact fits_inf f _
    · rename_i hbig
      rw [lt_iff_ratOf (maxFin_den f) (show 0 < (q.onGrid f).abs.d from Nat.one_pos), ratOf_abs, not_lt] at hbig
      dsimp only
      split
      · exact fits_zero f
      · exact fits_fin Nat.one_pos hbig

theorem fits_roundRne {f : Fmt} (hf : f.isInt = false) (v : Val) : (roundRne v f).1.Fits f := by
  cases v with
  | nan =>
    have hnan : roundRne .nan f = (.nan, flNone) := by cases f <;> simp_all [roundRne, Fmt.isInt]
    rw [hnan]
    exact fits_nan f
  | inf b =>
    have hinf : (roundRne (.inf b) f).1 = if f = .e4m3 then .nan else .inf b := by cases f <;> simp_all [roundRne, Fmt.isInt]
    rw [hinf]
    split
    · exact fits_nan f
    · exact fits_inf f b
  | fin q =>
    by_cases hn : q.n = 0
    · have hzero : roundRne (.fin q) f = (Val.zero, flNone) := by cases f <;> simp_all [roundRne, Fmt.isInt]
      rw [hzero]
      exact fits_zero f
    · rw [roundRne_fin hf hn]
      exact fits_roundFin q f

theorem fits_convert {f : Fmt} (hf : f.isInt = false) (v : Val) (sat : Bool) : (convert v f sat).1.Fits f := by
  have htop (b : Bool) : Val.Fits f (.fin (if b then f.maxFin.neg else f.maxFin)) := by
    cases b with
    | false => exact fits_maxFin f
    | true => exact fits_neg_maxFin f
  unfold convert
  dsimp only
  split
  · split
    · exact htop _
    · split
      · exact htop _
      · exact fits_roundRne hf v
  · exact fits_roundRne hf v

/-- An integer that to_int gives is held by the width. -/
theorem encode_toIntRound_lt {f : Fmt} (hf : f.isInt = true) (v : Val) : encode (toIntRound v f.width).1 f < f.room := by
  have hint (i : ℤ) (hi : i < 2 ^ (f.width - 1)) : encode (Val.ofInt i) f < f.room := by
    have hroom : 2 ^ f.width ≤ f.room := by cases f <;> decide
    have hhalf : 2 ^ (f.width - 1) ≤ 2 ^ f.width := Nat.pow_le_pow_right (by norm_num) (Nat.sub_le _ _)
    have hcast : ((2 ^ (f.width - 1) : Nat) : ℤ) = 2 ^ (f.width - 1) := by push_cast; rfl
    rw [encode_ofInt hf]
    split
    · exact (Nat.mod_lt _ (by positivity)).trans_le hroom
    · omega
  have hcast : ((2 ^ (f.width - 1) : Nat) : ℤ) = 2 ^ (f.width - 1) := by push_cast; rfl
  have hpos : (0 : ℤ) < 2 ^ (f.width - 1) := by positivity
  unfold toIntRound
  simp only [hcast]
  cases v with
  | nan => exact hint 0 hpos
  | inf b =>
    dsimp only
    split
    · exact hint _ (by omega)
    · exact hint _ (by omega)
  | fin q =>
    dsimp only
    generalize (if q.n < 0 then -((q.near 0).1 : ℤ) else ((q.near 0).1 : ℤ)) = n
    split
    · dsimp only
      split
      · exact hint _ (by omega)
      · exact hint _ (by omega)
    · split
      · exact hint _ (by omega)
      · split
        · exact hint _ (by omega)
        · exact hint _ (by omega)

/-- The code of a converted value is one that its slots hold. -/
theorem convertCode_lt_room (v : Val) (f : Fmt) (sat : Bool) : (convertCode v f sat).1 < f.room := by
  cases hf : f.isInt with
  | false => exact encode_lt_room hf (fits_convert hf v sat)
  | true =>
    have hround : convert v f sat = toIntRound v f.width := by
      have hno : (f == .e4m3 || f == .e5m2) = false := by cases f <;> simp_all [Fmt.isInt]
      have hto : roundRne v f = toIntRound v f.width := by cases f <;> simp_all [roundRne, Fmt.isInt, Fmt.width]
      simp only [convert, hno, Bool.and_false, Bool.false_eq_true, if_false, hto]
    rw [convertCode, hround]
    exact encode_toIntRound_lt hf v

/-! ### Zero -/

/-- Every zero converts alike. -/
theorem convertCode_of_zero {q : XQ} (hn : q.n = 0) (f : Fmt) (sat : Bool) : convertCode (.fin q) f sat = convertCode Val.zero f sat := by
  have hround : roundRne (.fin q) f = roundRne Val.zero f := by
    have hint (w : Nat) : toIntRound (.fin q) w = toIntRound Val.zero w := by
      have hsub (i : ℤ) : (XQ.ofInt i).lt q.abs = (XQ.ofInt i).lt XQ.zero.abs := by
        by_cases hi : i = 0
        · simp [XQ.lt, XQ.cmp, XQ.sub, XQ.add, XQ.neg, XQ.abs, XQ.ofInt, XQ.zero, hn, hi]
        · simp [XQ.lt, XQ.cmp, XQ.sub, XQ.add, XQ.neg, XQ.abs, XQ.ofInt, XQ.zero, hn, hi]
      simp only [toIntRound, Val.zero, hsub, XQ.near, hn]
      rfl
    cases f with
    | int8 => exact hint 8
    | int32 => exact hint 32
    | _ => simp [roundRne, Val.zero, hn, XQ.zero]
  have hneg : Val.isNeg (.fin q) = Val.isNeg Val.zero := by simp [Val.isNeg, Val.zero, XQ.zero, hn]
  simp only [convertCode, convert, hround, hneg]
  rfl

end Sys2Proof.Machine
end

section
/-! SUPPORT. A program that only converts (R59, R309, R347): its elements leave as they come, each in the format of EGRESS. -/
namespace Sys2Proof.Machine
open Sys2Proof.Safety

/-! ### The program -/

/-- The parts of a body of an ingest word and an egress word. -/
structure Prog.Conversion (p : Prog) (i : IngW) (o : EgrW) (j k : Nat) (a b : IWord) : Prop where
  ingest : p.ingest = some (j, a)
  size : p.size = none
  lanes : p.lanes = []
  rowLike : p.rowLike = none
  egress : p.egress = [(k, b)]
  flow : opc a = 0x10
  reel : opc b = 0x80
  takes : IngW.ofWord a = i
  gives : EgrW.ofWord b = o

theorem exists_conversion {p : Prog} {i : IngW} {o : EgrW} (h : Converts p i o) : ∃ j k a b, p.Conversion i o j k a b := by
  obtain ⟨⟨j, k, a, b, hbody, ha, hi, hb, ho⟩, -⟩ := h
  refine ⟨j, k, a, b, ?_, ?_, ?_, ?_, ?_, ha, hb, hi, ho⟩
  · simp [Prog.ingest, hbody, isIngest, ha]
  · simp [Prog.size, hbody, ha, hb]
  · simp [Prog.lanes, hbody, isLane, ha, hb]
  · simp [Prog.rowLike, hbody, isRowLike, ha, hb]
  · simp [Prog.egress, hbody, isEgress, ha, hb]

section
variable {p : Prog} {i : IngW} {o : EgrW} {j k : Nat} {a b : IWord} (h : p.Conversion i o j k a b)
include h

theorem Prog.Conversion.stages : p.stages = [] := by rw [Prog.stages, h.lanes, mkStages]

theorem Prog.Conversion.pre : p.pre = [] := by rw [Prog.pre, h.stages, List.takeWhile_nil]

theorem Prog.Conversion.lpre : p.lpre = 0 := by rw [Prog.lpre, h.pre]; rfl

theorem Prog.Conversion.sizePoint : p.sizePoint = none := by rw [Prog.sizePoint, h.lanes]

theorem Prog.Conversion.sizeW : p.sizeW = SizeW.absent := by rw [Prog.sizeW, h.size]

theorem Prog.Conversion.carryWord (hsel : o.sel = false) : p.carryWord = none := by
  simp [Prog.carryWord, h.egress, h.gives, hsel]

theorem Prog.Conversion.reelBeats (hsel : o.sel = false) (hsplit : o.split = 0) : p.reelBeats = fmtBeats o.ofmt := by
  simp [Prog.reelBeats, Prog.reelWords, h.egress, h.reel, h.gives, hsel, EgrW.beats, EgrW.pieces, hsplit]

end

section
variable {r : Run} {i : IngW} {o : EgrW} {j k : Nat} {a b : IWord} (h : r.prog.Conversion i o j k a b)
include h

theorem Prog.Conversion.mode : r.mode = .plain := by
  simp [Run.mode, h.ingest, h.flow, h.rowLike]

theorem Prog.Conversion.lat : r.lat = 12 := by rw [Run.lat, h.mode, h.lpre]; rfl

theorem Prog.Conversion.carriesNow (hsel : o.sel = false) : r.carriesNow = false := by
  rw [Run.carriesNow, h.carryWord hsel]
  rfl

/-- The results of a beat take the cycles from 24 cc after its presentation on. -/
theorem Prog.Conversion.reelCycles (hsel : o.sel = false) (hsplit : o.split = 0) (x : Ctx) (eot : Bool) (t : Nat) :
    r.reelCycles x eot t = (List.range (fmtBeats o.ofmt * r.prog.halves)).map fun m => t + 24 + m := by
  have hresults : r.results = fmtBeats o.ofmt * r.prog.halves := by
    rw [Run.results, h.mode, h.reelBeats hsel hsplit]
    rfl
  have hhalves : r.prog.halves ≠ 0 := by
    rw [Prog.halves, h.ingest]
    dsimp only
    split
    · decide
    · decide
  have hbeats : fmtBeats o.ofmt ≠ 0 := by
    rw [fmtBeats]
    split
    · decide
    · decide
  have hcarry : r.carryBeats x eot = 0 := by rw [Run.carryBeats, h.carriesNow hsel, Bool.and_false]; rfl
  rw [Run.reelCycles, hresults, hcarry, h.lat, if_neg (Nat.mul_ne_zero hbeats hhalves)]
  rfl

end

theorem recall_of_plain {r : Run} (h : r.mode = .plain) (x : Ctx) (g : Channel) : r.recall x g = r := by
  unfold Run.recall
  rw [h]

/-! ### Values -/

theorem toFmt_val (v : Val) (f : Fmt) (sat : Bool) : (Ex.val v).toFmt f sat = convertCode v f sat := rfl

/-- Sizing without a SIZE word leaves the value. -/
theorem sizeElem_absent (e : Env) (i cc : Nat) (c : Cell) (v : Val) (f : Fmt) (sat : Bool) :
    (sizeElem e i SizeW.absent cc c v).1.ex.toFmt f sat = convertCode v f sat := by
  have hsize : (sizeElem e i SizeW.absent cc c v).1.ex = .val (sizing v Val.one Val.zero Val.zero).1 := by
    cases v <;> rfl
  rw [hsize, toFmt_val]
  cases v with
  | nan => rfl
  | inf b => cases b <;> rfl
  | fin q =>
    have hsum : (sizing (.fin q) Val.one Val.zero Val.zero).1 = .fin (((q.mul XQ.one).add XQ.zero).add XQ.zero) := rfl
    rw [hsum]
    by_cases hn : q.n = 0
    · have hzero : (((q.mul XQ.one).add XQ.zero).add XQ.zero).n = 0 := by simp [XQ.mul, hn, XQ.add, XQ.zero]
      rw [convertCode_of_zero hzero, convertCode_of_zero hn]
    · have hself : ((q.mul XQ.one).add XQ.zero).add XQ.zero = q := by
        obtain ⟨n, d, e⟩ := q
        have hn : n ≠ 0 := hn
        simp [XQ.mul, XQ.add, XQ.zero, XQ.one, hn]
      rw [hself]

theorem scale_zero (v : Val) : v.scale 0 = v := by
  cases v with
  | fin q => simp [Val.scale, XQ.scale]
  | _ => rfl

/-- A format without scales leaves the values of the slots. -/
theorem ingest_plain {i : IngW} (hscm : i.scm = 0) (hmx : isMx i.fmt = false) (b : CouchBeat) (half t : Nat) (cs : List Cell) :
    (ingest i b half t cs).1 = cs.map fun c => (c, decode (slotCode b i.fmt half c.lane) (elemFmt i.fmt)) := by
  have hblock : i.block = none := by simp [IngW.block, hscm, hmx]
  rw [ingest, List.map_map]
  refine List.map_congr_left fun c _ => ?_
  simp only [Function.comp_apply, laneScale, hblock, scale_zero]

/-! ### A lane-beat -/

/-- The code of the result of a lane. -/
def convLane (i : IngW) (o : EgrW) (b : CouchBeat) (half lane : Nat) : Nat :=
  (convertCode (decode (slotCode b i.fmt half lane) (elemFmt i.fmt)) (elemFmt o.ofmt) o.sat).1

/-- What leaves of a lane-beat. -/
def convLeave (i : IngW) (o : EgrW) (b : CouchBeat) (k half : Nat) (cs : List Cell) : Leave :=
  ⟨0, k, false, o, [⟨cs.map fun a => (a.lane, convLane i o b half a.lane), none⟩]⟩

/-- All elements leave by an egress word that neither masks nor splits. -/
theorem calender_plain (e : Env) (k : Nat) {o : EgrW} (hmx : isMx o.ofmt = false) (hsplit : o.split = 0) (hmask : o.mkind = 0) (cc : Nat)
    (fl : Flow) : (calender e k o cc fl []).1 = [⟨fl.map fun x => (x.1.lane, (x.2.ex.toFmt (elemFmt o.ofmt) o.sat).1), none⟩] := by
  have hkept : ∀ c, e.kept o c = some true := fun c => by
    simp only [Env.kept, hmask]
  have hall : ((fl.map fun x => (x, e.kept o x.1)).filter fun k => k.2 == some true).map (fun k => k.1) = fl := by
    simp [hkept, List.filter_map, Function.comp_def]
  simp only [calender, hall, List.isEmpty_nil, Bool.not_true, Bool.false_eq_true, if_false, hsplit, emitPlain, hmx]
  rw [if_neg (by decide)]
  simp

section
variable {e : Env} {i : IngW} {o : EgrW} {j k : Nat} {a w : IWord} (h : e.run.prog.Conversion i o j k a w)
include h

/-- What a lane-beat converts to before the calender. -/
theorem front_codes (t : Nat) (xs : List (Cell × Val)) (f : Fmt) (sat : Bool) :
    (front e t xs).flow.map (fun x => (x.1.lane, (x.2.ex.toFmt f sat).1)) = xs.map fun x => (x.1.lane, (convertCode x.2 f sat).1) := by
  rw [front, h.sizePoint, h.pre]
  simp only [runStages, sizeFlow, h.sizeW, List.map_map, Function.comp_def, sizeElem_absent]

theorem leave_plain (hmx : isMx o.ofmt = false) (hsel : o.sel = false) (hsplit : o.split = 0) (hmask : o.mkind = 0) (cal : Nat) (fl : Flow) :
    (leave e cal fl []).1 = [⟨0, k, false, o, [⟨fl.map fun x => (x.1.lane, (x.2.ex.toFmt (elemFmt o.ofmt) o.sat).1), none⟩]⟩] := by
  have hws : (((List.range e.run.prog.egress.length).zip e.run.prog.egress).filter fun q => !(EgrW.ofWord q.2.2).sel) = [(0, k, w)] := by
    simp [h.egress, h.gives, hsel]
  simp only [leave, hws, List.map_cons, List.map_nil, h.gives, calender_plain e k hmx hsplit hmask, h.reel]
  rfl

theorem laneWork_out (hc : Converts e.run.prog i o) (c : Nat) (g : Channel) (b : CouchBeat) (half t u : Nat) (cs : List Cell) :
    (laneWork e c g b half t u cs).out = [convLeave i o b k half cs] := by
  obtain ⟨-, hscm, -, hmxi, -, hmxo, hsel, hsplit, hmask⟩ := hc
  have hplain : (laneWork e c g b half t u cs).out
      = (leave e (t + 9 + e.run.lat) (front e t (ingest (IngW.ofWord a) b half t cs).1).flow []).1 := by
    unfold laneWork
    simp only [h.mode, h.ingest, h.lanes]
  rw [hplain, leave_plain h hmxo hsel hsplit hmask, front_codes h, h.takes, ingest_plain hscm hmxi, List.map_map]
  rfl

end

/-- The lane-beats of a beat leave one by one. -/
theorem laneWorks_out {i : IngW} {o : EgrW} {j k : Nat} {a w : IWord} {e : Env} (h : e.run.prog.Conversion i o j k a w)
    (hc : Converts e.run.prog i o) (c : Nat) (b : CouchBeat) (l : List (Nat × Nat × Nat × List Cell)) :
    ∀ v : Work, (laneWorks e c b l v).2 = l.map fun q => convLeave i o b k q.1 q.2.2.2 := by
  induction l with
  | nil => exact fun v => rfl
  | cons q l ih =>
    intro v
    rw [laneWorks, List.map_cons]
    dsimp only
    rw [ih, laneWork_out (e := { e with run := { e.run with carryIn := v.carry } }) h hc]
    rfl

/-! ### A beat -/

/-- The beats of a lane-beat that converts. -/
theorem convLeave_beats {i : IngW} {o : EgrW} (hsplit : o.split = 0) (b : CouchBeat) (k half c ten ser entry : Nat) (cs : List Cell) :
    (convLeave i o b k half cs).beats c ten ser entry
      = emission { blankBeat c ten 0 (some ser) with egr := 0, entry := entry, fmt := o.ofmt, route := o.route, piece := 0 }
          (cs.map fun a => (a.lane, convLane i o b half a.lane)) := by
  simp [Leave.beats, convLeave, pieceBeats, hsplit]

/-- The slot of a lane whose entries are by the lane alone. -/
theorem slotOf_nonZero (g : ReelBeat) (F : Nat → Nat) (cs : List Cell) (hg : g.data = nonZero (cs.map fun a => (a.lane, F a.lane))) :
    ∀ a ∈ cs, slotOf g a.lane = F a.lane := by
  intro a ha
  rw [slotOf, hg]
  cases hf : (nonZero (cs.map fun a => (a.lane, F a.lane))).find? fun v => v.1 == a.lane with
  | none =>
    by_contra hne
    have hmem : (a.lane, F a.lane) ∈ nonZero (cs.map fun a => (a.lane, F a.lane)) :=
      List.mem_filter.mpr ⟨List.mem_map_of_mem ha, by simpa using fun h => hne h.symm⟩
    simpa using List.find?_eq_none.mp hf _ hmem
  | some v =>
    obtain ⟨d, hd, rfl⟩ := List.mem_map.mp (List.mem_of_mem_filter (List.mem_of_find?_eq_some hf))
    have hlane : d.lane = a.lane := by simpa using List.find?_some hf
    rw [hlane]

/-- The parts of a code that the halves of an emission carry. -/
theorem emission_getElem? {base : ReelBeat} {F : Nat → Nat} {cs : List Cell} (hhalf : base.half = 0)
    (hF : ∀ l, F l < (elemFmt base.fmt).room) {j : Nat} (hj : j < fmtBeats base.fmt) :
    ∃ g, (emission base (cs.map fun a => (a.lane, F a.lane)))[j]? = some g ∧ g.run = base.run ∧ g.fmt = base.fmt ∧ g.half = j
      ∧ g.route = base.route ∧ g.scv = base.scv ∧ ∀ a ∈ cs, a.lane ∈ g.we ∧ slotOf g a.lane = F a.lane / 65536 ^ j % 65536 := by
  have hwe : ∀ a ∈ cs, a.lane ∈ (cs.map fun a => (a.lane, F a.lane)).map fun v => v.1 := fun a ha =>
    List.mem_map.mpr ⟨_, List.mem_map_of_mem ha, rfl⟩
  unfold emission
  cases hw : wideFmt base.fmt with
  | true =>
    have hwidth : (elemFmt base.fmt).width = 32 := by simpa [wideFmt, codeWidth] using hw
    have hroom : (elemFmt base.fmt).room = 65536 * 65536 := by rw [Fmt.room, if_pos hwidth]; norm_num
    rw [fmtBeats, hw, if_pos rfl] at hj
    dsimp only
    rw [hw, if_pos rfl]
    obtain rfl | rfl : j = 0 ∨ j = 1 := by omega
    · refine ⟨_, rfl, rfl, rfl, hhalf, rfl, rfl, fun a ha => ⟨hwe a ha, ?_⟩⟩
      rw [slotOf_nonZero _ (fun l => F l % 65536) cs (by rw [List.map_map]; rfl) a ha, pow_zero, Nat.div_one]
    · refine ⟨_, rfl, rfl, rfl, rfl, rfl, rfl, fun a ha => ⟨hwe a ha, ?_⟩⟩
      have hlt := hF a.lane
      rw [slotOf_nonZero _ (fun l => F l / 65536) cs (by rw [List.map_map]; rfl) a ha, pow_one, Nat.mod_eq_of_lt]
      exact Nat.div_lt_of_lt_mul (hroom ▸ hlt)
  | false =>
    have hwidth : (elemFmt base.fmt).width ≠ 32 := by simpa [wideFmt, codeWidth] using hw
    have hroom : (elemFmt base.fmt).room = 65536 := by rw [Fmt.room, if_neg hwidth]; norm_num
    rw [fmtBeats, hw, if_neg (by decide)] at hj
    dsimp only
    rw [hw, if_neg (by decide)]
    obtain rfl : j = 0 := by omega
    refine ⟨_, rfl, rfl, rfl, hhalf, rfl, rfl, fun a ha => ⟨hwe a ha, ?_⟩⟩
    have hlt := hF a.lane
    rw [slotOf_nonZero _ F cs rfl a ha, pow_zero, Nat.div_one, Nat.mod_eq_of_lt (hroom ▸ hlt)]

theorem length_emission (base : ReelBeat) (vs : List (Nat × Nat)) : (emission base vs).length = fmtBeats base.fmt := by
  unfold emission
  dsimp only
  rw [fmtBeats]
  split
  · rfl
  · rfl

/-- An entry of lists of one length that stand one behind the other. -/
theorem getElem?_flatMap_of_length {α β : Type} {f : α → List β} {w : Nat} (hw : ∀ a, (f a).length = w) {j : Nat} (hj : j < w) :
    ∀ (l : List α) (m : Nat), (l.flatMap f)[m * w + j]? = l[m]?.bind fun a => (f a)[j]?
  | [], m => by simp
  | a :: l, 0 => by
    rw [List.flatMap_cons, List.getElem?_append_left (by rw [hw]; omega)]
    simp
  | a :: l, m + 1 => by
    have hle : (f a).length ≤ (m + 1) * w + j := by rw [hw, Nat.succ_mul]; omega
    rw [List.flatMap_cons, List.getElem?_append_right hle, hw,
      show (m + 1) * w + j - w = m * w + j by rw [Nat.succ_mul]; omega, getElem?_flatMap_of_length hw hj l m, List.getElem?_cons_succ]

section
variable {s : State} {n c : Nat} {r : Run} {b : CouchBeat} {t : Nat} {i : IngW} {o : EgrW} (hc : Converts r.prog i o)
include hc

theorem beatWork_leaves {j k : Nat} {a w : IWord} (h : r.prog.Conversion i o j k a w) : (s.beatWork n c r b t).leaves
    = ((List.range (r.nextCells (s.ctx c)).length).zip (r.nextCells (s.ctx c))).map fun q => convLeave i o b k q.1 q.2 := by
  have hno : (r.mode == .imports) = false := by rw [h.mode]; rfl
  unfold State.beatWork
  simp only [recall_of_plain h.mode, hno, Bool.false_eq_true, if_false, laneWorks_out (e := ⟨s.ctx c, r⟩) h hc, List.map_map]
  rfl

/-- The beats of its results. -/
theorem beatWork_results {j k : Nat} {a w : IWord} (h : r.prog.Conversion i o j k a w) (hsplit : o.split = 0) (ten : Nat) :
    (s.beatWork n c r b t).results c ten r.ser t = ((List.range (r.nextCells (s.ctx c)).length).zip (r.nextCells (s.ctx c))).flatMap fun q =>
      emission { blankBeat c ten 0 (some r.ser) with egr := 0, entry := t + 7, fmt := o.ofmt, route := o.route, piece := 0 }
        (q.2.map fun a => (a.lane, convLane i o b q.1 a.lane)) := by
  have hkeep : (s.beatWork n c r b t).leaves.filter (fun l => !l.stash) = (s.beatWork n c r b t).leaves := by
    refine List.filter_eq_self.mpr fun l hl => ?_
    rw [beatWork_leaves hc h] at hl
    obtain ⟨q, -, rfl⟩ := List.mem_map.mp hl
    rfl
  rw [BeatDone.results, hkeep, beatWork_leaves hc h, List.flatMap_map]
  simp only [convLeave_beats hsplit]

/-- The results of a beat of a program that converts stand one behind the other from 24 cc after its presentation on. -/
theorem exists_result {hf j : Nat} {cs : List Cell} (hcs : (r.nextCells (s.ctx c))[hf]? = some cs) (hj : j < fmtBeats o.ofmt) :
    ∃ g ∈ r.reelBeatsOf (s.ctx c) c b t (s.beatWork n c r b t), g.due = t + 24 + hf * fmtBeats o.ofmt + j ∧ g.run = some r.ser
      ∧ g.fmt = o.ofmt ∧ g.half = j ∧ g.route = o.route ∧ g.scv = false
      ∧ ∀ a ∈ cs, a.lane ∈ g.we ∧ slotOf g a.lane = convLane i o b hf a.lane / 65536 ^ j % 65536 := by
  obtain ⟨i', k, a, w, h⟩ := exists_conversion hc
  obtain ⟨-, -, -, -, -, -, hsel, hsplit, -⟩ := id hc
  obtain ⟨hin, -⟩ := List.getElem?_eq_some_iff.mp hcs
  have hlt : hf < r.prog.halves := by
    have hno : (r.mode == .imports) = false := by rw [h.mode]; rfl
    rw [Run.nextCells, hno, if_neg Bool.false_ne_true, List.length_map, List.length_range] at hin
    exact hin
  have hzip : ((List.range (r.nextCells (s.ctx c)).length).zip (r.nextCells (s.ctx c)))[hf]? = some (hf, cs) :=
    List.getElem?_zip_eq_some.mpr ⟨by rw [List.getElem?_range hin], hcs⟩
  obtain ⟨g, hg, hrun, hfmt, hhalf, hroute, hscv, hslots⟩ := emission_getElem?
    (base := { blankBeat c (s.ctx c).ten 0 (some r.ser) with egr := 0, entry := t + 7, fmt := o.ofmt, route := o.route, piece := 0 })
    (F := convLane i o b hf) (cs := cs) rfl (fun l => convertCode_lt_room _ _ _) hj
  have hres : ((s.beatWork n c r b t).results c (s.ctx c).ten r.ser t)[hf * fmtBeats o.ofmt + j]? = some g := by
    rw [beatWork_results hc h hsplit, getElem?_flatMap_of_length (fun q => length_emission _ _) hj, hzip]
    exact hg
  have hcycle : (r.reelCycles (s.ctx c) b.eot t)[hf * fmtBeats o.ofmt + j]? = some (t + 24 + (hf * fmtBeats o.ofmt + j)) := by
    have hbound : hf * fmtBeats o.ofmt + j < fmtBeats o.ofmt * r.prog.halves := by
      calc hf * fmtBeats o.ofmt + j < (hf + 1) * fmtBeats o.ofmt := by rw [Nat.succ_mul]; omega
        _ ≤ fmtBeats o.ofmt * r.prog.halves := by rw [Nat.mul_comm]; exact Nat.mul_le_mul_left _ hlt
    rw [h.reelCycles hsel hsplit, List.getElem?_map, List.getElem?_range hbound]
    rfl
  refine ⟨{ g with due := t + 24 + (hf * fmtBeats o.ofmt + j) }, results_mem_reelBeatsOf ?_, (Nat.add_assoc ..).symm, hrun, hfmt, hhalf,
    hroute, hscv, hslots⟩
  exact List.mem_map.mpr ⟨(g, _), List.mem_of_getElem? (List.getElem?_zip_eq_some.mpr ⟨hres, hcycle⟩), rfl⟩

end

end Sys2Proof.Machine
end

section
/-! SUPPORT. The tile-end check in its cc (R34, R255, R287, R324): what the end of a tile makes of its run and its context, and what is then
due. -/
namespace Sys2Proof.Machine
open Sys2Proof.Safety

/-! ### One effect in the next cc -/

/-- Time passes to the next cc, in which the first effect alone takes place. -/
theorem pass_next_first {s : State} {n : Nat} {e : Later} {rest : List Later} (ht : (s.ch n).ticking = true)
    (hc : (s.ch n).cyc + 1 < 2 ^ 64) (hd : (s.ch n).due = e :: rest) (he : e.cc = (s.ch n).cyc + 1)
    (hrest : ∀ q ∈ rest, (s.ch n).cyc + 1 < q.cc)
    (hahead : ∀ u : State, OnlyWaits s u → (u.ch n).due = rest → (u.ch n).cyc = (s.ch n).cyc + 1 →
      NothingDue ((u.later n e).ch n) ((s.ch n).cyc + 1)) :
    ∃ u, OnlyWaits s u ∧ u.tenants = s.tenants ∧ (u.ch n).due = rest ∧ (u.ch n).cyc = (s.ch n).cyc + 1
      ∧ s.pass n ((s.ch n).cyc + 1) = u.later n e := by
  have hlate : ∀ q ∈ (s.ch n).due, (s.ch n).cyc < q.cc := by
    rw [hd, List.forall_mem_cons]
    exact ⟨by omega, fun q hq => Nat.lt_of_succ_lt (hrest q hq)⟩
  obtain ⟨hdue, -, hcyc⟩ := endCc_ch s n 1
  obtain ⟨-, htenants, -⟩ := outsideStays_endCc s n 1
  rw [pass_next ht hc hlate, show settleFuel = 65535 + 1 from rfl,
    settleTo_cons (hdue.trans hd) (by rw [before_rank_zero, decide_eq_true_iff]; omega)]
  have hwaits := (onlyWaits_endCc s n 1).trans (onlyWaits_modCh (s.endCc n 1) n fun h => { h with due := rest })
  have hrestdue : (((s.endCc n 1).modCh n fun h => { h with due := rest }).ch n).due = rest := by rw [State.modCh, State.setCh_ch_same]
  have hrestcyc : (((s.endCc n 1).modCh n fun h => { h with due := rest }).ch n).cyc = (s.ch n).cyc + 1 := by
    rw [State.modCh, State.setCh_ch_same, hcyc, sat64]
    omega
  refine ⟨_, hwaits, ?_, hrestdue, hrestcyc, settleTo_of_later (fun q hq => ?_) _⟩
  · rw [State.modCh, State.setCh_tenants, htenants]
  · have := hahead _ hwaits hrestdue hrestcyc q hq
    rw [before_rank_zero, decide_eq_false_iff_not]
    omega

/-- A fault after contexts have only waited. -/
theorem faultTaken_of_waits {s u t : State} {c code : Nat} {iflt : BitVec 64} (hw : OnlyWaits s u) (hten : u.tenants = s.tenants)
    (h : FaultTaken c code iflt u t) : FaultTaken c code iflt s t :=
  faultTaken_congr (congrArg Ctx.faultcode (hw c).eq :) (congrArg Ctx.iflt (hw c).eq :) (congrArg Ctx.ten (hw c).eq :) hten h

/-! ### The run whose tile has ended -/

/-- A run whose tile has ended, with the held beats that it emits. -/
def Run.tileEnded (r : Run) (x : Ctx) : Run :=
  { r with phase := .ended, commitAt := r.commitCycle, outs := if r.emitsHeld then x.emissions r else [] }

/-- A context of which a run's tile has ended. -/
def Ctx.tileEnded (x : Ctx) (r : Run) : Ctx :=
  { x.modRun r.ser fun _ => r.tileEnded x with
    held := if r.emitsHeld then x.dropEmitted (r.tileEnded x) else x.held
    cnts := if r.prog.closes r.w.cbase then x.cnts.set r.count (r.base.getD 0 + r.rows) else x.cnts }

/-- Its channel before what follows is due: the records that the tile has read are released (R221). -/
def Run.released (r : Run) (c : Nat) (h : Channel) : Channel :=
  if (match r.prog.readsLoft with | some w => w.rel | none => false) then r.readIdx.foldl (fun h i => h.release c i 1) h else h

/-- What follows the end of a tile. -/
def Run.endWork (r : Run) (x : Ctx) (c : Nat) (h : Channel) : List Later :=
  (r.tileEnded x).endEvents c
    ++ (r.tileEnded x).useFaults c (if r.emitsHeld && r.prog.hdr.mask then x.turnUses (r.released c h) (r.tileEnded x) else [])

/-- The state of which a run's tile has ended, before row counts are fixed. -/
def State.tileEnded (s : State) (n c : Nat) (r : Run) : State :=
  (s.setCh n ((r.released c (s.ch n)).defer (r.endWork (s.ctx c) c (s.ch n)))).setCtx c ((s.ctx c).tileEnded r)

theorem endTile_eq {s : State} {n c : Nat} {r : Run} (hr : (s.ctx c).run r.ser = some r) :
    s.endTile n c r.ser = ((s.tileEnded n c r).fixCounts c).markDone c r.ser := by
  simp only [State.endTile, hr]
  rfl

theorem tileEnded_ctx (s : State) (n c : Nat) (r : Run) : (s.tileEnded n c r).ctx c = (s.ctx c).tileEnded r := State.setCtx_ctx_same ..

theorem released_due (r : Run) (c : Nat) (h : Channel) : (r.released c h).due = h.due := by
  have hfold : (r.readIdx.foldl (fun h i => h.release c i 1) h).due = h.due :=
    foldl_keeps (P := fun g : Channel => g.due = h.due) (f := fun h i => h.release c i 1) (fun _ _ hg => hg) r.readIdx h rfl
  rw [Run.released, apply_ite Channel.due, hfold, ite_self]

theorem mem_tileEnded_due {s : State} {n c : Nat} {r : Run} {e : Later} : e ∈ ((s.tileEnded n c r).ch n).due
    ↔ e ∈ r.endWork (s.ctx c) c (s.ch n) ∨ e ∈ (s.ch n).due := by
  rw [State.tileEnded, State.setCtx_ch, State.setCh_ch_same, mem_defer, released_due]

/-! ### Row counts that are all fixed -/

theorem settleRestarts_of_nil {x : Ctx} (h : x.restarts = []) : x.settleRestarts = x := by rw [Ctx.settleRestarts, h]; rfl

/-- Where every started run has its first row, second passes alone keep reams. -/
theorem fixCounts_of_all_fixed {s : State} {c : Nat} (hre : (s.ctx c).restarts = [])
    (hfixed : ∀ q ∈ (s.ctx c).runs, q.phase = .started → q.base ≠ none) :
    s.fixCounts c = (s.setCtx c (s.ctx c)).recallRuns c := by
  have hsame : s.modCtx c Ctx.settleRestarts = s.setCtx c (s.ctx c) := by rw [State.modCtx, settleRestarts_of_nil hre]
  rw [fixCounts_eq, hsame]
  refine congrArg (State.recallRuns · c) (foldl_keeps (P := fun t : State => t = s.setCtx c (s.ctx c)) (fun t q ht => ?_) _ _ rfl)
  rw [ht]
  refine fixCount_of_fixed fun r hr => hfixed r ?_
  rw [State.setCtx_ctx_same] at hr
  exact mem_of_run hr

theorem markDone_ctx (s : State) (c ser d : Nat) : (s.markDone c ser).ctx d = s.ctx d := by
  unfold State.markDone
  dsimp only
  split
  · split
    · rfl
    · rfl
  · rfl

theorem markDone_due (s : State) (c ser m : Nat) : ((s.markDone c ser).ch m).due = (s.ch m).due := by
  unfold State.markDone
  dsimp only
  split
  · split
    · by_cases hm : m = (s.ctx c).chan
      · rw [hm, State.modCh, State.setCh_ch_same]
        rfl
      · rw [State.modCh, State.setCh_ch_other _ _ _ _ hm]
    · rfl
  · rfl

/-! ### The end of a tile -/

section
variable {s : State} {n c : Nat} {r : Run} (hre : (s.ctx c).restarts = [])
  (hfixed : ∀ q ∈ (s.ctx c).runs, q.phase = .started → q.base ≠ none)
include hre hfixed

theorem tileEnded_fixCounts : (s.tileEnded n c r).fixCounts c
    = ((s.tileEnded n c r).setCtx c ((s.ctx c).tileEnded r)).recallRuns c := by
  rw [fixCounts_of_all_fixed, tileEnded_ctx]
  · rw [tileEnded_ctx]
    exact hre
  · rw [tileEnded_ctx]
    intro q hq hp
    obtain ⟨o, ho, rfl⟩ := List.mem_map.mp hq
    split at hp
    · cases hp
    · rename_i hne
      rw [if_neg hne]
      exact hfixed o ho hp

variable (hr : (s.ctx c).run r.ser = some r)
include hr

/-- The end of a tile of a context whose row counts are all fixed. -/
theorem endTile_ctx : (s.endTile n c r.ser).ctx c = { (s.ctx c).tileEnded r with
    runs := ((s.ctx c).tileEnded r).runs.map fun q =>
      if q.phase == .started then q.recall ((s.ctx c).tileEnded r) ((s.tileEnded n c r).ch ((s.ctx c).tileEnded r).chan) else q } := by
  rw [endTile_eq hr, markDone_ctx, tileEnded_fixCounts hre hfixed, State.recallRuns, State.modCtx, State.setCtx_ctx_same,
    State.setCtx_ctx_same]
  rfl

theorem endTile_due : ((s.endTile n c r.ser).ch n).due = ((s.tileEnded n c r).ch n).due := by
  rw [endTile_eq hr, markDone_due, tileEnded_fixCounts hre hfixed, State.recallRuns, State.modCtx, State.setCtx_ch, State.setCtx_ch]

/-- The run whose tile has ended. -/
theorem tileEnded_mem : r.tileEnded (s.ctx c) ∈ ((s.endTile n c r.ser).ctx c).runs := by
  rw [endTile_ctx hre hfixed hr]
  refine List.mem_map.mpr ⟨r.tileEnded (s.ctx c), List.mem_map.mpr ⟨r, mem_of_run hr, ?_⟩, ?_⟩
  · rw [if_pos (beq_self_eq_true r.ser)]
  · rfl

end

end Sys2Proof.Machine
end

section
/-! SUPPORT. What follows the end of a tile comes at t_e + 2 or later (Table 3-3, Table 5-2, Table 8-4, R164). -/
namespace Sys2Proof.Machine
open Sys2Proof.Safety

/-! ### The greatest of some cycles -/

/-- The greatest of a bound and of the entries of a list that meet a test. -/
theorem foldl_max_if {α : Type} (P : α → Prop) [DecidablePred P] (f : α → Nat) (l : List α) (m : Nat) :
    let v := l.foldl (fun m a => if P a then max m (f a) else m) m
    m ≤ v ∧ (v = m ∨ ∃ a ∈ l, P a ∧ v = f a) ∧ ∀ a ∈ l, P a → f a ≤ v := by
  induction l generalizing m with
  | nil => exact ⟨Nat.le_refl _, .inl rfl, fun _ h => nomatch h⟩
  | cons a l ih =>
    obtain ⟨hle, heq, hall⟩ := ih (if P a then max m (f a) else m)
    rw [List.foldl_cons]
    generalize l.foldl (fun m a => if P a then max m (f a) else m) (if P a then max m (f a) else m) = v at hle heq hall
    by_cases hp : P a
    · rw [if_pos hp] at hle heq
      refine ⟨(Nat.le_max_left ..).trans hle, ?_, ?_⟩
      · rcases heq with rfl | ⟨q, hq, hpq, rfl⟩
        · rcases Nat.le_total m (f a) with h | h
          · exact .inr ⟨a, List.mem_cons_self, hp, Nat.max_eq_right h⟩
          · exact .inl (Nat.max_eq_left h)
        · exact .inr ⟨q, List.mem_cons_of_mem _ hq, hpq, rfl⟩
      · rw [List.forall_mem_cons]
        exact ⟨fun _ => (Nat.le_max_right ..).trans hle, hall⟩
    · rw [if_neg hp] at hle heq
      refine ⟨hle, ?_, ?_⟩
      · rcases heq with rfl | ⟨q, hq, hpq, rfl⟩
        · exact .inl rfl
        · exact .inr ⟨q, List.mem_cons_of_mem _ hq, hpq, rfl⟩
      · rw [List.forall_mem_cons]
        exact ⟨fun h => absurd h hp, hall⟩

theorem le_foldl_max (l : List Nat) (m : Nat) : m ≤ l.foldl max m ∧ ∀ a ∈ l, a ≤ l.foldl max m := by
  obtain ⟨hle, -, hall⟩ := foldl_max_if (fun _ => True) (fun a : Nat => a) l m
  simp only [if_true, true_imp_iff] at hle hall
  exact ⟨hle, hall⟩

/-! ### Cycles of a tile that has ended -/

section
variable (r : Run)

theorem le_commitCycle : r.tEnd + 2 ≤ r.commitCycle := by
  unfold Run.commitCycle
  split
  · exact Nat.le_max_right ..
  · exact Nat.le_max_right ..

theorem le_commitDone : r.commitAt ≤ r.commitDone := Nat.le_add_right ..

theorem le_unitCommit (n : Units) (k : Nat) : r.tEnd + 2 ≤ r.unitCommit n k :=
  (foldl_max_if (fun row => (n.unit (r.base.getD 0 + row) == n.unit k) = true) r.rowCommit (List.range r.rows) (r.tEnd + 2)).1

theorem serviceCommit_spec (q : Nat) : r.tEnd + 2 ≤ r.serviceCommit q
    ∧ (r.serviceCommit q = r.tEnd + 2
      ∨ ∃ i < r.rows, (r.base.getD 0 + i) / r.prog.sampleW.s = q ∧ r.serviceCommit q = Tbl.look 0 r.rowU i + 1)
    ∧ ∀ i < r.rows, (r.base.getD 0 + i) / r.prog.sampleW.s = q → Tbl.look 0 r.rowU i + 1 ≤ r.serviceCommit q := by
  have h := foldl_max_if (fun row => (r.base.getD 0 + row) / r.prog.sampleW.s = q) (fun row => Tbl.look 0 r.rowU row + 1) (List.range r.rows)
    (r.tEnd + 2)
  simp only [List.mem_range] at h
  exact h

theorem le_closing : ∀ k ∈ r.closings, r.tEnd + 2 ≤ k.w := by
  intro k hk
  unfold Run.closings at hk
  split at hk
  · cases hk
  · obtain ⟨row, -, hrow⟩ := List.mem_flatMap.mp hk
    obtain ⟨g, -, rfl⟩ := List.mem_map.mp hrow
    dsimp only
    split
    · exact le_unitCommit ..
    · exact le_commitCycle r

theorem le_servicePart : ∀ k ∈ r.serviceParts, r.tEnd + 2 ≤ k.w := by
  intro k hk
  obtain ⟨row, -, rfl⟩ := List.mem_map.mp hk
  exact (serviceCommit_spec r _).1

theorem le_turnLast (q : Nat) : r.tEnd + 2 ≤ r.turnLast q := (Nat.le_add_right ..).trans (Nat.le_add_right ..)

end

/-! ### Held beats that a tile emits -/

theorem mem_insertHeld {e q : HeldBeat × List HElem} {l : List (HeldBeat × List HElem)} : q ∈ insertHeld e l ↔ q = e ∨ q ∈ l := by
  induction l with
  | nil => exact List.mem_cons
  | cons a l ih =>
    rw [insertHeld]
    split
    · exact List.mem_cons
    · rw [List.mem_cons, ih, List.mem_cons]
      exact or_left_comm

/-- A held beat that a tile emits has elements that are ripe. -/
theorem ripe_of_emissions {x : Ctx} {r : Run} {e : HeldBeat × List HElem} (h : e ∈ x.emissions r) : e.2 = e.1.ripe r ∧ e.2 ≠ [] := by
  have hfold : ∀ es acc : List (HeldBeat × List HElem), e ∈ es.foldl (fun l e => insertHeld e l) acc → e ∈ es ∨ e ∈ acc := by
    intro es
    induction es with
    | nil => exact fun acc h => .inr h
    | cons a es ih =>
      intro acc h
      rcases ih _ h with h | h
      · exact .inl (List.mem_cons_of_mem _ h)
      · rcases mem_insertHeld.mp h with rfl | h
        · exact .inl List.mem_cons_self
        · exact .inr h
  have hmem : e ∈ ((x.held.filter fun b => b.psel == r.w.psel && b.run ≤ r.ser).map fun b => (b, b.ripe r)).filter fun e => !e.2.isEmpty := by
    unfold Ctx.emissions at h
    dsimp only at h
    split at h
    · exact h
    · exact (hfold _ _ h).resolve_right List.not_mem_nil
  obtain ⟨hmap, hne⟩ := List.mem_filter.mp hmem
  obtain ⟨b, -, rfl⟩ := List.mem_map.mp hmap
  refine ⟨rfl, fun hnil => ?_⟩
  rw [hnil] at hne
  cases hne

theorem le_outCommit {x : Ctx} {r : Run} {e : HeldBeat × List HElem} (h : e ∈ x.emissions r) : r.tEnd + 2 ≤ r.outCommit e := by
  obtain ⟨hripe, hne⟩ := ripe_of_emissions h
  unfold Run.outCommit
  cases hmask : r.prog.hdr.mask with
  | true =>
    rw [if_pos rfl]
    omega
  | false =>
    rw [if_neg Bool.false_ne_true]
    cases hu : r.prog.units with
    | none =>
      rw [HeldBeat.ripe, hmask, if_neg Bool.false_ne_true, hu] at hripe
      exact absurd hripe hne
    | some n =>
      obtain ⟨a, l, hal⟩ := List.exists_cons_of_ne_nil hne
      have hmem : r.unitCommit n (e.1.base + a.row) ∈ e.2.map fun a => r.unitCommit n (e.1.base + a.row) :=
        List.mem_map_of_mem (hal ▸ List.mem_cons_self)
      exact (le_unitCommit r n _).trans ((le_foldl_max _ 0).2 _ hmem)

/-! ### What is due -/

theorem endEvents_later {r : Run} (c : Nat) (hcommit : r.tEnd + 2 ≤ r.commitAt) (houts : ∀ e ∈ r.outs, r.tEnd + 2 ≤ r.outCommit e) :
    ∀ e ∈ r.endEvents c, r.tEnd + 2 ≤ e.cc := by
  unfold Run.endEvents
  dsimp only
  simp only [List.forall_mem_append]
  refine ⟨⟨⟨⟨?_, ?_⟩, ?_⟩, ?_⟩, ?_⟩
  · rw [List.forall_mem_singleton]
    exact hcommit.trans (le_commitDone r)
  · split
    · rw [List.forall_mem_map]
      exact le_servicePart r
    · exact fun _ h => nomatch h
  · split
    · exact fun _ h => nomatch h
    · split
      · intro e he
        obtain ⟨q, -, hq⟩ := List.mem_flatMap.mp he
        have := le_turnLast r q
        simp only [List.mem_cons, List.not_mem_nil, or_false] at hq
        rcases hq with rfl | rfl
        · exact this
        · dsimp only
          omega
      · rw [List.forall_mem_map]
        exact fun k hk => (le_closing r k hk).trans (Nat.le_add_right ..)
  · intro e he
    obtain ⟨jo, hjo, hq⟩ := List.mem_flatMap.mp he
    have := houts jo.2 (List.of_mem_zip hjo).2
    simp only [List.mem_cons, List.not_mem_nil, or_false] at hq
    rcases hq with rfl | rfl
    · exact this
    · dsimp only
      omega
  · split
    · exact fun _ h => nomatch h
    · rw [List.forall_mem_singleton]
      dsimp only
      omega

/-- The fault that is recorded is one of those that there are. -/
theorem mem_of_firstUse {us : List Use} {u : Use} (h : firstUse us = some u) : u ∈ us := by
  have hfold : ∀ (l : List Use) (m : Option Use),
      l.foldl (fun m u => match m with | none => some u | some v => if u.before v then some u else some v) m = some u → u ∈ l ∨ m = some u := by
    intro l
    induction l with
    | nil => exact fun m h => .inr h
    | cons a l ih =>
      intro m h
      rcases ih _ h with h | h
      · exact .inl (List.mem_cons_of_mem _ h)
      · cases m with
        | none => exact .inl (Option.some.inj h ▸ List.mem_cons_self)
        | some v =>
          dsimp only at h
          split at h
          · exact .inl (Option.some.inj h ▸ List.mem_cons_self)
          · exact .inr h
  exact (hfold us none h).resolve_right fun h => nomatch h

theorem endWork_later (r : Run) (x : Ctx) (c : Nat) (h : Channel) : ∀ e ∈ r.endWork x c h, r.tEnd + 2 ≤ e.cc := by
  rw [Run.endWork, List.forall_mem_append]
  constructor
  · refine endEvents_later (r := r.tileEnded x) c (le_commitCycle r) fun e he => ?_
    change e ∈ if r.emitsHeld then x.emissions r else [] at he
    split at he
    · exact le_outCommit he
    · cases he
  · have huse : ∀ us : List Use, (∀ u ∈ us, u.cc = r.tEnd + 2) → ∀ e ∈ (r.tileEnded x).useFaults c us, r.tEnd + 2 ≤ e.cc := by
      intro us hus e he
      unfold Run.useFaults at he
      split at he
      · rename_i u hu
        rw [List.mem_singleton.mp he]
        exact (hus u (mem_of_firstUse hu)).ge
      · cases he
    refine huse _ fun u hu => ?_
    split at hu
    · unfold Ctx.turnUses at hu
      split at hu
      · rw [List.mem_singleton.mp hu]
        rfl
      · cases hu
    · cases hu

end Sys2Proof.Machine
end

section
/-! SUPPORT. Whether a channel serves contexts does not change as time passes (R340, R352, R383): no effect of its work turns it on or off,
and none stops its clock. -/
namespace Sys2Proof.Machine
open Sys2Proof.Safety

/-- Every channel that served contexts serves them, and no other does. -/
structure ServesStay (s t : State) : Prop where
  serves : ∀ n, (t.ch n).serves = (s.ch n).serves

theorem ServesStay.refl (s : State) : ServesStay s s := ⟨fun _ => rfl⟩

/-- The last of two operations first, so that it says what the first one is. -/
theorem ServesStay.after {s t u : State} (k : ServesStay t u) (h : ServesStay s t) : ServesStay s u :=
  ⟨fun n => (k.serves n).trans (h.serves n)⟩

theorem ServesStay.ite {p : Prop} [Decidable p] {s a b : State} (ha : ServesStay s a) (hb : ServesStay s b) :
    ServesStay s (if p then a else b) := by
  split
  · exact ha
  · exact hb

theorem ServesStay.foldl {α : Type} {f : State → α → State} (hf : ∀ s a, ServesStay s (f s a)) (l : List α) (s : State) :
    ServesStay s (l.foldl f s) :=
  foldl_keeps (P := ServesStay s) (fun t a h => (hf t a).after h) l s (ServesStay.refl s)

theorem ServesStay.setCtx {s : State} {c : Nat} {x : Ctx} : ServesStay s (s.setCtx c x) := ⟨fun _ => rfl⟩

theorem ServesStay.modCtx {s : State} {c : Nat} {f : Ctx → Ctx} : ServesStay s (s.modCtx c f) := ⟨fun _ => rfl⟩

theorem ServesStay.setCh {s : State} {n : Nat} {h : Channel} (hh : h.serves = (s.ch n).serves := by rfl) : ServesStay s (s.setCh n h) := by
  refine ⟨fun m => ?_⟩
  by_cases e : m = n
  · rw [e, State.setCh_ch_same, hh]
  · rw [State.setCh_ch_other _ _ _ _ e]

theorem ServesStay.modCh {s : State} {n : Nat} {f : Channel → Channel} (hf : ∀ h, (f h).serves = h.serves := by exact fun _ => rfl) :
    ServesStay s (s.modCh n f) := .setCh (hf _)

theorem Cancels.servesStay {c : Nat} {s t : State} (h : Cancels c s t) : ServesStay s t :=
  ⟨fun n => (congrArg Channel.serves (h.ch n) :)⟩

theorem HomesQueued.servesStay {n : Nat} {as : List FeltAcc} {s t : State} (h : HomesQueued n as s t) : ServesStay s t := by
  refine ⟨fun m => ?_⟩
  by_cases e : m = n
  · subst e
    exact (congrArg Channel.serves h.chan :)
  · rw [h.chans m e]

/-! ### Channels -/

section
variable (h : Channel)

theorem abandonedCh_serves (c : Nat) (sers : List Nat) : (h.abandoned c sers).serves = h.serves :=
  (congrArg Channel.serves (abandonedCh_frame h c sers) :)

theorem dropShadows_serves (p : Nat → Bool) : (h.dropShadows p).serves = h.serves := (congrArg Channel.serves (dropShadows_frame h p) :)

/-- Steps that each leave whether a channel serves leave it together. -/
theorem foldl_serves {α : Type} {f : Channel → α → Channel} (hf : ∀ g a, (f g a).serves = g.serves) (l : List α) :
    (l.foldl f h).serves = h.serves :=
  foldl_keeps (P := fun g : Channel => g.serves = h.serves) (fun g a e => (hf g a).trans e) l h rfl

theorem setReam_serves (p : Nat) (r : ReamCell) : (h.setReam p r).serves = h.serves := rfl

theorem setShadow_serves (p run u : Nat) (d : RPart) : (h.setShadow p run u d).serves = h.serves := rfl

theorem feedRow_serves (e : Env) (w : IWord) (n : Units) (u : Nat) (xs : List Arr) {q : Channel × List Off}
    (hq : feedRow e h w n u xs = some q) : q.1.serves = h.serves := by
  unfold feedRow at hq
  extract_lets p base at hq
  split at hq
  · cases hq
  · extract_lets ds put at hq
    clear_value ds
    split at hq
    · split at hq
      · split at hq
        · cases hq
          exact (setShadow_serves ..).trans ((setShadow_serves ..).trans (setShadow_serves ..))
        · cases hq
      · split at hq
        · cases hq
          exact (setShadow_serves ..).trans (setShadow_serves ..)
        · cases hq
          exact (setShadow_serves ..).trans (setShadow_serves ..)
    · cases hq

theorem feedAll_serves (e : Env) (u : Nat) (xs : List Arr) {q : Channel × List Off} (hq : feedAll e h u xs = some q) : q.1.serves = h.serves := by
  unfold feedAll at hq
  split at hq
  · refine foldl_keeps (P := fun acc : Option (Channel × List Off) => ∀ q, acc = some q → q.1.serves = h.serves) (fun acc rg k => ?_) _
      (some (h, [])) (fun q e => by cases e; rfl) q hq
    intro q hq
    split at hq
    · cases hq
    · rename_i g os
      obtain ⟨r, hr, e⟩ := Option.map_eq_some_iff.mp hq
      subst e
      exact (feedRow_serves g _ _ _ _ _ hr).trans (k (g, os) rfl)
  · cases hq
    rfl

theorem importRecord_serves (e : Env) (g : IngW) (q : CouchBeat) (first u : Nat) (k : Channel × Option Nat) (j : Nat) :
    (importRecord e g q first u k j).1.serves = k.1.serves := by
  unfold importRecord
  split
  · split
    · rfl
    · split
      · split
        · rfl
        · split
          · rfl
          · rfl
      · rfl
  · rfl

theorem commitShadows_serves (ser : Nat) (p : Nat → Bool) : (h.commitShadows ser p).1.serves = h.serves := by
  unfold Channel.commitShadows
  refine foldl_keeps (P := fun acc : Channel × Flags => acc.1.serves = h.serves) (fun acc e k => ?_) _ (h, flNone) rfl
  dsimp only
  split
  · split
    · exact k
    · exact k
  · exact k

end

section
variable {s : State}

/-! ### Flags, faults and slots -/

theorem servesStay_raise (c : Nat) (f : Flags) : ServesStay s (s.raise c f) := .after .modCh .modCtx

theorem servesStay_offend (c p : Nat) (os : List Off) : ServesStay s (s.offend c p os) := by
  unfold State.offend
  dsimp only
  split
  · exact .after .modCtx (servesStay_raise ..)
  · exact servesStay_raise ..

theorem servesStay_abandon (c : Nat) : ServesStay s (s.abandon c) :=
  (cancels_abandon s c).servesStay.after (.after .setCtx (.setCh (abandonedCh_serves ..)))

theorem servesStay_settleSlots (c : Nat) : ServesStay s (s.settleSlots c) :=
  .ite (.refl s) .modCtx

theorem servesStay_tev (t b : Nat) : ServesStay s (s.tev t b) := ⟨fun _ => rfl⟩

theorem servesStay_fault (c code : Nat) (iflt : BitVec 64) : ServesStay s (s.fault c code iflt) := by
  unfold State.fault
  extract_lets x enters cc u v
  have hu : ServesStay s u := .ite (.refl s) ((servesStay_settleSlots c).after (servesStay_abandon c))
  have hv : ServesStay u v := .setCtx
  exact .ite (.refl s) (.ite ((servesStay_tev ..).after (hv.after hu)) (hv.after hu))

theorem servesStay_ifault (c : Nat) (o : Bool) (src word opcode flsb : Nat) : ServesStay s (s.ifault c o src word opcode flsb) :=
  servesStay_fault ..
theorem servesStay_operand (c : Nat) (r : Run) (word flsb : Nat) : ServesStay s (s.operand c r word flsb) := servesStay_ifault ..
theorem servesStay_siteFault (c : Nat) (t : Site) (w : IWord) (flsb : Nat) : ServesStay s (s.siteFault c t w flsb) :=
  servesStay_ifault ..

theorem servesStay_settleState (c : Nat) : ServesStay s (s.settleState c) :=
  .ite .setCtx (.refl s)

theorem servesStay_modRun (c ser : Nat) (f : Run → Run) : ServesStay s (s.modRun c ser f) := .modCtx

theorem servesStay_releaseGroups (c cc : Nat) : ServesStay s (s.releaseGroups c cc) := .ite (.refl s) .modCh

theorem servesStay_present (c : Nat) (run : Option Nat) (bs : List ReelBeat) : ServesStay s (s.present c run bs) :=
  .ite (.refl s) .modCh

/-! ### Ream and Loft words -/

theorem servesStay_actRclr (c : Nat) (t : Site) (w : IWord) : ServesStay s (s.actRclr c t w) := by
  unfold State.actRclr
  dsimp only
  split
  · exact .ite (servesStay_siteFault ..) (.setCh (foldl_serves _ (by exact fun _ _ => rfl) _))
  · exact servesStay_siteFault ..

theorem servesStay_actRexp (c : Nat) (t : Site) (w : IWord) : ServesStay s (s.actRexp c t w) := by
  unfold State.actRexp
  dsimp only
  split
  · exact servesStay_siteFault ..
  · exact .ite (servesStay_siteFault ..) (servesStay_present ..)

theorem servesStay_actRclose (c : Nat) (t : Site) (w : IWord) : ServesStay s (s.actRclose c t w) := by
  unfold State.actRclose
  dsimp only
  split
  · exact servesStay_siteFault ..
  · refine .ite (servesStay_siteFault ..) (.ite (servesStay_siteFault ..) (.ite ?_ ?_))
    · exact .after .modCh (.after .modCtx .modCh)
    · exact (servesStay_present ..).after .modCh

theorem servesStay_act (c : Nat) (t : Site) (w : IWord) : ServesStay s (s.act c t w) := by
  unfold State.act
  split
  · exact servesStay_actRclr ..
  · exact servesStay_actRexp ..
  · exact servesStay_actRclose ..
  · exact .ite (servesStay_siteFault ..) .modCh
  · exact .ite (servesStay_siteFault ..) .modCh
  · exact .refl s

theorem servesStay_actWords (c : Nat) (r : Run) (l : List Nat) : ∀ s : State, ServesStay s (s.actWords c r l).1 := by
  induction l with
  | nil => exact fun s => .refl s
  | cons i is ih =>
    intro s
    unfold State.actWords
    dsimp only
    split
    · exact .refl s
    · split
      · exact .refl s
      · exact (ih _).after (servesStay_act ..)

/-! ### Work that goes on -/

theorem servesStay_markDone (c ser : Nat) : ServesStay s (s.markDone c ser) := by
  unfold State.markDone
  dsimp only
  split
  · exact .ite .modCh (.refl s)
  · exact .refl s

theorem servesStay_settleAfter (c : Nat) : ServesStay s (s.settleAfter c) :=
  .foldl (fun s r => (servesStay_markDone ..).after ((servesStay_modRun ..).after (servesStay_actWords c r r.after s))) _ _

theorem servesStay_recallRuns (c : Nat) : ServesStay s (s.recallRuns c) := .modCtx

theorem servesStay_fixCounts (c : Nat) : ServesStay s (s.fixCounts c) := by
  refine (servesStay_recallRuns c).after (.after (.foldl (fun s q => ?_) _ _) .modCtx)
  dsimp only
  split
  · exact .refl s
  · refine .ite ?_ (.refl s)
    split
    · exact (servesStay_operand ..).after (servesStay_modRun ..)
    · exact servesStay_modRun ..

theorem servesStay_settleDirects (c fuel : Nat) : ∀ s : State, ServesStay s (s.settleDirects c fuel) := by
  induction fuel with
  | zero => exact fun s => .refl s
  | succ n ih =>
    intro s
    unfold State.settleDirects
    dsimp only
    split
    · exact .refl s
    · exact .ite ((ih _).after ((servesStay_act ..).after .modCtx)) (.refl s)

theorem servesStay_settle (c : Nat) : ServesStay s (s.settle c) := by
  unfold State.settle
  exact (servesStay_settleState c).after ((servesStay_settleDirects ..).after ((servesStay_fixCounts c).after
    ((servesStay_settleSlots c).after ((servesStay_settleAfter c).after (servesStay_recallRuns c)))))

theorem servesStay_reelEnds (c ser cc : Nat) : ServesStay s (s.reelEnds c ser cc) := by
  unfold State.reelEnds
  dsimp only
  split
  · exact .ite ((servesStay_releaseGroups ..).after (servesStay_modRun ..)) (.refl s)
  · exact .refl s

/-! ### A tile -/

theorem servesStay_feed (n c : Nat) (r : Run) (els : List HElem) : ServesStay s (s.feed n c r els) := by
  unfold State.feed
  dsimp only
  split
  · rename_i hq
    exact (servesStay_offend ..).after (.setCh (feedAll_serves _ _ _ _ hq))
  · exact servesStay_operand ..

theorem servesStay_imports (n c : Nat) (r : Run) (b : CouchBeat) (first : Nat) : ServesStay s (s.imports n c r b first) := by
  unfold State.imports
  split
  · exact .refl s
  · rename_i i w _
    have k : ((List.range b.nrec.toNat).foldl (importRecord ⟨s.ctx c, r⟩ (IngW.ofWord w) b first (s.ch n).cyc) (s.ch n, none)).1.serves
        = (s.ch n).serves :=
      foldl_keeps (P := fun acc : Channel × Option Nat => acc.1.serves = (s.ch n).serves)
        (fun acc j e => (importRecord_serves _ _ _ _ _ acc j).trans e) _ _ rfl
    split
    · rename_i hq
      rw [hq] at k
      exact .setCh k
    · exact servesStay_operand ..

theorem servesStay_endTile (n c ser : Nat) : ServesStay s (s.endTile n c ser) := by
  unfold State.endTile
  extract_lets x h
  split
  · exact .refl s
  · extract_lets r rel h1 turn u v
    have h1cyc : h1.serves = (s.ch n).serves := by
      show (if rel then r.readIdx.foldl (fun h i => h.release c i 1) h else h).serves = _
      split
      · exact foldl_serves h (by exact fun _ _ => rfl) _
      · rfl
    exact (servesStay_markDone ..).after ((servesStay_fixCounts c).after (.after .modCtx (.setCh h1cyc)))

theorem servesStay_tileCheck (n c ser pseq : Nat) : ServesStay s (s.tileCheck n c ser pseq) := by
  unfold State.tileCheck
  split
  · exact .ite (servesStay_endTile ..) ((servesStay_fault ..).after (servesStay_raise ..))
  · exact .refl s

theorem servesStay_commitShadows (n c ser : Nat) (p : Nat → Bool) : ServesStay s (s.commitShadows n c ser p) :=
  (servesStay_raise ..).after (.setCh (commitShadows_serves ..))

theorem servesStay_readsEnd (n c ser : Nat) : ServesStay s (s.readsEnd n c ser) := by
  unfold State.readsEnd
  split
  · exact .ite .modCtx (.refl s)
  · exact .refl s

theorem servesStay_closed (n c : Nat) (r : Run) (k : Closes) : ServesStay s (s.closed n c r k) := by
  unfold State.closed
  dsimp only
  exact .after .modCh .modCtx

theorem servesStay_addLoss (n c p v row pseq : Nat) (iflt : BitVec 64) : ServesStay s (s.addLoss n c p v row pseq iflt) := by
  unfold State.addLoss
  dsimp only
  exact .ite (servesStay_fault ..) ((servesStay_offend ..).after .modCh)

theorem servesStay_sampleClose (n c : Nat) (r : Run) (k : Closing) : ServesStay s (s.sampleClose n c r k) := by
  unfold State.sampleClose
  dsimp only
  exact .after .modCtx .modCh

theorem servesStay_commitSample (n c : Nat) (r : Run) (k : Closing) : ServesStay s (s.commitSample n c r k) := by
  unfold State.commitSample
  extract_lets w u
  have hu : ServesStay s u := .modCh
  exact .ite ((servesStay_sampleClose ..).after hu) hu

theorem servesStay_closeUnit (n c ser : Nat) (k : Closing) : ServesStay s (s.closeUnit n c ser k) := by
  unfold State.closeUnit
  split
  · exact .refl s
  · exact .ite (servesStay_commitSample ..)
      ((servesStay_settle c).after ((servesStay_closed ..).after (servesStay_commitShadows ..)))

theorem servesStay_turn (n c ser q : Nat) : ServesStay s (s.turn n c ser q) := by
  unfold State.turn
  split
  · exact .refl s
  · exact .ite (servesStay_operand ..) (.foldl (fun s row => (servesStay_offend ..).after .setCh) _ _)

theorem servesStay_turnClose (n c ser q : Nat) : ServesStay s (s.turnClose n c ser q) := by
  unfold State.turnClose
  split
  · exact .refl s
  · exact (servesStay_closed ..).after (.setCh (foldl_serves _ (fun _ _ => (setReam_serves ..).trans (setReam_serves ..)) _))

theorem servesStay_reserve (n c ser j : Nat) : ServesStay s (s.reserve n c ser j) := by
  unfold State.reserve
  split
  · exact .refl s
  · split
    · exact .refl s
    · refine .ite ?_ ?_
      · unfold State.putOff
        exact .modCh
      · exact .after .modCtx (.after .modCh (.after .modCh .setCh))

theorem servesStay_carryLeaves (n c : Nat) (r : Run) (held rows : Nat) (ccs : List Nat) :
    ServesStay s (s.carryLeaves n c r held rows ccs) := by
  unfold State.carryLeaves
  dsimp only
  exact .after .modCtx ((servesStay_present ..).after .modCh)

theorem servesStay_emitHeld (n c ser j : Nat) : ServesStay s (s.emitHeld n c ser j) := by
  unfold State.emitHeld
  split
  · exact .refl s
  · split
    · exact .refl s
    · dsimp only
      refine (servesStay_reelEnds ..).after ((servesStay_markDone ..).after ((servesStay_readsEnd ..).after ?_))
      generalize hs : State.present _ c (some ser) _ = u
      have hu : ServesStay s u := by
        rw [← hs]
        exact (servesStay_present ..).after (.after .modCtx .modCh)
      split
      · exact (servesStay_carryLeaves ..).after hu
      · exact hu

theorem servesStay_commit (n c ser : Nat) : ServesStay s (s.commit n c ser) := by
  unfold State.commit
  split
  · exact .refl s
  · rename_i r _
    split
    · exact .refl s
    · extract_lets u v w z
      have hu : ServesStay s u := servesStay_commitShadows ..
      have hv : ServesStay u v := .ite (servesStay_closed ..) (.refl u)
      have hw : ServesStay v w := .modCtx
      have hz : ServesStay w z := .ite (servesStay_carryLeaves ..) (.refl w)
      exact (servesStay_reelEnds ..).after ((servesStay_settle c).after ((servesStay_markDone ..).after
        ((servesStay_readsEnd ..).after (hz.after (hw.after (hv.after hu))))))

/-! ### Time -/

theorem servesStay_later (n : Nat) (e : Later) : ServesStay s (s.later n e) := by
  unfold State.later
  dsimp only
  split
  · exact servesStay_offend ..
  · exact servesStay_fault ..
  · exact servesStay_tileCheck ..
  · split
    · exact servesStay_feed ..
    · exact .refl s
  · split
    · exact servesStay_imports ..
    · exact .refl s
  · exact servesStay_commit ..
  · exact servesStay_closeUnit ..
  · exact servesStay_reserve ..
  · exact servesStay_emitHeld ..
  · exact servesStay_turn ..
  · exact servesStay_turnClose ..
  · exact .modCtx
  · exact servesStay_addLoss ..
  · exact (servesStay_settle _).after .modCtx
  · exact .modCh
  · exact (foldl_queueHome_homesQueued _ _ s).servesStay
  · exact (servesStay_settle _).after (.modCh (dropShadows_serves · _))
  · exact (servesStay_reelEnds ..).after (servesStay_settle _)

theorem servesStay_settleTo (n cc rank fuel : Nat) : ∀ s : State, ServesStay s (s.settleTo n cc rank fuel) := by
  induction fuel with
  | zero => exact fun s => .refl s
  | succ k ih =>
    intro s
    unfold State.settleTo
    split
    · exact .refl s
    · exact .ite ((ih _).after ((servesStay_later ..).after .modCh)) (.refl s)

theorem still_serves (h : Channel) : h.still.serves = h.serves := rfl

theorem servesStay_endCc (n j : Nat) : ServesStay s (s.endCc n j) := by
  refine ⟨fun m => ?_⟩
  by_cases hm : m = n
  · rw [hm, ← still_serves, endCc_still, still_serves]
  · rw [endCc_ch_other hm]

theorem servesStay_passFor (n cc rank fuel : Nat) : ∀ s : State, ServesStay s (s.passFor n cc rank fuel) := by
  induction fuel with
  | zero => exact fun s => .refl s
  | succ k ih =>
    intro s
    unfold State.passFor
    refine .ite (.refl s) ?_
    extract_lets t u
    have hu : ServesStay s u := servesStay_endCc n _
    exact (ih _).after (.after (.ite (servesStay_settleTo ..) (servesStay_settleTo ..)) hu)

theorem servesStay_pass (n cc : Nat) : ServesStay s (s.pass n cc) :=
  .ite ((servesStay_settleTo ..).after (servesStay_passFor ..)) (.refl s)

theorem servesStay_couchPoint (n : Nat) : ServesStay s (couchPoint s n) :=
  (servesStay_pass ..).after (.ite (servesStay_pass ..) (.refl s))

end

end Sys2Proof.Machine
end

section
/-! SUPPORT. Couch at its point, by the verdict on the one beat that may be presented (R282, R315, R318, R321, R324). -/
namespace Sys2Proof.Machine
open Sys2Proof.Safety

/-! ### What judges a beat keeps -/

section
variable {c : Nat} {s t : State} (h : Judged c s t)
include h

theorem Judged.flags : (t.ctx c).flags = (s.ctx c).flags := (congrArg Ctx.flags h.same :)
theorem Judged.held : (t.ctx c).held = (s.ctx c).held := (congrArg Ctx.held h.same :)
theorem Judged.ten : (t.ctx c).ten = (s.ctx c).ten := (congrArg Ctx.ten h.same :)
theorem Judged.lgmask : (t.ctx c).lgmask = (s.ctx c).lgmask := (congrArg Ctx.lgmask h.same :)
theorem Judged.stallPace : (t.ctx c).stallPace = (s.ctx c).stallPace := (congrArg Ctx.stallPace h.same :)
theorem Judged.serves (n : Nat) : (t.ch n).serves = (s.ch n).serves := (congrArg Channel.serves (h.ch n) :)
theorem Judged.dPstall (n : Nat) : (t.ch n).dPstall = (s.ch n).dPstall := (congrArg Channel.dPstall (h.ch n) :)

end

section
variable {q r : Run} (h : q.Picks r)
include h

theorem Run.Picks.ser : r.ser = q.ser := (congrArg Run.ser h.same :)
theorem Run.Picks.beats : r.beats = q.beats := (congrArg Run.beats h.same :)
theorem Run.Picks.prog : r.prog = q.prog := (congrArg Run.prog h.same :)

end

theorem nextCells_congr {x y : Ctx} (h : y.lgmask = x.lgmask) (r : Run) : r.nextCells y = r.nextCells x := by
  rw [Run.nextCells, Run.nextCells, h]

theorem takeBeat_couch (h : Channel) (ser : Nat) : (h.takeBeat ser).couch = h.couch.filter fun e => e.ser != ser := rfl

/-- The state from which the beat of a candidate is taken. -/
def State.taken (s : State) (n : Nat) (q : Cand) : State := s.modCh n fun h => h.takeBeat q.beat.ser

theorem taken_ctx (s : State) (n : Nat) (q : Cand) (c : Nat) : (s.taken n q).ctx c = s.ctx c := rfl

theorem taken_ch (s : State) (n : Nat) (q : Cand) : (s.taken n q).ch n = (s.ch n).takeBeat q.beat.ser := State.setCh_ch_same ..

theorem taken_keepsAhead (s : State) (n : Nat) (q : Cand) : KeepsAhead s (s.taken n q) := .modCh fun _ h => h

theorem judged_of_verdict {p p' : State} {n : Nat} {q : Cand} {t : Nat} {v : Verdict}
    (hv : p.verdict n q.ctx q.run q.beat.beat t = (p', v)) : Judged q.ctx p p' := by
  have h := judged_verdict p n q.ctx q.run q.beat.beat t
  rwa [hv] at h

theorem picks_of_verdict {p p' : State} {n : Nat} {q : Cand} {t : Nat} {r : Run}
    (hv : p.verdict n q.ctx q.run q.beat.beat t = (p', .go r)) : q.run.Picks r :=
  (goesAs_verdict p n q.ctx q.run q.beat.beat t).go r (congrArg Prod.snd hv)

theorem operand_taken {s : State} {c : Nat} (r : Run) (w f : Nat) (h : (s.ctx c).st = .bound ∨ (s.ctx c).st = .running) :
    FaultTaken c 0x02 (ifltWord true (srcOf r.w.psel) w (opc (r.prog.words.getD w 0)) f) s (s.operand c r w f) := by
  rw [State.operand, State.ifault]
  exact fault_taken fcOperand _ h

theorem faultTaken_shown {s t : State} {c code : Nat} {iflt : BitVec 64} (h : FaultTaken c code iflt s t) (n : Nat) (presented : Bool)
    (ks : List (Nat × Cause)) : FaultTaken c code iflt s (t.shown n presented ks) := h

section
variable {p p' : State} {n : Nat} {q : Cand}
  (hone : (p.cands n).filter (fun q => decide (q.ready ≤ (p.ch n).cyc)) = [q]) (hd : NothingDue (p.ch n) (p.ch n).cyc)
include hone hd

/-! ### A beat that is kept back -/

section
variable {k : Cause} (hv : p.verdict n q.ctx q.run q.beat.beat (p.ch n).cyc = (p', .stall k))
include hv

theorem couch_of_stall : p.couch n = p'.shown n false [(q.ctx, k)] :=
  (couch_stall hone hv).trans (settleDue_shown ((judged_of_verdict hv).keepsAhead.nothingDue n hd) _ _)

/-- A beat that is kept back stays in the buffer, and its context as it is. -/
theorem couch_stall_stays : let t := p.couch n
    (t.ch n).couch = (p.ch n).couch ∧ (t.ch n).cyc = (p.ch n).cyc ∧ (t.ch n).polled = some ⟨false, [(q.ctx, k)]⟩
      ∧ (t.ctx q.ctx).runs = (p.ctx q.ctx).runs ∧ (t.ctx q.ctx).st = (p.ctx q.ctx).st ∧ (t.ctx q.ctx).stallPace = (p.ctx q.ctx).stallPace
      ∧ ∀ e, e ≠ q.ctx → t.ctx e = p.ctx e := by
  have hj := judged_of_verdict hv
  dsimp only
  rw [couch_of_stall hone hd hv, shown_ch, shown_ctx]
  exact ⟨hj.couch n, hj.cyc n, rfl, hj.runs, hj.st, hj.stallPace, fun e he => (shown_ctx ..).trans (hj.others e he)⟩

/-- The cc in which a beat is kept back counts one stall of its context (R321). -/
theorem couch_stall_counts (hs : (p.ch n).serves = true) (hnext : NothingDue (p.ch n) ((p.ch n).cyc + 1)) :
    let t := (p.couch n).pass n ((p.ch n).cyc + 1)
    (t.ctx q.ctx).stallPace = min ((p.ctx q.ctx).stallPace + 1) 0xFFFFFFFF ∧ (t.ch n).dPstall = (p.ch n).dPstall + 1 := by
  have hj := judged_of_verdict hv
  have hserves : ((p'.shown n false [(q.ctx, k)]).ch n).serves = true := by
    rw [shown_ch]
    exact (hj.serves n).trans hs
  have hcyc : ((p'.shown n false [(q.ctx, k)]).ch n).cyc = (p.ch n).cyc := (shown_cyc ..).trans (hj.cyc n)
  have hdue : NothingDue ((p'.shown n false [(q.ctx, k)]).ch n) ((p.ch n).cyc + 1) := by
    rw [shown_ch]
    exact hj.nothingDue hnext
  have hpass := pass_next_of_nothingDue (ticking_of_serves hserves) (by rw [hcyc]; exact hdue)
  obtain ⟨hpace, hstall⟩ := endCc_of_kept hserves (shown_polled ..)
  rw [hcyc] at hpass
  rw [shown_ctx, hj.stallPace] at hpace
  rw [shown_ch] at hstall
  dsimp only
  rw [couch_of_stall hone hd hv, hpass]
  exact ⟨hpace, hstall.trans (congrArg (· + 1) (hj.dPstall n))⟩

end

/-! ### A beat that faults its context -/

theorem couch_operand_faults {w f : Nat} (hv : p.verdict n q.ctx q.run q.beat.beat (p.ch n).cyc = (p', .operand w f))
    (hst : (p.ctx q.ctx).st = .bound ∨ (p.ctx q.ctx).st = .running) :
    FaultTaken q.ctx 0x02 (ifltWord true (srcOf q.run.w.psel) w (opc (q.run.prog.words.getD w 0)) f) p (p.couch n) := by
  have hj := judged_of_verdict hv
  have hahead := ((keepsAhead_operand q.ctx q.run w f).after hj.keepsAhead).nothingDue n hd
  have htaken := operand_taken (s := p') (c := q.ctx) q.run w f (by rw [hj.st]; exact hst)
  rw [couch_operand hone hv, settleDue_shown hahead]
  exact faultTaken_shown (hj.faultTaken htaken) ..

section
variable {r : Run} (hv : p.verdict n q.ctx q.run q.beat.beat (p.ch n).cyc = (p', .go r))
include hv

theorem couch_sequence_faults (hsot : q.beat.beat.sot ≠ (decide (r.beats = 0) && decide (r.records = 0)))
    (hst : (p.ctx q.ctx).st = .bound ∨ (p.ctx q.ctx).st = .running) :
    FaultTaken q.ctx 0x03 0 p (p.couch n) ∧ ((p.couch n).ctx q.ctx).flags = (p.ctx q.ctx).flags ||| flSequence := by
  have hj := judged_of_verdict hv
  have hahead := ((keepsAhead_seqError q.ctx).after ((taken_keepsAhead p' n q).after hj.keepsAhead)).nothingDue n hd
  obtain ⟨htaken, hflags⟩ := seqError_taken (s := p'.taken n q) (c := q.ctx) (by rw [taken_ctx, hj.st]; exact hst)
  have hcouch : p.couch n = ((p'.taken n q).seqError q.ctx).shown n false [] :=
    (couch_sequence hone hv hsot).trans (settleDue_shown hahead _ _)
  rw [hcouch, shown_ctx]
  refine ⟨faultTaken_shown (hj.faultTaken htaken) .., hflags.trans ?_⟩
  rw [taken_ctx, hj.flags]

/-! ### A beat that is presented -/

section
variable (hsot : q.beat.beat.sot = (decide (r.beats = 0) && decide (r.records = 0))) (hchan : (p.ctx q.ctx).chan = n)
  (hlater : ∀ e ∈ r.beatEvents q.ctx q.beat.beat (p.ch n).cyc ((p'.taken n q).beatWork n q.ctx r q.beat.beat (p.ch n).cyc),
    (p.ch n).cyc < e.cc)
include hsot hchan hlater

theorem couch_of_go : p.couch n = ((p'.taken n q).presentBeat n q.ctx r q.beat.beat (p.ch n).cyc).shown n true [] := by
  have hj := judged_of_verdict hv
  have htaken : ((p'.taken n q).ctx q.ctx).chan = n := hj.chan.trans hchan
  have hcyc : ((p'.taken n q).ch n).cyc = (p.ch n).cyc := by
    rw [taken_ch]
    exact hj.cyc n
  have hahead : NothingDue ((p'.taken n q).ch n) (p.ch n).cyc := by
    rw [taken_ch]
    exact hj.nothingDue hd
  have hkept : NothingDue (((p'.taken n q).presentBeat n q.ctx r q.beat.beat (p.ch n).cyc).ch n)
      (((p'.taken n q).presentBeat n q.ctx r q.beat.beat (p.ch n).cyc).ch n).cyc := by
    rw [presentBeat_cyc htaken, hcyc]
    exact presentBeat_nothingDue htaken hahead hlater
  exact (couch_go hone hv hsot).trans (settleDue_shown hkept _ _)

end

end

end

/-! ### What a presented beat leaves -/

section
variable {p p' : State} {n : Nat} {q : Cand} {r : Run} {t : Nat} (hv : p.verdict n q.ctx q.run q.beat.beat t = (p', .go r))
  (hchan : (p.ctx q.ctx).chan = n)
include hv hchan

theorem taken_chan : ((p'.taken n q).ctx q.ctx).chan = n := (judged_of_verdict hv).chan.trans hchan

/-- The channel. -/
theorem presented_ch_leaves : let g := ((p'.taken n q).presentBeat n q.ctx r q.beat.beat t).ch n
    g.couch = (p.ch n).couch.filter (fun e => e.ser != q.beat.ser) ∧ g.cyc = (p.ch n).cyc
      ∧ ∀ e ∈ r.beatEvents q.ctx q.beat.beat t ((p'.taken n q).beatWork n q.ctx r q.beat.beat t), e ∈ g.due := by
  have hj := judged_of_verdict hv
  have htaken := taken_chan hv hchan
  refine ⟨?_, ?_, fun e he => (mem_presentBeat_due htaken).mpr (.inl he)⟩
  · rw [presentBeat_couch htaken, taken_ch, takeBeat_couch, hj.couch]
  · rw [presentBeat_cyc htaken, taken_ch]
    exact hj.cyc n

/-- The results stand in the egress buffer, each in its Reel cycle. -/
theorem results_stand : Stand
    (dated (((p'.taken n q).beatWork n q.ctx r q.beat.beat t).results q.ctx (p.ctx q.ctx).ten r.ser t) (r.reelCycles (p.ctx q.ctx) q.beat.beat.eot t))
    (((p'.taken n q).presentBeat n q.ctx r q.beat.beat t).ch n).egress := by
  have hj := judged_of_verdict hv
  intro o ho
  refine ⟨o, mem_presentBeat_egress (taken_chan hv hchan) (results_mem_reelBeatsOf ?_), rfl⟩
  rw [taken_ctx, hj.ten, reelCycles_congr hj.lgmask]
  exact ho

/-- The results of a program that only converts. -/
theorem results_converted {i : IngW} {o : EgrW} (hc : Converts r.prog i o) {hf j : Nat} {cs : List Cell}
    (hcs : (r.nextCells (p.ctx q.ctx))[hf]? = some cs) (hjlt : j < fmtBeats o.ofmt) :
    ∃ g ∈ (((p'.taken n q).presentBeat n q.ctx r q.beat.beat t).ch n).egress,
      g.due = t + 24 + hf * fmtBeats o.ofmt + j ∧ g.run = some r.ser ∧ g.fmt = o.ofmt ∧ g.half = j ∧ g.route = o.route ∧ g.scv = false
        ∧ ∀ a ∈ cs, a.lane ∈ g.we ∧ slotOf g a.lane = convLane i o q.beat.beat hf a.lane / 65536 ^ j % 65536 := by
  have hcells := nextCells_congr (judged_of_verdict hv).lgmask r
  rw [← taken_ctx p' n q] at hcells
  obtain ⟨g, hg, hleaves⟩ := exists_result (s := p'.taken n q) (n := n) (c := q.ctx) (b := q.beat.beat) (t := t) hc
    (by rw [hcells]; exact hcs) hjlt
  exact ⟨g, mem_presentBeat_egress (taken_chan hv hchan) hg, hleaves⟩

omit hchan

/-- The run of the beat. -/
theorem presented_run_leaves (hq : q ∈ p.cands n) : ∃ v ∈ (((p'.taken n q).presentBeat n q.ctx r q.beat.beat t).ctx q.ctx).runs,
    v.ser = q.run.ser ∧ v.beats = q.run.beats + q.run.prog.halves ∧ v.phase = if q.beat.beat.eot then .checking else .started := by
  have hpick := picks_of_verdict hv
  have hrun : q.run ∈ ((p'.taken n q).ctx q.ctx).runs := by
    rw [taken_ctx, (judged_of_verdict hv).runs]
    exact run_mem_of_cand hq
  rw [presentBeat_ctx_same]
  obtain ⟨v, hmem, hser, hbeats, hphase⟩ :=
    presented_run (b := q.beat.beat) (t := t) hrun hpick.ser.symm (beatWork_run_ser (p'.taken n q) n q.ctx r q.beat.beat t)
  refine ⟨v, hmem, hser, ?_, hphase⟩
  rw [hbeats, beatWork_run_beats, hpick.beats, hpick.prog]

/-- The context: what is held, its state and its flags. -/
theorem presented_ctx_leaves : let y := ((p'.taken n q).presentBeat n q.ctx r q.beat.beat t).ctx q.ctx
    (∀ g ∈ (p.ctx q.ctx).held, g ∈ y.held) ∧ y.st = (p.ctx q.ctx).st ∧ y.flags = (p.ctx q.ctx).flags := by
  have hj := judged_of_verdict hv
  dsimp only
  rw [presentBeat_ctx_same]
  refine ⟨fun g hg => presented_held_keeps _ r _ t _ g ?_, ?_, ?_⟩
  · rw [taken_ctx, hj.held]
    exact hg
  · rw [presented_st, taken_ctx, hj.st]
  · rw [presented_flags, taken_ctx, hj.flags]

theorem presented_others {e : Nat} (he : e ≠ q.ctx) : ((p'.taken n q).presentBeat n q.ctx r q.beat.beat t).ctx e = p.ctx e := by
  rw [presentBeat_ctx_other he, taken_ctx, (judged_of_verdict hv).others e he]

end

end Sys2Proof.Machine
end

section
/-! SUPPORT. The check of a tile-end beat in its cc (R34, R255, R287, R324). -/
namespace Sys2Proof.Machine
open Sys2Proof.Safety

theorem later_check {u : State} {c : Nat} {r : Run} (hr : (u.ctx c).run r.ser = some r) (n t pseq : Nat) :
    u.later n ⟨t, c, some r.ser, .check pseq⟩ = if pseq == r.w.pseq then u.endTile n c r.ser else u.seqError c := by
  have hcheck : u.later n ⟨t, c, some r.ser, .check pseq⟩ = u.tileCheck n c r.ser pseq := rfl
  rw [hcheck, State.tileCheck, hr]

theorem run_of_waits {s u : State} (hw : OnlyWaits s u) (c ser : Nat) : (u.ctx c).run ser = (s.ctx c).run ser := by
  rw [Ctx.run, (congrArg Ctx.runs (hw c).eq :), Ctx.run]

theorem clocksStay_seqError {s : State} (c : Nat) : ClocksStay s (s.seqError c) := (clocksStay_fault ..).after (clocksStay_raise ..)

/-! ### Service rows -/

/-- The next row begins another service row where a row count that it divides has been reached. -/
theorem div_succ_ne {a s : Nat} (h : (a + 1) % s = 0) : (a + 1) / s ≠ a / s := by
  rw [Nat.succ_div, if_pos (Nat.dvd_of_mod_eq_zero h)]
  omega

theorem close_mem_endEvents {r : Run} {c row : Nat} (hmode : r.mode = .sample) (hrow : row < r.rows)
    (hlast : row + 1 = r.rows ∨ (r.base.getD 0 + row + 1) % r.prog.sampleW.s = 0) :
    ⟨r.serviceCommit ((r.base.getD 0 + row) / r.prog.sampleW.s), c, some r.ser,
      .close ⟨row, r.base.getD 0 + row, 0, r.serviceCommit ((r.base.getD 0 + row) / r.prog.sampleW.s)⟩⟩ ∈ r.endEvents c := by
  have hpart : (⟨row, r.base.getD 0 + row, 0, r.serviceCommit ((r.base.getD 0 + row) / r.prog.sampleW.s)⟩ : Closing) ∈ r.serviceParts := by
    refine List.mem_map.mpr ⟨row, List.mem_filter.mpr ⟨List.mem_range.mpr hrow, ?_⟩, rfl⟩
    rw [Bool.or_eq_true, decide_eq_true_iff, bne_iff_ne]
    exact hlast.imp id div_succ_ne
  unfold Run.endEvents
  refine List.mem_append_left _ (List.mem_append_left _ (List.mem_append_left _ (List.mem_append_right _ ?_)))
  rw [hmode, if_pos (by rfl)]
  exact List.mem_map_of_mem hpart

/-! ### The check -/

section
variable {s : State} {n c : Nat} {r : Run} {pseq : Nat} {rest : List Later} (ht : (s.ch n).ticking = true) (hc : (s.ch n).cyc + 1 < 2 ^ 64)
  (hd : (s.ch n).due = ⟨(s.ch n).cyc + 1, c, some r.ser, .check pseq⟩ :: rest) (hrest : ∀ e ∈ rest, (s.ch n).cyc + 1 < e.cc)
  (hr : (s.ctx c).run r.ser = some r)
include ht hc hd hrest hr

/-- A PSEQ that is not the run's. -/
theorem check_faults (hne : pseq ≠ r.w.pseq) (hst : (s.ctx c).st = .bound ∨ (s.ctx c).st = .running) :
    FaultTaken c 0x03 0 s (s.pass n ((s.ch n).cyc + 1))
      ∧ ((s.pass n ((s.ch n).cyc + 1)).ctx c).flags = (s.ctx c).flags ||| flSequence := by
  have hlater : ∀ u, OnlyWaits s u → u.later n ⟨(s.ch n).cyc + 1, c, some r.ser, .check pseq⟩ = u.seqError c := fun u hw => by
    rw [later_check ((run_of_waits hw c r.ser).trans hr), if_neg (by simpa using hne)]
  obtain ⟨u, hw, hten, -, -, hpass⟩ := pass_next_first ht hc hd rfl hrest fun u hw hdue hcyc => by
    have hahead := (keepsAhead_seqError (s := u) c).nothingDue n (by rw [NothingDue, hdue, hcyc]; exact hrest)
    rw [(clocksStay_seqError c).cyc, hcyc] at hahead
    rw [hlater u hw]
    exact hahead
  obtain ⟨htaken, hflags⟩ := seqError_taken (s := u) (c := c) (by rw [(congrArg Ctx.st (hw c).eq :)]; exact hst)
  rw [hpass, hlater u hw]
  refine ⟨faultTaken_of_waits hw hten htaken, hflags.trans ?_⟩
  rw [(congrArg Ctx.flags (hw c).eq :)]

/-- With the run's PSEQ the tile has ended. -/
theorem check_ends (heq : pseq = r.w.pseq) (hend : (s.ch n).cyc + 1 ≤ r.tEnd + 1) (hre : (s.ctx c).restarts = [])
    (hfixed : ∀ q ∈ (s.ctx c).runs, q.phase = .started → q.base ≠ none) :
    ∃ u, OnlyWaits s u ∧ (u.ctx c).run r.ser = some r ∧ (u.ctx c).restarts = []
      ∧ (∀ q ∈ (u.ctx c).runs, q.phase = .started → q.base ≠ none) ∧ s.pass n ((s.ch n).cyc + 1) = u.endTile n c r.ser := by
  have hrun : ∀ u, OnlyWaits s u → (u.ctx c).run r.ser = some r := fun u hw => (run_of_waits hw c r.ser).trans hr
  have hkeeps : ∀ u, OnlyWaits s u → (u.ctx c).restarts = [] ∧ ∀ q ∈ (u.ctx c).runs, q.phase = .started → q.base ≠ none := fun u hw =>
    ⟨(congrArg Ctx.restarts (hw c).eq :).trans hre, by rw [(congrArg Ctx.runs (hw c).eq :)]; exact hfixed⟩
  have hlater : ∀ u, OnlyWaits s u → u.later n ⟨(s.ch n).cyc + 1, c, some r.ser, .check pseq⟩ = u.endTile n c r.ser := fun u hw => by
    rw [later_check (hrun u hw), if_pos (beq_iff_eq.mpr heq)]
  obtain ⟨u, hw, -, -, -, hpass⟩ := pass_next_first ht hc hd rfl hrest fun u hw hdue hcyc => by
    obtain ⟨hure, hufixed⟩ := hkeeps u hw
    intro q hq
    rw [hlater u hw, endTile_due hure hufixed (hrun u hw)] at hq
    rcases mem_tileEnded_due.mp hq with hq | hq
    · have := endWork_later r (u.ctx c) c (u.ch n) q hq
      omega
    · exact hrest q (hdue ▸ hq)
  obtain ⟨hure, hufixed⟩ := hkeeps u hw
  exact ⟨u, hw, hrun u hw, hure, hufixed, hpass.trans (hlater u hw)⟩

end

/-! ### What the end of a tile leaves -/

section
variable {s : State} {n c : Nat} {r : Run} (hre : (s.ctx c).restarts = [])
  (hfixed : ∀ q ∈ (s.ctx c).runs, q.phase = .started → q.base ≠ none) (hr : (s.ctx c).run r.ser = some r)
include hre hfixed hr

theorem endTile_leaves : ((s.endTile n c r.ser).ctx c).st = (s.ctx c).st ∧ ((s.endTile n c r.ser).ctx c).flags = (s.ctx c).flags
    ∧ ((s.endTile n c r.ser).ctx c).cnts = if r.prog.closes r.w.cbase then (s.ctx c).cnts.set r.count (r.base.getD 0 + r.rows)
        else (s.ctx c).cnts := by
  rw [endTile_ctx hre hfixed hr]
  exact ⟨rfl, rfl, rfl⟩

/-- Each service row of a sampling tile is to be committed in its own w (R255, Table 8-4). -/
theorem endTile_services (hmode : r.mode = .sample) {row : Nat} (hrow : row < r.rows)
    (hlast : row + 1 = r.rows ∨ (r.base.getD 0 + row + 1) % r.prog.sampleW.s = 0) : ∃ w : Nat,
      ⟨w, c, some r.ser, .close ⟨row, r.base.getD 0 + row, 0, w⟩⟩ ∈ ((s.endTile n c r.ser).ch n).due ∧ r.tEnd + 2 ≤ w
      ∧ (w = r.tEnd + 2 ∨ ∃ i < r.rows, (r.base.getD 0 + i) / r.prog.sampleW.s = (r.base.getD 0 + row) / r.prog.sampleW.s
          ∧ w = Tbl.look 0 r.rowU i + 1)
      ∧ ∀ i < r.rows, (r.base.getD 0 + i) / r.prog.sampleW.s = (r.base.getD 0 + row) / r.prog.sampleW.s →
          Tbl.look 0 r.rowU i + 1 ≤ w := by
  obtain ⟨hle, hval, hall⟩ := serviceCommit_spec r ((r.base.getD 0 + row) / r.prog.sampleW.s)
  have hclose := close_mem_endEvents (r := r.tileEnded (s.ctx c)) (c := c) hmode hrow hlast
  refine ⟨_, ?_, hle, hval, hall⟩
  rw [endTile_due hre hfixed hr]
  exact mem_tileEnded_due.mpr (.inl (List.mem_append_left _ hclose))

end

end Sys2Proof.Machine

namespace Sys2Proof
open Sys2Proof.Machine Sys2Proof.Safety

/-- Settles O47, by the verdict on the one beat that may be presented, and by the PSEQ of the tile-end beat that is checked. -/
theorem couchPresentsTheBeatItMay : Obligations.CouchPresentsTheBeatItMay := by
  unfold Obligations.CouchPresentsTheBeatItMay
  refine ⟨fun s n hin => ?_, fun s n c r pseq rest => ?_⟩
  · intro p t0
    have hexec := exec_couchPresent (n := n) hin
    have hnext : (s.ch n.val).serves = true → exec (.couchPresent n) s = .next (p.couch n.val) := fun hs => by rw [hexec, if_pos hs]
    refine ⟨fun hs => ?_, fun hs hnone => ?_, fun q hs hone hdue hchan => ?_⟩
    · rw [hexec, hs, if_neg Bool.false_ne_true]
    · rw [hnext hs, couch_of_none hnone]
    · intro x b
      have hq : q ∈ p.cands n.val := List.mem_of_mem_filter (hone ▸ List.mem_singleton_self q)
      refine ⟨fun p' r hv => ⟨?_, fun hsot hst => ?_⟩, fun p' k hv => ?_, fun p' w f hv hst => ?_⟩
      · intro hsot d hlater
        obtain ⟨hcouch, hcyc, hevents⟩ := presented_ch_leaves hv hchan
        obtain ⟨hheld, hst, hflags⟩ := presented_ctx_leaves hv
        have hpick := picks_of_verdict hv
        have hsame := presentBeat_ctx_same (s := p'.taken n.val q) (n := n.val) (c := q.ctx) (r := r) (b := b) (t := t0)
        refine ⟨p.couch n.val, hnext hs, ?_⟩
        rw [couch_of_go hone hdue hv hsot hchan hlater, shown_couch, shown_cyc, shown_polled, shown_due, shown_egress, shown_tenants, shown_ctx]
        refine ⟨hcouch, hcyc, rfl, presented_run_leaves hv hq, fun heot => ⟨?_, ?_⟩, fun hbeats => ?_, hevents,
          results_stand hv hchan, ?_, hheld, ?_, fun i o hc hf j cs hcs hj => results_converted hv hchan hc hcs hj, hst, hflags, fun e he => ?_, ?_⟩
        · rw [hsame, presented_lastEnd, if_pos heot]
        · rw [← hpick.ser]
          exact hevents _ (check_mem_beatEvents heot)
        · rw [hsame]
          exact presented_filling _ r b t0 d (hpick.beats.trans hbeats)
        · rw [hsame]
          exact presented_holds _ r b t0 d
        · rw [hsame, presented_stashQ]
          rfl
        · exact (shown_ctx ..).trans (presented_others hv he)
        · rw [presentBeat_tenants]
          exact (judged_of_verdict hv).tenants
      · exact ⟨_, hnext hs, couch_sequence_faults hone hdue hv hsot hst⟩
      · obtain ⟨hcouch, hcyc, hpolled, hruns, hst, hpace, hothers⟩ := couch_stall_stays hone hdue hv
        exact ⟨_, hnext hs, hcouch, hcyc, hpolled, hruns, hst, hpace, hothers,
          couch_stall_counts hone hdue hv (((servesStay_couchPoint n.val).serves n.val).trans hs)⟩
      · exact ⟨_, hnext hs, couch_operand_faults hone hdue hv hst⟩
  · intro t1 x t ht hc hd hrest hr hchan
    refine ⟨check_faults ht hc hd hrest hr, fun heq hend hre hfixed => ?_⟩
    obtain ⟨u, hw, hur, hure, hufixed, hpass⟩ := check_ends ht hc hd hrest hr heq hend hre hfixed
    have ht : t = u.endTile n.val c.val r.ser := hpass
    obtain ⟨hst, hflags, hcnts⟩ := endTile_leaves (n := n.val) hure hufixed hur
    rw [ht]
    refine ⟨⟨_, tileEnded_mem hure hufixed hur, rfl, rfl, rfl⟩, hst.trans (congrArg Ctx.st (hw c.val).eq :),
      hflags.trans (congrArg Ctx.flags (hw c.val).eq :), fun hcloses => ?_, fun hmode row hrow hlast => ?_⟩
    · rw [hcnts, if_pos hcloses, (congrArg Ctx.cnts (hw c.val).eq :)]
    · exact endTile_services hure hufixed hur hmode hrow hlast

end Sys2Proof
end
